-- ==== Sys2Proof/Word.lean ====
section
/-! DEFINITION. The byte and the register word of the part. -/
namespace Sys2Proof

/-- One byte of a port transaction, of the sample RAM or of the highway. -/
abbrev Byte := BitVec 8

/-- The tie-break registers (R74) are 16 bits wide. -/
abbrev Word16 := BitVec 16

end Sys2Proof
end

