-- ==== Sys2Proof/Config.lean ====
section
/-! DEFINITION. The capacities of the part (spec/00_scope.md 0.4), its fixed durations, and the FREE VALUES: constants with no
body, which stand where the manual gives an effect and no value. -/
namespace Sys2Proof.Config

/-- Entries of a port's notice queue (R186). -/
def noticeCapacity : Nat := 64

/-- Bytes of the sample RAM (R141). -/
def ramBytes : Nat := 4194304

/-- Frames of a fill (R156) and of the substitute for a missing segment (R152): 1 s at 8000 frames a second. -/
def secondFrames : Nat := 8000

/-- Frames of one tenth of a second, the unit of a SILENCE operand (R152). -/
def tenthFrames : Nat := 800

/-- One more than the largest station second and the largest arrival sequence number (spec/00_scope.md 0.4, R56). -/
def wrap32 : Nat := 4294967296

/-- The waiting time, in seconds, at which the wait list's head makes the STARVED condition true (R168). -/
def starvedSeconds : Nat := 30

/-- Largest value of a saturating 16-bit count: calls handled (R21) and the statistics (R43). -/
def count16Max : Nat := 65535

/-- FREE VALUE (log entry 7): the station second that follows 4,294,967,295, which the manual does not state; one for each
value of the state's counter of free values. -/
opaque clockAfterLast : Nat → BitVec 32

/-- FREE VALUE (log entry 8): a byte clocked out after the last byte of a response; one for each value of the counter. -/
opaque byteAfterResponse : Nat → Byte

/-- FREE VALUE (log entry 9): what is returned in a field of `bytes` bytes for a value too large for it, which the manual does
not state; a function of the width and the value, of which the low `bytes` bytes are used. -/
opaque wideField (bytes value : Nat) : Nat

end Sys2Proof.Config
end

