-- ==== Sys2Proof/Syntax.lean ====
section
/-! DEFINITION. The commands of the part: one constructor of `Instr` for each row of spec/opcode_table.json.

Event commands name the record the event is about. A request command carries the port it is written on and EVERY byte the master
shifts in after the kind byte (R197): the two length bytes and the parameter bytes, as they came, so that a record cut short, too
long or of the wrong length is a command too and is answered as R182 says. -/
namespace Sys2Proof

/-- Agent slots 0–511 (R1). -/
abbrev AgentSlot := Fin 512
/-- Call slots 0–1023 (R53). -/
abbrev CallSlot := Fin 1024
/-- Skill groups 0–63 (R29). -/
abbrev Group := Fin 64
/-- Music sources 0–7 (R161). -/
abbrev SourceNo := Fin 8
/-- Announcement channels 0–15 (R169). -/
abbrev ChannelNo := Fin 16
/-- Highway channels 0–23: music sources 0–7, then announcement channels 0–15 (R175). -/
abbrev HighwayChannel := Fin 24
/-- Highway timeslots 0–31 (R175). -/
abbrev Timeslot := Fin 32
/-- Codes of the segment table, 0–239 (R142). -/
abbrev SegmentCode := Fin 240
/-- Programs 0–63 (R147). -/
abbrev ProgramNo := Fin 64
/-- Entries of the number vocabulary, 0–28 (R157). -/
abbrev VocabNo := Fin 29
/-- Service lines 0–3 (R40). -/
abbrev LineNo := Fin 4

/-- The two call-control shelves. -/
inductive Shelf
  | a | b
  deriving DecidableEq, Repr

/-- The three control ports PA, PB and PS (R181). -/
inductive Port
  | a | b | s
  deriving DecidableEq, Repr

/-- The transactions on a port (R196). -/
inductive Transaction
  | statusRead | requestWrite | responseRead
  deriving DecidableEq, Repr

/-- The request kinds of the table in R197. -/
inductive Kind
  | agentRead | signIn | ready | aux | signOut | wrapExtend | wrapEnd | agentAnswer | agentNoAnswer | agentHangup
  | agentDefine | forceAux | forceSignOut
  | groupRead | groupStage | groupSwap | groupOpen | groupClose | groupStats | groupWatchMask | lineMode | lineRead
  | callArrive | callRelease | callRead | tiebreakSet | tiebreakRead
  | storeWrite | storeRead | segmentLoad | segmentRead | programLoad | programRead | vocabLoad | vocabRead
  | sourceRead | sourceSet | sourceLimit | channelRead | slotMap | slotRead | idleByteSet
  | fetch | watchRead | watchClear | watchMask | purgeShelf | restart | purge
  deriving DecidableEq, Repr

/-- The commands. The comment after a constructor names its row of spec/opcode_table.json where the spelling differs. -/
inductive Instr
  /-- POWER_ON_RESET: the power-on reset pin. -/
  | powerOnReset
  /-- STATION_CLOCK_ADVANCE: the station clock advances by one second. -/
  | stationClockAdvance
  /-- RING_TIMER_EXPIRY of the ring timer of call `c` (R95). -/
  | ringTimerExpiry (c : CallSlot)
  /-- WRAP_EXPIRY of the wrap of agent `a` (R120). -/
  | wrapExpiry (a : AgentSlot)
  /-- OVERFLOW_WAIT_EXPIRY of the overflow-wait timer of call `c` (R68). -/
  | overflowWaitExpiry (c : CallSlot)
  /-- ANNOUNCEMENT_DUE for call `c` (R167). -/
  | announcementDue (c : CallSlot)
  /-- SERVICE_LINE_INPUT_CHANGE: the input of line `l` takes the level `high` (R40). -/
  | serviceLineInputChange (l : LineNo) (high : Bool)
  /-- SEEN_LEVEL_EDGE: line `l`'s input has held its level for 50 ms (R40). -/
  | seenLevelEdge (l : LineNo)
  /-- HIGHWAY_FRAME (R176). -/
  | highwayFrame
  /-- STEP_COMPLETE of the run on highway channel `h` (R150). -/
  | stepComplete (h : HighwayChannel)
  /-- FILL_COMPLETE of the run on highway channel `h` (R156). -/
  | fillComplete (h : HighwayChannel)
  /-- CALL_TRIGGER: the waiting trigger of call `c` is taken (R81). -/
  | callTrigger (c : CallSlot)
  /-- AGENT_TRIGGER: the waiting trigger of agent `a` is taken (R84). -/
  | agentTrigger (a : AgentSlot)
  /-- SWEEP: the waiting sweep is taken (R86). -/
  | sweep
  /-- RESPONSE_READ: a transaction on `p` that is no request write, `sent` being the bytes that the master shifts in: the transaction type,
  then any value in each further byte time (R184, R196). Of the type 0x03 it is a response read, of any other a status read (log entry
  23). -/
  | responseRead (p : Port) (sent : List Byte)
  /-- REQUEST_REJECTED: a request record is written on `p` while its slot is BUSY or RESPONSE_READY (R183). -/
  | requestRejected (p : Port) (record : List Byte)
  /-- UNKNOWN_REQUEST_KIND: a request record whose kind byte is none of R197's, or that ends before its kind byte (R182). -/
  | unknownRequestKind (p : Port) (record : List Byte)
  | agentRead (p : Port) (body : List Byte)
  | signIn (p : Port) (body : List Byte)
  | ready (p : Port) (body : List Byte)
  | aux (p : Port) (body : List Byte)
  | signOut (p : Port) (body : List Byte)
  | wrapExtend (p : Port) (body : List Byte)
  | wrapEnd (p : Port) (body : List Byte)
  | agentAnswer (p : Port) (body : List Byte)
  | agentNoAnswer (p : Port) (body : List Byte)
  | agentHangup (p : Port) (body : List Byte)
  | agentDefine (p : Port) (body : List Byte)
  | forceAux (p : Port) (body : List Byte)
  | forceSignOut (p : Port) (body : List Byte)
  | groupRead (p : Port) (body : List Byte)
  | groupStage (p : Port) (body : List Byte)
  | groupSwap (p : Port) (body : List Byte)
  | groupOpen (p : Port) (body : List Byte)
  | groupClose (p : Port) (body : List Byte)
  | groupStats (p : Port) (body : List Byte)
  | groupWatchMask (p : Port) (body : List Byte)
  | lineMode (p : Port) (body : List Byte)
  | lineRead (p : Port) (body : List Byte)
  | callArrive (p : Port) (body : List Byte)
  | callRelease (p : Port) (body : List Byte)
  | callRead (p : Port) (body : List Byte)
  | tiebreakSet (p : Port) (body : List Byte)
  | tiebreakRead (p : Port) (body : List Byte)
  | storeWrite (p : Port) (body : List Byte)
  | storeRead (p : Port) (body : List Byte)
  | segmentLoad (p : Port) (body : List Byte)
  | segmentRead (p : Port) (body : List Byte)
  | programLoad (p : Port) (body : List Byte)
  | programRead (p : Port) (body : List Byte)
  | vocabLoad (p : Port) (body : List Byte)
  | vocabRead (p : Port) (body : List Byte)
  | sourceRead (p : Port) (body : List Byte)
  | sourceSet (p : Port) (body : List Byte)
  | sourceLimit (p : Port) (body : List Byte)
  | channelRead (p : Port) (body : List Byte)
  | slotMap (p : Port) (body : List Byte)
  | slotRead (p : Port) (body : List Byte)
  | idleByteSet (p : Port) (body : List Byte)
  | fetch (p : Port) (body : List Byte)
  | watchRead (p : Port) (body : List Byte)
  | watchClear (p : Port) (body : List Byte)
  | watchMask (p : Port) (body : List Byte)
  | purgeShelf (p : Port) (body : List Byte)
  | purge (p : Port) (body : List Byte)
  | restart (p : Port) (body : List Byte)
  deriving DecidableEq, Repr

end Sys2Proof
end

