-- ==== Sys2Proof/Decode.lean ====
section
/-! DEFINITION. The codes of the request kinds (R197), the transaction types (R196) and the decoder the host asks for. No row of spec/opcode_table.json gives
bits, so `decodeTableWord` reads no command from any word. -/
namespace Sys2Proof

/-- The kind byte of each request kind (the first column of R197's table). -/
def Kind.code : Kind → Nat
  | .agentRead => 0x10
  | .signIn => 0x11
  | .ready => 0x12
  | .aux => 0x13
  | .signOut => 0x14
  | .wrapExtend => 0x15
  | .wrapEnd => 0x16
  | .agentAnswer => 0x17
  | .agentNoAnswer => 0x18
  | .agentHangup => 0x19
  | .agentDefine => 0x1A
  | .forceAux => 0x1B
  | .forceSignOut => 0x1C
  | .groupRead => 0x20
  | .groupStage => 0x21
  | .groupSwap => 0x22
  | .groupOpen => 0x23
  | .groupClose => 0x24
  | .groupStats => 0x25
  | .groupWatchMask => 0x26
  | .lineMode => 0x27
  | .lineRead => 0x28
  | .callArrive => 0x30
  | .callRelease => 0x31
  | .callRead => 0x32
  | .tiebreakSet => 0x38
  | .tiebreakRead => 0x39
  | .storeWrite => 0x40
  | .storeRead => 0x41
  | .segmentLoad => 0x42
  | .segmentRead => 0x43
  | .programLoad => 0x44
  | .programRead => 0x45
  | .vocabLoad => 0x46
  | .vocabRead => 0x47
  | .sourceRead => 0x50
  | .sourceSet => 0x51
  | .sourceLimit => 0x52
  | .channelRead => 0x53
  | .slotMap => 0x54
  | .slotRead => 0x55
  | .idleByteSet => 0x56
  | .fetch => 0x60
  | .watchRead => 0x61
  | .watchClear => 0x62
  | .watchMask => 0x63
  | .purgeShelf => 0x64
  | .restart => 0x65
  | .purge => 0x66

/-- Every request kind, in the order of R197's table. -/
def Kind.all : List Kind :=
  [.agentRead, .signIn, .ready, .aux, .signOut, .wrapExtend, .wrapEnd, .agentAnswer, .agentNoAnswer, .agentHangup,
    .agentDefine, .forceAux, .forceSignOut, .groupRead, .groupStage, .groupSwap, .groupOpen, .groupClose,
    .groupStats, .groupWatchMask, .lineMode, .lineRead, .callArrive, .callRelease, .callRead, .tiebreakSet,
    .tiebreakRead, .storeWrite, .storeRead, .segmentLoad, .segmentRead, .programLoad, .programRead, .vocabLoad,
    .vocabRead, .sourceRead, .sourceSet, .sourceLimit, .channelRead, .slotMap, .slotRead, .idleByteSet, .fetch,
    .watchRead, .watchClear, .watchMask, .purgeShelf, .restart, .purge]

/-- The kind that a kind byte names, if the controller knows it (R182, check 1). -/
def Kind.ofCode (b : Byte) : Option Kind :=
  Kind.all.find? fun k => k.code == b.toNat

/-- The transaction that a type byte begins: one that is none of the three types is treated as a status read (R196). -/
def Transaction.ofByte (b : Byte) : Transaction :=
  if b = 0x02 then .requestWrite else if b = 0x03 then .responseRead else .statusRead

/-- The command a word spells by the table's bits: none, since no row of spec/opcode_table.json has "fixed" or "fields". -/
def decodeTableWord (_nbits _w : Nat) : Option Instr := none

end Sys2Proof
end

