-- ==== Sys2Proof/WellFormed.lean ====
section
/-! DEFINITION. The check of a command's operands. Record slots, lines, channels and ports are in range by their types; what is
left to check is that an UNKNOWN_REQUEST_KIND does not carry a kind byte the controller knows, and that a RESPONSE_READ has a type byte
that is not a request write's. -/
namespace Sys2Proof

/-- A record is of an unknown kind when it ends before its kind byte or its kind byte is none of R197's (R182, check 1). -/
def unknownKind : List Byte → Bool
  | [] => true
  | k :: _ => (Kind.ofCode k).isNone

/-- The check of a command. -/
def Instr.wellFormed : Instr → Bool
  | .unknownRequestKind _ record => unknownKind record
  | .responseRead _ sent => sent.head?.any fun b => Transaction.ofByte b != .requestWrite
  | .powerOnReset | .stationClockAdvance | .ringTimerExpiry _ | .wrapExpiry _ | .overflowWaitExpiry _ | .announcementDue _
  | .serviceLineInputChange _ _ | .seenLevelEdge _ | .highwayFrame | .stepComplete _ | .fillComplete _
  | .callTrigger _ | .agentTrigger _ | .sweep | .requestRejected _ _
  | .agentRead _ _ | .signIn _ _ | .ready _ _ | .aux _ _ | .signOut _ _ | .wrapExtend _ _ | .wrapEnd _ _
  | .agentAnswer _ _ | .agentNoAnswer _ _ | .agentHangup _ _ | .agentDefine _ _ | .forceAux _ _ | .forceSignOut _ _
  | .groupRead _ _ | .groupStage _ _ | .groupSwap _ _ | .groupOpen _ _ | .groupClose _ _ | .groupStats _ _
  | .groupWatchMask _ _ | .lineMode _ _ | .lineRead _ _ | .callArrive _ _ | .callRelease _ _ | .callRead _ _
  | .tiebreakSet _ _ | .tiebreakRead _ _ | .storeWrite _ _ | .storeRead _ _ | .segmentLoad _ _ | .segmentRead _ _
  | .programLoad _ _ | .programRead _ _ | .vocabLoad _ _ | .vocabRead _ _ | .sourceRead _ _ | .sourceSet _ _
  | .sourceLimit _ _ | .channelRead _ _ | .slotMap _ _ | .slotRead _ _ | .idleByteSet _ _ | .fetch _ _
  | .watchRead _ _ | .watchClear _ _ | .watchMask _ _ | .purgeShelf _ _ | .purge _ _ | .restart _ _ => true

end Sys2Proof
end

