-- ==== Sys2Proof/Machine/State.lean ====
section
/-! DEFINITION. The state of the part as plain data: every record, queue, table, flag, timer and pin the manual names, its value
at power-on (`State.reset`), and the reasons a step can stop. Optional fields are `Option`; a field the manual gives a value in
certain states only is kept at its cleared value in the others. -/
namespace Sys2Proof.Machine

/-- A call's tag, chosen by its shelf (R53): named and compared, never computed with. -/
abbrev Tag := BitVec 16

/-- The six agent states (R1). -/
inductive AgentState
  | signedOut | aux | ready | offered | connected | wrap
  deriving DecidableEq, Repr

/-- The pending change of an agent (R19). `signOutPurge` is the pending sign-out marked by purge (R27). -/
inductive Pending
  | none
  | aux (reason : Nat)
  | signOut
  | signOutPurge
  deriving DecidableEq, Repr

/-- Whether a wrap's handle-time sample is handed to the Estimator (R112). -/
inductive SampleMark
  | keep | drop
  deriving DecidableEq, Repr

/-- A skill: a group and a level 1–9 (R2). -/
structure Skill where
  group : Group
  level : Nat
  deriving DecidableEq, Repr

/-- The wrap fields of an agent record (R112); all cleared outside WRAP. -/
structure WrapFields where
  start : Nat := 0
  finish : Nat := 0
  cap : Nat := 0
  extensions : Nat := 0
  group : Group := 0
  talk : Nat := 0
  mark : SampleMark := .keep
  deriving DecidableEq, Repr

/-- One agent record (R1), with its power-on values (R3). -/
structure AgentRec where
  defined : Bool := false
  home : Shelf := .a
  skills : List Skill := []
  state : AgentState := .signedOut
  auxReason : Nat := 0
  idleSince : Nat := 0
  boundCall : Option CallSlot := none
  pending : Pending := .none
  wrap : WrapFields := {}
  callsHandled : Nat := 0
  answerStart : Nat := 0
  owed : Bool := false
  deriving DecidableEq, Repr

/-- No-answer action of a group (R30). -/
inductive NoAnswerAction
  | aux | ready
  deriving DecidableEq, Repr

/-- Selection policy of a group (R30, R82). -/
inductive Policy
  | longestIdle | highestLevel | leastCalls
  deriving DecidableEq, Repr

/-- A parameter set, in the order of the table in R30 and with its defaults. -/
structure Params where
  wrapTime : Nat := 30
  extStep : Nat := 30
  extLimit : Nat := 1
  wrapCap : Nat := 300
  ringTimeout : Nat := 20
  noAnswerLimit : Nat := 3
  noAnswerAction : NoAnswerAction := .aux
  policy : Policy := .longestIdle
  weight : Nat := 4
  priorityStep : Nat := 30
  maxDepth : Nat := 256
  overflowTarget : Option Group := none
  overflowWait : Nat := 0
  overflowOnFull : Bool := false
  music : Option SourceNo := none
  program : Option ProgramNo := none
  firstDelay : Nat := 30
  interval : Nat := 60
  shift : Nat := 3
  depthThreshold : Nat := 0
  waitObjective : Nat := 0
  line : Option LineNo := none
  deriving DecidableEq, Repr

/-- The three group watch kinds (R46). -/
inductive GroupKind
  | depth | wait | noStaff
  deriving DecidableEq, Repr

/-- One bit for each group watch kind: the flags, the masks (true is masked) or the condition values of a group. -/
structure WatchBits where
  depth : Bool := false
  wait : Bool := false
  noStaff : Bool := false
  deriving DecidableEq, Repr

/-- The five statistics of a group (R43). -/
structure Stats where
  answered : Nat := 0
  abandoned : Nat := 0
  overflowedOut : Nat := 0
  overflowedIn : Nat := 0
  purged : Nat := 0
  deriving DecidableEq, Repr

/-- One group record (R29), with its power-on values (R51). Queue length and oldest group-entry age are computed (R45), the
closed state is derived (R38). The average is in sixteenths of a second, `none` being UNSET (R129). -/
structure GroupRec where
  active : Params := {}
  staged : Params := {}
  swapPending : Bool := false
  offers : Nat := 0
  supervisorClosed : Bool := true
  queue : List CallSlot := []
  stats : Stats := {}
  staffed : Nat := 0
  average : Option Nat := none
  flags : WatchBits := {}
  masks : WatchBits := {}
  conditions : WatchBits := {}
  deriving DecidableEq, Repr

/-- The four call states (R53). -/
inductive CallState
  | queued | offered | connected | clearing
  deriving DecidableEq, Repr

/-- What a waiting caller hears (R159). -/
inductive Listen
  | silent
  | music (m : SourceNo)
  | announce (j : ChannelNo)
  deriving DecidableEq, Repr

/-- One call record (R53). `ring` is the expiry second of the call's ring timer, held while the call is OFFERED (R94). -/
structure CallRec where
  owner : Shelf
  tag : Tag
  state : CallState := .queued
  group : Group
  priority : Nat := 0
  arrival : Nat := 0
  seq : Nat := 0
  entry : Nat := 0
  key : Int := 0
  overflowDue : Option Nat := none
  hops : Nat := 0
  noAnswers : Nat := 0
  lastRefused : Option AgentSlot := none
  pendingOverflow : Bool := false
  boundAgent : Option AgentSlot := none
  ring : Option Nat := none
  listen : Listen := .silent
  nextDue : Option Nat := none
  onWaitList : Bool := false
  owedListen : Bool := false
  owedConnect : Bool := false
  owedCleared : Bool := false
  talkStart : Nat := 0
  deriving DecidableEq, Repr

/-- The five modes of a service line (R41). -/
inductive LineMode
  | off | levelHigh | levelLow | toggleRise | toggleFall
  deriving DecidableEq, Repr

/-- One service line (R40, R41): the level on its input pin, the filter's seen level, the mode and the toggle latch.
The 50 ms hold runs exactly while the input and the seen level differ. -/
structure LineRec where
  input : Bool := false
  seen : Bool := false
  mode : LineMode := .off
  latch : Bool := false
  deriving DecidableEq, Repr

/-- One entry of the segment table (R142, R143). -/
structure SegmentRec where
  start : Nat := 0
  length : Nat := 0
  inUse : Nat := 0
  deriving DecidableEq, Repr

/-- The seven step kinds (R147). `again` is REPEAT. -/
inductive StepKind
  | play | silence | sayPosition | sayWait | mark | again | finish
  deriving DecidableEq, Repr

/-- A program step as stored: its kind and its operand byte (R200). -/
structure Step where
  kind : StepKind
  operand : Byte
  deriving DecidableEq, Repr

/-- The two returns of R156: the jump of a REPEAT, and the restart of a music program after its end. -/
inductive Return
  | jump | restart
  deriving DecidableEq, Repr

/-- The run state of a channel (R149). `segment` is the current segment. The fill flag is set exactly while `fill` holds a
return that waits for the fill to be played. -/
structure Run where
  program : ProgramNo
  step : Nat := 0
  position : Nat := 0
  segment : Option SegmentCode := none
  words : List VocabNo := []
  word : Nat := 0
  counters : List Nat := List.replicate 32 0
  played : Bool := false
  fill : Option Return := none
  deriving DecidableEq, Repr

/-- The staged program of a music source (R161): empty, or a value that is a program or none. -/
inductive Staged
  | empty
  | value (program : Option ProgramNo)
  deriving DecidableEq, Repr

/-- One music source (R161). It is RUNNING exactly while it holds a run state. -/
structure SourceRec where
  current : Option ProgramNo := none
  staged : Staged := .empty
  run : Option Run := none
  listeners : Nat := 0
  idlePasses : Nat := 0
  idleLimit : Nat := 2
  deriving DecidableEq, Repr

/-- What a BUSY announcement channel holds (R169). -/
structure Announcement where
  call : CallSlot
  run : Run
  deriving DecidableEq, Repr

/-- An entry of the announcement wait list (R168): the call and the second at which its announcement fell due. -/
structure WaitEntry where
  call : CallSlot
  due : Nat
  deriving DecidableEq, Repr

/-- Idle output mode of a highway channel (R175). -/
inductive IdleMode
  | idleByte | off
  deriving DecidableEq, Repr

/-- A watch flag as a WATCH notice names it (R192). -/
inductive Watch
  | purgeDone | segmentFault | starved
  | noStaff (g : Group)
  | wait (g : Group)
  | depth (g : Group)
  deriving DecidableEq, Repr

/-- A notice with its content as it was built (R186, R199). In AGENT_STATE, `call` is the owner shelf and tag of the bound
call, held in OFFERED and CONNECTED. -/
inductive Notice
  | agentState (agent : AgentSlot) (state : AgentState) (auxReason : Nat) (remaining : Nat) (call : Option (Shelf × Tag))
  | listen (tag : Tag) (slot : Option Timeslot)
  | connect (tag : Tag) (agent : AgentSlot) (home : Shelf)
  | cleared (tag : Tag)
  | watch (flag : Watch)
  deriving DecidableEq, Repr

/-- The notice kinds that a call record can owe (R187). -/
inductive CallNotice
  | listen | connect | cleared
  deriving DecidableEq, Repr

/-- A (record, kind) pair of an owed list (R187). -/
inductive OwedPair
  | agentState (a : AgentSlot)
  | call (c : CallSlot) (kind : CallNotice)
  | watch
  deriving DecidableEq, Repr

/-- The states of a request slot (R181). -/
inductive SlotState
  | idle | busy | responseReady
  deriving DecidableEq, Repr

/-- One control port (R181, R186, R187). `shifted` is what the controller shifted out in the port's latest transaction
(R184, R196). The attention line is asserted exactly while `notices` is not empty (R186). -/
structure PortRec where
  slot : SlotState := .idle
  response : List Byte := []
  rejected : Bool := false
  notices : List Notice := []
  owed : List OwedPair := []
  shifted : List Byte := []
  deriving DecidableEq, Repr

/-- The device watch flags and masks (R190; true is masked), the STARVED condition value, and port S's WATCH owed flag (R187). -/
structure DeviceRec where
  purgeDone : Bool := false
  segmentFault : Bool := false
  starved : Bool := false
  maskSegmentFault : Bool := false
  maskStarved : Bool := false
  starvedCondition : Bool := false
  watchOwed : Bool := false
  deriving DecidableEq, Repr

/-- The result codes of responses (R201). -/
inductive Result
  | ok | okClamped | pending | empty | late | noCall
  | badRequest | badParam | badGroup | badState | noAgent | notHome | already | busy | limit | unknownCall
  | duplicate | closed | callsFull | queueFull
  deriving DecidableEq, Repr

/-- The reasons the part stops with a fault: none. The manual names no condition that stops it; a bad request is answered with a
refusing result code and changes nothing (R197, R201), so no command raises a fault. -/
inductive Fault
  deriving DecidableEq, Repr

/-- The reasons a command has no meaning in the model. -/
inductive Refusal
  /-- Raised by an arm of `exec` for a command not yet modelled; no arm raises it now. Safe: nothing is claimed of the command. -/
  | notModelled (mnemonic : String)
  deriving DecidableEq, Repr

/-- The whole state of the part, with the model's own two fields at the end. -/
structure State where
  /-- The station clock, in whole seconds. -/
  clock : Nat
  agents : Vector AgentRec 512
  groups : Vector GroupRec 64
  /-- The call slots; `none` is a free slot (R53). -/
  calls : Vector (Option CallRec) 1024
  /-- The arrival sequence counter (R56). -/
  seqCounter : Nat
  lines : Vector LineRec 4
  /-- The tie-break seed, tap mask and generator state (R74). -/
  seed : Word16
  taps : Word16
  generator : Word16
  /-- The waiting triggers (R76): call triggers and agent triggers without repeats, and at most one sweep. -/
  callTriggers : List CallSlot
  agentTriggers : List AgentSlot
  sweepWaiting : Bool
  /-- The sample RAM (R141): addresses strictly rising, no byte 0 listed; an unlisted address reads 0. -/
  ram : List Host.Cell
  segments : Vector SegmentRec 240
  /-- Program memory (R147). -/
  programs : Vector (List Step) 64
  /-- The number vocabulary (R157); `none` is an empty entry. -/
  vocab : Vector (Option Byte) 29
  sources : Vector SourceRec 8
  /-- The announcement channels (R169); `none` is FREE. -/
  channels : Vector (Option Announcement) 16
  waitList : List WaitEntry
  slotMap : Vector (Option Timeslot) 24
  idleModes : Vector IdleMode 24
  idleByte : Byte
  /-- What each timeslot carried at the latest frame (R176); `none` is undriven. -/
  highway : Vector (Option Byte) 32
  portA : PortRec
  portB : PortRec
  portS : PortRec
  device : DeviceRec
  /-- The MODEL's own: how many free values have been drawn (log entry 8). -/
  free : Nat
  /-- The MODEL's own: the commands waiting, the next one at the front. -/
  pending : List Instr
  deriving DecidableEq, Repr

/-- The part at power-on: R3, R51, R73, R74, R40, R42, R129, R141, R142, R147, R157, R161, R168, R169, R175, R178, R181, R186,
R187, R190. The input levels (log entry 14), the highway output and the shifted bytes (log entry 15) and the counter of free
values (log entry 8) are the model's choices. -/
def State.reset : State where
  clock := 0
  agents := Vector.replicate 512 {}
  groups := Vector.replicate 64 {}
  calls := Vector.replicate 1024 none
  seqCounter := 0
  lines := Vector.replicate 4 {}
  seed := 0xACE1
  taps := 0xD008
  generator := 0xACE1
  callTriggers := []
  agentTriggers := []
  sweepWaiting := false
  ram := []
  segments := Vector.replicate 240 {}
  programs := Vector.replicate 64 []
  vocab := Vector.replicate 29 none
  sources := Vector.replicate 8 {}
  channels := Vector.replicate 16 none
  waitList := []
  slotMap := #v[some 0, some 1, some 2, some 3, some 4, some 5, some 6, some 7, some 8, some 9, some 10, some 11, some 12,
    some 13, some 14, some 15, some 16, some 17, some 18, some 19, some 20, some 21, some 22, some 23]
  idleModes := Vector.replicate 24 .idleByte
  idleByte := 0xFF
  highway := Vector.replicate 32 none
  portA := {}
  portB := {}
  portS := {}
  device := {}
  free := 0
  pending := []

end Sys2Proof.Machine
end

