-- ==== Sys2Proof/Machine/Ops.lean ====
section
/-! DEFINITION. The named operations: reading and writing the records of the state, the sample RAM, the station clock's reads, the
waiting triggers, and handing notices to ports (R187). Every other file reads and writes the state through these. -/
namespace Sys2Proof.Machine

/-! ### Tables -/

/-- The entries of a table that satisfy `p`, in ascending order. -/
@[irreducible] def findAll {α : Type} {n : Nat} (p : α → Bool) (v : Vector α n) : List (Fin n) :=
  ((List.finRange n).zip v.toList).filterMap fun e => if p e.2 then some e.1 else none

/-- A table with `f` applied to each entry. -/
def mapTable {α β : Type} {n : Nat} (f : α → β) (v : Vector α n) : Vector β n :=
  ⟨⟨v.toList.map f⟩, by simp⟩

/-- A count that stops at 65535 (R21, R43). -/
def bump (n : Nat) : Nat := min Config.count16Max (n + 1)

/-! ### Shelves and ports -/

/-- The other shelf. -/
def other : Shelf → Shelf
  | .a => .b
  | .b => .a

/-- The port of a shelf. -/
def portOf : Shelf → Port
  | .a => .a
  | .b => .b

/-- The shelf whose port it is; port S is no shelf's. -/
def shelfOf : Port → Option Shelf
  | .a => some .a
  | .b => some .b
  | .s => none

namespace State

/-! ### Records -/

def agent (s : State) (a : AgentSlot) : AgentRec := s.agents.get a
def setAgent (s : State) (a : AgentSlot) (r : AgentRec) : State := { s with agents := s.agents.set a.val r a.isLt }

def group (s : State) (g : Group) : GroupRec := s.groups.get g
def setGroup (s : State) (g : Group) (r : GroupRec) : State := { s with groups := s.groups.set g.val r g.isLt }
/-- Group `g`'s record changed by `f`. -/
def modGroup (s : State) (g : Group) (f : GroupRec → GroupRec) : State := s.setGroup g (f (s.group g))

/-- The record in call slot `c`, if the slot is in use (R53). -/
def call (s : State) (c : CallSlot) : Option CallRec := s.calls.get c
def putCall (s : State) (c : CallSlot) (r : Option CallRec) : State := { s with calls := s.calls.set c.val r c.isLt }
/-- The record in call slot `c` changed by `f`; a free slot stays free. -/
def modCall (s : State) (c : CallSlot) (f : CallRec → CallRec) : State := s.putCall c ((s.call c).map f)

def line (s : State) (l : LineNo) : LineRec := s.lines.get l
def setLine (s : State) (l : LineNo) (r : LineRec) : State := { s with lines := s.lines.set l.val r l.isLt }

def segment (s : State) (k : SegmentCode) : SegmentRec := s.segments.get k
def setSegment (s : State) (k : SegmentCode) (r : SegmentRec) : State :=
  { s with segments := s.segments.set k.val r k.isLt }

def programSteps (s : State) (p : ProgramNo) : List Step := s.programs.get p
def setProgram (s : State) (p : ProgramNo) (steps : List Step) : State :=
  { s with programs := s.programs.set p.val steps p.isLt }

def vocabEntry (s : State) (v : VocabNo) : Option Byte := s.vocab.get v
def setVocab (s : State) (v : VocabNo) (e : Option Byte) : State := { s with vocab := s.vocab.set v.val e v.isLt }

def source (s : State) (m : SourceNo) : SourceRec := s.sources.get m
def setSource (s : State) (m : SourceNo) (r : SourceRec) : State := { s with sources := s.sources.set m.val r m.isLt }

def channel (s : State) (j : ChannelNo) : Option Announcement := s.channels.get j
def setChannel (s : State) (j : ChannelNo) (b : Option Announcement) : State :=
  { s with channels := s.channels.set j.val b j.isLt }

def slotOf (s : State) (h : HighwayChannel) : Option Timeslot := s.slotMap.get h
def modeOf (s : State) (h : HighwayChannel) : IdleMode := s.idleModes.get h
/-- Highway channel `h` mapped to `t` with idle mode `m` (R175). -/
def setSlot (s : State) (h : HighwayChannel) (t : Option Timeslot) (m : IdleMode) : State :=
  { s with slotMap := s.slotMap.set h.val t h.isLt, idleModes := s.idleModes.set h.val m h.isLt }

def port (s : State) : Port → PortRec
  | .a => s.portA
  | .b => s.portB
  | .s => s.portS
def setPort (s : State) (p : Port) (r : PortRec) : State :=
  match p with
  | .a => { s with portA := r }
  | .b => { s with portB := r }
  | .s => { s with portS := r }
/-- Port `p`'s record changed by `f`. -/
def modPort (s : State) (p : Port) (f : PortRec → PortRec) : State := s.setPort p (f (s.port p))

def setDevice (s : State) (d : DeviceRec) : State := { s with device := d }
def setWaitList (s : State) (l : List WaitEntry) : State := { s with waitList := l }
def setRam (s : State) (m : List Host.Cell) : State := { s with ram := m }
def setHighway (s : State) (v : Vector (Option Byte) 32) : State := { s with highway := v }
def setGenerator (s : State) (w : Word16) : State := { s with generator := w }
def setTiebreak (s : State) (seed taps : Word16) : State := { s with seed := seed, taps := taps, generator := seed }
def setSeqCounter (s : State) (n : Nat) : State := { s with seqCounter := n }
def setIdleByte (s : State) (b : Byte) : State := { s with idleByte := b }
def setClock (s : State) (n : Nat) : State := { s with clock := n }
/-- `n` free values are drawn. -/
def draw (s : State) (n : Nat) : State := { s with free := s.free + n }

/-- The attention line of a port (R186). -/
def attention (s : State) (p : Port) : Bool := !(s.port p).notices.isEmpty

/-- The call a shelf names by a tag, among its calls in use (R54). -/
def findCall (s : State) (x : Shelf) (t : Tag) : Option CallSlot :=
  (findAll (fun o => o.any fun r => r.owner == x && r.tag == t) s.calls).head?

/-! ### Waiting triggers (R75, R76) -/

def raiseCallTrigger (s : State) (c : CallSlot) : State :=
  if c ∈ s.callTriggers then s else { s with callTriggers := s.callTriggers ++ [c] }
def raiseAgentTrigger (s : State) (a : AgentSlot) : State :=
  if a ∈ s.agentTriggers then s else { s with agentTriggers := s.agentTriggers ++ [a] }
def raiseSweep (s : State) : State := { s with sweepWaiting := true }
def dropCallTrigger (s : State) (c : CallSlot) : State :=
  { s with callTriggers := s.callTriggers.filter (· != c) }
def dropAgentTrigger (s : State) (a : AgentSlot) : State :=
  { s with agentTriggers := s.agentTriggers.filter (· != a) }
def dropSweep (s : State) : State := { s with sweepWaiting := false }
def dropTriggers (s : State) : State := { s with callTriggers := [], agentTriggers := [], sweepWaiting := false }

end State

/-! ### The sample RAM (R141) -/

/-- The byte at an address; an address not listed reads 0, the power-on value of R141. -/
def Memory.read : List Host.Cell → Nat → Byte
  | [], _ => 0
  | (b, v) :: rest, a => if b = a then v else Memory.read rest a

/-- The RAM with one byte written, in canonical form. -/
def Memory.write : List Host.Cell → Nat → Byte → List Host.Cell
  | [], a, v => if v = 0 then [] else [(a, v)]
  | (b, w) :: rest, a, v =>
    if a < b then (if v = 0 then (b, w) :: rest else (a, v) :: (b, w) :: rest)
    else if a = b then (if v = 0 then rest else (a, v) :: rest)
    else (b, w) :: Memory.write rest a v

/-- Bytes written in order from an address upward (R144). -/
def Memory.writeBytes : List Host.Cell → Nat → List Byte → List Host.Cell
  | m, _, [] => m
  | m, a, v :: rest => Memory.writeBytes (Memory.write m a v) (a + 1) rest

/-- `n` bytes read from an address upward (R145). -/
def Memory.readBytes (m : List Host.Cell) (a n : Nat) : List Byte :=
  (List.range n).map fun i => Memory.read m (a + i)

/-- The canonical form above a lowest address: addresses rise strictly, lie inside the RAM, and no listed byte is 0. -/
def Memory.wfFrom : Nat → List Host.Cell → Bool
  | _, [] => true
  | low, (a, v) :: rest => decide (low ≤ a) && decide (a < Config.ramBytes) && v != 0 && Memory.wfFrom (a + 1) rest

/-- The canonical form of the sample RAM. -/
def Memory.wf (m : List Host.Cell) : Bool := Memory.wfFrom 0 m

/-! ### The highway channels (R175) -/

/-- What drives a highway channel: a music source or an announcement channel. -/
inductive Player
  | source (m : SourceNo)
  | channel (j : ChannelNo)
  deriving DecidableEq, Repr

/-- Highway channels 0–7 are the music sources, 8–23 the announcement channels (R175). -/
def playerOf (h : HighwayChannel) : Player :=
  if hm : h.val < 8 then .source ⟨h.val, hm⟩ else .channel ⟨h.val - 8, by omega⟩

def highwayOfSource (m : SourceNo) : HighwayChannel := ⟨m.val, by omega⟩
def highwayOfChannel (j : ChannelNo) : HighwayChannel := ⟨8 + j.val, by omega⟩

namespace State

/-- The timeslot that a listen source gives (R159). -/
def heard (s : State) : Listen → Option Timeslot
  | .silent => none
  | .music m => s.slotOf (highwayOfSource m)
  | .announce j => s.slotOf (highwayOfChannel j)

/-! ### Notices (R186, R187) -/

/-- The port's notice queue holds fewer than 64 notices (R80, R187). -/
def hasRoom (s : State) (p : Port) : Bool := decide ((s.port p).notices.length < Config.noticeCapacity)

def pushNotice (s : State) (p : Port) (n : Notice) : State :=
  s.modPort p fun r => { r with notices := r.notices ++ [n] }
def appendOwed (s : State) (p : Port) (o : OwedPair) : State :=
  s.modPort p fun r => { r with owed := r.owed ++ [o] }
def removeOwed (s : State) (p : Port) (o : OwedPair) : State :=
  s.modPort p fun r => { r with owed := r.owed.filter (· != o) }

/-- Remaining wrap in whole seconds: the wrap end minus now in WRAP, else 0 (R126, R23). -/
def remainingWrap (s : State) (r : AgentRec) : Nat :=
  if r.state = .wrap then r.wrap.finish - s.clock else 0

/-- The owner shelf and tag of an agent's bound call (R7, R23). -/
def boundName (s : State) (r : AgentRec) : Option (Shelf × Tag) :=
  (r.boundCall.bind s.call).map fun k => (k.owner, k.tag)

/-- The AGENT_STATE notice of an agent as the record stands (R23). -/
def agentNotice (s : State) (a : AgentSlot) : Notice :=
  let r := s.agent a
  .agentState a r.state r.auxReason (s.remainingWrap r) (s.boundName r)

/-- An AGENT_STATE notice is handed to the agent's home port: placed, or owed once (R23, R24, R187). -/
def handAgentState (s : State) (a : AgentSlot) : State :=
  let r := s.agent a
  let p := portOf r.home
  if s.hasRoom p then s.pushNotice p (s.agentNotice a)
  else if r.owed then s
  else (s.setAgent a { r with owed := true }).appendOwed p (.agentState a)

end State

/-- Whether a call record owes a notice of a kind (R187). -/
def CallRec.owes (r : CallRec) : CallNotice → Bool
  | .listen => r.owedListen
  | .connect => r.owedConnect
  | .cleared => r.owedCleared

/-- A call record with the owed flag of a kind written (R187). -/
def CallRec.setOwed (r : CallRec) (k : CallNotice) (v : Bool) : CallRec :=
  match k with
  | .listen => { r with owedListen := v }
  | .connect => { r with owedConnect := v }
  | .cleared => { r with owedCleared := v }

namespace State

/-- The notice of a call and kind, built from the record as it stands, or none where R189 drops it: a CONNECT is built only
while the call is CONNECTED (R97). -/
def callNotice (s : State) (c : CallSlot) (k : CallNotice) : Option Notice :=
  match s.call c with
  | none => none
  | some r =>
    match k with
    | .listen => some (.listen r.tag (s.heard r.listen))
    | .connect =>
      if r.state = .connected then r.boundAgent.map fun a => .connect r.tag a (s.agent a).home else none
    | .cleared => some (.cleared r.tag)

/-- A LISTEN, CONNECT or CLEARED notice is handed to the call's port: placed, or owed once (R159, R97, R106, R187). -/
def handCall (s : State) (c : CallSlot) (k : CallNotice) : State :=
  match s.call c with
  | none => s
  | some r =>
    let p := portOf r.owner
    if s.hasRoom p then
      match s.callNotice c k with
      | none => s
      | some n => s.pushNotice p n
    else if r.owes k then s
    else (s.modCall c fun r => r.setOwed k true).appendOwed p (.call c k)

end State

end Sys2Proof.Machine
end

