-- ==== Sys2Proof/Machine/Flags.lean ====
section
/-! DEFINITION. Every flag computation: the three group watch conditions and their flags (R46 to R49), the device watch flags
(R190), the WATCH notice and its report order (R192). -/
namespace Sys2Proof.Machine

/-- The bit of a group watch kind. -/
def WatchBits.get (b : WatchBits) : GroupKind → Bool
  | .depth => b.depth
  | .wait => b.wait
  | .noStaff => b.noStaff

/-- The bits with one kind's written. -/
def WatchBits.set (b : WatchBits) (k : GroupKind) (v : Bool) : WatchBits :=
  match k with
  | .depth => { b with depth := v }
  | .wait => { b with wait := v }
  | .noStaff => { b with noStaff := v }

/-- The bits of `b` with those of `m` cleared (R193). -/
def WatchBits.without (b m : WatchBits) : WatchBits :=
  { depth := b.depth && !m.depth, wait := b.wait && !m.wait, noStaff := b.noStaff && !m.noStaff }

namespace State

/-! ### The WATCH notice (R192) -/

/-- A group's flag of a kind is set and unmasked. -/
def groupWatch (s : State) (k : GroupKind) (g : Group) : Bool :=
  (s.group g).flags.get k && !(s.group g).masks.get k

/-- The lowest group whose flag of a kind is set and unmasked. -/
def firstGroup (s : State) (k : GroupKind) : Option Group :=
  (findAll (fun r : GroupRec => r.flags.get k && !r.masks.get k) s.groups).head?

/-- The first flag, in the report order of R192, that is set and unmasked. -/
def firstWatch (s : State) : Option Watch :=
  if s.device.purgeDone then some .purgeDone
  else if s.device.segmentFault && !s.device.maskSegmentFault then some .segmentFault
  else if s.device.starved && !s.device.maskStarved then some .starved
  else match s.firstGroup .noStaff with
    | some g => some (.noStaff g)
    | none => match s.firstGroup .wait with
      | some g => some (.wait g)
      | none => (s.firstGroup .depth).map .depth

/-- A WATCH is handed to port S: placed, naming the first set and unmasked flag, or owed once under the device's WATCH owed flag
(R187, R192). -/
def handWatch (s : State) : State :=
  if s.hasRoom .s then
    match s.firstWatch with
    | none => s
    | some w => s.pushNotice .s (.watch w)
  else if s.device.watchOwed then s
  else (s.setDevice { s.device with watchOwed := true }).appendOwed .s .watch

/-! ### Group watch conditions (R46 to R49) -/

/-- A rising edge of a kind in a group: the flag is set, and if it was clear and is unmasked a WATCH is handed (R46). -/
def raiseGroupFlag (s : State) (g : Group) (k : GroupKind) : State :=
  let r := s.group g
  if r.flags.get k then s
  else
    let s1 := s.setGroup g { r with flags := r.flags.set k true }
    if r.masks.get k then s1 else s1.handWatch

/-- A condition is evaluated: the value is stored, and a passage from false to true is a rising edge (R46). -/
def evalCondition (s : State) (g : Group) (k : GroupKind) (value : Bool) : State :=
  let r := s.group g
  let s1 := s.setGroup g { r with conditions := r.conditions.set k value }
  if value && !r.conditions.get k then s1.raiseGroupFlag g k else s1

/-- Queue length (R45). -/
def queueLength (s : State) (g : Group) : Nat := (s.group g).queue.length

/-- Oldest group-entry age: now minus the earliest group entry second in the queue, 0 for an empty queue (R45). -/
def oldestAge (s : State) (g : Group) : Nat :=
  ((s.group g).queue.filterMap s.call).foldl (fun m r => max m (s.clock - r.entry)) 0

/-- The DEPTH condition (R47). -/
def depthCondition (s : State) (g : Group) : Bool :=
  let d := (s.group g).active.depthThreshold
  d != 0 && decide (d ≤ s.queueLength g)

/-- The WAIT condition (R48). -/
def waitCondition (s : State) (g : Group) : Bool :=
  let w := (s.group g).active.waitObjective
  w != 0 && !(s.group g).queue.isEmpty && decide (w ≤ s.oldestAge g)

/-- The NO_STAFF condition (R49). -/
def noStaffCondition (s : State) (g : Group) : Bool :=
  !(s.group g).queue.isEmpty && (s.group g).staffed == 0

def evalDepth (s : State) (g : Group) : State := s.evalCondition g .depth (s.depthCondition g)
def evalWait (s : State) (g : Group) : State := s.evalCondition g .wait (s.waitCondition g)
def evalNoStaff (s : State) (g : Group) : State := s.evalCondition g .noStaff (s.noStaffCondition g)

/-- The three conditions of a group, evaluated at a change of its queue (R47 to R49). -/
def evalQueue (s : State) (g : Group) : State := ((s.evalDepth g).evalWait g).evalNoStaff g

/-! ### Device watch flags (R190) -/

/-- A SEGMENT_FAULT report (R152, R190). -/
def raiseSegmentFault (s : State) : State :=
  if s.device.segmentFault then s
  else
    let s1 := s.setDevice { s.device with segmentFault := true }
    if s.device.maskSegmentFault then s1 else s1.handWatch

/-- A rising edge of the STARVED condition (R190). -/
def raiseStarved (s : State) : State :=
  if s.device.starved then s
  else
    let s1 := s.setDevice { s.device with starved := true }
    if s.device.maskStarved then s1 else s1.handWatch

/-- The completion of a purge (R190, R194); PURGE_DONE has no mask. -/
def raisePurgeDone (s : State) : State :=
  if s.device.purgeDone then s
  else (s.setDevice { s.device with purgeDone := true }).handWatch

/-- The STARVED condition: the wait list is not empty and its head has waited 30 s or more (R168). -/
def starvedNow (s : State) : Bool :=
  match s.waitList with
  | [] => false
  | e :: _ => decide (Config.starvedSeconds ≤ s.clock - e.due)

/-- The STARVED condition is evaluated and each change handed to the device watch flags (R168, R190). -/
def evalStarved (s : State) : State :=
  let now := s.starvedNow
  let s1 := s.setDevice { s.device with starvedCondition := now }
  if now && !s.device.starvedCondition then s1.raiseStarved else s1

end State

end Sys2Proof.Machine
end

