-- ==== Sys2Proof/Machine/Estimator.lean ====
section
/-! DEFINITION. The Estimator (Chapter 7): the handle-time average, the position of a call, the estimated wait and the words that
speak a number. -/
namespace Sys2Proof.Machine

/-- `x` clamped to `low`–`high` (spec/00_scope.md 0.6). -/
def clamp (low high x : Nat) : Nat := max low (min high x)

/-- `x` divided by `y` and rounded up: the quotient, plus 1 if the remainder is not 0 (R136). -/
def ceilDiv (x y : Nat) : Nat := x / y + (if x % y = 0 then 0 else 1)

/-- The average after a sample (R130, R131): 16 s at first; then the old average plus the difference divided by 2^k truncated
toward zero, clamped to 16–65520. -/
def newAverage (old : Option Nat) (shift sample : Nat) : Nat :=
  let s := clamp 1 4095 sample
  match old with
  | none => 16 * s
  | some a =>
    let d : Int := 16 * (s : Int) - (a : Int)
    (max 16 (min 65520 ((a : Int) + Int.tdiv d (2 ^ shift)))).toNat

/-- The estimated wait in seconds, for a position, an average and a staffed count (R136). -/
def estimatedWait (p a n : Nat) : Nat := ceilDiv (p * a) (16 * n)

/-- The spoken minutes (R136). -/
def waitMinutes (p a n : Nat) : Nat := ceilDiv (estimatedWait p a n) 60

/-- The words of a number (R138); vocabulary entry 0 is "one", 19 "twenty", 20 "thirty", 27 the OVER phrase. -/
def numberWords (n : Nat) : List VocabNo :=
  if n ≤ 20 then [Fin.ofNat 29 (n - 1)]
  else if n ≤ 99 then
    let tens : VocabNo := if n / 10 = 2 then 19 else Fin.ofNat 29 (20 + (n / 10 - 3))
    if n % 10 = 0 then [tens] else [tens, Fin.ofNat 29 (n % 10 - 1)]
  else [27, 26, 8]

/-- What SAY_WAIT speaks: the NONE phrase (entry 28) when no agent is staffed or the average is UNSET, else the minutes (R137). -/
def waitWords (p : Nat) (average : Option Nat) (n : Nat) : List VocabNo :=
  match average with
  | none => [28]
  | some a => if n = 0 then [28] else numberWords (waitMinutes p a n)

namespace State

/-- The position of a call in its group's queue: 1 plus the number of members ahead of it (R58). -/
def position (s : State) (c : CallSlot) : Nat :=
  match s.call c with
  | none => 0
  | some r => (s.group r.group).queue.idxOf c + 1

/-- The words a SAY step hands to the channel for call `c`, and none for a step that says nothing (R135 to R138). -/
def sayWords (s : State) (c : CallSlot) (k : StepKind) : List VocabNo :=
  match s.call c with
  | none => []
  | some r =>
    match k with
    | .sayPosition => numberWords (s.position c)
    | .sayWait => waitWords (s.position c) (s.group r.group).average (s.group r.group).staffed
    | _ => []

/-- A handle-time sample is folded into the average of its wrap group, by the smoothing shift of the active set (R130, R131). -/
def takeSample (s : State) (g : Group) (sample : Nat) : State :=
  s.modGroup g fun r => { r with average := some (newAverage r.average r.active.shift sample) }

end State

end Sys2Proof.Machine
end

