-- ==== Sys2Proof/Machine/Operands.lean ====
section
/-! DEFINITION. The operand forms of request records (R197): the framing and the check of length, the multi-byte fields, the ports
that may send a kind (R182), the result codes (R201), the status byte (R185, R196), and how a request is taken, answered or
rejected (R181, R183). -/
namespace Sys2Proof.Machine

/-! ### Fields: most significant byte first (R197) -/

/-- The byte at an offset of the parameters. -/
def u8 (ps : List Byte) (i : Nat) : Nat := (ps.getD i 0).toNat
/-- The two-byte field at an offset. -/
def u16 (ps : List Byte) (i : Nat) : Nat := u8 ps i * 256 + u8 ps (i + 1)
/-- The four-byte field at an offset. -/
def u32 (ps : List Byte) (i : Nat) : Nat := u16 ps i * 65536 + u16 ps (i + 2)

/-- The low `k` bytes of a number, most significant byte first. -/
def bytesBE : Nat → Nat → List Byte
  | 0, _ => []
  | k + 1, n => bytesBE k (n / 256) ++ [BitVec.ofNat 8 n]

/-- A field of slot numbers or codes below `n`. -/
def below (n v : Nat) : Option (Fin n) := if h : v < n then some ⟨v, h⟩ else none

/-- A one-byte field that holds a number below `n` or 0xFF for none; the outer `none` is a value out of range (R197). -/
def belowOrNone (n v : Nat) : Option (Option (Fin n)) :=
  if v = 255 then some none else (below n v).map some

/-- The shelf a byte names: 0 is A, 1 is B (R197). -/
def shelfOfByte (v : Nat) : Option Shelf :=
  if v = 0 then some .a else if v = 1 then some .b else none

/-! ### Records (R197) -/

/-- The bytes after the kind byte for given parameters: the two-byte length and the parameters. -/
def frame (ps : List Byte) : List Byte := bytesBE 2 ps.length ++ ps

/-- The parameters of a record whose header is complete and whose stated length is the number of parameter bytes shifted in. -/
def unframe : List Byte → Option (List Byte)
  | hi :: lo :: ps => if ps.length = hi.toNat * 256 + lo.toNat then some ps else none
  | _ => none

/-- The parameters have the length of their kind on this port (the column "Length" of R197's table). -/
def lengthOk (k : Kind) (p : Port) (ps : List Byte) : Bool :=
  let n := ps.length
  match k with
  | .agentRead | .signIn | .ready | .signOut | .wrapExtend | .wrapEnd | .forceSignOut => n == 2
  | .aux | .forceAux => n == 3
  | .agentAnswer | .agentNoAnswer | .agentHangup => n == 5
  | .agentDefine => decide (5 ≤ n) && n == 5 + 2 * u8 ps 4
  | .groupRead | .groupSwap | .groupOpen | .groupClose | .groupStats => n == 1
  | .groupStage => n == 31
  | .groupWatchMask | .lineMode => n == 2
  | .lineRead => n == 1
  | .callArrive => n == 4
  | .callRelease => n == 2
  | .callRead => if p = .s then n == 3 else n == 2
  | .tiebreakSet => n == 4
  | .tiebreakRead | .slotRead | .fetch | .watchRead | .restart | .purge => n == 0
  | .storeWrite => decide (5 ≤ n) && decide (n ≤ 260)
  | .storeRead => n == 6
  | .segmentLoad => n == 9
  | .segmentRead | .programRead | .vocabRead | .sourceRead | .channelRead | .idleByteSet | .watchMask | .purgeShelf => n == 1
  | .programLoad => decide (2 ≤ n) && n == 2 + 2 * u8 ps 1
  | .vocabLoad | .slotMap | .watchClear => n == 3
  | .sourceSet | .sourceLimit => n == 2

/-- The kind is permitted on the port (the table of R182). -/
def permitted (k : Kind) (p : Port) : Bool :=
  match k with
  | .agentRead | .signIn | .ready | .aux | .signOut | .wrapExtend | .wrapEnd | .agentAnswer | .agentNoAnswer | .agentHangup
  | .groupRead | .lineRead | .callRead | .sourceRead | .fetch => true
  | .agentDefine | .forceAux | .forceSignOut | .groupStage | .groupSwap | .groupOpen | .groupClose | .groupStats
  | .groupWatchMask | .lineMode | .tiebreakSet | .tiebreakRead | .storeWrite | .storeRead | .segmentLoad | .segmentRead
  | .programLoad | .programRead | .vocabLoad | .vocabRead | .sourceSet | .sourceLimit | .channelRead | .slotMap | .slotRead
  | .idleByteSet | .watchRead | .watchClear | .watchMask | .purgeShelf | .restart => p == .s
  | .callArrive | .callRelease | .purge => p != .s

/-- The port's own checks of a record of a known kind (R182, checks 2 and 3): the parameters of a record that passes. -/
def checkRecord (k : Kind) (p : Port) (body : List Byte) : Option (List Byte) :=
  (unframe body).filter fun ps => lengthOk k p ps && permitted k p

/-! ### Responses (R197, R201) -/

/-- The result byte (R201). -/
def Result.code : Result → Nat
  | .ok => 0x00
  | .okClamped => 0x01
  | .pending => 0x02
  | .empty => 0x03
  | .late => 0x04
  | .noCall => 0x05
  | .badRequest => 0x10
  | .badParam => 0x11
  | .badGroup => 0x12
  | .badState => 0x13
  | .noAgent => 0x14
  | .notHome => 0x15
  | .already => 0x16
  | .busy => 0x17
  | .limit => 0x18
  | .unknownCall => 0x19
  | .duplicate => 0x1A
  | .closed => 0x1B
  | .callsFull => 0x1C
  | .queueFull => 0x1D

/-- The results that carry content (R197). -/
def Result.hasContent : Result → Bool
  | .ok | .okClamped | .pending => true
  | _ => false

/-- A response record: the result byte, the two-byte length and the content; none but OK, OK_CLAMPED and PENDING carry content
(R197). -/
def responseRecord (r : Result) (content : List Byte) : List Byte :=
  BitVec.ofNat 8 r.code :: (if r.hasContent then frame content else frame [])

/-- What an owning block answers: the state its event leaves, the result and the content. -/
structure Reply where
  state : State
  result : Result
  content : List Byte := []

/-- A taken request with no content. -/
def Reply.ok (s : State) (content : List Byte := []) : Reply := { state := s, result := .ok, content := content }

/-- A refused request changes nothing (R8, R201). -/
def Reply.refuse (s : State) (r : Result) : Reply := { state := s, result := r }

/-! ### Transactions on a port (R181 to R185, R196) -/

namespace State

/-- The status byte of a port: the ready flag, the rejected flag and the notice count field, 0 for 64 (R185, R196). -/
def statusByte (s : State) (p : Port) : Byte :=
  let r := s.port p
  BitVec.ofNat 8 ((if r.slot = .responseReady then 128 else 0) + (if r.rejected then 64 else 0) + r.notices.length % 64)

/-- A transaction on a port shifts out the status byte and then the bytes `rest`. -/
def shiftOut (s : State) (p : Port) (rest : List Byte) : State :=
  s.modPort p fun r => { r with shifted := s.statusByte p :: rest }

/-- A request write shifts out the status byte and 0x00 for each further byte (R196). -/
def shiftWrite (s : State) (p : Port) (n : Nat) : State := s.shiftOut p (List.replicate n 0)

/-- The port takes a request: the slot becomes BUSY and the rejected flag is cleared (R181, R183). -/
def takeSlot (s : State) (p : Port) : State :=
  s.modPort p fun r => { r with slot := .busy, rejected := false }

/-- The response record is written into the buffer and the slot becomes RESPONSE_READY (R181). -/
def respond (s : State) (p : Port) (r : Result) (content : List Byte) : State :=
  s.modPort p fun q => { q with slot := .responseReady, response := responseRecord r content }

/-- A record written while the slot is BUSY or RESPONSE_READY is discarded and the rejected flag set (R183). -/
def reject (s : State) (p : Port) : State :=
  s.modPort p fun r => { r with rejected := true }

/-- The answer of an owning block is written into the port's slot. -/
def answer (p : Port) (r : Reply) : State := r.state.respond p r.result r.content

/-- A request record of a known kind is written on a port, its bytes after the kind byte being `body`. In IDLE it is taken,
checked by the port (R182) and, if it passes, handed to the owning block `act`; the answer makes the slot RESPONSE_READY. In any
other state of the slot it is rejected (R183). The whole is one step (log entry 1). -/
def request (k : Kind) (p : Port) (body : List Byte) (act : List Byte → State → Reply) (s : State) : State :=
  let s1 := s.shiftWrite p (1 + body.length)
  if (s.port p).slot = .idle then
    let s2 := s1.takeSlot p
    match checkRecord k p body with
    | none => s2.respond p .badRequest []
    | some ps => answer p (act ps s2)
  else s1.reject p

end State

end Sys2Proof.Machine
end

