-- ==== Sys2Proof/Machine/Playout.lean ====
section
/-! DEFINITION. The Playout Engine's shared operations (Chapters 8 and 9): segments in use, the carrying out of program steps,
music sources and their pass ends, listen sources, announcement channels, the wait list and the announcement arbiter. -/
namespace Sys2Proof.Machine

/-! ### Program steps (R147, R154) -/

/-- The step kind at an index, if the program has that step. -/
def kindAt (steps : List Step) (i : Nat) : Option StepKind := (steps[i]?).map Step.kind

/-- The target of the REPEAT at index `i`: the step after the highest MARK below it, or step 0 (R154). -/
def repeatTarget (steps : List Step) (i : Nat) : Nat :=
  match (List.range i).reverse.find? fun j => kindAt steps j == some StepKind.mark with
  | none => 0
  | some j => j + 1

/-- A run of a program at its beginning (R149). -/
def Run.begin (p : ProgramNo) : Run := { program := p }

/-- A step that speaks (R153). -/
def StepKind.speaks : StepKind → Bool
  | .sayPosition | .sayWait => true
  | _ => false

/-- What carrying out one step comes to: it takes time, the run goes on to the next step, or a return is due (R156), of which
`restart` stands for the program's end (R155). -/
inductive Carried
  | timed
  | goOn
  | back (r : Return)
  deriving DecidableEq, Repr

namespace State

/-! ### Segments in use (R143, R152) -/

/-- A channel begins the segment of a code: its in-use count rises. A missing segment is reported and begins none (R152). -/
def beginSegment (s : State) (code : Nat) : Option SegmentCode × State :=
  match below 240 code with
  | none => (none, s.raiseSegmentFault)
  | some k =>
    let e := s.segment k
    if e.length = 0 then (none, s.raiseSegmentFault)
    else (some k, s.setSegment k { e with inUse := e.inUse + 1 })

/-- A channel comes to a word: the vocabulary entry is read and its segment begun (R139, R153). -/
def beginWord (s : State) (v : VocabNo) : Option SegmentCode × State :=
  match s.vocabEntry v with
  | none => (none, s.raiseSegmentFault)
  | some b => s.beginSegment b.toNat

/-- A channel leaves its current segment, if it holds one (R143). -/
def leaveSegment (s : State) : Option SegmentCode → State
  | none => s
  | some k =>
    let e := s.segment k
    s.setSegment k { e with inUse := e.inUse - 1 }

/-! ### Carrying out a step (R150 to R156) -/

/-- The step at a run's step index is reached and carried out. `caller` is the call an announcement channel serves; a music source
has none and skips SAY steps (R153). A REPEAT counts when it is reached (log entry 18). -/
def carryStep (s : State) (caller : Option CallSlot) (r : Run) : Carried × Run × State :=
  let steps := s.programSteps r.program
  let timed := { r with position := 0, segment := none, words := [], word := 0 }
  match steps[r.step]? with
  | none => (.back .restart, { r with step := steps.length - 1 }, s)
  | some ⟨.play, o⟩ =>
    let (seg, s1) := s.beginSegment o.toNat
    (.timed, { timed with segment := seg }, s1)
  | some ⟨.silence, _⟩ => (.timed, timed, s)
  | some ⟨.sayPosition, _⟩ | some ⟨.sayWait, _⟩ =>
    match caller with
    | none => (.goOn, r, s)
    | some c =>
      match s.sayWords c ((kindAt steps r.step).getD .mark) with
      | [] => (.goOn, r, s)
      | w :: ws =>
        let (seg, s1) := s.beginWord w
        (.timed, { timed with segment := seg, words := w :: ws }, s1)
  | some ⟨.mark, _⟩ => (.goOn, r, s)
  | some ⟨.again, o⟩ =>
    let n := r.counters.getD r.step 0
    if o.toNat = 255 then (.back .jump, r, s)
    else if n < o.toNat then (.back .jump, { r with counters := r.counters.set r.step (n + 1) }, s)
    else (.goOn, { r with counters := r.counters.set r.step 0 }, s)
  | some ⟨.finish, _⟩ => (.back .restart, r, s)

/-- A return is taken: to the REPEAT's target with the played and fill flags cleared, or to a fresh beginning (R154 to R156). -/
def takeReturn (s : State) (ret : Return) (r : Run) : Run :=
  match ret with
  | .jump =>
    { r with step := repeatTarget (s.programSteps r.program) r.step, position := 0, played := false, fill := none }
  | .restart => Run.begin r.program

/-- The bound on the steps that take no time carried out at one event: a run meets at most two returns before it must play, and
a program has at most 32 steps. -/
def carryFuel : Nat := 100

/-! ### Music sources (R161 to R163) -/

/-- The return ends a pass: the restart after the program's end, or the jump of a REPEAT with operand 255 (R163). -/
def endsPass (s : State) (ret : Return) (r : Run) : Bool :=
  match ret with
  | .restart => true
  | .jump => ((s.programSteps r.program)[r.step]?).any fun st => st.operand.toNat == 255

/-- A source takes a return, with the steps of a pass end where the return ends one (R163): the run that goes on, or none if the
source stops. -/
def sourceReturn (s : State) (m : SourceNo) (ret : Return) (r : Run) : Option Run × State :=
  if s.endsPass ret r then
    let q := s.source m
    let current := match q.staged with
      | .empty => q.current
      | .value p => p
    let passes := if q.listeners = 0 then q.idlePasses + 1 else q.idlePasses
    match current with
    | none => (none, s.setSource m { q with current := none, staged := .empty, run := none, idlePasses := 0 })
    | some p =>
      if q.listeners = 0 ∧ q.idleLimit ≤ passes then
        (none, s.setSource m { q with current := some p, staged := .empty, run := none, idlePasses := 0 })
      else
        let next := match q.staged with
          | .empty => s.takeReturn ret r
          | .value _ => Run.begin p
        (some next, s.setSource m { q with current := some p, staged := .empty, idlePasses := passes })
  else (some (s.takeReturn ret r), s)

/-- Source `m` holds the run `r`. -/
def putSourceRun (s : State) (m : SourceNo) (r : Run) : State :=
  s.setSource m { s.source m with run := some r }

/-- A source carries out the steps that take no time until one that takes time is reached, a fill is due or it stops (R150). -/
def carrySource : Nat → SourceNo → Run → State → State
  | 0, m, r, s => s.putSourceRun m r
  | n + 1, m, r, s =>
    match s.carryStep none r with
    | (.timed, r1, s1) => s1.putSourceRun m r1
    | (.goOn, r1, s1) => carrySource n m { r1 with step := r1.step + 1 } s1
    | (.back ret, r1, s1) =>
      if r1.played then
        match s1.sourceReturn m ret r1 with
        | (none, s2) => s2
        | (some r2, s2) => carrySource n m r2 s2
      else s1.putSourceRun m { r1 with fill := some ret, position := 0 }

/-- A STOPPED source that holds a current program starts at step 0 with its idle-pass counter at 0 (R162). -/
def startSource (s : State) (m : SourceNo) : State :=
  let q := s.source m
  match q.run, q.current with
  | none, some p => carrySource carryFuel m (Run.begin p) (s.setSource m { q with run := some (Run.begin p), idlePasses := 0 })
  | _, _ => s

/-- A call joins a source's listeners: the count rises, the idle-pass counter is cleared, and a STOPPED source starts (R160). -/
def gainListener (s : State) (m : SourceNo) : State :=
  let q := s.source m
  (s.setSource m { q with listeners := q.listeners + 1, idlePasses := 0 }).startSource m

/-- A call leaves a source's listeners (R160). -/
def loseListener (s : State) (m : SourceNo) : State :=
  let q := s.source m
  s.setSource m { q with listeners := q.listeners - 1 }

/-! ### What a caller hears (R159, R160) -/

/-- The listener counts change with a listen source that goes from `before` to `after` (R160). -/
def countListener (s : State) (before after : Listen) : State :=
  if before = after then s
  else
    let s1 := match before with
      | .music m => s.loseListener m
      | _ => s
    match after with
    | .music m => s1.gainListener m
    | _ => s1

/-- Call `c`'s listen source becomes `l`, and the listener counts change with it (R160). -/
def setListen (s : State) (c : CallSlot) (l : Listen) : State :=
  match s.call c with
  | none => s
  | some r => (s.modCall c fun r => { r with listen := l }).countListener r.listen l

/-- The listen source of a group's calls off announcements: its active music source, or NONE (R62, R171). -/
def musicOf (s : State) (g : Group) : Listen :=
  match (s.group g).active.music with
  | none => .silent
  | some m => .music m

/-- Call `c`, if it is not on an announcement, moves to the music of group `g`; a LISTEN goes to its port when the timeslot heard
has changed (R69, R166). -/
def moveMusic (s : State) (g : Group) (c : CallSlot) : State :=
  match s.call c with
  | none => s
  | some r =>
    match r.listen with
    | .announce _ => s
    | l =>
      let s1 := s.setListen c (s.musicOf g)
      if s1.heard (s.musicOf g) = s.heard l then s1 else s1.handCall c .listen

/-! ### The wait list (R168) -/

/-- The entry (`due`, call) stands before entry `e` in the list's order: by due second, then by arrival sequence number. -/
def waitsBefore (s : State) (due : Nat) (c : CallSlot) (e : WaitEntry) : Bool :=
  let seq := fun k => ((s.call k).map CallRec.seq).getD 0
  decide (due < e.due) || (due == e.due && decide (seq c < seq e.call))

/-- An entry put into the wait list at its place. -/
def insertWait (s : State) (new : WaitEntry) : List WaitEntry → List WaitEntry
  | [] => [new]
  | e :: rest => if s.waitsBefore new.due new.call e then new :: e :: rest else e :: insertWait s new rest

/-- Call `c` joins the wait list with its due second; a call that has an entry gets no second one (R167, R168). -/
def joinWaitList (s : State) (c : CallSlot) (due : Nat) : State :=
  if s.waitList.any (·.call == c) then s
  else ((s.modCall c fun r => { r with onWaitList := true }).setWaitList (s.insertWait ⟨c, due⟩ s.waitList)).evalStarved

/-- Call `c`'s entry, if it has one, is removed from the wait list (R168). -/
def leaveWaitList (s : State) (c : CallSlot) : State :=
  if s.waitList.any (·.call == c) then
    ((s.modCall c fun r => { r with onWaitList := false }).setWaitList (s.waitList.filter (·.call != c))).evalStarved
  else s

/-! ### Announcement channels and the arbiter (R169 to R172) -/

/-- Channel `j` is BUSY for call `c` with the run `r`. -/
def putChannelRun (s : State) (j : ChannelNo) (c : CallSlot) (r : Run) : State :=
  s.setChannel j (some ⟨c, r⟩)

/-- A channel carries out the steps that take no time until one that takes time is reached or a fill is due; `none` is the end of
the run (R150, R155, R156). That an announcement of MARK and counted REPEAT steps alone plays its fills is the model's choice (log
entry 30). -/
def carryChannel : Nat → CallSlot → Run → State → Option Run × State
  | 0, _, r, s => (some r, s)
  | n + 1, c, r, s =>
    match s.carryStep (some c) r with
    | (.timed, r1, s1) => (some r1, s1)
    | (.goOn, r1, s1) => carryChannel n c { r1 with step := r1.step + 1 } s1
    | (.back .restart, _, s1) => (none, s1)
    | (.back .jump, r1, s1) =>
      if r1.played then carryChannel n c (s1.takeReturn .jump r1) s1
      else (some { r1 with fill := some .jump, position := 0 }, s1)

/-- The announcement of channel `j` for call `c` ends: steps 1 to 4 of R171. -/
def endAnnouncement (s : State) (j : ChannelNo) (c : CallSlot) : State :=
  let s1 := s.setChannel j none
  match s1.call c with
  | none => s1
  | some r =>
    let p := (s1.group r.group).active
    let s2 := (s1.setListen c (s1.musicOf r.group)).handCall c .listen
    let due := if p.program.isSome && p.interval != 0 then some (s.clock + p.interval) else none
    s2.modCall c fun r => { r with nextDue := due }

/-- Channel `j`, BUSY for call `c`, goes on with run `r` until it must play, or its announcement ends. -/
def runChannel (s : State) (j : ChannelNo) (c : CallSlot) (r : Run) : State :=
  match carryChannel carryFuel c r s with
  | (some r1, s1) => s1.putChannelRun j c r1
  | (none, s1) => s1.endAnnouncement j c

/-- Channel `j` is aborted: it leaves its current segment, its run state is cleared and it is FREE (R172). -/
def abortChannel (s : State) (j : ChannelNo) : State :=
  match s.channel j with
  | none => s
  | some b => (s.leaveSegment b.run.segment).setChannel j none

/-- The lowest-numbered FREE channel (R170). -/
def freeChannel (s : State) : Option ChannelNo := (findAll Option.isNone s.channels).head?

/-- Channel `j` is granted to call `c` and begins a run of program `p`: BUSY, the listen source, the LISTEN notice, and the steps
that take no time (R170). -/
def grant (s : State) (j : ChannelNo) (c : CallSlot) (p : ProgramNo) : State :=
  let s1 := s.putChannelRun j c (Run.begin p)
  let s2 := (s1.setListen c (.announce j)).handCall c .listen
  s2.runChannel j c (Run.begin p)

/-- The arbiter acts on the head of the wait list while a channel is FREE (R170). The fuel is the length of the list: no grant
puts a call on it. -/
def arbitrateUpTo : Nat → State → State
  | 0, s => s
  | n + 1, s =>
    match s.waitList, s.freeChannel with
    | e :: _, some j =>
      let s1 := s.leaveWaitList e.call
      match s1.call e.call with
      | none => arbitrateUpTo n s1
      | some r =>
        match (s1.group r.group).active.program with
        | none => arbitrateUpTo n s1
        | some p => arbitrateUpTo n (s1.grant j e.call p)
    | _, _ => s

/-- The arbiter, once an event's own changes are complete (R170). -/
def arbitrate (s : State) : State := arbitrateUpTo s.waitList.length s

/-- Call `c` is detached from playout: its music source loses a listener or its announcement is aborted, it leaves the wait list,
and its listen source is NONE and its next announcement due absent (R55, R96). No LISTEN is raised here. -/
def detach (s : State) (c : CallSlot) : State :=
  match s.call c with
  | none => s
  | some r =>
    let s1 := match r.listen with
      | .silent => s
      | .music m => s.loseListener m
      | .announce j => s.abortChannel j
    (s1.modCall c fun r => { r with listen := .silent, nextDue := none }).leaveWaitList c

/-! ### Announcements that fall due (R167) -/

/-- The announcement of call `c` has fallen due: the due second is cleared, a QUEUED or OFFERED call joins the wait list, and the
arbiter acts (R167, R170). -/
def announce (s : State) (c : CallSlot) : State :=
  match s.call c with
  | none => s
  | some r =>
    match r.nextDue with
    | none => s
    | some d =>
      if d ≤ s.clock then
        let s1 := s.modCall c fun k => { k with nextDue := none }
        match r.state with
        | .queued | .offered => (s1.joinWaitList c d).arbitrate
        | .connected | .clearing => s1
      else s

/-- The calls in use for which one of their dues, `f`, is present and has been reached, in ascending order of slot. -/
def callsDue (s : State) (f : CallRec → Option Nat) : List CallSlot :=
  findAll (fun o : Option CallRec => o.any fun r => (f r).any fun e => decide (e ≤ s.clock)) s.calls

/-- Every announcement that has fallen due joins the wait list, in ascending order of call slot (R167; log entry 4). -/
def announced (s : State) : State := (s.callsDue CallRec.nextDue).foldl announce s

/-! ### Runs on highway channels (R150, R176) -/

/-- The run of a highway channel, if its source is RUNNING or its channel BUSY. -/
def runOf (s : State) (h : HighwayChannel) : Option Run :=
  match playerOf h with
  | .source m => (s.source m).run
  | .channel j => (s.channel j).map Announcement.run

/-- A highway channel's run is replaced; a channel with no run gets none. -/
def putRun (s : State) (h : HighwayChannel) (r : Run) : State :=
  match playerOf h with
  | .source m => s.putSourceRun m r
  | .channel j => s.setChannel j ((s.channel j).map fun b => { b with run := r })

/-- The frames of what a run is playing: a fill, the current segment, a silence, or the substitute for a missing segment
(R151, R152, R156). -/
def frames (s : State) (r : Run) : Nat :=
  if r.fill.isSome then Config.secondFrames
  else match r.segment with
    | some k => (s.segment k).length
    | none =>
      match (s.programSteps r.program)[r.step]? with
      | some ⟨.silence, o⟩ => Config.tenthFrames * o.toNat
      | _ => Config.secondFrames

/-- The byte a run plays at a frame: a byte of its current segment, or the idle byte (R150). -/
def runByte (s : State) (r : Run) : Byte :=
  match r.fill, r.segment with
  | none, some k => Memory.read s.ram ((s.segment k).start + r.position)
  | _, _ => s.idleByte

/-- The run is at a word of a SAY step that is not the last (R153). -/
def moreWords (r : Run) : Bool := decide (r.word + 1 < r.words.length)

/-- The step has had its last byte played (R150). -/
def stepDone (s : State) (r : Run) : Bool :=
  r.fill.isNone && decide (s.frames r ≤ r.position) && !moreWords r

/-- The fill before a return has been played (R156). -/
def fillDone (s : State) (r : Run) : Bool := r.fill.isSome && decide (s.frames r ≤ r.position)

/-- The run of highway channel `h` goes on from the step it has come to. -/
def continueRun (s : State) (h : HighwayChannel) (r : Run) : State :=
  match playerOf h with
  | .source m => carrySource carryFuel m r s
  | .channel j =>
    match s.channel j with
    | none => s
    | some b => s.runChannel j b.call r

/-- A complete step is left and the run moves to its next step or steps (R150); the arbiter acts on a channel freed by an
announcement's end (R170). -/
def completeStep (s : State) (h : HighwayChannel) : State :=
  match s.runOf h with
  | none => s
  | some r =>
    if s.stepDone r then
      let r1 := { r with step := r.step + 1, position := 0, segment := none, words := [], word := 0 }
      ((s.leaveSegment r.segment).continueRun h r1).arbitrate
    else s

/-- A fill has been played and the return that waited is taken (R156). -/
def completeFill (s : State) (h : HighwayChannel) : State :=
  match s.runOf h with
  | none => s
  | some r =>
    if s.fillDone r then
      match r.fill, playerOf h with
      | some ret, .source m =>
        match s.sourceReturn m ret r with
        | (none, s1) => s1
        | (some r1, s1) => carrySource carryFuel m r1 s1
      | some ret, .channel _ => (s.continueRun h (s.takeReturn ret r)).arbitrate
      | none, _ => s
    else s

/-- One frame of a run: a byte is played; at the last byte of a word that is not the last, the channel leaves its segment and
comes to the next word (R150, R153). At the last byte of a step the position is the step's length until STEP_COMPLETE: the model's
choice (log entry 29). -/
def playFrame (s : State) (h : HighwayChannel) : State :=
  match s.runOf h with
  | none => s
  | some r =>
    let r1 := { r with position := r.position + 1, played := true }
    if r1.fill.isNone && decide (s.frames r1 ≤ r1.position) && moreWords r1 then
      match r1.words[r1.word + 1]? with
      | none => s.putRun h r1
      | some w =>
        let (seg, s1) := (s.leaveSegment r1.segment).beginWord w
        s1.putRun h { r1 with word := r1.word + 1, position := 0, segment := seg }
    else s.putRun h r1

/-- What highway channel `h` gives at a frame: the byte of its run, else the idle byte or nothing by its idle output mode (R176). -/
def channelOutput (s : State) (h : HighwayChannel) : Option Byte :=
  match s.runOf h with
  | some r => some (s.runByte r)
  | none =>
    match s.modeOf h with
    | .idleByte => some s.idleByte
    | .off => none

/-- What timeslot `t` carries at a frame: what the highway channel mapped to it gives; an unmapped timeslot is not driven (R176). -/
def slotOutput (s : State) (t : Timeslot) : Option Byte :=
  match (findAll (· == some t) s.slotMap).head? with
  | none => none
  | some h => s.channelOutput h

/-- The 32 timeslots of a frame (R176). -/
def frameOutput (s : State) : Vector (Option Byte) 32 :=
  ⟨⟨(List.finRange 32).map s.slotOutput⟩, by simp⟩

end State

end Sys2Proof.Machine
end

