-- ==== Sys2Proof/Machine/Queues.lean ====
section
/-! DEFINITION. The group queues and the swap (Chapters 2 and 3): the closed state, joining and leaving a queue, the overflow move,
the freeing of a call, and the swap at the quiet point. -/
namespace Sys2Proof.Machine

/-- The active state of a service line, from its mode, seen level and latch (R41). -/
def LineRec.active (r : LineRec) : Bool :=
  match r.mode with
  | .off => false
  | .levelHigh => r.seen
  | .levelLow => !r.seen
  | .toggleRise | .toggleFall => r.latch

namespace State

/-! ### Open and closed (R38) -/

/-- The service line named in the group's active set holds it closed (R38). -/
def heldByLine (s : State) (g : Group) : Bool :=
  match (s.group g).active.line with
  | none => false
  | some l => (s.line l).active

/-- The group is closed: by the supervisor or by its service line (R38). -/
def closed (s : State) (g : Group) : Bool := (s.group g).supervisorClosed || s.heldByLine g

/-- The closed states are re-evaluated after a change of state `before`: a group that has passed from closed to open triggers the
Distributor, which is a sweep (R38, R75). -/
def sweepIfOpened (s before : State) : State :=
  if (List.finRange 64).any fun g => before.closed g && !s.closed g then s.raiseSweep else s

/-! ### Queue membership (R57 to R59) -/

/-- The entry (`key`, `seq`) stands before call `c` in queue order (R57). -/
def standsBefore (s : State) (key : Int) (seq : Nat) (c : CallSlot) : Bool :=
  match s.call c with
  | none => false
  | some r => decide (key < r.key) || (decide (key = r.key) && decide (seq < r.seq))

/-- A call put into a queue at its place in the queue order (R57). -/
def insertCall (s : State) (key : Int) (seq : Nat) (c : CallSlot) : List CallSlot → List CallSlot
  | [] => [c]
  | d :: rest => if s.standsBefore key seq d then c :: d :: rest else d :: insertCall s key seq c rest

/-- Call `c` joins group `g`'s queue: steps 1 to 6 of R59. -/
def join (s : State) (c : CallSlot) (g : Group) : State :=
  match s.call c with
  | none => s
  | some r =>
    let p := (s.group g).active
    let key : Int := (s.clock : Int) - (r.priority * p.priorityStep : Nat)
    let due := if p.overflowWait = 0 then none else some (s.clock + p.overflowWait)
    let s1 := s.putCall c (some { r with group := g, entry := s.clock, key := key, overflowDue := due })
    let s2 := s1.modGroup g fun q => { q with queue := s1.insertCall key r.seq c q.queue }
    (s2.evalQueue g).raiseCallTrigger c

/-- Call `c` leaves group `g`'s queue, and the group's conditions are evaluated (R55, R69, R96). -/
def leaveQueue (s : State) (c : CallSlot) (g : Group) : State :=
  (s.modGroup g fun q => { q with queue := q.queue.filter (· != c) }).evalQueue g

/-- One statistic, or another part of a group's statistics, is changed (R43). -/
def modStats (s : State) (g : Group) (f : Stats → Stats) : State :=
  s.modGroup g fun q => { q with stats := f q.stats }

/-- The group's queue is below its active maximum depth (R59). -/
def belowDepth (s : State) (g : Group) : Bool := decide (s.queueLength g < (s.group g).active.maxDepth)

/-! ### Overflow (R69) -/

/-- The group that call `c`, with record `r`, can move to now (the conditions of R69). -/
def overflowGroup (s : State) (r : CallRec) : Option Group :=
  match r.state, (s.group r.group).active.overflowTarget with
  | .queued, some t => if !s.closed t && s.belowDepth t && decide (r.hops < 3) then some t else none
  | _, _ => none

/-- An overflow move of call `c` is attempted; an attempt that fails changes nothing (R69). -/
def tryOverflow (s : State) (c : CallSlot) : State :=
  match s.call c with
  | none => s
  | some r =>
    match s.overflowGroup r with
    | none => s
    | some t =>
      let s1 := s.leaveQueue c r.group
      let s2 := s1.modCall c fun k => { k with hops := k.hops + 1, noAnswers := 0, pendingOverflow := false }
      let s3 := s2.modStats r.group fun q => { q with overflowedOut := bump q.overflowedOut }
      let s4 := s3.modStats t fun q => { q with overflowedIn := bump q.overflowedIn }
      (s4.join c t).moveMusic t c

/-! ### The swap (R36) and offers in progress (R34) -/

/-- The group's listening calls move to its music source, in queue order (R166). -/
def moveListeners (s : State) (g : Group) : State :=
  (s.group g).queue.foldl (fun s c => s.moveMusic g c) s

/-- The swap: the staged set becomes the active set, DEPTH and WAIT are evaluated, a changed music source moves the listening calls,
and a sweep is raised, which also serves a passage to open (R36). -/
def performSwap (s : State) (g : Group) : State :=
  let r := s.group g
  let s1 := s.setGroup g { r with active := r.staged, swapPending := false }
  let s2 := (s1.evalDepth g).evalWait g
  let s3 := if r.active.music = r.staged.music then s2 else s2.moveListeners g
  s3.raiseSweep

/-- A call of group `g` has left OFFERED (R34). -/
def endOffer (s : State) (g : Group) : State := s.modGroup g fun q => { q with offers := q.offers - 1 }

/-- The swap of a swap-pending group with no offer in progress is performed (R34). -/
def swapIfQuiet (s : State) (g : Group) : State :=
  if (s.group g).swapPending && (s.group g).offers == 0 then s.performSwap g else s

/-! ### Freeing a call (R55) -/

/-- Call `c` is freed: steps 1 to 5 of R55. Its timers go with its record. -/
def freeCall (s : State) (c : CallSlot) : State :=
  match s.call c with
  | none => s
  | some r =>
    let s1 := if c ∈ (s.group r.group).queue then s.leaveQueue c r.group else s
    let s2 := s1.detach c
    let p := portOf r.owner
    let s3 := ((s2.removeOwed p (.call c .listen)).removeOwed p (.call c .connect)).removeOwed p (.call c .cleared)
    s3.putCall c none

end State

end Sys2Proof.Machine
end

