-- ==== Sys2Proof/Machine/Formats.lean ====
section
/-! DEFINITION. The encodings of response content: the fields of R197, the parameter block, the records of R198 and the notices of
R199. -/
namespace Sys2Proof.Machine

/-! ### Fields (R197) -/

/-- A number in a field of `k` bytes. A number too large for the field is a free value (log entry 9). -/
def field (k n : Nat) : List Byte :=
  if n < 256 ^ k then bytesBE k n else bytesBE k (Config.wideField k n)

/-- A byte made of flag bits, bit 0 first. -/
def flagByte (bits : List Bool) : List Byte := field 1 (bits.foldr (fun b n => b.toNat + 2 * n) 0)

/-- An agent or call slot; 0xFFFF when absent. -/
def slotField {n : Nat} (o : Option (Fin n)) : List Byte := field 2 ((o.map Fin.val).getD 0xFFFF)

/-- A group, timeslot, program, source or line number; 0xFF for none or absent. -/
def codeField {n : Nat} (o : Option (Fin n)) : List Byte := field 1 ((o.map Fin.val).getD 0xFF)

def Shelf.code : Shelf → Nat
  | .a => 0
  | .b => 1

/-- A shelf; 0xFF when absent. -/
def shelfField (o : Option Shelf) : List Byte := field 1 ((o.map Shelf.code).getD 0xFF)

def tagField (t : Tag) : List Byte := field 2 t.toNat

/-- The queue key: eight bytes, two's complement. -/
def keyField (k : Int) : List Byte := field 8 (BitVec.ofInt 64 k).toNat

def AgentState.code : AgentState → Nat
  | .signedOut => 0
  | .aux => 1
  | .ready => 2
  | .offered => 3
  | .connected => 4
  | .wrap => 5

def CallState.code : CallState → Nat
  | .queued => 0
  | .offered => 1
  | .connected => 2
  | .clearing => 3

def Listen.code : Listen → Nat
  | .silent => 0x00
  | .music m => 0x10 + m.val
  | .announce j => 0x20 + j.val

def LineMode.code : LineMode → Nat
  | .off => 0
  | .levelHigh => 1
  | .levelLow => 2
  | .toggleRise => 3
  | .toggleFall => 4

def IdleMode.code : IdleMode → Nat
  | .idleByte => 0
  | .off => 1

/-- The kind byte of a program step (R200). -/
def StepKind.code : StepKind → Nat
  | .play => 1
  | .silence => 2
  | .sayPosition => 3
  | .sayWait => 4
  | .mark => 5
  | .again => 6
  | .finish => 7

/-- The handle-time average; 0x0000 for UNSET. -/
def averageField (o : Option Nat) : List Byte := field 2 (o.getD 0)

/-- The byte of the three group watch kinds: bit 0 DEPTH, bit 1 WAIT, bit 2 NO_STAFF. -/
def watchByte (b : WatchBits) : List Byte := flagByte [b.depth, b.wait, b.noStaff]

/-! ### The parameter block (R30, R197) -/

def NoAnswerAction.code : NoAnswerAction → Nat
  | .aux => 0
  | .ready => 1

def Policy.code : Policy → Nat
  | .longestIdle => 0
  | .highestLevel => 1
  | .leastCalls => 2

/-- The 30 bytes of a parameter set, in the order of the table in R30. -/
def paramBytes (p : Params) : List Byte :=
  field 2 p.wrapTime ++ field 2 p.extStep ++ field 1 p.extLimit ++ field 2 p.wrapCap ++ field 1 p.ringTimeout
    ++ field 1 p.noAnswerLimit ++ field 1 p.noAnswerAction.code ++ field 1 p.policy.code ++ field 1 p.weight
    ++ field 1 p.priorityStep ++ field 2 p.maxDepth ++ codeField p.overflowTarget ++ field 2 p.overflowWait
    ++ flagByte [p.overflowOnFull] ++ codeField p.music ++ codeField p.program ++ field 1 p.firstDelay
    ++ field 2 p.interval ++ field 1 p.shift ++ field 2 p.depthThreshold ++ field 2 p.waitObjective ++ codeField p.line

/-- The five statistics, in the order of GROUP_STATS. -/
def statBytes (q : Stats) : List Byte :=
  field 2 q.answered ++ field 2 q.abandoned ++ field 2 q.overflowedOut ++ field 2 q.overflowedIn ++ field 2 q.purged

/-! ### Records (R198) -/

/-- The pending change and the reason of a pending AUX. -/
def pendingBytes : Pending → List Byte
  | .none => field 1 0 ++ field 1 0
  | .aux r => field 1 1 ++ field 1 r
  | .signOut => field 1 2 ++ field 1 0
  | .signOutPurge => field 1 3 ++ field 1 0

def SampleMark.code : SampleMark → Nat
  | .keep => 0
  | .drop => 1

/-- Owner shelf and tag of a call; shelf 0xFF and tag 0 when absent. -/
def nameBytes (o : Option (Shelf × Tag)) : List Byte :=
  shelfField (o.map Prod.fst) ++ tagField ((o.map Prod.snd).getD 0)

/-- A skill list: its count and its pairs. -/
def skillBytes (l : List Skill) : List Byte :=
  field 1 l.length ++ l.flatMap fun k => field 1 k.group.val ++ field 1 k.level

namespace State

/-- The agent record, 39 + 2n bytes (R7, R198); the remaining wrap is computed at the read (R126). -/
def agentBytes (s : State) (a : AgentSlot) : List Byte :=
  let r := s.agent a
  slotField (some a) ++ flagByte [r.defined, r.owed] ++ shelfField (some r.home) ++ field 1 r.state.code
    ++ field 1 r.auxReason ++ pendingBytes r.pending ++ field 4 r.idleSince ++ slotField r.boundCall
    ++ nameBytes (s.boundName r) ++ field 4 r.wrap.start ++ field 2 (s.remainingWrap r) ++ field 1 r.wrap.extensions
    ++ codeField (if r.state = .wrap then some r.wrap.group else none) ++ field 2 r.wrap.cap ++ field 4 r.wrap.talk
    ++ field 1 r.wrap.mark.code ++ field 2 r.callsHandled ++ field 4 r.answerStart ++ skillBytes r.skills

/-- The position of a call that is a member of its group's queue, else 0 (R58, R198). -/
def shownPosition (s : State) (c : CallSlot) (r : CallRec) : Nat :=
  if c ∈ (s.group r.group).queue then s.position c else 0

/-- The call record, 54 bytes (R198). Byte 53 is 0 at the ring timer's second while its expiry has not been taken: the model's choice (log
entry 33). -/
def callBytes (s : State) (c : CallSlot) (r : CallRec) : List Byte :=
  slotField (some c) ++ shelfField (some r.owner) ++ tagField r.tag ++ field 1 r.state.code ++ field 1 r.group.val
    ++ field 1 r.priority ++ field 4 r.arrival ++ field 4 r.seq ++ field 4 r.entry ++ keyField r.key
    ++ field 4 (r.overflowDue.getD 0) ++ field 1 r.hops ++ field 1 r.noAnswers ++ slotField r.lastRefused
    ++ flagByte [r.pendingOverflow, r.onWaitList, r.owedListen, r.owedConnect, r.owedCleared, r.overflowDue.isSome,
        r.nextDue.isSome]
    ++ slotField r.boundAgent ++ shelfField (r.boundAgent.map fun a => (s.agent a).home) ++ field 1 r.listen.code
    ++ field 4 (r.nextDue.getD 0) ++ field 4 r.talkStart ++ field 2 (s.shownPosition c r)
    ++ field 2 (s.queueLength r.group) ++ field 1 ((r.ring.map fun e => e - s.clock).getD 0)

/-- The group record, 87 bytes (R198). -/
def groupBytes (s : State) (g : Group) : List Byte :=
  let r := s.group g
  field 1 g.val ++ flagByte [r.swapPending, r.supervisorClosed, s.closed g, s.heldByLine g] ++ field 2 r.offers
    ++ paramBytes r.active ++ paramBytes r.staged ++ field 2 (s.queueLength g) ++ field 4 (s.oldestAge g)
    ++ field 2 r.staffed ++ averageField r.average ++ statBytes r.stats ++ watchByte r.flags ++ watchByte r.masks
    ++ watchByte r.conditions

/-- The closed byte: bit 0 closed, bit 1 held closed by its service line (R197). -/
def closedByte (s : State) (g : Group) : List Byte := flagByte [s.closed g, s.heldByLine g]

/-- The source record, 17 bytes (R198). -/
def sourceBytes (s : State) (m : SourceNo) : List Byte :=
  let q := s.source m
  let h := highwayOfSource m
  let staged := match q.staged with
    | .empty => field 1 0xFE
    | .value p => codeField p
  field 1 m.val ++ codeField q.current ++ staged ++ flagByte [q.run.isSome] ++ field 1 ((q.run.map Run.step).getD 0)
    ++ field 4 ((q.run.map Run.position).getD 0) ++ field 2 q.listeners ++ field 1 q.idlePasses ++ field 1 q.idleLimit
    ++ codeField (s.slotOf h) ++ field 1 (s.modeOf h).code ++ field 2 0

/-- The channel record, 19 bytes (R198). The program of a FREE channel reads as 0 (log entry 16). -/
def channelBytes (s : State) (j : ChannelNo) : List Byte :=
  let b := s.channel j
  let k := b.bind fun b => s.call b.call
  field 1 j.val ++ flagByte [b.isSome] ++ slotField (b.map Announcement.call) ++ nameBytes (k.map fun r => (r.owner, r.tag))
    ++ field 1 ((b.map fun b => b.run.program.val).getD 0) ++ field 1 ((b.map fun b => b.run.step).getD 0)
    ++ field 4 ((b.map fun b => b.run.position).getD 0) ++ field 2 s.waitList.length
    ++ slotField (s.waitList.head?.map WaitEntry.call) ++ field 2 ((s.waitList.head?.map fun e => s.clock - e.due).getD 0)

end State

/-! ### Notices (R199) -/

/-- The watch kind and the group of a WATCH notice, in the report order of R192. -/
def watchBytes : Watch → List Byte
  | .purgeDone => field 1 1 ++ field 1 0xFF
  | .segmentFault => field 1 2 ++ field 1 0xFF
  | .starved => field 1 3 ++ field 1 0xFF
  | .noStaff g => field 1 4 ++ field 1 g.val
  | .wait g => field 1 5 ++ field 1 g.val
  | .depth g => field 1 6 ++ field 1 g.val

/-- A notice as FETCH returns it. -/
def noticeBytes : Notice → List Byte
  | .agentState a st reason remaining call =>
    field 1 1 ++ slotField (some a) ++ field 1 st.code ++ field 1 reason ++ field 2 remaining ++ nameBytes call
  | .listen t slot => field 1 2 ++ tagField t ++ codeField slot
  | .connect t a home => field 1 3 ++ tagField t ++ slotField (some a) ++ shelfField (some home)
  | .cleared t => field 1 4 ++ tagField t
  | .watch w => field 1 5 ++ watchBytes w

end Sys2Proof.Machine
end

