-- ==== Sys2Proof/Machine/Roster.lean ====
section
/-! DEFINITION. The Agent Roster's and the Wrap Timer Unit's shared operations (Chapters 1 and 6): the change of an agent record
with the staffed counts, the states an agent enters, the end of a wrap, and the wraps due at this second. -/
namespace Sys2Proof.Machine

/-- The states that are counted as staff (R133). -/
def AgentState.counted : AgentState → Bool
  | .ready | .offered | .connected | .wrap => true
  | .signedOut | .aux => false

/-- The agent's skill for a group (R2). -/
def AgentRec.skillFor (r : AgentRec) (g : Group) : Option Skill := r.skills.find? fun k => k.group == g

/-- The agent contributes to a group's staffed count (R134). -/
def AgentRec.counts (r : AgentRec) (g : Group) : Bool := r.state.counted && (r.skillFor g).isSome

/-- The record with every field cleared that holds a value in certain states only (R1, R112). -/
def AgentRec.cleared (r : AgentRec) : AgentRec :=
  { r with auxReason := 0, idleSince := 0, boundCall := none, pending := .none, wrap := {} }

def AgentRec.toSignedOut (r : AgentRec) : AgentRec := { r.cleared with state := .signedOut }
def AgentRec.toAux (r : AgentRec) (reason : Nat) : AgentRec := { r.cleared with state := .aux, auxReason := reason }
def AgentRec.toReady (r : AgentRec) (idle : Nat) : AgentRec := { r.cleared with state := .ready, idleSince := idle }

/-- The state an agent reaches by its pending change (R20): SIGNED_OUT, AUX, or READY with idle-since now. -/
def AgentRec.freed (r : AgentRec) (now : Nat) : AgentRec :=
  match r.pending with
  | .none => r.toReady now
  | .aux reason => r.toAux reason
  | .signOut | .signOutPurge => r.toSignedOut

namespace State

/-- The staffed count of group `g` changes with an agent's contribution, and NO_STAFF is evaluated (R134). -/
def restaff (old new : AgentRec) (s : State) (g : Group) : State :=
  if old.counts g = new.counts g then s
  else (s.modGroup g fun q => { q with staffed := if new.counts g then q.staffed + 1 else q.staffed - 1 }).evalNoStaff g

/-- An agent's record is written, and the staffed count of each group follows, in ascending order of group (R22, R134). -/
def writeAgent (s : State) (a : AgentSlot) (new : AgentRec) : State :=
  (List.finRange 64).foldl (restaff (s.agent a) new) (s.setAgent a new)

/-- A change of an agent's state: the record is written and an AGENT_STATE notice handed to its home port (R23). A quiet change,
of an agent whose home shelf is being purged, hands none (R27, R194). -/
def changeAgent (s : State) (a : AgentSlot) (new : AgentRec) (quiet : Bool := false) : State :=
  let s1 := s.writeAgent a new
  if quiet then s1 else s1.handAgentState a

/-- An agent's state changes, and an agent that has entered READY triggers the Distributor (R22, R75). -/
def moveAgent (s : State) (a : AgentSlot) (new : AgentRec) : State :=
  let s1 := s.changeAgent a new
  if new.state = .ready then s1.raiseAgentTrigger a else s1

/-- The end of agent `a`'s wrap (R120): the sample, if it is kept, then the state that the pending change gives, or SIGNED_OUT
when it is forced (R122). -/
def endWrap (s : State) (a : AgentSlot) (forced : Bool) : State :=
  let r := s.agent a
  let s1 := if r.wrap.mark = .keep then s.takeSample r.wrap.group (r.wrap.talk + (s.clock - r.wrap.start)) else s
  s1.moveAgent a (if forced then r.toSignedOut else r.freed s.clock)

/-- The agent is in WRAP and its wrap end has been reached (R120). -/
def wrapDue (s : State) (a : AgentSlot) : Bool :=
  let r := s.agent a
  r.state == .wrap && decide (r.wrap.finish ≤ s.clock)

/-- The expiry of agent `a`'s wrap, if it is due (R120). -/
def expireWrap (s : State) (a : AgentSlot) : State := if s.wrapDue a then s.endWrap a false else s

/-- The agents whose wrap end has been reached. -/
def dueWraps (s : State) : List AgentSlot :=
  findAll (fun r : AgentRec => r.state == .wrap && decide (r.wrap.finish ≤ s.clock)) s.agents

/-- The wraps whose end has been reached have ended: what every command but WRAP_EXPIRY finds (R119, R120; log entry 4). -/
def wrapsEnded (s : State) : State := s.dueWraps.foldl expireWrap s

/-- The wraps and the announcements that are due have been taken: what every command but WRAP_EXPIRY and ANNOUNCEMENT_DUE finds
(R119, R120, R167; log entry 4). -/
def settled (s : State) : State := s.wrapsEnded.announced

/-- A connected call of group `g` has ended for agent `a` (R18, R21, R113 to R115): calls handled rises; with a pending sign-out
marked by purge the agent is SIGNED_OUT without wrap; with wrap time 0 the sample is taken at once and the agent follows its
pending change; otherwise it enters WRAP. -/
def endConnected (s : State) (a : AgentSlot) (g : Group) (mark : SampleMark) : State :=
  let r := s.agent a
  let r1 := { r with boundCall := none, callsHandled := bump r.callsHandled }
  let p := (s.group g).active
  let talk := s.clock - r.answerStart
  if r.pending = .signOutPurge then s.changeAgent a r1.toSignedOut
  else if p.wrapTime = 0 then
    let s1 := if mark = .keep then s.takeSample g talk else s
    s1.moveAgent a (r1.freed s.clock)
  else
    s.changeAgent a
      { r1 with
        state := .wrap
        wrap := { start := s.clock, finish := s.clock + p.wrapTime, cap := p.wrapCap, extensions := 0, group := g,
                  talk := talk, mark := mark } }

end State

end Sys2Proof.Machine
end

