-- ==== Sys2Proof/Machine/Offers.lean ====
section
/-! DEFINITION. The Offer Controller's and the Distributor's shared operations (Chapters 4 and 5): ring-no-answer, withdrawal, the
choice of agent and call, the tie-break generator and the binding. -/
namespace Sys2Proof.Machine

namespace State

/-! ### The end of an offer (R98, R101) -/

/-- Call `c` returns to QUEUED at the end of an offer that agent `a` ended; `counted` is a ring-no-answer, which raises the
no-answer count (R98, R101). -/
def requeue (s : State) (c : CallSlot) (a : AgentSlot) (counted : Bool) : State :=
  s.modCall c fun r =>
    { r with state := .queued, boundAgent := none, ring := none, lastRefused := some a,
             noAnswers := if counted then min 7 (r.noAnswers + 1) else r.noAnswers }

/-- At a requeue, one overflow move is attempted at the no-answer limit of a ring-no-answer or on a pending overflow, whose flag is
cleared (R70). At the limit 7 a count that stays at 7 attempts a move each time: the model's choice (log entry 28). -/
def overflowAtRequeue (s : State) (c : CallSlot) (counted : Bool) : State :=
  match s.call c with
  | none => s
  | some r =>
    let atLimit := counted && r.noAnswers == (s.group r.group).active.noAnswerLimit
    let s1 := s.modCall c fun k => { k with pendingOverflow := false }
    if atLimit || r.pendingOverflow then s1.tryOverflow c else s1

/-- The call's side of an offer that ends with the call back in its queue: steps 4 to 8 of R98 and 2 to 6 of R101. -/
def returnCall (s : State) (c : CallSlot) (g : Group) (a : AgentSlot) (counted : Bool) : State :=
  ((((s.requeue c a counted).endOffer g).overflowAtRequeue c counted).swapIfQuiet g).raiseCallTrigger c

/-- Ring-no-answer of call `c` bound to agent `a` (R98): the agent goes to AUX with reason 15 or to READY by the active no-answer
action of the call's group, and the call is requeued. -/
def ringNoAnswer (s : State) (c : CallSlot) (r : CallRec) (a : AgentSlot) : State :=
  let s1 := s.modCall c fun k => { k with boundAgent := none, ring := none }
  let ag := s.agent a
  let s2 := s1.moveAgent a <|
    match (s.group r.group).active.noAnswerAction with
    | .aux => ag.toAux 15
    | .ready => ag.toReady s.clock
  s2.returnCall c r.group a true

/-- The offer to agent `a` is withdrawn by the agent side: the agent takes the record `new`, and the call is requeued (R15, R101).
A quiet withdrawal is that of a purge of the agent's home shelf (R108). -/
def withdraw (s : State) (a : AgentSlot) (new : AgentRec) (quiet : Bool := false) : State :=
  match (s.agent a).boundCall with
  | none => s.changeAgent a new quiet
  | some c =>
    match s.call c with
    | none => s.changeAgent a new quiet
    | some r =>
      let s1 := s.modCall c fun k => { k with boundAgent := none }
      (s1.changeAgent a new quiet).returnCall c r.group a false

/-! ### Eligibility (R78 to R80) -/

/-- The call is eligible for an offer: QUEUED in a group that is not swap-pending (R78). -/
def callEligible (s : State) (c : CallSlot) : Bool :=
  match s.call c with
  | none => false
  | some r => r.state == .queued && !(s.group r.group).swapPending

/-- The agent is eligible for a call with record `r` (R79): READY, skilled for its group, not its last refused agent, and with room on
its home port (R80). -/
def agentFits (s : State) (r : CallRec) (a : AgentSlot) (ag : AgentRec) : Bool :=
  ag.state == .ready && (ag.skillFor r.group).isSome && r.lastRefused != some a && s.hasRoom (portOf ag.home)

/-- The agents eligible for a call, in ascending order of slot (R81, R83). -/
def eligibleAgents (s : State) (r : CallRec) : List AgentSlot :=
  (findAll (fun ag : AgentRec => ag.state == .ready && (ag.skillFor r.group).isSome) s.agents).filter
    fun a => s.agentFits r a (s.agent a)

/-! ### Choosing an agent for a call (R81 to R83) -/

/-- The level of the agent's skill for a group (R82). -/
def levelFor (ag : AgentRec) (g : Group) : Nat := ((ag.skillFor g).map Skill.level).getD 0

/-- Agent `x` comes before agent `y` for a call of group `g` under a policy: a smaller first measure, then the earlier idle-since
(R82). -/
def prefers (p : Policy) (g : Group) (x y : AgentRec) : Bool :=
  match p with
  | .longestIdle => decide (x.idleSince < y.idleSince)
  | .highestLevel =>
    decide (levelFor y g < levelFor x g) || (levelFor x g == levelFor y g && decide (x.idleSince < y.idleSince))
  | .leastCalls =>
    decide (x.callsHandled < y.callsHandled) || (x.callsHandled == y.callsHandled && decide (x.idleSince < y.idleSince))

/-- The agents that share the first place among those given: no other comes before them (R82). -/
def firstPlace (s : State) (p : Policy) (g : Group) (l : List AgentSlot) : List AgentSlot :=
  l.filter fun a => l.all fun b => !prefers p g (s.agent b) (s.agent a)

/-- The next state of the generator: shifted toward bit 15, the parity of the tapped bits entering at bit 0, and 0x0000 replaced by
0x0001 (R87). -/
def nextGenerator (taps w : Word16) : Word16 :=
  let tapped := w &&& taps
  let parity := (List.range 16).foldl (fun b i => b ^^ tapped.getLsbD i) false
  let shifted := (w <<< 1) ||| (if parity then 1 else 0)
  if shifted = 0 then 1 else shifted

/-- The agent chosen among those that share the first place: the only one, or the one at index (generator state modulo their number),
after which the generator advances (R83). -/
def breakTie (s : State) : List AgentSlot → Option AgentSlot × State
  | [] => (none, s)
  | [a] => (some a, s)
  | l => (l[s.generator.toNat % l.length]?, s.setGenerator (nextGenerator s.taps s.generator))

/-- The agent selected for a call with record `r` under its group's active policy, if any is eligible (R81). -/
def selectAgent (s : State) (r : CallRec) : Option AgentSlot × State :=
  s.breakTie (s.firstPlace (s.group r.group).active.policy r.group (s.eligibleAgents r))

/-! ### Choosing a call for an agent (R84, R85) -/

/-- The urgency of a call: its age, clamped to 0–99999, times the active weight of its group (R85). -/
def urgency (s : State) (r : CallRec) : Nat :=
  (max 0 (min 99999 ((s.clock : Int) - r.key))).toNat * (s.group r.group).active.weight

/-- Candidate `x` is more pressing than `y`: higher urgency, then the smaller arrival sequence number (R85). -/
def moreUrgent (s : State) (x y : CallRec) : Bool :=
  decide (s.urgency y < s.urgency x) || (s.urgency x == s.urgency y && decide (x.seq < y.seq))

/-- The most pressing of the candidates. -/
def mostUrgent (s : State) : List (CallSlot × CallRec) → Option (CallSlot × CallRec)
  | [] => none
  | e :: rest =>
    match mostUrgent s rest with
    | none => some e
    | some f => if s.moreUrgent f.2 e.2 then some f else some e

/-- The calls of a queue with their records. -/
def members (s : State) (g : Group) : List (CallSlot × CallRec) :=
  (s.group g).queue.filterMap fun c => (s.call c).map fun r => (c, r)

/-- A group's candidate for agent `a`: the first member that is QUEUED and that `a` did not last refuse; a swap-pending group has
none (R84). -/
def candidateFor (s : State) (a : AgentSlot) (g : Group) : Option (CallSlot × CallRec) :=
  if (s.group g).swapPending then none
  else (s.members g).find? fun e => e.2.state == .queued && e.2.lastRefused != some a

/-- A group's candidate in a round of a sweep: the first member that is eligible and has an eligible agent (R86). -/
def sweepCandidate (s : State) (g : Group) : Option (CallSlot × CallRec) :=
  if (s.group g).swapPending then none
  else (s.members g).find? fun e => e.2.state == .queued && !(s.eligibleAgents e.2).isEmpty

/-! ### Binding (R90) -/

/-- Call `c`, with record `r`, and agent `a` are bound: steps 1 to 5 of R90. -/
def bind (s : State) (c : CallSlot) (r : CallRec) (a : AgentSlot) : State :=
  let s1 := s.modCall c fun k =>
    { k with state := .offered, boundAgent := some a, ring := some (s.clock + (s.group r.group).active.ringTimeout) }
  let s2 := s1.modGroup r.group fun q => { q with offers := q.offers + 1 }
  s2.changeAgent a { s.agent a with state := .offered, boundCall := some c }

/-- A call trigger is taken: the call, if eligible, is bound to the agent selected for it (R81). -/
def takeCallTrigger (s : State) (c : CallSlot) : State :=
  if s.callEligible c then
    match s.call c with
    | none => s
    | some r =>
      match s.selectAgent r with
      | (none, s1) => s1
      | (some a, s1) => s1.bind c r a
  else s

/-- An agent trigger is taken: the agent, if READY with room on its home port, is bound to the most urgent candidate of its groups
(R84). -/
def takeAgentTrigger (s : State) (a : AgentSlot) : State :=
  let ag := s.agent a
  if ag.state = .ready ∧ s.hasRoom (portOf ag.home) = true then
    match s.mostUrgent (ag.skills.filterMap fun k => s.candidateFor a k.group) with
    | none => s
    | some (c, r) => s.bind c r a
  else s

/-- The most pressing of all groups' candidates in a round of a sweep (R86). -/
@[irreducible] def sweepBest (s : State) : Option (CallSlot × CallRec) := s.mostUrgent ((List.finRange 64).filterMap s.sweepCandidate)

/-- Rounds of a sweep (R86): each binds the most urgent candidate of all groups to the agent selected for it, until none remains. -/
def sweepRounds : Nat → State → State
  | 0, s => s
  | n + 1, s =>
    match s.sweepBest with
    | none => s
    | some (c, r) =>
      match s.selectAgent r with
      | (none, s1) => s1
      | (some a, s1) => sweepRounds n (s1.bind c r a)

/-- A sweep is taken. Each round makes a READY agent OFFERED, so 512 rounds are enough. -/
def takeSweep (s : State) : State := sweepRounds 512 s

end State

end Sys2Proof.Machine
end

