-- ==== Sys2Proof/Machine/Agents.lean ====
section
/-! DEFINITION. The agent requests (Chapter 1; the answer, no-answer and hang-up requests of Chapter 5; the wrap requests of
Chapter 6). -/
namespace Sys2Proof.Machine

/-! ### Checks (R8) -/

/-- The checks 2 and 3 of R8 before `act` on the agent named: NO_AGENT, then NOT_HOME where `home` asks for the home port. -/
def asAgent (p : Port) (home : Bool) (ps : List Byte) (s : State) (act : AgentSlot → Reply) : Reply :=
  match below 512 (u16 ps 0) with
  | none => .refuse s .noAgent
  | some a =>
    if !(s.agent a).defined then .refuse s .noAgent
    else if home && p != portOf (s.agent a).home then .refuse s .notHome
    else act a

/-- The owner shelf and tag that a request names after its agent; `none` is a shelf value other than A or B (R197). -/
def namedCall (ps : List Byte) : Option (Shelf × Tag) :=
  (shelfOfByte (u8 ps 2)).map fun x => (x, BitVec.ofNat 16 (u16 ps 3))

/-- An AUX reason that a master may ask for: 1–14 (R11). -/
def reasonOk (r : Nat) : Bool := decide (1 ≤ r) && decide (r ≤ 14)

namespace State

/-- The call bound to agent `a`, if `a` is in state `st` and the call has the owner shelf and tag named (R17, R18). -/
def boundAs (s : State) (a : AgentSlot) (st : AgentState) (n : Shelf × Tag) : Option (CallSlot × CallRec) :=
  let ag := s.agent a
  if ag.state = st then
    match ag.boundCall with
    | none => none
    | some c =>
      match s.call c with
      | none => none
      | some r => if r.owner = n.1 ∧ r.tag = n.2 then some (c, r) else none
  else none

/-- A pending change is recorded (R19). -/
def recordPending (s : State) (a : AgentSlot) (p : Pending) : State := s.setAgent a { s.agent a with pending := p }

/-- The state and AUX reason that the responses of READY and WRAP_END carry (R121, R197). -/
def stateContent (s : State) (a : AgentSlot) : List Byte :=
  field 1 (s.agent a).state.code ++ field 1 (s.agent a).auxReason

/-! ### AUX and sign-out (R11 to R14) -/

/-- AUX with reason `r` for agent `a`, by its state: the table of R11. -/
def goAux (s : State) (a : AgentSlot) (r : Nat) : Reply :=
  let ag := s.agent a
  match ag.state with
  | .signedOut => .refuse s .badState
  | .aux => if ag.auxReason = r then .ok s else .ok (s.moveAgent a (ag.toAux r))
  | .ready => .ok (s.moveAgent a (ag.toAux r))
  | .offered => .ok (s.withdraw a (ag.toAux r))
  | .connected | .wrap =>
    if ag.pending = .signOutPurge then .refuse s .badState
    else { state := s.recordPending a (.aux r), result := .pending }

/-- The outcomes that SIGN_OUT and FORCE_SIGN_OUT share: those of the states other than CONNECTED and WRAP (R12, R14). -/
def goOut (s : State) (a : AgentSlot) (engaged : Reply) : Reply :=
  let ag := s.agent a
  match ag.state with
  | .signedOut => .refuse s .already
  | .aux | .ready => .ok (s.moveAgent a ag.toSignedOut)
  | .offered => .ok (s.withdraw a ag.toSignedOut)
  | .connected | .wrap => engaged

/-- WRAP_END for agent `a`: taken in WRAP only (R16, R121). -/
def finishWrap (s : State) (a : AgentSlot) : Reply :=
  let s1 := s.endWrap a false
  .ok s1 (s1.stateContent a)

/-! ### Answer and hang-up (R96, R104) -/

/-- The answer of call `c`, with record `r`, by agent `a`: steps 1 to 8 of R96, and the arbiter at the end (log entry 10). -/
def connect (s : State) (a : AgentSlot) (c : CallSlot) (r : CallRec) : State :=
  let s1 := s.modCall c fun k =>
    { k with state := .connected, ring := none, talkStart := s.clock, overflowDue := none, pendingOverflow := false }
  let s2 := s1.writeAgent a { s.agent a with state := .connected, idleSince := 0, answerStart := s.clock }
  let s3 := (s2.endOffer r.group).leaveQueue c r.group
  let s4 := s3.modStats r.group fun q => { q with answered := bump q.answered }
  let s5 := s4.detach c
  let s6 := ((s5.handAgentState a).handCall c .connect).handCall c .listen
  (s6.swapIfQuiet r.group).arbitrate

/-- The hang-up of agent `a` on call `c`, with record `r`: steps 1 to 4 of R104. -/
def hangUp (s : State) (a : AgentSlot) (c : CallSlot) (r : CallRec) : State :=
  let s1 := s.modCall c fun k => { k with boundAgent := none }
  let s2 := s1.endConnected a r.group .keep
  (s2.modCall c fun k => { k with state := .clearing }).handCall c .cleared

end State

/-! ### What each request does -/

/-- AGENT_READ (R7). -/
def actAgentRead (ps : List Byte) (s : State) : Reply :=
  match below 512 (u16 ps 0) with
  | none => .refuse s .noAgent
  | some a => .ok s (s.agentBytes a)

/-- SIGN_IN (R9). -/
def actSignIn (p : Port) (ps : List Byte) (s : State) : Reply :=
  asAgent p true ps s fun a =>
    if (s.agent a).state = .signedOut then .ok (s.moveAgent a { (s.agent a).toAux 0 with callsHandled := 0 })
    else .refuse s .already

/-- READY (R10, R19). -/
def actReady (p : Port) (ps : List Byte) (s : State) : Reply :=
  asAgent p true ps s fun a =>
    let ag := s.agent a
    match ag.state with
    | .signedOut => .refuse s .badState
    | .aux =>
      let s1 := s.moveAgent a (ag.toReady s.clock)
      .ok s1 (s1.stateContent a)
    | .ready | .offered => .ok s (s.stateContent a)
    | .connected =>
      if ag.pending = .signOutPurge then .refuse s .badState
      else .ok (s.recordPending a .none) (s.stateContent a)
    | .wrap => s.finishWrap a

/-- AUX (R11). -/
def actAux (p : Port) (ps : List Byte) (s : State) : Reply :=
  asAgent p true ps s fun a => if reasonOk (u8 ps 2) then s.goAux a (u8 ps 2) else .refuse s .badParam

/-- SIGN_OUT (R12, R19). -/
def actSignOut (p : Port) (ps : List Byte) (s : State) : Reply :=
  asAgent p true ps s fun a =>
    s.goOut a <|
      if (s.agent a).pending = .signOutPurge then .refuse s .badState
      else { state := s.recordPending a .signOut, result := .pending }

/-- WRAP_EXTEND (R16, R117, R118). -/
def actWrapExtend (p : Port) (ps : List Byte) (s : State) : Reply :=
  asAgent p true ps s fun a =>
    let ag := s.agent a
    let w := ag.wrap
    let g := (s.group w.group).active
    if ag.state ≠ .wrap then .refuse s .badState
    else if g.extLimit ≤ w.extensions then .refuse s .limit
    else
      let finish := min (w.finish + g.extStep) (w.start + w.cap)
      let s1 := s.setAgent a { ag with wrap := { w with finish := finish, extensions := w.extensions + 1 } }
      let s2 := if finish = w.finish then s1 else s1.handAgentState a
      { state := s2
        result := if w.finish + g.extStep ≤ w.start + w.cap then .ok else .okClamped
        content := field 2 (finish - s.clock) ++ field 1 (w.extensions + 1) }

/-- WRAP_END (R16, R121). -/
def actWrapEnd (p : Port) (ps : List Byte) (s : State) : Reply :=
  asAgent p true ps s fun a => if (s.agent a).state = .wrap then s.finishWrap a else .refuse s .badState

/-- AGENT_ANSWER (R17, R96, R100). -/
def actAgentAnswer (p : Port) (ps : List Byte) (s : State) : Reply :=
  asAgent p true ps s fun a =>
    match namedCall ps with
    | none => .refuse s .badParam
    | some n =>
      match s.boundAs a .offered n with
      | none => .refuse s .late
      | some (c, r) => .ok (s.connect a c r) (slotField (some c))

/-- AGENT_NO_ANSWER (R17, R99, R100). -/
def actAgentNoAnswer (p : Port) (ps : List Byte) (s : State) : Reply :=
  asAgent p true ps s fun a =>
    match namedCall ps with
    | none => .refuse s .badParam
    | some n =>
      match s.boundAs a .offered n with
      | none => .refuse s .late
      | some (c, r) => .ok (s.ringNoAnswer c r a) (slotField (some c))

/-- AGENT_HANGUP (R18, R104). -/
def actAgentHangup (p : Port) (ps : List Byte) (s : State) : Reply :=
  asAgent p true ps s fun a =>
    match namedCall ps with
    | none => .refuse s .badParam
    | some n =>
      match s.boundAs a .connected n with
      | none => .refuse s .noCall
      | some (c, r) => .ok (s.hangUp a c r) (slotField (some c))

/-- The (group, level) pairs of an AGENT_DEFINE as written (R197). -/
def skillPairs (ps : List Byte) : List (Nat × Nat) :=
  (List.range (u8 ps 4)).map fun i => (u8 ps (5 + 2 * i), u8 ps (6 + 2 * i))

/-- The skill list that pairs write; `none` where a group is 64 or above or a level is outside 1–9. -/
def skillsOf : List (Nat × Nat) → Option (List Skill)
  | [] => some []
  | (g, l) :: rest =>
    match below 64 g, skillsOf rest with
    | some g, some ks => if 1 ≤ l ∧ l ≤ 9 then some (⟨g, l⟩ :: ks) else none
    | _, _ => none

/-- AGENT_DEFINE (R5, R6): its checks in order, and the definition. A home that changes takes the agent's owed pair with it. -/
def actAgentDefine (ps : List Byte) (s : State) : Reply :=
  match below 512 (u16 ps 0) with
  | none => .refuse s .noAgent
  | some a =>
    let pairs := skillPairs ps
    let ag := s.agent a
    if pairs.any fun k => decide (64 ≤ k.1) then .refuse s .badGroup
    else
      match skillsOf pairs, shelfOfByte (u8 ps 3) with
      | some skills, some home =>
        if !(pairs.map Prod.fst).Nodup || decide (8 < u8 ps 4) || decide (1 < u8 ps 2) then .refuse s .badParam
        else if ag.state = .offered then .refuse s .busy
        else if (ag.home ≠ home ∨ u8 ps 2 = 0) ∧ ag.state ≠ .signedOut then .refuse s .badState
        else if u8 ps 2 = 0 then
          if ag.defined then .ok ((s.removeOwed (portOf ag.home) (.agentState a)).writeAgent a {}) else .ok s
        else
          let s1 := if ag.home = home then s else s.removeOwed (portOf ag.home) (.agentState a)
          let owed := ag.owed && ag.home == home
          let s2 := s1.writeAgent a { ag with defined := true, home := home, skills := skills, owed := owed }
          .ok (if ag.state = .ready ∧ ag.skills ≠ skills then s2.raiseAgentTrigger a else s2)
      | _, _ => .refuse s .badParam

/-- FORCE_AUX (R13). -/
def actForceAux (p : Port) (ps : List Byte) (s : State) : Reply :=
  asAgent p false ps s fun a => if reasonOk (u8 ps 2) then s.goAux a (u8 ps 2) else .refuse s .badParam

/-- FORCE_SIGN_OUT (R14, R19, R122). -/
def actForceSignOut (p : Port) (ps : List Byte) (s : State) : Reply :=
  asAgent p false ps s fun a =>
    let ag := s.agent a
    s.goOut a <|
      if ag.state = .wrap then .ok (s.endWrap a true)
      else if ag.pending = .signOutPurge then { state := s, result := .pending }
      else { state := s.recordPending a .signOut, result := .pending }

/-! ### The meanings -/

/-- AGENT_READ. -/
def execAgentRead (p : Port) (body : List Byte) (s : State) : Host.Outcome State Fault Refusal :=
  .next (State.request .agentRead p body actAgentRead s.settled)

/-- SIGN_IN. -/
def execSignIn (p : Port) (body : List Byte) (s : State) : Host.Outcome State Fault Refusal :=
  .next (State.request .signIn p body (actSignIn p) s.settled)

/-- READY. -/
def execReady (p : Port) (body : List Byte) (s : State) : Host.Outcome State Fault Refusal :=
  .next (State.request .ready p body (actReady p) s.settled)

/-- AUX. -/
def execAux (p : Port) (body : List Byte) (s : State) : Host.Outcome State Fault Refusal :=
  .next (State.request .aux p body (actAux p) s.settled)

/-- SIGN_OUT. -/
def execSignOut (p : Port) (body : List Byte) (s : State) : Host.Outcome State Fault Refusal :=
  .next (State.request .signOut p body (actSignOut p) s.settled)

/-- WRAP_EXTEND. -/
def execWrapExtend (p : Port) (body : List Byte) (s : State) : Host.Outcome State Fault Refusal :=
  .next (State.request .wrapExtend p body (actWrapExtend p) s.settled)

/-- WRAP_END. -/
def execWrapEnd (p : Port) (body : List Byte) (s : State) : Host.Outcome State Fault Refusal :=
  .next (State.request .wrapEnd p body (actWrapEnd p) s.settled)

/-- AGENT_ANSWER. -/
def execAgentAnswer (p : Port) (body : List Byte) (s : State) : Host.Outcome State Fault Refusal :=
  .next (State.request .agentAnswer p body (actAgentAnswer p) s.settled)

/-- AGENT_NO_ANSWER. -/
def execAgentNoAnswer (p : Port) (body : List Byte) (s : State) : Host.Outcome State Fault Refusal :=
  .next (State.request .agentNoAnswer p body (actAgentNoAnswer p) s.settled)

/-- AGENT_HANGUP. -/
def execAgentHangup (p : Port) (body : List Byte) (s : State) : Host.Outcome State Fault Refusal :=
  .next (State.request .agentHangup p body (actAgentHangup p) s.settled)

/-- AGENT_DEFINE. -/
def execAgentDefine (p : Port) (body : List Byte) (s : State) : Host.Outcome State Fault Refusal :=
  .next (State.request .agentDefine p body actAgentDefine s.settled)

/-- FORCE_AUX. -/
def execForceAux (p : Port) (body : List Byte) (s : State) : Host.Outcome State Fault Refusal :=
  .next (State.request .forceAux p body (actForceAux p) s.settled)

/-- FORCE_SIGN_OUT. -/
def execForceSignOut (p : Port) (body : List Byte) (s : State) : Host.Outcome State Fault Refusal :=
  .next (State.request .forceSignOut p body (actForceSignOut p) s.settled)

end Sys2Proof.Machine
end

