-- ==== Sys2Proof/Machine/Calls.lean ====
section
/-! DEFINITION. The call requests (Chapter 3) and the tie-break requests (Chapter 4). -/
namespace Sys2Proof.Machine

/-- The tag at an offset of the parameters. -/
def tagAt (ps : List Byte) (i : Nat) : Tag := BitVec.ofNat 16 (u16 ps i)

/-- The call that a shelf port names by tag, before `act`; a tag not found is UNKNOWN_CALL (R63, R64). -/
def asCall (x : Option Shelf) (t : Tag) (s : State) (act : CallSlot → CallRec → Reply) : Reply :=
  match x.bind fun x => s.findCall x t with
  | none => .refuse s .unknownCall
  | some c =>
    match s.call c with
    | none => .refuse s .unknownCall
    | some r => act c r

namespace State

/-! ### Arrival (R56, R60 to R62) -/

/-- The lowest-numbered free call slot (R54). -/
def freeSlot (s : State) : Option CallSlot := (findAll Option.isNone s.calls).head?

/-- A call in use holds the arrival sequence number. -/
def seqHeld (s : State) (n : Nat) : Bool := s.calls.toList.any fun o => o.any fun r => r.seq == n

/-- The sequence counter advanced from `n` until no call in use holds its value (R56). There are 1024 calls at most. -/
def advanceSeq (s : State) : Nat → Nat → Nat
  | 0, n => n
  | k + 1, n => if s.seqHeld n then advanceSeq s k ((n + 1) % Config.wrap32) else n

/-- The chain of overflow targets from group `g` (R61): the group that takes the call and the hop that took it, with `left` hops
left to try. -/
def overflowChain (s : State) : Nat → Nat → Group → Option (Group × Nat)
  | 0, _, _ => none
  | left + 1, hop, g =>
    match (s.group g).active.overflowTarget with
    | none => none
    | some t => if !s.closed t && s.belowDepth t then some (t, hop) else overflowChain s left (hop + 1) t

/-- The group that takes an arrival naming group `g`, and its hop count (R60, check 5; R61). -/
def placeArrival (s : State) (g : Group) : Option (Group × Nat) :=
  if s.belowDepth g then some (g, 0)
  else if (s.group g).active.overflowOnFull then s.overflowChain 3 1 g
  else none

/-- The record of an accepted arrival (R62). -/
def arrivalRecord (s : State) (x : Shelf) (t : Tag) (g : Group) (priority hops : Nat) : CallRec :=
  { owner := x, tag := t, group := g, priority := priority, arrival := s.clock, seq := s.seqCounter, hops := hops }

/-- An arrival placed by the chain is counted at the group named and the group that took it (R43, R61). -/
def countHop (s : State) (named taken : Group) (hops : Nat) : State :=
  if hops = 0 then s
  else (s.modStats named fun q => { q with overflowedOut := bump q.overflowedOut }).modStats taken fun q =>
    { q with overflowedIn := bump q.overflowedIn }

/-- What an arriving call hears, and its first announcement due (R62). -/
def startListening (s : State) (c : CallSlot) (g : Group) : State :=
  let p := (s.group g).active
  let s1 := s.setListen c (s.musicOf g)
  let s2 := if s.musicOf g = .silent then s1 else s1.handCall c .listen
  s2.modCall c fun r => { r with nextDue := if p.program.isSome then some (s.clock + p.firstDelay) else none }

/-- An accepted arrival in slot `c`, in group `g` after `hops` hops from the group named (R62). -/
def arrive (s : State) (c : CallSlot) (x : Shelf) (t : Tag) (named g : Group) (priority hops : Nat) : State :=
  let s1 := s.putCall c (some (s.arrivalRecord x t g priority hops))
  let s2 := s1.setSeqCounter (s1.advanceSeq 1024 ((s.seqCounter + 1) % Config.wrap32))
  ((s2.countHop named g hops).join c g).startListening c g

/-! ### Release (R64 to R67) -/

/-- The abandoned count of a group rises (R43). -/
def countAbandoned (s : State) (g : Group) : State :=
  s.modStats g fun q => { q with abandoned := bump q.abandoned }

/-- The agent of an OFFERED call that is freed returns to READY with its idle-since kept (R65, R28). -/
def freeAgent (s : State) (a : AgentSlot) : State :=
  s.moveAgent a ((s.agent a).toReady (s.agent a).idleSince)

/-- Call `c`, with record `r`, is released by its owner shelf, by its state (R64 to R67). -/
def release (s : State) (c : CallSlot) (r : CallRec) : State :=
  match r.state, r.boundAgent with
  | .queued, _ => (s.countAbandoned r.group).freeCall c
  | .offered, some a =>
    let s1 := (s.modCall c fun k => { k with boundAgent := none, ring := none }).freeAgent a
    (((s1.countAbandoned r.group).freeCall c).endOffer r.group).swapIfQuiet r.group
  | .connected, some a =>
    ((s.modCall c fun k => { k with boundAgent := none }).endConnected a r.group .keep).freeCall c
  | _, _ => s.freeCall c

end State

/-! ### What each request does -/

/-- CALL_ARRIVE (R60 to R62). -/
def actCallArrive (p : Port) (ps : List Byte) (s : State) : Reply :=
  match shelfOf p with
  | none => .refuse s .badRequest
  | some x =>
    let t := tagAt ps 0
    if (s.findCall x t).isSome then .refuse s .duplicate
    else
      match below 64 (u8 ps 2) with
      | none => .refuse s .badGroup
      | some named =>
        if s.closed named then .refuse s .closed
        else
          match s.freeSlot, s.placeArrival named with
          | none, _ => .refuse s .callsFull
          | some _, none => .refuse s .queueFull
          | some c, some (g, hops) =>
            let s1 := s.arrive c x t named g (min 7 (u8 ps 3)) hops
            { state := s1
              result := if 7 < u8 ps 3 then .okClamped else .ok
              content := slotField (some c) ++ field 1 g.val ++ field 1 hops
                ++ keyField (((s1.call c).map CallRec.key).getD 0) ++ field 2 (s1.position c) }

/-- CALL_RELEASE (R64 to R67); the arbiter acts on a channel freed (R170). -/
def actCallRelease (p : Port) (ps : List Byte) (s : State) : Reply :=
  asCall (shelfOf p) (tagAt ps 0) s fun c r => .ok (s.release c r).arbitrate (field 1 r.state.code)

/-- CALL_READ (R63): by tag on ports A and B, by shelf and tag on port S. -/
def actCallRead (p : Port) (ps : List Byte) (s : State) : Reply :=
  match shelfOf p with
  | some x => asCall (some x) (tagAt ps 0) s fun c r => .ok s (s.callBytes c r)
  | none =>
    match shelfOfByte (u8 ps 0) with
    | none => .refuse s .badParam
    | some x => asCall (some x) (tagAt ps 1) s fun c r => .ok s (s.callBytes c r)

/-- TIEBREAK_SET (R88). -/
def actTiebreakSet (ps : List Byte) (s : State) : Reply :=
  let seed := if u16 ps 0 = 0 then 1 else u16 ps 0
  let taps := if u16 ps 2 = 0 then 0xD008 else u16 ps 2
  { state := s.setTiebreak (BitVec.ofNat 16 seed) (BitVec.ofNat 16 taps)
    result := if u16 ps 0 = 0 ∨ u16 ps 2 = 0 then .okClamped else .ok
    content := field 2 seed ++ field 2 taps }

/-- TIEBREAK_READ (R89). -/
def actTiebreakRead (_ps : List Byte) (s : State) : Reply :=
  .ok s (field 2 s.seed.toNat ++ field 2 s.taps.toNat ++ field 2 s.generator.toNat)

/-! ### The meanings -/

/-- CALL_ARRIVE. -/
def execCallArrive (p : Port) (body : List Byte) (s : State) : Host.Outcome State Fault Refusal :=
  .next (State.request .callArrive p body (actCallArrive p) s.settled)

/-- CALL_RELEASE. -/
def execCallRelease (p : Port) (body : List Byte) (s : State) : Host.Outcome State Fault Refusal :=
  .next (State.request .callRelease p body (actCallRelease p) s.settled)

/-- CALL_READ. -/
def execCallRead (p : Port) (body : List Byte) (s : State) : Host.Outcome State Fault Refusal :=
  .next (State.request .callRead p body (actCallRead p) s.settled)

/-- TIEBREAK_SET. -/
def execTiebreakSet (p : Port) (body : List Byte) (s : State) : Host.Outcome State Fault Refusal :=
  .next (State.request .tiebreakSet p body actTiebreakSet s.settled)

/-- TIEBREAK_READ. -/
def execTiebreakRead (p : Port) (body : List Byte) (s : State) : Host.Outcome State Fault Refusal :=
  .next (State.request .tiebreakRead p body actTiebreakRead s.settled)

end Sys2Proof.Machine
end

