-- ==== Sys2Proof/Machine/Groups.lean ====
section
/-! DEFINITION. The group requests and the service line requests (Chapter 2). -/
namespace Sys2Proof.Machine

/-- The check of the group number before `act` on the group named (R29). -/
def asGroup (ps : List Byte) (s : State) (act : Group → Reply) : Reply :=
  match below 64 (u8 ps 0) with
  | none => .refuse s .badGroup
  | some g => act g

/-- The check of the line number before `act` on the line named (R42). -/
def asLine (ps : List Byte) (s : State) (act : LineNo → Reply) : Reply :=
  match below 4 (u8 ps 0) with
  | none => .refuse s .badParam
  | some l => act l

/-! ### The parameter block (R31, R32, R197) -/

def noAnswerActionOf (v : Nat) : Option NoAnswerAction :=
  if v = 0 then some .aux else if v = 1 then some .ready else none

def policyOf (v : Nat) : Option Policy :=
  if v = 0 then some .longestIdle else if v = 1 then some .highestLevel else if v = 2 then some .leastCalls else none

def yesNoOf (v : Nat) : Option Bool :=
  if v = 0 then some false else if v = 1 then some true else none

/-- The parameter set that a 30-byte block holds, its numeric fields as given; `none` where an enumerated field is out of its range
(R31, check 2). -/
def paramsOf (b : List Byte) : Option Params :=
  match noAnswerActionOf (u8 b 9), policyOf (u8 b 10), belowOrNone 64 (u8 b 15), yesNoOf (u8 b 18), belowOrNone 8 (u8 b 19),
      belowOrNone 64 (u8 b 20), belowOrNone 4 (u8 b 29) with
  | some action, some policy, some target, some full, some music, some program, some line =>
    some
      { wrapTime := u16 b 0, extStep := u16 b 2, extLimit := u8 b 4, wrapCap := u16 b 5, ringTimeout := u8 b 7
        noAnswerLimit := u8 b 8, noAnswerAction := action, policy := policy, weight := u8 b 11, priorityStep := u8 b 12
        maxDepth := u16 b 13, overflowTarget := target, overflowWait := u16 b 16, overflowOnFull := full, music := music
        program := program, firstDelay := u8 b 21, interval := u16 b 22, shift := u8 b 24, depthThreshold := u16 b 25
        waitObjective := u16 b 27, line := line }
  | _, _, _, _, _, _, _ => none

/-- A field in which 0 means off or never: 0 is kept, another value is brought into its range (R32). -/
def clampOrOff (low high x : Nat) : Nat := if x = 0 then 0 else clamp low high x

/-- The numeric fields brought into range, the wrap time last, against the cap as stored (R32). -/
def Params.inRange (p : Params) : Params :=
  let cap := clamp 0 1800 p.wrapCap
  { p with
    wrapTime := min (clamp 0 900 p.wrapTime) cap
    extStep := clamp 5 300 p.extStep
    extLimit := clamp 0 3 p.extLimit
    wrapCap := cap
    ringTimeout := clamp 4 60 p.ringTimeout
    noAnswerLimit := clamp 1 7 p.noAnswerLimit
    weight := clamp 1 15 p.weight
    priorityStep := clamp 0 255 p.priorityStep
    maxDepth := clamp 1 1024 p.maxDepth
    overflowWait := clampOrOff 10 3600 p.overflowWait
    firstDelay := clamp 0 120 p.firstDelay
    interval := clampOrOff 15 600 p.interval
    shift := clamp 1 6 p.shift
    depthThreshold := clampOrOff 1 1024 p.depthThreshold
    waitObjective := clampOrOff 5 3600 p.waitObjective }

/-- The bits of a group kind byte; the unused bits are ignored (R197). -/
def watchBitsOf (v : Nat) : WatchBits := { depth := v.testBit 0, wait := v.testBit 1, noStaff := v.testBit 2 }

def lineModeOf (v : Nat) : Option LineMode :=
  if v = 0 then some .off else if v = 1 then some .levelHigh else if v = 2 then some .levelLow
  else if v = 3 then some .toggleRise else if v = 4 then some .toggleFall else none

/-! ### What each request does -/

/-- GROUP_READ (R33). -/
def actGroupRead (ps : List Byte) (s : State) : Reply :=
  asGroup ps s fun g => .ok s (s.groupBytes g)

/-- GROUP_STAGE (R31, R32). -/
def actGroupStage (ps : List Byte) (s : State) : Reply :=
  asGroup ps s fun g =>
    match paramsOf (ps.drop 1) with
    | none => .refuse s .badParam
    | some p =>
      if p.overflowTarget = some g then .refuse s .badParam
      else
        { state := s.modGroup g fun r => { r with staged := p.inRange }
          result := if p.inRange = p then .ok else .okClamped
          content := paramBytes p.inRange }

/-- GROUP_SWAP (R35). -/
def actGroupSwap (ps : List Byte) (s : State) : Reply :=
  asGroup ps s fun g =>
    let r := s.group g
    if r.swapPending then { state := s, result := .pending }
    else if r.offers = 0 then .ok (s.performSwap g)
    else { state := s.setGroup g { r with swapPending := true }, result := .pending }

/-- GROUP_OPEN (R38, R39). -/
def actGroupOpen (ps : List Byte) (s : State) : Reply :=
  asGroup ps s fun g =>
    let s1 := (s.modGroup g fun r => { r with supervisorClosed := false }).sweepIfOpened s
    .ok s1 (s1.closedByte g)

/-- GROUP_CLOSE (R39). -/
def actGroupClose (ps : List Byte) (s : State) : Reply :=
  asGroup ps s fun g =>
    let s1 := s.modGroup g fun r => { r with supervisorClosed := true }
    .ok s1 (s1.closedByte g)

/-- GROUP_STATS (R44). -/
def actGroupStats (ps : List Byte) (s : State) : Reply :=
  asGroup ps s fun g => .ok (s.modStats g fun _ => {}) (statBytes (s.group g).stats)

/-- A WATCH is handed if a set flag of a kind in group `g` has passed from masked to unmasked (R50; log entry 13). -/
def unmaskWatch (old : GroupRec) (g : Group) (s : State) (k : GroupKind) : State :=
  if old.masks.get k && s.groupWatch k g then s.handWatch else s

/-- GROUP_WATCH_MASK (R50). -/
def actGroupWatchMask (ps : List Byte) (s : State) : Reply :=
  asGroup ps s fun g =>
    let s1 := s.modGroup g fun r => { r with masks := watchBitsOf (u8 ps 1) }
    .ok ([GroupKind.depth, .wait, .noStaff].foldl (unmaskWatch (s.group g) g) s1)

/-- LINE_MODE (R42, R38). -/
def actLineMode (ps : List Byte) (s : State) : Reply :=
  asLine ps s fun l =>
    match lineModeOf (u8 ps 1) with
    | none => .refuse s .badParam
    | some m => .ok ((s.setLine l { s.line l with mode := m, latch := false }).sweepIfOpened s)

/-- LINE_READ (R42). The bytes of the latch and of the active state are 1 for set or active, 0 otherwise: the model's choice (log entry
32). -/
def actLineRead (ps : List Byte) (s : State) : Reply :=
  asLine ps s fun l =>
    let r := s.line l
    .ok s (field 1 r.mode.code ++ flagByte [r.seen] ++ flagByte [r.latch] ++ flagByte [r.active])

/-! ### The meanings -/

/-- GROUP_READ. -/
def execGroupRead (p : Port) (body : List Byte) (s : State) : Host.Outcome State Fault Refusal :=
  .next (State.request .groupRead p body actGroupRead s.settled)

/-- GROUP_STAGE. -/
def execGroupStage (p : Port) (body : List Byte) (s : State) : Host.Outcome State Fault Refusal :=
  .next (State.request .groupStage p body actGroupStage s.settled)

/-- GROUP_SWAP. -/
def execGroupSwap (p : Port) (body : List Byte) (s : State) : Host.Outcome State Fault Refusal :=
  .next (State.request .groupSwap p body actGroupSwap s.settled)

/-- GROUP_OPEN. -/
def execGroupOpen (p : Port) (body : List Byte) (s : State) : Host.Outcome State Fault Refusal :=
  .next (State.request .groupOpen p body actGroupOpen s.settled)

/-- GROUP_CLOSE. -/
def execGroupClose (p : Port) (body : List Byte) (s : State) : Host.Outcome State Fault Refusal :=
  .next (State.request .groupClose p body actGroupClose s.settled)

/-- GROUP_STATS. -/
def execGroupStats (p : Port) (body : List Byte) (s : State) : Host.Outcome State Fault Refusal :=
  .next (State.request .groupStats p body actGroupStats s.settled)

/-- GROUP_WATCH_MASK. -/
def execGroupWatchMask (p : Port) (body : List Byte) (s : State) : Host.Outcome State Fault Refusal :=
  .next (State.request .groupWatchMask p body actGroupWatchMask s.settled)

/-- LINE_MODE. -/
def execLineMode (p : Port) (body : List Byte) (s : State) : Host.Outcome State Fault Refusal :=
  .next (State.request .lineMode p body actLineMode s.settled)

/-- LINE_READ. -/
def execLineRead (p : Port) (body : List Byte) (s : State) : Host.Outcome State Fault Refusal :=
  .next (State.request .lineRead p body actLineRead s.settled)

end Sys2Proof.Machine
end

