-- ==== Sys2Proof/Machine/Control.lean ====
section
/-! DEFINITION. The Control Ports' own requests and transactions (Chapter 10): FETCH and the owed list, the device watch flags, the
two purges, RESTART, response reads, rejected requests and unknown kinds. -/
namespace Sys2Proof.Machine

namespace State

/-! ### The owed list (R188, R189) -/

/-- The owed flag of a pair's record and kind is cleared (R188). -/
def clearOwed (s : State) : OwedPair → State
  | .agentState a => s.setAgent a { s.agent a with owed := false }
  | .call c k => s.modCall c fun r => r.setOwed k false
  | .watch => s.setDevice { s.device with watchOwed := false }

/-- The notice that an owed pair is built as, or none where it is dropped (R189). -/
def buildOwed (s : State) : OwedPair → Option Notice
  | .agentState a => some (s.agentNotice a)
  | .call c k => s.callNotice c k
  | .watch => s.firstWatch.map .watch

/-- The owed pairs of a port are taken from the head until one has been placed as a notice or none is left (R188). -/
def drain (p : Port) : List OwedPair → State → State
  | [], s => s
  | o :: rest, s =>
    let s1 := (s.modPort p fun r => { r with owed := rest }).clearOwed o
    match s1.buildOwed o with
    | none => drain p rest s1
    | some n => s1.pushNotice p n

/-- A port of a shelf whose queue was full and has room again raises a sweep (R77, R188). -/
def sweepIfRoom (s before : State) (p : Port) : State :=
  if p != .s && !before.hasRoom p && s.hasRoom p then s.raiseSweep else s

/-! ### The device watch flags (R190, R191, R193) -/

/-- The byte of the three device flags (R197). -/
def deviceFlags (s : State) : List Byte := flagByte [s.device.purgeDone, s.device.segmentFault, s.device.starved]

/-- The byte of the device masks; PURGE_DONE has none (R197). -/
def deviceMasks (s : State) : List Byte := flagByte [false, s.device.maskSegmentFault, s.device.maskStarved]

/-- The device flags named by a flag set byte are cleared (R193). -/
def clearDevice (s : State) (v : Nat) : State :=
  s.setDevice
    { s.device with
      purgeDone := s.device.purgeDone && !v.testBit 0
      segmentFault := s.device.segmentFault && !v.testBit 1
      starved := s.device.starved && !v.testBit 2 }

/-- Each group kind of `m` is cleared in each of the groups given (R193). -/
def clearGroups (s : State) (m : WatchBits) (l : List Group) : State :=
  l.foldl (fun s g => s.modGroup g fun r => { r with flags := r.flags.without m }) s

/-- A WATCH is handed when `due` says that a set flag has been unmasked (R191). -/
def watchIf (due : Bool) (s : State) : State := if due then s.handWatch else s

/-! ### Purge (R194) -/

/-- Call `c`, with record `r`, of the purged shelf `x` is OFFERED to agent `a`: R107. An agent homed on `x` is signed out once the call
has been freed (R27), so that the offer itself never meets NO_STAFF (R49; log entry 31). -/
def purgeOffer (s : State) (x : Shelf) (c : CallSlot) (r : CallRec) (a : AgentSlot) : State :=
  let s1 := s.modCall c fun k => { k with boundAgent := none, ring := none }
  let s2 := s1.modStats r.group fun q => { q with purged := bump q.purged }
  let s3 :=
    if (s.agent a).home = x then (s2.freeCall c).changeAgent a (s.agent a).toSignedOut (quiet := true)
    else (s2.freeAgent a).freeCall c
  (s3.endOffer r.group).swapIfQuiet r.group

/-- Call `c`, with record `r`, of the purged shelf `x` is CONNECTED to agent `a`: R107. -/
def purgeConnected (s : State) (x : Shelf) (c : CallSlot) (r : CallRec) (a : AgentSlot) : State :=
  let ag := s.agent a
  let s1 := s.modCall c fun k => { k with boundAgent := none }
  let s2 :=
    if ag.home = x then
      s1.changeAgent a { ag.toSignedOut with callsHandled := bump ag.callsHandled } (quiet := true)
    else s1.endConnected a r.group .drop
  s2.freeCall c

/-- A call of the purged shelf `x` is freed, by its state (R72, R107). -/
def purgeCall (x : Shelf) (s : State) (c : CallSlot) : State :=
  match s.call c with
  | none => s
  | some r =>
    match r.state, r.boundAgent with
    | .queued, _ => (s.modStats r.group fun q => { q with purged := bump q.purged }).freeCall c
    | .offered, some a => s.purgeOffer x c r a
    | .connected, some a => s.purgeConnected x c r a
    | _, _ => s.freeCall c

/-- An agent homed on the purged shelf is signed out, by its state (R27, R108). A CONNECTED agent is marked. -/
def purgeAgent (s : State) (a : AgentSlot) : State :=
  let ag := s.agent a
  match ag.state with
  | .signedOut => s
  | .aux | .ready | .wrap => s.changeAgent a ag.toSignedOut (quiet := true)
  | .offered => s.withdraw a ag.toSignedOut (quiet := true)
  | .connected => s.recordPending a .signOutPurge

/-- The calls in use that a shelf owns, in ascending order of slot. -/
def callsOf (s : State) (x : Shelf) : List CallSlot :=
  findAll (fun o : Option CallRec => o.any fun r => r.owner == x) s.calls

/-- The agents homed on a shelf, in ascending order of slot. -/
def agentsOf (s : State) (x : Shelf) : List AgentSlot := findAll (fun r : AgentRec => r.home == x) s.agents

/-- The purged shelf's queue and owed list are emptied and the owed flags of its agents cleared (R194, step 3). -/
def clearPort (s : State) (x : Shelf) : State :=
  let s1 := s.modPort (portOf x) fun r => { r with notices := [], owed := [] }
  { s1 with agents := mapTable (fun r => if r.home = x then { r with owed := false } else r) s1.agents }

/-- The purge of shelf `x` (R194), with the arbiter at its end (R172, R179). -/
def purgeShelf (s : State) (x : Shelf) : State :=
  let s1 := (s.callsOf x).foldl (purgeCall x) s
  let s2 := (s1.agentsOf x).foldl purgeAgent s1
  ((s2.clearPort x).raisePurgeDone).arbitrate

/-- The agents homed on `x` that passed to SIGNED_OUT between two states (R194). -/
def signedOut (before after : State) (x : Shelf) : Nat :=
  ((before.agentsOf x).filter fun a => (before.agent a).state != .signedOut && (after.agent a).state == .signedOut).length

/-- The answer of a purge: OK with the calls freed and the agents signed out (R194). -/
def purgeReply (s : State) (x : Shelf) : Reply :=
  let s1 := s.purgeShelf x
  .ok s1 (field 2 (s.callsOf x).length ++ field 2 (s.signedOut s1 x))

end State

/-! ### Restart (R195) -/

/-- An agent record after restart (R26). -/
def AgentRec.restarted (r : AgentRec) : AgentRec := { defined := r.defined, home := r.home, skills := r.skills }

/-- A group record after restart: a pending swap is performed, and its configuration is kept (R51). -/
def GroupRec.restarted (r : GroupRec) : GroupRec :=
  { active := if r.swapPending then r.staged else r.active
    staged := r.staged
    supervisorClosed := r.supervisorClosed
    masks := r.masks }

/-- A music source after restart: stopped, its staged program in effect (R178). -/
def SourceRec.restarted (q : SourceRec) : SourceRec :=
  { current := match q.staged with
      | .empty => q.current
      | .value p => p
    idleLimit := q.idleLimit }

/-- A port after restart (R195). -/
def PortRec.restarted (r : PortRec) : PortRec := { r with notices := [], owed := [] }

/-- The restart: the working state of every block goes to its restart values (R26, R51, R73, R93, R109, R143, R178, R190, R195). -/
def State.restarted (s : State) : State :=
  { s with
    agents := mapTable AgentRec.restarted s.agents
    groups := mapTable GroupRec.restarted s.groups
    calls := Vector.replicate 1024 none
    seqCounter := 0
    generator := s.seed
    callTriggers := []
    agentTriggers := []
    sweepWaiting := false
    segments := mapTable (fun e => { e with inUse := 0 }) s.segments
    sources := mapTable SourceRec.restarted s.sources
    channels := Vector.replicate 16 none
    waitList := []
    portA := s.portA.restarted
    portB := s.portB.restarted
    portS := s.portS.restarted
    device := { maskSegmentFault := s.device.maskSegmentFault, maskStarved := s.device.maskStarved } }

/-! ### What each request does -/

/-- FETCH (R188, R77). -/
def actFetch (p : Port) (_ps : List Byte) (s : State) : Reply :=
  match (s.port p).notices with
  | [] => .refuse s .empty
  | n :: rest =>
    let s1 := State.drain p (s.port p).owed (s.modPort p fun r => { r with notices := rest })
    .ok (s1.sweepIfRoom s p) (noticeBytes n)

/-- WATCH_READ (R193). The STARVED condition's byte is 1 for true, 0 for false: the model's choice (log entry 32). -/
def actWatchRead (_ps : List Byte) (s : State) : Reply :=
  .ok s (s.deviceFlags ++ s.deviceMasks ++ flagByte [s.device.starvedCondition]
    ++ (List.finRange 64).flatMap fun g => watchByte (s.group g).flags)

/-- The groups that a selection byte selects: one, all (0xFE) or none (0xFF); `none` is a value out of range (R197). -/
def selection (v : Nat) : Option (List Group) :=
  if v = 0xFF then some [] else if v = 0xFE then some (List.finRange 64) else (below 64 v).map fun g => [g]

/-- WATCH_CLEAR (R193). -/
def actWatchClear (ps : List Byte) (s : State) : Reply :=
  match selection (u8 ps 2) with
  | none => .refuse s .badGroup
  | some l => .ok ((s.clearDevice (u8 ps 0)).clearGroups (watchBitsOf (u8 ps 1)) l)

/-- WATCH_MASK (R191; log entry 13). -/
def actWatchMask (ps : List Byte) (s : State) : Reply :=
  let v := u8 ps 0
  if v.testBit 0 then .refuse s .badParam
  else
    let d := s.device
    let s1 := s.setDevice { d with maskSegmentFault := v.testBit 1, maskStarved := v.testBit 2 }
    let s2 := State.watchIf (d.segmentFault && d.maskSegmentFault && !v.testBit 1) s1
    .ok (State.watchIf (d.starved && d.maskStarved && !v.testBit 2) s2)

/-- PURGE_SHELF (R194). -/
def actPurgeShelf (ps : List Byte) (s : State) : Reply :=
  match shelfOfByte (u8 ps 0) with
  | none => .refuse s .badParam
  | some x => s.purgeReply x

/-- PURGE (R194). -/
def actPurge (p : Port) (_ps : List Byte) (s : State) : Reply :=
  match shelfOf p with
  | none => .refuse s .badRequest
  | some x => s.purgeReply x

/-- RESTART (R195). -/
def actRestart (_ps : List Byte) (s : State) : Reply := .ok s.restarted

/-! ### Transactions (R183, R184, R196) -/

namespace State

/-- A response read of `n` byte times after the status byte (R184). In RESPONSE_READY the response record is shifted out, and once its
last byte is, the buffer is emptied and the slot IDLE; further bytes are free values (log entry 8). Otherwise 0x00 is shifted out. -/
def readResponse (s : State) (p : Port) (n : Nat) : State :=
  let r := s.port p
  if r.slot = .responseReady then
    let extra := n - r.response.length
    let s1 := s.shiftOut p (r.response.take n ++ (List.range extra).map fun i => Config.byteAfterResponse (s.free + i))
    if r.response.length ≤ n then (s1.modPort p fun q => { q with slot := .idle, response := [] }).draw extra
    else s1
  else s.shiftOut p (List.replicate n 0)

/-- A status read of `n` byte times after the status byte shifts out 0x00 in each and changes nothing else (R184, R196). -/
def readStatus (s : State) (p : Port) (n : Nat) : State := s.shiftOut p (List.replicate n 0)

/-- A transaction on port `p` in which the master shifts in the bytes `sent`, by its type (R196). A request write, and a transaction
without its type byte, are no such command and have no effect (log entry 23). -/
def readTransaction (s : State) (p : Port) : List Byte → State
  | [] => s
  | t :: rest =>
    match Transaction.ofByte t with
    | .statusRead => s.readStatus p rest.length
    | .responseRead => s.readResponse p rest.length
    | .requestWrite => s

/-- A request record is written while the slot is BUSY or RESPONSE_READY (R183, R196); in IDLE the event has not come about. -/
def rejectRecord (s : State) (p : Port) (record : List Byte) : State :=
  if (s.port p).slot = .idle then s else (s.shiftWrite p record.length).reject p

/-- A request record of an unknown kind is written (R182, check 1). A record of a known kind is another command (log entry 21). -/
def refuseUnknown (s : State) (p : Port) (record : List Byte) : State :=
  if unknownKind record then
    let s1 := s.shiftWrite p record.length
    if (s.port p).slot = .idle then (s1.takeSlot p).respond p .badRequest [] else s1.reject p
  else s

end State

/-! ### The meanings -/

/-- FETCH. -/
def execFetch (p : Port) (body : List Byte) (s : State) : Host.Outcome State Fault Refusal :=
  .next (State.request .fetch p body (actFetch p) s.settled)

/-- WATCH_READ. -/
def execWatchRead (p : Port) (body : List Byte) (s : State) : Host.Outcome State Fault Refusal :=
  .next (State.request .watchRead p body actWatchRead s.settled)

/-- WATCH_CLEAR. -/
def execWatchClear (p : Port) (body : List Byte) (s : State) : Host.Outcome State Fault Refusal :=
  .next (State.request .watchClear p body actWatchClear s.settled)

/-- WATCH_MASK. -/
def execWatchMask (p : Port) (body : List Byte) (s : State) : Host.Outcome State Fault Refusal :=
  .next (State.request .watchMask p body actWatchMask s.settled)

/-- PURGE_SHELF. -/
def execPurgeShelf (p : Port) (body : List Byte) (s : State) : Host.Outcome State Fault Refusal :=
  .next (State.request .purgeShelf p body actPurgeShelf s.settled)

/-- PURGE. -/
def execPurge (p : Port) (body : List Byte) (s : State) : Host.Outcome State Fault Refusal :=
  .next (State.request .purge p body (actPurge p) s.settled)

/-- RESTART. -/
def execRestart (p : Port) (body : List Byte) (s : State) : Host.Outcome State Fault Refusal :=
  .next (State.request .restart p body actRestart s.settled)

/-- RESPONSE_READ (R184, R196) on port `p`, the master shifting in the bytes `sent`. -/
def execResponseRead (p : Port) (sent : List Byte) (s : State) : Host.Outcome State Fault Refusal :=
  .next (s.settled.readTransaction p sent)

/-- REQUEST_REJECTED (R183). -/
def execRequestRejected (p : Port) (record : List Byte) (s : State) : Host.Outcome State Fault Refusal :=
  .next (s.settled.rejectRecord p record)

/-- UNKNOWN_REQUEST_KIND (R182). -/
def execUnknownRequestKind (p : Port) (record : List Byte) (s : State) : Host.Outcome State Fault Refusal :=
  .next (s.settled.refuseUnknown p record)

end Sys2Proof.Machine
end

