-- ==== Sys2Proof/Machine/Events.lean ====
section
/-! DEFINITION. The events that no master sends: power-on reset, the station clock and the expiries that follow it, the service line
inputs, and the taking of the Distributor's triggers. An event that has not come about has no effect (log entry 2). -/
namespace Sys2Proof.Machine

namespace State

/-! ### Power-on -/

/-- The part after the power-on reset pin, with the levels on the service line inputs as they stand (log entries 14, 20). -/
def poweredOn (s : State) : State :=
  { State.reset with
    lines := mapTable (fun r => { input := r.input }) s.lines
    free := s.free
    pending := s.pending }

/-! ### Expiries -/

/-- The ring timer of call `c` has reached its expiry second: ring-no-answer (R95, R98). -/
def expireRing (s : State) (c : CallSlot) : State :=
  match s.call c with
  | none => s
  | some r =>
    match r.state, r.boundAgent, r.ring with
    | .offered, some a, some e => if e ≤ s.clock then s.ringNoAnswer c r a else s
    | _, _, _ => s

/-- The overflow-wait timer of call `c` has reached its due second (R68). -/
def expireOverflow (s : State) (c : CallSlot) : State :=
  match s.call c with
  | none => s
  | some r =>
    match r.overflowDue with
    | none => s
    | some d =>
      if d ≤ s.clock then
        match r.state with
        | .queued => (s.modCall c fun k => { k with overflowDue := none }).tryOverflow c
        | .offered => s.modCall c fun k => { k with overflowDue := none, pendingOverflow := true }
        | .connected | .clearing => s.modCall c fun k => { k with overflowDue := none }
      else s

/-- The ring and overflow-wait expiries of a second that have not been taken in it (log entry 5): the ring timers, then the
overflow-wait timers, each in ascending order of call slot. -/
def takeExpiries (s : State) : State :=
  let s1 := (s.callsDue CallRec.ring).foldl expireRing s
  (s1.callsDue CallRec.overflowDue).foldl expireOverflow s1

/-! ### The station clock -/

/-- The station clock counts one second; the second after 4,294,967,295 is a free value (log entry 7). -/
def tick (s : State) : State :=
  if s.clock + 1 < Config.wrap32 then s.setClock (s.clock + 1)
  else (s.setClock (Config.clockAfterLast s.free).toNat).draw 1

/-- The advance of the station clock: WAIT is evaluated for every group and STARVED for the wait list's head (R48, R168). -/
def advance (s : State) : State :=
  ((List.finRange 64).foldl evalWait s.takeExpiries.tick).evalStarved

/-! ### Service lines (R40, R41) -/

/-- A line with its input at another level. -/
def setInput (s : State) (l : LineNo) (high : Bool) : State := s.setLine l { s.line l with input := high }

/-- The line's latch after an edge of the seen level: a rising edge when `high` (R41). -/
def latchAfter (r : LineRec) (high : Bool) : Bool :=
  match r.mode with
  | .toggleRise => if high then !r.latch else r.latch
  | .toggleFall => if high then r.latch else !r.latch
  | .off | .levelHigh | .levelLow => r.latch

/-- The input has held its level for 50 ms: the seen level takes it, the latch follows the mode, and the closed states are
re-evaluated (R38, R40, R41). -/
def seeLevel (s : State) (l : LineNo) : State :=
  let r := s.line l
  if r.input = r.seen then s
  else (s.setLine l { r with seen := r.input, latch := latchAfter r r.input }).sweepIfOpened s

end State

/-! ### The meanings -/

/-- POWER_ON_RESET (R40, R42, R51, R73, R74). -/
def execPowerOnReset (s : State) : Host.Outcome State Fault Refusal := .next s.poweredOn

/-- STATION_CLOCK_ADVANCE (R48). -/
def execStationClockAdvance (s : State) : Host.Outcome State Fault Refusal := .next s.settled.advance

/-- RING_TIMER_EXPIRY (R95) of call `c`. -/
def execRingTimerExpiry (c : CallSlot) (s : State) : Host.Outcome State Fault Refusal := .next (s.settled.expireRing c)

/-- WRAP_EXPIRY (R120) of agent `a`. -/
def execWrapExpiry (a : AgentSlot) (s : State) : Host.Outcome State Fault Refusal := .next (s.expireWrap a)

/-- OVERFLOW_WAIT_EXPIRY (R68) of call `c`. -/
def execOverflowWaitExpiry (c : CallSlot) (s : State) : Host.Outcome State Fault Refusal :=
  .next (s.settled.expireOverflow c)

/-- ANNOUNCEMENT_DUE (R167) for call `c`. Other announcements that are due wait for their own (log entry 4). -/
def execAnnouncementDue (c : CallSlot) (s : State) : Host.Outcome State Fault Refusal := .next (s.wrapsEnded.announce c)

/-- SERVICE_LINE_INPUT_CHANGE (R40) of line `l`. -/
def execServiceLineInputChange (l : LineNo) (high : Bool) (s : State) : Host.Outcome State Fault Refusal :=
  .next (s.settled.setInput l high)

/-- SEEN_LEVEL_EDGE (R40) of line `l`. -/
def execSeenLevelEdge (l : LineNo) (s : State) : Host.Outcome State Fault Refusal := .next (s.settled.seeLevel l)

/-- CALL_TRIGGER (R81): the waiting trigger of call `c` is taken. -/
def execCallTrigger (c : CallSlot) (s : State) : Host.Outcome State Fault Refusal :=
  let s1 := s.settled
  .next (if c ∈ s1.callTriggers then (s1.dropCallTrigger c).takeCallTrigger c else s1)

/-- AGENT_TRIGGER (R84): the waiting trigger of agent `a` is taken. -/
def execAgentTrigger (a : AgentSlot) (s : State) : Host.Outcome State Fault Refusal :=
  let s1 := s.settled
  .next (if a ∈ s1.agentTriggers then (s1.dropAgentTrigger a).takeAgentTrigger a else s1)

/-- SWEEP (R86): the waiting sweep is taken. -/
def execSweep (s : State) : Host.Outcome State Fault Refusal :=
  let s1 := s.settled
  .next (if s1.sweepWaiting then s1.dropSweep.takeSweep else s1)

end Sys2Proof.Machine
end

