-- ==== Sys2Proof/Machine/Highway.lean ====
section
/-! DEFINITION. The playout and highway requests (Chapter 9), the highway frame, and the completion of steps and fills
(Chapter 8). -/
namespace Sys2Proof.Machine

/-- The check of a music source number before `act` on the source named (R164, R165). -/
def asSource (ps : List Byte) (s : State) (act : SourceNo → Reply) : Reply :=
  match below 8 (u8 ps 0) with
  | none => .refuse s .badParam
  | some m => act m

/-- The idle output mode a byte names (R197). -/
def idleModeOf (v : Nat) : Option IdleMode :=
  if v = 0 then some .idleByte else if v = 1 then some .off else none

namespace State

/-- The listen source that hears a highway channel (R159). -/
def listenOf (h : HighwayChannel) : Listen :=
  match playerOf h with
  | .source m => .music m
  | .channel j => .announce j

/-- The calls that hear highway channel `h`, in ascending order of call slot (R175; log entry 12). -/
def hearers (s : State) (h : HighwayChannel) : List CallSlot :=
  findAll (fun o : Option CallRec => o.any fun r => r.listen == listenOf h) s.calls

/-- The timeslot belongs to another highway channel (R175). -/
def slotTaken (s : State) (h : HighwayChannel) (t : Option Timeslot) : Bool :=
  t.isSome && (findAll (· == t) s.slotMap).any (· != h)

/-- Program `p`, or none, is given to source `m`, by its state: the table of R164. -/
def giveProgram (s : State) (m : SourceNo) (p : Option ProgramNo) : Reply :=
  let q := s.source m
  match q.run with
  | none =>
    let s1 := s.setSource m { q with current := p }
    .ok (if 0 < q.listeners then s1.startSource m else s1)
  | some _ =>
    if p = q.current then .ok (s.setSource m { q with staged := .empty })
    else { state := s.setSource m { q with staged := .value p }, result := .pending }

/-- The step or fill of highway channel `h` that has had its last byte played is completed (log entry 6). -/
def completeRun (s : State) (h : HighwayChannel) : State := (s.completeStep h).completeFill h

/-- One highway frame (R150, R176): outstanding completions are taken, every mapped timeslot is driven, and every run advances by
one byte. -/
def nextFrame (s : State) : State :=
  let s1 := (List.finRange 24).foldl completeRun s
  (List.finRange 24).foldl playFrame (s1.setHighway s1.frameOutput)

end State

/-! ### What each request does -/

/-- SOURCE_READ (R165). -/
def actSourceRead (ps : List Byte) (s : State) : Reply :=
  asSource ps s fun m => .ok s (s.sourceBytes m)

/-- SOURCE_SET (R164). -/
def actSourceSet (ps : List Byte) (s : State) : Reply :=
  asSource ps s fun m =>
    match belowOrNone 64 (u8 ps 1) with
    | none => .refuse s .badParam
    | some p => s.giveProgram m p

/-- SOURCE_LIMIT (R165). -/
def actSourceLimit (ps : List Byte) (s : State) : Reply :=
  asSource ps s fun m =>
    let n := clamp 1 15 (u8 ps 1)
    { state := s.setSource m { s.source m with idleLimit := n }
      result := if n = u8 ps 1 then .ok else .okClamped
      content := field 1 n }

/-- CHANNEL_READ (R174). -/
def actChannelRead (ps : List Byte) (s : State) : Reply :=
  match below 16 (u8 ps 0) with
  | none => .refuse s .badParam
  | some j => .ok s (s.channelBytes j)

/-- SLOT_MAP (R175). -/
def actSlotMap (ps : List Byte) (s : State) : Reply :=
  match below 24 (u8 ps 0), belowOrNone 32 (u8 ps 1), idleModeOf (u8 ps 2) with
  | some h, some t, some m =>
    if s.slotTaken h t then .refuse s .busy
    else
      let s1 := s.setSlot h t m
      .ok (if s.slotOf h = t then s1 else (s1.hearers h).foldl (fun s c => s.handCall c .listen) s1)
  | _, _, _ => .refuse s .badParam

/-- SLOT_READ (R175). -/
def actSlotRead (_ps : List Byte) (s : State) : Reply :=
  .ok s (((List.finRange 24).flatMap fun h => codeField (s.slotOf h) ++ field 1 (s.modeOf h).code) ++ [s.idleByte])

/-- IDLE_BYTE_SET (R176). -/
def actIdleByteSet (ps : List Byte) (s : State) : Reply := .ok (s.setIdleByte (ps.getD 0 0))

/-! ### The meanings -/

/-- SOURCE_READ. -/
def execSourceRead (p : Port) (body : List Byte) (s : State) : Host.Outcome State Fault Refusal :=
  .next (State.request .sourceRead p body actSourceRead s.settled)

/-- SOURCE_SET. -/
def execSourceSet (p : Port) (body : List Byte) (s : State) : Host.Outcome State Fault Refusal :=
  .next (State.request .sourceSet p body actSourceSet s.settled)

/-- SOURCE_LIMIT. -/
def execSourceLimit (p : Port) (body : List Byte) (s : State) : Host.Outcome State Fault Refusal :=
  .next (State.request .sourceLimit p body actSourceLimit s.settled)

/-- CHANNEL_READ. -/
def execChannelRead (p : Port) (body : List Byte) (s : State) : Host.Outcome State Fault Refusal :=
  .next (State.request .channelRead p body actChannelRead s.settled)

/-- SLOT_MAP. -/
def execSlotMap (p : Port) (body : List Byte) (s : State) : Host.Outcome State Fault Refusal :=
  .next (State.request .slotMap p body actSlotMap s.settled)

/-- SLOT_READ. -/
def execSlotRead (p : Port) (body : List Byte) (s : State) : Host.Outcome State Fault Refusal :=
  .next (State.request .slotRead p body actSlotRead s.settled)

/-- IDLE_BYTE_SET. -/
def execIdleByteSet (p : Port) (body : List Byte) (s : State) : Host.Outcome State Fault Refusal :=
  .next (State.request .idleByteSet p body actIdleByteSet s.settled)

/-- HIGHWAY_FRAME (R176). -/
def execHighwayFrame (s : State) : Host.Outcome State Fault Refusal := .next s.settled.nextFrame

/-- STEP_COMPLETE (R150) of the run on highway channel `h`. -/
def execStepComplete (h : HighwayChannel) (s : State) : Host.Outcome State Fault Refusal :=
  .next (s.settled.completeStep h)

/-- FILL_COMPLETE (R156) of the run on highway channel `h`. -/
def execFillComplete (h : HighwayChannel) (s : State) : Host.Outcome State Fault Refusal :=
  .next (s.settled.completeFill h)

end Sys2Proof.Machine
end

