-- ==== Sys2Proof/Machine/Store.lean ====
section
/-! DEFINITION. The Sample Store requests (Chapter 8). -/
namespace Sys2Proof.Machine

/-- The check of a segment code before `act` on its entry (R146). -/
def asSegment (ps : List Byte) (s : State) (act : SegmentCode → Reply) : Reply :=
  match below 240 (u8 ps 0) with
  | none => .refuse s .badParam
  | some k => act k

/-- The check of a program number before `act` on the program named (R148). -/
def asProgram (ps : List Byte) (s : State) (act : ProgramNo → Reply) : Reply :=
  match below 64 (u8 ps 0) with
  | none => .refuse s .badParam
  | some p => act p

/-- The check of a vocabulary entry number before `act` on the entry named (R157). -/
def asVocab (ps : List Byte) (s : State) (act : VocabNo → Reply) : Reply :=
  match below 29 (u8 ps 0) with
  | none => .refuse s .badParam
  | some v => act v

/-- The segment is present and in use, and one of the `n` bytes from address `a` lies within it (R144, check 2). -/
def SegmentRec.guards (e : SegmentRec) (a n : Nat) : Bool :=
  e.inUse != 0 && decide (a < e.start + e.length) && decide (e.start < a + n) && e.length != 0 && n != 0

/-! ### Program steps (R148, R200) -/

def stepKindOf (v : Nat) : Option StepKind :=
  if v = 1 then some .play else if v = 2 then some .silence else if v = 3 then some .sayPosition
  else if v = 4 then some .sayWait else if v = 5 then some .mark else if v = 6 then some .again
  else if v = 7 then some .finish else none

/-- A step as stored: a SILENCE or REPEAT operand of 0 is raised to 1 (R148, R200). -/
def Step.stored (st : Step) : Step :=
  match st.kind with
  | .silence | .again => if st.operand = 0 then { st with operand := 1 } else st
  | _ => st

/-- The steps that byte pairs write, as given; `none` where a kind byte names no kind. -/
def stepsOf : List (Nat × Nat) → Option (List Step)
  | [] => some []
  | (k, o) :: rest =>
    match stepKindOf k, stepsOf rest with
    | some k, some steps => some (⟨k, BitVec.ofNat 8 o⟩ :: steps)
    | _, _ => none

/-- The (kind, operand) pairs of a PROGRAM_LOAD as written (R197). -/
def stepPairs (ps : List Byte) : List (Nat × Nat) :=
  (List.range (u8 ps 1)).map fun i => (u8 ps (2 + 2 * i), u8 ps (3 + 2 * i))

/-- A program as returned: its step count and its step pairs (R197, R200). -/
def programBytes (steps : List Step) : List Byte :=
  field 1 steps.length ++ steps.flatMap fun st => field 1 st.kind.code ++ [st.operand]

namespace State

/-- The program is held against a load: a RUNNING source or a BUSY channel runs it, or a source has it staged (R148, check 3). -/
def programHeld (s : State) (p : ProgramNo) : Bool :=
  (s.sources.toList.any fun q => (q.run.any fun r => r.program == p) || q.staged == .value (some p))
    || s.channels.toList.any fun b => b.any fun b => b.run.program == p

end State

/-! ### What each request does -/

/-- STORE_WRITE (R144). -/
def actStoreWrite (ps : List Byte) (s : State) : Reply :=
  let a := u32 ps 0
  let data := ps.drop 4
  if Config.ramBytes < a + data.length then .refuse s .badParam
  else if s.segments.toList.any fun e => e.guards a data.length then .refuse s .busy
  else .ok (s.setRam (Memory.writeBytes s.ram a data))

/-- STORE_READ (R145). -/
def actStoreRead (ps : List Byte) (s : State) : Reply :=
  let a := u32 ps 0
  let n := u16 ps 4
  if n = 0 ∨ 256 < n ∨ Config.ramBytes < a + n then .refuse s .badParam
  else .ok s (Memory.readBytes s.ram a n)

/-- SEGMENT_LOAD (R146). -/
def actSegmentLoad (ps : List Byte) (s : State) : Reply :=
  asSegment ps s fun k =>
    let start := u32 ps 1
    let length := u32 ps 5
    let e := s.segment k
    if length ≠ 0 ∧ Config.ramBytes < start + length then .refuse s .badParam
    else if e.inUse ≠ 0 then .refuse s .busy
    else .ok (s.setSegment k { e with start := if length = 0 then 0 else start, length := length })

/-- SEGMENT_READ (R146). -/
def actSegmentRead (ps : List Byte) (s : State) : Reply :=
  asSegment ps s fun k =>
    let e := s.segment k
    .ok s (field 4 e.start ++ field 4 e.length ++ field 1 e.inUse)

/-- PROGRAM_LOAD (R148). -/
def actProgramLoad (ps : List Byte) (s : State) : Reply :=
  asProgram ps s fun p =>
    if 32 < u8 ps 1 then .refuse s .badParam
    else
      match stepsOf (stepPairs ps) with
      | none => .refuse s .badParam
      | some given =>
        let steps := given.map Step.stored
        if s.programHeld p then .refuse s .busy
        else
          { state := s.setProgram p steps
            result := if steps = given then .ok else .okClamped
            content := programBytes steps }

/-- PROGRAM_READ (R148). -/
def actProgramRead (ps : List Byte) (s : State) : Reply :=
  asProgram ps s fun p => .ok s (programBytes (s.programSteps p))

/-- VOCAB_LOAD (R157): a vocabulary value is a code 0x0000–0x00FF or 0xFFFF for empty (R197). -/
def actVocabLoad (ps : List Byte) (s : State) : Reply :=
  asVocab ps s fun v =>
    let n := u16 ps 1
    if n = 0xFFFF then .ok (s.setVocab v none)
    else if n < 256 then .ok (s.setVocab v (some (BitVec.ofNat 8 n)))
    else .refuse s .badParam

/-- VOCAB_READ (R157). -/
def actVocabRead (ps : List Byte) (s : State) : Reply :=
  asVocab ps s fun v => .ok s (field 2 (((s.vocabEntry v).map BitVec.toNat).getD 0xFFFF))

/-! ### The meanings -/

/-- STORE_WRITE. -/
def execStoreWrite (p : Port) (body : List Byte) (s : State) : Host.Outcome State Fault Refusal :=
  .next (State.request .storeWrite p body actStoreWrite s.settled)

/-- STORE_READ. -/
def execStoreRead (p : Port) (body : List Byte) (s : State) : Host.Outcome State Fault Refusal :=
  .next (State.request .storeRead p body actStoreRead s.settled)

/-- SEGMENT_LOAD. -/
def execSegmentLoad (p : Port) (body : List Byte) (s : State) : Host.Outcome State Fault Refusal :=
  .next (State.request .segmentLoad p body actSegmentLoad s.settled)

/-- SEGMENT_READ. -/
def execSegmentRead (p : Port) (body : List Byte) (s : State) : Host.Outcome State Fault Refusal :=
  .next (State.request .segmentRead p body actSegmentRead s.settled)

/-- PROGRAM_LOAD. -/
def execProgramLoad (p : Port) (body : List Byte) (s : State) : Host.Outcome State Fault Refusal :=
  .next (State.request .programLoad p body actProgramLoad s.settled)

/-- PROGRAM_READ. -/
def execProgramRead (p : Port) (body : List Byte) (s : State) : Host.Outcome State Fault Refusal :=
  .next (State.request .programRead p body actProgramRead s.settled)

/-- VOCAB_LOAD. -/
def execVocabLoad (p : Port) (body : List Byte) (s : State) : Host.Outcome State Fault Refusal :=
  .next (State.request .vocabLoad p body actVocabLoad s.settled)

/-- VOCAB_READ. -/
def execVocabRead (p : Port) (body : List Byte) (s : State) : Host.Outcome State Fault Refusal :=
  .next (State.request .vocabRead p body actVocabRead s.settled)

end Sys2Proof.Machine
end

