-- ==== Sys2Proof/Machine/Dispatch.lean ====
section
/-! DEFINITION. The commands and their meanings: one arm for each constructor of `Instr`. -/
namespace Sys2Proof.Machine

/-- What a command does to everything but the queue of commands. -/
def exec (i : Instr) (s : State) : Host.Outcome State Fault Refusal :=
  match i with
  | .powerOnReset => Sys2Proof.Machine.execPowerOnReset s
  | .stationClockAdvance => Sys2Proof.Machine.execStationClockAdvance s
  | .ringTimerExpiry c => Sys2Proof.Machine.execRingTimerExpiry c s
  | .wrapExpiry a => Sys2Proof.Machine.execWrapExpiry a s
  | .overflowWaitExpiry c => Sys2Proof.Machine.execOverflowWaitExpiry c s
  | .announcementDue c => Sys2Proof.Machine.execAnnouncementDue c s
  | .serviceLineInputChange l high => Sys2Proof.Machine.execServiceLineInputChange l high s
  | .seenLevelEdge l => Sys2Proof.Machine.execSeenLevelEdge l s
  | .highwayFrame => Sys2Proof.Machine.execHighwayFrame s
  | .stepComplete h => Sys2Proof.Machine.execStepComplete h s
  | .fillComplete h => Sys2Proof.Machine.execFillComplete h s
  | .callTrigger c => Sys2Proof.Machine.execCallTrigger c s
  | .agentTrigger a => Sys2Proof.Machine.execAgentTrigger a s
  | .sweep => Sys2Proof.Machine.execSweep s
  | .responseRead p sent => Sys2Proof.Machine.execResponseRead p sent s
  | .requestRejected p record => Sys2Proof.Machine.execRequestRejected p record s
  | .unknownRequestKind p record => Sys2Proof.Machine.execUnknownRequestKind p record s
  | .agentRead p body => Sys2Proof.Machine.execAgentRead p body s
  | .signIn p body => Sys2Proof.Machine.execSignIn p body s
  | .ready p body => Sys2Proof.Machine.execReady p body s
  | .aux p body => Sys2Proof.Machine.execAux p body s
  | .signOut p body => Sys2Proof.Machine.execSignOut p body s
  | .wrapExtend p body => Sys2Proof.Machine.execWrapExtend p body s
  | .wrapEnd p body => Sys2Proof.Machine.execWrapEnd p body s
  | .agentAnswer p body => Sys2Proof.Machine.execAgentAnswer p body s
  | .agentNoAnswer p body => Sys2Proof.Machine.execAgentNoAnswer p body s
  | .agentHangup p body => Sys2Proof.Machine.execAgentHangup p body s
  | .agentDefine p body => Sys2Proof.Machine.execAgentDefine p body s
  | .forceAux p body => Sys2Proof.Machine.execForceAux p body s
  | .forceSignOut p body => Sys2Proof.Machine.execForceSignOut p body s
  | .groupRead p body => Sys2Proof.Machine.execGroupRead p body s
  | .groupStage p body => Sys2Proof.Machine.execGroupStage p body s
  | .groupSwap p body => Sys2Proof.Machine.execGroupSwap p body s
  | .groupOpen p body => Sys2Proof.Machine.execGroupOpen p body s
  | .groupClose p body => Sys2Proof.Machine.execGroupClose p body s
  | .groupStats p body => Sys2Proof.Machine.execGroupStats p body s
  | .groupWatchMask p body => Sys2Proof.Machine.execGroupWatchMask p body s
  | .lineMode p body => Sys2Proof.Machine.execLineMode p body s
  | .lineRead p body => Sys2Proof.Machine.execLineRead p body s
  | .callArrive p body => Sys2Proof.Machine.execCallArrive p body s
  | .callRelease p body => Sys2Proof.Machine.execCallRelease p body s
  | .callRead p body => Sys2Proof.Machine.execCallRead p body s
  | .tiebreakSet p body => Sys2Proof.Machine.execTiebreakSet p body s
  | .tiebreakRead p body => Sys2Proof.Machine.execTiebreakRead p body s
  | .storeWrite p body => Sys2Proof.Machine.execStoreWrite p body s
  | .storeRead p body => Sys2Proof.Machine.execStoreRead p body s
  | .segmentLoad p body => Sys2Proof.Machine.execSegmentLoad p body s
  | .segmentRead p body => Sys2Proof.Machine.execSegmentRead p body s
  | .programLoad p body => Sys2Proof.Machine.execProgramLoad p body s
  | .programRead p body => Sys2Proof.Machine.execProgramRead p body s
  | .vocabLoad p body => Sys2Proof.Machine.execVocabLoad p body s
  | .vocabRead p body => Sys2Proof.Machine.execVocabRead p body s
  | .sourceRead p body => Sys2Proof.Machine.execSourceRead p body s
  | .sourceSet p body => Sys2Proof.Machine.execSourceSet p body s
  | .sourceLimit p body => Sys2Proof.Machine.execSourceLimit p body s
  | .channelRead p body => Sys2Proof.Machine.execChannelRead p body s
  | .slotMap p body => Sys2Proof.Machine.execSlotMap p body s
  | .slotRead p body => Sys2Proof.Machine.execSlotRead p body s
  | .idleByteSet p body => Sys2Proof.Machine.execIdleByteSet p body s
  | .fetch p body => Sys2Proof.Machine.execFetch p body s
  | .watchRead p body => Sys2Proof.Machine.execWatchRead p body s
  | .watchClear p body => Sys2Proof.Machine.execWatchClear p body s
  | .watchMask p body => Sys2Proof.Machine.execWatchMask p body s
  | .purgeShelf p body => Sys2Proof.Machine.execPurgeShelf p body s
  | .purge p body => Sys2Proof.Machine.execPurge p body s
  | .restart p body => Sys2Proof.Machine.execRestart p body s

end Sys2Proof.Machine
end

