-- ==== Sys2Proof/Safety.lean ====
section
/-! DEFINITION. The vocabulary of the statements: what a taken request is and what its answer leaves, what no request touches, and
the legal states that every step keeps. -/
namespace Sys2Proof

/-- The command that writes a request record of a kind on a port, `body` being the bytes after the kind byte. -/
def Kind.command (k : Kind) (p : Port) (body : List Byte) : Instr :=
  match k with
  | .agentRead => .agentRead p body
  | .signIn => .signIn p body
  | .ready => .ready p body
  | .aux => .aux p body
  | .signOut => .signOut p body
  | .wrapExtend => .wrapExtend p body
  | .wrapEnd => .wrapEnd p body
  | .agentAnswer => .agentAnswer p body
  | .agentNoAnswer => .agentNoAnswer p body
  | .agentHangup => .agentHangup p body
  | .agentDefine => .agentDefine p body
  | .forceAux => .forceAux p body
  | .forceSignOut => .forceSignOut p body
  | .groupRead => .groupRead p body
  | .groupStage => .groupStage p body
  | .groupSwap => .groupSwap p body
  | .groupOpen => .groupOpen p body
  | .groupClose => .groupClose p body
  | .groupStats => .groupStats p body
  | .groupWatchMask => .groupWatchMask p body
  | .lineMode => .lineMode p body
  | .lineRead => .lineRead p body
  | .callArrive => .callArrive p body
  | .callRelease => .callRelease p body
  | .callRead => .callRead p body
  | .tiebreakSet => .tiebreakSet p body
  | .tiebreakRead => .tiebreakRead p body
  | .storeWrite => .storeWrite p body
  | .storeRead => .storeRead p body
  | .segmentLoad => .segmentLoad p body
  | .segmentRead => .segmentRead p body
  | .programLoad => .programLoad p body
  | .programRead => .programRead p body
  | .vocabLoad => .vocabLoad p body
  | .vocabRead => .vocabRead p body
  | .sourceRead => .sourceRead p body
  | .sourceSet => .sourceSet p body
  | .sourceLimit => .sourceLimit p body
  | .channelRead => .channelRead p body
  | .slotMap => .slotMap p body
  | .slotRead => .slotRead p body
  | .idleByteSet => .idleByteSet p body
  | .fetch => .fetch p body
  | .watchRead => .watchRead p body
  | .watchClear => .watchClear p body
  | .watchMask => .watchMask p body
  | .purgeShelf => .purgeShelf p body
  | .restart => .restart p body
  | .purge => .purge p body

namespace Machine

/-! ### Power-on -/

/-- A parameter set with the defaults of R30. -/
def Params.default : Params where
  wrapTime := 30
  extStep := 30
  extLimit := 1
  wrapCap := 300
  ringTimeout := 20
  noAnswerLimit := 3
  noAnswerAction := .aux
  policy := .longestIdle
  weight := 4
  priorityStep := 30
  maxDepth := 256
  overflowTarget := none
  overflowWait := 0
  overflowOnFull := false
  music := none
  program := none
  firstDelay := 30
  interval := 60
  shift := 3
  depthThreshold := 0
  waitObjective := 0
  line := none

/-- No flag, mask or condition is set. -/
def WatchBits.clear : WatchBits := { depth := false, wait := false, noStaff := false }

/-- The values that the manual gives the state at power-on. -/
structure PowerOnValues (t : State) : Prop where
  /-- spec/00_scope.md 0.1: the clock counts from power-on. -/
  clock : t.clock = 0
  /-- R3, R112. -/
  agents : ∀ a, t.agent a =
    { defined := false, home := .a, skills := [], state := .signedOut, auxReason := 0, idleSince := 0, boundCall := none,
      pending := .none,
      wrap := { start := 0, finish := 0, cap := 0, extensions := 0, group := 0, talk := 0, mark := .keep },
      callsHandled := 0, answerStart := 0, owed := false }
  /-- R51, R129, R133. -/
  groups : ∀ g, t.group g =
    { active := Params.default, staged := Params.default, swapPending := false, offers := 0, supervisorClosed := true,
      queue := [], stats := { answered := 0, abandoned := 0, overflowedOut := 0, overflowedIn := 0, purged := 0 },
      staffed := 0, average := none, flags := WatchBits.clear, masks := WatchBits.clear, conditions := WatchBits.clear }
  /-- R73. -/
  calls : ∀ c, t.call c = none
  seqCounter : t.seqCounter = 0
  /-- R40, R42. -/
  lines : ∀ l, (t.line l).seen = false ∧ (t.line l).mode = .off ∧ (t.line l).latch = false
  /-- R74. -/
  seed : t.seed = 0xACE1
  taps : t.taps = 0xD008
  generator : t.generator = 0xACE1
  triggers : t.callTriggers = [] ∧ t.agentTriggers = [] ∧ t.sweepWaiting = false
  /-- R141. -/
  ram : ∀ x, Memory.read t.ram x = 0
  /-- R142, R143. -/
  segments : ∀ k, t.segment k = { start := 0, length := 0, inUse := 0 }
  /-- R147. -/
  programs : ∀ n, t.programSteps n = []
  /-- R157. -/
  vocab : ∀ v, t.vocabEntry v = none
  /-- R161. -/
  sources : ∀ m, t.source m =
    { current := none, staged := .empty, run := none, listeners := 0, idlePasses := 0, idleLimit := 2 }
  /-- R169. -/
  channels : ∀ j, t.channel j = none
  /-- R168. -/
  waitList : t.waitList = []
  /-- R175. -/
  slotMap : ∀ h, t.slotOf h = some ⟨h.val, by omega⟩
  idleModes : ∀ h, t.modeOf h = .idleByte
  /-- R176. -/
  idleByte : t.idleByte = 0xFF
  /-- R181, R186, R187. -/
  ports : ∀ p, (t.port p).slot = .idle ∧ (t.port p).response = [] ∧ (t.port p).rejected = false
    ∧ (t.port p).notices = [] ∧ (t.port p).owed = []
  /-- R187, R190. -/
  device : t.device =
    { purgeDone := false, segmentFault := false, starved := false, maskSegmentFault := false, maskStarved := false,
      starvedCondition := false, watchOwed := false }

/-! ### Requests -/

/-- No agent is in WRAP past its wrap end: the invariant that R119 and R120 lay down between steps (log entry 4). -/
def WrapsOver (s : State) : Prop := ∀ a, ¬((s.agent a).state = .wrap ∧ (s.agent a).wrap.finish ≤ s.clock)

/-- No announcement is due: a call's next announcement due, where it has one, is still to come (R167; log entry 4). -/
def AnnouncementsTaken (s : State) : Prop := ∀ c r e, s.call c = some r → r.nextDue = some e → s.clock < e

/-- Nothing that falls due with the second is outstanding: no wrap and no announcement (R119, R120, R167; log entry 4). -/
structure Calm (s : State) : Prop where
  wraps : WrapsOver s
  announcements : AnnouncementsTaken s

/-- The commands of a list are carried out one after another, each with a next state. -/
inductive InTurn : List Instr → State → State → Prop
  | nil (s : State) : InTurn [] s s
  | cons (c : Instr) (l : List Instr) (s u t : State) (first : exec c s = .next u) (rest : InTurn l u t) : InTurn (c :: l) s t

/-- A request of kind `k` with parameters `ps`, written on port `p`, is taken by the port and passes its checks (R181, R182). -/
structure Takes (s : State) (k : Kind) (p : Port) (ps : List Byte) : Prop where
  calm : Calm s
  idle : (s.port p).slot = .idle
  length : lengthOk k p ps = true
  port : permitted k p = true

/-- The parameters name the defined agent `a`, and `p` is its home port (R8). -/
structure FromHome (s : State) (p : Port) (ps : List Byte) (a : AgentSlot) : Prop where
  names : u16 ps 0 = a.val
  defined : (s.agent a).defined = true
  home : p = portOf (s.agent a).home

/-- Port `p`'s slot holds a response of result `r` with the content given, and its rejected flag is clear (R181, R183). -/
structure Answered (t : State) (p : Port) (r : Result) (content : List Byte) : Prop where
  slot : (t.port p).slot = .responseReady
  rejected : (t.port p).rejected = false
  response : (t.port p).response = responseRecord r content

/-- The state `s` with a request record of `body` after its kind byte answered on port `p`, and nothing else changed. -/
def State.answered (s : State) (p : Port) (body : List Byte) (r : Result) (content : List Byte) : State :=
  s.setPort p
    { s.port p with
      slot := .responseReady
      rejected := false
      response := responseRecord r content
      shifted := s.statusByte p :: List.replicate (1 + body.length) 0 }

/-- The state `s` with a record of `n` bytes rejected on port `p`: the rejected flag is set, the status byte and zeros have been
shifted out, and nothing else has changed (R183, R196). -/
def State.rejectedRecord (s : State) (p : Port) (n : Nat) : State :=
  s.setPort p { s.port p with rejected := true, shifted := s.statusByte p :: List.replicate n 0 }

/-! ### Content, read byte by byte (R197, R198) -/

/-- The number that bytes spell, most significant byte first (R197). -/
def numberOf (l : List Byte) : Nat := l.foldl (fun n b => 256 * n + b.toNat) 0

/-- The number that flag bits spell, bit 0 first. -/
def bitsNumber (l : List Bool) : Nat := l.foldr (fun b n => b.toNat + 2 * n) 0

/-- The `k` bytes of `c` at offset `i` hold the number `x`, if `k` bytes can hold it; a number too large is a free value (log
entry 9). -/
def FieldAt (c : List Byte) (i k x : Nat) : Prop :=
  i + k ≤ c.length ∧ (x < 256 ^ k → numberOf ((c.drop i).take k) = x)

/-- The fields of a table of offsets, widths and numbers. -/
def FieldsAt (c : List Byte) (table : List (Nat × Nat × Nat)) : Prop := ∀ e ∈ table, FieldAt c e.1 e.2.1 e.2.2

/-- A slot field's number: 0xFFFF when absent. -/
def slotNumber {n : Nat} (o : Option (Fin n)) : Nat := (o.map Fin.val).getD 0xFFFF

/-- A group, timeslot, program, source or line field's number: 0xFF for none or absent. -/
def codeNumber {n : Nat} (o : Option (Fin n)) : Nat := (o.map Fin.val).getD 0xFF

/-- A shelf field's number: 0xFF when absent. -/
def shelfNumber (o : Option Shelf) : Nat :=
  match o with
  | some .a => 0
  | some .b => 1
  | none => 0xFF

/-- The parameter block at offset `i`: R30's fields in the table's order, in R197's widths. -/
def paramTable (i : Nat) (p : Params) : List (Nat × Nat × Nat) :=
  [(i, 2, p.wrapTime), (i + 2, 2, p.extStep), (i + 4, 1, p.extLimit), (i + 5, 2, p.wrapCap), (i + 7, 1, p.ringTimeout),
    (i + 8, 1, p.noAnswerLimit), (i + 9, 1, p.noAnswerAction.code), (i + 10, 1, p.policy.code), (i + 11, 1, p.weight),
    (i + 12, 1, p.priorityStep), (i + 13, 2, p.maxDepth), (i + 15, 1, codeNumber p.overflowTarget), (i + 16, 2, p.overflowWait),
    (i + 18, 1, bitsNumber [p.overflowOnFull]), (i + 19, 1, codeNumber p.music), (i + 20, 1, codeNumber p.program),
    (i + 21, 1, p.firstDelay), (i + 22, 2, p.interval), (i + 24, 1, p.shift), (i + 25, 2, p.depthThreshold),
    (i + 27, 2, p.waitObjective), (i + 29, 1, codeNumber p.line)]

/-- The skill pairs at offset `i` (R198). -/
def skillTable (i : Nat) : List Skill → List (Nat × Nat × Nat)
  | [] => []
  | k :: rest => (i, 1, k.group.val) :: (i + 1, 1, k.level) :: skillTable (i + 2) rest

/-- The step pairs at offset `i` (R200). -/
def stepTable (i : Nat) : List Step → List (Nat × Nat × Nat)
  | [] => []
  | st :: rest => (i, 1, st.kind.code) :: (i + 1, 1, st.operand.toNat) :: stepTable (i + 2) rest

/-! ### Frames -/

/-- The configuration and the plain registers that most commands leave alone: the clock, the sequence counter, the lines, the
tie-break registers, the stores, the slot map, the idle byte and the highway output. -/
structure SameBase (s t : State) : Prop where
  clock : t.clock = s.clock
  seqCounter : t.seqCounter = s.seqCounter
  lines : t.lines = s.lines
  seed : t.seed = s.seed
  taps : t.taps = s.taps
  generator : t.generator = s.generator
  ram : t.ram = s.ram
  programs : t.programs = s.programs
  vocab : t.vocab = s.vocab
  slotMap : t.slotMap = s.slotMap
  idleModes : t.idleModes = s.idleModes
  idleByte : t.idleByte = s.idleByte
  highway : t.highway = s.highway
  free : t.free = s.free
  pending : t.pending = s.pending

/-- What playout holds: segments, sources, channels and the wait list. -/
structure SamePlayout (s t : State) : Prop where
  segments : t.segments = s.segments
  sources : t.sources = s.sources
  channels : t.channels = s.channels
  waitList : t.waitList = s.waitList

/-- The waiting triggers. -/
structure SameTriggers (s t : State) : Prop where
  calls : t.callTriggers = s.callTriggers
  agents : t.agentTriggers = s.agentTriggers
  sweep : t.sweepWaiting = s.sweepWaiting

/-- Every agent record but that of agent `a`. -/
def OtherAgents (s t : State) (a : AgentSlot) : Prop := ∀ b, b ≠ a → t.agent b = s.agent b

/-- The transaction side of every port but `p`: its slot, response buffer, rejected flag and what it shifted out. -/
def OtherSlots (s t : State) (p : Port) : Prop :=
  ∀ q, q ≠ p → (t.port q).slot = (s.port q).slot ∧ (t.port q).response = (s.port q).response
    ∧ (t.port q).rejected = (s.port q).rejected ∧ (t.port q).shifted = (s.port q).shifted

/-- The notice queue and the owed list of a port. -/
def SameQueue (s t : State) (p : Port) : Prop :=
  (t.port p).notices = (s.port p).notices ∧ (t.port p).owed = (s.port p).owed

/-- Port S has been handed WATCHes and nothing else, and of the device record only its WATCH owed flag may differ (R187, R192). -/
structure WatchSide (s t : State) : Prop where
  notices : ∃ l : List Watch, (t.port .s).notices = (s.port .s).notices ++ l.map Notice.watch
  owed : (t.port .s).owed =
    if t.device.watchOwed = s.device.watchOwed then (s.port .s).owed else (s.port .s).owed ++ [.watch]
  raised : s.device.watchOwed = true → t.device.watchOwed = true
  device : { t.device with watchOwed := s.device.watchOwed } = s.device

/-- The state `s` with the agents, the groups, the ports, the device record and the agent triggers of `t`. -/
def State.withRosterOf (s t : State) : State :=
  { s with
    agents := t.agents, groups := t.groups, portA := t.portA, portB := t.portB, portS := t.portS, device := t.device,
    agentTriggers := t.agentTriggers }

/-- A notice handed to port `p` has been placed at the tail of its queue, or, the queue being full, has left the queue as it was
(R187). -/
def Handed (s t : State) (p : Port) (n : Notice) : Prop :=
  (t.port p).notices = if s.hasRoom p then (s.port p).notices ++ [n] else (s.port p).notices

/-- The AGENT_STATE notice of agent `a` as the record `r` has it: the state, the AUX reason, in WRAP the seconds from now to the wrap end
(R126), and the owner shelf and tag of the call bound (R23). -/
def State.stateNotice (s : State) (a : AgentSlot) (r : AgentRec) : Notice :=
  .agentState a r.state r.auxReason (if r.state = .wrap then r.wrap.finish - s.clock else 0)
    ((r.boundCall.bind s.call).map fun k => (k.owner, k.tag))

/-- Seconds since the group entry of the member that has been longest in group `g`'s queue; 0 of an empty one (R45). -/
def State.longestWait (s : State) (g : Group) : Nat :=
  ((s.group g).queue.filterMap s.call).foldl (fun m q => max m (s.clock - q.entry)) 0

/-- DEPTH is true of group `g`: its queue has reached the active threshold, which is not 0 (R47). -/
def State.depthHolds (s : State) (g : Group) : Bool :=
  let r := s.group g
  r.active.depthThreshold != 0 && decide (r.active.depthThreshold ≤ r.queue.length)

/-- WAIT is true of group `g`: a member has waited for the active objective, which is not 0 (R48). -/
def State.waitHolds (s : State) (g : Group) : Bool :=
  let r := s.group g
  r.active.waitObjective != 0 && !r.queue.isEmpty && decide (r.active.waitObjective ≤ s.longestWait g)

/-- NO_STAFF is true of group `g`: its queue is not empty and its staffed count is 0 (R49). -/
def State.noStaffHolds (s : State) (g : Group) : Bool :=
  let r := s.group g
  !r.queue.isEmpty && r.staffed == 0

/-- An agent with record `r` staffs group `g`: READY, OFFERED, CONNECTED or in WRAP, with a skill for it (R133). -/
def AgentRec.staffs (r : AgentRec) (g : Group) : Bool :=
  (r.state == .ready || r.state == .offered || r.state == .connected || r.state == .wrap) && r.skills.any fun k => k.group == g

/-- The staffed count that follows from `n` when an agent's record goes from `old` to `new`: raised or lowered by one where the
contribution to group `g` differs (R134). -/
def staffedAfter (old new : AgentRec) (g : Group) (n : Nat) : Nat :=
  if old.staffs g = new.staffs g then n else if new.staffs g then n + 1 else n - 1

/-- The record of agent `a` has become `new`, and all that follows from it but a trigger: the AGENT_STATE notice placed or owed (R23,
R24, R187), the staffed counts (R22, R134), NO_STAFF in the groups whose count has changed (R49); and nothing else. -/
structure AgentEffect (s t : State) (a : AgentSlot) (new : AgentRec) : Prop where
  record : t.agent a = { new with owed := new.owed || !s.hasRoom (portOf new.home) }
  others : ∀ b, b ≠ a → t.agent b = s.agent b
  notice : Handed s t (portOf new.home) (s.stateNotice a new)
  owed : (t.port (portOf new.home)).owed =
    if s.hasRoom (portOf new.home) || new.owed then (s.port (portOf new.home)).owed
    else (s.port (portOf new.home)).owed ++ [.agentState a]
  queues : ∀ q, q ≠ portOf new.home → q ≠ .s → SameQueue s t q
  watch : WatchSide s t
  staffed : ∀ g, (t.group g).staffed = staffedAfter (s.agent a) new g (s.group g).staffed
  kept : ∀ g, (s.agent a).staffs g = new.staffs g → t.group g = s.group g
  noStaff : ∀ g, (s.agent a).staffs g ≠ new.staffs g →
    t.group g =
      { s.group g with
        staffed := (t.group g).staffed
        flags :=
          { (s.group g).flags with
            noStaff := (s.group g).flags.noStaff || (t.noStaffHolds g && !(s.group g).conditions.noStaff) }
        conditions := { (s.group g).conditions with noStaff := t.noStaffHolds g } }
  rest : t = s.withRosterOf t

/-- The same with the trigger of an agent that has entered READY (R22, R75). -/
structure AgentChange (s t : State) (a : AgentSlot) (new : AgentRec) : Prop extends AgentEffect s t a new where
  trigger : t.agentTriggers = if new.state = .ready ∧ a ∉ s.agentTriggers then s.agentTriggers ++ [a] else s.agentTriggers

/-- A call record but for what the call hears and is due to hear: its listen source, next announcement, place on the wait list and owed
LISTEN, which the Playout Engine keeps. -/
def CallRec.offPlayout (r : CallRec) : CallRec :=
  { r with listen := .silent, nextDue := none, onWaitList := false, owedListen := false }

/-! ### Agents -/

/-- The parameters name the defined agent `a` (R8, check 2). -/
structure Names (s : State) (ps : List Byte) (a : AgentSlot) : Prop where
  names : u16 ps 0 = a.val
  defined : (s.agent a).defined = true

/-- A request of kind `k` from port `p` that names agent `a` passes the checks 2 and 3 of R8: every kind but the two forced ones comes
from the agent's home port. -/
structure ActsOn (s : State) (k : Kind) (p : Port) (ps : List Byte) (a : AgentSlot) : Prop extends Names s ps a where
  home : k = .forceAux ∨ k = .forceSignOut ∨ p = portOf (s.agent a).home

/-- An agent's record in a state that binds no call and holds no wrap: what the supervisor and the counts hold of the agent, with every
field cleared that holds a value in certain states only (R1, R112). -/
def AgentRec.unbound (r : AgentRec) (st : AgentState) (reason idle : Nat) : AgentRec where
  defined := r.defined
  home := r.home
  skills := r.skills
  state := st
  auxReason := reason
  idleSince := idle
  boundCall := none
  pending := .none
  wrap := { start := 0, finish := 0, cap := 0, extensions := 0, group := 0, talk := 0, mark := .keep }
  callsHandled := r.callsHandled
  answerStart := r.answerStart
  owed := r.owed

/-- The record of an agent that its pending change leads to at second `now` (R20). -/
def AgentRec.afterPending (r : AgentRec) (now : Nat) : AgentRec :=
  match r.pending with
  | .none => r.unbound .ready 0 now
  | .aux reason => r.unbound .aux reason 0
  | .signOut | .signOutPurge => r.unbound .signedOut 0 0

/-- The state with the handle-time sample of agent `a`'s wrap, the talk seconds plus the seconds since the wrap start, folded into the
average of the wrap group, if the sample mark is KEEP (R120, R123). -/
def State.withWrapSample (s : State) (a : AgentSlot) : State :=
  let w := (s.agent a).wrap
  if w.mark = .keep then
    s.setGroup w.group
      { s.group w.group with
        average := some (newAverage (s.group w.group).average (s.group w.group).active.shift (w.talk + (s.clock - w.start))) }
  else s

/-- A request answered on port `p`, whose effect is the change of agent `a`'s record to `new` and what follows from it. -/
structure AgentAnswered (s t : State) (p : Port) (r : Result) (content : List Byte) (a : AgentSlot) (new : AgentRec) : Prop
    extends Answered t p r content, AgentChange s t a new where
  slots : OtherSlots s t p

/-- The agent's part of an event that goes on with the call: agent `a`'s record has become `new`, its AGENT_STATE notice has been placed
or is owed, and only LISTEN notices may stand behind it; no other agent is touched (R23, R187). -/
structure AgentSide (s t : State) (a : AgentSlot) (new : AgentRec) : Prop where
  record : t.agent a = { new with owed := new.owed || !s.hasRoom (portOf new.home) }
  others : ∀ b, b ≠ a → t.agent b = s.agent b
  notice : ∃ l : List Notice, (∀ n ∈ l, ∃ tag slot, n = .listen tag slot) ∧
    (t.port (portOf new.home)).notices =
      (if s.hasRoom (portOf new.home) then
        (s.port (portOf new.home)).notices ++ [s.stateNotice a new]
      else (s.port (portOf new.home)).notices) ++ l
  staffed : ∀ g, (t.group g).staffed = staffedAfter (s.agent a) new g (s.group g).staffed
  noStaff : ∀ g, (s.agent a).staffs g ≠ new.staffs g → (t.group g).conditions.noStaff = t.noStaffHolds g
  trigger : t.agentTriggers = if new.state = .ready ∧ a ∉ s.agentTriggers then s.agentTriggers ++ [a] else s.agentTriggers

/-- The groups after agent records alone have changed, one of them from `old` to `new`: the staffed counts have followed (R134), NO_STAFF
has been evaluated where the count has changed (R49), and nothing else of a group but its average has changed. -/
def GroupsRestaffed (s t : State) (old new : AgentRec) : Prop :=
  ∀ g, t.group g =
    if old.staffs g = new.staffs g then { s.group g with average := (t.group g).average }
    else
      { s.group g with
        average := (t.group g).average
        staffed := staffedAfter old new g (s.group g).staffed
        flags :=
          { (s.group g).flags with
            noStaff := (s.group g).flags.noStaff || (t.noStaffHolds g && !(s.group g).conditions.noStaff) }
        conditions := { (s.group g).conditions with noStaff := t.noStaffHolds g } }

/-- Flags stay set, and a condition that has passed from false to true has set its flag (R46). -/
def FlagsFollow (s t : State) : Prop :=
  ∀ g, ((s.group g).flags.depth || ((t.group g).conditions.depth && !(s.group g).conditions.depth) → (t.group g).flags.depth)
    ∧ ((s.group g).flags.wait || ((t.group g).conditions.wait && !(s.group g).conditions.wait) → (t.group g).flags.wait)
    ∧ ((s.group g).flags.noStaff || ((t.group g).conditions.noStaff && !(s.group g).conditions.noStaff) →
      (t.group g).flags.noStaff)

/-- Agent `a`'s record has become `new`, with no notice: the staffed counts follow (R134) and NO_STAFF in the groups whose count has
changed (R49), and nothing else but shelf ports and agent triggers, of which this says nothing, has changed. -/
structure AgentRewritten (s t : State) (a : AgentSlot) (new : AgentRec) : Prop where
  record : t.agent a = new
  others : ∀ b, b ≠ a → t.agent b = s.agent b
  watch : WatchSide s t
  staffed : ∀ g, (t.group g).staffed = staffedAfter (s.agent a) new g (s.group g).staffed
  kept : ∀ g, (s.agent a).staffs g = new.staffs g → t.group g = s.group g
  noStaff : ∀ g, (s.agent a).staffs g ≠ new.staffs g →
    t.group g =
      { s.group g with
        staffed := (t.group g).staffed
        flags :=
          { (s.group g).flags with
            noStaff := (s.group g).flags.noStaff || (t.noStaffHolds g && !(s.group g).conditions.noStaff) }
        conditions := { (s.group g).conditions with noStaff := t.noStaffHolds g } }
  rest : t = s.withRosterOf t

/-- The record of an agent whose connected call of group `g` has ended now (R18, R113 to R115). -/
def AgentRec.afterCall (r : AgentRec) (s : State) (g : Group) (mark : SampleMark) : AgentRec :=
  let ended := { r with boundCall := none, callsHandled := min 65535 (r.callsHandled + 1) }
  let p := (s.group g).active
  if r.pending = .signOutPurge then ended.unbound .signedOut 0 0
  else if p.wrapTime = 0 then ended.afterPending s.clock
  else
    { ended with
      state := .wrap
      wrap := { start := s.clock, finish := s.clock + p.wrapTime, cap := p.wrapCap, extensions := 0, group := g,
                talk := s.clock - r.answerStart, mark := mark } }

/-- The state with the sample of a wrap of zero length folded into the average of group `g`, where the end of agent `a`'s call takes one:
at wrap time 0 with the mark KEEP, but not on a pending sign-out marked by purge (R115, R125). -/
def State.withCallSample (s : State) (a : AgentSlot) (g : Group) (mark : SampleMark) : State :=
  let r := s.agent a
  if r.pending ≠ .signOutPurge ∧ (s.group g).active.wrapTime = 0 ∧ mark = .keep then
    s.setGroup g
      { s.group g with
        average := some (newAverage (s.group g).average (s.group g).active.shift (s.clock - r.answerStart)) }
  else s

/-- A notice queue after notices have been handed to it one after another: as many are placed as there is room for (R187). -/
def placed (queue handed : List Notice) : List Notice := queue ++ handed.take (Config.noticeCapacity - queue.length)

/-! ### Calls -/

/-- The group that a QUEUED call with record `r` can overflow to: the active overflow target of its group, if that is open and below its
maximum depth and the call has moved fewer than three times (R69). -/
def State.overflowTo (s : State) (r : CallRec) : Option Group :=
  ((s.group r.group).active.overflowTarget).filter fun g =>
    !s.closed g && decide ((s.group g).queue.length < (s.group g).active.maxDepth) && decide (r.hops < 3)

/-- A call's record once it has joined group `g`: entry second, key and overflow due of R59. -/
def CallRec.joined (r : CallRec) (s : State) (g : Group) : CallRec :=
  let p := (s.group g).active
  { r with
    group := g
    entry := s.clock
    key := (s.clock : Int) - (r.priority : Int) * (p.priorityStep : Int)
    overflowDue := if p.overflowWait = 0 then none else some (s.clock + p.overflowWait) }

/-- A call's record after an overflow attempt that finds the group `o`, or none (R69). -/
def CallRec.overflowed (r : CallRec) (s : State) (o : Option Group) : CallRec :=
  match o with
  | none => { r with pendingOverflow := false }
  | some g => { r with hops := r.hops + 1, noAnswers := 0, pendingOverflow := false }.joined s g

/-- Group `g`'s statistics after call `c` has moved from group `f` to the group `o`, or has stayed (R43, R69). -/
def Stats.afterMove (q : Stats) (f g : Group) (o : Option Group) : Stats :=
  { q with
    overflowedOut := if o.isSome && g == f then min 65535 (q.overflowedOut + 1) else q.overflowedOut
    overflowedIn := if o == some g then min 65535 (q.overflowedIn + 1) else q.overflowedIn }

/-- Group `f` is swap-pending with at most the one offer that ends now: its swap is due (R34). -/
def State.swapDue (s : State) (f : Group) : Bool := (s.group f).swapPending && decide ((s.group f).offers ≤ 1)

/-- The listen source of a group's calls that are not on announcements (R62, R171). -/
def State.groupMusic (s : State) (g : Group) : Listen :=
  match (s.group g).active.music with
  | none => .silent
  | some m => .music m

/-- A call of record `k` that is moved to the music `o` changes its listen source: it is on no announcement, and the source differs
(R69, R166). -/
def CallRec.retunes (k : CallRec) (o : Option SourceNo) : Bool :=
  match k.listen, o with
  | .announce _, _ => false
  | .silent, o => o.isSome
  | .music m, o => o != some m

/-- The LISTEN notice that shelf `y`'s port is handed when a call of record `r` is moved to the music of group `g`: if it is a call of `y`
whose timeslot heard changes (R69, step 6; R159). -/
def State.moveListens (s : State) (r : CallRec) (g : Group) (y : Shelf) : List Notice :=
  let heard := s.heard (s.groupMusic g)
  if r.retunes (s.group g).active.music && r.owner == y && s.heard r.listen != heard then [.listen r.tag heard] else []

/-- The LISTEN notices that shelf `y`'s port is handed by the swap of group `g`, in queue order: one for each of its calls in the queue that
is moved to another timeslot by the music that the swap brings (R166; log entry 12). -/
def State.swapListens (s : State) (g : Group) (y : Shelf) : List Notice :=
  let r := s.group g
  let heard := s.heard (match r.staged.music with | none => .silent | some m => .music m)
  if r.active.music = r.staged.music then []
  else
    r.queue.filterMap fun c =>
      ((s.call c).filter fun k => k.retunes r.staged.music && k.owner == y && s.heard k.listen != heard).map fun k =>
        Notice.listen k.tag heard

/-- The call's side of an offer to agent `a` that has ended with call `c`, of record `r`, back in a queue: steps 4 to 8 of R98 and 2 to 6 of
R101. `count` is its no-answer count; `attempt` says that one overflow move is attempted. Other calls may differ in what they hear,
if a swap changes the music of the group. The ports get the agent's AGENT_STATE and the LISTENs of the move and of the swap, and no
other notice: the call's port gets none of the offer's end (R98, R101). -/
structure OfferReturned (s t : State) (c : CallSlot) (r : CallRec) (a : AgentSlot) (count : Nat) (attempt : Bool) : Prop where
  call : ∃ q, t.call c = some q ∧
    q.offPlayout =
      (CallRec.overflowed
        { r with state := .queued, boundAgent := none, ring := none, lastRefused := some a, noAnswers := count } s
        (if attempt then s.overflowTo r else none)).offPlayout
  others : ∀ d, d ≠ c → (t.call d).map CallRec.offPlayout = (s.call d).map CallRec.offPlayout
  stays : (if attempt then s.overflowTo r else none) = none → ∀ g, (t.group g).queue = (s.group g).queue
  leaves : ∀ g, (if attempt then s.overflowTo r else none) = some g → c ∈ (t.group g).queue ∧ (g ≠ r.group → c ∉ (t.group r.group).queue)
  stats : ∀ g, (t.group g).stats = (s.group g).stats.afterMove r.group g (if attempt then s.overflowTo r else none)
  offers : ∀ g, (t.group g).offers = if g = r.group then (s.group g).offers - 1 else (s.group g).offers
  swap : ∀ g, (t.group g).active = (if g = r.group ∧ s.swapDue g then (s.group g).staged else (s.group g).active)
    ∧ (t.group g).swapPending = (if g = r.group ∧ s.swapDue g then false else (s.group g).swapPending)
  sweep : t.sweepWaiting = (s.sweepWaiting || s.swapDue r.group)
  trigger : c ∈ t.callTriggers ∧ ∀ d ∈ s.callTriggers, d ∈ t.callTriggers
  moved : ∀ g, (if attempt then s.overflowTo r else none) = some g → g ≠ r.group → ∀ h, h = g ∨ h = r.group →
    (t.group h).conditions = { depth := t.depthHolds h, wait := t.waitHolds h, noStaff := t.noStaffHolds h }
  swapped : s.swapDue r.group = true →
    (t.group r.group).conditions.depth = t.depthHolds r.group ∧ (t.group r.group).conditions.wait = t.waitHolds r.group
  flags : FlagsFollow s t
  kept : ∀ g,
    { t.group g with
      queue := (s.group g).queue, stats := (s.group g).stats, offers := (s.group g).offers, active := (s.group g).active,
      swapPending := (s.group g).swapPending, staffed := (s.group g).staffed, conditions := (s.group g).conditions,
      flags := (s.group g).flags } = s.group g
  notices : (if attempt then s.overflowTo r else none) ≠ some r.group → (s.group r.group).queue.Nodup → ∀ y : Shelf,
    (t.port (portOf y)).notices =
      placed (s.port (portOf y)).notices
        ((if y = (s.agent a).home then [s.stateNotice a (t.agent a)] else [])
          ++ (match if attempt then s.overflowTo r else none with
            | none => if s.swapDue r.group then s.swapListens r.group y else []
            | some g =>
              s.moveListens r g y
                ++ if s.swapDue r.group then
                    (s.setGroup r.group
                      { s.group r.group with queue := (s.group r.group).queue.filter (· != c) }).swapListens r.group y
                  else []))
  quiet : (if attempt then s.overflowTo r else none) = none → s.swapDue r.group = false → ∀ y : Shelf,
    (t.port (portOf y)).owed =
      if y = (s.agent a).home ∧ s.hasRoom (portOf y) = false ∧ (s.agent a).owed = false then
        (s.port (portOf y)).owed ++ [.agentState a]
      else (s.port (portOf y)).owed
  base : SameBase s t

/-- The group takes a call that is moved to it: open, and below its active maximum depth (R61, R69). -/
def State.takesMoves (s : State) (g : Group) : Bool :=
  !s.closed g && decide ((s.group g).queue.length < (s.group g).active.maxDepth)

/-- The group that takes an arrival naming the open group `g`, with its hop count (R60, check 5; R61): the group named while it is below
its active maximum depth; else, with its active overflow on full, the first that takes moves of at most three groups along the chain
of active overflow targets. -/
def State.arrivalPlace (s : State) (g : Group) : Option (Group × Nat) :=
  let next := fun h : Group => (s.group h).active.overflowTarget
  if (s.group g).queue.length < (s.group g).active.maxDepth then some (g, 0)
  else if (s.group g).active.overflowOnFull = false then none
  else
    match next g with
    | none => none
    | some a =>
      if s.takesMoves a then some (a, 1)
      else
        match next a with
        | none => none
        | some b =>
          if s.takesMoves b then some (b, 2)
          else
            match next b with
            | none => none
            | some c => if s.takesMoves c then some (c, 3) else none

/-- The three conditions of group `g` have been evaluated at a change of its queue: the values are those of `t`, and a flag is set at a
rising edge (R46 to R49). -/
structure QueueEvaluated (s t : State) (g : Group) : Prop where
  conditions : (t.group g).conditions =
    { depth := t.depthHolds g, wait := t.waitHolds g, noStaff := t.noStaffHolds g }
  flags : (t.group g).flags =
    { depth := (s.group g).flags.depth || (t.depthHolds g && !(s.group g).conditions.depth)
      wait := (s.group g).flags.wait || (t.waitHolds g && !(s.group g).conditions.wait)
      noStaff := (s.group g).flags.noStaff || (t.noStaffHolds g && !(s.group g).conditions.noStaff) }

/-- A member has left group `g`'s queue, with the swap that was due thereupon: the three conditions have been evaluated under the set that
was active, and, where the swap has been performed, DEPTH and WAIT again under the set it has made active; the values are those of
`t`, and each rise has set its flag (R36, R46 to R49, R55, R96). -/
structure QueueLeft (s t : State) (g : Group) : Prop where
  conditions : (t.group g).conditions =
    { depth := t.depthHolds g, wait := t.waitHolds g, noStaff := t.noStaffHolds g }
  flags :
    let u := t.setGroup g { t.group g with active := (s.group g).active }
    (t.group g).flags =
      { depth := (s.group g).flags.depth || (u.depthHolds g && !(s.group g).conditions.depth)
          || (t.depthHolds g && !u.depthHolds g)
        wait := (s.group g).flags.wait || (u.waitHolds g && !(s.group g).conditions.wait) || (t.waitHolds g && !u.waitHolds g)
        noStaff := (s.group g).flags.noStaff || (t.noStaffHolds g && !(s.group g).conditions.noStaff) }

/-- Call `c`, of record `r`, has been freed (R55): its slot is free, it is in no queue of its group and not on the wait list, and no pair of
it is owed on its port. Other calls may differ in what they hear, if a channel it freed is granted. -/
structure CallFreed (s t : State) (c : CallSlot) (r : CallRec) : Prop where
  free : t.call c = none
  others : ∀ d, d ≠ c → (t.call d).map CallRec.offPlayout = (s.call d).map CallRec.offPlayout
  queues : ∀ g, (t.group g).queue = if g = r.group then (s.group g).queue.filter (· != c) else (s.group g).queue
  waitList : ∀ e ∈ t.waitList, e.call ≠ c
  owed : ∀ k, OwedPair.call c k ∉ (t.port (portOf r.owner)).owed
  triggers : t.callTriggers = s.callTriggers
  base : SameBase s t

/-- What the freeing of a call, of record `r`, by its release counts at its group: an abandoned call (R43), and the end of an offer, with
the swap that waits for the last one (R34, R36). No other figure of a group changes. -/
structure CountedAtFreeing (s t : State) (r : CallRec) (abandoned offer : Bool) : Prop where
  stats : ∀ g, (t.group g).stats =
    if abandoned = true ∧ g = r.group then { (s.group g).stats with abandoned := min 65535 ((s.group g).stats.abandoned + 1) }
    else (s.group g).stats
  offers : ∀ g, (t.group g).offers = if offer = true ∧ g = r.group then (s.group g).offers - 1 else (s.group g).offers
  swap : ∀ g,
    (t.group g).active = (if offer = true ∧ g = r.group ∧ s.swapDue g then (s.group g).staged else (s.group g).active)
      ∧ (t.group g).swapPending = (if offer = true ∧ g = r.group ∧ s.swapDue g then false else (s.group g).swapPending)

/-! ### Distribution -/

/-- Agent `a` is eligible for a call with record `r` (R79, R80). -/
structure Eligible (s : State) (r : CallRec) (a : AgentSlot) : Prop where
  ready : (s.agent a).state = .ready
  skilled : ∃ k ∈ (s.agent a).skills, k.group = r.group
  notRefused : r.lastRefused ≠ some a
  room : (s.port (portOf (s.agent a).home)).notices.length < 64

/-- The level of an agent's skill for a group, 0 without one. -/
def levelOf (r : AgentRec) (g : Group) : Nat := ((r.skills.filter fun k => k.group == g).head?.map Skill.level).getD 0

/-- Agent `b` comes before agent `a` under a policy, for a call of group `g` (R82). -/
def Before (s : State) (p : Policy) (g : Group) (b a : AgentSlot) : Prop :=
  let x := s.agent b
  let y := s.agent a
  match p with
  | .longestIdle => x.idleSince < y.idleSince
  | .highestLevel => levelOf y g < levelOf x g ∨ (levelOf x g = levelOf y g ∧ x.idleSince < y.idleSince)
  | .leastCalls => x.callsHandled < y.callsHandled ∨ (x.callsHandled = y.callsHandled ∧ x.idleSince < y.idleSince)

/-- Agent `a` is selected for a call with record `r`, leaving the state `v` (R81 to R83): of the eligible agents that none comes before, in
ascending order of slot, the one at the generator's index; the generator advances only if there are two or more. -/
def Selected (s : State) (r : CallRec) (a : AgentSlot) (v : State) : Prop :=
  ∃ l : List AgentSlot, l.Pairwise (· < ·)
    ∧ (∀ b, b ∈ l ↔ Eligible s r b ∧ ∀ d, Eligible s r d → ¬Before s (s.group r.group).active.policy r.group d b)
    ∧ l[s.generator.toNat % l.length]? = some a
    ∧ v = if l.length = 1 then s else { s with generator := State.nextGenerator s.taps s.generator }

/-- Call `c`, of record `r`, and agent `a` have been bound (R90). -/
def Bound (s t : State) (c : CallSlot) (r : CallRec) (a : AgentSlot) : Prop :=
  AgentEffect
    ((s.putCall c (some
      { r with state := .offered, boundAgent := some a, ring := some (s.clock + (s.group r.group).active.ringTimeout) })).setGroup
        r.group { s.group r.group with offers := (s.group r.group).offers + 1 })
    t a { s.agent a with state := .offered, boundCall := some c } ∧ t.agentTriggers = s.agentTriggers

/-- The urgency of a call with record `r` (R85). -/
def urgencyOf (s : State) (r : CallRec) : Int :=
  max 0 (min 99999 ((s.clock : Int) - r.key)) * ((s.group r.group).active.weight : Int)

/-- A call with record `q` is more pressing than one with record `r` (R85). -/
def MoreUrgent (s : State) (q r : CallRec) : Prop :=
  urgencyOf s r < urgencyOf s q ∨ (urgencyOf s q = urgencyOf s r ∧ q.seq < r.seq)

/-- Call `c`, of record `r`, is group `g`'s candidate for agent `a`: the first QUEUED member of the queue that the agent did not last
refuse; a swap-pending group has none (R84). -/
def Candidate (s : State) (a : AgentSlot) (g : Group) (c : CallSlot) (r : CallRec) : Prop :=
  let fits := fun q : CallRec => q.state = .queued ∧ q.lastRefused ≠ some a
  (s.group g).swapPending = false ∧ s.call c = some r ∧ fits r
    ∧ ∃ l m, (s.group g).queue = l ++ c :: m ∧ ∀ d ∈ l, ∀ q, s.call d = some q → ¬fits q

/-- Call `c`, of record `r`, is group `g`'s candidate in a round of a sweep: the first QUEUED member of the queue with an eligible agent; a
swap-pending group has none (R86). -/
def SweepCandidate (s : State) (g : Group) (c : CallSlot) (r : CallRec) : Prop :=
  let fits := fun q : CallRec => q.state = .queued ∧ ∃ a, Eligible s q a
  (s.group g).swapPending = false ∧ s.call c = some r ∧ fits r
    ∧ ∃ l m, (s.group g).queue = l ++ c :: m ∧ ∀ d ∈ l, ∀ q, s.call d = some q → ¬fits q

/-- A sweep from `s` ends in `t`: rounds that each bind the most pressing of all groups' candidates to the agent selected for it, until no
group has one (R86). -/
inductive Sweeps : State → State → Prop
  | done (s : State) (h : ∀ g c r, ¬SweepCandidate s g c r) : Sweeps s s
  | round (s v t u : State) (g : Group) (c : CallSlot) (r : CallRec) (a : AgentSlot) (h : SweepCandidate s g c r)
      (best : ∀ f d q, SweepCandidate s f d q → ¬MoreUrgent s q r) (chosen : Selected s r a v) (bound : Bound v t c r a)
      (rest : Sweeps t u) : Sweeps s u

/-! ### Groups and watch flags -/

/-- Some group that is closed in `s` is open in `t` (R38). -/
def State.opens (s t : State) : Bool := (List.finRange 64).any fun g => s.closed g && !t.closed g

/-- `w` is the first flag, in the report order of R192, that is set and unmasked. -/
def FirstWatch (s : State) (w : Watch) : Prop :=
  let device := s.device.purgeDone = true ∨ (s.device.segmentFault = true ∧ s.device.maskSegmentFault = false)
    ∨ (s.device.starved = true ∧ s.device.maskStarved = false)
  let shows := fun (k : GroupKind) (g : Group) =>
    match k with
    | .depth => (s.group g).flags.depth = true ∧ (s.group g).masks.depth = false
    | .wait => (s.group g).flags.wait = true ∧ (s.group g).masks.wait = false
    | .noStaff => (s.group g).flags.noStaff = true ∧ (s.group g).masks.noStaff = false
  match w with
  | .purgeDone => s.device.purgeDone = true
  | .segmentFault => s.device.purgeDone = false ∧ s.device.segmentFault = true ∧ s.device.maskSegmentFault = false
  | .starved =>
    s.device.purgeDone = false ∧ (s.device.segmentFault = false ∨ s.device.maskSegmentFault = true)
      ∧ s.device.starved = true ∧ s.device.maskStarved = false
  | .noStaff g => ¬device ∧ shows .noStaff g ∧ ∀ h, h < g → ¬shows .noStaff h
  | .wait g => ¬device ∧ (∀ h, ¬shows .noStaff h) ∧ shows .wait g ∧ ∀ h, h < g → ¬shows .wait h
  | .depth g => ¬device ∧ (∀ h, ¬shows .noStaff h) ∧ (∀ h, ¬shows .wait h) ∧ shows .depth g ∧ ∀ h, h < g → ¬shows .depth h

/-! ### Requests that start a run, and notices that are fetched -/

/-- The transaction side of every port: its slot, response buffer, rejected flag and what it shifted out. -/
def SameSlots (s t : State) : Prop :=
  ∀ p, (t.port p).slot = (s.port p).slot ∧ (t.port p).response = (s.port p).response ∧ (t.port p).rejected = (s.port p).rejected
    ∧ (t.port p).shifted = (s.port p).shifted

/-- The state in which port `p` has taken a request of `body` after its kind byte: its slot is BUSY (R181, R183). -/
def State.taken (s : State) (p : Port) (body : List Byte) : State :=
  s.setPort p
    { s.port p with slot := .busy, rejected := false, shifted := s.statusByte p :: List.replicate (1 + body.length) 0 }

/-- The state in which the response of a request taken on port `p` has been written into the port's slot (R181). -/
def State.responded (s : State) (p : Port) (r : Result) (content : List Byte) : State :=
  s.setPort p { s.port p with slot := .responseReady, response := responseRecord r content }

/-- The fields of a notice as FETCH returns it (R199), and their length in all. -/
def noticeTable : Notice → Nat × List (Nat × Nat × Nat)
  | .agentState a st reason remaining call =>
    (10, [(0, 1, 1), (1, 2, a.val), (3, 1, st.code), (4, 1, reason), (5, 2, remaining), (7, 1, shelfNumber (call.map Prod.fst)),
      (8, 2, (call.map fun n => n.2.toNat).getD 0)])
  | .listen tag slot => (4, [(0, 1, 2), (1, 2, tag.toNat), (3, 1, codeNumber slot)])
  | .connect tag a home => (6, [(0, 1, 3), (1, 2, tag.toNat), (3, 2, a.val), (5, 1, shelfNumber (some home))])
  | .cleared tag => (3, [(0, 1, 4), (1, 2, tag.toNat)])
  | .watch w =>
    (3, match w with
      | .purgeDone => [(0, 1, 5), (1, 1, 1), (2, 1, 0xFF)]
      | .segmentFault => [(0, 1, 5), (1, 1, 2), (2, 1, 0xFF)]
      | .starved => [(0, 1, 5), (1, 1, 3), (2, 1, 0xFF)]
      | .noStaff g => [(0, 1, 5), (1, 1, 4), (2, 1, g.val)]
      | .wait g => [(0, 1, 5), (1, 1, 5), (2, 1, g.val)]
      | .depth g => [(0, 1, 5), (1, 1, 6), (2, 1, g.val)])

/-- An owed pair whose turn comes is built as the notice `n`, from the record as it stands; a pair that is built as none is dropped
(R189). -/
def BuiltAs (s : State) : OwedPair → Notice → Prop
  | .agentState a, n =>
    n = s.stateNotice a (s.agent a)
  | .call c .listen, n => ∃ r, s.call c = some r ∧ n = .listen r.tag (s.heard r.listen)
  | .call c .connect, n =>
    ∃ r a, s.call c = some r ∧ r.state = .connected ∧ r.boundAgent = some a ∧ n = .connect r.tag a (s.agent a).home
  | .call c .cleared, n => ∃ r, s.call c = some r ∧ n = .cleared r.tag
  | .watch, n => ∃ w, FirstWatch s w ∧ n = .watch w

/-! ### Playout (R143, R149 to R156, R163, R170, R171) -/

/-- The present segment that a code names (R142, R152). -/
def State.present (s : State) (code : Nat) : Option SegmentCode :=
  if h : code < 240 then (if (s.segment ⟨code, h⟩).length = 0 then none else some ⟨code, h⟩) else none

/-- The present segment that a word of the vocabulary names (R152, R153). -/
def State.wordSegment (s : State) (v : VocabNo) : Option SegmentCode := (s.vocabEntry v).bind fun code => s.present code.toNat

/-- The program step that a run has come to; none past the last. -/
def State.stepAt (s : State) (r : Run) : Option Step := (s.programSteps r.program)[r.step]?

/-- How many frames a run's fill, segment, silence or substitute for a missing segment lasts (R151, R152, R156). -/
def State.lasts (s : State) (r : Run) : Nat :=
  match r.fill, r.segment, s.stepAt r with
  | some _, _, _ => 8000
  | none, some k, _ => (s.segment k).length
  | none, none, some ⟨.silence, n⟩ => 800 * n.toNat
  | none, none, _ => 8000

/-- The word that a run comes to at a frame: its next word, if the frame plays the last byte of a word that is not the last (R153). -/
def State.nextWord (s : State) (r : Run) : Option VocabNo :=
  if r.fill = none ∧ s.lasts r ≤ r.position + 1 then r.words[r.word + 1]? else none

/-- The run has a step whose last byte has been played: no fill, and the last word of a SAY step (R150, R153). -/
def State.stepOver (s : State) (r : Run) : Prop :=
  r.fill = none ∧ r.words.length ≤ r.word + 1 ∧ s.lasts r ≤ r.position

/-- The run has a fill whose last byte has been played (R156). -/
def State.fillOver (s : State) (r : Run) : Prop := r.fill ≠ none ∧ s.lasts r ≤ r.position

/-- The state in which a channel has left its current segment, whose in-use count has fallen (R143). -/
def State.left (s : State) (o : Option SegmentCode) : State :=
  match o with
  | none => s
  | some k => s.setSegment k { s.segment k with inUse := (s.segment k).inUse - 1 }

/-- A channel has come to a segment. A present one is begun, and its in-use count rises (R143). A missing one is reported: SEGMENT_FAULT is
set, and a WATCH is handed if it was clear and is unmasked (R152, R190). -/
def SegmentMet (s t : State) (o : Option SegmentCode) : Prop :=
  match o with
  | some k => t = s.setSegment k { s.segment k with inUse := (s.segment k).inUse + 1 }
  | none =>
    let u := s.setDevice { s.device with segmentFault := true }
    if s.device.segmentFault = true ∨ s.device.maskSegmentFault = true then t = u
    else
      t = { u with portS := t.portS, device := t.device } ∧ SameSlots u t ∧ WatchSide u t
        ∧ (∀ w, FirstWatch u w → (t.port .s).notices = placed (u.port .s).notices [.watch w])
        ∧ t.device.watchOwed = (u.device.watchOwed || !u.hasRoom .s)

/-- Runs come to words one after another, each leaving its segment and beginning the word's, or reporting it missing (R152, R153). -/
inductive WordsMet : List (Option SegmentCode × VocabNo) → State → State → Prop
  | nil (s : State) : WordsMet [] s s
  | cons (o : Option SegmentCode) (v : VocabNo) (l : List (Option SegmentCode × VocabNo)) (s u t : State)
      (met : SegmentMet (s.left o) u (s.wordSegment v)) (rest : WordsMet l u t) : WordsMet ((o, v) :: l) s t

/-- A run that has come to a step that takes time, with the segment begun for it and the words of a SAY step (R149). -/
def Run.playing (r : Run) (segment : Option SegmentCode) (words : List VocabNo) : Run :=
  { r with position := 0, segment := segment, words := words, word := 0 }

/-- What carries out a run: a music source, or the announcement channel that serves a call. -/
inductive Performer
  | source (m : SourceNo)
  | call (c : CallSlot)

/-- Step `t` is the target of the REPEAT at step `i`: the step after the highest MARK below it, or step 0 (R154). -/
def Target (steps : List Step) (i t : Nat) : Prop :=
  let marked := fun j => ∃ o, steps[j]? = some ⟨.mark, o⟩
  (t = 0 ∧ ∀ j, j < i → ¬marked j) ∨ (∃ j, j < i ∧ marked j ∧ (∀ k, j < k → k < i → ¬marked k) ∧ t = j + 1)

/-- The run goes on where a return leads: to the REPEAT's target with the played and the fill flag clear, or to a fresh beginning (R154 to
R156). -/
def Returned (s : State) (ret : Return) (r q : Run) : Prop :=
  match ret with
  | .jump =>
    ∃ t, Target (s.programSteps r.program) r.step t ∧ q = { r with step := t, position := 0, played := false, fill := none }
  | .restart => q = { program := r.program }

/-- A return is due at the step that the run has come to, with its counter risen (R154, R155); an announcement's end is none. -/
inductive ReturnDue (s : State) (x : Performer) (r : Run) : Return → Run → Prop
  | forever (h : s.stepAt r = some ⟨.again, 255⟩) : ReturnDue s x r .jump r
  | counted (n : Byte) (h : s.stepAt r = some ⟨.again, n⟩) (finite : n ≠ 255) (below : r.counters.getD r.step 0 < n.toNat) :
      ReturnDue s x r .jump { r with counters := r.counters.set r.step (r.counters.getD r.step 0 + 1) }
  | finish (m : SourceNo) (o : Byte) (source : x = .source m) (h : s.stepAt r = some ⟨.finish, o⟩) : ReturnDue s x r .restart r
  | past (m : SourceNo) (source : x = .source m) (h : s.stepAt r = none) :
      ReturnDue s x r .restart { r with step := (s.programSteps r.program).length - 1 }

/-- The return ends a pass of a source: a restart, or the jump of a REPEAT with operand 255 (R163). -/
def PassEnd (s : State) (ret : Return) (r : Run) : Prop := ret = .restart ∨ ∃ st, s.stepAt r = some st ∧ st.operand = 255

/-- A source's record after steps 1 and 2 of a pass end (R163). -/
def SourceRec.afterPass (q : SourceRec) : SourceRec :=
  { q with
    current := match q.staged with | .empty => q.current | .value p => p
    staged := .empty
    idlePasses := if q.listeners = 0 then q.idlePasses + 1 else q.idlePasses }

/-- The source stops at its pass end: its program has become none, or its idle passes have reached the limit (R163). -/
def SourceRec.stopsAtPass (q : SourceRec) : Prop :=
  q.afterPass.current = none ∨ (q.listeners = 0 ∧ q.idleLimit ≤ q.afterPass.idlePasses)

/-- A return is taken, with the steps of a pass end where it is one (R156, R163): the run that goes on, or none for a source that stops. -/
inductive ReturnTaken (s : State) (x : Performer) (ret : Return) (r : Run) : State → Option Run → Prop
  | announcement (c : CallSlot) (q : Run) (call : x = .call c) (h : Returned s ret r q) : ReturnTaken s x ret r s (some q)
  | within (m : SourceNo) (q : Run) (source : x = .source m) (inside : ¬PassEnd s ret r) (h : Returned s ret r q) :
      ReturnTaken s x ret r s (some q)
  | again (m : SourceNo) (q : Run) (source : x = .source m) (pass : PassEnd s ret r) (on : ¬(s.source m).stopsAtPass)
      (same : (s.source m).staged = .empty) (h : Returned s ret r q) :
      ReturnTaken s x ret r (s.setSource m (s.source m).afterPass) (some q)
  | replaced (m : SourceNo) (p : ProgramNo) (source : x = .source m) (pass : PassEnd s ret r) (on : ¬(s.source m).stopsAtPass)
      (staged : (s.source m).staged = .value (some p)) :
      ReturnTaken s x ret r (s.setSource m (s.source m).afterPass) (some { program := p })
  | stopped (m : SourceNo) (source : x = .source m) (pass : PassEnd s ret r) (stops : (s.source m).stopsAtPass) :
      ReturnTaken s x ret r (s.setSource m { (s.source m).afterPass with run := none, idlePasses := 0 }) none

/-- A run that has come to a step is carried on until it has come to a step that takes time or to a fill, which is the run given, or until
it has ended or its source has stopped, which is none (R150 to R156, R163). -/
inductive Carries (x : Performer) : State → Run → State → Option Run → Prop
  | play (s t : State) (r : Run) (o : Byte) (h : s.stepAt r = some ⟨.play, o⟩) (met : SegmentMet s t (s.present o.toNat)) :
      Carries x s r t (some (r.playing (s.present o.toNat) []))
  | silence (s : State) (r : Run) (o : Byte) (h : s.stepAt r = some ⟨.silence, o⟩) : Carries x s r s (some (r.playing none []))
  | say (s t : State) (r : Run) (k : StepKind) (o : Byte) (c : CallSlot) (v : VocabNo) (l : List VocabNo)
      (h : s.stepAt r = some ⟨k, o⟩) (call : x = .call c) (words : s.sayWords c k = v :: l) (met : SegmentMet s t (s.wordSegment v)) :
      Carries x s r t (some (r.playing (s.wordSegment v) (v :: l)))
  | skip (s t : State) (r : Run) (k : StepKind) (o : Byte) (e : Option Run) (h : s.stepAt r = some ⟨k, o⟩)
      (idle : k = .mark ∨ ((k = .sayPosition ∨ k = .sayWait) ∧ ∃ m, x = .source m))
      (on : Carries x s { r with step := r.step + 1 } t e) : Carries x s r t e
  | counted (s t : State) (r : Run) (n : Byte) (e : Option Run) (h : s.stepAt r = some ⟨.again, n⟩) (finite : n ≠ 255)
      (full : n.toNat ≤ r.counters.getD r.step 0)
      (on : Carries x s { r with counters := r.counters.set r.step 0, step := r.step + 1 } t e) : Carries x s r t e
  | filled (s : State) (r q : Run) (ret : Return) (due : ReturnDue s x r ret q) (silent : q.played = false) :
      Carries x s r s (some { q with fill := some ret, position := 0 })
  | returned (s u t : State) (r q w : Run) (ret : Return) (e : Option Run) (due : ReturnDue s x r ret q) (heard : q.played = true)
      (back : ReturnTaken s x ret q u (some w)) (on : Carries x u w t e) : Carries x s r t e
  | stopped (s u : State) (r q : Run) (ret : Return) (due : ReturnDue s x r ret q) (heard : q.played = true)
      (back : ReturnTaken s x ret q u none) : Carries x s r u none
  | ended (s : State) (r : Run) (c : CallSlot) (call : x = .call c)
      (h : s.stepAt r = none ∨ ∃ o, s.stepAt r = some ⟨.finish, o⟩) : Carries x s r s none

/-- `q` is the run of program `p` that source `m` has begun on the way from `s` to `t`, carried out from step 0 to the first step that takes
time or to a fill; the segment it comes to is begun, or, missing, reported (R149, R150, R152, R162). -/
def RunBegun (s t : State) (m : SourceNo) (p : ProgramNo) (q : Run) : Prop :=
  ∃ u v, u.programs = s.programs ∧ u.segments = s.segments ∧ u.device.segmentFault = s.device.segmentFault
    ∧ Carries (.source m) u { program := p } v (some q)
    ∧ t.segments = v.segments ∧ t.device.segmentFault = v.device.segmentFault

/-- Source `m` has gained `n` listeners: its count has risen, and at a join its idle-pass counter is clear and a STOPPED source that holds a
program has started; a RUNNING one goes on, and one without a program stays STOPPED (R160, R162). -/
structure SourceGains (s t : State) (m : SourceNo) (n : Nat) : Prop where
  listeners : (t.source m).listeners = (s.source m).listeners + n
  idlePasses : (t.source m).idlePasses = if n = 0 then (s.source m).idlePasses else 0
  goesOn : n = 0 ∨ (s.source m).run ≠ none ∨ (s.source m).current = none → (t.source m).run = (s.source m).run
  starts : ∀ p, n ≠ 0 → (s.source m).run = none → (s.source m).current = some p →
    ∃ q, (t.source m).run = some q ∧ ((∀ k, (s.programSteps k).length ≤ 32) → RunBegun s t m p q)
  rest : { t.source m with
    listeners := (s.source m).listeners, idlePasses := (s.source m).idlePasses, run := (s.source m).run } = s.source m

/-- No source starts on the way from `s` to `t`: the segments are as they were, and of the device record and port S only what a WATCH
touches may differ (R143, R190). -/
def StartsNone (s t : State) : Prop := t.segments = s.segments ∧ WatchSide s t

/-- The arbiter has nothing to do: no channel is FREE or no call waits. So every event leaves the part (R170). -/
def Arbitrated (s : State) : Prop := s.waitList = [] ∨ ∀ j, s.channel j ≠ none

/-- The LISTEN notice of call `c` has been handed to its port: placed, or owed once, by the record that has become `after` (R187). The other
shelf's port has been handed nothing. -/
def ListenHanded (s t : State) (c : CallSlot) (slot : Option Timeslot) (before after : CallRec) : Prop :=
  let p := portOf before.owner
  (t.port p).notices = placed (s.port p).notices [.listen before.tag slot]
    ∧ (t.port p).owed =
        (if s.hasRoom p || before.owedListen then (s.port p).owed else (s.port p).owed ++ [.call c .listen])
    ∧ after.owedListen = (before.owedListen || !s.hasRoom p) ∧ SameQueue s t (portOf (other before.owner))

/-- Channel `j`, FREE till now, has been granted to call `c`, of record `r`, for a run of program `p` (R170, second case). -/
structure ChannelGranted (s t : State) (j : ChannelNo) (c : CallSlot) (r : CallRec) (p : ProgramNo) : Prop where
  channel : t.channel j = some ⟨c, { program := p }⟩
  otherChannels : ∀ i, i ≠ j → t.channel i = s.channel i
  call : ∃ q, t.call c = some q ∧ { q with owedListen := r.owedListen } = { r with listen := .announce j }
    ∧ ListenHanded s t c (s.slotOf (highwayOfChannel j)) r q
  others : ∀ d, d ≠ c → t.call d = s.call d
  sources : ∀ m, t.source m =
    { s.source m with
      listeners := if r.listen = .music m then (s.source m).listeners - 1 else (s.source m).listeners }
  slots : SameSlots s t
  rest : t = { s with calls := t.calls, sources := t.sources, channels := t.channels, portA := t.portA, portB := t.portB }

/-- The announcement of channel `j` for call `c`, of record `r`, has ended (R171, steps 1 to 4). -/
structure AnnouncementOver (s t : State) (j : ChannelNo) (c : CallSlot) (r : CallRec) : Prop where
  channel : t.channel j = none
  otherChannels : ∀ i, i ≠ j → t.channel i = s.channel i
  call : ∃ q, t.call c = some q
    ∧ { q with owedListen := r.owedListen } =
      { r with
        listen := s.groupMusic r.group
        nextDue :=
          if (s.group r.group).active.program ≠ none ∧ (s.group r.group).active.interval ≠ 0 then
            some (s.clock + (s.group r.group).active.interval)
          else none }
    ∧ ListenHanded s t c (s.heard (s.groupMusic r.group)) r q
  others : ∀ d, d ≠ c → t.call d = s.call d
  sources : ∀ m, SourceGains s t m (if s.groupMusic r.group = .music m then 1 else 0)
  slots : SameSlots s t
  groups : t.groups = s.groups
  agents : t.agents = s.agents
  waitList : t.waitList = s.waitList
  triggers : SameTriggers s t
  base : SameBase s t

/-- The STARVED condition after an event that leaves the wait list `l` at second `now` (R168). -/
def starvedBy (l : List WaitEntry) (now : Nat) : Bool := l.head?.any fun e => decide (30 ≤ now - e.due)

/-- The STARVED condition has been evaluated, the list being `l` and the second `now`: the device holds the value, and a rise has set the
flag and handed a WATCH if it was clear and is unmasked (R168, R190). -/
structure StarvedEvaluated (s t : State) (l : List WaitEntry) (now : Nat) : Prop where
  device : { t.device with watchOwed := s.device.watchOwed } =
    { s.device with
      starvedCondition := starvedBy l now
      starved := s.device.starved || (starvedBy l now && !s.device.starvedCondition) }
  quiet : starvedBy l now = false ∨ s.device.starvedCondition = true ∨ s.device.starved = true ∨ s.device.maskStarved = true →
    t.portS = s.portS ∧ t.device.watchOwed = s.device.watchOwed
  handed : ∃ w : List Watch, (t.port .s).notices = (s.port .s).notices ++ w.map Notice.watch ∧ w.length ≤ 1

/-- Call `c` has left the wait list: its entry is gone, its on-wait-list flag is clear, and the STARVED condition has been evaluated
(R168). Nothing else has changed. -/
structure ListLeft (s t : State) (c : CallSlot) : Prop where
  waitList : t.waitList = s.waitList.filter fun e => e.call != c
  call : t.call c = (s.call c).map fun r => { r with onWaitList := false }
  others : ∀ d, d ≠ c → t.call d = s.call d
  starved : StarvedEvaluated s t t.waitList s.clock
  rest : t = { s with calls := t.calls, waitList := t.waitList, device := t.device, portS := t.portS }

/-- The arbiter acts from `s` to `t` (R170): while a channel is FREE and a call waits, the head leaves the list; if its group names no
announcement program that is all, else it is granted the lowest FREE channel, and its run goes on until it must play or has ended. -/
inductive Arbitrates : State → State → Prop
  | done (s : State) (h : Arbitrated s) : Arbitrates s s
  | dropped (s u t : State) (e : WaitEntry) (l : List WaitEntry) (r : CallRec) (j : ChannelNo) (head : s.waitList = e :: l)
      (free : s.channel j = none) (call : s.call e.call = some r) (left : ListLeft s u e.call)
      (silent : (s.group r.group).active.program = none) (on : Arbitrates u t) : Arbitrates s t
  | played (s u w v t : State) (e : WaitEntry) (l : List WaitEntry) (r : CallRec) (j : ChannelNo) (p : ProgramNo) (q : Run)
      (head : s.waitList = e :: l) (free : s.channel j = none) (lowest : ∀ i, i < j → s.channel i ≠ none)
      (left : ListLeft s u e.call) (call : u.call e.call = some r) (names : (s.group r.group).active.program = some p)
      (granted : ChannelGranted u w j e.call r p) (carried : Carries (.call e.call) w { program := p } v (some q))
      (on : Arbitrates (v.setChannel j (some ⟨e.call, q⟩)) t) : Arbitrates s t
  | ended (s u w v a t : State) (e : WaitEntry) (l : List WaitEntry) (r k : CallRec) (j : ChannelNo) (p : ProgramNo)
      (head : s.waitList = e :: l) (free : s.channel j = none) (lowest : ∀ i, i < j → s.channel i ≠ none)
      (left : ListLeft s u e.call) (call : u.call e.call = some r) (names : (s.group r.group).active.program = some p)
      (granted : ChannelGranted u w j e.call r p) (carried : Carries (.call e.call) w { program := p } v none)
      (listens : v.call e.call = some k) (finished : AnnouncementOver v a j e.call k) (on : Arbitrates a t) : Arbitrates s t

/-! ### Resets and purges -/

/-- What a call keeps from its arrival to its freeing (R53, R56): owner shelf, tag, arrival second, sequence number and priority. -/
def CallRec.sameCall (q r : CallRec) : Prop :=
  r.owner = q.owner ∧ r.tag = q.tag ∧ r.arrival = q.arrival ∧ r.seq = q.seq ∧ r.priority = q.priority

/-- Calls, agents, groups and ports after a purge of shelf `x` (R27, R28, R52, R72, R194). -/
structure Purged (s t : State) (x : Shelf) : Prop where
  freed : ∀ c r, s.call c = some r → r.owner = x → t.call c = none
  kept : ∀ c r, s.call c = some r → r.owner ≠ x → ∃ q, t.call c = some q ∧ r.sameCall q
  unused : ∀ c, s.call c = none → t.call c = none
  signedOut : ∀ a, (s.agent a).home = x →
    (t.agent a).state = .signedOut ∨ ((t.agent a).state = .connected ∧ (t.agent a).pending = .signOutPurge)
  definitions : ∀ a, (t.agent a).defined = (s.agent a).defined ∧ (t.agent a).home = (s.agent a).home
    ∧ (t.agent a).skills = (s.agent a).skills
  otherAgents : ∀ a, (s.agent a).home ≠ x → (∀ c r, s.call c = some r → r.owner = x → r.boundAgent ≠ some a) →
    t.agent a = s.agent a
  averages : ∀ g, (t.group g).staged = (s.group g).staged ∧ (t.group g).supervisorClosed = (s.group g).supervisorClosed
    ∧ (t.group g).masks = (s.group g).masks ∧ (t.group g).average = (s.group g).average
    ∧ (t.group g).stats.answered = (s.group g).stats.answered ∧ (t.group g).stats.abandoned = (s.group g).stats.abandoned
  port : (t.port (portOf x)).notices = [] ∧ (t.port (portOf x)).owed = []
  owed : ∀ a, (s.agent a).home = x → (t.agent a).owed = false
  done : t.device.purgeDone = true
  base : SameBase s t

/-- What a purge of shelf `x` leaves of the agents it concerns, call and agent being bound both ways (R27, R28, R107, R108, R116). An agent
homed on `x` that is CONNECTED to a call of the other shelf stays so, marked; any other is SIGNED_OUT, with a call more handled if it was
CONNECTED. An agent of the other shelf whose OFFERED call is freed is READY with its idle-since kept; one whose CONNECTED call is freed
follows the end of the call with the sample mark DROP, under the active set of the call's group, or the staged one where a swap
performed within the purge has made it active. -/
structure PurgedAgents (s t : State) (x : Shelf) : Prop where
  marked : ∀ a c r, (s.agent a).home = x → (s.agent a).state = .connected → (s.agent a).boundCall = some c → s.call c = some r →
    r.owner ≠ x → t.agent a = { s.agent a with pending := .signOutPurge, owed := false }
  out : ∀ a, (s.agent a).home = x →
    (∀ c r, (s.agent a).state = .connected → (s.agent a).boundCall = some c → s.call c = some r → r.owner = x) →
    t.agent a =
      if (s.agent a).state = .signedOut then { s.agent a with owed := false }
      else
        { (s.agent a).unbound .signedOut 0 0 with
          callsHandled :=
            if (s.agent a).state = .connected then min 65535 ((s.agent a).callsHandled + 1) else (s.agent a).callsHandled
          owed := false }
  freed : ∀ a c r, (s.agent a).home ≠ x → (s.agent a).state = .offered → (s.agent a).boundCall = some c → s.call c = some r →
    r.owner = x → ∃ o, t.agent a = { (s.agent a).unbound .ready 0 (s.agent a).idleSince with owed := o }
  ended : ∀ a c r, (s.agent a).home ≠ x → (s.agent a).state = .connected → (s.agent a).boundCall = some c → s.call c = some r →
    r.owner = x → ∃ par o,
      (par = (s.group r.group).active ∨ ((s.group r.group).swapPending = true ∧ par = (s.group r.group).staged))
      ∧ t.agent a =
          { (s.agent a).afterCall (s.setGroup r.group { s.group r.group with active := par }) r.group .drop with owed := o }

/-- Call `c` of the other shelf has its offer withdrawn by the purge of shelf `x`: it is OFFERED to an agent homed on `x` (R72, R108). -/
def Withdrawn (s : State) (x : Shelf) (c : CallSlot) : Prop :=
  ∃ r a, s.call c = some r ∧ r.owner ≠ x ∧ r.state = .offered ∧ r.boundAgent = some a ∧ (s.agent a).home = x

/-- Call `c` of the other shelf keeps its place through the purge of shelf `x`: it is not withdrawn with an overflow pending (R70, R72). -/
def State.keepsPlace (s : State) (x : Shelf) (c : CallSlot) : Bool :=
  (s.call c).any fun r =>
    r.owner != x
      && !(r.state == .offered && r.pendingOverflow && r.boundAgent.any fun a => (s.agent a).home == x)

/-- `v` is what the purge of shelf `x` has made of the groups by the time it signs an agent out, and by its end: every call of `x` has left
its queue, the calls of the other shelf stand in their order, but for those withdrawn with an overflow pending, and a swap that waited
may have been performed (R52, R72, R194). -/
structure PurgeGroups (s v : State) (x : Shelf) : Prop where
  clock : v.clock = s.clock
  lines : v.lines = s.lines
  closed : ∀ g, (v.group g).supervisorClosed = (s.group g).supervisorClosed
  active : ∀ g, (v.group g).active = (s.group g).active
    ∨ ((s.group g).swapPending = true ∧ (v.group g).active = (s.group g).staged)
  order : ∀ g, (v.group g).queue.filter (s.keepsPlace x) = (s.group g).queue.filter (s.keepsPlace x)
  members : ∀ g, ∀ c ∈ (v.group g).queue, s.keepsPlace x c = true ∨ Withdrawn s x c

/-- The agents of the other shelf that lose a call by the purge of shelf `x`, in the order of the calls' slots (R28, R194). -/
def State.bereaved (s : State) (x : Shelf) : List AgentSlot :=
  (List.finRange 1024).filterMap fun c =>
    (s.call c).bind fun r => if r.owner = x then r.boundAgent.filter fun a => (s.agent a).home != x else none

/-- What the purge of shelf `x` leaves of the other shelf's calls and of the groups, in a state whose records agree (R34, R43, R46 to R49,
R52, R72, R93, R101, R108). -/
structure PurgedOthers (s t : State) (x : Shelf) : Prop where
  groups : PurgeGroups s t x
  /-- A withdrawn call is QUEUED, the agent its last refused agent; a pending overflow of it has been attempted at the sign-out. -/
  withdrawn : ∀ c r a, s.call c = some r → r.owner ≠ x → r.state = .offered → r.boundAgent = some a → (s.agent a).home = x →
    ∃ q v, PurgeGroups s v x ∧ t.call c = some q ∧ c ∈ (t.group q.group).queue
      ∧ q.offPlayout =
          (CallRec.overflowed { r with state := .queued, boundAgent := none, ring := none, lastRefused := some a } v
            (if r.pendingOverflow then v.overflowTo r else none)).offPlayout
  /-- Every other call of the other shelf keeps its record, but for what it hears. -/
  kept : ∀ c r, s.call c = some r → r.owner ≠ x → ¬Withdrawn s x c → ∃ q, t.call c = some q ∧ q.offPlayout = r.offPlayout
  /-- It hears what it heard, if the purge performs no swap and no call waits for a channel that the purge frees. -/
  hears : (∀ g, (t.group g).swapPending = (s.group g).swapPending) → s.waitList = [] →
    ∀ c r, s.call c = some r → r.owner ≠ x → ¬Withdrawn s x c → t.call c = some r
  callTriggers : (∃ l, t.callTriggers = s.callTriggers ++ l)
    ∧ ∀ c, c ∈ t.callTriggers ↔ c ∈ s.callTriggers ∨ Withdrawn s x c
  agentTriggers : (∃ l, t.agentTriggers = s.agentTriggers ++ l)
    ∧ ∀ a, a ∈ t.agentTriggers ↔ a ∈ s.agentTriggers ∨ (a ∈ s.bereaved x ∧ (t.agent a).state = .ready)
  offers : ∀ g, (t.group g).offers =
    ((List.finRange 1024).filter fun c =>
      (s.call c).any fun r => r.group == g && r.state == .offered && r.owner != x
        && !r.boundAgent.any fun a => (s.agent a).home == x).length
  swaps : ∀ g, (t.group g).swapPending = ((s.group g).swapPending && (t.group g).offers != 0)
    ∧ (t.group g).active = if (s.group g).swapPending ∧ (t.group g).offers = 0 then (s.group g).staged else (s.group g).active
  sweep : t.sweepWaiting =
    (s.sweepWaiting || (List.finRange 64).any fun g => (s.group g).swapPending && !(t.group g).swapPending)
  /-- The port of the other shelf has been handed the AGENT_STATE of each of its agents that has lost a call, in the order of the calls'
  slots, and besides these only LISTENs. -/
  notices : ∃ l n, (t.port (portOf (other x))).notices = (s.port (portOf (other x))).notices ++ l
    ∧ (l.filter fun m => match m with | .agentState .. => true | _ => false) =
        ((s.bereaved x).take n).map (fun a => t.stateNotice a (t.agent a))
    ∧ (∀ m ∈ l, (match m with | .agentState .. | .listen .. => True | _ => False))
    ∧ ((t.port (portOf (other x))).notices.length < 64 → (s.bereaved x).length ≤ n)
    ∧ ∀ a ∈ (s.bereaved x).drop n, (t.agent a).owed = true
        ∧ ((s.agent a).owed = false → .agentState a ∈ (t.port (portOf (other x))).owed)
  conditions : ∀ g, (t.group g).queue ≠ (s.group g).queue →
    (t.group g).conditions = { depth := t.depthHolds g, wait := t.waitHolds g, noStaff := t.noStaffHolds g }
  swapped : ∀ g, (s.group g).swapPending = true → (t.group g).swapPending = false →
    (t.group g).conditions.depth = t.depthHolds g ∧ (t.group g).conditions.wait = t.waitHolds g
  staffing : ∀ g, (t.group g).staffed ≠ (s.group g).staffed → (t.group g).conditions.noStaff = t.noStaffHolds g
  flags : FlagsFollow s t
  /-- The freeing of OFFERED calls together with their agents does not by itself meet NO_STAFF (R27, R49). -/
  offered : ∀ g, (∀ c, ¬(Withdrawn s x c ∧ s.keepsPlace x c = false)) → (s.group g).conditions.noStaff = false →
    (∀ c ∈ (s.group g).queue, ∃ r a, s.call c = some r ∧ r.owner = x ∧ r.state = .offered ∧ r.boundAgent = some a
      ∧ (s.agent a).staffs g = true) →
    (t.group g).conditions.noStaff = false ∧ (t.group g).flags.noStaff = (s.group g).flags.noStaff

/-! ### Legal states -/

/-- A parameter set within the ranges of R30. -/
def Params.legal (p : Params) : Bool :=
  let within := fun low high x : Nat => decide (low ≤ x) && decide (x ≤ high)
  let offOr := fun low high x : Nat => x == 0 || within low high x
  decide (p.wrapTime ≤ 900) && decide (p.wrapTime ≤ p.wrapCap) && within 5 300 p.extStep && decide (p.extLimit ≤ 3)
    && decide (p.wrapCap ≤ 1800) && within 4 60 p.ringTimeout && within 1 7 p.noAnswerLimit && within 1 15 p.weight
    && decide (p.priorityStep ≤ 255) && within 1 1024 p.maxDepth && offOr 10 3600 p.overflowWait && decide (p.firstDelay ≤ 120)
    && offOr 15 600 p.interval && within 1 6 p.shift && decide (p.depthThreshold ≤ 1024) && offOr 5 3600 p.waitObjective

/-- A skill list as R2 admits it: 0 to 8 skills, levels 1–9, no group twice. -/
def skillsLegal (l : List Skill) : Bool :=
  decide (l.length ≤ 8) && l.all (fun k => decide (1 ≤ k.level) && decide (k.level ≤ 9)) && decide (l.map Skill.group).Nodup

/-- A present segment lies within the sample RAM, and an empty one starts at 0 (R142). -/
def SegmentRec.legal (e : SegmentRec) : Bool :=
  if e.length = 0 then e.start == 0 else decide (e.start + e.length ≤ Config.ramBytes)

/-- The stores (R141, R142, R147): the sample RAM is in canonical form, every segment is legal, no program has more than 32 steps. -/
structure StoreLegal (s : State) : Prop where
  ram : Memory.wf s.ram = true
  segments : ∀ k, (s.segment k).legal = true
  programs : ∀ p, (s.programSteps p).length ≤ 32

/-- The ports (R187): at most 64 notices, and 64 of them while a pair is owed. -/
structure PortsLegal (s : State) : Prop where
  bounded : ∀ p, (s.port p).notices.length ≤ Config.noticeCapacity
  owed : ∀ p, (s.port p).owed ≠ [] → (s.port p).notices.length = Config.noticeCapacity

/-- The group records (R30, R129): both parameter sets in range, no group its own overflow target, the average UNSET or 16–65520. -/
structure GroupsLegal (s : State) : Prop where
  active : ∀ g, (s.group g).active.legal = true ∧ (s.group g).active.overflowTarget ≠ some g
  staged : ∀ g, (s.group g).staged.legal = true ∧ (s.group g).staged.overflowTarget ≠ some g
  average : ∀ g a, (s.group g).average = some a → 16 ≤ a ∧ a ≤ 65520

/-- The call and agent records and the tie-break registers (R2, R53, R54, R69, R74). -/
structure RecordsLegal (s : State) : Prop where
  hops : ∀ c r, s.call c = some r → r.hops ≤ 3
  noAnswers : ∀ c r, s.call c = some r → r.noAnswers ≤ 7
  priority : ∀ c r, s.call c = some r → r.priority ≤ 7
  tags : ∀ c d r q, s.call c = some r → s.call d = some q → r.owner = q.owner → r.tag = q.tag → c = d
  skills : ∀ a, skillsLegal (s.agent a).skills = true
  seed : s.seed ≠ 0
  taps : s.taps ≠ 0
  generator : s.generator ≠ 0

/-- The owed lists and the owed flags agree (R187): each pair stands at most once on a list, and a record's owed flag is set exactly
while its pair is on the list of its port. -/
structure OwedLegal (s : State) : Prop where
  once : ∀ p, (s.port p).owed.Nodup
  agents : ∀ p a, OwedPair.agentState a ∈ (s.port p).owed ↔ (s.agent a).owed = true ∧ p = portOf (s.agent a).home
  calls : ∀ p c k, OwedPair.call c k ∈ (s.port p).owed ↔ ∃ r, s.call c = some r ∧ p = portOf r.owner ∧
    (match k with | .listen => r.owedListen | .connect => r.owedConnect | .cleared => r.owedCleared) = true
  watch : ∀ p, OwedPair.watch ∈ (s.port p).owed ↔ s.device.watchOwed = true ∧ p = .s

/-- The call is a member of its group's queue: QUEUED or OFFERED (R57). -/
def CallRec.waits (r : CallRec) : Prop := r.state = .queued ∨ r.state = .offered

/-- Calls and agents are bound both ways, each OFFERED or each CONNECTED, and no others are; a ring timer runs for an OFFERED call
alone (R4, R94). -/
structure BindingsLegal (s : State) : Prop where
  both : ∀ a c, (s.agent a).boundCall = some c ↔ ∃ r, s.call c = some r ∧ r.boundAgent = some a
  agents : ∀ a, (s.agent a).boundCall ≠ none ↔ (s.agent a).state = .offered ∨ (s.agent a).state = .connected
  calls : ∀ c r, s.call c = some r → (r.boundAgent ≠ none ↔ r.state = .offered ∨ r.state = .connected)
  states : ∀ c r a, s.call c = some r → r.boundAgent = some a → (r.state = .offered ↔ (s.agent a).state = .offered)
  ring : ∀ c r, s.call c = some r → (r.ring ≠ none ↔ r.state = .offered)

/-- Every group's queue holds the QUEUED and OFFERED calls of the group, each once, in the order of their keys and then of their sequence
numbers (R57); no two calls have one sequence number, and none the counter's (R56; log entry 25). -/
structure QueuesLegal (s : State) : Prop where
  members : ∀ g c, c ∈ (s.group g).queue ↔ ∃ r, s.call c = some r ∧ r.group = g ∧ r.waits
  once : ∀ g, (s.group g).queue.Nodup
  order : ∀ g, (s.group g).queue.Pairwise fun c d =>
    ∀ r q, s.call c = some r → s.call d = some q → r.key < q.key ∨ (r.key = q.key ∧ r.seq < q.seq)
  numbers : ∀ c d r q, s.call c = some r → s.call d = some q → r.seq = q.seq → c = d
  counter : ∀ c r, s.call c = some r → r.seq ≠ s.seqCounter

/-- The counts that the records keep are the counts of what they count: offers in progress, which a group that waits for its quiet point
has (R34, R35); the staffed count (R133); the channels that play a segment, none of them in a fill (R143, R156); the listeners of a
source (R160). -/
structure CountsLegal (s : State) : Prop where
  offers : ∀ g, (s.group g).offers =
    ((List.finRange 1024).filter fun c => (s.call c).any fun r => r.group == g && r.state == .offered).length
  swap : ∀ g, (s.group g).swapPending = true → (s.group g).offers ≠ 0
  staffed : ∀ g, (s.group g).staffed =
    ((List.finRange 512).filter fun a => (s.agent a).staffs g).length
  segments : ∀ k, (s.segment k).inUse =
    ((List.finRange 24).filter fun h => (s.runOf h).any fun r => r.segment == some k).length
  fills : ∀ h r, s.runOf h = some r → r.fill ≠ none → r.segment = none
  listeners : ∀ m, (s.source m).listeners =
    ((List.finRange 1024).filter fun c => (s.call c).any fun r => r.listen == .music m).length

/-- What the callers hear (R96, R167 to R169, R173): the on-wait-list flag goes with an entry of the list, which holds QUEUED and OFFERED
calls, each once, in the order of their due seconds and then of their sequence numbers; a call listens to a channel exactly while the
channel is BUSY for it; a call on the list or on a channel has no announcement due; a call that has left its queue hears and is due
nothing. -/
structure HearingLegal (s : State) : Prop where
  flags : ∀ c r, s.call c = some r → (r.onWaitList = true ↔ ∃ e ∈ s.waitList, e.call = c)
  entries : ∀ e ∈ s.waitList, ∃ r, s.call e.call = some r ∧ r.waits ∧ r.nextDue = none ∧ ∀ j, r.listen ≠ .announce j
  once : (s.waitList.map WaitEntry.call).Nodup
  order : s.waitList.Pairwise fun e f =>
    e.due < f.due ∨ (e.due = f.due ∧ ∀ r q, s.call e.call = some r → s.call f.call = some q → r.seq < q.seq)
  channels : ∀ c r j, s.call c = some r → (r.listen = .announce j ↔ ∃ b, s.channel j = some b ∧ b.call = c)
  served : ∀ j b, s.channel j = some b → s.call b.call ≠ none
  dues : ∀ c r j, s.call c = some r → r.listen = .announce j → r.nextDue = none
  away : ∀ c r, s.call c = some r → ¬r.waits → r.listen = .silent ∧ r.nextDue = none

/-- The records agree with one another: the rules that the manual lays down for the machine as a whole (R4, R34, R56, R57, R94, R133, R143,
R160, R168, R169). -/
structure LinksLegal (s : State) : Prop where
  bindings : BindingsLegal s
  queues : QueuesLegal s
  counts : CountsLegal s
  hearing : HearingLegal s

/-- No two highway channels are mapped to one timeslot (R175). -/
def SlotsApart (s : State) : Prop := ∀ h k, h ≠ k → s.slotOf h ≠ none → s.slotOf h ≠ s.slotOf k

end Machine

end Sys2Proof
end

