-- ==== Sys2Proof/Certificates/Slice0/Obligations.lean ====
section
/-! DEFINITION. The statements for the provers, in the order of OBLIGATIONS.json. -/
open Sys2Proof Sys2Proof.Machine

/-! ### The step and the queue of commands -/

/-- A step carries out the command at the front of the queue on the state with the queue's rest; with no command waiting the part idles.
The queue and the idling are the model's choices (log entries 22, 3). -/
def Obligations.StepRunsTheFrontCommand : Prop :=
  (∀ (c : Instr) (rest : List Instr) (s : State), step { s with pending := c :: rest } = exec c { s with pending := rest })
  ∧ ∀ s : State, s.pending = [] → step s = .next s

/-! ### Reset -/

/-- POWER_ON_RESET takes the part to its power-on values from any state, and the state that the model starts from holds them, with an empty
queue of commands. The levels on the input pins, the queue of commands and the counter of free values stay at the reset: the model's
choices (log entries 14, 20). -/
def Obligations.PowerOnResetGivesThePowerOnValues : Prop :=
  (∀ s : State, ∃ t : State,
    exec .powerOnReset s = .next t ∧ PowerOnValues t ∧ (∀ l, (t.line l).input = (s.line l).input) ∧ t.free = s.free
      ∧ t.pending = s.pending)
  ∧ PowerOnValues State.reset ∧ State.reset.pending = []

/-! ### Wraps that are due -/

/-- A wrap whose end has been reached has ended before any command but WRAP_EXPIRY and POWER_ON_RESET is taken (R119, R120): the command
acts as after the WRAP_EXPIRY of each agent concerned, where the agent has reached the state that its pending change gives and every
other agent is as it was. An announcement that is due has been taken besides before any of these but ANNOUNCEMENT_DUE (R167): the
command acts as after the ANNOUNCEMENT_DUE of each call concerned. That the ends come first, in ascending order of agent, and then the
announcements, in ascending order of call, is the model's reading (log entry 4). -/
def Obligations.DueWrapsEndBeforeACommand : Prop :=
  ∀ (s : State) (c : Instr),
    c ≠ .powerOnReset → (∀ a, c ≠ .wrapExpiry a) →
      let u := s.wrapsEnded
      exec c s = exec c u ∧ WrapsOver u
        ∧ (∃ l : List AgentSlot, l.Pairwise (· < ·)
          ∧ (∀ a, a ∈ l ↔ (s.agent a).state = .wrap ∧ (s.agent a).wrap.finish ≤ s.clock)
          ∧ InTurn (l.map Instr.wrapExpiry) s u)
        ∧ (∀ a, ¬((s.agent a).state = .wrap ∧ (s.agent a).wrap.finish ≤ s.clock) → u.agent a = s.agent a)
        ∧ (∀ a, (s.agent a).state = .wrap → (s.agent a).wrap.finish ≤ s.clock →
            ∃ owed, u.agent a = { (s.agent a).afterPending s.clock with owed := owed })
        ∧ ((∀ d, c ≠ .announcementDue d) →
            exec c s = exec c s.settled ∧ Calm s.settled ∧ s.settled.agents = u.agents
              ∧ ∃ l : List CallSlot, l.Pairwise (· < ·)
                ∧ (∀ d, d ∈ l ↔ ∃ r due, u.call d = some r ∧ r.nextDue = some due ∧ due ≤ u.clock)
                ∧ InTurn (l.map Instr.announcementDue) u s.settled)

/-! ### Request records (R181 to R185, R196, R197) -/

/-- The kinds, their codes and their lengths as R197's table gives them, for the kinds of fixed length, and the lengths that follow from a
count or a port. No other code is a kind's. Each kind is permitted on the ports that R182's table gives it. The enumerations are encoded
as R197 and R200 have them, numbers run from the most significant byte, and shelf A has port A and code 0, shelf B port B and code 1. -/
def Obligations.KindsAndLengthsFollowTheTable : Prop :=
  (∀ e ∈ [(0x10, Kind.agentRead, 2), (0x11, .signIn, 2), (0x12, .ready, 2), (0x13, .aux, 3), (0x14, .signOut, 2),
      (0x15, .wrapExtend, 2), (0x16, .wrapEnd, 2), (0x17, .agentAnswer, 5), (0x18, .agentNoAnswer, 5), (0x19, .agentHangup, 5),
      (0x1B, .forceAux, 3), (0x1C, .forceSignOut, 2), (0x20, .groupRead, 1), (0x21, .groupStage, 31), (0x22, .groupSwap, 1),
      (0x23, .groupOpen, 1), (0x24, .groupClose, 1), (0x25, .groupStats, 1), (0x26, .groupWatchMask, 2), (0x27, .lineMode, 2),
      (0x28, .lineRead, 1), (0x30, .callArrive, 4), (0x31, .callRelease, 2), (0x38, .tiebreakSet, 4), (0x39, .tiebreakRead, 0)]
      ++ [(0x41, Kind.storeRead, 6), (0x42, .segmentLoad, 9), (0x43, .segmentRead, 1), (0x45, .programRead, 1),
      (0x46, .vocabLoad, 3), (0x47, .vocabRead, 1), (0x50, .sourceRead, 1), (0x51, .sourceSet, 2), (0x52, .sourceLimit, 2),
      (0x53, .channelRead, 1), (0x54, .slotMap, 3), (0x55, .slotRead, 0), (0x56, .idleByteSet, 1), (0x60, .fetch, 0),
      (0x61, .watchRead, 0), (0x62, .watchClear, 3), (0x63, .watchMask, 1), (0x64, .purgeShelf, 1), (0x65, .restart, 0),
      (0x66, .purge, 0)],
    Kind.ofCode (BitVec.ofNat 8 e.1) = some e.2.1 ∧ ∀ p ps, lengthOk e.2.1 p ps = true ↔ ps.length = e.2.2)
  ∧ Kind.ofCode 0x1A = some .agentDefine ∧ (∀ p ps, lengthOk .agentDefine p ps = true ↔ ps.length = 5 + 2 * u8 ps 4)
  ∧ Kind.ofCode 0x32 = some .callRead ∧ (∀ p ps, lengthOk .callRead p ps = true ↔ ps.length = if p = .s then 3 else 2)
  ∧ Kind.ofCode 0x40 = some .storeWrite ∧ (∀ p ps, lengthOk .storeWrite p ps = true ↔ 5 ≤ ps.length ∧ ps.length ≤ 260)
  ∧ Kind.ofCode 0x44 = some .programLoad ∧ (∀ p ps, lengthOk .programLoad p ps = true ↔ ps.length = 2 + 2 * u8 ps 1)
  ∧ (∀ b : Byte, Kind.ofCode b ≠ none ↔
      ∃ range ∈ [(0x10, 0x1C), (0x20, 0x28), (0x30, 0x32), (0x38, 0x39), (0x40, 0x47), (0x50, 0x56), (0x60, 0x66)],
        range.1 ≤ b.toNat ∧ b.toNat ≤ range.2)
  ∧ (∀ (k : Kind) (p : Port), permitted k p = true ↔
      k ∈ [Kind.agentRead, .signIn, .ready, .aux, .signOut, .wrapExtend, .wrapEnd, .agentAnswer, .agentNoAnswer, .agentHangup,
        .groupRead, .lineRead, .callRead, .sourceRead, .fetch]
      ∨ (k ∈ [Kind.agentDefine, .forceAux, .forceSignOut, .groupStage, .groupSwap, .groupOpen, .groupClose, .groupStats,
        .groupWatchMask, .lineMode, .tiebreakSet, .tiebreakRead, .storeWrite, .storeRead, .segmentLoad, .segmentRead, .programLoad,
        .programRead, .vocabLoad, .vocabRead, .sourceSet, .sourceLimit, .channelRead, .slotMap, .slotRead, .idleByteSet, .watchRead,
        .watchClear, .watchMask, .purgeShelf, .restart] ∧ p = .s)
      ∨ (k ∈ [Kind.callArrive, .callRelease, .purge] ∧ p ≠ .s))
  ∧ (∀ (ps : List Byte) (i : Nat), u8 ps i = (ps.getD i 0).toNat ∧ u16 ps i = 256 * u8 ps i + u8 ps (i + 1)
      ∧ u32 ps i = 65536 * u16 ps i + u16 ps (i + 2))
  ∧ (∀ (n : Nat) (x : Shelf), shelfOfByte n = some x ↔ (n = 0 ∧ x = .a) ∨ (n = 1 ∧ x = .b))
  ∧ (portOf .a = .a ∧ portOf .b = .b ∧ ∀ (p : Port) (x : Shelf), shelfOf p = some x ↔ p = portOf x)
  ∧ (∀ e ∈ [(0, AgentState.signedOut), (1, .aux), (2, .ready), (3, .offered), (4, .connected), (5, .wrap)], e.2.code = e.1)
  ∧ (∀ e ∈ [(0, CallState.queued), (1, .offered), (2, .connected), (3, .clearing)], e.2.code = e.1)
  ∧ (∀ e ∈ [(1, StepKind.play), (2, .silence), (3, .sayPosition), (4, .sayWait), (5, .mark), (6, .again), (7, .finish)],
      e.2.code = e.1)
  ∧ (∀ e ∈ [(0, NoAnswerAction.aux), (1, .ready)], e.2.code = e.1)
  ∧ ∀ e ∈ [(0, Policy.longestIdle), (1, .highestLevel), (2, .leastCalls)], e.2.code = e.1

/-- A record of a known kind that is not the frame of parameters of its kind's length, or whose kind is not permitted on the port, and a
record whose kind byte is none of R197's or that ends before it, are answered BAD_REQUEST by the port and change nothing else
(R182, R197). UNKNOWN_REQUEST_KIND with a record of a known kind, which is another command, has no effect: the model's choice (log entry
21). -/
def Obligations.IllFormedForbiddenAndUnknownRecordsAreBadRequests : Prop :=
  ∀ (p : Port) (s : State), Calm s → (s.port p).slot = .idle →
    (∀ (k : Kind) (body : List Byte),
      (∀ ps, body = frame ps → ¬(lengthOk k p ps = true ∧ permitted k p = true)) →
        exec (k.command p body) s = .next (s.answered p body .badRequest []))
    ∧ ∀ record : List Byte,
      (unknownKind record = true ↔ record = [] ∨ ∃ b rest, record = b :: rest ∧ Kind.ofCode b = none)
      ∧ (unknownKind record = true →
        exec (.unknownRequestKind p record) s =
          .next (s.setPort p
            { s.port p with
              slot := .responseReady, rejected := false, response := [0x10, 0, 0],
              shifted := s.statusByte p :: List.replicate record.length 0 }))
      ∧ (unknownKind record = false → exec (.unknownRequestKind p record) s = .next s)

/-- A record written while the slot is BUSY or RESPONSE_READY is discarded and sets the rejected flag, whatever its kind; nothing else
changes but what the port shifts out (R183, R196). With the slot IDLE the event REQUEST_REJECTED has not come about and has no
effect: the model's choice (log entry 2). -/
def Obligations.RecordIsRejectedWhileTheSlotIsTaken : Prop :=
  ∀ (p : Port) (s : State), Calm s →
    ((s.port p).slot ≠ .idle →
      (∀ (k : Kind) (body : List Byte), exec (k.command p body) s = .next (s.rejectedRecord p (1 + body.length)))
      ∧ (∀ record, exec (.requestRejected p record) s = .next (s.rejectedRecord p record.length))
      ∧ (∀ record, unknownKind record = true →
          exec (.unknownRequestKind p record) s = .next (s.rejectedRecord p record.length)))
    ∧ ((s.port p).slot = .idle → ∀ record, exec (.requestRejected p record) s = .next s)

/-- A transaction of the type 0x03, the response read (R184, R196). It shifts out the status byte first. In RESPONSE_READY the response
follows: read to its last byte, it empties the buffer and makes the slot IDLE; ended before, it leaves both. In IDLE and BUSY zeros
follow and nothing changes. Bytes clocked after the last are free values (log entry 8): the statement holds for any such bytes. Of any
other type but a request write's the transaction is a status read: the status byte and zeros. That the row RESPONSE_READ stands for
status reads too, and that without a type byte or with a request write's it has no effect, is the model's choice (log entry 23). -/
def Obligations.ResponseReadEmptiesTheBufferAtItsEnd : Prop :=
  ∀ (p : Port) (fill : List Byte) (s : State), Calm s →
    let n := fill.length
    ((s.port p).slot = .responseReady → n < (s.port p).response.length →
      exec (.responseRead p (0x03 :: fill)) s =
        .next (s.setPort p { s.port p with shifted := s.statusByte p :: (s.port p).response.take n }))
    ∧ ((s.port p).slot = .responseReady → (s.port p).response.length ≤ n →
      ∃ extra : List Byte, extra.length = n - (s.port p).response.length ∧
        exec (.responseRead p (0x03 :: fill)) s =
          .next ((s.setPort p
            { s.port p with
              slot := .idle, response := [], shifted := s.statusByte p :: ((s.port p).response ++ extra) }).draw extra.length))
    ∧ ((s.port p).slot ≠ .responseReady →
      exec (.responseRead p (0x03 :: fill)) s =
        .next (s.setPort p { s.port p with shifted := s.statusByte p :: List.replicate n 0 }))
    ∧ (∀ type : Byte, type ≠ 0x02 → type ≠ 0x03 →
      exec (.responseRead p (type :: fill)) s =
        .next (s.setPort p { s.port p with shifted := s.statusByte p :: List.replicate n 0 }))
    ∧ exec (.responseRead p (0x02 :: fill)) s = .next s ∧ exec (.responseRead p []) s = .next s

/-- The status byte: bit 7 while a response waits, bit 6 the rejected flag, bits 5–0 the notice count, 0 for 64 (R185, R196). -/
def Obligations.StatusByteShowsReadyRejectedAndCount : Prop :=
  ∀ (s : State) (p : Port), (s.port p).notices.length ≤ Config.noticeCapacity →
    (s.statusByte p).getLsbD 7 = decide ((s.port p).slot = .responseReady)
    ∧ (s.statusByte p).getLsbD 6 = (s.port p).rejected
    ∧ ((s.statusByte p).toNat % 64 = if (s.port p).notices.length = Config.noticeCapacity then 0 else (s.port p).notices.length)

/-- A request that passes the port's checks is taken and answered in the same step: the slot is RESPONSE_READY, the rejected flag clear,
the status byte and zeros have been shifted out, and the transaction side of the other ports is as it was (R181, R183, R196). That the
taking and the answer are one step, so that no slot is left BUSY, is the model's reading (log entry 1). A request's record carries its
length in two bytes, and a response record its result's code and the length of its content, of which no result but OK, OK_CLAMPED
and PENDING has any (R197, R201). -/
def Obligations.TakenRequestIsAnsweredOnItsPort : Prop :=
  (∀ ps : List Byte, frame ps = BitVec.ofNat 8 (ps.length / 256) :: BitVec.ofNat 8 ps.length :: ps)
  ∧ (∀ e ∈ [(0x00, Result.ok), (0x01, .okClamped), (0x02, .pending), (0x03, .empty), (0x04, .late), (0x05, .noCall),
      (0x10, .badRequest), (0x11, .badParam), (0x12, .badGroup), (0x13, .badState), (0x14, .noAgent), (0x15, .notHome),
      (0x16, .already), (0x17, .busy), (0x18, .limit), (0x19, .unknownCall), (0x1A, .duplicate), (0x1B, .closed),
      (0x1C, .callsFull), (0x1D, .queueFull)],
    ∀ content, responseRecord e.2 content = BitVec.ofNat 8 e.1 :: if e.1 ≤ 2 then frame content else [0, 0])
  ∧ ∀ (s : State) (k : Kind) (p : Port) (ps : List Byte), Takes s k p ps →
    ∃ t r content, exec (k.command p (frame ps)) s = .next t ∧ Answered t p r content
      ∧ (t.port p).shifted = s.statusByte p :: List.replicate (3 + ps.length) 0 ∧ OtherSlots s t p

/-! ### Reads (R7, R33, R42, R63, R89, R145 to R148, R157, R165, R174, R175, R193, R197, R198) -/

/-- AGENT_READ answers the agent record in R198's layout and changes nothing else; an undefined agent is read too. -/
def Obligations.AgentReadReturnsTheAgentRecord : Prop :=
  ∀ (s : State) (p : Port) (ps : List Byte), Takes s .agentRead p ps →
    (512 ≤ u16 ps 0 → exec (.agentRead p (frame ps)) s = .next (s.answered p (frame ps) .noAgent []))
    ∧ ∀ a : AgentSlot, u16 ps 0 = a.val →
      let r := s.agent a
      ∃ c : List Byte, exec (.agentRead p (frame ps)) s = .next (s.answered p (frame ps) .ok c)
        ∧ c.length = 39 + 2 * r.skills.length
        ∧ FieldsAt c
            [(0, 2, a.val), (2, 1, bitsNumber [r.defined, r.owed]), (3, 1, shelfNumber (some r.home)), (4, 1, r.state.code),
              (5, 1, r.auxReason),
              (6, 1, match r.pending with | .none => 0 | .aux _ => 1 | .signOut => 2 | .signOutPurge => 3),
              (7, 1, match r.pending with | .aux reason => reason | _ => 0),
              (8, 4, r.idleSince), (12, 2, slotNumber r.boundCall),
              (14, 1, shelfNumber ((r.boundCall.bind s.call).map CallRec.owner)),
              (15, 2, ((r.boundCall.bind s.call).map fun k => k.tag.toNat).getD 0), (17, 4, r.wrap.start),
              (21, 2, if r.state = .wrap then r.wrap.finish - s.clock else 0), (23, 1, r.wrap.extensions),
              (24, 1, codeNumber (if r.state = .wrap then some r.wrap.group else none)), (25, 2, r.wrap.cap),
              (27, 4, r.wrap.talk), (31, 1, match r.wrap.mark with | .keep => 0 | .drop => 1), (32, 2, r.callsHandled),
              (34, 4, r.answerStart), (38, 1, r.skills.length)]
        ∧ FieldsAt c (skillTable 39 r.skills)

/-- GROUP_READ answers the group record in R198's layout, with the queue length, the oldest group-entry age and the closed state as
they stand, and changes nothing else. A group is held by the service line that its active set names while that is active by its mode,
its seen level and its latch (R41), and is closed while it is so held or its supervisor-closed flag is set (R38). -/
def Obligations.GroupReadReturnsTheGroupRecord : Prop :=
  (∀ (s : State) (g : Group),
    (s.heldByLine g = true ↔ ∃ l : LineNo, (s.group g).active.line = some l ∧
      match (s.line l).mode with
      | .off => False
      | .levelHigh => (s.line l).seen = true
      | .levelLow => (s.line l).seen = false
      | .toggleRise | .toggleFall => (s.line l).latch = true)
    ∧ (s.closed g = true ↔ (s.group g).supervisorClosed = true ∨ s.heldByLine g = true))
  ∧ ∀ (s : State) (p : Port) (ps : List Byte), Takes s .groupRead p ps →
    (64 ≤ u8 ps 0 → exec (.groupRead p (frame ps)) s = .next (s.answered p (frame ps) .badGroup []))
    ∧ ∀ g : Group, u8 ps 0 = g.val →
      let r := s.group g
      ∃ c : List Byte, exec (.groupRead p (frame ps)) s = .next (s.answered p (frame ps) .ok c) ∧ c.length = 87
        ∧ FieldsAt c
            [(0, 1, g.val), (1, 1, bitsNumber [r.swapPending, r.supervisorClosed, s.closed g, s.heldByLine g]), (2, 2, r.offers)]
        ∧ FieldsAt c (paramTable 4 r.active) ∧ FieldsAt c (paramTable 34 r.staged)
        ∧ FieldsAt c
            [(64, 2, r.queue.length), (66, 4, s.longestWait g), (70, 2, r.staffed), (72, 2, r.average.getD 0),
              (74, 2, r.stats.answered), (76, 2, r.stats.abandoned), (78, 2, r.stats.overflowedOut),
              (80, 2, r.stats.overflowedIn), (82, 2, r.stats.purged),
              (84, 1, bitsNumber [r.flags.depth, r.flags.wait, r.flags.noStaff]),
              (85, 1, bitsNumber [r.masks.depth, r.masks.wait, r.masks.noStaff]),
              (86, 1, bitsNumber [r.conditions.depth, r.conditions.wait, r.conditions.noStaff])]

/-- CALL_READ seeks the tag among the calls of the requesting shelf, or from port S among those of the shelf it names, and answers the
call record in R198's layout; a tag not found is UNKNOWN_CALL, a shelf byte other than 0 and 1 BAD_PARAM. It changes nothing else. That
the remaining ring seconds read as 0 once the expiry second is reached is the model's choice (log entry 33). -/
def Obligations.CallReadReturnsTheCallRecord : Prop :=
  ∀ (s : State) (p : Port) (ps : List Byte), Takes s .callRead p ps →
    (p = .s → shelfOfByte (u8 ps 0) = none → exec (.callRead p (frame ps)) s = .next (s.answered p (frame ps) .badParam []))
    ∧ ∀ (x : Shelf) (t : Tag),
      ((∃ y, shelfOf p = some y) → shelfOf p = some x ∧ t.toNat = u16 ps 0) →
      (p = .s → shelfOfByte (u8 ps 0) = some x ∧ t.toNat = u16 ps 1) →
        ((∀ c r, s.call c = some r → ¬(r.owner = x ∧ r.tag = t)) →
          exec (.callRead p (frame ps)) s = .next (s.answered p (frame ps) .unknownCall []))
        ∧ ∀ (c : CallSlot) (r : CallRec), s.call c = some r → r.owner = x → r.tag = t →
          (∀ d q, s.call d = some q → q.owner = x → q.tag = t → d = c) →
          ∃ b : List Byte, exec (.callRead p (frame ps)) s = .next (s.answered p (frame ps) .ok b) ∧ b.length = 54
            ∧ FieldsAt b
                [(0, 2, c.val), (2, 1, shelfNumber (some r.owner)), (3, 2, r.tag.toNat), (5, 1, r.state.code), (6, 1, r.group.val),
                  (7, 1, r.priority), (8, 4, r.arrival), (12, 4, r.seq), (16, 4, r.entry), (20, 8, (BitVec.ofInt 64 r.key).toNat),
                  (28, 4, r.overflowDue.getD 0), (32, 1, r.hops), (33, 1, r.noAnswers), (34, 2, slotNumber r.lastRefused)]
            ∧ FieldsAt b
                [(36, 1, bitsNumber [r.pendingOverflow, r.onWaitList, r.owedListen, r.owedConnect, r.owedCleared,
                    r.overflowDue.isSome, r.nextDue.isSome]),
                  (37, 2, slotNumber r.boundAgent), (39, 1, shelfNumber (r.boundAgent.map fun a => (s.agent a).home)),
                  (40, 1, match r.listen with | .silent => 0x00 | .music m => 0x10 + m.val | .announce j => 0x20 + j.val),
                  (41, 4, r.nextDue.getD 0), (45, 4, r.talkStart),
                  (49, 2, if c ∈ (s.group r.group).queue then (s.group r.group).queue.idxOf c + 1 else 0),
                  (51, 2, (s.group r.group).queue.length), (53, 1, (r.ring.map fun e => e - s.clock).getD 0)]

/-- STORE_READ answers the bytes of the sample RAM from its start address upward, SEGMENT_READ a segment entry, PROGRAM_READ a program
and VOCAB_READ a vocabulary entry; each changes nothing else, and a number out of its range is BAD_PARAM. -/
def Obligations.StoreReadsReturnWhatTheStoreHolds : Prop :=
  ∀ (s : State) (p : Port) (ps : List Byte),
    (Takes s .storeRead p ps →
      (u16 ps 4 = 0 ∨ 256 < u16 ps 4 ∨ 4194304 < u32 ps 0 + u16 ps 4 →
        exec (.storeRead p (frame ps)) s = .next (s.answered p (frame ps) .badParam []))
      ∧ (1 ≤ u16 ps 4 → u16 ps 4 ≤ 256 → u32 ps 0 + u16 ps 4 ≤ 4194304 →
        ∃ c : List Byte, exec (.storeRead p (frame ps)) s = .next (s.answered p (frame ps) .ok c) ∧ c.length = u16 ps 4
          ∧ ∀ i, i < u16 ps 4 → c.getD i 0 = Memory.read s.ram (u32 ps 0 + i)))
    ∧ (Takes s .segmentRead p ps →
      (240 ≤ u8 ps 0 → exec (.segmentRead p (frame ps)) s = .next (s.answered p (frame ps) .badParam []))
      ∧ ∀ k : SegmentCode, u8 ps 0 = k.val →
        ∃ c : List Byte, exec (.segmentRead p (frame ps)) s = .next (s.answered p (frame ps) .ok c) ∧ c.length = 9
          ∧ FieldsAt c [(0, 4, (s.segment k).start), (4, 4, (s.segment k).length), (8, 1, (s.segment k).inUse)])
    ∧ (Takes s .programRead p ps →
      (64 ≤ u8 ps 0 → exec (.programRead p (frame ps)) s = .next (s.answered p (frame ps) .badParam []))
      ∧ ∀ n : ProgramNo, u8 ps 0 = n.val →
        ∃ c : List Byte, exec (.programRead p (frame ps)) s = .next (s.answered p (frame ps) .ok c)
          ∧ c.length = 1 + 2 * (s.programSteps n).length ∧ FieldAt c 0 1 (s.programSteps n).length
          ∧ FieldsAt c (stepTable 1 (s.programSteps n)))
    ∧ (Takes s .vocabRead p ps →
      (29 ≤ u8 ps 0 → exec (.vocabRead p (frame ps)) s = .next (s.answered p (frame ps) .badParam []))
      ∧ ∀ v : VocabNo, u8 ps 0 = v.val →
        ∃ c : List Byte, exec (.vocabRead p (frame ps)) s = .next (s.answered p (frame ps) .ok c) ∧ c.length = 2
          ∧ FieldAt c 0 2 (match s.vocabEntry v with | some code => code.toNat | none => 0xFFFF))

/-- SOURCE_READ, CHANNEL_READ and LINE_READ answer the source, the channel and the line in R198's and R197's layouts, SLOT_READ the slot
map with the idle modes and the idle byte, WATCH_READ the device flags, masks and STARVED condition and the flags of every group;
each changes nothing else, and a number out of range is BAD_PARAM. That the program of a FREE channel reads as 0, that the
latch, active and STARVED condition bytes are 1 or 0, and what a position reads between a step's last byte and its completion, is the
model's choice (log entries 16, 32, 29). -/
def Obligations.PlayoutLineAndWatchReadsReturnTheirRecords : Prop :=
  ∀ (s : State) (p : Port) (ps : List Byte),
    (Takes s .sourceRead p ps →
      (8 ≤ u8 ps 0 → exec (.sourceRead p (frame ps)) s = .next (s.answered p (frame ps) .badParam []))
      ∧ ∀ m : SourceNo, u8 ps 0 = m.val →
        let q := s.source m
        ∃ c : List Byte, exec (.sourceRead p (frame ps)) s = .next (s.answered p (frame ps) .ok c) ∧ c.length = 17
          ∧ FieldsAt c
              [(0, 1, m.val), (1, 1, codeNumber q.current),
                (2, 1, match q.staged with | .empty => 0xFE | .value n => codeNumber n), (3, 1, bitsNumber [q.run.isSome]),
                (4, 1, (q.run.map Run.step).getD 0), (5, 4, (q.run.map Run.position).getD 0), (9, 2, q.listeners),
                (11, 1, q.idlePasses), (12, 1, q.idleLimit), (13, 1, codeNumber (s.slotOf (highwayOfSource m))),
                (14, 1, match s.modeOf (highwayOfSource m) with | .idleByte => 0 | .off => 1), (15, 2, 0)])
    ∧ (Takes s .channelRead p ps →
      (16 ≤ u8 ps 0 → exec (.channelRead p (frame ps)) s = .next (s.answered p (frame ps) .badParam []))
      ∧ ∀ j : ChannelNo, u8 ps 0 = j.val →
        ∃ c : List Byte, exec (.channelRead p (frame ps)) s = .next (s.answered p (frame ps) .ok c) ∧ c.length = 19
          ∧ (∀ b, s.channel j = some b →
              FieldsAt c [(0, 1, j.val), (1, 1, 1), (2, 2, b.call.val), (7, 1, b.run.program.val), (8, 1, b.run.step),
                (9, 4, b.run.position)]
              ∧ ∀ r, s.call b.call = some r → FieldsAt c [(4, 1, shelfNumber (some r.owner)), (5, 2, r.tag.toNat)])
          ∧ (s.channel j = none →
              FieldsAt c [(0, 1, j.val), (1, 1, 0), (2, 2, 0xFFFF), (4, 1, 0xFF), (5, 2, 0), (7, 1, 0), (8, 1, 0), (9, 4, 0)])
          ∧ FieldAt c 13 2 s.waitList.length
          ∧ (s.waitList = [] → FieldsAt c [(15, 2, 0xFFFF), (17, 2, 0)])
          ∧ ∀ e rest, s.waitList = e :: rest → FieldsAt c [(15, 2, e.call.val), (17, 2, s.clock - e.due)])
    ∧ (Takes s .lineRead p ps →
      (4 ≤ u8 ps 0 → exec (.lineRead p (frame ps)) s = .next (s.answered p (frame ps) .badParam []))
      ∧ ∀ l : LineNo, u8 ps 0 = l.val →
        let r := s.line l
        ∃ c : List Byte, exec (.lineRead p (frame ps)) s = .next (s.answered p (frame ps) .ok c) ∧ c.length = 4
          ∧ FieldsAt c
              [(0, 1, match r.mode with | .off => 0 | .levelHigh => 1 | .levelLow => 2 | .toggleRise => 3 | .toggleFall => 4),
                (1, 1, bitsNumber [r.seen]), (2, 1, bitsNumber [r.latch]),
                (3, 1, bitsNumber
                  [match r.mode with
                    | .off => false
                    | .levelHigh => r.seen
                    | .levelLow => !r.seen
                    | .toggleRise | .toggleFall => r.latch])])
    ∧ (Takes s .slotRead p ps →
      ∃ c : List Byte, exec (.slotRead p (frame ps)) s = .next (s.answered p (frame ps) .ok c) ∧ c.length = 49
        ∧ (∀ h : HighwayChannel,
            FieldsAt c
              [(2 * h.val, 1, codeNumber (s.slotOf h)),
                (2 * h.val + 1, 1, match s.modeOf h with | .idleByte => 0 | .off => 1)])
        ∧ FieldAt c 48 1 s.idleByte.toNat)
    ∧ (Takes s .watchRead p ps →
      ∃ c : List Byte, exec (.watchRead p (frame ps)) s = .next (s.answered p (frame ps) .ok c) ∧ c.length = 67
        ∧ FieldsAt c
            [(0, 1, bitsNumber [s.device.purgeDone, s.device.segmentFault, s.device.starved]),
              (1, 1, bitsNumber [false, s.device.maskSegmentFault, s.device.maskStarved]),
              (2, 1, bitsNumber [s.device.starvedCondition])]
        ∧ ∀ g : Group,
            FieldAt c (3 + g.val) 1
              (bitsNumber [(s.group g).flags.depth, (s.group g).flags.wait, (s.group g).flags.noStaff]))

/-! ### Agent requests (R8 to R20, R96, R98, R101, R104, R112 to R122) -/

/-- The checks 2 to 4 of R8, in their order: NO_AGENT, then NOT_HOME for every kind but the two forced ones, then BAD_PARAM for a reason
outside 1–14 and for a shelf other than A and B. A refused request changes nothing. -/
def Obligations.AgentRequestsAreCheckedInOrder : Prop :=
  ∀ (s : State) (k : Kind) (p : Port) (ps : List Byte), Takes s k p ps →
    k ∈ [Kind.signIn, .ready, .aux, .signOut, .forceAux, .forceSignOut, .wrapExtend, .wrapEnd, .agentAnswer, .agentNoAnswer,
      .agentHangup] →
    ((∀ a, ¬Names s ps a) → exec (k.command p (frame ps)) s = .next (s.answered p (frame ps) .noAgent []))
    ∧ ∀ a : AgentSlot, Names s ps a →
      (k ≠ .forceAux → k ≠ .forceSignOut → p ≠ portOf (s.agent a).home →
        exec (k.command p (frame ps)) s = .next (s.answered p (frame ps) .notHome []))
      ∧ (ActsOn s k p ps a → k = .aux ∨ k = .forceAux → u8 ps 2 = 0 ∨ 15 ≤ u8 ps 2 →
        exec (k.command p (frame ps)) s = .next (s.answered p (frame ps) .badParam []))
      ∧ (ActsOn s k p ps a → k = .agentAnswer ∨ k = .agentNoAnswer ∨ k = .agentHangup → 2 ≤ u8 ps 2 →
        exec (k.command p (frame ps)) s = .next (s.answered p (frame ps) .badParam []))

/-- SIGN_IN: a SIGNED_OUT agent becomes AUX with reason 0 and calls handled 0, with its notice; in any other state ALREADY. -/
def Obligations.SignInFromSignedOut : Prop :=
  ∀ (s : State) (p : Port) (ps : List Byte) (a : AgentSlot), Takes s .signIn p ps → ActsOn s .signIn p ps a →
    ((s.agent a).state = .signedOut →
      ∃ t, exec (.signIn p (frame ps)) s = .next t
        ∧ AgentAnswered s t p .ok [] a { (s.agent a).unbound .aux 0 0 with callsHandled := 0 })
    ∧ ((s.agent a).state ≠ .signedOut → exec (.signIn p (frame ps)) s = .next (s.answered p (frame ps) .already []))

/-- READY in each state of the agent. In WRAP it is WRAP_END. A pending sign-out marked by purge is refused (R19). -/
def Obligations.ReadyByState : Prop :=
  ∀ (s : State) (p : Port) (ps : List Byte) (a : AgentSlot), Takes s .ready p ps → ActsOn s .ready p ps a →
    ((s.agent a).state = .signedOut → exec (.ready p (frame ps)) s = .next (s.answered p (frame ps) .badState []))
    ∧ ((s.agent a).state = .aux →
      ∃ t, exec (.ready p (frame ps)) s = .next t
        ∧ AgentAnswered s t p .ok [2, 0] a ((s.agent a).unbound .ready 0 s.clock))
    ∧ ((s.agent a).state = .ready ∨ (s.agent a).state = .offered →
      ∃ c, c.length = 2 ∧ FieldsAt c [(0, 1, (s.agent a).state.code), (1, 1, (s.agent a).auxReason)]
        ∧ exec (.ready p (frame ps)) s = .next (s.answered p (frame ps) .ok c))
    ∧ ((s.agent a).state = .connected → (s.agent a).pending ≠ .signOutPurge →
      ∃ c, c.length = 2 ∧ FieldsAt c [(0, 1, 4), (1, 1, (s.agent a).auxReason)]
        ∧ exec (.ready p (frame ps)) s =
          .next ((s.answered p (frame ps) .ok c).setAgent a { s.agent a with pending := .none }))
    ∧ ((s.agent a).state = .connected → (s.agent a).pending = .signOutPurge →
      exec (.ready p (frame ps)) s = .next (s.answered p (frame ps) .badState []))
    ∧ ((s.agent a).state = .wrap → exec (.ready p (frame ps)) s = exec (.wrapEnd p (frame ps)) s)

/-- AUX and FORCE_AUX with a reason 1–14, in each state of the agent. The call's side of a withdrawal is R101's, and its port gets no notice
but the LISTENs of a move or a swap; in CONNECTED and WRAP the change is recorded (R19). That the LISTENs of a swap go in queue order
is the model's choice (log entry 12). -/
def Obligations.AuxAndForceAuxByState : Prop :=
  ∀ (s : State) (k : Kind) (p : Port) (ps : List Byte) (a : AgentSlot), k = .aux ∨ k = .forceAux →
    Takes s k p ps → ActsOn s k p ps a → 1 ≤ u8 ps 2 → u8 ps 2 ≤ 14 →
      ((s.agent a).state = .signedOut → exec (k.command p (frame ps)) s = .next (s.answered p (frame ps) .badState []))
      ∧ ((s.agent a).state = .aux → (s.agent a).auxReason = u8 ps 2 →
        exec (k.command p (frame ps)) s = .next (s.answered p (frame ps) .ok []))
      ∧ ((s.agent a).state = .ready ∨ ((s.agent a).state = .aux ∧ (s.agent a).auxReason ≠ u8 ps 2) →
        ∃ t, exec (k.command p (frame ps)) s = .next t
          ∧ AgentAnswered s t p .ok [] a ((s.agent a).unbound .aux (u8 ps 2) 0))
      ∧ (∀ c r, (s.agent a).state = .offered → (s.agent a).boundCall = some c → s.call c = some r →
        ∃ t, exec (k.command p (frame ps)) s = .next t ∧ Answered t p .ok [] ∧ OtherSlots s t p
          ∧ AgentSide s t a ((s.agent a).unbound .aux (u8 ps 2) 0)
          ∧ OfferReturned s t c r a r.noAnswers r.pendingOverflow)
      ∧ ((s.agent a).state = .connected ∨ (s.agent a).state = .wrap →
        exec (k.command p (frame ps)) s =
          .next (if (s.agent a).pending = .signOutPurge then s.answered p (frame ps) .badState []
            else (s.answered p (frame ps) .pending []).setAgent a { s.agent a with pending := .aux (u8 ps 2) }))

/-- SIGN_OUT and FORCE_SIGN_OUT in each state of the agent; they differ with a pending sign-out marked by purge (R19) and in WRAP, where the
forced one ends the wrap: the sample of a wrap marked KEEP is folded in, and the agent is SIGNED_OUT whatever was pending (R122). The
call's port gets no notice of a withdrawal but the LISTENs of a move or a swap (R101). That the LISTENs of a swap go in queue order is
the model's choice (log entry 12). -/
def Obligations.SignOutAndForceSignOutByState : Prop :=
  ∀ (s : State) (k : Kind) (p : Port) (ps : List Byte) (a : AgentSlot), k = .signOut ∨ k = .forceSignOut →
    Takes s k p ps → ActsOn s k p ps a →
      ((s.agent a).state = .signedOut → exec (k.command p (frame ps)) s = .next (s.answered p (frame ps) .already []))
      ∧ ((s.agent a).state = .aux ∨ (s.agent a).state = .ready →
        ∃ t, exec (k.command p (frame ps)) s = .next t
          ∧ AgentAnswered s t p .ok [] a ((s.agent a).unbound .signedOut 0 0))
      ∧ (∀ c r, (s.agent a).state = .offered → (s.agent a).boundCall = some c → s.call c = some r →
        ∃ t, exec (k.command p (frame ps)) s = .next t ∧ Answered t p .ok [] ∧ OtherSlots s t p
          ∧ AgentSide s t a ((s.agent a).unbound .signedOut 0 0)
          ∧ OfferReturned s t c r a r.noAnswers r.pendingOverflow)
      ∧ ((s.agent a).state = .connected ∨ ((s.agent a).state = .wrap ∧ k = .signOut) →
        exec (k.command p (frame ps)) s =
          .next (if (s.agent a).pending = .signOutPurge then
              s.answered p (frame ps) (if k = .signOut then .badState else .pending) []
            else (s.answered p (frame ps) .pending []).setAgent a { s.agent a with pending := .signOut }))
      ∧ ((s.agent a).state = .wrap → k = .forceSignOut →
        ∃ t, exec (k.command p (frame ps)) s = .next t
          ∧ AgentAnswered (s.withWrapSample a) t p .ok [] a ((s.agent a).unbound .signedOut 0 0))

/-- WRAP_EXTEND: BAD_STATE outside WRAP; LIMIT once the extensions used have reached the active limit of the wrap group; else the wrap end
moves by the active step, no further than the wrap start plus the captured cap, the extensions used rise, and a notice goes to the
home port when the end has moved. -/
def Obligations.WrapExtendMovesTheEndUpToTheCap : Prop :=
  ∀ (s : State) (p : Port) (ps : List Byte) (a : AgentSlot), Takes s .wrapExtend p ps → ActsOn s .wrapExtend p ps a →
    let w := (s.agent a).wrap
    let g := (s.group w.group).active
    let finish := min (w.finish + g.extStep) (w.start + w.cap)
    let new := { s.agent a with wrap := { w with finish := finish, extensions := w.extensions + 1 } }
    ((s.agent a).state ≠ .wrap → exec (.wrapExtend p (frame ps)) s = .next (s.answered p (frame ps) .badState []))
    ∧ ((s.agent a).state = .wrap → g.extLimit ≤ w.extensions →
      exec (.wrapExtend p (frame ps)) s = .next (s.answered p (frame ps) .limit []))
    ∧ ((s.agent a).state = .wrap → w.extensions < g.extLimit →
      ∃ c, c.length = 3 ∧ FieldsAt c [(0, 2, finish - s.clock), (2, 1, w.extensions + 1)]
        ∧ (finish = w.finish →
          exec (.wrapExtend p (frame ps)) s =
            .next ((s.answered p (frame ps) (if w.finish + g.extStep ≤ w.start + w.cap then .ok else .okClamped) c).setAgent a new))
        ∧ (finish ≠ w.finish →
          ∃ t, exec (.wrapExtend p (frame ps)) s = .next t
            ∧ AgentAnswered s t p (if w.finish + g.extStep ≤ w.start + w.cap then .ok else .okClamped) c a new))

/-- The end of a wrap by expiry, WRAP_END or READY: the sample of a wrap marked KEEP, which is the talk seconds plus the seconds since the
wrap start, is folded into the average of the wrap group, and the agent follows its pending change. WRAP_END outside WRAP is
BAD_STATE. WRAP_EXPIRY of a wrap that is not due has no effect: the model's choice (log entry 2). -/
def Obligations.WrapEndsByExpiryAndByRequest : Prop :=
  ∀ (s : State) (a : AgentSlot),
    ((s.agent a).state = .wrap → (s.agent a).wrap.finish ≤ s.clock →
      ∃ t, exec (.wrapExpiry a) s = .next t
        ∧ AgentChange (s.withWrapSample a) t a ((s.agent a).afterPending s.clock))
    ∧ (¬((s.agent a).state = .wrap ∧ (s.agent a).wrap.finish ≤ s.clock) → exec (.wrapExpiry a) s = .next s)
    ∧ ∀ (k : Kind) (p : Port) (ps : List Byte), k = .wrapEnd ∨ k = .ready → Takes s k p ps → ActsOn s k p ps a →
      (k = .wrapEnd → (s.agent a).state ≠ .wrap → exec (k.command p (frame ps)) s = .next (s.answered p (frame ps) .badState []))
      ∧ ((s.agent a).state = .wrap →
        ∃ t c, exec (k.command p (frame ps)) s = .next t ∧ c.length = 2
          ∧ FieldsAt c [(0, 1, ((s.agent a).afterPending s.clock).state.code), (1, 1, ((s.agent a).afterPending s.clock).auxReason)]
          ∧ AgentAnswered (s.withWrapSample a) t p .ok c a ((s.agent a).afterPending s.clock))

/-- AGENT_ANSWER and AGENT_NO_ANSWER for an agent that is not OFFERED for the call named are LATE; AGENT_HANGUP for an agent that is not
CONNECTED to it is NO_CALL; nothing else changes. -/
def Obligations.LateAnswersAndHangupsChangeNothing : Prop :=
  ∀ (s : State) (k : Kind) (p : Port) (ps : List Byte) (a : AgentSlot),
    Takes s k p ps → ActsOn s k p ps a → ∀ (x : Shelf), shelfOfByte (u8 ps 2) = some x →
      (k = .agentAnswer ∨ k = .agentNoAnswer →
        ¬((s.agent a).state = .offered
          ∧ ∃ c r, (s.agent a).boundCall = some c ∧ s.call c = some r ∧ r.owner = x ∧ r.tag.toNat = u16 ps 3) →
        exec (k.command p (frame ps)) s = .next (s.answered p (frame ps) .late []))
      ∧ (k = .agentHangup →
        ¬((s.agent a).state = .connected
          ∧ ∃ c r, (s.agent a).boundCall = some c ∧ s.call c = some r ∧ r.owner = x ∧ r.tag.toNat = u16 ps 3) →
        exec (k.command p (frame ps)) s = .next (s.answered p (frame ps) .noCall []))

/-- A ring-no-answer, at a taken AGENT_NO_ANSWER and at the expiry of the ring timer: the agent goes to AUX with reason 15 or to READY by
the active no-answer action of the call's group; the call's no-answer count rises, up to 7, and the call is requeued, with an
overflow attempt at the limit or on a pending overflow, and its port gets no notice but the LISTENs of a move or a swap.
RING_TIMER_EXPIRY before its second has no effect, a count that stays at the limit 7 attempts a move each time, and the LISTENs of a
swap go in queue order: the model's choices (log entries 2, 28, 12). -/
def Obligations.RingNoAnswerRequeuesTheCall : Prop :=
  ∀ (s : State) (a : AgentSlot) (c : CallSlot) (r : CallRec), Calm s → s.call c = some r → r.state = .offered → r.boundAgent = some a →
    let new := match (s.group r.group).active.noAnswerAction with
      | .aux => (s.agent a).unbound .aux 15 0
      | .ready => (s.agent a).unbound .ready 0 s.clock
    let count := min 7 (r.noAnswers + 1)
    let attempt := decide (count = (s.group r.group).active.noAnswerLimit) || r.pendingOverflow
    (∀ due, r.ring = some due → due ≤ s.clock →
      ∃ t, exec (.ringTimerExpiry c) s = .next t ∧ AgentSide s t a new ∧ OfferReturned s t c r a count attempt)
    ∧ (∀ due, r.ring = some due → s.clock < due → exec (.ringTimerExpiry c) s = .next s)
    ∧ ∀ (p : Port) (ps : List Byte), Takes s .agentNoAnswer p ps → ActsOn s .agentNoAnswer p ps a →
      (s.agent a).state = .offered → (s.agent a).boundCall = some c →
      shelfOfByte (u8 ps 2) = some r.owner → u16 ps 3 = r.tag.toNat →
        ∃ t content, exec (.agentNoAnswer p (frame ps)) s = .next t ∧ Answered t p .ok content ∧ content.length = 2
          ∧ FieldAt content 0 2 c.val ∧ OtherSlots s t p ∧ AgentSide s t a new ∧ OfferReturned s t c r a count attempt

/-- AGENT_ANSWER taken: call and agent are CONNECTED from now; the offer has ended and the call has left its queue, counted as answered;
the group's conditions are evaluated; the call hears nothing, is due nothing and is off the wait list; AGENT_STATE, CONNECT and LISTEN go to the agent's and the call's
ports in this order; a swap that waited for the last offer is performed. A channel that the answer frees may be granted to another
call, whose LISTEN stands behind: that the arbiter acts last is the model's reading (log entry 10). The call's on-wait-list flag is
taken to go with an entry of the list (R168). -/
def Obligations.AnswerConnectsCallAndAgent : Prop :=
  ∀ (s : State) (p : Port) (ps : List Byte) (a : AgentSlot) (c : CallSlot) (r : CallRec),
    Takes s .agentAnswer p ps → ActsOn s .agentAnswer p ps a → (s.agent a).state = .offered → (s.agent a).boundCall = some c →
    s.call c = some r → r.boundAgent = some a → shelfOfByte (u8 ps 2) = some r.owner → u16 ps 3 = r.tag.toNat →
    (r.onWaitList = true → ∃ e ∈ s.waitList, e.call = c) →
      let new := { s.agent a with state := .connected, idleSince := 0, answerStart := s.clock }
      ∃ t content, exec (.agentAnswer p (frame ps)) s = .next t ∧ Answered t p .ok content ∧ content.length = 2
        ∧ FieldAt content 0 2 c.val ∧ OtherSlots s t p
        ∧ t.agent a = { new with owed := new.owed || !s.hasRoom (portOf new.home) }
        ∧ (∀ b, b ≠ a → t.agent b = s.agent b)
        ∧ (∃ q, t.call c = some q
          ∧ { q with owedListen := r.owedListen, owedConnect := r.owedConnect } =
              { r with
                state := .connected, ring := none, talkStart := s.clock, overflowDue := none, pendingOverflow := false,
                listen := .silent, nextDue := none, onWaitList := false })
        ∧ (∀ d, d ≠ c → (t.call d).map CallRec.offPlayout = (s.call d).map CallRec.offPlayout)
        ∧ (∀ e ∈ t.waitList, e.call ≠ c)
        ∧ (∀ x : Shelf, ∃ l, (∀ n ∈ l, ∃ tag slot, n = Notice.listen tag slot) ∧
          (t.port (portOf x)).notices =
            placed (s.port (portOf x)).notices
              ((if x = new.home then [.agentState a .connected new.auxReason 0 (some (r.owner, r.tag))] else [])
                ++ if x = r.owner then [.connect r.tag a new.home, .listen r.tag none] else []) ++ l)
        ∧ (∀ g, (t.group g).queue = (if g = r.group then (s.group g).queue.filter (· != c) else (s.group g).queue)
          ∧ (t.group g).offers = (if g = r.group then (s.group g).offers - 1 else (s.group g).offers)
          ∧ (t.group g).stats =
              (if g = r.group then { (s.group g).stats with answered := min 65535 ((s.group g).stats.answered + 1) }
                else (s.group g).stats)
          ∧ (t.group g).staffed = (s.group g).staffed
          ∧ (t.group g).active = (if g = r.group ∧ s.swapDue g then (s.group g).staged else (s.group g).active)
          ∧ (t.group g).swapPending = (if g = r.group ∧ s.swapDue g then false else (s.group g).swapPending))
        ∧ QueueLeft s t r.group ∧ (∀ g, g ≠ r.group → t.group g = s.group g)
        ∧ { t.group r.group with
            queue := (s.group r.group).queue, offers := (s.group r.group).offers, stats := (s.group r.group).stats,
            active := (s.group r.group).active, swapPending := (s.group r.group).swapPending,
            conditions := (s.group r.group).conditions, flags := (s.group r.group).flags } = s.group r.group
        ∧ t.callTriggers = s.callTriggers ∧ t.agentTriggers = s.agentTriggers
        ∧ t.sweepWaiting = (s.sweepWaiting || s.swapDue r.group) ∧ SameBase s t

/-- AGENT_HANGUP taken: the agent follows the end of a connected call, with wrap-up, without it at wrap time 0 when the sample is taken at
once, or signed out without either on a pending sign-out marked by purge; the call is CLEARING; AGENT_STATE and CLEARED go to the
agent's and the call's ports in this order. Queues, offers and statistics are as they were. -/
def Obligations.HangupClearsTheCall : Prop :=
  ∀ (s : State) (p : Port) (ps : List Byte) (a : AgentSlot) (c : CallSlot) (r : CallRec),
    Takes s .agentHangup p ps → ActsOn s .agentHangup p ps a → (s.agent a).state = .connected → (s.agent a).boundCall = some c →
    s.call c = some r → shelfOfByte (u8 ps 2) = some r.owner → u16 ps 3 = r.tag.toNat →
      let new := (s.agent a).afterCall s r.group .keep
      ∃ t content, exec (.agentHangup p (frame ps)) s = .next t ∧ Answered t p .ok content ∧ content.length = 2
        ∧ FieldAt content 0 2 c.val ∧ OtherSlots s t p
        ∧ t.agent a = { new with owed := new.owed || !s.hasRoom (portOf new.home) }
        ∧ (∀ b, b ≠ a → t.agent b = s.agent b)
        ∧ (∃ q, t.call c = some q
          ∧ { q with owedCleared := r.owedCleared } = { r with state := .clearing, boundAgent := none })
        ∧ (∀ d, d ≠ c → t.call d = s.call d)
        ∧ (∀ x : Shelf,
          (t.port (portOf x)).notices =
            placed (s.port (portOf x)).notices
              ((if x = new.home then [.agentState a new.state new.auxReason
                (if new.state = .wrap then new.wrap.finish - s.clock else 0) none] else [])
                ++ if x = r.owner then [.cleared r.tag] else []))
        ∧ (∀ g, (t.group g).queue = (s.group g).queue ∧ (t.group g).offers = (s.group g).offers
          ∧ (t.group g).stats = (s.group g).stats ∧ (t.group g).active = (s.group g).active
          ∧ (t.group g).staffed = staffedAfter (s.agent a) new g (s.group g).staffed
          ∧ (t.group g).average = ((s.withCallSample a r.group .keep).group g).average)
        ∧ GroupsRestaffed s t (s.agent a) new
        ∧ t.callTriggers = s.callTriggers ∧ t.sweepWaiting = s.sweepWaiting
        ∧ (t.agentTriggers =
            if new.state = .ready ∧ a ∉ s.agentTriggers then s.agentTriggers ++ [a] else s.agentTriggers)
        ∧ SamePlayout s t ∧ SameBase s t

/-- The checks of AGENT_DEFINE in R5's order, with those that R197 adds at step 3. A refused request changes nothing. -/
def Obligations.AgentDefineIsCheckedInOrder : Prop :=
  ∀ (s : State) (ps : List Byte), Takes s .agentDefine .s ps →
    let pairs := (List.range (u8 ps 4)).map fun i => (u8 ps (5 + 2 * i), u8 ps (6 + 2 * i))
    let bad := (∃ k ∈ pairs, k.2 = 0 ∨ 9 < k.2) ∨ ¬(pairs.map Prod.fst).Nodup ∨ 8 < u8 ps 4 ∨ 1 < u8 ps 2 ∨ 2 ≤ u8 ps 3
    (512 ≤ u16 ps 0 → exec (.agentDefine .s (frame ps)) s = .next (s.answered .s (frame ps) .noAgent []))
    ∧ ∀ a : AgentSlot, u16 ps 0 = a.val →
      ((∃ k ∈ pairs, 64 ≤ k.1) → exec (.agentDefine .s (frame ps)) s = .next (s.answered .s (frame ps) .badGroup []))
      ∧ ((∀ k ∈ pairs, k.1 < 64) →
        (bad → exec (.agentDefine .s (frame ps)) s = .next (s.answered .s (frame ps) .badParam []))
        ∧ (¬bad → (s.agent a).state = .offered →
          exec (.agentDefine .s (frame ps)) s = .next (s.answered .s (frame ps) .busy []))
        ∧ (¬bad → (s.agent a).state ≠ .offered → (s.agent a).state ≠ .signedOut →
          shelfOfByte (u8 ps 3) ≠ some (s.agent a).home ∨ u8 ps 2 = 0 →
          exec (.agentDefine .s (frame ps)) s = .next (s.answered .s (frame ps) .badState [])))

/-- AGENT_DEFINE taken. With the defined flag set, the agent is defined with the home and the skills given and keeps everything else; a
READY agent whose skill list differs is triggered; a new home takes the owed AGENT_STATE pair off the old port. With the flag clear,
a defined agent's record returns to its power-on values and its owed pair is removed, and an undefined agent is left as it is. No
AGENT_STATE notice is raised. That a list in another order has changed is the model's reading (log entry 26). -/
def Obligations.AgentDefineWritesTheDefinition : Prop :=
  ∀ (s : State) (ps : List Byte) (a : AgentSlot) (x : Shelf) (ks : List Skill),
    Takes s .agentDefine .s ps → u16 ps 0 = a.val → shelfOfByte (u8 ps 3) = some x →
    (ks.map fun k => (k.group.val, k.level)) = (List.range (u8 ps 4)).map (fun i => (u8 ps (5 + 2 * i), u8 ps (6 + 2 * i))) →
    skillsLegal ks = true → (s.agent a).state ≠ .offered →
      (u8 ps 2 = 1 → ((s.agent a).home = x ∨ (s.agent a).state = .signedOut) →
        ∃ t, exec (.agentDefine .s (frame ps)) s = .next t ∧ Answered t .s .ok [] ∧ OtherSlots s t .s
          ∧ AgentRewritten s t a
              { s.agent a with
                defined := true, home := x, skills := ks, owed := (s.agent a).owed && decide ((s.agent a).home = x) }
          ∧ (∀ y, (t.port (portOf y)).notices = (s.port (portOf y)).notices)
          ∧ (∀ y, (t.port (portOf y)).owed =
              if y = (s.agent a).home ∧ y ≠ x then (s.port (portOf y)).owed.filter (· != .agentState a)
              else (s.port (portOf y)).owed)
          ∧ t.agentTriggers =
              if (s.agent a).state = .ready ∧ (s.agent a).skills ≠ ks ∧ a ∉ s.agentTriggers then s.agentTriggers ++ [a]
              else s.agentTriggers)
      ∧ (u8 ps 2 = 0 → (s.agent a).state = .signedOut → (s.agent a).defined = true →
        ∃ t, exec (.agentDefine .s (frame ps)) s = .next t ∧ Answered t .s .ok [] ∧ OtherSlots s t .s
          ∧ AgentRewritten s t a ({ defined := false, home := .a, skills := [] } : AgentRec)
          ∧ (∀ y, (t.port (portOf y)).notices = (s.port (portOf y)).notices)
          ∧ (∀ y, (t.port (portOf y)).owed =
              if y = (s.agent a).home then (s.port (portOf y)).owed.filter (· != .agentState a) else (s.port (portOf y)).owed)
          ∧ t.agentTriggers = s.agentTriggers)
      ∧ (u8 ps 2 = 0 → (s.agent a).state = .signedOut → (s.agent a).defined = false →
        exec (.agentDefine .s (frame ps)) s = .next (s.answered .s (frame ps) .ok []))

/-! ### Groups and service lines (R31, R32, R35, R36, R38 to R42, R44, R46 to R50) -/

/-- GROUP_STAGE: the checks of R31 in their order, then the whole staged set written with every numeric field brought into its range
(R32); OK_CLAMPED exactly where a field is altered; the staged set as stored is the content. Nothing else changes. -/
def Obligations.GroupStageWritesTheStagedSetInRange : Prop :=
  (∀ low high x : Nat, clamp low high x = max low (min high x)
    ∧ clampOrOff low high x = if x = 0 then 0 else max low (min high x))
  ∧ ∀ (s : State) (ps : List Byte), Takes s .groupStage .s ps →
    let b := ps.drop 1
    let bad := 2 ≤ u8 b 9 ∨ 3 ≤ u8 b 10 ∨ 2 ≤ u8 b 18 ∨ (64 ≤ u8 b 15 ∧ u8 b 15 ≠ 255) ∨ (8 ≤ u8 b 19 ∧ u8 b 19 ≠ 255)
      ∨ (64 ≤ u8 b 20 ∧ u8 b 20 ≠ 255) ∨ (4 ≤ u8 b 29 ∧ u8 b 29 ≠ 255)
    let cap := clamp 0 1800 (u16 b 5)
    let given := [u16 b 0, u16 b 2, u8 b 4, u16 b 5, u8 b 7, u8 b 8, u8 b 11, u8 b 12, u16 b 13, u16 b 16, u8 b 21, u16 b 22, u8 b 24,
      u16 b 25, u16 b 27]
    let kept := [min (clamp 0 900 (u16 b 0)) cap, clamp 5 300 (u16 b 2), clamp 0 3 (u8 b 4), cap, clamp 4 60 (u8 b 7),
      clamp 1 7 (u8 b 8), clamp 1 15 (u8 b 11), clamp 0 255 (u8 b 12), clamp 1 1024 (u16 b 13), clampOrOff 10 3600 (u16 b 16),
      clamp 0 120 (u8 b 21), clampOrOff 15 600 (u16 b 22), clamp 1 6 (u8 b 24), clampOrOff 1 1024 (u16 b 25),
      clampOrOff 5 3600 (u16 b 27)]
    (64 ≤ u8 ps 0 → exec (.groupStage .s (frame ps)) s = .next (s.answered .s (frame ps) .badGroup []))
    ∧ ∀ g : Group, u8 ps 0 = g.val →
      (bad ∨ u8 b 15 = g.val → exec (.groupStage .s (frame ps)) s = .next (s.answered .s (frame ps) .badParam []))
      ∧ (¬bad → u8 b 15 ≠ g.val →
        ∃ (q : Params) (c : List Byte),
          [q.wrapTime, q.extStep, q.extLimit, q.wrapCap, q.ringTimeout, q.noAnswerLimit, q.weight, q.priorityStep, q.maxDepth,
            q.overflowWait, q.firstDelay, q.interval, q.shift, q.depthThreshold, q.waitObjective] = kept
          ∧ [q.noAnswerAction.code, q.policy.code, bitsNumber [q.overflowOnFull], codeNumber q.overflowTarget, codeNumber q.music,
              codeNumber q.program, codeNumber q.line] = [u8 b 9, u8 b 10, u8 b 18, u8 b 15, u8 b 19, u8 b 20, u8 b 29]
          ∧ c.length = 30 ∧ FieldsAt c (paramTable 0 q)
          ∧ exec (.groupStage .s (frame ps)) s =
              .next ((s.answered .s (frame ps) (if kept = given then .ok else .okClamped) c).setGroup g
                { s.group g with staged := q }))

/-- GROUP_SWAP: a swap-pending group stays as it is and is answered PENDING; a group with offers in progress becomes swap-pending, PENDING;
else the swap is performed: the staged set is active, DEPTH and WAIT are evaluated under it, a changed music source moves the calls
of the queue that are not on announcements, with the listener counts, and the new source may start; a LISTEN goes to each whose
timeslot changes; and a sweep is raised. That the LISTEN notices go in queue order is the model's choice (log entry 12), and that a REPEAT
reached when the source starts counts before its fill its reading (log entry 18). -/
def Obligations.GroupSwapWaitsForTheQuietPoint : Prop :=
  ∀ (s : State) (ps : List Byte), Takes s .groupSwap .s ps →
    (64 ≤ u8 ps 0 → exec (.groupSwap .s (frame ps)) s = .next (s.answered .s (frame ps) .badGroup []))
    ∧ ∀ g : Group, u8 ps 0 = g.val →
      let r := s.group g
      let depth := r.staged.depthThreshold != 0 && decide (r.staged.depthThreshold ≤ r.queue.length)
      let wait := r.staged.waitObjective != 0 && !r.queue.isEmpty && decide (r.staged.waitObjective ≤ s.longestWait g)
      (r.swapPending = true → exec (.groupSwap .s (frame ps)) s = .next (s.answered .s (frame ps) .pending []))
      ∧ (r.swapPending = false → r.offers ≠ 0 →
        exec (.groupSwap .s (frame ps)) s =
          .next ((s.answered .s (frame ps) .pending []).setGroup g { r with swapPending := true }))
      ∧ (r.swapPending = false → r.offers = 0 →
        ∃ t, exec (.groupSwap .s (frame ps)) s = .next t ∧ Answered t .s .ok [] ∧ OtherSlots s t .s
          ∧ t.group g =
              { r with
                active := r.staged
                swapPending := false
                conditions := { r.conditions with depth := depth, wait := wait }
                flags :=
                  { r.flags with
                    depth := r.flags.depth || (depth && !r.conditions.depth)
                    wait := r.flags.wait || (wait && !r.conditions.wait) } }
          ∧ (∀ h, h ≠ g → t.group h = s.group h)
          ∧ (∀ c, (t.call c).map CallRec.offPlayout = (s.call c).map CallRec.offPlayout)
          ∧ (r.active.music = r.staged.music → t.calls = s.calls)
          ∧ (r.active.music ≠ r.staged.music → ∀ c ∈ r.queue, ∀ k, s.call c = some k →
              ∃ q, t.call c = some q ∧
                q.listen = match k.listen with
                  | .announce j => .announce j
                  | _ => match r.staged.music with
                    | none => .silent
                    | some m => .music m)
          ∧ (∀ c, c ∉ r.queue → t.call c = s.call c)
          ∧ (r.active.music = r.staged.music →
              t.sources = s.sources ∧ StartsNone s t ∧ ∀ y : Shelf, SameQueue s t (portOf y))
          ∧ (r.active.music ≠ r.staged.music →
              let movers := (List.finRange 1024).filter fun c =>
                decide (c ∈ r.queue) && (s.call c).any fun k => k.retunes r.staged.music
              (∀ m, r.staged.music = some m → SourceGains s t m movers.length)
              ∧ ((∀ m, r.staged.music = some m → movers = [] ∨ (s.source m).run ≠ none ∨ (s.source m).current = none) →
                StartsNone s t)
              ∧ (∀ m, r.staged.music ≠ some m →
                t.source m =
                  { s.source m with
                    listeners :=
                      (s.source m).listeners - (movers.filter fun c => (s.call c).any fun k => k.listen == .music m).length })
              ∧ (r.queue.Nodup → ∀ y : Shelf,
                (t.port (portOf y)).notices = placed (s.port (portOf y)).notices (s.swapListens g y)))
          ∧ t.agents = s.agents ∧ t.callTriggers = s.callTriggers ∧ t.agentTriggers = s.agentTriggers ∧ t.sweepWaiting = true
          ∧ t.waitList = s.waitList ∧ t.channels = s.channels ∧ SameBase s t)

/-- GROUP_OPEN clears the supervisor-closed flag and GROUP_CLOSE sets it, each with the closed byte that results; a group that GROUP_OPEN
has passed from closed to open triggers the Distributor. Nothing else changes. -/
def Obligations.GroupOpenAndCloseWriteTheFlag : Prop :=
  ∀ (s : State) (ps : List Byte),
    (∀ k ∈ [Kind.groupOpen, .groupClose],
      (Takes s k .s ps → 64 ≤ u8 ps 0 → exec (k.command .s (frame ps)) s = .next (s.answered .s (frame ps) .badGroup []))
      ∧ ∀ p, p ≠ .s → Calm s → (s.port p).slot = .idle →
        exec (k.command p (frame ps)) s = .next (s.answered p (frame ps) .badRequest []))
    ∧ ∀ g : Group, u8 ps 0 = g.val →
      (Takes s .groupOpen .s ps →
        let u := (s.answered .s (frame ps) .ok [if s.heldByLine g then 3 else 0]).setGroup g
          { s.group g with supervisorClosed := false }
        exec (.groupOpen .s (frame ps)) s = .next (if s.closed g && !s.heldByLine g then { u with sweepWaiting := true } else u))
      ∧ (Takes s .groupClose .s ps →
        exec (.groupClose .s (frame ps)) s =
          .next ((s.answered .s (frame ps) .ok [if s.heldByLine g then 3 else 1]).setGroup g
            { s.group g with supervisorClosed := true }))

/-- GROUP_STATS, on port S alone, returns the five statistics and clears them in the same event; nothing else changes. GROUP_READ returns
them and changes nothing. -/
def Obligations.GroupStatsReturnsAndClears : Prop :=
  ∀ (s : State) (p : Port) (ps : List Byte),
    (p ≠ .s → Calm s → (s.port p).slot = .idle →
      exec (.groupStats p (frame ps)) s = .next (s.answered p (frame ps) .badRequest []))
    ∧ (Takes s .groupStats p ps →
      (64 ≤ u8 ps 0 → exec (.groupStats p (frame ps)) s = .next (s.answered p (frame ps) .badGroup []))
      ∧ ∀ g : Group, u8 ps 0 = g.val →
        ∃ c : List Byte, c.length = 10
          ∧ FieldsAt c [(0, 2, (s.group g).stats.answered), (2, 2, (s.group g).stats.abandoned),
              (4, 2, (s.group g).stats.overflowedOut), (6, 2, (s.group g).stats.overflowedIn), (8, 2, (s.group g).stats.purged)]
          ∧ exec (.groupStats p (frame ps)) s =
              .next ((s.answered p (frame ps) .ok c).setGroup g
                { s.group g with
                  stats := { answered := 0, abandoned := 0, overflowedOut := 0, overflowedIn := 0, purged := 0 } }))
    ∧ (Takes s .groupRead p ps → ∀ g : Group, u8 ps 0 = g.val →
        ∃ c : List Byte,
          FieldsAt c [(74, 2, (s.group g).stats.answered), (76, 2, (s.group g).stats.abandoned),
            (78, 2, (s.group g).stats.overflowedOut), (80, 2, (s.group g).stats.overflowedIn), (82, 2, (s.group g).stats.purged)]
          ∧ exec (.groupRead p (frame ps)) s = .next (s.answered p (frame ps) .ok c))

/-- GROUP_WATCH_MASK and WATCH_MASK write their masks and hand port S one WATCH for each kind that they unmask while its flag is set,
naming the first flag in the report order that is set and unmasked; no flag and no condition changes. A WATCH_MASK that asks to mask
PURGE_DONE is BAD_PARAM. That a kind already unmasked is not unmasked again is the model's reading (log entry 13). -/
def Obligations.WatchMasksHandAWatchForEachFlagUnmasked : Prop :=
  ∀ (s : State) (ps : List Byte),
    (Takes s .groupWatchMask .s ps →
      (64 ≤ u8 ps 0 → exec (.groupWatchMask .s (frame ps)) s = .next (s.answered .s (frame ps) .badGroup []))
      ∧ ∀ g : Group, u8 ps 0 = g.val →
        let r := s.group g
        let m : WatchBits := { depth := (u8 ps 1).testBit 0, wait := (u8 ps 1).testBit 1, noStaff := (u8 ps 1).testBit 2 }
        let n := (r.flags.depth && r.masks.depth && !m.depth).toNat + (r.flags.wait && r.masks.wait && !m.wait).toNat
          + (r.flags.noStaff && r.masks.noStaff && !m.noStaff).toNat
        ∃ t, exec (.groupWatchMask .s (frame ps)) s = .next t ∧ Answered t .s .ok [] ∧ OtherSlots s t .s
          ∧ t.group g = { r with masks := m } ∧ (∀ h, h ≠ g → t.group h = s.group h)
          ∧ (∀ w, FirstWatch t w → (t.port .s).notices = placed (s.port .s).notices (List.replicate n (.watch w)))
          ∧ (n = 0 → (t.port .s).notices = (s.port .s).notices)
          ∧ t.device.watchOwed = (s.device.watchOwed || decide (Config.noticeCapacity - (s.port .s).notices.length < n))
          ∧ WatchSide s t ∧ t = { s with groups := t.groups, portS := t.portS, device := t.device })
    ∧ (Takes s .watchMask .s ps →
      let d := s.device
      let n := (d.segmentFault && d.maskSegmentFault && !(u8 ps 0).testBit 1).toNat
        + (d.starved && d.maskStarved && !(u8 ps 0).testBit 2).toNat
      ((u8 ps 0).testBit 0 = true → exec (.watchMask .s (frame ps)) s = .next (s.answered .s (frame ps) .badParam []))
      ∧ ((u8 ps 0).testBit 0 = false →
        ∃ t, exec (.watchMask .s (frame ps)) s = .next t ∧ Answered t .s .ok [] ∧ OtherSlots s t .s
          ∧ t.device =
              { d with
                maskSegmentFault := (u8 ps 0).testBit 1
                maskStarved := (u8 ps 0).testBit 2
                watchOwed := d.watchOwed || decide (Config.noticeCapacity - (s.port .s).notices.length < n) }
          ∧ (∀ w, FirstWatch t w → (t.port .s).notices = placed (s.port .s).notices (List.replicate n (.watch w)))
          ∧ (n = 0 → (t.port .s).notices = (s.port .s).notices)
          ∧ (t.port .s).owed = (if t.device.watchOwed = d.watchOwed then (s.port .s).owed else (s.port .s).owed ++ [.watch])
          ∧ t = { s with portS := t.portS, device := t.device }))

/-- LINE_MODE writes a line's mode and clears its latch; the input pin takes its level at SERVICE_LINE_INPUT_CHANGE; at SEEN_LEVEL_EDGE the
seen level takes the input's and the latch flips as the mode says. Where a group passes from closed to open by it, a sweep is raised.
Nothing else changes. The input level is the model's part of the line, and an edge without a differing level has no effect (log entry
14). -/
def Obligations.ServiceLineCommands : Prop :=
  ∀ (s : State),
    (∀ (ps : List Byte), Takes s .lineMode .s ps →
      (4 ≤ u8 ps 0 ∨ 5 ≤ u8 ps 1 → exec (.lineMode .s (frame ps)) s = .next (s.answered .s (frame ps) .badParam []))
      ∧ ∀ (l : LineNo) (m : LineMode), u8 ps 0 = l.val →
        u8 ps 1 = (match m with | .off => 0 | .levelHigh => 1 | .levelLow => 2 | .toggleRise => 3 | .toggleFall => 4) →
        let u := (s.answered .s (frame ps) .ok []).setLine l { s.line l with mode := m, latch := false }
        exec (.lineMode .s (frame ps)) s = .next { u with sweepWaiting := s.sweepWaiting || s.opens u })
    ∧ (Calm s → ∀ (l : LineNo) (high : Bool),
      exec (.serviceLineInputChange l high) s = .next (s.setLine l { s.line l with input := high }))
    ∧ (Calm s → ∀ (l : LineNo),
      ((s.line l).input = (s.line l).seen → exec (.seenLevelEdge l) s = .next s)
      ∧ ((s.line l).input ≠ (s.line l).seen →
        let latch := match (s.line l).mode with
          | .toggleRise => if (s.line l).input then !(s.line l).latch else (s.line l).latch
          | .toggleFall => if (s.line l).input then (s.line l).latch else !(s.line l).latch
          | _ => (s.line l).latch
        let u := s.setLine l { s.line l with seen := (s.line l).input, latch := latch }
        exec (.seenLevelEdge l) s = .next { u with sweepWaiting := s.sweepWaiting || s.opens u }))

/-! ### Calls (R54 to R62, R64 to R69) -/

/-- CALL_ARRIVE refused: the checks of R60 in their order, the chain of R61 deciding the last. A refused arrival changes nothing. -/
def Obligations.ArrivalsAreRefusedInOrder : Prop :=
  ∀ (s : State) (p : Port) (ps : List Byte) (x : Shelf) (tag : Tag),
    Takes s .callArrive p ps → shelfOf p = some x → tag.toNat = u16 ps 0 →
      let duplicate := ∃ c r, s.call c = some r ∧ r.owner = x ∧ r.tag = tag
      (duplicate → exec (.callArrive p (frame ps)) s = .next (s.answered p (frame ps) .duplicate []))
      ∧ (¬duplicate →
        (64 ≤ u8 ps 2 → exec (.callArrive p (frame ps)) s = .next (s.answered p (frame ps) .badGroup []))
        ∧ ∀ g : Group, u8 ps 2 = g.val →
          (s.closed g = true → exec (.callArrive p (frame ps)) s = .next (s.answered p (frame ps) .closed []))
          ∧ (s.closed g = false → (∀ c, s.call c ≠ none) →
            exec (.callArrive p (frame ps)) s = .next (s.answered p (frame ps) .callsFull []))
          ∧ (s.closed g = false → (∃ c, s.call c = none) → s.arrivalPlace g = none →
            exec (.callArrive p (frame ps)) s = .next (s.answered p (frame ps) .queueFull [])))

/-- CALL_ARRIVE accepted: the lowest free slot holds the new call, in the group and with the hop count that R60 and R61 give; the call has
joined that group's queue at its place, hears the group's music, whose source has gained it, and is due its first announcement; a hop is
counted at both groups; the group's conditions are evaluated; the sequence counter has passed to a number that no call holds; a call trigger is
raised. Every other call and every agent is as it was. That the counter passes on directly after the arrival, and that a trigger that
waits for the slot already stays and none is added, and that a REPEAT reached when the source starts counts before its fill, is the
model's reading (log entries 25, 19, 18). -/
def Obligations.AcceptedArrivalsJoinTheirGroup : Prop :=
  ∀ (s : State) (p : Port) (ps : List Byte) (x : Shelf) (tag : Tag) (named g : Group) (hops : Nat) (c : CallSlot),
    Takes s .callArrive p ps → shelfOf p = some x → tag.toNat = u16 ps 0 →
    (∀ d r, s.call d = some r → ¬(r.owner = x ∧ r.tag = tag)) → u8 ps 2 = named.val → s.closed named = false →
    s.arrivalPlace named = some (g, hops) → s.call c = none → (∀ d, d < c → s.call d ≠ none) →
      let par := (s.group g).active
      let new : CallRec :=
        CallRec.joined
          { owner := x, tag := tag, state := .queued, group := g, priority := min 7 (u8 ps 3), arrival := s.clock,
            seq := s.seqCounter, hops := hops, noAnswers := 0, lastRefused := none, pendingOverflow := false, boundAgent := none,
            ring := none, listen := match par.music with | none => .silent | some m => .music m,
            nextDue := if par.program = none then none else some (s.clock + par.firstDelay), onWaitList := false,
            owedListen := par.music.isSome && !s.hasRoom p, owedConnect := false, owedCleared := false, talkStart := 0 } s g
      ∃ t content, exec (.callArrive p (frame ps)) s = .next t
        ∧ Answered t p (if 7 < u8 ps 3 then .okClamped else .ok) content ∧ OtherSlots s t p ∧ content.length = 14
        ∧ FieldsAt content [(0, 2, c.val), (2, 1, g.val), (3, 1, hops), (4, 8, (BitVec.ofInt 64 new.key).toNat),
            (12, 2, (t.group g).queue.idxOf c + 1)]
        ∧ t.call c = some new ∧ (∀ d, d ≠ c → t.call d = s.call d)
        ∧ (∃ l m, (s.group g).queue = l ++ m ∧ (t.group g).queue = l ++ c :: m
          ∧ (∀ d ∈ l, ∀ r, s.call d = some r → ¬(new.key < r.key ∨ (new.key = r.key ∧ new.seq < r.seq)))
          ∧ ∀ d ∈ m.head?, ∃ r, s.call d = some r ∧ (new.key < r.key ∨ (new.key = r.key ∧ new.seq < r.seq)))
        ∧ (∀ h, (t.group h).stats = (s.group h).stats.afterMove named h (if hops = 0 then none else some g))
        ∧ (∀ h, h ≠ g → { t.group h with stats := (s.group h).stats } = s.group h)
        ∧ { t.group g with
            stats := (s.group g).stats, queue := (s.group g).queue, conditions := (s.group g).conditions,
            flags := (s.group g).flags } = s.group g
        ∧ QueueEvaluated s t g
        ∧ (t.port p).notices =
            placed (s.port p).notices (match par.music with | none => [] | some m => [.listen tag (s.slotOf (highwayOfSource m))])
        ∧ (∀ q, q ≠ p → q ≠ .s → SameQueue s t q)
        ∧ (∀ m, SourceGains s t m (if par.music = some m then 1 else 0))
        ∧ ((∀ m, par.music = some m → (s.source m).run ≠ none ∨ (s.source m).current = none) → StartsNone s t)
        ∧ (∃ k, t.seqCounter = (s.seqCounter + 1 + k) % 4294967296
          ∧ ∀ j, j < k → ∃ d r, t.call d = some r ∧ r.seq = (s.seqCounter + 1 + j) % 4294967296)
        ∧ (∀ d r, t.call d = some r → r.seq ≠ t.seqCounter)
        ∧ t.callTriggers = (if c ∈ s.callTriggers then s.callTriggers else s.callTriggers ++ [c])
        ∧ t.agents = s.agents ∧ t.agentTriggers = s.agentTriggers ∧ t.sweepWaiting = s.sweepWaiting ∧ t.channels = s.channels
        ∧ t.waitList = s.waitList ∧ SameBase s { t with seqCounter := s.seqCounter }

/-- CALL_RELEASE in each state of the call: UNKNOWN_CALL for a tag the shelf does not hold; else OK with the state found, and the call is
freed. A QUEUED call counts as abandoned, and the conditions of its group are evaluated as it leaves the queue. So does an OFFERED one,
whose agent returns to READY with its idle-since kept and whose group's waiting swap may be performed. At a CONNECTED one the agent follows the end of a connected call. A CLEARING one is freed
alone. -/
def Obligations.ReleaseFreesTheCallByState : Prop :=
  ∀ (s : State) (p : Port) (ps : List Byte) (x : Shelf) (tag : Tag),
    Takes s .callRelease p ps → shelfOf p = some x → tag.toNat = u16 ps 0 →
      ((∀ c r, s.call c = some r → ¬(r.owner = x ∧ r.tag = tag)) →
        exec (.callRelease p (frame ps)) s = .next (s.answered p (frame ps) .unknownCall []))
      ∧ ∀ (c : CallSlot) (r : CallRec), s.call c = some r → r.owner = x → r.tag = tag →
        (∀ d q, s.call d = some q → q.owner = x → q.tag = tag → d = c) →
          (r.state = .queued →
            ∃ t, exec (.callRelease p (frame ps)) s = .next t ∧ Answered t p .ok [0] ∧ OtherSlots s t p ∧ CallFreed s t c r
              ∧ t.agents = s.agents ∧ CountedAtFreeing s t r true false
              ∧ (c ∈ (s.group r.group).queue → QueueLeft s t r.group) ∧ (∀ g, g ≠ r.group → t.group g = s.group g)
              ∧ t.agentTriggers = s.agentTriggers ∧ t.sweepWaiting = s.sweepWaiting)
          ∧ (∀ a, r.state = .offered → r.boundAgent = some a →
            ∃ t, exec (.callRelease p (frame ps)) s = .next t ∧ Answered t p .ok [1] ∧ OtherSlots s t p ∧ CallFreed s t c r
              ∧ AgentSide s t a ((s.agent a).unbound .ready 0 (s.agent a).idleSince) ∧ CountedAtFreeing s t r true true
              ∧ (c ∈ (s.group r.group).queue → QueueLeft s t r.group)
              ∧ ((s.agent a).state = .offered → ∀ g, g ≠ r.group → t.group g = s.group g)
              ∧ t.sweepWaiting = (s.sweepWaiting || s.swapDue r.group))
          ∧ (∀ a, r.state = .connected → r.boundAgent = some a →
            ∃ t, exec (.callRelease p (frame ps)) s = .next t ∧ Answered t p .ok [2] ∧ OtherSlots s t p ∧ CallFreed s t c r
              ∧ AgentSide s t a ((s.agent a).afterCall s r.group .keep) ∧ CountedAtFreeing s t r false false
              ∧ (∀ g, (t.group g).average = ((s.withCallSample a r.group .keep).group g).average)
              ∧ (c ∉ (s.group r.group).queue → GroupsRestaffed s t (s.agent a) ((s.agent a).afterCall s r.group .keep))
              ∧ t.sweepWaiting = s.sweepWaiting)
          ∧ (r.state = .clearing →
            ∃ t, exec (.callRelease p (frame ps)) s = .next t ∧ Answered t p .ok [3] ∧ OtherSlots s t p ∧ CallFreed s t c r
              ∧ t.agents = s.agents ∧ CountedAtFreeing s t r false false
              ∧ (c ∉ (s.group r.group).queue → t.groups = s.groups)
              ∧ t.agentTriggers = s.agentTriggers ∧ t.sweepWaiting = s.sweepWaiting)

/-- OVERFLOW_WAIT_EXPIRY at its second: the overflow due is cleared; an OFFERED call's pending overflow flag is set; a QUEUED call moves to
the active overflow target if that is open and has room and the call has moved fewer than three times, and else stays in its place.
A call that moves joins the target's queue at its place and the listeners of its music, unless it hears an announcement; both groups'
conditions are evaluated and nothing else of them changes but the statistics. A LISTEN goes to the call's port when the timeslot heard
changes, and no other notice to ports A and B. Before its second the event has no effect: the model's choice (log entry 2). That a
REPEAT reached when the source starts counts before its fill is its reading (log entry 18). -/
def Obligations.OverflowWaitExpiryMovesAQueuedCall : Prop :=
  ∀ (s : State) (c : CallSlot) (r : CallRec) (due : Nat), Calm s → s.call c = some r → r.overflowDue = some due →
    (s.clock < due → exec (.overflowWaitExpiry c) s = .next s)
    ∧ (due ≤ s.clock → r.state = .offered →
      exec (.overflowWaitExpiry c) s = .next (s.putCall c (some { r with overflowDue := none, pendingOverflow := true })))
    ∧ (due ≤ s.clock → r.state = .queued → s.overflowTo r = none →
      exec (.overflowWaitExpiry c) s = .next (s.putCall c (some { r with overflowDue := none })))
    ∧ ∀ g, due ≤ s.clock → r.state = .queued → s.overflowTo r = some g →
      ∃ t q, exec (.overflowWaitExpiry c) s = .next t ∧ t.call c = some q
        ∧ q.offPlayout = (CallRec.overflowed { r with overflowDue := none } s (some g)).offPlayout
        ∧ q.listen = (match r.listen with
          | .announce j => .announce j
          | _ => match (s.group g).active.music with
            | none => .silent
            | some m => .music m)
        ∧ q.nextDue = r.nextDue ∧ q.onWaitList = r.onWaitList
        ∧ (let heard := s.heard (s.groupMusic g)
          let changes := (∀ j, r.listen ≠ .announce j) ∧ heard ≠ s.heard r.listen
          (changes → ListenHanded s t c heard r q)
          ∧ (¬changes → q.owedListen = r.owedListen ∧ ∀ y : Shelf, SameQueue s t (portOf y)))
        ∧ SameSlots s t
        ∧ (∀ m, q.listen = .music m → r.listen ≠ .music m → SourceGains s t m 1)
        ∧ ((∀ m, q.listen = .music m → r.listen ≠ .music m → (s.source m).run ≠ none ∨ (s.source m).current = none) →
          StartsNone s t)
        ∧ (∀ m, ¬(q.listen = .music m ∧ r.listen ≠ .music m) →
          t.source m =
            { s.source m with
              listeners :=
                if r.listen = .music m ∧ q.listen ≠ .music m then (s.source m).listeners - 1 else (s.source m).listeners })
        ∧ (∀ d, d ≠ c → t.call d = s.call d)
        ∧ c ∈ (t.group g).queue ∧ (g ≠ r.group → (t.group r.group).queue = (s.group r.group).queue.filter (· != c))
        ∧ (∀ h, h ≠ g → h ≠ r.group → t.group h = s.group h)
        ∧ (∀ h, (t.group h).stats = (s.group h).stats.afterMove r.group h (some g))
        ∧ (g ≠ r.group → QueueEvaluated s t g ∧ QueueEvaluated s t r.group)
        ∧ (g ≠ r.group → c ∉ (s.group g).queue →
          ∃ l m, (s.group g).queue = l ++ m ∧ (t.group g).queue = l ++ c :: m
            ∧ (∀ d ∈ l, ∀ k, s.call d = some k → ¬(q.key < k.key ∨ (q.key = k.key ∧ q.seq < k.seq)))
            ∧ ∀ d ∈ m.head?, ∃ k, s.call d = some k ∧ (q.key < k.key ∨ (q.key = k.key ∧ q.seq < k.seq)))
        ∧ (g ≠ r.group → ∀ h,
          { t.group h with
            stats := (s.group h).stats, queue := (s.group h).queue, conditions := (s.group h).conditions,
            flags := (s.group h).flags } = s.group h)
        ∧ t.callTriggers = (if c ∈ s.callTriggers then s.callTriggers else s.callTriggers ++ [c])
        ∧ t.agents = s.agents ∧ t.agentTriggers = s.agentTriggers ∧ t.sweepWaiting = s.sweepWaiting ∧ t.channels = s.channels
        ∧ t.waitList = s.waitList ∧ SameBase s t

/-! ### Distribution (R74 to R90) -/

/-- CALL_TRIGGER taken: a call that is not QUEUED, or whose group is swap-pending, or that no agent is eligible for, is left as it is; else
it is bound to an agent in first place under its group's active policy, a tie broken by the generator. A trigger that does not wait
cannot be taken and has no effect: the model's choice (log entry 2). -/
def Obligations.CallTriggerBindsTheAgentInFirstPlace : Prop :=
  ∀ (s : State) (c : CallSlot), Calm s →
    let u := { s with callTriggers := s.callTriggers.filter (· != c) }
    (c ∉ s.callTriggers → exec (.callTrigger c) s = .next s)
    ∧ (c ∈ s.callTriggers →
      (¬(∃ r, s.call c = some r ∧ r.state = .queued ∧ (s.group r.group).swapPending = false) →
        exec (.callTrigger c) s = .next u)
      ∧ ∀ r, s.call c = some r → r.state = .queued → (s.group r.group).swapPending = false →
        ((∀ a, ¬Eligible s r a) → exec (.callTrigger c) s = .next u)
        ∧ ((∃ a, Eligible s r a) →
          ∃ a v t, Selected u r a v ∧ exec (.callTrigger c) s = .next t ∧ Bound v t c r a))

/-- AGENT_TRIGGER taken: an agent that is not READY, or whose home port has no room, or for whom no group has a candidate, is left as it
is; else it is bound to the most urgent of its groups' candidates. A trigger that does not wait cannot be taken and has no effect: the
model's choice (log entry 2). -/
def Obligations.AgentTriggerBindsTheMostUrgentCandidate : Prop :=
  ∀ (s : State) (a : AgentSlot), Calm s →
    let u := { s with agentTriggers := s.agentTriggers.filter (· != a) }
    let free := (s.agent a).state = .ready ∧ (s.port (portOf (s.agent a).home)).notices.length < 64
    let candidate := fun c r => ∃ k ∈ (s.agent a).skills, Candidate s a k.group c r
    (a ∉ s.agentTriggers → exec (.agentTrigger a) s = .next s)
    ∧ (a ∈ s.agentTriggers → ¬free → exec (.agentTrigger a) s = .next u)
    ∧ (a ∈ s.agentTriggers → free → (∀ c r, ¬candidate c r) → exec (.agentTrigger a) s = .next u)
    ∧ (a ∈ s.agentTriggers → free → (∃ c r, candidate c r) →
      ∃ c r t, candidate c r ∧ (∀ d q, candidate d q → ¬MoreUrgent s q r) ∧ exec (.agentTrigger a) s = .next t ∧ Bound u t c r a)

/-- SWEEP taken: rounds that each bind the most urgent of all groups' candidates to the agent selected for it, until no group has one.
A sweep that does not wait cannot be taken and has no effect: the model's choice (log entry 2). -/
def Obligations.SweepBindsUntilNoPairRemains : Prop :=
  ∀ (s : State), Calm s →
    (s.sweepWaiting = false → exec .sweep s = .next s)
    ∧ (s.sweepWaiting = true →
      ∃ t, exec .sweep s = .next t ∧ Sweeps { s with sweepWaiting := false } t
        ∧ ∀ g c r a, (t.group g).swapPending = false → c ∈ (t.group g).queue → t.call c = some r → r.state = .queued →
            ¬Eligible t r a)

/-- The tie-break registers. One advance of the generator: every bit moves one place up, the parity of the tapped bits enters at bit 0, and
0x0000 is replaced by 0x0001. TIEBREAK_SET writes the seed and the tap mask, a 0 replaced by its stand-in, and loads the generator with
the seed; TIEBREAK_READ returns the three and changes nothing; on ports A and B both are BAD_REQUEST. -/
def Obligations.TiebreakGeneratorAdvancesAndIsSet : Prop :=
  (∀ (taps w : Word16),
    ∃ shifted : Word16, (∀ i, i < 15 → shifted.getLsbD (i + 1) = w.getLsbD i)
      ∧ shifted.getLsbD 0 = (((List.range 16).filter fun i => w.getLsbD i && taps.getLsbD i).length % 2 == 1)
      ∧ State.nextGenerator taps w = if shifted = 0 then 1 else shifted)
  ∧ ∀ (s : State) (p : Port) (ps : List Byte),
    (∀ k ∈ [Kind.tiebreakSet, .tiebreakRead], p ≠ .s → Calm s → (s.port p).slot = .idle →
      exec (k.command p (frame ps)) s = .next (s.answered p (frame ps) .badRequest []))
    ∧ (Takes s .tiebreakSet p ps → ∀ seed taps : Word16,
      seed.toNat = (if u16 ps 0 = 0 then 0x0001 else u16 ps 0) → taps.toNat = (if u16 ps 2 = 0 then 0xD008 else u16 ps 2) →
        ∃ c : List Byte, c.length = 4 ∧ FieldsAt c [(0, 2, seed.toNat), (2, 2, taps.toNat)]
          ∧ exec (.tiebreakSet p (frame ps)) s =
              .next { s.answered p (frame ps) (if u16 ps 0 = 0 ∨ u16 ps 2 = 0 then .okClamped else .ok) c with
                seed := seed, taps := taps, generator := seed })
    ∧ (Takes s .tiebreakRead p ps →
      ∃ c : List Byte, c.length = 6
        ∧ FieldsAt c [(0, 2, s.seed.toNat), (2, 2, s.taps.toNat), (4, 2, s.generator.toNat)]
        ∧ exec (.tiebreakRead p (frame ps)) s = .next (s.answered p (frame ps) .ok c))

/-! ### The Estimator (R130 to R132, R135 to R138) -/

/-- The average of a group after a sample: 16 times the sample, clamped to 1–4095, if it is UNSET; else the old average moved by the
difference divided by 2 to the power of the active smoothing shift, truncated toward zero. Nothing else of the group changes, and no
other group. The average stays between its old value and 16 times the sample, does not move while the difference is below that power,
and is brought within it for good by a sample fed again and again. -/
def Obligations.AveragesMoveByTheShiftedDifference : Prop :=
  (∀ (s : State) (g : Group) (sample : Nat),
    let r := s.group g
    let x := 16 * min 4095 (max 1 sample)
    let k := r.active.shift
    (r.average = none → s.takeSample g sample = s.setGroup g { r with average := some x })
    ∧ ∀ a, r.average = some a → 16 ≤ a → a ≤ 65520 → 1 ≤ k → k ≤ 6 →
      (a ≤ x → s.takeSample g sample = s.setGroup g { r with average := some (max 16 (min 65520 (a + (x - a) / 2 ^ k))) })
      ∧ (x ≤ a → s.takeSample g sample = s.setGroup g { r with average := some (max 16 (min 65520 (a - (a - x) / 2 ^ k))) }))
  ∧ ∀ (k a x : Nat), 1 ≤ k → k ≤ 6 → 16 ≤ a → a ≤ 65520 → 1 ≤ x → x ≤ 4095 →
    let next := fun b => newAverage (some b) k x
    (min a (16 * x) ≤ next a ∧ next a ≤ max a (16 * x) ∧ 16 ≤ next a ∧ next a ≤ 65520)
    ∧ (a ≤ 16 * x → next a = a + (16 * x - a) / 2 ^ k) ∧ (16 * x ≤ a → next a = a - (a - 16 * x) / 2 ^ k)
    ∧ (a < 16 * x + 2 ^ k → 16 * x < a + 2 ^ k → next a = a)
    ∧ ∃ n, ∀ m, n ≤ m → next^[m] a < 16 * x + 2 ^ k ∧ 16 * x < next^[m] a + 2 ^ k

/-- What the SAY steps of an announcement speak for a call that is in its group's queue: its position; and the least whole minutes that
cover the least whole seconds that cover the estimated wait, or the NONE phrase with no agent staffed or no average. Numbers are
spoken as R138 decomposes them. -/
def Obligations.SayStepsSpeakPositionAndWait : Prop :=
  ∀ (s : State) (c : CallSlot) (r : CallRec), s.call c = some r → c ∈ (s.group r.group).queue →
    let p := (s.group r.group).queue.idxOf c + 1
    let spoken := fun (n : Nat) (l : List VocabNo) =>
      (1 ≤ n → n ≤ 20 → l.map Fin.val = [n - 1])
      ∧ (21 ≤ n → n ≤ 99 →
        l.map Fin.val = (if n / 10 = 2 then 19 else 20 + (n / 10 - 3)) :: (if n % 10 = 0 then [] else [n % 10 - 1]))
      ∧ (99 < n → l.map Fin.val = [27, 26, 8])
    spoken p (s.sayWords c .sayPosition)
    ∧ ((s.group r.group).staffed = 0 ∨ (s.group r.group).average = none → (s.sayWords c .sayWait).map Fin.val = [28])
    ∧ ∀ a n, (s.group r.group).average = some a → (s.group r.group).staffed = n → 16 ≤ a → 1 ≤ n →
      ∃ e m, 1 ≤ m ∧ p * a ≤ 16 * n * e ∧ 16 * n * e < p * a + 16 * n ∧ e ≤ 60 * m ∧ 60 * m < e + 60
        ∧ spoken m (s.sayWords c .sayWait)

/-! ### The Sample Store (R143 to R148, R157, R200) -/

/-- STORE_WRITE: an address past the RAM is BAD_PARAM and a byte of a present segment in use BUSY; else the bytes are written from the
start address upward, and every other byte reads as before. Nothing else changes. -/
def Obligations.StoreWriteWritesUnlessASegmentIsInUse : Prop :=
  ∀ (s : State) (p : Port) (ps : List Byte),
    (p ≠ .s → Calm s → (s.port p).slot = .idle →
      exec (.storeWrite p (frame ps)) s = .next (s.answered p (frame ps) .badRequest []))
    ∧ (Takes s .storeWrite p ps → Memory.wf s.ram = true →
      let a := u32 ps 0
      let n := ps.length - 4
      let inUse := ∃ (k : SegmentCode) (i : Nat), i < n ∧ (s.segment k).inUse ≠ 0 ∧ (s.segment k).start ≤ a + i
        ∧ a + i < (s.segment k).start + (s.segment k).length
      (4194304 < a + n → exec (.storeWrite p (frame ps)) s = .next (s.answered p (frame ps) .badParam []))
      ∧ (a + n ≤ 4194304 → inUse → exec (.storeWrite p (frame ps)) s = .next (s.answered p (frame ps) .busy []))
      ∧ (a + n ≤ 4194304 → ¬inUse →
        ∃ m : List Host.Cell, exec (.storeWrite p (frame ps)) s = .next ((s.answered p (frame ps) .ok []).setRam m)
          ∧ ∀ x, Memory.read m x = if a ≤ x ∧ x < a + n then ps.getD (4 + (x - a)) 0 else Memory.read s.ram x))

/-- SEGMENT_LOAD, PROGRAM_LOAD and VOCAB_LOAD: their checks in order, and what each stores; a refused load stores nothing, and no load
changes anything else. A program is held while a source runs it or has it staged, or a channel runs it. -/
def Obligations.LoadsStoreWhatTheyCarry : Prop :=
  ∀ (s : State) (ps : List Byte),
    (Takes s .segmentLoad .s ps →
      (240 ≤ u8 ps 0 ∨ (u32 ps 5 ≠ 0 ∧ 4194304 < u32 ps 1 + u32 ps 5) →
        exec (.segmentLoad .s (frame ps)) s = .next (s.answered .s (frame ps) .badParam []))
      ∧ ∀ k : SegmentCode, u8 ps 0 = k.val → (u32 ps 5 ≠ 0 → u32 ps 1 + u32 ps 5 ≤ 4194304) →
        ((s.segment k).inUse ≠ 0 → exec (.segmentLoad .s (frame ps)) s = .next (s.answered .s (frame ps) .busy []))
        ∧ ((s.segment k).inUse = 0 →
          exec (.segmentLoad .s (frame ps)) s =
            .next ((s.answered .s (frame ps) .ok []).setSegment k
              { start := if u32 ps 5 = 0 then 0 else u32 ps 1, length := u32 ps 5, inUse := 0 })))
    ∧ (Takes s .programLoad .s ps →
      let kind := fun i => u8 ps (2 + 2 * i)
      let operand := fun i => u8 ps (3 + 2 * i)
      let raised := fun i => (kind i = 2 ∨ kind i = 6) ∧ operand i = 0
      let unknown := ∃ i, i < u8 ps 1 ∧ (kind i = 0 ∨ 7 < kind i)
      let held := fun n : ProgramNo => (∃ m r, (s.source m).run = some r ∧ r.program = n)
        ∨ (∃ j b, s.channel j = some b ∧ b.run.program = n) ∨ ∃ m, (s.source m).staged = .value (some n)
      (64 ≤ u8 ps 0 ∨ 32 < u8 ps 1 ∨ unknown →
        exec (.programLoad .s (frame ps)) s = .next (s.answered .s (frame ps) .badParam []))
      ∧ ∀ n : ProgramNo, u8 ps 0 = n.val → u8 ps 1 ≤ 32 → ¬unknown →
        (held n → exec (.programLoad .s (frame ps)) s = .next (s.answered .s (frame ps) .busy []))
        ∧ (¬held n →
          ∃ (steps : List Step) (res : Result) (c : List Byte), steps.length = u8 ps 1
            ∧ (∀ i st, steps[i]? = some st → st.kind.code = kind i ∧ (raised i → st.operand = 1)
              ∧ (¬raised i → st.operand.toNat = operand i))
            ∧ ((∃ i, i < u8 ps 1 ∧ raised i) → res = .okClamped) ∧ ((∀ i, i < u8 ps 1 → ¬raised i) → res = .ok)
            ∧ c.length = 1 + 2 * steps.length ∧ FieldAt c 0 1 steps.length ∧ FieldsAt c (stepTable 1 steps)
            ∧ exec (.programLoad .s (frame ps)) s = .next ((s.answered .s (frame ps) res c).setProgram n steps)))
    ∧ (Takes s .vocabLoad .s ps →
      (29 ≤ u8 ps 0 ∨ (256 ≤ u16 ps 1 ∧ u16 ps 1 ≠ 0xFFFF) →
        exec (.vocabLoad .s (frame ps)) s = .next (s.answered .s (frame ps) .badParam []))
      ∧ ∀ (v : VocabNo) (o : Option Byte), u8 ps 0 = v.val → u16 ps 1 = (match o with | none => 0xFFFF | some code => code.toNat) →
        exec (.vocabLoad .s (frame ps)) s = .next ((s.answered .s (frame ps) .ok []).setVocab v o))

/-! ### Music sources, channels and the highway (R149 to R156, R162 to R171, R175, R176) -/

/-- SOURCE_SET in each state of the source: a STOPPED source takes the program at once, and starts if it has listeners and a program; a
RUNNING one drops what it has staged if the value is its current program, and stages any other. SOURCE_LIMIT writes the limit,
brought into 1–15. That a REPEAT reached at the start counts before its fill is the model's reading (log entry 18). -/
def Obligations.SourceSetAndLimitWriteTheSource : Prop :=
  ∀ (s : State) (ps : List Byte),
    (Takes s .sourceSet .s ps →
      (8 ≤ u8 ps 0 ∨ (64 ≤ u8 ps 1 ∧ u8 ps 1 ≠ 255) →
        exec (.sourceSet .s (frame ps)) s = .next (s.answered .s (frame ps) .badParam []))
      ∧ ∀ (m : SourceNo) (o : Option ProgramNo), u8 ps 0 = m.val → u8 ps 1 = codeNumber o →
        let q := s.source m
        (q.run = none → q.listeners = 0 ∨ o = none →
          exec (.sourceSet .s (frame ps)) s = .next ((s.answered .s (frame ps) .ok []).setSource m { q with current := o }))
        ∧ (∀ n, q.run = none → 0 < q.listeners → o = some n → StoreLegal s →
          ∃ v r,
            Carries (.source m)
              ((s.taken .s (frame ps)).setSource m { q with current := some n, run := some { program := n }, idlePasses := 0 })
              { program := n } v (some r)
            ∧ exec (.sourceSet .s (frame ps)) s =
                .next ((v.setSource m { v.source m with run := some r }).responded .s .ok []))
        ∧ (q.run ≠ none → o = q.current →
          exec (.sourceSet .s (frame ps)) s = .next ((s.answered .s (frame ps) .ok []).setSource m { q with staged := .empty }))
        ∧ (q.run ≠ none → o ≠ q.current →
          exec (.sourceSet .s (frame ps)) s =
            .next ((s.answered .s (frame ps) .pending []).setSource m { q with staged := .value o })))
    ∧ (Takes s .sourceLimit .s ps →
      (8 ≤ u8 ps 0 → exec (.sourceLimit .s (frame ps)) s = .next (s.answered .s (frame ps) .badParam []))
      ∧ ∀ m : SourceNo, u8 ps 0 = m.val →
        let n := max 1 (min 15 (u8 ps 1))
        ∃ c : List Byte, c.length = 1 ∧ FieldAt c 0 1 n
          ∧ exec (.sourceLimit .s (frame ps)) s =
              .next ((s.answered .s (frame ps) (if n = u8 ps 1 then .ok else .okClamped) c).setSource m
                { s.source m with idleLimit := n }))

/-- SLOT_MAP writes a highway channel's timeslot and idle mode, unless another channel has the timeslot; where the timeslot changes, a
LISTEN with it goes to the port of each call that hears the channel. IDLE_BYTE_SET writes the idle byte. The order of the LISTEN
notices, ascending in call slot, is the model's choice (log entry 12). A caller hears the timeslot of highway channel m on source m, of
8 + j on announcement channel j, and none with no listen source (R159). -/
def Obligations.SlotMapAndIdleByteAreWritten : Prop :=
  (∀ (m : SourceNo), (highwayOfSource m).val = m.val)
  ∧ (∀ h : HighwayChannel, (∀ m, playerOf h = .source m ↔ h.val = m.val) ∧ ∀ j, playerOf h = .channel j ↔ h.val = 8 + j.val)
  ∧ (∀ s : State, s.heard .silent = none
    ∧ (∀ (m : SourceNo) (h : HighwayChannel), h.val = m.val → s.heard (.music m) = s.slotOf h)
    ∧ ∀ (j : ChannelNo) (h : HighwayChannel), h.val = 8 + j.val → s.heard (.announce j) = s.slotOf h)
  ∧ ∀ (s : State) (ps : List Byte),
    (Takes s .slotMap .s ps →
      (24 ≤ u8 ps 0 ∨ (32 ≤ u8 ps 1 ∧ u8 ps 1 ≠ 255) ∨ 2 ≤ u8 ps 2 →
        exec (.slotMap .s (frame ps)) s = .next (s.answered .s (frame ps) .badParam []))
      ∧ ∀ (h : HighwayChannel) (x : Option Timeslot) (mode : IdleMode), u8 ps 0 = h.val → u8 ps 1 = codeNumber x →
        u8 ps 2 = (match mode with | .idleByte => 0 | .off => 1) →
        let hears := fun r : CallRec => match r.listen with
          | .silent => false
          | .music m => m.val == h.val
          | .announce j => 8 + j.val == h.val
        ((∃ k, k ≠ h ∧ x ≠ none ∧ s.slotOf k = x) →
          exec (.slotMap .s (frame ps)) s = .next (s.answered .s (frame ps) .busy []))
        ∧ ((∀ k, k ≠ h → x ≠ none → s.slotOf k ≠ x) →
          (s.slotOf h = x → exec (.slotMap .s (frame ps)) s = .next ((s.answered .s (frame ps) .ok []).setSlot h x mode))
          ∧ (s.slotOf h ≠ x →
            ∃ t, exec (.slotMap .s (frame ps)) s = .next t ∧ Answered t .s .ok [] ∧ OtherSlots s t .s
              ∧ (∀ k, t.slotOf k = (if k = h then x else s.slotOf k) ∧ t.modeOf k = (if k = h then mode else s.modeOf k))
              ∧ (∀ y : Shelf, (t.port (portOf y)).notices =
                  placed (s.port (portOf y)).notices
                    ((List.finRange 1024).filterMap fun c =>
                      ((s.call c).filter fun r => hears r && r.owner == y).map fun r => Notice.listen r.tag x))
              ∧ (∀ c, ((t.call c).map fun r => { r with owedListen := false }) = (s.call c).map fun r => { r with owedListen := false })
              ∧ t = { s with slotMap := t.slotMap, idleModes := t.idleModes, calls := t.calls, portA := t.portA, portB := t.portB,
                             portS := t.portS })))
    ∧ (Takes s .idleByteSet .s ps →
      exec (.idleByteSet .s (frame ps)) s = .next { s.answered .s (frame ps) .ok [] with idleByte := ps.getD 0 0 })

/-- One highway frame, with no step and no fill to complete: each mapped timeslot carries the byte that its running source or busy channel
plays, or the idle byte or nothing by its idle mode, and an unmapped one nothing; every run has played one more byte, and at the
last byte of a word that is not the last has come to its next word, whose segment is begun, or, missing, reported by SEGMENT_FAULT, the
highway channels one after another. Without such a word nothing else changes. That a step's segment is
left by its STEP_COMPLETE and not by the frame of its last byte, and a word's by the frame, is the model's reading (log entry 24), and
so is the position that a run holds between the two (log entry 29). (A completion that is outstanding is taken first: log entry 6.) -/
def Obligations.HighwayFrameDrivesTheSlotsAndAdvancesTheRuns : Prop :=
  ∀ s : State, Calm s → SlotsApart s → (∀ h r, s.runOf h = some r → ¬s.stepOver r ∧ ¬s.fillOver r) →
    ∃ t, exec .highwayFrame s = .next t
      ∧ (∀ (m : SourceNo) (h : HighwayChannel), h.val = m.val → s.runOf h = (s.source m).run)
      ∧ (∀ (j : ChannelNo) (h : HighwayChannel), h.val = 8 + j.val → s.runOf h = (s.channel j).map Announcement.run)
      ∧ (∀ x : Timeslot, (∀ h, s.slotOf h ≠ some x) → t.highway.get x = none)
      ∧ (∀ h x, s.slotOf h = some x →
        t.highway.get x =
          match s.runOf h, s.modeOf h with
          | some r, _ =>
            some (match r.fill, r.segment with
              | none, some k => Memory.read s.ram ((s.segment k).start + r.position)
              | _, _ => s.idleByte)
          | none, .idleByte => some s.idleByte
          | none, .off => none)
      ∧ (∀ h, s.runOf h = none → t.runOf h = none)
      ∧ (∀ h r, s.runOf h = some r →
        (s.nextWord r = none → t.runOf h = some { r with position := r.position + 1, played := true })
        ∧ (∀ v, s.nextWord r = some v →
          t.runOf h = some { r with word := r.word + 1, position := 0, segment := s.wordSegment v, played := true }))
      ∧ (∀ m, { t.source m with run := (s.source m).run } = s.source m)
      ∧ (∀ j, (t.channel j).map Announcement.call = (s.channel j).map Announcement.call)
      ∧ ((∀ h r, s.runOf h = some r → s.nextWord r = none) → t.segments = s.segments ∧ t.device = s.device ∧ t.portS = s.portS)
      ∧ (∃ v, WordsMet ((List.finRange 24).filterMap fun h => (s.runOf h).bind fun r => (s.nextWord r).map fun w => (r.segment, w)) s v
        ∧ t.segments = v.segments ∧ t.device = v.device ∧ t.portS = v.portS)
      ∧ t = { s with sources := t.sources, channels := t.channels, highway := t.highway, segments := t.segments,
                     device := t.device, portS := t.portS }

/-- STEP_COMPLETE of a run whose step has had its last byte played: the segment is left, and the run is carried on from the next step;
a source goes on or stops, a channel goes on or its announcement is over. A channel freed so goes to the head of the wait list, or, the
head's group naming no program, to the next that can be granted it (R170, R171). Of a run whose step is not over it has no effect: the
model's choice (log entry 2). That the segment is left here, that a REPEAT counts before its fill, and that an announcement may play
such a fill, is the model's reading (log entries 24, 18, 30). -/
def Obligations.CompletedStepsCarryTheRunOn : Prop :=
  ∀ (s : State) (h : HighwayChannel), Calm s → StoreLegal s → Arbitrated s →
    ((∀ r, s.runOf h = some r → ¬s.stepOver r) → exec (.stepComplete h) s = .next s)
    ∧ ∀ r, s.runOf h = some r → s.stepOver r →
      let next : Run := { r with step := r.step + 1, position := 0, segment := none, words := [], word := 0 }
      (∀ m, playerOf h = .source m →
        ∃ v e, Carries (.source m) (s.left r.segment) next v e
          ∧ exec (.stepComplete h) s =
              .next (match e with | some q => v.setSource m { v.source m with run := some q } | none => v))
      ∧ ∀ j c k, playerOf h = .channel j → s.channel j = some ⟨c, r⟩ → s.call c = some k → k.listen = .announce j →
        ∃ v e, Carries (.call c) (s.left r.segment) next v e
          ∧ (∀ q, e = some q → exec (.stepComplete h) s = .next (v.setChannel j (some ⟨c, q⟩)))
          ∧ (e = none → (∀ w ∈ s.waitList, s.call w.call ≠ none) →
            ∃ u t, exec (.stepComplete h) s = .next t ∧ AnnouncementOver v u j c k ∧ Arbitrates u t)

/-- FILL_COMPLETE of a run whose fill has had its last byte played: the return that waited is taken, with the steps of a pass end where it
is one, and the run is carried on from where it leads. A channel that is freed goes to the wait list as at a step's end. Of a run with
no such fill it has no effect: the model's choice (log entry 2). The return remembered during the fill, and the REPEAT counted before
it, is the model's reading (log entry 18), and so is the fill of an announcement without a step that takes time (log entry 30). -/
def Obligations.CompletedFillsTakeTheReturn : Prop :=
  ∀ (s : State) (h : HighwayChannel), Calm s → StoreLegal s → Arbitrated s →
    ((∀ r, s.runOf h = some r → ¬s.fillOver r) → exec (.fillComplete h) s = .next s)
    ∧ ∀ r ret, s.runOf h = some r → s.fillOver r → r.fill = some ret →
      (∀ m, playerOf h = .source m →
        ∃ u e, ReturnTaken s (.source m) ret r u e
          ∧ (e = none → exec (.fillComplete h) s = .next u)
          ∧ ∀ w, e = some w → ∃ v d, Carries (.source m) u w v d
            ∧ exec (.fillComplete h) s =
                .next (match d with | some q => v.setSource m { v.source m with run := some q } | none => v))
      ∧ ∀ j c k, playerOf h = .channel j → s.channel j = some ⟨c, r⟩ → s.call c = some k → k.listen = .announce j →
        ∃ w v d, ReturnTaken s (.call c) ret r s (some w) ∧ Carries (.call c) s w v d
          ∧ (∀ q, d = some q → exec (.fillComplete h) s = .next (v.setChannel j (some ⟨c, q⟩)))
          ∧ (d = none → (∀ w ∈ s.waitList, s.call w.call ≠ none) →
            ∃ u t, exec (.fillComplete h) s = .next t ∧ AnnouncementOver v u j c k ∧ Arbitrates u t)

/-- ANNOUNCEMENT_DUE at its second: the due second is cleared. A QUEUED or OFFERED call that is not on the wait list joins it at its place
if no channel is FREE; with the list empty and a channel FREE it is granted the lowest, unless its group names no program. Before its
second the event has no effect: the model's choice (log entry 2). That the entry holds the due second, that a REPEAT counts before its
fill, and that an announcement may play such a fill, is the model's reading (log entries 26, 18, 30). -/
def Obligations.DueAnnouncementsJoinTheListOrAreGranted : Prop :=
  ∀ (s : State) (c : CallSlot) (r : CallRec), WrapsOver s → StoreLegal s → Arbitrated s → s.call c = some r →
    let k := { r with nextDue := none }
    let waits := r.state = .queued ∨ r.state = .offered
    let listed := ∃ e ∈ s.waitList, e.call = c
    ((∀ due, r.nextDue = some due → s.clock < due) → exec (.announcementDue c) s = .next s)
    ∧ ∀ due, r.nextDue = some due → due ≤ s.clock →
      (¬waits ∨ listed → exec (.announcementDue c) s = .next (s.putCall c (some k)))
      ∧ (waits → ¬listed → (∀ j, s.channel j ≠ none) →
        ∃ t, exec (.announcementDue c) s = .next t ∧ t.call c = some { k with onWaitList := true }
          ∧ (∀ d, d ≠ c → t.call d = s.call d)
          ∧ (let before := fun e : WaitEntry => due < e.due ∨ (due = e.due ∧ ∃ q, s.call e.call = some q ∧ r.seq < q.seq)
            (∀ e ∈ s.waitList, s.call e.call ≠ none) →
              ∃ l m, s.waitList = l ++ m ∧ t.waitList = l ++ ⟨c, due⟩ :: m ∧ (∀ e ∈ l, ¬before e) ∧ ∀ e ∈ m.head?, before e)
          ∧ StarvedEvaluated s t t.waitList s.clock
          ∧ t = { s with calls := t.calls, waitList := t.waitList, device := t.device, portS := t.portS })
      ∧ ∀ j, waits → s.waitList = [] → s.channel j = none → (∀ i, i < j → s.channel i ≠ none) → r.onWaitList = false →
        s.clock < due + 30 → s.device.starvedCondition = false →
          ((s.group r.group).active.program = none → exec (.announcementDue c) s = .next (s.putCall c (some k)))
          ∧ ∀ p, (s.group r.group).active.program = some p →
            ∃ w v e, ChannelGranted (s.putCall c (some k)) w j c k p ∧ Carries (.call c) w { program := p } v e
              ∧ (∀ q, e = some q → exec (.announcementDue c) s = .next (v.setChannel j (some ⟨c, q⟩)))
              ∧ (e = none →
                ∃ t q, exec (.announcementDue c) s = .next t ∧ v.call c = some q ∧ AnnouncementOver v t j c q)

/-! ### Notices and watch flags (R188, R189, R193, R199) -/

/-- FETCH: EMPTY with no notice; else the oldest notice is removed and returned, and of the owed pairs those ahead of the first that
is built are dropped, that one is placed at the tail, and the owed flags of all of them are cleared. A shelf port whose full queue
has room again raises a sweep. -/
def Obligations.FetchReturnsTheOldestNotice : Prop :=
  ∀ (s : State) (p : Port) (ps : List Byte), Takes s .fetch p ps →
    ((s.port p).notices = [] → exec (.fetch p (frame ps)) s = .next (s.answered p (frame ps) .empty []))
    ∧ ∀ n rest, (s.port p).notices = n :: rest →
      ∃ t content, exec (.fetch p (frame ps)) s = .next t ∧ Answered t p .ok content
        ∧ content.length = (noticeTable n).1 ∧ FieldsAt content (noticeTable n).2 ∧ OtherSlots s t p
        ∧ (∃ dropped left new gone,
          (s.port p).owed = dropped ++ left ∧ (∀ o ∈ dropped, ∀ m, ¬BuiltAs s o m)
          ∧ ((left = [] ∧ new = [] ∧ gone = dropped ∧ (t.port p).owed = [])
            ∨ (∃ o more m, left = o :: more ∧ BuiltAs s o m ∧ new = [m] ∧ gone = dropped ++ [o] ∧ (t.port p).owed = more))
          ∧ (t.port p).notices = rest ++ new
          ∧ (∀ a, t.agent a = { s.agent a with owed := (s.agent a).owed && !gone.contains (.agentState a) })
          ∧ (∀ c, t.call c = (s.call c).map fun r =>
              { r with
                owedListen := r.owedListen && !gone.contains (.call c .listen)
                owedConnect := r.owedConnect && !gone.contains (.call c .connect)
                owedCleared := r.owedCleared && !gone.contains (.call c .cleared) })
          ∧ t.device = { s.device with watchOwed := s.device.watchOwed && !gone.contains .watch })
        ∧ t.sweepWaiting =
            (s.sweepWaiting || (p != .s && decide (64 ≤ (s.port p).notices.length) && decide ((t.port p).notices.length < 64)))
        ∧ (∀ q, q ≠ p → SameQueue s t q)
        ∧ t = { s with agents := t.agents, calls := t.calls, device := t.device, sweepWaiting := t.sweepWaiting, portA := t.portA,
                       portB := t.portB, portS := t.portS }

/-- WATCH_CLEAR clears the device flags named and the group kinds named in the groups selected: one, all or none. No condition, no mask
and no notice changes, and nothing else. -/
def Obligations.WatchClearClearsTheFlagsNamed : Prop :=
  ∀ (s : State) (ps : List Byte), Takes s .watchClear .s ps →
    let d := s.device
    (64 ≤ u8 ps 2 → u8 ps 2 ≠ 0xFE → u8 ps 2 ≠ 0xFF →
      exec (.watchClear .s (frame ps)) s = .next (s.answered .s (frame ps) .badGroup []))
    ∧ (u8 ps 2 < 64 ∨ u8 ps 2 = 0xFE ∨ u8 ps 2 = 0xFF →
      ∃ t, exec (.watchClear .s (frame ps)) s = .next t
        ∧ (∀ g : Group, t.group g =
          if u8 ps 2 = 0xFE ∨ u8 ps 2 = g.val then
            { s.group g with
              flags :=
                { depth := (s.group g).flags.depth && !(u8 ps 1).testBit 0
                  wait := (s.group g).flags.wait && !(u8 ps 1).testBit 1
                  noStaff := (s.group g).flags.noStaff && !(u8 ps 1).testBit 2 } }
          else s.group g)
        ∧ t = { s.answered .s (frame ps) .ok [] with
                groups := t.groups
                device :=
                  { d with
                    purgeDone := d.purgeDone && !(u8 ps 0).testBit 0
                    segmentFault := d.segmentFault && !(u8 ps 0).testBit 1
                    starved := d.starved && !(u8 ps 0).testBit 2 } })

/-! ### Purge, restart and the station clock (R26, R48, R51, R73, R143, R168, R178, R190, R194, R195) -/

/-- PURGE from a shelf port and PURGE_SHELF from port S: a shelf byte other than 0 and 1 is BAD_PARAM; else every call of the shelf is
freed, its agents are signed out or, CONNECTED to a call of the other shelf, marked, and its queue and owed list are emptied. The
response counts the calls freed and the agents that have passed to SIGNED_OUT; each call that was QUEUED or OFFERED counts as purged
at its group. Calls and agents being bound both ways, each agent concerned is where R27, R28 and R116 lead it. The records agreeing with
one another, each call of the other shelf keeps its record and its place, or, withdrawn from an agent of the shelf, is QUEUED with
that agent as its last refused and has a pending overflow attempted; the triggers raised are those of R93, the port of the other shelf
is handed the AGENT_STATE of each of its agents that has lost a call, and the groups' conditions, offers and swaps follow. That an
OFFERED call is freed before its agent of the same shelf is signed out is the model's reading (log entry 31). -/
def Obligations.PurgeEmptiesTheShelf : Prop :=
  ∀ (s : State) (k : Kind) (p : Port) (ps : List Byte), k = .purge ∨ k = .purgeShelf → Takes s k p ps →
    (k = .purgeShelf → 2 ≤ u8 ps 0 → exec (k.command p (frame ps)) s = .next (s.answered p (frame ps) .badParam []))
    ∧ ∀ x : Shelf, (k = .purge → p = portOf x) → (k = .purgeShelf → shelfOfByte (u8 ps 0) = some x) →
      ∃ t content, exec (k.command p (frame ps)) s = .next t ∧ Answered t p .ok content ∧ content.length = 4
        ∧ FieldsAt content
            [(0, 2, ((List.finRange 1024).filter fun c => (s.call c).any fun r => r.owner == x).length),
              (2, 2, ((List.finRange 512).filter fun a =>
                (s.agent a).home == x && (s.agent a).state != .signedOut && (t.agent a).state == .signedOut).length)]
        ∧ OtherSlots s t p ∧ Purged s t x ∧ (BindingsLegal s → PurgedAgents s t x)
        ∧ (LinksLegal s → PurgedOthers s t x)
        ∧ ((∀ c r, s.call c = some r → r.owner = x → r.state = .offered → r.boundAgent ≠ none) →
          ∀ g, (t.group g).stats.purged =
            let n := ((List.finRange 1024).filter fun c =>
              (s.call c).any fun r => r.owner == x && r.group == g && (r.state == .queued || r.state == .offered)).length
            if n = 0 then (s.group g).stats.purged else min 65535 ((s.group g).stats.purged + n))

/-- RESTART leaves the working state at its restart values and the configuration and the station clock as they are. A swap that was
pending is performed, a staged program takes effect, the generator holds the seed; no notice is placed. -/
def Obligations.RestartKeepsTheConfiguration : Prop :=
  ∀ (s : State) (ps : List Byte), Takes s .restart .s ps →
    ∃ t, exec (.restart .s (frame ps)) s = .next t ∧ Answered t .s .ok []
      ∧ (∀ a, t.agent a =
          { defined := (s.agent a).defined, home := (s.agent a).home, skills := (s.agent a).skills, state := .signedOut,
            auxReason := 0, idleSince := 0, boundCall := none, pending := .none,
            wrap := { start := 0, finish := 0, cap := 0, extensions := 0, group := 0, talk := 0, mark := .keep },
            callsHandled := 0, answerStart := 0, owed := false })
      ∧ (∀ g, t.group g =
          { active := if (s.group g).swapPending then (s.group g).staged else (s.group g).active, staged := (s.group g).staged,
            swapPending := false, offers := 0, supervisorClosed := (s.group g).supervisorClosed, queue := [],
            stats := { answered := 0, abandoned := 0, overflowedOut := 0, overflowedIn := 0, purged := 0 }, staffed := 0,
            average := none, flags := WatchBits.clear, masks := (s.group g).masks, conditions := WatchBits.clear })
      ∧ (∀ c, t.call c = none) ∧ t.seqCounter = 0 ∧ t.generator = s.seed
      ∧ t.callTriggers = [] ∧ t.agentTriggers = [] ∧ t.sweepWaiting = false
      ∧ (∀ k, t.segment k = { s.segment k with inUse := 0 })
      ∧ (∀ m, t.source m =
          { current := match (s.source m).staged with | .empty => (s.source m).current | .value o => o
            staged := .empty, run := none, listeners := 0, idlePasses := 0, idleLimit := (s.source m).idleLimit })
      ∧ (∀ j, t.channel j = none) ∧ t.waitList = []
      ∧ (∀ x, t.port (portOf x) = { s.port (portOf x) with notices := [], owed := [] })
      ∧ (t.port .s).notices = [] ∧ (t.port .s).owed = []
      ∧ t.device =
          { purgeDone := false, segmentFault := false, starved := false, maskSegmentFault := s.device.maskSegmentFault,
            maskStarved := s.device.maskStarved, starvedCondition := false, watchOwed := false }
      ∧ SameBase s { t with seqCounter := s.seqCounter, generator := s.generator }

/-- STATION_CLOCK_ADVANCE, with no expiry of its second outstanding: the clock counts one second, the WAIT condition of every group and
the STARVED condition are evaluated in the new second, with their flags, and nothing else changes. A WATCH is handed to port S for each
flag that is newly set and unmasked: placed while there is room, and owed once beyond (R46, R187, R190, R192). The second after
4,294,967,295 is a free value, and a free value is drawn for it (log entry 7); an expiry that is outstanding is taken first (log entry
5): the model's choices. -/
def Obligations.ClockAdvanceEvaluatesWaitAndStarved : Prop :=
  ∀ s : State, Calm s →
    (∀ c r, s.call c = some r → (∀ e, r.ring = some e → s.clock < e) ∧ (∀ e, r.overflowDue = some e → s.clock < e)
      ∧ ∀ e, r.nextDue = some e → s.clock < e) →
    ∃ t, exec .stationClockAdvance s = .next t
      ∧ (s.clock < 4294967295 → t.clock = s.clock + 1 ∧ t.free = s.free)
      ∧ (s.clock = 4294967295 → t.clock < 4294967296 ∧ t.free = s.free + 1)
      ∧ (let waits := fun g : Group =>
          let r := s.group g
          let oldest := (r.queue.filterMap s.call).foldl (fun m q => max m (t.clock - q.entry)) 0
          r.active.waitObjective != 0 && !r.queue.isEmpty && decide (r.active.waitObjective ≤ oldest)
        let starves := starvedBy s.waitList t.clock && !s.device.starvedCondition
        (∀ g, let r := s.group g
          t.group g =
            { r with
              conditions := { r.conditions with wait := waits g }
              flags := { r.flags with wait := r.flags.wait || (waits g && !r.conditions.wait) } })
        ∧ { t.device with watchOwed := s.device.watchOwed } =
            { s.device with
              starvedCondition := starvedBy s.waitList t.clock
              starved := s.device.starved || starves }
        ∧ ∃ l : List Watch,
          l.length =
            ((List.finRange 64).filter fun g =>
              let r := s.group g
              waits g && !r.conditions.wait && !r.flags.wait && !r.masks.wait).length
              + (if starves && !s.device.starved && !s.device.maskStarved then 1 else 0)
          ∧ t.portS.notices = placed s.portS.notices (l.map Notice.watch)
          ∧ t.device.watchOwed = (s.device.watchOwed || decide (64 < s.portS.notices.length + l.length && l ≠ []))
          ∧ t.portS.owed =
            if t.device.watchOwed = s.device.watchOwed then s.portS.owed else s.portS.owed ++ [.watch])
      ∧ SameSlots s t
      ∧ t = { s with clock := t.clock, free := t.free, groups := t.groups, portS := t.portS, device := t.device }

/-! ### Legal states, kept by every step (R2, R30, R53, R54, R74, R129, R141, R142, R147, R175, R187) -/

/-- Every step keeps the stores legal: the sample RAM in canonical form, every present segment within it, no program longer than 32
steps; and no two highway channels on one timeslot. It leaves the arbiter nothing to do: no call waits while a channel is FREE (R170). -/
def Obligations.EveryStepKeepsTheStoreAndTheSlotMapLegal : Prop :=
  ∀ s t : State, step s = .next t →
    (StoreLegal s → StoreLegal t) ∧ (SlotsApart s → SlotsApart t) ∧ (Arbitrated s → Arbitrated t)

/-- Every step keeps the ports legal: at most 64 notices in a queue, and 64 while a pair is owed; each pair at most once on an owed list, and
a record's owed flag set exactly while its pair is on the list of its port. A queue has room while it holds fewer than 64. -/
def Obligations.EveryStepKeepsThePortsLegal : Prop :=
  (∀ (s : State) (p : Port), s.hasRoom p = true ↔ (s.port p).notices.length < 64)
  ∧ (∀ s t : State, PortsLegal s → step s = .next t → PortsLegal t)
  ∧ ∀ s t : State, PortsLegal s → OwedLegal s → step s = .next t → OwedLegal t

/-- Every step keeps the records legal: both parameter sets of each group in range, its average UNSET or 16–65520; hops, no-answers and
priorities in range; no tag twice on a shelf; skill lists legal; seed, tap mask and generator not 0. And it keeps them in agreement:
bindings both ways, the members and the order of the queues, every count that a record keeps, the wait list with its flags, and the
channels with those who listen to them. -/
def Obligations.EveryStepKeepsTheRecordsLegal : Prop :=
  (∀ s t : State, GroupsLegal s → RecordsLegal s → step s = .next t → GroupsLegal t ∧ RecordsLegal t)
  ∧ ∀ s t : State, StoreLegal s → GroupsLegal s → RecordsLegal s → LinksLegal s → step s = .next t → LinksLegal t

/-- The state that the model starts from is legal. -/
def Obligations.ResetIsLegal : Prop :=
  StoreLegal State.reset ∧ SlotsApart State.reset ∧ PortsLegal State.reset ∧ GroupsLegal State.reset ∧ RecordsLegal State.reset
    ∧ OwedLegal State.reset ∧ LinksLegal State.reset ∧ Calm State.reset ∧ Arbitrated State.reset
end

