-- ==== Sys2Proof/Laws/State.lean ====
section
/-! SUPPORT. For every update of the state and every field: what the field holds after the update. All are true by unfolding and are
simplification rules, so that no proof unfolds a record update. -/
namespace Sys2Proof.Machine.State

/-! ### Fields that an update leaves alone -/

section
variable (s : State) (a : AgentSlot) (r : AgentRec)
@[simp] theorem setAgent_clock : (s.setAgent a r).clock = s.clock := rfl
@[simp] theorem setAgent_groups : (s.setAgent a r).groups = s.groups := rfl
@[simp] theorem setAgent_calls : (s.setAgent a r).calls = s.calls := rfl
@[simp] theorem setAgent_seqCounter : (s.setAgent a r).seqCounter = s.seqCounter := rfl
@[simp] theorem setAgent_lines : (s.setAgent a r).lines = s.lines := rfl
@[simp] theorem setAgent_seed : (s.setAgent a r).seed = s.seed := rfl
@[simp] theorem setAgent_taps : (s.setAgent a r).taps = s.taps := rfl
@[simp] theorem setAgent_generator : (s.setAgent a r).generator = s.generator := rfl
@[simp] theorem setAgent_callTriggers : (s.setAgent a r).callTriggers = s.callTriggers := rfl
@[simp] theorem setAgent_agentTriggers : (s.setAgent a r).agentTriggers = s.agentTriggers := rfl
@[simp] theorem setAgent_sweepWaiting : (s.setAgent a r).sweepWaiting = s.sweepWaiting := rfl
@[simp] theorem setAgent_ram : (s.setAgent a r).ram = s.ram := rfl
@[simp] theorem setAgent_segments : (s.setAgent a r).segments = s.segments := rfl
@[simp] theorem setAgent_programs : (s.setAgent a r).programs = s.programs := rfl
@[simp] theorem setAgent_vocab : (s.setAgent a r).vocab = s.vocab := rfl
@[simp] theorem setAgent_sources : (s.setAgent a r).sources = s.sources := rfl
@[simp] theorem setAgent_channels : (s.setAgent a r).channels = s.channels := rfl
@[simp] theorem setAgent_waitList : (s.setAgent a r).waitList = s.waitList := rfl
@[simp] theorem setAgent_slotMap : (s.setAgent a r).slotMap = s.slotMap := rfl
@[simp] theorem setAgent_idleModes : (s.setAgent a r).idleModes = s.idleModes := rfl
@[simp] theorem setAgent_idleByte : (s.setAgent a r).idleByte = s.idleByte := rfl
@[simp] theorem setAgent_highway : (s.setAgent a r).highway = s.highway := rfl
@[simp] theorem setAgent_portA : (s.setAgent a r).portA = s.portA := rfl
@[simp] theorem setAgent_portB : (s.setAgent a r).portB = s.portB := rfl
@[simp] theorem setAgent_portS : (s.setAgent a r).portS = s.portS := rfl
@[simp] theorem setAgent_device : (s.setAgent a r).device = s.device := rfl
@[simp] theorem setAgent_free : (s.setAgent a r).free = s.free := rfl
@[simp] theorem setAgent_pending : (s.setAgent a r).pending = s.pending := rfl
@[simp] theorem setAgent_group (i : Group) : (s.setAgent a r).group i = s.group i := rfl
@[simp] theorem setAgent_call (i : CallSlot) : (s.setAgent a r).call i = s.call i := rfl
@[simp] theorem setAgent_line (i : LineNo) : (s.setAgent a r).line i = s.line i := rfl
@[simp] theorem setAgent_segment (i : SegmentCode) : (s.setAgent a r).segment i = s.segment i := rfl
@[simp] theorem setAgent_programSteps (i : ProgramNo) : (s.setAgent a r).programSteps i = s.programSteps i := rfl
@[simp] theorem setAgent_vocabEntry (i : VocabNo) : (s.setAgent a r).vocabEntry i = s.vocabEntry i := rfl
@[simp] theorem setAgent_source (i : SourceNo) : (s.setAgent a r).source i = s.source i := rfl
@[simp] theorem setAgent_channel (i : ChannelNo) : (s.setAgent a r).channel i = s.channel i := rfl
@[simp] theorem setAgent_slotOf (i : HighwayChannel) : (s.setAgent a r).slotOf i = s.slotOf i := rfl
@[simp] theorem setAgent_modeOf (i : HighwayChannel) : (s.setAgent a r).modeOf i = s.modeOf i := rfl
@[simp] theorem setAgent_port (i : Port) : (s.setAgent a r).port i = s.port i := rfl
@[simp] theorem setAgent_hasRoom (i : Port) : (s.setAgent a r).hasRoom i = s.hasRoom i := rfl
end

section
variable (s : State) (g : Group) (r : GroupRec)
@[simp] theorem setGroup_clock : (s.setGroup g r).clock = s.clock := rfl
@[simp] theorem setGroup_agents : (s.setGroup g r).agents = s.agents := rfl
@[simp] theorem setGroup_calls : (s.setGroup g r).calls = s.calls := rfl
@[simp] theorem setGroup_seqCounter : (s.setGroup g r).seqCounter = s.seqCounter := rfl
@[simp] theorem setGroup_lines : (s.setGroup g r).lines = s.lines := rfl
@[simp] theorem setGroup_seed : (s.setGroup g r).seed = s.seed := rfl
@[simp] theorem setGroup_taps : (s.setGroup g r).taps = s.taps := rfl
@[simp] theorem setGroup_generator : (s.setGroup g r).generator = s.generator := rfl
@[simp] theorem setGroup_callTriggers : (s.setGroup g r).callTriggers = s.callTriggers := rfl
@[simp] theorem setGroup_agentTriggers : (s.setGroup g r).agentTriggers = s.agentTriggers := rfl
@[simp] theorem setGroup_sweepWaiting : (s.setGroup g r).sweepWaiting = s.sweepWaiting := rfl
@[simp] theorem setGroup_ram : (s.setGroup g r).ram = s.ram := rfl
@[simp] theorem setGroup_segments : (s.setGroup g r).segments = s.segments := rfl
@[simp] theorem setGroup_programs : (s.setGroup g r).programs = s.programs := rfl
@[simp] theorem setGroup_vocab : (s.setGroup g r).vocab = s.vocab := rfl
@[simp] theorem setGroup_sources : (s.setGroup g r).sources = s.sources := rfl
@[simp] theorem setGroup_channels : (s.setGroup g r).channels = s.channels := rfl
@[simp] theorem setGroup_waitList : (s.setGroup g r).waitList = s.waitList := rfl
@[simp] theorem setGroup_slotMap : (s.setGroup g r).slotMap = s.slotMap := rfl
@[simp] theorem setGroup_idleModes : (s.setGroup g r).idleModes = s.idleModes := rfl
@[simp] theorem setGroup_idleByte : (s.setGroup g r).idleByte = s.idleByte := rfl
@[simp] theorem setGroup_highway : (s.setGroup g r).highway = s.highway := rfl
@[simp] theorem setGroup_portA : (s.setGroup g r).portA = s.portA := rfl
@[simp] theorem setGroup_portB : (s.setGroup g r).portB = s.portB := rfl
@[simp] theorem setGroup_portS : (s.setGroup g r).portS = s.portS := rfl
@[simp] theorem setGroup_device : (s.setGroup g r).device = s.device := rfl
@[simp] theorem setGroup_free : (s.setGroup g r).free = s.free := rfl
@[simp] theorem setGroup_pending : (s.setGroup g r).pending = s.pending := rfl
@[simp] theorem setGroup_agent (i : AgentSlot) : (s.setGroup g r).agent i = s.agent i := rfl
@[simp] theorem setGroup_call (i : CallSlot) : (s.setGroup g r).call i = s.call i := rfl
@[simp] theorem setGroup_line (i : LineNo) : (s.setGroup g r).line i = s.line i := rfl
@[simp] theorem setGroup_segment (i : SegmentCode) : (s.setGroup g r).segment i = s.segment i := rfl
@[simp] theorem setGroup_programSteps (i : ProgramNo) : (s.setGroup g r).programSteps i = s.programSteps i := rfl
@[simp] theorem setGroup_vocabEntry (i : VocabNo) : (s.setGroup g r).vocabEntry i = s.vocabEntry i := rfl
@[simp] theorem setGroup_source (i : SourceNo) : (s.setGroup g r).source i = s.source i := rfl
@[simp] theorem setGroup_channel (i : ChannelNo) : (s.setGroup g r).channel i = s.channel i := rfl
@[simp] theorem setGroup_slotOf (i : HighwayChannel) : (s.setGroup g r).slotOf i = s.slotOf i := rfl
@[simp] theorem setGroup_modeOf (i : HighwayChannel) : (s.setGroup g r).modeOf i = s.modeOf i := rfl
@[simp] theorem setGroup_port (i : Port) : (s.setGroup g r).port i = s.port i := rfl
@[simp] theorem setGroup_hasRoom (i : Port) : (s.setGroup g r).hasRoom i = s.hasRoom i := rfl
end

section
variable (s : State) (c : CallSlot) (r : Option CallRec)
@[simp] theorem putCall_clock : (s.putCall c r).clock = s.clock := rfl
@[simp] theorem putCall_agents : (s.putCall c r).agents = s.agents := rfl
@[simp] theorem putCall_groups : (s.putCall c r).groups = s.groups := rfl
@[simp] theorem putCall_seqCounter : (s.putCall c r).seqCounter = s.seqCounter := rfl
@[simp] theorem putCall_lines : (s.putCall c r).lines = s.lines := rfl
@[simp] theorem putCall_seed : (s.putCall c r).seed = s.seed := rfl
@[simp] theorem putCall_taps : (s.putCall c r).taps = s.taps := rfl
@[simp] theorem putCall_generator : (s.putCall c r).generator = s.generator := rfl
@[simp] theorem putCall_callTriggers : (s.putCall c r).callTriggers = s.callTriggers := rfl
@[simp] theorem putCall_agentTriggers : (s.putCall c r).agentTriggers = s.agentTriggers := rfl
@[simp] theorem putCall_sweepWaiting : (s.putCall c r).sweepWaiting = s.sweepWaiting := rfl
@[simp] theorem putCall_ram : (s.putCall c r).ram = s.ram := rfl
@[simp] theorem putCall_segments : (s.putCall c r).segments = s.segments := rfl
@[simp] theorem putCall_programs : (s.putCall c r).programs = s.programs := rfl
@[simp] theorem putCall_vocab : (s.putCall c r).vocab = s.vocab := rfl
@[simp] theorem putCall_sources : (s.putCall c r).sources = s.sources := rfl
@[simp] theorem putCall_channels : (s.putCall c r).channels = s.channels := rfl
@[simp] theorem putCall_waitList : (s.putCall c r).waitList = s.waitList := rfl
@[simp] theorem putCall_slotMap : (s.putCall c r).slotMap = s.slotMap := rfl
@[simp] theorem putCall_idleModes : (s.putCall c r).idleModes = s.idleModes := rfl
@[simp] theorem putCall_idleByte : (s.putCall c r).idleByte = s.idleByte := rfl
@[simp] theorem putCall_highway : (s.putCall c r).highway = s.highway := rfl
@[simp] theorem putCall_portA : (s.putCall c r).portA = s.portA := rfl
@[simp] theorem putCall_portB : (s.putCall c r).portB = s.portB := rfl
@[simp] theorem putCall_portS : (s.putCall c r).portS = s.portS := rfl
@[simp] theorem putCall_device : (s.putCall c r).device = s.device := rfl
@[simp] theorem putCall_free : (s.putCall c r).free = s.free := rfl
@[simp] theorem putCall_pending : (s.putCall c r).pending = s.pending := rfl
@[simp] theorem putCall_agent (i : AgentSlot) : (s.putCall c r).agent i = s.agent i := rfl
@[simp] theorem putCall_group (i : Group) : (s.putCall c r).group i = s.group i := rfl
@[simp] theorem putCall_line (i : LineNo) : (s.putCall c r).line i = s.line i := rfl
@[simp] theorem putCall_segment (i : SegmentCode) : (s.putCall c r).segment i = s.segment i := rfl
@[simp] theorem putCall_programSteps (i : ProgramNo) : (s.putCall c r).programSteps i = s.programSteps i := rfl
@[simp] theorem putCall_vocabEntry (i : VocabNo) : (s.putCall c r).vocabEntry i = s.vocabEntry i := rfl
@[simp] theorem putCall_source (i : SourceNo) : (s.putCall c r).source i = s.source i := rfl
@[simp] theorem putCall_channel (i : ChannelNo) : (s.putCall c r).channel i = s.channel i := rfl
@[simp] theorem putCall_slotOf (i : HighwayChannel) : (s.putCall c r).slotOf i = s.slotOf i := rfl
@[simp] theorem putCall_modeOf (i : HighwayChannel) : (s.putCall c r).modeOf i = s.modeOf i := rfl
@[simp] theorem putCall_port (i : Port) : (s.putCall c r).port i = s.port i := rfl
@[simp] theorem putCall_hasRoom (i : Port) : (s.putCall c r).hasRoom i = s.hasRoom i := rfl
end

section
variable (s : State) (l : LineNo) (r : LineRec)
@[simp] theorem setLine_clock : (s.setLine l r).clock = s.clock := rfl
@[simp] theorem setLine_agents : (s.setLine l r).agents = s.agents := rfl
@[simp] theorem setLine_groups : (s.setLine l r).groups = s.groups := rfl
@[simp] theorem setLine_calls : (s.setLine l r).calls = s.calls := rfl
@[simp] theorem setLine_seqCounter : (s.setLine l r).seqCounter = s.seqCounter := rfl
@[simp] theorem setLine_seed : (s.setLine l r).seed = s.seed := rfl
@[simp] theorem setLine_taps : (s.setLine l r).taps = s.taps := rfl
@[simp] theorem setLine_generator : (s.setLine l r).generator = s.generator := rfl
@[simp] theorem setLine_callTriggers : (s.setLine l r).callTriggers = s.callTriggers := rfl
@[simp] theorem setLine_agentTriggers : (s.setLine l r).agentTriggers = s.agentTriggers := rfl
@[simp] theorem setLine_sweepWaiting : (s.setLine l r).sweepWaiting = s.sweepWaiting := rfl
@[simp] theorem setLine_ram : (s.setLine l r).ram = s.ram := rfl
@[simp] theorem setLine_segments : (s.setLine l r).segments = s.segments := rfl
@[simp] theorem setLine_programs : (s.setLine l r).programs = s.programs := rfl
@[simp] theorem setLine_vocab : (s.setLine l r).vocab = s.vocab := rfl
@[simp] theorem setLine_sources : (s.setLine l r).sources = s.sources := rfl
@[simp] theorem setLine_channels : (s.setLine l r).channels = s.channels := rfl
@[simp] theorem setLine_waitList : (s.setLine l r).waitList = s.waitList := rfl
@[simp] theorem setLine_slotMap : (s.setLine l r).slotMap = s.slotMap := rfl
@[simp] theorem setLine_idleModes : (s.setLine l r).idleModes = s.idleModes := rfl
@[simp] theorem setLine_idleByte : (s.setLine l r).idleByte = s.idleByte := rfl
@[simp] theorem setLine_highway : (s.setLine l r).highway = s.highway := rfl
@[simp] theorem setLine_portA : (s.setLine l r).portA = s.portA := rfl
@[simp] theorem setLine_portB : (s.setLine l r).portB = s.portB := rfl
@[simp] theorem setLine_portS : (s.setLine l r).portS = s.portS := rfl
@[simp] theorem setLine_device : (s.setLine l r).device = s.device := rfl
@[simp] theorem setLine_free : (s.setLine l r).free = s.free := rfl
@[simp] theorem setLine_pending : (s.setLine l r).pending = s.pending := rfl
@[simp] theorem setLine_agent (i : AgentSlot) : (s.setLine l r).agent i = s.agent i := rfl
@[simp] theorem setLine_group (i : Group) : (s.setLine l r).group i = s.group i := rfl
@[simp] theorem setLine_call (i : CallSlot) : (s.setLine l r).call i = s.call i := rfl
@[simp] theorem setLine_segment (i : SegmentCode) : (s.setLine l r).segment i = s.segment i := rfl
@[simp] theorem setLine_programSteps (i : ProgramNo) : (s.setLine l r).programSteps i = s.programSteps i := rfl
@[simp] theorem setLine_vocabEntry (i : VocabNo) : (s.setLine l r).vocabEntry i = s.vocabEntry i := rfl
@[simp] theorem setLine_source (i : SourceNo) : (s.setLine l r).source i = s.source i := rfl
@[simp] theorem setLine_channel (i : ChannelNo) : (s.setLine l r).channel i = s.channel i := rfl
@[simp] theorem setLine_slotOf (i : HighwayChannel) : (s.setLine l r).slotOf i = s.slotOf i := rfl
@[simp] theorem setLine_modeOf (i : HighwayChannel) : (s.setLine l r).modeOf i = s.modeOf i := rfl
@[simp] theorem setLine_port (i : Port) : (s.setLine l r).port i = s.port i := rfl
@[simp] theorem setLine_hasRoom (i : Port) : (s.setLine l r).hasRoom i = s.hasRoom i := rfl
end

section
variable (s : State) (k : SegmentCode) (r : SegmentRec)
@[simp] theorem setSegment_clock : (s.setSegment k r).clock = s.clock := rfl
@[simp] theorem setSegment_agents : (s.setSegment k r).agents = s.agents := rfl
@[simp] theorem setSegment_groups : (s.setSegment k r).groups = s.groups := rfl
@[simp] theorem setSegment_calls : (s.setSegment k r).calls = s.calls := rfl
@[simp] theorem setSegment_seqCounter : (s.setSegment k r).seqCounter = s.seqCounter := rfl
@[simp] theorem setSegment_lines : (s.setSegment k r).lines = s.lines := rfl
@[simp] theorem setSegment_seed : (s.setSegment k r).seed = s.seed := rfl
@[simp] theorem setSegment_taps : (s.setSegment k r).taps = s.taps := rfl
@[simp] theorem setSegment_generator : (s.setSegment k r).generator = s.generator := rfl
@[simp] theorem setSegment_callTriggers : (s.setSegment k r).callTriggers = s.callTriggers := rfl
@[simp] theorem setSegment_agentTriggers : (s.setSegment k r).agentTriggers = s.agentTriggers := rfl
@[simp] theorem setSegment_sweepWaiting : (s.setSegment k r).sweepWaiting = s.sweepWaiting := rfl
@[simp] theorem setSegment_ram : (s.setSegment k r).ram = s.ram := rfl
@[simp] theorem setSegment_programs : (s.setSegment k r).programs = s.programs := rfl
@[simp] theorem setSegment_vocab : (s.setSegment k r).vocab = s.vocab := rfl
@[simp] theorem setSegment_sources : (s.setSegment k r).sources = s.sources := rfl
@[simp] theorem setSegment_channels : (s.setSegment k r).channels = s.channels := rfl
@[simp] theorem setSegment_waitList : (s.setSegment k r).waitList = s.waitList := rfl
@[simp] theorem setSegment_slotMap : (s.setSegment k r).slotMap = s.slotMap := rfl
@[simp] theorem setSegment_idleModes : (s.setSegment k r).idleModes = s.idleModes := rfl
@[simp] theorem setSegment_idleByte : (s.setSegment k r).idleByte = s.idleByte := rfl
@[simp] theorem setSegment_highway : (s.setSegment k r).highway = s.highway := rfl
@[simp] theorem setSegment_portA : (s.setSegment k r).portA = s.portA := rfl
@[simp] theorem setSegment_portB : (s.setSegment k r).portB = s.portB := rfl
@[simp] theorem setSegment_portS : (s.setSegment k r).portS = s.portS := rfl
@[simp] theorem setSegment_device : (s.setSegment k r).device = s.device := rfl
@[simp] theorem setSegment_free : (s.setSegment k r).free = s.free := rfl
@[simp] theorem setSegment_pending : (s.setSegment k r).pending = s.pending := rfl
@[simp] theorem setSegment_agent (i : AgentSlot) : (s.setSegment k r).agent i = s.agent i := rfl
@[simp] theorem setSegment_group (i : Group) : (s.setSegment k r).group i = s.group i := rfl
@[simp] theorem setSegment_call (i : CallSlot) : (s.setSegment k r).call i = s.call i := rfl
@[simp] theorem setSegment_line (i : LineNo) : (s.setSegment k r).line i = s.line i := rfl
@[simp] theorem setSegment_programSteps (i : ProgramNo) : (s.setSegment k r).programSteps i = s.programSteps i := rfl
@[simp] theorem setSegment_vocabEntry (i : VocabNo) : (s.setSegment k r).vocabEntry i = s.vocabEntry i := rfl
@[simp] theorem setSegment_source (i : SourceNo) : (s.setSegment k r).source i = s.source i := rfl
@[simp] theorem setSegment_channel (i : ChannelNo) : (s.setSegment k r).channel i = s.channel i := rfl
@[simp] theorem setSegment_slotOf (i : HighwayChannel) : (s.setSegment k r).slotOf i = s.slotOf i := rfl
@[simp] theorem setSegment_modeOf (i : HighwayChannel) : (s.setSegment k r).modeOf i = s.modeOf i := rfl
@[simp] theorem setSegment_port (i : Port) : (s.setSegment k r).port i = s.port i := rfl
@[simp] theorem setSegment_hasRoom (i : Port) : (s.setSegment k r).hasRoom i = s.hasRoom i := rfl
end

section
variable (s : State) (p : ProgramNo) (r : List Step)
@[simp] theorem setProgram_clock : (s.setProgram p r).clock = s.clock := rfl
@[simp] theorem setProgram_agents : (s.setProgram p r).agents = s.agents := rfl
@[simp] theorem setProgram_groups : (s.setProgram p r).groups = s.groups := rfl
@[simp] theorem setProgram_calls : (s.setProgram p r).calls = s.calls := rfl
@[simp] theorem setProgram_seqCounter : (s.setProgram p r).seqCounter = s.seqCounter := rfl
@[simp] theorem setProgram_lines : (s.setProgram p r).lines = s.lines := rfl
@[simp] theorem setProgram_seed : (s.setProgram p r).seed = s.seed := rfl
@[simp] theorem setProgram_taps : (s.setProgram p r).taps = s.taps := rfl
@[simp] theorem setProgram_generator : (s.setProgram p r).generator = s.generator := rfl
@[simp] theorem setProgram_callTriggers : (s.setProgram p r).callTriggers = s.callTriggers := rfl
@[simp] theorem setProgram_agentTriggers : (s.setProgram p r).agentTriggers = s.agentTriggers := rfl
@[simp] theorem setProgram_sweepWaiting : (s.setProgram p r).sweepWaiting = s.sweepWaiting := rfl
@[simp] theorem setProgram_ram : (s.setProgram p r).ram = s.ram := rfl
@[simp] theorem setProgram_segments : (s.setProgram p r).segments = s.segments := rfl
@[simp] theorem setProgram_vocab : (s.setProgram p r).vocab = s.vocab := rfl
@[simp] theorem setProgram_sources : (s.setProgram p r).sources = s.sources := rfl
@[simp] theorem setProgram_channels : (s.setProgram p r).channels = s.channels := rfl
@[simp] theorem setProgram_waitList : (s.setProgram p r).waitList = s.waitList := rfl
@[simp] theorem setProgram_slotMap : (s.setProgram p r).slotMap = s.slotMap := rfl
@[simp] theorem setProgram_idleModes : (s.setProgram p r).idleModes = s.idleModes := rfl
@[simp] theorem setProgram_idleByte : (s.setProgram p r).idleByte = s.idleByte := rfl
@[simp] theorem setProgram_highway : (s.setProgram p r).highway = s.highway := rfl
@[simp] theorem setProgram_portA : (s.setProgram p r).portA = s.portA := rfl
@[simp] theorem setProgram_portB : (s.setProgram p r).portB = s.portB := rfl
@[simp] theorem setProgram_portS : (s.setProgram p r).portS = s.portS := rfl
@[simp] theorem setProgram_device : (s.setProgram p r).device = s.device := rfl
@[simp] theorem setProgram_free : (s.setProgram p r).free = s.free := rfl
@[simp] theorem setProgram_pending : (s.setProgram p r).pending = s.pending := rfl
@[simp] theorem setProgram_agent (i : AgentSlot) : (s.setProgram p r).agent i = s.agent i := rfl
@[simp] theorem setProgram_group (i : Group) : (s.setProgram p r).group i = s.group i := rfl
@[simp] theorem setProgram_call (i : CallSlot) : (s.setProgram p r).call i = s.call i := rfl
@[simp] theorem setProgram_line (i : LineNo) : (s.setProgram p r).line i = s.line i := rfl
@[simp] theorem setProgram_segment (i : SegmentCode) : (s.setProgram p r).segment i = s.segment i := rfl
@[simp] theorem setProgram_vocabEntry (i : VocabNo) : (s.setProgram p r).vocabEntry i = s.vocabEntry i := rfl
@[simp] theorem setProgram_source (i : SourceNo) : (s.setProgram p r).source i = s.source i := rfl
@[simp] theorem setProgram_channel (i : ChannelNo) : (s.setProgram p r).channel i = s.channel i := rfl
@[simp] theorem setProgram_slotOf (i : HighwayChannel) : (s.setProgram p r).slotOf i = s.slotOf i := rfl
@[simp] theorem setProgram_modeOf (i : HighwayChannel) : (s.setProgram p r).modeOf i = s.modeOf i := rfl
@[simp] theorem setProgram_port (i : Port) : (s.setProgram p r).port i = s.port i := rfl
@[simp] theorem setProgram_hasRoom (i : Port) : (s.setProgram p r).hasRoom i = s.hasRoom i := rfl
end

section
variable (s : State) (v : VocabNo) (r : Option Byte)
@[simp] theorem setVocab_clock : (s.setVocab v r).clock = s.clock := rfl
@[simp] theorem setVocab_agents : (s.setVocab v r).agents = s.agents := rfl
@[simp] theorem setVocab_groups : (s.setVocab v r).groups = s.groups := rfl
@[simp] theorem setVocab_calls : (s.setVocab v r).calls = s.calls := rfl
@[simp] theorem setVocab_seqCounter : (s.setVocab v r).seqCounter = s.seqCounter := rfl
@[simp] theorem setVocab_lines : (s.setVocab v r).lines = s.lines := rfl
@[simp] theorem setVocab_seed : (s.setVocab v r).seed = s.seed := rfl
@[simp] theorem setVocab_taps : (s.setVocab v r).taps = s.taps := rfl
@[simp] theorem setVocab_generator : (s.setVocab v r).generator = s.generator := rfl
@[simp] theorem setVocab_callTriggers : (s.setVocab v r).callTriggers = s.callTriggers := rfl
@[simp] theorem setVocab_agentTriggers : (s.setVocab v r).agentTriggers = s.agentTriggers := rfl
@[simp] theorem setVocab_sweepWaiting : (s.setVocab v r).sweepWaiting = s.sweepWaiting := rfl
@[simp] theorem setVocab_ram : (s.setVocab v r).ram = s.ram := rfl
@[simp] theorem setVocab_segments : (s.setVocab v r).segments = s.segments := rfl
@[simp] theorem setVocab_programs : (s.setVocab v r).programs = s.programs := rfl
@[simp] theorem setVocab_sources : (s.setVocab v r).sources = s.sources := rfl
@[simp] theorem setVocab_channels : (s.setVocab v r).channels = s.channels := rfl
@[simp] theorem setVocab_waitList : (s.setVocab v r).waitList = s.waitList := rfl
@[simp] theorem setVocab_slotMap : (s.setVocab v r).slotMap = s.slotMap := rfl
@[simp] theorem setVocab_idleModes : (s.setVocab v r).idleModes = s.idleModes := rfl
@[simp] theorem setVocab_idleByte : (s.setVocab v r).idleByte = s.idleByte := rfl
@[simp] theorem setVocab_highway : (s.setVocab v r).highway = s.highway := rfl
@[simp] theorem setVocab_portA : (s.setVocab v r).portA = s.portA := rfl
@[simp] theorem setVocab_portB : (s.setVocab v r).portB = s.portB := rfl
@[simp] theorem setVocab_portS : (s.setVocab v r).portS = s.portS := rfl
@[simp] theorem setVocab_device : (s.setVocab v r).device = s.device := rfl
@[simp] theorem setVocab_free : (s.setVocab v r).free = s.free := rfl
@[simp] theorem setVocab_pending : (s.setVocab v r).pending = s.pending := rfl
@[simp] theorem setVocab_agent (i : AgentSlot) : (s.setVocab v r).agent i = s.agent i := rfl
@[simp] theorem setVocab_group (i : Group) : (s.setVocab v r).group i = s.group i := rfl
@[simp] theorem setVocab_call (i : CallSlot) : (s.setVocab v r).call i = s.call i := rfl
@[simp] theorem setVocab_line (i : LineNo) : (s.setVocab v r).line i = s.line i := rfl
@[simp] theorem setVocab_segment (i : SegmentCode) : (s.setVocab v r).segment i = s.segment i := rfl
@[simp] theorem setVocab_programSteps (i : ProgramNo) : (s.setVocab v r).programSteps i = s.programSteps i := rfl
@[simp] theorem setVocab_source (i : SourceNo) : (s.setVocab v r).source i = s.source i := rfl
@[simp] theorem setVocab_channel (i : ChannelNo) : (s.setVocab v r).channel i = s.channel i := rfl
@[simp] theorem setVocab_slotOf (i : HighwayChannel) : (s.setVocab v r).slotOf i = s.slotOf i := rfl
@[simp] theorem setVocab_modeOf (i : HighwayChannel) : (s.setVocab v r).modeOf i = s.modeOf i := rfl
@[simp] theorem setVocab_port (i : Port) : (s.setVocab v r).port i = s.port i := rfl
@[simp] theorem setVocab_hasRoom (i : Port) : (s.setVocab v r).hasRoom i = s.hasRoom i := rfl
end

section
variable (s : State) (m : SourceNo) (r : SourceRec)
@[simp] theorem setSource_clock : (s.setSource m r).clock = s.clock := rfl
@[simp] theorem setSource_agents : (s.setSource m r).agents = s.agents := rfl
@[simp] theorem setSource_groups : (s.setSource m r).groups = s.groups := rfl
@[simp] theorem setSource_calls : (s.setSource m r).calls = s.calls := rfl
@[simp] theorem setSource_seqCounter : (s.setSource m r).seqCounter = s.seqCounter := rfl
@[simp] theorem setSource_lines : (s.setSource m r).lines = s.lines := rfl
@[simp] theorem setSource_seed : (s.setSource m r).seed = s.seed := rfl
@[simp] theorem setSource_taps : (s.setSource m r).taps = s.taps := rfl
@[simp] theorem setSource_generator : (s.setSource m r).generator = s.generator := rfl
@[simp] theorem setSource_callTriggers : (s.setSource m r).callTriggers = s.callTriggers := rfl
@[simp] theorem setSource_agentTriggers : (s.setSource m r).agentTriggers = s.agentTriggers := rfl
@[simp] theorem setSource_sweepWaiting : (s.setSource m r).sweepWaiting = s.sweepWaiting := rfl
@[simp] theorem setSource_ram : (s.setSource m r).ram = s.ram := rfl
@[simp] theorem setSource_segments : (s.setSource m r).segments = s.segments := rfl
@[simp] theorem setSource_programs : (s.setSource m r).programs = s.programs := rfl
@[simp] theorem setSource_vocab : (s.setSource m r).vocab = s.vocab := rfl
@[simp] theorem setSource_channels : (s.setSource m r).channels = s.channels := rfl
@[simp] theorem setSource_waitList : (s.setSource m r).waitList = s.waitList := rfl
@[simp] theorem setSource_slotMap : (s.setSource m r).slotMap = s.slotMap := rfl
@[simp] theorem setSource_idleModes : (s.setSource m r).idleModes = s.idleModes := rfl
@[simp] theorem setSource_idleByte : (s.setSource m r).idleByte = s.idleByte := rfl
@[simp] theorem setSource_highway : (s.setSource m r).highway = s.highway := rfl
@[simp] theorem setSource_portA : (s.setSource m r).portA = s.portA := rfl
@[simp] theorem setSource_portB : (s.setSource m r).portB = s.portB := rfl
@[simp] theorem setSource_portS : (s.setSource m r).portS = s.portS := rfl
@[simp] theorem setSource_device : (s.setSource m r).device = s.device := rfl
@[simp] theorem setSource_free : (s.setSource m r).free = s.free := rfl
@[simp] theorem setSource_pending : (s.setSource m r).pending = s.pending := rfl
@[simp] theorem setSource_agent (i : AgentSlot) : (s.setSource m r).agent i = s.agent i := rfl
@[simp] theorem setSource_group (i : Group) : (s.setSource m r).group i = s.group i := rfl
@[simp] theorem setSource_call (i : CallSlot) : (s.setSource m r).call i = s.call i := rfl
@[simp] theorem setSource_line (i : LineNo) : (s.setSource m r).line i = s.line i := rfl
@[simp] theorem setSource_segment (i : SegmentCode) : (s.setSource m r).segment i = s.segment i := rfl
@[simp] theorem setSource_programSteps (i : ProgramNo) : (s.setSource m r).programSteps i = s.programSteps i := rfl
@[simp] theorem setSource_vocabEntry (i : VocabNo) : (s.setSource m r).vocabEntry i = s.vocabEntry i := rfl
@[simp] theorem setSource_channel (i : ChannelNo) : (s.setSource m r).channel i = s.channel i := rfl
@[simp] theorem setSource_slotOf (i : HighwayChannel) : (s.setSource m r).slotOf i = s.slotOf i := rfl
@[simp] theorem setSource_modeOf (i : HighwayChannel) : (s.setSource m r).modeOf i = s.modeOf i := rfl
@[simp] theorem setSource_port (i : Port) : (s.setSource m r).port i = s.port i := rfl
@[simp] theorem setSource_hasRoom (i : Port) : (s.setSource m r).hasRoom i = s.hasRoom i := rfl
end

section
variable (s : State) (j : ChannelNo) (r : Option Announcement)
@[simp] theorem setChannel_clock : (s.setChannel j r).clock = s.clock := rfl
@[simp] theorem setChannel_agents : (s.setChannel j r).agents = s.agents := rfl
@[simp] theorem setChannel_groups : (s.setChannel j r).groups = s.groups := rfl
@[simp] theorem setChannel_calls : (s.setChannel j r).calls = s.calls := rfl
@[simp] theorem setChannel_seqCounter : (s.setChannel j r).seqCounter = s.seqCounter := rfl
@[simp] theorem setChannel_lines : (s.setChannel j r).lines = s.lines := rfl
@[simp] theorem setChannel_seed : (s.setChannel j r).seed = s.seed := rfl
@[simp] theorem setChannel_taps : (s.setChannel j r).taps = s.taps := rfl
@[simp] theorem setChannel_generator : (s.setChannel j r).generator = s.generator := rfl
@[simp] theorem setChannel_callTriggers : (s.setChannel j r).callTriggers = s.callTriggers := rfl
@[simp] theorem setChannel_agentTriggers : (s.setChannel j r).agentTriggers = s.agentTriggers := rfl
@[simp] theorem setChannel_sweepWaiting : (s.setChannel j r).sweepWaiting = s.sweepWaiting := rfl
@[simp] theorem setChannel_ram : (s.setChannel j r).ram = s.ram := rfl
@[simp] theorem setChannel_segments : (s.setChannel j r).segments = s.segments := rfl
@[simp] theorem setChannel_programs : (s.setChannel j r).programs = s.programs := rfl
@[simp] theorem setChannel_vocab : (s.setChannel j r).vocab = s.vocab := rfl
@[simp] theorem setChannel_sources : (s.setChannel j r).sources = s.sources := rfl
@[simp] theorem setChannel_waitList : (s.setChannel j r).waitList = s.waitList := rfl
@[simp] theorem setChannel_slotMap : (s.setChannel j r).slotMap = s.slotMap := rfl
@[simp] theorem setChannel_idleModes : (s.setChannel j r).idleModes = s.idleModes := rfl
@[simp] theorem setChannel_idleByte : (s.setChannel j r).idleByte = s.idleByte := rfl
@[simp] theorem setChannel_highway : (s.setChannel j r).highway = s.highway := rfl
@[simp] theorem setChannel_portA : (s.setChannel j r).portA = s.portA := rfl
@[simp] theorem setChannel_portB : (s.setChannel j r).portB = s.portB := rfl
@[simp] theorem setChannel_portS : (s.setChannel j r).portS = s.portS := rfl
@[simp] theorem setChannel_device : (s.setChannel j r).device = s.device := rfl
@[simp] theorem setChannel_free : (s.setChannel j r).free = s.free := rfl
@[simp] theorem setChannel_pending : (s.setChannel j r).pending = s.pending := rfl
@[simp] theorem setChannel_agent (i : AgentSlot) : (s.setChannel j r).agent i = s.agent i := rfl
@[simp] theorem setChannel_group (i : Group) : (s.setChannel j r).group i = s.group i := rfl
@[simp] theorem setChannel_call (i : CallSlot) : (s.setChannel j r).call i = s.call i := rfl
@[simp] theorem setChannel_line (i : LineNo) : (s.setChannel j r).line i = s.line i := rfl
@[simp] theorem setChannel_segment (i : SegmentCode) : (s.setChannel j r).segment i = s.segment i := rfl
@[simp] theorem setChannel_programSteps (i : ProgramNo) : (s.setChannel j r).programSteps i = s.programSteps i := rfl
@[simp] theorem setChannel_vocabEntry (i : VocabNo) : (s.setChannel j r).vocabEntry i = s.vocabEntry i := rfl
@[simp] theorem setChannel_source (i : SourceNo) : (s.setChannel j r).source i = s.source i := rfl
@[simp] theorem setChannel_slotOf (i : HighwayChannel) : (s.setChannel j r).slotOf i = s.slotOf i := rfl
@[simp] theorem setChannel_modeOf (i : HighwayChannel) : (s.setChannel j r).modeOf i = s.modeOf i := rfl
@[simp] theorem setChannel_port (i : Port) : (s.setChannel j r).port i = s.port i := rfl
@[simp] theorem setChannel_hasRoom (i : Port) : (s.setChannel j r).hasRoom i = s.hasRoom i := rfl
end

section
variable (s : State) (h : HighwayChannel) (t : Option Timeslot) (r : IdleMode)
@[simp] theorem setSlot_clock : (s.setSlot h t r).clock = s.clock := rfl
@[simp] theorem setSlot_agents : (s.setSlot h t r).agents = s.agents := rfl
@[simp] theorem setSlot_groups : (s.setSlot h t r).groups = s.groups := rfl
@[simp] theorem setSlot_calls : (s.setSlot h t r).calls = s.calls := rfl
@[simp] theorem setSlot_seqCounter : (s.setSlot h t r).seqCounter = s.seqCounter := rfl
@[simp] theorem setSlot_lines : (s.setSlot h t r).lines = s.lines := rfl
@[simp] theorem setSlot_seed : (s.setSlot h t r).seed = s.seed := rfl
@[simp] theorem setSlot_taps : (s.setSlot h t r).taps = s.taps := rfl
@[simp] theorem setSlot_generator : (s.setSlot h t r).generator = s.generator := rfl
@[simp] theorem setSlot_callTriggers : (s.setSlot h t r).callTriggers = s.callTriggers := rfl
@[simp] theorem setSlot_agentTriggers : (s.setSlot h t r).agentTriggers = s.agentTriggers := rfl
@[simp] theorem setSlot_sweepWaiting : (s.setSlot h t r).sweepWaiting = s.sweepWaiting := rfl
@[simp] theorem setSlot_ram : (s.setSlot h t r).ram = s.ram := rfl
@[simp] theorem setSlot_segments : (s.setSlot h t r).segments = s.segments := rfl
@[simp] theorem setSlot_programs : (s.setSlot h t r).programs = s.programs := rfl
@[simp] theorem setSlot_vocab : (s.setSlot h t r).vocab = s.vocab := rfl
@[simp] theorem setSlot_sources : (s.setSlot h t r).sources = s.sources := rfl
@[simp] theorem setSlot_channels : (s.setSlot h t r).channels = s.channels := rfl
@[simp] theorem setSlot_waitList : (s.setSlot h t r).waitList = s.waitList := rfl
@[simp] theorem setSlot_idleByte : (s.setSlot h t r).idleByte = s.idleByte := rfl
@[simp] theorem setSlot_highway : (s.setSlot h t r).highway = s.highway := rfl
@[simp] theorem setSlot_portA : (s.setSlot h t r).portA = s.portA := rfl
@[simp] theorem setSlot_portB : (s.setSlot h t r).portB = s.portB := rfl
@[simp] theorem setSlot_portS : (s.setSlot h t r).portS = s.portS := rfl
@[simp] theorem setSlot_device : (s.setSlot h t r).device = s.device := rfl
@[simp] theorem setSlot_free : (s.setSlot h t r).free = s.free := rfl
@[simp] theorem setSlot_pending : (s.setSlot h t r).pending = s.pending := rfl
@[simp] theorem setSlot_agent (i : AgentSlot) : (s.setSlot h t r).agent i = s.agent i := rfl
@[simp] theorem setSlot_group (i : Group) : (s.setSlot h t r).group i = s.group i := rfl
@[simp] theorem setSlot_call (i : CallSlot) : (s.setSlot h t r).call i = s.call i := rfl
@[simp] theorem setSlot_line (i : LineNo) : (s.setSlot h t r).line i = s.line i := rfl
@[simp] theorem setSlot_segment (i : SegmentCode) : (s.setSlot h t r).segment i = s.segment i := rfl
@[simp] theorem setSlot_programSteps (i : ProgramNo) : (s.setSlot h t r).programSteps i = s.programSteps i := rfl
@[simp] theorem setSlot_vocabEntry (i : VocabNo) : (s.setSlot h t r).vocabEntry i = s.vocabEntry i := rfl
@[simp] theorem setSlot_source (i : SourceNo) : (s.setSlot h t r).source i = s.source i := rfl
@[simp] theorem setSlot_channel (i : ChannelNo) : (s.setSlot h t r).channel i = s.channel i := rfl
@[simp] theorem setSlot_port (i : Port) : (s.setSlot h t r).port i = s.port i := rfl
@[simp] theorem setSlot_hasRoom (i : Port) : (s.setSlot h t r).hasRoom i = s.hasRoom i := rfl
end

section
variable (s : State) (r : DeviceRec)
@[simp] theorem setDevice_clock : (s.setDevice r).clock = s.clock := rfl
@[simp] theorem setDevice_agents : (s.setDevice r).agents = s.agents := rfl
@[simp] theorem setDevice_groups : (s.setDevice r).groups = s.groups := rfl
@[simp] theorem setDevice_calls : (s.setDevice r).calls = s.calls := rfl
@[simp] theorem setDevice_seqCounter : (s.setDevice r).seqCounter = s.seqCounter := rfl
@[simp] theorem setDevice_lines : (s.setDevice r).lines = s.lines := rfl
@[simp] theorem setDevice_seed : (s.setDevice r).seed = s.seed := rfl
@[simp] theorem setDevice_taps : (s.setDevice r).taps = s.taps := rfl
@[simp] theorem setDevice_generator : (s.setDevice r).generator = s.generator := rfl
@[simp] theorem setDevice_callTriggers : (s.setDevice r).callTriggers = s.callTriggers := rfl
@[simp] theorem setDevice_agentTriggers : (s.setDevice r).agentTriggers = s.agentTriggers := rfl
@[simp] theorem setDevice_sweepWaiting : (s.setDevice r).sweepWaiting = s.sweepWaiting := rfl
@[simp] theorem setDevice_ram : (s.setDevice r).ram = s.ram := rfl
@[simp] theorem setDevice_segments : (s.setDevice r).segments = s.segments := rfl
@[simp] theorem setDevice_programs : (s.setDevice r).programs = s.programs := rfl
@[simp] theorem setDevice_vocab : (s.setDevice r).vocab = s.vocab := rfl
@[simp] theorem setDevice_sources : (s.setDevice r).sources = s.sources := rfl
@[simp] theorem setDevice_channels : (s.setDevice r).channels = s.channels := rfl
@[simp] theorem setDevice_waitList : (s.setDevice r).waitList = s.waitList := rfl
@[simp] theorem setDevice_slotMap : (s.setDevice r).slotMap = s.slotMap := rfl
@[simp] theorem setDevice_idleModes : (s.setDevice r).idleModes = s.idleModes := rfl
@[simp] theorem setDevice_idleByte : (s.setDevice r).idleByte = s.idleByte := rfl
@[simp] theorem setDevice_highway : (s.setDevice r).highway = s.highway := rfl
@[simp] theorem setDevice_portA : (s.setDevice r).portA = s.portA := rfl
@[simp] theorem setDevice_portB : (s.setDevice r).portB = s.portB := rfl
@[simp] theorem setDevice_portS : (s.setDevice r).portS = s.portS := rfl
@[simp] theorem setDevice_free : (s.setDevice r).free = s.free := rfl
@[simp] theorem setDevice_pending : (s.setDevice r).pending = s.pending := rfl
@[simp] theorem setDevice_agent (i : AgentSlot) : (s.setDevice r).agent i = s.agent i := rfl
@[simp] theorem setDevice_group (i : Group) : (s.setDevice r).group i = s.group i := rfl
@[simp] theorem setDevice_call (i : CallSlot) : (s.setDevice r).call i = s.call i := rfl
@[simp] theorem setDevice_line (i : LineNo) : (s.setDevice r).line i = s.line i := rfl
@[simp] theorem setDevice_segment (i : SegmentCode) : (s.setDevice r).segment i = s.segment i := rfl
@[simp] theorem setDevice_programSteps (i : ProgramNo) : (s.setDevice r).programSteps i = s.programSteps i := rfl
@[simp] theorem setDevice_vocabEntry (i : VocabNo) : (s.setDevice r).vocabEntry i = s.vocabEntry i := rfl
@[simp] theorem setDevice_source (i : SourceNo) : (s.setDevice r).source i = s.source i := rfl
@[simp] theorem setDevice_channel (i : ChannelNo) : (s.setDevice r).channel i = s.channel i := rfl
@[simp] theorem setDevice_slotOf (i : HighwayChannel) : (s.setDevice r).slotOf i = s.slotOf i := rfl
@[simp] theorem setDevice_modeOf (i : HighwayChannel) : (s.setDevice r).modeOf i = s.modeOf i := rfl
@[simp] theorem setDevice_port (i : Port) : (s.setDevice r).port i = s.port i := rfl
@[simp] theorem setDevice_hasRoom (i : Port) : (s.setDevice r).hasRoom i = s.hasRoom i := rfl
end

section
variable (s : State) (r : List WaitEntry)
@[simp] theorem setWaitList_clock : (s.setWaitList r).clock = s.clock := rfl
@[simp] theorem setWaitList_agents : (s.setWaitList r).agents = s.agents := rfl
@[simp] theorem setWaitList_groups : (s.setWaitList r).groups = s.groups := rfl
@[simp] theorem setWaitList_calls : (s.setWaitList r).calls = s.calls := rfl
@[simp] theorem setWaitList_seqCounter : (s.setWaitList r).seqCounter = s.seqCounter := rfl
@[simp] theorem setWaitList_lines : (s.setWaitList r).lines = s.lines := rfl
@[simp] theorem setWaitList_seed : (s.setWaitList r).seed = s.seed := rfl
@[simp] theorem setWaitList_taps : (s.setWaitList r).taps = s.taps := rfl
@[simp] theorem setWaitList_generator : (s.setWaitList r).generator = s.generator := rfl
@[simp] theorem setWaitList_callTriggers : (s.setWaitList r).callTriggers = s.callTriggers := rfl
@[simp] theorem setWaitList_agentTriggers : (s.setWaitList r).agentTriggers = s.agentTriggers := rfl
@[simp] theorem setWaitList_sweepWaiting : (s.setWaitList r).sweepWaiting = s.sweepWaiting := rfl
@[simp] theorem setWaitList_ram : (s.setWaitList r).ram = s.ram := rfl
@[simp] theorem setWaitList_segments : (s.setWaitList r).segments = s.segments := rfl
@[simp] theorem setWaitList_programs : (s.setWaitList r).programs = s.programs := rfl
@[simp] theorem setWaitList_vocab : (s.setWaitList r).vocab = s.vocab := rfl
@[simp] theorem setWaitList_sources : (s.setWaitList r).sources = s.sources := rfl
@[simp] theorem setWaitList_channels : (s.setWaitList r).channels = s.channels := rfl
@[simp] theorem setWaitList_slotMap : (s.setWaitList r).slotMap = s.slotMap := rfl
@[simp] theorem setWaitList_idleModes : (s.setWaitList r).idleModes = s.idleModes := rfl
@[simp] theorem setWaitList_idleByte : (s.setWaitList r).idleByte = s.idleByte := rfl
@[simp] theorem setWaitList_highway : (s.setWaitList r).highway = s.highway := rfl
@[simp] theorem setWaitList_portA : (s.setWaitList r).portA = s.portA := rfl
@[simp] theorem setWaitList_portB : (s.setWaitList r).portB = s.portB := rfl
@[simp] theorem setWaitList_portS : (s.setWaitList r).portS = s.portS := rfl
@[simp] theorem setWaitList_device : (s.setWaitList r).device = s.device := rfl
@[simp] theorem setWaitList_free : (s.setWaitList r).free = s.free := rfl
@[simp] theorem setWaitList_pending : (s.setWaitList r).pending = s.pending := rfl
@[simp] theorem setWaitList_agent (i : AgentSlot) : (s.setWaitList r).agent i = s.agent i := rfl
@[simp] theorem setWaitList_group (i : Group) : (s.setWaitList r).group i = s.group i := rfl
@[simp] theorem setWaitList_call (i : CallSlot) : (s.setWaitList r).call i = s.call i := rfl
@[simp] theorem setWaitList_line (i : LineNo) : (s.setWaitList r).line i = s.line i := rfl
@[simp] theorem setWaitList_segment (i : SegmentCode) : (s.setWaitList r).segment i = s.segment i := rfl
@[simp] theorem setWaitList_programSteps (i : ProgramNo) : (s.setWaitList r).programSteps i = s.programSteps i := rfl
@[simp] theorem setWaitList_vocabEntry (i : VocabNo) : (s.setWaitList r).vocabEntry i = s.vocabEntry i := rfl
@[simp] theorem setWaitList_source (i : SourceNo) : (s.setWaitList r).source i = s.source i := rfl
@[simp] theorem setWaitList_channel (i : ChannelNo) : (s.setWaitList r).channel i = s.channel i := rfl
@[simp] theorem setWaitList_slotOf (i : HighwayChannel) : (s.setWaitList r).slotOf i = s.slotOf i := rfl
@[simp] theorem setWaitList_modeOf (i : HighwayChannel) : (s.setWaitList r).modeOf i = s.modeOf i := rfl
@[simp] theorem setWaitList_port (i : Port) : (s.setWaitList r).port i = s.port i := rfl
@[simp] theorem setWaitList_hasRoom (i : Port) : (s.setWaitList r).hasRoom i = s.hasRoom i := rfl
end

section
variable (s : State) (r : List Host.Cell)
@[simp] theorem setRam_clock : (s.setRam r).clock = s.clock := rfl
@[simp] theorem setRam_agents : (s.setRam r).agents = s.agents := rfl
@[simp] theorem setRam_groups : (s.setRam r).groups = s.groups := rfl
@[simp] theorem setRam_calls : (s.setRam r).calls = s.calls := rfl
@[simp] theorem setRam_seqCounter : (s.setRam r).seqCounter = s.seqCounter := rfl
@[simp] theorem setRam_lines : (s.setRam r).lines = s.lines := rfl
@[simp] theorem setRam_seed : (s.setRam r).seed = s.seed := rfl
@[simp] theorem setRam_taps : (s.setRam r).taps = s.taps := rfl
@[simp] theorem setRam_generator : (s.setRam r).generator = s.generator := rfl
@[simp] theorem setRam_callTriggers : (s.setRam r).callTriggers = s.callTriggers := rfl
@[simp] theorem setRam_agentTriggers : (s.setRam r).agentTriggers = s.agentTriggers := rfl
@[simp] theorem setRam_sweepWaiting : (s.setRam r).sweepWaiting = s.sweepWaiting := rfl
@[simp] theorem setRam_segments : (s.setRam r).segments = s.segments := rfl
@[simp] theorem setRam_programs : (s.setRam r).programs = s.programs := rfl
@[simp] theorem setRam_vocab : (s.setRam r).vocab = s.vocab := rfl
@[simp] theorem setRam_sources : (s.setRam r).sources = s.sources := rfl
@[simp] theorem setRam_channels : (s.setRam r).channels = s.channels := rfl
@[simp] theorem setRam_waitList : (s.setRam r).waitList = s.waitList := rfl
@[simp] theorem setRam_slotMap : (s.setRam r).slotMap = s.slotMap := rfl
@[simp] theorem setRam_idleModes : (s.setRam r).idleModes = s.idleModes := rfl
@[simp] theorem setRam_idleByte : (s.setRam r).idleByte = s.idleByte := rfl
@[simp] theorem setRam_highway : (s.setRam r).highway = s.highway := rfl
@[simp] theorem setRam_portA : (s.setRam r).portA = s.portA := rfl
@[simp] theorem setRam_portB : (s.setRam r).portB = s.portB := rfl
@[simp] theorem setRam_portS : (s.setRam r).portS = s.portS := rfl
@[simp] theorem setRam_device : (s.setRam r).device = s.device := rfl
@[simp] theorem setRam_free : (s.setRam r).free = s.free := rfl
@[simp] theorem setRam_pending : (s.setRam r).pending = s.pending := rfl
@[simp] theorem setRam_agent (i : AgentSlot) : (s.setRam r).agent i = s.agent i := rfl
@[simp] theorem setRam_group (i : Group) : (s.setRam r).group i = s.group i := rfl
@[simp] theorem setRam_call (i : CallSlot) : (s.setRam r).call i = s.call i := rfl
@[simp] theorem setRam_line (i : LineNo) : (s.setRam r).line i = s.line i := rfl
@[simp] theorem setRam_segment (i : SegmentCode) : (s.setRam r).segment i = s.segment i := rfl
@[simp] theorem setRam_programSteps (i : ProgramNo) : (s.setRam r).programSteps i = s.programSteps i := rfl
@[simp] theorem setRam_vocabEntry (i : VocabNo) : (s.setRam r).vocabEntry i = s.vocabEntry i := rfl
@[simp] theorem setRam_source (i : SourceNo) : (s.setRam r).source i = s.source i := rfl
@[simp] theorem setRam_channel (i : ChannelNo) : (s.setRam r).channel i = s.channel i := rfl
@[simp] theorem setRam_slotOf (i : HighwayChannel) : (s.setRam r).slotOf i = s.slotOf i := rfl
@[simp] theorem setRam_modeOf (i : HighwayChannel) : (s.setRam r).modeOf i = s.modeOf i := rfl
@[simp] theorem setRam_port (i : Port) : (s.setRam r).port i = s.port i := rfl
@[simp] theorem setRam_hasRoom (i : Port) : (s.setRam r).hasRoom i = s.hasRoom i := rfl
end

section
variable (s : State) (r : Vector (Option Byte) 32)
@[simp] theorem setHighway_clock : (s.setHighway r).clock = s.clock := rfl
@[simp] theorem setHighway_agents : (s.setHighway r).agents = s.agents := rfl
@[simp] theorem setHighway_groups : (s.setHighway r).groups = s.groups := rfl
@[simp] theorem setHighway_calls : (s.setHighway r).calls = s.calls := rfl
@[simp] theorem setHighway_seqCounter : (s.setHighway r).seqCounter = s.seqCounter := rfl
@[simp] theorem setHighway_lines : (s.setHighway r).lines = s.lines := rfl
@[simp] theorem setHighway_seed : (s.setHighway r).seed = s.seed := rfl
@[simp] theorem setHighway_taps : (s.setHighway r).taps = s.taps := rfl
@[simp] theorem setHighway_generator : (s.setHighway r).generator = s.generator := rfl
@[simp] theorem setHighway_callTriggers : (s.setHighway r).callTriggers = s.callTriggers := rfl
@[simp] theorem setHighway_agentTriggers : (s.setHighway r).agentTriggers = s.agentTriggers := rfl
@[simp] theorem setHighway_sweepWaiting : (s.setHighway r).sweepWaiting = s.sweepWaiting := rfl
@[simp] theorem setHighway_ram : (s.setHighway r).ram = s.ram := rfl
@[simp] theorem setHighway_segments : (s.setHighway r).segments = s.segments := rfl
@[simp] theorem setHighway_programs : (s.setHighway r).programs = s.programs := rfl
@[simp] theorem setHighway_vocab : (s.setHighway r).vocab = s.vocab := rfl
@[simp] theorem setHighway_sources : (s.setHighway r).sources = s.sources := rfl
@[simp] theorem setHighway_channels : (s.setHighway r).channels = s.channels := rfl
@[simp] theorem setHighway_waitList : (s.setHighway r).waitList = s.waitList := rfl
@[simp] theorem setHighway_slotMap : (s.setHighway r).slotMap = s.slotMap := rfl
@[simp] theorem setHighway_idleModes : (s.setHighway r).idleModes = s.idleModes := rfl
@[simp] theorem setHighway_idleByte : (s.setHighway r).idleByte = s.idleByte := rfl
@[simp] theorem setHighway_portA : (s.setHighway r).portA = s.portA := rfl
@[simp] theorem setHighway_portB : (s.setHighway r).portB = s.portB := rfl
@[simp] theorem setHighway_portS : (s.setHighway r).portS = s.portS := rfl
@[simp] theorem setHighway_device : (s.setHighway r).device = s.device := rfl
@[simp] theorem setHighway_free : (s.setHighway r).free = s.free := rfl
@[simp] theorem setHighway_pending : (s.setHighway r).pending = s.pending := rfl
@[simp] theorem setHighway_agent (i : AgentSlot) : (s.setHighway r).agent i = s.agent i := rfl
@[simp] theorem setHighway_group (i : Group) : (s.setHighway r).group i = s.group i := rfl
@[simp] theorem setHighway_call (i : CallSlot) : (s.setHighway r).call i = s.call i := rfl
@[simp] theorem setHighway_line (i : LineNo) : (s.setHighway r).line i = s.line i := rfl
@[simp] theorem setHighway_segment (i : SegmentCode) : (s.setHighway r).segment i = s.segment i := rfl
@[simp] theorem setHighway_programSteps (i : ProgramNo) : (s.setHighway r).programSteps i = s.programSteps i := rfl
@[simp] theorem setHighway_vocabEntry (i : VocabNo) : (s.setHighway r).vocabEntry i = s.vocabEntry i := rfl
@[simp] theorem setHighway_source (i : SourceNo) : (s.setHighway r).source i = s.source i := rfl
@[simp] theorem setHighway_channel (i : ChannelNo) : (s.setHighway r).channel i = s.channel i := rfl
@[simp] theorem setHighway_slotOf (i : HighwayChannel) : (s.setHighway r).slotOf i = s.slotOf i := rfl
@[simp] theorem setHighway_modeOf (i : HighwayChannel) : (s.setHighway r).modeOf i = s.modeOf i := rfl
@[simp] theorem setHighway_port (i : Port) : (s.setHighway r).port i = s.port i := rfl
@[simp] theorem setHighway_hasRoom (i : Port) : (s.setHighway r).hasRoom i = s.hasRoom i := rfl
end

section
variable (s : State) (r : Word16)
@[simp] theorem setGenerator_clock : (s.setGenerator r).clock = s.clock := rfl
@[simp] theorem setGenerator_agents : (s.setGenerator r).agents = s.agents := rfl
@[simp] theorem setGenerator_groups : (s.setGenerator r).groups = s.groups := rfl
@[simp] theorem setGenerator_calls : (s.setGenerator r).calls = s.calls := rfl
@[simp] theorem setGenerator_seqCounter : (s.setGenerator r).seqCounter = s.seqCounter := rfl
@[simp] theorem setGenerator_lines : (s.setGenerator r).lines = s.lines := rfl
@[simp] theorem setGenerator_seed : (s.setGenerator r).seed = s.seed := rfl
@[simp] theorem setGenerator_taps : (s.setGenerator r).taps = s.taps := rfl
@[simp] theorem setGenerator_callTriggers : (s.setGenerator r).callTriggers = s.callTriggers := rfl
@[simp] theorem setGenerator_agentTriggers : (s.setGenerator r).agentTriggers = s.agentTriggers := rfl
@[simp] theorem setGenerator_sweepWaiting : (s.setGenerator r).sweepWaiting = s.sweepWaiting := rfl
@[simp] theorem setGenerator_ram : (s.setGenerator r).ram = s.ram := rfl
@[simp] theorem setGenerator_segments : (s.setGenerator r).segments = s.segments := rfl
@[simp] theorem setGenerator_programs : (s.setGenerator r).programs = s.programs := rfl
@[simp] theorem setGenerator_vocab : (s.setGenerator r).vocab = s.vocab := rfl
@[simp] theorem setGenerator_sources : (s.setGenerator r).sources = s.sources := rfl
@[simp] theorem setGenerator_channels : (s.setGenerator r).channels = s.channels := rfl
@[simp] theorem setGenerator_waitList : (s.setGenerator r).waitList = s.waitList := rfl
@[simp] theorem setGenerator_slotMap : (s.setGenerator r).slotMap = s.slotMap := rfl
@[simp] theorem setGenerator_idleModes : (s.setGenerator r).idleModes = s.idleModes := rfl
@[simp] theorem setGenerator_idleByte : (s.setGenerator r).idleByte = s.idleByte := rfl
@[simp] theorem setGenerator_highway : (s.setGenerator r).highway = s.highway := rfl
@[simp] theorem setGenerator_portA : (s.setGenerator r).portA = s.portA := rfl
@[simp] theorem setGenerator_portB : (s.setGenerator r).portB = s.portB := rfl
@[simp] theorem setGenerator_portS : (s.setGenerator r).portS = s.portS := rfl
@[simp] theorem setGenerator_device : (s.setGenerator r).device = s.device := rfl
@[simp] theorem setGenerator_free : (s.setGenerator r).free = s.free := rfl
@[simp] theorem setGenerator_pending : (s.setGenerator r).pending = s.pending := rfl
@[simp] theorem setGenerator_agent (i : AgentSlot) : (s.setGenerator r).agent i = s.agent i := rfl
@[simp] theorem setGenerator_group (i : Group) : (s.setGenerator r).group i = s.group i := rfl
@[simp] theorem setGenerator_call (i : CallSlot) : (s.setGenerator r).call i = s.call i := rfl
@[simp] theorem setGenerator_line (i : LineNo) : (s.setGenerator r).line i = s.line i := rfl
@[simp] theorem setGenerator_segment (i : SegmentCode) : (s.setGenerator r).segment i = s.segment i := rfl
@[simp] theorem setGenerator_programSteps (i : ProgramNo) : (s.setGenerator r).programSteps i = s.programSteps i := rfl
@[simp] theorem setGenerator_vocabEntry (i : VocabNo) : (s.setGenerator r).vocabEntry i = s.vocabEntry i := rfl
@[simp] theorem setGenerator_source (i : SourceNo) : (s.setGenerator r).source i = s.source i := rfl
@[simp] theorem setGenerator_channel (i : ChannelNo) : (s.setGenerator r).channel i = s.channel i := rfl
@[simp] theorem setGenerator_slotOf (i : HighwayChannel) : (s.setGenerator r).slotOf i = s.slotOf i := rfl
@[simp] theorem setGenerator_modeOf (i : HighwayChannel) : (s.setGenerator r).modeOf i = s.modeOf i := rfl
@[simp] theorem setGenerator_port (i : Port) : (s.setGenerator r).port i = s.port i := rfl
@[simp] theorem setGenerator_hasRoom (i : Port) : (s.setGenerator r).hasRoom i = s.hasRoom i := rfl
end

section
variable (s : State) (r t : Word16)
@[simp] theorem setTiebreak_clock : (s.setTiebreak r t).clock = s.clock := rfl
@[simp] theorem setTiebreak_agents : (s.setTiebreak r t).agents = s.agents := rfl
@[simp] theorem setTiebreak_groups : (s.setTiebreak r t).groups = s.groups := rfl
@[simp] theorem setTiebreak_calls : (s.setTiebreak r t).calls = s.calls := rfl
@[simp] theorem setTiebreak_seqCounter : (s.setTiebreak r t).seqCounter = s.seqCounter := rfl
@[simp] theorem setTiebreak_lines : (s.setTiebreak r t).lines = s.lines := rfl
@[simp] theorem setTiebreak_callTriggers : (s.setTiebreak r t).callTriggers = s.callTriggers := rfl
@[simp] theorem setTiebreak_agentTriggers : (s.setTiebreak r t).agentTriggers = s.agentTriggers := rfl
@[simp] theorem setTiebreak_sweepWaiting : (s.setTiebreak r t).sweepWaiting = s.sweepWaiting := rfl
@[simp] theorem setTiebreak_ram : (s.setTiebreak r t).ram = s.ram := rfl
@[simp] theorem setTiebreak_segments : (s.setTiebreak r t).segments = s.segments := rfl
@[simp] theorem setTiebreak_programs : (s.setTiebreak r t).programs = s.programs := rfl
@[simp] theorem setTiebreak_vocab : (s.setTiebreak r t).vocab = s.vocab := rfl
@[simp] theorem setTiebreak_sources : (s.setTiebreak r t).sources = s.sources := rfl
@[simp] theorem setTiebreak_channels : (s.setTiebreak r t).channels = s.channels := rfl
@[simp] theorem setTiebreak_waitList : (s.setTiebreak r t).waitList = s.waitList := rfl
@[simp] theorem setTiebreak_slotMap : (s.setTiebreak r t).slotMap = s.slotMap := rfl
@[simp] theorem setTiebreak_idleModes : (s.setTiebreak r t).idleModes = s.idleModes := rfl
@[simp] theorem setTiebreak_idleByte : (s.setTiebreak r t).idleByte = s.idleByte := rfl
@[simp] theorem setTiebreak_highway : (s.setTiebreak r t).highway = s.highway := rfl
@[simp] theorem setTiebreak_portA : (s.setTiebreak r t).portA = s.portA := rfl
@[simp] theorem setTiebreak_portB : (s.setTiebreak r t).portB = s.portB := rfl
@[simp] theorem setTiebreak_portS : (s.setTiebreak r t).portS = s.portS := rfl
@[simp] theorem setTiebreak_device : (s.setTiebreak r t).device = s.device := rfl
@[simp] theorem setTiebreak_free : (s.setTiebreak r t).free = s.free := rfl
@[simp] theorem setTiebreak_pending : (s.setTiebreak r t).pending = s.pending := rfl
@[simp] theorem setTiebreak_agent (i : AgentSlot) : (s.setTiebreak r t).agent i = s.agent i := rfl
@[simp] theorem setTiebreak_group (i : Group) : (s.setTiebreak r t).group i = s.group i := rfl
@[simp] theorem setTiebreak_call (i : CallSlot) : (s.setTiebreak r t).call i = s.call i := rfl
@[simp] theorem setTiebreak_line (i : LineNo) : (s.setTiebreak r t).line i = s.line i := rfl
@[simp] theorem setTiebreak_segment (i : SegmentCode) : (s.setTiebreak r t).segment i = s.segment i := rfl
@[simp] theorem setTiebreak_programSteps (i : ProgramNo) : (s.setTiebreak r t).programSteps i = s.programSteps i := rfl
@[simp] theorem setTiebreak_vocabEntry (i : VocabNo) : (s.setTiebreak r t).vocabEntry i = s.vocabEntry i := rfl
@[simp] theorem setTiebreak_source (i : SourceNo) : (s.setTiebreak r t).source i = s.source i := rfl
@[simp] theorem setTiebreak_channel (i : ChannelNo) : (s.setTiebreak r t).channel i = s.channel i := rfl
@[simp] theorem setTiebreak_slotOf (i : HighwayChannel) : (s.setTiebreak r t).slotOf i = s.slotOf i := rfl
@[simp] theorem setTiebreak_modeOf (i : HighwayChannel) : (s.setTiebreak r t).modeOf i = s.modeOf i := rfl
@[simp] theorem setTiebreak_port (i : Port) : (s.setTiebreak r t).port i = s.port i := rfl
@[simp] theorem setTiebreak_hasRoom (i : Port) : (s.setTiebreak r t).hasRoom i = s.hasRoom i := rfl
end

section
variable (s : State) (r : Nat)
@[simp] theorem setSeqCounter_clock : (s.setSeqCounter r).clock = s.clock := rfl
@[simp] theorem setSeqCounter_agents : (s.setSeqCounter r).agents = s.agents := rfl
@[simp] theorem setSeqCounter_groups : (s.setSeqCounter r).groups = s.groups := rfl
@[simp] theorem setSeqCounter_calls : (s.setSeqCounter r).calls = s.calls := rfl
@[simp] theorem setSeqCounter_lines : (s.setSeqCounter r).lines = s.lines := rfl
@[simp] theorem setSeqCounter_seed : (s.setSeqCounter r).seed = s.seed := rfl
@[simp] theorem setSeqCounter_taps : (s.setSeqCounter r).taps = s.taps := rfl
@[simp] theorem setSeqCounter_generator : (s.setSeqCounter r).generator = s.generator := rfl
@[simp] theorem setSeqCounter_callTriggers : (s.setSeqCounter r).callTriggers = s.callTriggers := rfl
@[simp] theorem setSeqCounter_agentTriggers : (s.setSeqCounter r).agentTriggers = s.agentTriggers := rfl
@[simp] theorem setSeqCounter_sweepWaiting : (s.setSeqCounter r).sweepWaiting = s.sweepWaiting := rfl
@[simp] theorem setSeqCounter_ram : (s.setSeqCounter r).ram = s.ram := rfl
@[simp] theorem setSeqCounter_segments : (s.setSeqCounter r).segments = s.segments := rfl
@[simp] theorem setSeqCounter_programs : (s.setSeqCounter r).programs = s.programs := rfl
@[simp] theorem setSeqCounter_vocab : (s.setSeqCounter r).vocab = s.vocab := rfl
@[simp] theorem setSeqCounter_sources : (s.setSeqCounter r).sources = s.sources := rfl
@[simp] theorem setSeqCounter_channels : (s.setSeqCounter r).channels = s.channels := rfl
@[simp] theorem setSeqCounter_waitList : (s.setSeqCounter r).waitList = s.waitList := rfl
@[simp] theorem setSeqCounter_slotMap : (s.setSeqCounter r).slotMap = s.slotMap := rfl
@[simp] theorem setSeqCounter_idleModes : (s.setSeqCounter r).idleModes = s.idleModes := rfl
@[simp] theorem setSeqCounter_idleByte : (s.setSeqCounter r).idleByte = s.idleByte := rfl
@[simp] theorem setSeqCounter_highway : (s.setSeqCounter r).highway = s.highway := rfl
@[simp] theorem setSeqCounter_portA : (s.setSeqCounter r).portA = s.portA := rfl
@[simp] theorem setSeqCounter_portB : (s.setSeqCounter r).portB = s.portB := rfl
@[simp] theorem setSeqCounter_portS : (s.setSeqCounter r).portS = s.portS := rfl
@[simp] theorem setSeqCounter_device : (s.setSeqCounter r).device = s.device := rfl
@[simp] theorem setSeqCounter_free : (s.setSeqCounter r).free = s.free := rfl
@[simp] theorem setSeqCounter_pending : (s.setSeqCounter r).pending = s.pending := rfl
@[simp] theorem setSeqCounter_agent (i : AgentSlot) : (s.setSeqCounter r).agent i = s.agent i := rfl
@[simp] theorem setSeqCounter_group (i : Group) : (s.setSeqCounter r).group i = s.group i := rfl
@[simp] theorem setSeqCounter_call (i : CallSlot) : (s.setSeqCounter r).call i = s.call i := rfl
@[simp] theorem setSeqCounter_line (i : LineNo) : (s.setSeqCounter r).line i = s.line i := rfl
@[simp] theorem setSeqCounter_segment (i : SegmentCode) : (s.setSeqCounter r).segment i = s.segment i := rfl
@[simp] theorem setSeqCounter_programSteps (i : ProgramNo) : (s.setSeqCounter r).programSteps i = s.programSteps i := rfl
@[simp] theorem setSeqCounter_vocabEntry (i : VocabNo) : (s.setSeqCounter r).vocabEntry i = s.vocabEntry i := rfl
@[simp] theorem setSeqCounter_source (i : SourceNo) : (s.setSeqCounter r).source i = s.source i := rfl
@[simp] theorem setSeqCounter_channel (i : ChannelNo) : (s.setSeqCounter r).channel i = s.channel i := rfl
@[simp] theorem setSeqCounter_slotOf (i : HighwayChannel) : (s.setSeqCounter r).slotOf i = s.slotOf i := rfl
@[simp] theorem setSeqCounter_modeOf (i : HighwayChannel) : (s.setSeqCounter r).modeOf i = s.modeOf i := rfl
@[simp] theorem setSeqCounter_port (i : Port) : (s.setSeqCounter r).port i = s.port i := rfl
@[simp] theorem setSeqCounter_hasRoom (i : Port) : (s.setSeqCounter r).hasRoom i = s.hasRoom i := rfl
end

section
variable (s : State) (r : Byte)
@[simp] theorem setIdleByte_clock : (s.setIdleByte r).clock = s.clock := rfl
@[simp] theorem setIdleByte_agents : (s.setIdleByte r).agents = s.agents := rfl
@[simp] theorem setIdleByte_groups : (s.setIdleByte r).groups = s.groups := rfl
@[simp] theorem setIdleByte_calls : (s.setIdleByte r).calls = s.calls := rfl
@[simp] theorem setIdleByte_seqCounter : (s.setIdleByte r).seqCounter = s.seqCounter := rfl
@[simp] theorem setIdleByte_lines : (s.setIdleByte r).lines = s.lines := rfl
@[simp] theorem setIdleByte_seed : (s.setIdleByte r).seed = s.seed := rfl
@[simp] theorem setIdleByte_taps : (s.setIdleByte r).taps = s.taps := rfl
@[simp] theorem setIdleByte_generator : (s.setIdleByte r).generator = s.generator := rfl
@[simp] theorem setIdleByte_callTriggers : (s.setIdleByte r).callTriggers = s.callTriggers := rfl
@[simp] theorem setIdleByte_agentTriggers : (s.setIdleByte r).agentTriggers = s.agentTriggers := rfl
@[simp] theorem setIdleByte_sweepWaiting : (s.setIdleByte r).sweepWaiting = s.sweepWaiting := rfl
@[simp] theorem setIdleByte_ram : (s.setIdleByte r).ram = s.ram := rfl
@[simp] theorem setIdleByte_segments : (s.setIdleByte r).segments = s.segments := rfl
@[simp] theorem setIdleByte_programs : (s.setIdleByte r).programs = s.programs := rfl
@[simp] theorem setIdleByte_vocab : (s.setIdleByte r).vocab = s.vocab := rfl
@[simp] theorem setIdleByte_sources : (s.setIdleByte r).sources = s.sources := rfl
@[simp] theorem setIdleByte_channels : (s.setIdleByte r).channels = s.channels := rfl
@[simp] theorem setIdleByte_waitList : (s.setIdleByte r).waitList = s.waitList := rfl
@[simp] theorem setIdleByte_slotMap : (s.setIdleByte r).slotMap = s.slotMap := rfl
@[simp] theorem setIdleByte_idleModes : (s.setIdleByte r).idleModes = s.idleModes := rfl
@[simp] theorem setIdleByte_highway : (s.setIdleByte r).highway = s.highway := rfl
@[simp] theorem setIdleByte_portA : (s.setIdleByte r).portA = s.portA := rfl
@[simp] theorem setIdleByte_portB : (s.setIdleByte r).portB = s.portB := rfl
@[simp] theorem setIdleByte_portS : (s.setIdleByte r).portS = s.portS := rfl
@[simp] theorem setIdleByte_device : (s.setIdleByte r).device = s.device := rfl
@[simp] theorem setIdleByte_free : (s.setIdleByte r).free = s.free := rfl
@[simp] theorem setIdleByte_pending : (s.setIdleByte r).pending = s.pending := rfl
@[simp] theorem setIdleByte_agent (i : AgentSlot) : (s.setIdleByte r).agent i = s.agent i := rfl
@[simp] theorem setIdleByte_group (i : Group) : (s.setIdleByte r).group i = s.group i := rfl
@[simp] theorem setIdleByte_call (i : CallSlot) : (s.setIdleByte r).call i = s.call i := rfl
@[simp] theorem setIdleByte_line (i : LineNo) : (s.setIdleByte r).line i = s.line i := rfl
@[simp] theorem setIdleByte_segment (i : SegmentCode) : (s.setIdleByte r).segment i = s.segment i := rfl
@[simp] theorem setIdleByte_programSteps (i : ProgramNo) : (s.setIdleByte r).programSteps i = s.programSteps i := rfl
@[simp] theorem setIdleByte_vocabEntry (i : VocabNo) : (s.setIdleByte r).vocabEntry i = s.vocabEntry i := rfl
@[simp] theorem setIdleByte_source (i : SourceNo) : (s.setIdleByte r).source i = s.source i := rfl
@[simp] theorem setIdleByte_channel (i : ChannelNo) : (s.setIdleByte r).channel i = s.channel i := rfl
@[simp] theorem setIdleByte_slotOf (i : HighwayChannel) : (s.setIdleByte r).slotOf i = s.slotOf i := rfl
@[simp] theorem setIdleByte_modeOf (i : HighwayChannel) : (s.setIdleByte r).modeOf i = s.modeOf i := rfl
@[simp] theorem setIdleByte_port (i : Port) : (s.setIdleByte r).port i = s.port i := rfl
@[simp] theorem setIdleByte_hasRoom (i : Port) : (s.setIdleByte r).hasRoom i = s.hasRoom i := rfl
end

section
variable (s : State) (r : Nat)
@[simp] theorem setClock_agents : (s.setClock r).agents = s.agents := rfl
@[simp] theorem setClock_groups : (s.setClock r).groups = s.groups := rfl
@[simp] theorem setClock_calls : (s.setClock r).calls = s.calls := rfl
@[simp] theorem setClock_seqCounter : (s.setClock r).seqCounter = s.seqCounter := rfl
@[simp] theorem setClock_lines : (s.setClock r).lines = s.lines := rfl
@[simp] theorem setClock_seed : (s.setClock r).seed = s.seed := rfl
@[simp] theorem setClock_taps : (s.setClock r).taps = s.taps := rfl
@[simp] theorem setClock_generator : (s.setClock r).generator = s.generator := rfl
@[simp] theorem setClock_callTriggers : (s.setClock r).callTriggers = s.callTriggers := rfl
@[simp] theorem setClock_agentTriggers : (s.setClock r).agentTriggers = s.agentTriggers := rfl
@[simp] theorem setClock_sweepWaiting : (s.setClock r).sweepWaiting = s.sweepWaiting := rfl
@[simp] theorem setClock_ram : (s.setClock r).ram = s.ram := rfl
@[simp] theorem setClock_segments : (s.setClock r).segments = s.segments := rfl
@[simp] theorem setClock_programs : (s.setClock r).programs = s.programs := rfl
@[simp] theorem setClock_vocab : (s.setClock r).vocab = s.vocab := rfl
@[simp] theorem setClock_sources : (s.setClock r).sources = s.sources := rfl
@[simp] theorem setClock_channels : (s.setClock r).channels = s.channels := rfl
@[simp] theorem setClock_waitList : (s.setClock r).waitList = s.waitList := rfl
@[simp] theorem setClock_slotMap : (s.setClock r).slotMap = s.slotMap := rfl
@[simp] theorem setClock_idleModes : (s.setClock r).idleModes = s.idleModes := rfl
@[simp] theorem setClock_idleByte : (s.setClock r).idleByte = s.idleByte := rfl
@[simp] theorem setClock_highway : (s.setClock r).highway = s.highway := rfl
@[simp] theorem setClock_portA : (s.setClock r).portA = s.portA := rfl
@[simp] theorem setClock_portB : (s.setClock r).portB = s.portB := rfl
@[simp] theorem setClock_portS : (s.setClock r).portS = s.portS := rfl
@[simp] theorem setClock_device : (s.setClock r).device = s.device := rfl
@[simp] theorem setClock_free : (s.setClock r).free = s.free := rfl
@[simp] theorem setClock_pending : (s.setClock r).pending = s.pending := rfl
@[simp] theorem setClock_agent (i : AgentSlot) : (s.setClock r).agent i = s.agent i := rfl
@[simp] theorem setClock_group (i : Group) : (s.setClock r).group i = s.group i := rfl
@[simp] theorem setClock_call (i : CallSlot) : (s.setClock r).call i = s.call i := rfl
@[simp] theorem setClock_line (i : LineNo) : (s.setClock r).line i = s.line i := rfl
@[simp] theorem setClock_segment (i : SegmentCode) : (s.setClock r).segment i = s.segment i := rfl
@[simp] theorem setClock_programSteps (i : ProgramNo) : (s.setClock r).programSteps i = s.programSteps i := rfl
@[simp] theorem setClock_vocabEntry (i : VocabNo) : (s.setClock r).vocabEntry i = s.vocabEntry i := rfl
@[simp] theorem setClock_source (i : SourceNo) : (s.setClock r).source i = s.source i := rfl
@[simp] theorem setClock_channel (i : ChannelNo) : (s.setClock r).channel i = s.channel i := rfl
@[simp] theorem setClock_slotOf (i : HighwayChannel) : (s.setClock r).slotOf i = s.slotOf i := rfl
@[simp] theorem setClock_modeOf (i : HighwayChannel) : (s.setClock r).modeOf i = s.modeOf i := rfl
@[simp] theorem setClock_port (i : Port) : (s.setClock r).port i = s.port i := rfl
@[simp] theorem setClock_hasRoom (i : Port) : (s.setClock r).hasRoom i = s.hasRoom i := rfl
end

section
variable (s : State) (r : Nat)
@[simp] theorem draw_clock : (s.draw r).clock = s.clock := rfl
@[simp] theorem draw_agents : (s.draw r).agents = s.agents := rfl
@[simp] theorem draw_groups : (s.draw r).groups = s.groups := rfl
@[simp] theorem draw_calls : (s.draw r).calls = s.calls := rfl
@[simp] theorem draw_seqCounter : (s.draw r).seqCounter = s.seqCounter := rfl
@[simp] theorem draw_lines : (s.draw r).lines = s.lines := rfl
@[simp] theorem draw_seed : (s.draw r).seed = s.seed := rfl
@[simp] theorem draw_taps : (s.draw r).taps = s.taps := rfl
@[simp] theorem draw_generator : (s.draw r).generator = s.generator := rfl
@[simp] theorem draw_callTriggers : (s.draw r).callTriggers = s.callTriggers := rfl
@[simp] theorem draw_agentTriggers : (s.draw r).agentTriggers = s.agentTriggers := rfl
@[simp] theorem draw_sweepWaiting : (s.draw r).sweepWaiting = s.sweepWaiting := rfl
@[simp] theorem draw_ram : (s.draw r).ram = s.ram := rfl
@[simp] theorem draw_segments : (s.draw r).segments = s.segments := rfl
@[simp] theorem draw_programs : (s.draw r).programs = s.programs := rfl
@[simp] theorem draw_vocab : (s.draw r).vocab = s.vocab := rfl
@[simp] theorem draw_sources : (s.draw r).sources = s.sources := rfl
@[simp] theorem draw_channels : (s.draw r).channels = s.channels := rfl
@[simp] theorem draw_waitList : (s.draw r).waitList = s.waitList := rfl
@[simp] theorem draw_slotMap : (s.draw r).slotMap = s.slotMap := rfl
@[simp] theorem draw_idleModes : (s.draw r).idleModes = s.idleModes := rfl
@[simp] theorem draw_idleByte : (s.draw r).idleByte = s.idleByte := rfl
@[simp] theorem draw_highway : (s.draw r).highway = s.highway := rfl
@[simp] theorem draw_portA : (s.draw r).portA = s.portA := rfl
@[simp] theorem draw_portB : (s.draw r).portB = s.portB := rfl
@[simp] theorem draw_portS : (s.draw r).portS = s.portS := rfl
@[simp] theorem draw_device : (s.draw r).device = s.device := rfl
@[simp] theorem draw_pending : (s.draw r).pending = s.pending := rfl
@[simp] theorem draw_agent (i : AgentSlot) : (s.draw r).agent i = s.agent i := rfl
@[simp] theorem draw_group (i : Group) : (s.draw r).group i = s.group i := rfl
@[simp] theorem draw_call (i : CallSlot) : (s.draw r).call i = s.call i := rfl
@[simp] theorem draw_line (i : LineNo) : (s.draw r).line i = s.line i := rfl
@[simp] theorem draw_segment (i : SegmentCode) : (s.draw r).segment i = s.segment i := rfl
@[simp] theorem draw_programSteps (i : ProgramNo) : (s.draw r).programSteps i = s.programSteps i := rfl
@[simp] theorem draw_vocabEntry (i : VocabNo) : (s.draw r).vocabEntry i = s.vocabEntry i := rfl
@[simp] theorem draw_source (i : SourceNo) : (s.draw r).source i = s.source i := rfl
@[simp] theorem draw_channel (i : ChannelNo) : (s.draw r).channel i = s.channel i := rfl
@[simp] theorem draw_slotOf (i : HighwayChannel) : (s.draw r).slotOf i = s.slotOf i := rfl
@[simp] theorem draw_modeOf (i : HighwayChannel) : (s.draw r).modeOf i = s.modeOf i := rfl
@[simp] theorem draw_port (i : Port) : (s.draw r).port i = s.port i := rfl
@[simp] theorem draw_hasRoom (i : Port) : (s.draw r).hasRoom i = s.hasRoom i := rfl
end

section
variable (s : State) 
@[simp] theorem raiseSweep_clock : (s.raiseSweep).clock = s.clock := rfl
@[simp] theorem raiseSweep_agents : (s.raiseSweep).agents = s.agents := rfl
@[simp] theorem raiseSweep_groups : (s.raiseSweep).groups = s.groups := rfl
@[simp] theorem raiseSweep_calls : (s.raiseSweep).calls = s.calls := rfl
@[simp] theorem raiseSweep_seqCounter : (s.raiseSweep).seqCounter = s.seqCounter := rfl
@[simp] theorem raiseSweep_lines : (s.raiseSweep).lines = s.lines := rfl
@[simp] theorem raiseSweep_seed : (s.raiseSweep).seed = s.seed := rfl
@[simp] theorem raiseSweep_taps : (s.raiseSweep).taps = s.taps := rfl
@[simp] theorem raiseSweep_generator : (s.raiseSweep).generator = s.generator := rfl
@[simp] theorem raiseSweep_callTriggers : (s.raiseSweep).callTriggers = s.callTriggers := rfl
@[simp] theorem raiseSweep_agentTriggers : (s.raiseSweep).agentTriggers = s.agentTriggers := rfl
@[simp] theorem raiseSweep_ram : (s.raiseSweep).ram = s.ram := rfl
@[simp] theorem raiseSweep_segments : (s.raiseSweep).segments = s.segments := rfl
@[simp] theorem raiseSweep_programs : (s.raiseSweep).programs = s.programs := rfl
@[simp] theorem raiseSweep_vocab : (s.raiseSweep).vocab = s.vocab := rfl
@[simp] theorem raiseSweep_sources : (s.raiseSweep).sources = s.sources := rfl
@[simp] theorem raiseSweep_channels : (s.raiseSweep).channels = s.channels := rfl
@[simp] theorem raiseSweep_waitList : (s.raiseSweep).waitList = s.waitList := rfl
@[simp] theorem raiseSweep_slotMap : (s.raiseSweep).slotMap = s.slotMap := rfl
@[simp] theorem raiseSweep_idleModes : (s.raiseSweep).idleModes = s.idleModes := rfl
@[simp] theorem raiseSweep_idleByte : (s.raiseSweep).idleByte = s.idleByte := rfl
@[simp] theorem raiseSweep_highway : (s.raiseSweep).highway = s.highway := rfl
@[simp] theorem raiseSweep_portA : (s.raiseSweep).portA = s.portA := rfl
@[simp] theorem raiseSweep_portB : (s.raiseSweep).portB = s.portB := rfl
@[simp] theorem raiseSweep_portS : (s.raiseSweep).portS = s.portS := rfl
@[simp] theorem raiseSweep_device : (s.raiseSweep).device = s.device := rfl
@[simp] theorem raiseSweep_free : (s.raiseSweep).free = s.free := rfl
@[simp] theorem raiseSweep_pending : (s.raiseSweep).pending = s.pending := rfl
@[simp] theorem raiseSweep_agent (i : AgentSlot) : (s.raiseSweep).agent i = s.agent i := rfl
@[simp] theorem raiseSweep_group (i : Group) : (s.raiseSweep).group i = s.group i := rfl
@[simp] theorem raiseSweep_call (i : CallSlot) : (s.raiseSweep).call i = s.call i := rfl
@[simp] theorem raiseSweep_line (i : LineNo) : (s.raiseSweep).line i = s.line i := rfl
@[simp] theorem raiseSweep_segment (i : SegmentCode) : (s.raiseSweep).segment i = s.segment i := rfl
@[simp] theorem raiseSweep_programSteps (i : ProgramNo) : (s.raiseSweep).programSteps i = s.programSteps i := rfl
@[simp] theorem raiseSweep_vocabEntry (i : VocabNo) : (s.raiseSweep).vocabEntry i = s.vocabEntry i := rfl
@[simp] theorem raiseSweep_source (i : SourceNo) : (s.raiseSweep).source i = s.source i := rfl
@[simp] theorem raiseSweep_channel (i : ChannelNo) : (s.raiseSweep).channel i = s.channel i := rfl
@[simp] theorem raiseSweep_slotOf (i : HighwayChannel) : (s.raiseSweep).slotOf i = s.slotOf i := rfl
@[simp] theorem raiseSweep_modeOf (i : HighwayChannel) : (s.raiseSweep).modeOf i = s.modeOf i := rfl
@[simp] theorem raiseSweep_port (i : Port) : (s.raiseSweep).port i = s.port i := rfl
@[simp] theorem raiseSweep_hasRoom (i : Port) : (s.raiseSweep).hasRoom i = s.hasRoom i := rfl
end

section
variable (s : State) 
@[simp] theorem dropSweep_clock : (s.dropSweep).clock = s.clock := rfl
@[simp] theorem dropSweep_agents : (s.dropSweep).agents = s.agents := rfl
@[simp] theorem dropSweep_groups : (s.dropSweep).groups = s.groups := rfl
@[simp] theorem dropSweep_calls : (s.dropSweep).calls = s.calls := rfl
@[simp] theorem dropSweep_seqCounter : (s.dropSweep).seqCounter = s.seqCounter := rfl
@[simp] theorem dropSweep_lines : (s.dropSweep).lines = s.lines := rfl
@[simp] theorem dropSweep_seed : (s.dropSweep).seed = s.seed := rfl
@[simp] theorem dropSweep_taps : (s.dropSweep).taps = s.taps := rfl
@[simp] theorem dropSweep_generator : (s.dropSweep).generator = s.generator := rfl
@[simp] theorem dropSweep_callTriggers : (s.dropSweep).callTriggers = s.callTriggers := rfl
@[simp] theorem dropSweep_agentTriggers : (s.dropSweep).agentTriggers = s.agentTriggers := rfl
@[simp] theorem dropSweep_ram : (s.dropSweep).ram = s.ram := rfl
@[simp] theorem dropSweep_segments : (s.dropSweep).segments = s.segments := rfl
@[simp] theorem dropSweep_programs : (s.dropSweep).programs = s.programs := rfl
@[simp] theorem dropSweep_vocab : (s.dropSweep).vocab = s.vocab := rfl
@[simp] theorem dropSweep_sources : (s.dropSweep).sources = s.sources := rfl
@[simp] theorem dropSweep_channels : (s.dropSweep).channels = s.channels := rfl
@[simp] theorem dropSweep_waitList : (s.dropSweep).waitList = s.waitList := rfl
@[simp] theorem dropSweep_slotMap : (s.dropSweep).slotMap = s.slotMap := rfl
@[simp] theorem dropSweep_idleModes : (s.dropSweep).idleModes = s.idleModes := rfl
@[simp] theorem dropSweep_idleByte : (s.dropSweep).idleByte = s.idleByte := rfl
@[simp] theorem dropSweep_highway : (s.dropSweep).highway = s.highway := rfl
@[simp] theorem dropSweep_portA : (s.dropSweep).portA = s.portA := rfl
@[simp] theorem dropSweep_portB : (s.dropSweep).portB = s.portB := rfl
@[simp] theorem dropSweep_portS : (s.dropSweep).portS = s.portS := rfl
@[simp] theorem dropSweep_device : (s.dropSweep).device = s.device := rfl
@[simp] theorem dropSweep_free : (s.dropSweep).free = s.free := rfl
@[simp] theorem dropSweep_pending : (s.dropSweep).pending = s.pending := rfl
@[simp] theorem dropSweep_agent (i : AgentSlot) : (s.dropSweep).agent i = s.agent i := rfl
@[simp] theorem dropSweep_group (i : Group) : (s.dropSweep).group i = s.group i := rfl
@[simp] theorem dropSweep_call (i : CallSlot) : (s.dropSweep).call i = s.call i := rfl
@[simp] theorem dropSweep_line (i : LineNo) : (s.dropSweep).line i = s.line i := rfl
@[simp] theorem dropSweep_segment (i : SegmentCode) : (s.dropSweep).segment i = s.segment i := rfl
@[simp] theorem dropSweep_programSteps (i : ProgramNo) : (s.dropSweep).programSteps i = s.programSteps i := rfl
@[simp] theorem dropSweep_vocabEntry (i : VocabNo) : (s.dropSweep).vocabEntry i = s.vocabEntry i := rfl
@[simp] theorem dropSweep_source (i : SourceNo) : (s.dropSweep).source i = s.source i := rfl
@[simp] theorem dropSweep_channel (i : ChannelNo) : (s.dropSweep).channel i = s.channel i := rfl
@[simp] theorem dropSweep_slotOf (i : HighwayChannel) : (s.dropSweep).slotOf i = s.slotOf i := rfl
@[simp] theorem dropSweep_modeOf (i : HighwayChannel) : (s.dropSweep).modeOf i = s.modeOf i := rfl
@[simp] theorem dropSweep_port (i : Port) : (s.dropSweep).port i = s.port i := rfl
@[simp] theorem dropSweep_hasRoom (i : Port) : (s.dropSweep).hasRoom i = s.hasRoom i := rfl
end

section
variable (s : State) (c : CallSlot)
@[simp] theorem dropCallTrigger_clock : (s.dropCallTrigger c).clock = s.clock := rfl
@[simp] theorem dropCallTrigger_agents : (s.dropCallTrigger c).agents = s.agents := rfl
@[simp] theorem dropCallTrigger_groups : (s.dropCallTrigger c).groups = s.groups := rfl
@[simp] theorem dropCallTrigger_calls : (s.dropCallTrigger c).calls = s.calls := rfl
@[simp] theorem dropCallTrigger_seqCounter : (s.dropCallTrigger c).seqCounter = s.seqCounter := rfl
@[simp] theorem dropCallTrigger_lines : (s.dropCallTrigger c).lines = s.lines := rfl
@[simp] theorem dropCallTrigger_seed : (s.dropCallTrigger c).seed = s.seed := rfl
@[simp] theorem dropCallTrigger_taps : (s.dropCallTrigger c).taps = s.taps := rfl
@[simp] theorem dropCallTrigger_generator : (s.dropCallTrigger c).generator = s.generator := rfl
@[simp] theorem dropCallTrigger_agentTriggers : (s.dropCallTrigger c).agentTriggers = s.agentTriggers := rfl
@[simp] theorem dropCallTrigger_sweepWaiting : (s.dropCallTrigger c).sweepWaiting = s.sweepWaiting := rfl
@[simp] theorem dropCallTrigger_ram : (s.dropCallTrigger c).ram = s.ram := rfl
@[simp] theorem dropCallTrigger_segments : (s.dropCallTrigger c).segments = s.segments := rfl
@[simp] theorem dropCallTrigger_programs : (s.dropCallTrigger c).programs = s.programs := rfl
@[simp] theorem dropCallTrigger_vocab : (s.dropCallTrigger c).vocab = s.vocab := rfl
@[simp] theorem dropCallTrigger_sources : (s.dropCallTrigger c).sources = s.sources := rfl
@[simp] theorem dropCallTrigger_channels : (s.dropCallTrigger c).channels = s.channels := rfl
@[simp] theorem dropCallTrigger_waitList : (s.dropCallTrigger c).waitList = s.waitList := rfl
@[simp] theorem dropCallTrigger_slotMap : (s.dropCallTrigger c).slotMap = s.slotMap := rfl
@[simp] theorem dropCallTrigger_idleModes : (s.dropCallTrigger c).idleModes = s.idleModes := rfl
@[simp] theorem dropCallTrigger_idleByte : (s.dropCallTrigger c).idleByte = s.idleByte := rfl
@[simp] theorem dropCallTrigger_highway : (s.dropCallTrigger c).highway = s.highway := rfl
@[simp] theorem dropCallTrigger_portA : (s.dropCallTrigger c).portA = s.portA := rfl
@[simp] theorem dropCallTrigger_portB : (s.dropCallTrigger c).portB = s.portB := rfl
@[simp] theorem dropCallTrigger_portS : (s.dropCallTrigger c).portS = s.portS := rfl
@[simp] theorem dropCallTrigger_device : (s.dropCallTrigger c).device = s.device := rfl
@[simp] theorem dropCallTrigger_free : (s.dropCallTrigger c).free = s.free := rfl
@[simp] theorem dropCallTrigger_pending : (s.dropCallTrigger c).pending = s.pending := rfl
@[simp] theorem dropCallTrigger_agent (i : AgentSlot) : (s.dropCallTrigger c).agent i = s.agent i := rfl
@[simp] theorem dropCallTrigger_group (i : Group) : (s.dropCallTrigger c).group i = s.group i := rfl
@[simp] theorem dropCallTrigger_call (i : CallSlot) : (s.dropCallTrigger c).call i = s.call i := rfl
@[simp] theorem dropCallTrigger_line (i : LineNo) : (s.dropCallTrigger c).line i = s.line i := rfl
@[simp] theorem dropCallTrigger_segment (i : SegmentCode) : (s.dropCallTrigger c).segment i = s.segment i := rfl
@[simp] theorem dropCallTrigger_programSteps (i : ProgramNo) : (s.dropCallTrigger c).programSteps i = s.programSteps i := rfl
@[simp] theorem dropCallTrigger_vocabEntry (i : VocabNo) : (s.dropCallTrigger c).vocabEntry i = s.vocabEntry i := rfl
@[simp] theorem dropCallTrigger_source (i : SourceNo) : (s.dropCallTrigger c).source i = s.source i := rfl
@[simp] theorem dropCallTrigger_channel (i : ChannelNo) : (s.dropCallTrigger c).channel i = s.channel i := rfl
@[simp] theorem dropCallTrigger_slotOf (i : HighwayChannel) : (s.dropCallTrigger c).slotOf i = s.slotOf i := rfl
@[simp] theorem dropCallTrigger_modeOf (i : HighwayChannel) : (s.dropCallTrigger c).modeOf i = s.modeOf i := rfl
@[simp] theorem dropCallTrigger_port (i : Port) : (s.dropCallTrigger c).port i = s.port i := rfl
@[simp] theorem dropCallTrigger_hasRoom (i : Port) : (s.dropCallTrigger c).hasRoom i = s.hasRoom i := rfl
end

section
variable (s : State) (a : AgentSlot)
@[simp] theorem dropAgentTrigger_clock : (s.dropAgentTrigger a).clock = s.clock := rfl
@[simp] theorem dropAgentTrigger_agents : (s.dropAgentTrigger a).agents = s.agents := rfl
@[simp] theorem dropAgentTrigger_groups : (s.dropAgentTrigger a).groups = s.groups := rfl
@[simp] theorem dropAgentTrigger_calls : (s.dropAgentTrigger a).calls = s.calls := rfl
@[simp] theorem dropAgentTrigger_seqCounter : (s.dropAgentTrigger a).seqCounter = s.seqCounter := rfl
@[simp] theorem dropAgentTrigger_lines : (s.dropAgentTrigger a).lines = s.lines := rfl
@[simp] theorem dropAgentTrigger_seed : (s.dropAgentTrigger a).seed = s.seed := rfl
@[simp] theorem dropAgentTrigger_taps : (s.dropAgentTrigger a).taps = s.taps := rfl
@[simp] theorem dropAgentTrigger_generator : (s.dropAgentTrigger a).generator = s.generator := rfl
@[simp] theorem dropAgentTrigger_callTriggers : (s.dropAgentTrigger a).callTriggers = s.callTriggers := rfl
@[simp] theorem dropAgentTrigger_sweepWaiting : (s.dropAgentTrigger a).sweepWaiting = s.sweepWaiting := rfl
@[simp] theorem dropAgentTrigger_ram : (s.dropAgentTrigger a).ram = s.ram := rfl
@[simp] theorem dropAgentTrigger_segments : (s.dropAgentTrigger a).segments = s.segments := rfl
@[simp] theorem dropAgentTrigger_programs : (s.dropAgentTrigger a).programs = s.programs := rfl
@[simp] theorem dropAgentTrigger_vocab : (s.dropAgentTrigger a).vocab = s.vocab := rfl
@[simp] theorem dropAgentTrigger_sources : (s.dropAgentTrigger a).sources = s.sources := rfl
@[simp] theorem dropAgentTrigger_channels : (s.dropAgentTrigger a).channels = s.channels := rfl
@[simp] theorem dropAgentTrigger_waitList : (s.dropAgentTrigger a).waitList = s.waitList := rfl
@[simp] theorem dropAgentTrigger_slotMap : (s.dropAgentTrigger a).slotMap = s.slotMap := rfl
@[simp] theorem dropAgentTrigger_idleModes : (s.dropAgentTrigger a).idleModes = s.idleModes := rfl
@[simp] theorem dropAgentTrigger_idleByte : (s.dropAgentTrigger a).idleByte = s.idleByte := rfl
@[simp] theorem dropAgentTrigger_highway : (s.dropAgentTrigger a).highway = s.highway := rfl
@[simp] theorem dropAgentTrigger_portA : (s.dropAgentTrigger a).portA = s.portA := rfl
@[simp] theorem dropAgentTrigger_portB : (s.dropAgentTrigger a).portB = s.portB := rfl
@[simp] theorem dropAgentTrigger_portS : (s.dropAgentTrigger a).portS = s.portS := rfl
@[simp] theorem dropAgentTrigger_device : (s.dropAgentTrigger a).device = s.device := rfl
@[simp] theorem dropAgentTrigger_free : (s.dropAgentTrigger a).free = s.free := rfl
@[simp] theorem dropAgentTrigger_pending : (s.dropAgentTrigger a).pending = s.pending := rfl
@[simp] theorem dropAgentTrigger_agent (i : AgentSlot) : (s.dropAgentTrigger a).agent i = s.agent i := rfl
@[simp] theorem dropAgentTrigger_group (i : Group) : (s.dropAgentTrigger a).group i = s.group i := rfl
@[simp] theorem dropAgentTrigger_call (i : CallSlot) : (s.dropAgentTrigger a).call i = s.call i := rfl
@[simp] theorem dropAgentTrigger_line (i : LineNo) : (s.dropAgentTrigger a).line i = s.line i := rfl
@[simp] theorem dropAgentTrigger_segment (i : SegmentCode) : (s.dropAgentTrigger a).segment i = s.segment i := rfl
@[simp] theorem dropAgentTrigger_programSteps (i : ProgramNo) : (s.dropAgentTrigger a).programSteps i = s.programSteps i := rfl
@[simp] theorem dropAgentTrigger_vocabEntry (i : VocabNo) : (s.dropAgentTrigger a).vocabEntry i = s.vocabEntry i := rfl
@[simp] theorem dropAgentTrigger_source (i : SourceNo) : (s.dropAgentTrigger a).source i = s.source i := rfl
@[simp] theorem dropAgentTrigger_channel (i : ChannelNo) : (s.dropAgentTrigger a).channel i = s.channel i := rfl
@[simp] theorem dropAgentTrigger_slotOf (i : HighwayChannel) : (s.dropAgentTrigger a).slotOf i = s.slotOf i := rfl
@[simp] theorem dropAgentTrigger_modeOf (i : HighwayChannel) : (s.dropAgentTrigger a).modeOf i = s.modeOf i := rfl
@[simp] theorem dropAgentTrigger_port (i : Port) : (s.dropAgentTrigger a).port i = s.port i := rfl
@[simp] theorem dropAgentTrigger_hasRoom (i : Port) : (s.dropAgentTrigger a).hasRoom i = s.hasRoom i := rfl
end

section
variable (s : State) (p : Port) (r : PortRec)
@[simp] theorem setPort_clock : (s.setPort p r).clock = s.clock := by cases p <;> rfl
@[simp] theorem setPort_agents : (s.setPort p r).agents = s.agents := by cases p <;> rfl
@[simp] theorem setPort_groups : (s.setPort p r).groups = s.groups := by cases p <;> rfl
@[simp] theorem setPort_calls : (s.setPort p r).calls = s.calls := by cases p <;> rfl
@[simp] theorem setPort_seqCounter : (s.setPort p r).seqCounter = s.seqCounter := by cases p <;> rfl
@[simp] theorem setPort_lines : (s.setPort p r).lines = s.lines := by cases p <;> rfl
@[simp] theorem setPort_seed : (s.setPort p r).seed = s.seed := by cases p <;> rfl
@[simp] theorem setPort_taps : (s.setPort p r).taps = s.taps := by cases p <;> rfl
@[simp] theorem setPort_generator : (s.setPort p r).generator = s.generator := by cases p <;> rfl
@[simp] theorem setPort_callTriggers : (s.setPort p r).callTriggers = s.callTriggers := by cases p <;> rfl
@[simp] theorem setPort_agentTriggers : (s.setPort p r).agentTriggers = s.agentTriggers := by cases p <;> rfl
@[simp] theorem setPort_sweepWaiting : (s.setPort p r).sweepWaiting = s.sweepWaiting := by cases p <;> rfl
@[simp] theorem setPort_ram : (s.setPort p r).ram = s.ram := by cases p <;> rfl
@[simp] theorem setPort_segments : (s.setPort p r).segments = s.segments := by cases p <;> rfl
@[simp] theorem setPort_programs : (s.setPort p r).programs = s.programs := by cases p <;> rfl
@[simp] theorem setPort_vocab : (s.setPort p r).vocab = s.vocab := by cases p <;> rfl
@[simp] theorem setPort_sources : (s.setPort p r).sources = s.sources := by cases p <;> rfl
@[simp] theorem setPort_channels : (s.setPort p r).channels = s.channels := by cases p <;> rfl
@[simp] theorem setPort_waitList : (s.setPort p r).waitList = s.waitList := by cases p <;> rfl
@[simp] theorem setPort_slotMap : (s.setPort p r).slotMap = s.slotMap := by cases p <;> rfl
@[simp] theorem setPort_idleModes : (s.setPort p r).idleModes = s.idleModes := by cases p <;> rfl
@[simp] theorem setPort_idleByte : (s.setPort p r).idleByte = s.idleByte := by cases p <;> rfl
@[simp] theorem setPort_highway : (s.setPort p r).highway = s.highway := by cases p <;> rfl
@[simp] theorem setPort_device : (s.setPort p r).device = s.device := by cases p <;> rfl
@[simp] theorem setPort_free : (s.setPort p r).free = s.free := by cases p <;> rfl
@[simp] theorem setPort_pending : (s.setPort p r).pending = s.pending := by cases p <;> rfl
@[simp] theorem setPort_agent (i : AgentSlot) : (s.setPort p r).agent i = s.agent i := by cases p <;> rfl
@[simp] theorem setPort_group (i : Group) : (s.setPort p r).group i = s.group i := by cases p <;> rfl
@[simp] theorem setPort_call (i : CallSlot) : (s.setPort p r).call i = s.call i := by cases p <;> rfl
@[simp] theorem setPort_line (i : LineNo) : (s.setPort p r).line i = s.line i := by cases p <;> rfl
@[simp] theorem setPort_segment (i : SegmentCode) : (s.setPort p r).segment i = s.segment i := by cases p <;> rfl
@[simp] theorem setPort_programSteps (i : ProgramNo) : (s.setPort p r).programSteps i = s.programSteps i := by cases p <;> rfl
@[simp] theorem setPort_vocabEntry (i : VocabNo) : (s.setPort p r).vocabEntry i = s.vocabEntry i := by cases p <;> rfl
@[simp] theorem setPort_source (i : SourceNo) : (s.setPort p r).source i = s.source i := by cases p <;> rfl
@[simp] theorem setPort_channel (i : ChannelNo) : (s.setPort p r).channel i = s.channel i := by cases p <;> rfl
@[simp] theorem setPort_slotOf (i : HighwayChannel) : (s.setPort p r).slotOf i = s.slotOf i := by cases p <;> rfl
@[simp] theorem setPort_modeOf (i : HighwayChannel) : (s.setPort p r).modeOf i = s.modeOf i := by cases p <;> rfl
end

section
variable (s : State) (c : CallSlot)
@[simp] theorem raiseCallTrigger_clock : (s.raiseCallTrigger c).clock = s.clock := by unfold State.raiseCallTrigger; split <;> rfl
@[simp] theorem raiseCallTrigger_agents : (s.raiseCallTrigger c).agents = s.agents := by unfold State.raiseCallTrigger; split <;> rfl
@[simp] theorem raiseCallTrigger_groups : (s.raiseCallTrigger c).groups = s.groups := by unfold State.raiseCallTrigger; split <;> rfl
@[simp] theorem raiseCallTrigger_calls : (s.raiseCallTrigger c).calls = s.calls := by unfold State.raiseCallTrigger; split <;> rfl
@[simp] theorem raiseCallTrigger_seqCounter : (s.raiseCallTrigger c).seqCounter = s.seqCounter := by unfold State.raiseCallTrigger; split <;> rfl
@[simp] theorem raiseCallTrigger_lines : (s.raiseCallTrigger c).lines = s.lines := by unfold State.raiseCallTrigger; split <;> rfl
@[simp] theorem raiseCallTrigger_seed : (s.raiseCallTrigger c).seed = s.seed := by unfold State.raiseCallTrigger; split <;> rfl
@[simp] theorem raiseCallTrigger_taps : (s.raiseCallTrigger c).taps = s.taps := by unfold State.raiseCallTrigger; split <;> rfl
@[simp] theorem raiseCallTrigger_generator : (s.raiseCallTrigger c).generator = s.generator := by unfold State.raiseCallTrigger; split <;> rfl
@[simp] theorem raiseCallTrigger_agentTriggers : (s.raiseCallTrigger c).agentTriggers = s.agentTriggers := by unfold State.raiseCallTrigger; split <;> rfl
@[simp] theorem raiseCallTrigger_sweepWaiting : (s.raiseCallTrigger c).sweepWaiting = s.sweepWaiting := by unfold State.raiseCallTrigger; split <;> rfl
@[simp] theorem raiseCallTrigger_ram : (s.raiseCallTrigger c).ram = s.ram := by unfold State.raiseCallTrigger; split <;> rfl
@[simp] theorem raiseCallTrigger_segments : (s.raiseCallTrigger c).segments = s.segments := by unfold State.raiseCallTrigger; split <;> rfl
@[simp] theorem raiseCallTrigger_programs : (s.raiseCallTrigger c).programs = s.programs := by unfold State.raiseCallTrigger; split <;> rfl
@[simp] theorem raiseCallTrigger_vocab : (s.raiseCallTrigger c).vocab = s.vocab := by unfold State.raiseCallTrigger; split <;> rfl
@[simp] theorem raiseCallTrigger_sources : (s.raiseCallTrigger c).sources = s.sources := by unfold State.raiseCallTrigger; split <;> rfl
@[simp] theorem raiseCallTrigger_channels : (s.raiseCallTrigger c).channels = s.channels := by unfold State.raiseCallTrigger; split <;> rfl
@[simp] theorem raiseCallTrigger_waitList : (s.raiseCallTrigger c).waitList = s.waitList := by unfold State.raiseCallTrigger; split <;> rfl
@[simp] theorem raiseCallTrigger_slotMap : (s.raiseCallTrigger c).slotMap = s.slotMap := by unfold State.raiseCallTrigger; split <;> rfl
@[simp] theorem raiseCallTrigger_idleModes : (s.raiseCallTrigger c).idleModes = s.idleModes := by unfold State.raiseCallTrigger; split <;> rfl
@[simp] theorem raiseCallTrigger_idleByte : (s.raiseCallTrigger c).idleByte = s.idleByte := by unfold State.raiseCallTrigger; split <;> rfl
@[simp] theorem raiseCallTrigger_highway : (s.raiseCallTrigger c).highway = s.highway := by unfold State.raiseCallTrigger; split <;> rfl
@[simp] theorem raiseCallTrigger_portA : (s.raiseCallTrigger c).portA = s.portA := by unfold State.raiseCallTrigger; split <;> rfl
@[simp] theorem raiseCallTrigger_portB : (s.raiseCallTrigger c).portB = s.portB := by unfold State.raiseCallTrigger; split <;> rfl
@[simp] theorem raiseCallTrigger_portS : (s.raiseCallTrigger c).portS = s.portS := by unfold State.raiseCallTrigger; split <;> rfl
@[simp] theorem raiseCallTrigger_device : (s.raiseCallTrigger c).device = s.device := by unfold State.raiseCallTrigger; split <;> rfl
@[simp] theorem raiseCallTrigger_free : (s.raiseCallTrigger c).free = s.free := by unfold State.raiseCallTrigger; split <;> rfl
@[simp] theorem raiseCallTrigger_pending : (s.raiseCallTrigger c).pending = s.pending := by unfold State.raiseCallTrigger; split <;> rfl
@[simp] theorem raiseCallTrigger_agent (i : AgentSlot) : (s.raiseCallTrigger c).agent i = s.agent i := by unfold State.raiseCallTrigger; split <;> rfl
@[simp] theorem raiseCallTrigger_group (i : Group) : (s.raiseCallTrigger c).group i = s.group i := by unfold State.raiseCallTrigger; split <;> rfl
@[simp] theorem raiseCallTrigger_call (i : CallSlot) : (s.raiseCallTrigger c).call i = s.call i := by unfold State.raiseCallTrigger; split <;> rfl
@[simp] theorem raiseCallTrigger_line (i : LineNo) : (s.raiseCallTrigger c).line i = s.line i := by unfold State.raiseCallTrigger; split <;> rfl
@[simp] theorem raiseCallTrigger_segment (i : SegmentCode) : (s.raiseCallTrigger c).segment i = s.segment i := by unfold State.raiseCallTrigger; split <;> rfl
@[simp] theorem raiseCallTrigger_programSteps (i : ProgramNo) : (s.raiseCallTrigger c).programSteps i = s.programSteps i := by unfold State.raiseCallTrigger; split <;> rfl
@[simp] theorem raiseCallTrigger_vocabEntry (i : VocabNo) : (s.raiseCallTrigger c).vocabEntry i = s.vocabEntry i := by unfold State.raiseCallTrigger; split <;> rfl
@[simp] theorem raiseCallTrigger_source (i : SourceNo) : (s.raiseCallTrigger c).source i = s.source i := by unfold State.raiseCallTrigger; split <;> rfl
@[simp] theorem raiseCallTrigger_channel (i : ChannelNo) : (s.raiseCallTrigger c).channel i = s.channel i := by unfold State.raiseCallTrigger; split <;> rfl
@[simp] theorem raiseCallTrigger_slotOf (i : HighwayChannel) : (s.raiseCallTrigger c).slotOf i = s.slotOf i := by unfold State.raiseCallTrigger; split <;> rfl
@[simp] theorem raiseCallTrigger_modeOf (i : HighwayChannel) : (s.raiseCallTrigger c).modeOf i = s.modeOf i := by unfold State.raiseCallTrigger; split <;> rfl
@[simp] theorem raiseCallTrigger_port (i : Port) : (s.raiseCallTrigger c).port i = s.port i := by unfold State.raiseCallTrigger; split <;> rfl
@[simp] theorem raiseCallTrigger_hasRoom (i : Port) : (s.raiseCallTrigger c).hasRoom i = s.hasRoom i := by unfold State.raiseCallTrigger; split <;> rfl
end

section
variable (s : State) (a : AgentSlot)
@[simp] theorem raiseAgentTrigger_clock : (s.raiseAgentTrigger a).clock = s.clock := by unfold State.raiseAgentTrigger; split <;> rfl
@[simp] theorem raiseAgentTrigger_agents : (s.raiseAgentTrigger a).agents = s.agents := by unfold State.raiseAgentTrigger; split <;> rfl
@[simp] theorem raiseAgentTrigger_groups : (s.raiseAgentTrigger a).groups = s.groups := by unfold State.raiseAgentTrigger; split <;> rfl
@[simp] theorem raiseAgentTrigger_calls : (s.raiseAgentTrigger a).calls = s.calls := by unfold State.raiseAgentTrigger; split <;> rfl
@[simp] theorem raiseAgentTrigger_seqCounter : (s.raiseAgentTrigger a).seqCounter = s.seqCounter := by unfold State.raiseAgentTrigger; split <;> rfl
@[simp] theorem raiseAgentTrigger_lines : (s.raiseAgentTrigger a).lines = s.lines := by unfold State.raiseAgentTrigger; split <;> rfl
@[simp] theorem raiseAgentTrigger_seed : (s.raiseAgentTrigger a).seed = s.seed := by unfold State.raiseAgentTrigger; split <;> rfl
@[simp] theorem raiseAgentTrigger_taps : (s.raiseAgentTrigger a).taps = s.taps := by unfold State.raiseAgentTrigger; split <;> rfl
@[simp] theorem raiseAgentTrigger_generator : (s.raiseAgentTrigger a).generator = s.generator := by unfold State.raiseAgentTrigger; split <;> rfl
@[simp] theorem raiseAgentTrigger_callTriggers : (s.raiseAgentTrigger a).callTriggers = s.callTriggers := by unfold State.raiseAgentTrigger; split <;> rfl
@[simp] theorem raiseAgentTrigger_sweepWaiting : (s.raiseAgentTrigger a).sweepWaiting = s.sweepWaiting := by unfold State.raiseAgentTrigger; split <;> rfl
@[simp] theorem raiseAgentTrigger_ram : (s.raiseAgentTrigger a).ram = s.ram := by unfold State.raiseAgentTrigger; split <;> rfl
@[simp] theorem raiseAgentTrigger_segments : (s.raiseAgentTrigger a).segments = s.segments := by unfold State.raiseAgentTrigger; split <;> rfl
@[simp] theorem raiseAgentTrigger_programs : (s.raiseAgentTrigger a).programs = s.programs := by unfold State.raiseAgentTrigger; split <;> rfl
@[simp] theorem raiseAgentTrigger_vocab : (s.raiseAgentTrigger a).vocab = s.vocab := by unfold State.raiseAgentTrigger; split <;> rfl
@[simp] theorem raiseAgentTrigger_sources : (s.raiseAgentTrigger a).sources = s.sources := by unfold State.raiseAgentTrigger; split <;> rfl
@[simp] theorem raiseAgentTrigger_channels : (s.raiseAgentTrigger a).channels = s.channels := by unfold State.raiseAgentTrigger; split <;> rfl
@[simp] theorem raiseAgentTrigger_waitList : (s.raiseAgentTrigger a).waitList = s.waitList := by unfold State.raiseAgentTrigger; split <;> rfl
@[simp] theorem raiseAgentTrigger_slotMap : (s.raiseAgentTrigger a).slotMap = s.slotMap := by unfold State.raiseAgentTrigger; split <;> rfl
@[simp] theorem raiseAgentTrigger_idleModes : (s.raiseAgentTrigger a).idleModes = s.idleModes := by unfold State.raiseAgentTrigger; split <;> rfl
@[simp] theorem raiseAgentTrigger_idleByte : (s.raiseAgentTrigger a).idleByte = s.idleByte := by unfold State.raiseAgentTrigger; split <;> rfl
@[simp] theorem raiseAgentTrigger_highway : (s.raiseAgentTrigger a).highway = s.highway := by unfold State.raiseAgentTrigger; split <;> rfl
@[simp] theorem raiseAgentTrigger_portA : (s.raiseAgentTrigger a).portA = s.portA := by unfold State.raiseAgentTrigger; split <;> rfl
@[simp] theorem raiseAgentTrigger_portB : (s.raiseAgentTrigger a).portB = s.portB := by unfold State.raiseAgentTrigger; split <;> rfl
@[simp] theorem raiseAgentTrigger_portS : (s.raiseAgentTrigger a).portS = s.portS := by unfold State.raiseAgentTrigger; split <;> rfl
@[simp] theorem raiseAgentTrigger_device : (s.raiseAgentTrigger a).device = s.device := by unfold State.raiseAgentTrigger; split <;> rfl
@[simp] theorem raiseAgentTrigger_free : (s.raiseAgentTrigger a).free = s.free := by unfold State.raiseAgentTrigger; split <;> rfl
@[simp] theorem raiseAgentTrigger_pending : (s.raiseAgentTrigger a).pending = s.pending := by unfold State.raiseAgentTrigger; split <;> rfl
@[simp] theorem raiseAgentTrigger_agent (i : AgentSlot) : (s.raiseAgentTrigger a).agent i = s.agent i := by unfold State.raiseAgentTrigger; split <;> rfl
@[simp] theorem raiseAgentTrigger_group (i : Group) : (s.raiseAgentTrigger a).group i = s.group i := by unfold State.raiseAgentTrigger; split <;> rfl
@[simp] theorem raiseAgentTrigger_call (i : CallSlot) : (s.raiseAgentTrigger a).call i = s.call i := by unfold State.raiseAgentTrigger; split <;> rfl
@[simp] theorem raiseAgentTrigger_line (i : LineNo) : (s.raiseAgentTrigger a).line i = s.line i := by unfold State.raiseAgentTrigger; split <;> rfl
@[simp] theorem raiseAgentTrigger_segment (i : SegmentCode) : (s.raiseAgentTrigger a).segment i = s.segment i := by unfold State.raiseAgentTrigger; split <;> rfl
@[simp] theorem raiseAgentTrigger_programSteps (i : ProgramNo) : (s.raiseAgentTrigger a).programSteps i = s.programSteps i := by unfold State.raiseAgentTrigger; split <;> rfl
@[simp] theorem raiseAgentTrigger_vocabEntry (i : VocabNo) : (s.raiseAgentTrigger a).vocabEntry i = s.vocabEntry i := by unfold State.raiseAgentTrigger; split <;> rfl
@[simp] theorem raiseAgentTrigger_source (i : SourceNo) : (s.raiseAgentTrigger a).source i = s.source i := by unfold State.raiseAgentTrigger; split <;> rfl
@[simp] theorem raiseAgentTrigger_channel (i : ChannelNo) : (s.raiseAgentTrigger a).channel i = s.channel i := by unfold State.raiseAgentTrigger; split <;> rfl
@[simp] theorem raiseAgentTrigger_slotOf (i : HighwayChannel) : (s.raiseAgentTrigger a).slotOf i = s.slotOf i := by unfold State.raiseAgentTrigger; split <;> rfl
@[simp] theorem raiseAgentTrigger_modeOf (i : HighwayChannel) : (s.raiseAgentTrigger a).modeOf i = s.modeOf i := by unfold State.raiseAgentTrigger; split <;> rfl
@[simp] theorem raiseAgentTrigger_port (i : Port) : (s.raiseAgentTrigger a).port i = s.port i := by unfold State.raiseAgentTrigger; split <;> rfl
@[simp] theorem raiseAgentTrigger_hasRoom (i : Port) : (s.raiseAgentTrigger a).hasRoom i = s.hasRoom i := by unfold State.raiseAgentTrigger; split <;> rfl
end

/-! ### Fields that an update writes -/

variable (s : State)

@[simp] theorem setDevice_device (d : DeviceRec) : (s.setDevice d).device = d := rfl
@[simp] theorem setWaitList_waitList (l : List WaitEntry) : (s.setWaitList l).waitList = l := rfl
@[simp] theorem setRam_ram (m : List Host.Cell) : (s.setRam m).ram = m := rfl
@[simp] theorem setHighway_highway (v : Vector (Option Byte) 32) : (s.setHighway v).highway = v := rfl
@[simp] theorem setGenerator_generator (w : Word16) : (s.setGenerator w).generator = w := rfl
@[simp] theorem setTiebreak_seed (a b : Word16) : (s.setTiebreak a b).seed = a := rfl
@[simp] theorem setTiebreak_taps (a b : Word16) : (s.setTiebreak a b).taps = b := rfl
@[simp] theorem setTiebreak_generator (a b : Word16) : (s.setTiebreak a b).generator = a := rfl
@[simp] theorem setSeqCounter_seqCounter (n : Nat) : (s.setSeqCounter n).seqCounter = n := rfl
@[simp] theorem setIdleByte_idleByte (b : Byte) : (s.setIdleByte b).idleByte = b := rfl
@[simp] theorem setClock_clock (n : Nat) : (s.setClock n).clock = n := rfl
@[simp] theorem draw_free (n : Nat) : (s.draw n).free = s.free + n := rfl
@[simp] theorem raiseSweep_sweepWaiting : s.raiseSweep.sweepWaiting = true := rfl
@[simp] theorem dropSweep_sweepWaiting : s.dropSweep.sweepWaiting = false := rfl

/-- One entry of a table after another or the same has been set. -/
theorem get_set {α : Type} {n : Nat} (v : Vector α n) (i j : Fin n) (x : α) :
    (v.set i.val x i.isLt).get j = if j = i then x else v.get j := by
  show (v.set i.val x i.isLt)[j.val] = if j = i then x else v[j.val]
  rw [Vector.getElem_set]
  by_cases h : j = i
  · simp [h]
  · have : i.val ≠ j.val := fun e => h (Fin.ext e.symm)
    simp [h, this]

/-- Two tables with the same entries are the same. -/
theorem table_ext {α : Type} {n : Nat} {v w : Vector α n} (h : ∀ i, v.get i = w.get i) : v = w := by
  apply Vector.ext
  intro i hi
  exact h ⟨i, hi⟩

theorem setAgent_agent (i j : AgentSlot) (r : AgentRec) : (s.setAgent i r).agent j = if j = i then r else s.agent j := get_set _ _ _ _
@[simp] theorem setAgent_agent_self (i : AgentSlot) (r : AgentRec) : (s.setAgent i r).agent i = r := by simp [setAgent_agent]
theorem setAgent_agent_of_ne {i j : AgentSlot} (r : AgentRec) (h : j ≠ i) : (s.setAgent i r).agent j = s.agent j := by simp [setAgent_agent, h]
theorem setGroup_group (i j : Group) (r : GroupRec) : (s.setGroup i r).group j = if j = i then r else s.group j := get_set _ _ _ _
@[simp] theorem setGroup_group_self (i : Group) (r : GroupRec) : (s.setGroup i r).group i = r := by simp [setGroup_group]
theorem setGroup_group_of_ne {i j : Group} (r : GroupRec) (h : j ≠ i) : (s.setGroup i r).group j = s.group j := by simp [setGroup_group, h]
theorem putCall_call (i j : CallSlot) (r : Option CallRec) : (s.putCall i r).call j = if j = i then r else s.call j := get_set _ _ _ _
@[simp] theorem putCall_call_self (i : CallSlot) (r : Option CallRec) : (s.putCall i r).call i = r := by simp [putCall_call]
theorem putCall_call_of_ne {i j : CallSlot} (r : Option CallRec) (h : j ≠ i) : (s.putCall i r).call j = s.call j := by simp [putCall_call, h]
theorem setLine_line (i j : LineNo) (r : LineRec) : (s.setLine i r).line j = if j = i then r else s.line j := get_set _ _ _ _
@[simp] theorem setLine_line_self (i : LineNo) (r : LineRec) : (s.setLine i r).line i = r := by simp [setLine_line]
theorem setLine_line_of_ne {i j : LineNo} (r : LineRec) (h : j ≠ i) : (s.setLine i r).line j = s.line j := by simp [setLine_line, h]
theorem setSegment_segment (i j : SegmentCode) (r : SegmentRec) : (s.setSegment i r).segment j = if j = i then r else s.segment j := get_set _ _ _ _
@[simp] theorem setSegment_segment_self (i : SegmentCode) (r : SegmentRec) : (s.setSegment i r).segment i = r := by simp [setSegment_segment]
theorem setSegment_segment_of_ne {i j : SegmentCode} (r : SegmentRec) (h : j ≠ i) : (s.setSegment i r).segment j = s.segment j := by simp [setSegment_segment, h]
theorem setProgram_programSteps (i j : ProgramNo) (r : List Step) : (s.setProgram i r).programSteps j = if j = i then r else s.programSteps j := get_set _ _ _ _
@[simp] theorem setProgram_programSteps_self (i : ProgramNo) (r : List Step) : (s.setProgram i r).programSteps i = r := by simp [setProgram_programSteps]
theorem setProgram_programSteps_of_ne {i j : ProgramNo} (r : List Step) (h : j ≠ i) : (s.setProgram i r).programSteps j = s.programSteps j := by simp [setProgram_programSteps, h]
theorem setVocab_vocabEntry (i j : VocabNo) (r : Option Byte) : (s.setVocab i r).vocabEntry j = if j = i then r else s.vocabEntry j := get_set _ _ _ _
@[simp] theorem setVocab_vocabEntry_self (i : VocabNo) (r : Option Byte) : (s.setVocab i r).vocabEntry i = r := by simp [setVocab_vocabEntry]
theorem setVocab_vocabEntry_of_ne {i j : VocabNo} (r : Option Byte) (h : j ≠ i) : (s.setVocab i r).vocabEntry j = s.vocabEntry j := by simp [setVocab_vocabEntry, h]
theorem setSource_source (i j : SourceNo) (r : SourceRec) : (s.setSource i r).source j = if j = i then r else s.source j := get_set _ _ _ _
@[simp] theorem setSource_source_self (i : SourceNo) (r : SourceRec) : (s.setSource i r).source i = r := by simp [setSource_source]
theorem setSource_source_of_ne {i j : SourceNo} (r : SourceRec) (h : j ≠ i) : (s.setSource i r).source j = s.source j := by simp [setSource_source, h]
theorem setChannel_channel (i j : ChannelNo) (r : Option Announcement) : (s.setChannel i r).channel j = if j = i then r else s.channel j := get_set _ _ _ _
@[simp] theorem setChannel_channel_self (i : ChannelNo) (r : Option Announcement) : (s.setChannel i r).channel i = r := by simp [setChannel_channel]
theorem setChannel_channel_of_ne {i j : ChannelNo} (r : Option Announcement) (h : j ≠ i) : (s.setChannel i r).channel j = s.channel j := by simp [setChannel_channel, h]
theorem setSlot_slotOf (i j : HighwayChannel) (t : Option Timeslot) (m : IdleMode) :
    (s.setSlot i t m).slotOf j = if j = i then t else s.slotOf j := get_set _ _ _ _
theorem setSlot_modeOf (i j : HighwayChannel) (t : Option Timeslot) (m : IdleMode) :
    (s.setSlot i t m).modeOf j = if j = i then m else s.modeOf j := get_set _ _ _ _

theorem setPort_port (p q : Port) (r : PortRec) : (s.setPort p r).port q = if q = p then r else s.port q := by
  cases p <;> cases q <;> rfl
@[simp] theorem setPort_port_self (p : Port) (r : PortRec) : (s.setPort p r).port p = r := by simp [setPort_port]
theorem setPort_port_of_ne {p q : Port} (r : PortRec) (h : q ≠ p) : (s.setPort p r).port q = s.port q := by
  simp [setPort_port, h]
@[simp] theorem setPort_setPort (p : Port) (r q : PortRec) : (s.setPort p r).setPort p q = s.setPort p q := by cases p <;> rfl
@[simp] theorem setPort_self (p : Port) : s.setPort p (s.port p) = s := by cases p <;> rfl

/-! ### Updates by a function -/

theorem modGroup_eq (g : Group) (f : GroupRec → GroupRec) : s.modGroup g f = s.setGroup g (f (s.group g)) := rfl
theorem modCall_eq (c : CallSlot) (f : CallRec → CallRec) : s.modCall c f = s.putCall c ((s.call c).map f) := rfl
theorem modPort_eq (p : Port) (f : PortRec → PortRec) : s.modPort p f = s.setPort p (f (s.port p)) := rfl

/-- Two states that agree on every table entry, port and plain field are the same. -/
theorem same_ports {s t : State} (ha : s.portA = t.portA) (hb : s.portB = t.portB) (hs : s.portS = t.portS) (p : Port) :
    s.port p = t.port p := by cases p <;> assumption

theorem mem_raiseCallTrigger (c d : CallSlot) : d ∈ (s.raiseCallTrigger c).callTriggers ↔ d = c ∨ d ∈ s.callTriggers := by
  unfold raiseCallTrigger
  split
  · simp_all
  · simp; tauto

theorem mem_raiseAgentTrigger (a b : AgentSlot) :
    b ∈ (s.raiseAgentTrigger a).agentTriggers ↔ b = a ∨ b ∈ s.agentTriggers := by
  unfold raiseAgentTrigger
  split
  · simp_all
  · simp; tauto

end Sys2Proof.Machine.State
end

