-- ==== Sys2Proof/Laws/Keeps.lean ====
section
/-! SUPPORT. Parts of the state that most operations keep: the configuration and the plain registers, and the transaction side of the
ports. -/
namespace Sys2Proof.Machine

/-- The configuration and the plain registers, but for the generator: what no inner change touches. -/
structure KeepsBase (s t : State) : Prop where
  clock : t.clock = s.clock
  seqCounter : t.seqCounter = s.seqCounter
  lines : t.lines = s.lines
  seed : t.seed = s.seed
  taps : t.taps = s.taps
  ram : t.ram = s.ram
  programs : t.programs = s.programs
  vocab : t.vocab = s.vocab
  slotMap : t.slotMap = s.slotMap
  idleModes : t.idleModes = s.idleModes
  idleByte : t.idleByte = s.idleByte
  highway : t.highway = s.highway
  free : t.free = s.free
  pending : t.pending = s.pending

/-- The transaction side of every port: what only a transaction of that port touches. -/
structure KeepsSlots (s t : State) : Prop where
  slot : ∀ p, (t.port p).slot = (s.port p).slot
  response : ∀ p, (t.port p).response = (s.port p).response
  rejected : ∀ p, (t.port p).rejected = (s.port p).rejected
  shifted : ∀ p, (t.port p).shifted = (s.port p).shifted

theorem KeepsBase.refl (s : State) : KeepsBase s s := by constructor <;> rfl

theorem KeepsBase.trans {s t u : State} (h : KeepsBase s t) (k : KeepsBase t u) : KeepsBase s u := by
  constructor
  · exact k.clock.trans h.clock
  · exact k.seqCounter.trans h.seqCounter
  · exact k.lines.trans h.lines
  · exact k.seed.trans h.seed
  · exact k.taps.trans h.taps
  · exact k.ram.trans h.ram
  · exact k.programs.trans h.programs
  · exact k.vocab.trans h.vocab
  · exact k.slotMap.trans h.slotMap
  · exact k.idleModes.trans h.idleModes
  · exact k.idleByte.trans h.idleByte
  · exact k.highway.trans h.highway
  · exact k.free.trans h.free
  · exact k.pending.trans h.pending

theorem KeepsSlots.refl (s : State) : KeepsSlots s s := by constructor <;> intro <;> rfl

theorem KeepsSlots.trans {s t u : State} (h : KeepsSlots s t) (k : KeepsSlots t u) : KeepsSlots s u :=
  ⟨fun p => (k.slot p).trans (h.slot p), fun p => (k.response p).trans (h.response p),
    fun p => (k.rejected p).trans (h.rejected p), fun p => (k.shifted p).trans (h.shifted p)⟩

end Sys2Proof.Machine
end

