-- ==== Sys2Proof/Laws/Watch.lean ====
section
/-! SUPPORT. Everything that handing notices and evaluating watch conditions can do: the ports' queues and owed lists, the owed flags,
and the flags and conditions of groups, and nothing else. -/
namespace Sys2Proof.Machine

/-! ### What a WATCH or an evaluation touches -/

/-- Only groups, port S's notices and owed list, and the device record differ. -/
structure WatchOnly (s t : State) : Prop where
  base : KeepsBase s t
  generator : t.generator = s.generator
  agents : t.agents = s.agents
  calls : t.calls = s.calls
  callTriggers : t.callTriggers = s.callTriggers
  agentTriggers : t.agentTriggers = s.agentTriggers
  sweepWaiting : t.sweepWaiting = s.sweepWaiting
  segments : t.segments = s.segments
  sources : t.sources = s.sources
  channels : t.channels = s.channels
  waitList : t.waitList = s.waitList
  portA : t.portA = s.portA
  portB : t.portB = s.portB
  slots : KeepsSlots s t
  /-- Every group keeps all but its flags and conditions. -/
  groups : ∀ g, { t.group g with flags := {}, conditions := {} } = { s.group g with flags := {}, conditions := {} }

theorem WatchOnly.refl (s : State) : WatchOnly s s := by
  constructor <;> first | rfl | exact KeepsBase.refl s | exact KeepsSlots.refl s | (intro; rfl)

theorem WatchOnly.trans {s t u : State} (h : WatchOnly s t) (k : WatchOnly t u) : WatchOnly s u where
  base := h.base.trans k.base
  generator := k.generator.trans h.generator
  agents := k.agents.trans h.agents
  calls := k.calls.trans h.calls
  callTriggers := k.callTriggers.trans h.callTriggers
  agentTriggers := k.agentTriggers.trans h.agentTriggers
  sweepWaiting := k.sweepWaiting.trans h.sweepWaiting
  segments := k.segments.trans h.segments
  sources := k.sources.trans h.sources
  channels := k.channels.trans h.channels
  waitList := k.waitList.trans h.waitList
  portA := k.portA.trans h.portA
  portB := k.portB.trans h.portB
  slots := h.slots.trans k.slots
  groups g := (k.groups g).trans (h.groups g)

theorem WatchOnly.agent {s t : State} (h : WatchOnly s t) (a : AgentSlot) : t.agent a = s.agent a := by
  simp [State.agent, h.agents]
theorem WatchOnly.call {s t : State} (h : WatchOnly s t) (c : CallSlot) : t.call c = s.call c := by
  simp [State.call, h.calls]

/-- A group keeps each field that is neither a flag nor a condition. -/
theorem WatchOnly.field {α : Type} {s t : State} (h : WatchOnly s t) (f : GroupRec → α)
    (hf : ∀ r, f { r with flags := {}, conditions := {} } = f r) (g : Group) : f (t.group g) = f (s.group g) := by
  rw [← hf (t.group g), h.groups g, hf]

theorem WatchOnly.active {s t : State} (h : WatchOnly s t) (g : Group) : (t.group g).active = (s.group g).active :=
  h.field GroupRec.active (fun _ => rfl) g
theorem WatchOnly.queue {s t : State} (h : WatchOnly s t) (g : Group) : (t.group g).queue = (s.group g).queue :=
  h.field GroupRec.queue (fun _ => rfl) g
theorem WatchOnly.staffed {s t : State} (h : WatchOnly s t) (g : Group) : (t.group g).staffed = (s.group g).staffed :=
  h.field GroupRec.staffed (fun _ => rfl) g

/-- A fold of steps that touch only this touches only this. -/
theorem WatchOnly.foldl {α : Type} {f : State → α → State} (h : ∀ s x, WatchOnly s (f s x)) (l : List α) (s : State) :
    WatchOnly s (l.foldl f s) := by
  induction l generalizing s with
  | nil => exact .refl s
  | cons x l ih => exact (h s x).trans (ih _)

theorem setDevice_watch (s : State) (d : DeviceRec) : WatchOnly s (s.setDevice d) := by
  constructor <;> first | rfl | (constructor <;> first | rfl | (intro; rfl)) | (intro; rfl)

/-- A change of port S's queue or owed list touches only this. -/
theorem setPortS_watch (s : State) (r : PortRec) (h1 : r.slot = s.portS.slot) (h2 : r.response = s.portS.response)
    (h3 : r.rejected = s.portS.rejected) (h4 : r.shifted = s.portS.shifted) : WatchOnly s (s.setPort .s r) := by
  constructor <;>
    first
    | rfl
    | (intro; rfl)
    | (constructor <;> rfl)
    | (constructor <;> intro p <;> cases p <;> first | rfl | assumption)

/-- A change of a group's flags or conditions touches only this. -/
theorem setGroup_watch (s : State) (g : Group) (r : GroupRec)
    (h : { r with flags := {}, conditions := {} } = { s.group g with flags := {}, conditions := {} }) :
    WatchOnly s (s.setGroup g r) := by
  constructor <;>
    first
    | rfl
    | (constructor <;> rfl)
    | (constructor <;> intro p <;> rfl)
    | skip
  intro i
  rw [State.setGroup_group]
  split
  · next e => exact e ▸ h
  · rfl

/-- Handing a WATCH touches only port S's queue and owed list and the device's WATCH owed flag (R187, R192). -/
theorem handWatch_watch (s : State) : WatchOnly s s.handWatch := by
  unfold State.handWatch
  split
  · split
    · exact .refl s
    · exact setPortS_watch _ _ rfl rfl rfl rfl
  · split
    · exact .refl s
    · exact (setDevice_watch s _).trans (setPortS_watch _ _ rfl rfl rfl rfl)

theorem raiseGroupFlag_watch (s : State) (g : Group) (k : GroupKind) : WatchOnly s (s.raiseGroupFlag g k) := by
  unfold State.raiseGroupFlag
  dsimp only
  split
  · exact .refl s
  · have h := setGroup_watch s g { s.group g with flags := (s.group g).flags.set k true } rfl
    split
    · exact h
    · exact h.trans (handWatch_watch _)

/-- Evaluating a condition touches only groups' flags and conditions and what a WATCH touches (R46). -/
theorem evalCondition_watch (s : State) (g : Group) (k : GroupKind) (v : Bool) : WatchOnly s (s.evalCondition g k v) := by
  unfold State.evalCondition
  dsimp only
  have h := setGroup_watch s g { s.group g with conditions := (s.group g).conditions.set k v } rfl
  split
  · exact h.trans (raiseGroupFlag_watch _ _ _)
  · exact h

theorem evalDepth_watch (s : State) (g : Group) : WatchOnly s (s.evalDepth g) := evalCondition_watch ..
theorem evalWait_watch (s : State) (g : Group) : WatchOnly s (s.evalWait g) := evalCondition_watch ..
theorem evalNoStaff_watch (s : State) (g : Group) : WatchOnly s (s.evalNoStaff g) := evalCondition_watch ..
theorem evalQueue_watch (s : State) (g : Group) : WatchOnly s (s.evalQueue g) :=
  ((evalDepth_watch s g).trans (evalWait_watch _ g)).trans (evalNoStaff_watch _ g)

theorem raiseSegmentFault_watch (s : State) : WatchOnly s s.raiseSegmentFault := by
  unfold State.raiseSegmentFault
  dsimp only
  split
  · exact .refl s
  · split
    · exact setDevice_watch s _
    · exact (setDevice_watch s _).trans (handWatch_watch _)

theorem raiseStarved_watch (s : State) : WatchOnly s s.raiseStarved := by
  unfold State.raiseStarved
  dsimp only
  split
  · exact .refl s
  · split
    · exact setDevice_watch s _
    · exact (setDevice_watch s _).trans (handWatch_watch _)

theorem raisePurgeDone_watch (s : State) : WatchOnly s s.raisePurgeDone := by
  unfold State.raisePurgeDone
  split
  · exact .refl s
  · exact (setDevice_watch s _).trans (handWatch_watch _)

theorem evalStarved_watch (s : State) : WatchOnly s s.evalStarved := by
  unfold State.evalStarved
  dsimp only
  split
  · exact (setDevice_watch s _).trans (raiseStarved_watch _)
  · exact setDevice_watch s _

end Sys2Proof.Machine
end

