-- ==== Sys2Proof/Laws/Staff.lean ====
section
/-! SUPPORT. WATCHes, evaluations of conditions and the staffed counts: everything they do, and everything `writeAgent` does. -/
namespace Sys2Proof.Machine

/-! ### WATCHes -/

theorem WatchSide.refl (s : State) : WatchSide s s := ⟨⟨[], by simp⟩, by simp, id, rfl⟩

theorem WatchSide.trans {s t u : State} (h : WatchSide s t) (k : WatchSide t u) : WatchSide s u := by
  obtain ⟨⟨l, hl⟩, ho, hr, hd⟩ := h
  obtain ⟨⟨m, hm⟩, ko, kr, kd⟩ := k
  refine ⟨⟨l ++ m, by rw [hm, hl]; simp⟩, ?_, kr ∘ hr, ?_⟩
  · rw [ko, ho]
    cases h1 : s.device.watchOwed <;> cases h2 : t.device.watchOwed <;> cases h3 : u.device.watchOwed <;> simp_all
  · rw [← hd, ← kd]

theorem handWatch_side (s : State) : WatchSide s s.handWatch := by
  unfold State.handWatch
  split
  · split
    · exact .refl s
    · next w _ =>
      constructor
      · exact ⟨[w], by simp [State.pushNotice, State.modPort]⟩
      · simp [State.pushNotice, State.modPort]
      · simp [State.pushNotice, State.modPort]
      · simp [State.pushNotice, State.modPort]
  · split
    · exact .refl s
    · next h =>
      constructor
      · exact ⟨[], by simp [State.appendOwed, State.modPort]⟩
      · simp [State.appendOwed, State.modPort, h]
      · simp [State.appendOwed, State.modPort]
      · simp [State.appendOwed, State.modPort]

theorem raiseGroupFlag_side (s : State) (g : Group) (k : GroupKind) : WatchSide s (s.raiseGroupFlag g k) := by
  unfold State.raiseGroupFlag
  dsimp only
  have h : WatchSide s (s.setGroup g { s.group g with flags := (s.group g).flags.set k true }) :=
    ⟨⟨[], by simp⟩, by simp, id, rfl⟩
  split
  · exact .refl s
  · split
    · exact h
    · exact h.trans (handWatch_side _)

theorem evalCondition_side (s : State) (g : Group) (k : GroupKind) (v : Bool) : WatchSide s (s.evalCondition g k v) := by
  unfold State.evalCondition
  dsimp only
  have h : WatchSide s (s.setGroup g { s.group g with conditions := (s.group g).conditions.set k v }) :=
    ⟨⟨[], by simp⟩, by simp, id, rfl⟩
  split
  · exact h.trans (raiseGroupFlag_side _ _ _)
  · exact h

theorem WatchSide.foldl {α : Type} {f : State → α → State} (h : ∀ s x, WatchSide s (f s x)) (l : List α) (s : State) :
    WatchSide s (l.foldl f s) := by
  induction l generalizing s with
  | nil => exact .refl s
  | cons x l ih => exact (h s x).trans (ih _)

/-! ### An evaluation of one condition -/

theorem handWatch_groups (s : State) : s.handWatch.groups = s.groups := by
  unfold State.handWatch
  split
  · split
    · rfl
    · simp [State.pushNotice, State.modPort]
  · split
    · rfl
    · simp [State.appendOwed, State.modPort]

theorem handWatch_group (s : State) (g : Group) : s.handWatch.group g = s.group g := by
  simp [State.group, handWatch_groups]

/-- The group record after an evaluation of a condition (R46). -/
theorem evalCondition_group (s : State) (g h : Group) (k : GroupKind) (v : Bool) :
    (s.evalCondition g k v).group h =
      if h = g then
        { s.group g with
          flags := (s.group g).flags.set k ((s.group g).flags.get k || (v && !(s.group g).conditions.get k))
          conditions := (s.group g).conditions.set k v }
      else s.group h := by
  have hset : ∀ b : WatchBits, b.set k (b.get k) = b := by intro b; cases k <;> rfl
  have hset2 : ∀ b : WatchBits, b.get k = true → b.set k true = b := by
    intro b hb
    rw [← hb, hset]
  unfold State.evalCondition State.raiseGroupFlag
  dsimp only
  by_cases hg : h = g
  · subst hg
    simp only [↓reduceIte, State.setGroup_group_self]
    cases hv : (v && !(s.group h).conditions.get k)
    · simp [hset]
    · cases hf : (s.group h).flags.get k
      · cases hm : (s.group h).masks.get k <;> simp [handWatch_group]
      · simp [hset2 _ hf]
  · simp only [hg, ↓reduceIte]
    split
    · split
      · simp [State.setGroup_group, hg]
      · split
        · simp [State.setGroup_group, hg]
        · rw [handWatch_group]; simp [State.setGroup_group, hg]
    · simp [State.setGroup_group, hg]

/-! ### The staffed counts -/

/-- What changing the staffed counts touches. -/
structure StaffOnly (s t : State) : Prop where
  watch : WatchSide s t
  agents : t.agents = s.agents
  queues : ∀ q, q ≠ .s → t.port q = s.port q
  slots : KeepsSlots s t
  rest : t = { s with groups := t.groups, portS := t.portS, device := t.device }

theorem StaffOnly.refl (s : State) : StaffOnly s s := ⟨.refl s, rfl, fun _ _ => rfl, .refl s, rfl⟩

theorem StaffOnly.trans {s t u : State} (h : StaffOnly s t) (k : StaffOnly t u) : StaffOnly s u where
  watch := h.watch.trans k.watch
  agents := k.agents.trans h.agents
  queues q hq := (k.queues q hq).trans (h.queues q hq)
  slots := h.slots.trans k.slots
  rest := by rw [k.rest, h.rest]

theorem StaffOnly.foldl {α : Type} {f : State → α → State} (h : ∀ s x, StaffOnly s (f s x)) (l : List α) (s : State) :
    StaffOnly s (l.foldl f s) := by
  induction l generalizing s with
  | nil => exact .refl s
  | cons x l ih => exact (h s x).trans (ih _)

theorem StaffOnly.of_watch {s t : State} (h : WatchOnly s t) (k : WatchSide s t) : StaffOnly s t where
  watch := k
  agents := h.agents
  queues q hq := by
    cases q with
    | a => exact h.portA
    | b => exact h.portB
    | s => exact absurd rfl hq
  slots := h.slots
  rest := by
    obtain ⟨hb, hg, ha, hc, hct, hat, hsw, hse, hso, hch, hwl, hpa, hpb, hsl, hgr⟩ := h
    obtain ⟨b1, b2, b3, b4, b5, b6, b7, b8, b9, b10, b11, b12, b13, b14⟩ := hb
    cases s
    cases t
    simp_all

theorem setGroup_staff (s : State) (g : Group) (r : GroupRec) : StaffOnly s (s.setGroup g r) :=
  ⟨⟨⟨[], by simp⟩, by simp, id, rfl⟩, rfl, fun _ _ => rfl, by constructor <;> intro <;> rfl, rfl⟩

theorem evalCondition_staff (s : State) (g : Group) (k : GroupKind) (v : Bool) : StaffOnly s (s.evalCondition g k v) :=
  .of_watch (evalCondition_watch s g k v) (evalCondition_side s g k v)

theorem restaff_staff (old new : AgentRec) (s : State) (g : Group) : StaffOnly s (State.restaff old new s g) := by
  unfold State.restaff
  split
  · exact .refl s
  · exact (setGroup_staff s g _).trans (evalCondition_staff _ _ _ _)

/-- Who counts for a group, as the statements spell it (R133). -/
theorem staffs_eq (r : AgentRec) (g : Group) : r.staffs g = r.counts g := by
  unfold AgentRec.staffs AgentRec.counts AgentRec.skillFor
  congr 1
  · cases r.state <;> rfl
  · exact List.isSome_find?.symm

/-- One group's record after its staffed count has followed an agent's change. -/
def GroupRec.restaffed (old new : AgentRec) (g : Group) (r : GroupRec) : GroupRec :=
  if old.counts g = new.counts g then r
  else
    let n := staffedAfter old new g r.staffed
    let v := !r.queue.isEmpty && n == 0
    { r with
      staffed := n
      flags := r.flags.set .noStaff (r.flags.noStaff || (v && !r.conditions.noStaff))
      conditions := r.conditions.set .noStaff v }

theorem restaff_group (old new : AgentRec) (s : State) (g h : Group) :
    (State.restaff old new s g).group h = if h = g then (s.group g).restaffed old new g else s.group h := by
  unfold State.restaff GroupRec.restaffed
  by_cases hc : old.counts g = new.counts g
  · simp only [hc, ↓reduceIte]
    split
    · next e => rw [e]
    · rfl
  · simp only [hc, ↓reduceIte, State.evalNoStaff, evalCondition_group]
    split
    · simp [State.modGroup, State.noStaffCondition, staffedAfter, staffs_eq, hc, WatchBits.get]
    · next hg => simp [State.modGroup, State.setGroup_group, hg]

theorem restaff_fold_group (old new : AgentRec) (l : List Group) (hl : l.Nodup) (s : State) (h : Group) :
    (l.foldl (State.restaff old new) s).group h = if h ∈ l then (s.group h).restaffed old new h else s.group h := by
  induction l generalizing s with
  | nil => simp
  | cons g l ih =>
    rw [List.nodup_cons] at hl
    rw [List.foldl_cons, ih hl.2, restaff_group]
    by_cases hg : h = g
    · subst hg
      simp [hl.1]
    · simp [hg]

/-- A written agent record and what follows from it. -/
theorem writeAgent_agent (s : State) (a b : AgentSlot) (new : AgentRec) :
    (s.writeAgent a new).agent b = if b = a then new else s.agent b := by
  have h : (s.writeAgent a new).agents = (s.setAgent a new).agents :=
    (StaffOnly.foldl (fun s' g => restaff_staff (s.agent a) new s' g) (List.finRange 64) (s.setAgent a new)).agents
  exact (congrArg (fun v : Vector AgentRec 512 => v.get b) h).trans (State.setAgent_agent s a b new)

theorem writeAgent_group (s : State) (a : AgentSlot) (new : AgentRec) (g : Group) :
    (s.writeAgent a new).group g = (s.group g).restaffed (s.agent a) new g := by
  unfold State.writeAgent
  rw [restaff_fold_group _ _ _ (List.nodup_finRange 64)]
  simp

theorem writeAgent_staff (s : State) (a : AgentSlot) (new : AgentRec) : StaffOnly (s.setAgent a new) (s.writeAgent a new) :=
  StaffOnly.foldl (fun s' g => restaff_staff (s.agent a) new s' g) (List.finRange 64) (s.setAgent a new)

end Sys2Proof.Machine
end

