-- ==== Sys2Proof/Laws/Moves.lean ====
section
/-! SUPPORT. What the inner work of a command can do, said once: every shared operation is a chain of `Move`s, and every invariant is
checked against the moves alone. -/
namespace Sys2Proof.Machine

/-- The fields of a call record that nothing changes after its arrival. -/
def CallRec.identity (r : CallRec) : Shelf × Tag × Nat × Nat × Nat := (r.owner, r.tag, r.arrival, r.seq, r.priority)

/-- The counts of a call record are within their ranges (R53). -/
def CallRec.counted (r : CallRec) : Prop := r.hops ≤ 3 ∧ r.noAnswers ≤ 7

/-- A call record keeps its identity and its ranges. -/
structure CallRec.Follows (q r : CallRec) : Prop where
  identity : r.identity = q.identity
  counted : q.counted → r.counted

/-- An agent record keeps its definition, its home and its skills. -/
structure AgentRec.SameDefinition (q r : AgentRec) : Prop where
  defined : r.defined = q.defined
  home : r.home = q.home
  skills : r.skills = q.skills

/-- A group record keeps its configuration; the active set may become the staged set, and an average stays in range. -/
structure GroupRec.Follows (q r : GroupRec) : Prop where
  staged : r.staged = q.staged
  active : r.active = q.active ∨ r.active = q.staged
  supervisorClosed : r.supervisorClosed = q.supervisorClosed
  masks : r.masks = q.masks
  staffed : r.staffed = q.staffed
  average : r.average = q.average ∨ ∃ a, r.average = some a ∧ 16 ≤ a ∧ a ≤ 65520

/-- Call `c` comes to hear `l`, and the listener counts follow (R160); no source starts. -/
def State.hear (s : State) (c : CallSlot) (l : Listen) : State :=
  match s.call c with
  | none => s
  | some r =>
    let s1 := s.modCall c fun r => { r with listen := l }
    if r.listen = l then s1
    else
      let s2 := match r.listen with
        | .music m => s1.loseListener m
        | _ => s1
      match l with
      | .music m => s2.setSource m { s2.source m with listeners := (s2.source m).listeners + 1, idlePasses := 0 }
      | _ => s2

/-- One inner change. `ties` says whether the tie-break generator may advance. -/
inductive Move (ties : Bool) : State → State → Prop
  | agents (s : State) (v : Vector AgentRec 512) (h : ∀ a, (s.agent a).SameDefinition (v.get a))
      (hs : ∀ a, (v.get a).state = (s.agent a).state) : Move ties s { s with agents := v }
  | write (s : State) (a : AgentSlot) (r : AgentRec) (h : (s.agent a).SameDefinition r) : Move ties s (s.writeAgent a r)
  | group (s : State) (g : Group) (r : GroupRec) (h : (s.group g).Follows r) : Move ties s (s.setGroup g r)
  | call (s : State) (c : CallSlot) (q r : CallRec) (e : s.call c = some q) (h : q.Follows r) (hl : r.listen = q.listen) :
      Move ties s (s.putCall c (some r))
  | free (s : State) (c : CallSlot) (h : ∀ q, s.call c = some q → ∀ m, q.listen ≠ .music m) : Move ties s (s.putCall c none)
  | hear (s : State) (c : CallSlot) (l : Listen) : Move ties s (s.hear c l)
  | source (s : State) (m : SourceNo) (q : SourceRec) (h : q.idleLimit = (s.source m).idleLimit)
      (hl : q.listeners = (s.source m).listeners) : Move ties s (s.setSource m q)
  | channel (s : State) (j : ChannelNo) (b : Option Announcement) : Move ties s (s.setChannel j b)
  | segment (s : State) (k : SegmentCode) (e : SegmentRec) (hs : e.start = (s.segment k).start)
      (hl : e.length = (s.segment k).length) : Move ties s (s.setSegment k e)
  | waitList (s : State) (l : List WaitEntry) : Move ties s (s.setWaitList l)
  | device (s : State) (d : DeviceRec) (hf : d.maskSegmentFault = s.device.maskSegmentFault)
      (hs : d.maskStarved = s.device.maskStarved) : Move ties s (s.setDevice d)
  | triggers (s : State) (x : List CallSlot) (y : List AgentSlot) (z : Bool) :
      Move ties s { s with callTriggers := x, agentTriggers := y, sweepWaiting := z }
  | advance (s : State) (h : ties = true) : Move ties s (s.setGenerator (State.nextGenerator s.taps s.generator))
  | place (s : State) (p : Port) (n : Notice) (h : s.hasRoom p = true) : Move ties s (s.pushNotice p n)
  | owe (s : State) (p : Port) (o : OwedPair) (h : s.hasRoom p = false) : Move ties s (s.appendOwed p o)
  | settle (s : State) (p : Port) (l : List OwedPair) (h : l ≠ [] → (s.port p).owed ≠ []) :
      Move ties s (s.modPort p fun r => { r with owed := l })
  | clear (s : State) (p : Port) : Move ties s (s.modPort p fun r => { r with notices := [], owed := [] })

/-- A chain of inner changes. -/
abbrev Moves (ties : Bool) : State → State → Prop := Relation.ReflTransGen (Move ties)

/-! ### Chains -/

theorem Moves.refl (ties : Bool) (s : State) : Moves ties s s := Relation.ReflTransGen.refl

theorem Moves.trans {ties : Bool} {s t u : State} (h : Moves ties s t) (k : Moves ties t u) : Moves ties s u :=
  Relation.ReflTransGen.trans h k

theorem Move.chain {ties : Bool} {s t : State} (h : Move ties s t) : Moves ties s t := Relation.ReflTransGen.single h

/-- A relation that is reflexive, transitive and kept by every move is kept by every chain. -/
theorem Moves.lift {ties : Bool} {R : State → State → Prop} (refl : ∀ s, R s s) (trans : ∀ s t u, R s t → R t u → R s u)
    (move : ∀ s t, Move ties s t → R s t) {s t : State} (h : Moves ties s t) : R s t := by
  induction h with
  | refl => exact refl _
  | tail _ hm ih => exact trans _ _ _ ih (move _ _ hm)

/-- A predicate kept by every move is kept by every chain. -/
theorem Moves.keep {ties : Bool} {P : State → Prop} (move : ∀ s t, Move ties s t → P s → P t) {s t : State}
    (h : Moves ties s t) (hs : P s) : P t := by
  induction h with
  | refl => exact hs
  | tail _ hm ih => exact move _ _ hm ih

theorem Move.weaken {s t : State} (h : Move false s t) : Move true s t := by
  cases h with
  | agents v h hs => exact .agents _ v h hs
  | write a r h => exact .write _ a r h
  | group g r h => exact .group _ g r h
  | call c q r e h hl => exact .call _ c q r e h hl
  | free c h => exact .free _ c h
  | hear c l => exact .hear _ c l
  | source m q h hl => exact .source _ m q h hl
  | channel j b => exact .channel _ j b
  | segment k e hs hl => exact .segment _ k e hs hl
  | waitList l => exact .waitList _ l
  | device d hf hs => exact .device _ d hf hs
  | triggers x y z => exact .triggers _ x y z
  | advance h => cases h
  | place p n h => exact .place _ p n h
  | owe p o h => exact .owe _ p o h
  | settle p l h => exact .settle _ p l h
  | clear p => exact .clear _ p

/-- A chain without the generator is a chain with it. -/
theorem Moves.weaken {s t : State} (h : Moves false s t) : Moves true s t :=
  h.lift (R := Moves true) (.refl true) (fun _ _ _ => Moves.trans) fun _ _ m => m.weaken.chain

theorem Moves.foldl {α : Type} {ties : Bool} {f : State → α → State} (h : ∀ s x, Moves ties s (f s x)) (l : List α)
    (s : State) : Moves ties s (l.foldl f s) := by
  induction l generalizing s with
  | nil => exact .refl _ s
  | cons x l ih => exact (h s x).trans (ih _)

theorem Moves.ite {ties : Bool} {s t u : State} {c : Prop} [Decidable c] (h : c → Moves ties s t) (k : ¬c → Moves ties s u) :
    Moves ties s (if c then t else u) := by
  split <;> simp_all

/-- A chain that ends in the state of a pair. -/
theorem Moves.snd {α : Type} {ties : Bool} {s t : State} {x : α × State} {a : α} (h : Moves ties s x.2) (e : x = (a, t)) :
    Moves ties s t := by
  rw [e] at h
  exact h

/-! ### Moves as they are written -/

section
variable {ties : Bool} (s : State)

theorem setAgent_moves (a : AgentSlot) (r : AgentRec) (h : (s.agent a).SameDefinition r)
    (hs : r.state = (s.agent a).state) : Moves ties s (s.setAgent a r) := by
  have get : ∀ b, (s.agents.set a.val r a.isLt).get b = if b = a then r else s.agent b := fun b => State.get_set _ _ _ _
  refine (Move.agents s _ (fun b => ?_) fun b => ?_).chain
  · rw [get]
    split
    · next e => exact e ▸ h
    · exact ⟨rfl, rfl, rfl⟩
  · rw [get]
    split
    · next e => exact e ▸ hs
    · rfl

theorem modGroup_moves (g : Group) (f : GroupRec → GroupRec) (h : (s.group g).Follows (f (s.group g))) :
    Moves ties s (s.modGroup g f) := (Move.group s g _ h).chain

theorem setGroup_moves (g : Group) (r : GroupRec) (h : (s.group g).Follows r) : Moves ties s (s.setGroup g r) :=
  (Move.group s g _ h).chain

/-- A free slot written as free. -/
theorem putCall_none {c : CallSlot} (e : s.call c = none) : s.putCall c none = s := by
  have he : s.calls.get c = none := e
  have : s.calls.set c.val none c.isLt = s.calls := by
    apply Vector.ext
    intro i hi
    rw [Vector.getElem_set]
    split
    · next hci => subst hci; exact he.symm
    · rfl
  simp only [State.putCall, this]

theorem modCall_moves (c : CallSlot) (f : CallRec → CallRec) (h : ∀ r, s.call c = some r → r.Follows (f r))
    (hl : ∀ r, (f r).listen = r.listen) : Moves ties s (s.modCall c f) := by
  unfold State.modCall
  cases e : s.call c with
  | none =>
    rw [Option.map_none, putCall_none s e]
  | some q => exact (Move.call s c q _ e (h q e) (hl q)).chain

theorem setSource_moves (m : SourceNo) (q : SourceRec) (h : q.idleLimit = (s.source m).idleLimit)
    (hl : q.listeners = (s.source m).listeners) : Moves ties s (s.setSource m q) := (Move.source s m q h hl).chain

theorem setChannel_moves (j : ChannelNo) (b : Option Announcement) : Moves ties s (s.setChannel j b) :=
  (Move.channel s j b).chain

theorem setSegment_moves (k : SegmentCode) (e : SegmentRec) (hs : e.start = (s.segment k).start)
    (hl : e.length = (s.segment k).length) : Moves ties s (s.setSegment k e) := (Move.segment s k e hs hl).chain

theorem setWaitList_moves (l : List WaitEntry) : Moves ties s (s.setWaitList l) := (Move.waitList s l).chain

theorem setDevice_moves (d : DeviceRec) (hf : d.maskSegmentFault = s.device.maskSegmentFault)
    (hs : d.maskStarved = s.device.maskStarved) : Moves ties s (s.setDevice d) := (Move.device s d hf hs).chain

theorem raiseCallTrigger_moves (c : CallSlot) : Moves ties s (s.raiseCallTrigger c) := by
  unfold State.raiseCallTrigger
  split
  · exact .refl _ s
  · exact (Move.triggers s _ s.agentTriggers s.sweepWaiting).chain

theorem raiseAgentTrigger_moves (a : AgentSlot) : Moves ties s (s.raiseAgentTrigger a) := by
  unfold State.raiseAgentTrigger
  split
  · exact .refl _ s
  · exact (Move.triggers s s.callTriggers _ s.sweepWaiting).chain

theorem raiseSweep_moves : Moves ties s s.raiseSweep := (Move.triggers s s.callTriggers s.agentTriggers true).chain
theorem dropSweep_moves : Moves ties s s.dropSweep := (Move.triggers s s.callTriggers s.agentTriggers false).chain
theorem dropCallTrigger_moves (c : CallSlot) : Moves ties s (s.dropCallTrigger c) :=
  (Move.triggers s _ s.agentTriggers s.sweepWaiting).chain
theorem dropAgentTrigger_moves (a : AgentSlot) : Moves ties s (s.dropAgentTrigger a) :=
  (Move.triggers s s.callTriggers _ s.sweepWaiting).chain

theorem removeOwed_moves (p : Port) (o : OwedPair) : Moves ties s (s.removeOwed p o) :=
  (Move.settle s p _ (by intro h e; simp [e] at h)).chain

end

/-! ### What every chain keeps -/

/-- Only calls and sources differ. -/
theorem hear_rest (s : State) (c : CallSlot) (l : Listen) :
    s.hear c l = { s with calls := (s.hear c l).calls, sources := (s.hear c l).sources } := by
  unfold State.hear
  cases s.call c with
  | none => rfl
  | some r =>
    dsimp only
    split
    · rfl
    · split <;> split <;> rfl

theorem hear_call (s : State) (c d : CallSlot) (l : Listen) :
    (s.hear c l).call d = if d = c then (s.call c).map fun r => { r with listen := l } else s.call d := by
  unfold State.hear
  cases h : s.call c with
  | none =>
    dsimp only
    split
    · next e => rw [e, h]; rfl
    · rfl
  | some r =>
    have hm : (s.modCall c fun r => { r with listen := l }).call d =
        if d = c then some { r with listen := l } else s.call d := by
      simp [State.modCall, h, State.putCall_call]
    dsimp only [Option.map_some]
    rw [← hm]
    split
    · rfl
    · split <;> split <;> rfl

/-- The listener count of a source after call `c`, with record `r`, has come to hear `l` (R160). -/
def listenersAfter (r : CallRec) (l : Listen) (m : SourceNo) (n : Nat) : Nat :=
  if r.listen = l then n
  else
    let k := if r.listen = .music m then n - 1 else n
    if l = .music m then k + 1 else k

theorem hear_listeners (s : State) (c : CallSlot) (l : Listen) (m : SourceNo) :
    ((s.hear c l).source m).listeners =
      match s.call c with
      | none => (s.source m).listeners
      | some r => listenersAfter r l m (s.source m).listeners := by
  unfold State.hear
  cases h : s.call c with
  | none => rfl
  | some r =>
    have hs : ∀ k, (s.modCall c fun r => { r with listen := l }).source k = s.source k := fun k => rfl
    dsimp only
    generalize (s.modCall c fun r => { r with listen := l }) = t at hs ⊢
    unfold listenersAfter
    split
    · rw [hs]
    · next hne =>
      rcases hr : r.listen with _ | m1 | j1 <;> rcases l with _ | m2 | j2 <;>
        simp only [State.loseListener, State.setSource_source, Listen.music.injEq, reduceCtorEq, if_false, hs]
      all_goals clear hs
      all_goals grind

theorem hear_idleLimit (s : State) (c : CallSlot) (l : Listen) (m : SourceNo) :
    ((s.hear c l).source m).idleLimit = (s.source m).idleLimit := by
  unfold State.hear
  cases h : s.call c with
  | none => rfl
  | some r =>
    have hs : ∀ k, (s.modCall c fun r => { r with listen := l }).source k = s.source k := fun k => rfl
    dsimp only
    generalize (s.modCall c fun r => { r with listen := l }) = t at hs ⊢
    split
    · rw [hs]
    · rcases hr : r.listen with _ | m1 | j1 <;> rcases l with _ | m2 | j2 <;>
        simp only [State.loseListener, State.setSource_source, hs]
      all_goals clear hs
      all_goals grind

theorem writeAgent_base (s : State) (a : AgentSlot) (r : AgentRec) : KeepsBase s (s.writeAgent a r) := by
  rw [(writeAgent_staff s a r).rest]
  constructor <;> rfl

theorem writeAgent_slots (s : State) (a : AgentSlot) (r : AgentRec) : KeepsSlots s (s.writeAgent a r) :=
  (show KeepsSlots s (s.setAgent a r) from by constructor <;> intro <;> rfl).trans (writeAgent_staff s a r).slots

theorem Move.base {ties : Bool} {s t : State} (h : Move ties s t) : KeepsBase s t := by
  cases h with
  | write a r h => exact writeAgent_base s a r
  | hear c l => rw [hear_rest]; constructor <;> rfl
  | _ => constructor <;> first | rfl | simp [State.pushNotice, State.appendOwed, State.modPort]

theorem Moves.base {ties : Bool} {s t : State} (h : Moves ties s t) : KeepsBase s t :=
  h.lift KeepsBase.refl (fun _ _ _ => KeepsBase.trans) fun _ _ => Move.base

theorem Move.slots {ties : Bool} {s t : State} (h : Move ties s t) : KeepsSlots s t := by
  cases h with
  | write a r h => exact writeAgent_slots s a r
  | hear c l => rw [hear_rest]; constructor <;> intro <;> rfl
  | _ =>
    constructor <;> intro q <;>
      first
      | rfl
      | simp
      | (simp only [State.pushNotice, State.appendOwed, State.modPort, State.setPort_port]; split <;> simp_all)

theorem Moves.slots {ties : Bool} {s t : State} (h : Moves ties s t) : KeepsSlots s t :=
  h.lift KeepsSlots.refl (fun _ _ _ => KeepsSlots.trans) fun _ _ => Move.slots

theorem Move.generator {s t : State} (h : Move false s t) : t.generator = s.generator := by
  cases h with
  | write a r h => rw [(writeAgent_staff s a r).rest]; rfl
  | hear c l => rw [hear_rest]
  | _ => first | rfl | contradiction | simp [State.pushNotice, State.appendOwed, State.modPort]

/-- A chain without ties leaves the generator. -/
theorem Moves.generator {s t : State} (h : Moves false s t) : t.generator = s.generator :=
  h.lift (R := fun s t => t.generator = s.generator) (fun _ => rfl) (fun _ _ _ a b => b.trans a) fun _ _ => Move.generator

theorem Move.definition {ties : Bool} {s t : State} (h : Move ties s t) (a : AgentSlot) :
    (s.agent a).SameDefinition (t.agent a) := by
  cases h with
  | agents v h hs => exact h a
  | write b r h =>
    rw [writeAgent_agent]
    split
    · next e => exact e ▸ h
    · exact ⟨rfl, rfl, rfl⟩
  | hear c l => rw [hear_rest]; exact ⟨rfl, rfl, rfl⟩
  | _ => exact ⟨by simp [State.pushNotice, State.appendOwed, State.modPort, State.agent],
      by simp [State.pushNotice, State.appendOwed, State.modPort, State.agent],
      by simp [State.pushNotice, State.appendOwed, State.modPort, State.agent]⟩

/-- A chain leaves every agent's definition, home and skills. -/
theorem Moves.definition {ties : Bool} {s t : State} (h : Moves ties s t) (a : AgentSlot) :
    (s.agent a).SameDefinition (t.agent a) :=
  h.lift (R := fun s t => (s.agent a).SameDefinition (t.agent a)) (fun _ => ⟨rfl, rfl, rfl⟩)
    (fun _ _ _ x y => ⟨y.defined.trans x.defined, y.home.trans x.home, y.skills.trans x.skills⟩)
    fun _ _ m => m.definition a

/-! ### Notices and watch conditions as moves -/

section
variable {ties : Bool} (s : State)

theorem handWatch_moves : Moves ties s s.handWatch := by
  unfold State.handWatch
  split
  · next h =>
    split
    · exact .refl _ s
    · exact (Move.place s .s _ h).chain
  · next h =>
    split
    · exact .refl _ s
    · exact (setDevice_moves s _ (by rfl) (by rfl)).trans (Move.owe _ .s _ (by simpa using h)).chain

theorem raiseGroupFlag_moves (g : Group) (k : GroupKind) : Moves ties s (s.raiseGroupFlag g k) := by
  unfold State.raiseGroupFlag
  dsimp only
  split
  · exact .refl _ s
  · have h : Moves ties s (s.setGroup g { s.group g with flags := (s.group g).flags.set k true }) :=
      setGroup_moves s g _ ⟨rfl, .inl rfl, rfl, rfl, rfl, .inl rfl⟩
    split
    · exact h
    · exact h.trans (handWatch_moves _)

theorem evalCondition_moves (g : Group) (k : GroupKind) (v : Bool) : Moves ties s (s.evalCondition g k v) := by
  unfold State.evalCondition
  dsimp only
  have h : Moves ties s (s.setGroup g { s.group g with conditions := (s.group g).conditions.set k v }) :=
    setGroup_moves s g _ ⟨rfl, .inl rfl, rfl, rfl, rfl, .inl rfl⟩
  split
  · exact h.trans (raiseGroupFlag_moves _ _ _)
  · exact h

theorem evalDepth_moves (g : Group) : Moves ties s (s.evalDepth g) := evalCondition_moves ..
theorem evalWait_moves (g : Group) : Moves ties s (s.evalWait g) := evalCondition_moves ..
theorem evalNoStaff_moves (g : Group) : Moves ties s (s.evalNoStaff g) := evalCondition_moves ..
theorem evalQueue_moves (g : Group) : Moves ties s (s.evalQueue g) :=
  ((evalDepth_moves s g).trans (evalWait_moves _ g)).trans (evalNoStaff_moves _ g)

theorem raiseSegmentFault_moves : Moves ties s s.raiseSegmentFault := by
  unfold State.raiseSegmentFault
  dsimp only
  split
  · exact .refl _ s
  · split
    · exact setDevice_moves s _ (by rfl) (by rfl)
    · exact (setDevice_moves s _ (by rfl) (by rfl)).trans (handWatch_moves _)

theorem raiseStarved_moves : Moves ties s s.raiseStarved := by
  unfold State.raiseStarved
  dsimp only
  split
  · exact .refl _ s
  · split
    · exact setDevice_moves s _ (by rfl) (by rfl)
    · exact (setDevice_moves s _ (by rfl) (by rfl)).trans (handWatch_moves _)

theorem raisePurgeDone_moves : Moves ties s s.raisePurgeDone := by
  unfold State.raisePurgeDone
  split
  · exact .refl _ s
  · exact (setDevice_moves s _ (by rfl) (by rfl)).trans (handWatch_moves _)

theorem evalStarved_moves : Moves ties s s.evalStarved := by
  unfold State.evalStarved
  dsimp only
  split
  · exact (setDevice_moves s _ (by rfl) (by rfl)).trans (raiseStarved_moves _)
  · exact setDevice_moves s _ (by rfl) (by rfl)

/-! ### Notices of agents and calls (R187) -/

theorem handAgentState_moves (a : AgentSlot) : Moves ties s (s.handAgentState a) := by
  unfold State.handAgentState
  dsimp only
  split
  · next h => exact (Move.place s _ _ h).chain
  · next h =>
    split
    · exact .refl _ s
    · refine (setAgent_moves s a _ (by constructor <;> rfl) (by rfl)).trans (Move.owe _ _ _ ?_).chain
      simpa using h

theorem handCall_moves (c : CallSlot) (k : CallNotice) : Moves ties s (s.handCall c k) := by
  unfold State.handCall
  split
  · exact .refl _ s
  · dsimp only
    split
    · next h =>
      split
      · exact .refl _ s
      · exact (Move.place s _ _ h).chain
    · next h =>
      split
      · exact .refl _ s
      · refine (modCall_moves s c _ (fun r _ => ?_) fun r => ?_).trans (Move.owe _ _ _ ?_).chain
        · cases k <;> exact ⟨rfl, id⟩
        · cases k <;> rfl
        · simpa [State.modCall] using h

end

end Sys2Proof.Machine
end

