-- ==== Sys2Proof/Laws/Play.lean ====
section
/-! SUPPORT. What the Playout Engine's work can touch, said once: the calls it is told of, in what they hear; sources, channels, segments in
use, the wait list, the device record; and LISTEN and WATCH notices handed to ports. Agents, groups and triggers are out of its
reach. -/
namespace Sys2Proof.Machine

/-- A notice as the Playout Engine hands it to a port: WATCH to port S, LISTEN to a shelf's port. -/
def PlayNotice (p : Port) (n : Notice) : Prop :=
  if p = .s then ∃ w, n = .watch w else ∃ t x, n = .listen t x

/-- One inner change of playout. Calls outside `C` are not touched, and the wait list only where `W` allows it. -/
inductive PlayMove (C : CallSlot → Prop) (W : Bool) : State → State → Prop
  | call (s : State) (c : CallSlot) (q r : CallRec) (hc : C c) (e : s.call c = some q) (h : r.offPlayout = q.offPlayout)
      (hl : r.listen = q.listen) : PlayMove C W s (s.putCall c (some r))
  | hear (s : State) (c : CallSlot) (l : Listen) (hc : C c) : PlayMove C W s (s.hear c l)
  | source (s : State) (m : SourceNo) (q : SourceRec) (h : q.idleLimit = (s.source m).idleLimit)
      (hl : q.listeners = (s.source m).listeners) : PlayMove C W s (s.setSource m q)
  | channel (s : State) (j : ChannelNo) (b : Option Announcement) : PlayMove C W s (s.setChannel j b)
  | segment (s : State) (k : SegmentCode) (e : SegmentRec) (hs : e.start = (s.segment k).start)
      (hl : e.length = (s.segment k).length) : PlayMove C W s (s.setSegment k e)
  | waitList (s : State) (l : List WaitEntry) (h : W = true) : PlayMove C W s (s.setWaitList l)
  | device (s : State) (d : DeviceRec) (hf : d.maskSegmentFault = s.device.maskSegmentFault)
      (hs : d.maskStarved = s.device.maskStarved) (hp : d.purgeDone = s.device.purgeDone) : PlayMove C W s (s.setDevice d)
  | place (s : State) (p : Port) (n : Notice) (h : s.hasRoom p = true) (hn : PlayNotice p n) : PlayMove C W s (s.pushNotice p n)
  | owe (s : State) (p : Port) (o : OwedPair) (h : s.hasRoom p = false) : PlayMove C W s (s.appendOwed p o)

/-- A chain of inner changes of playout. -/
abbrev PlayMoves (C : CallSlot → Prop) (W : Bool) : State → State → Prop := Relation.ReflTransGen (PlayMove C W)

theorem PlayMoves.refl (C : CallSlot → Prop) (W : Bool) (s : State) : PlayMoves C W s s := Relation.ReflTransGen.refl

theorem PlayMoves.trans {C : CallSlot → Prop} {W : Bool} {s t u : State} (h : PlayMoves C W s t) (k : PlayMoves C W t u) :
    PlayMoves C W s u := Relation.ReflTransGen.trans h k

theorem PlayMove.chain {C : CallSlot → Prop} {W : Bool} {s t : State} (h : PlayMove C W s t) : PlayMoves C W s t :=
  Relation.ReflTransGen.single h

theorem PlayMoves.lift {C : CallSlot → Prop} {W : Bool} {R : State → State → Prop} (refl : ∀ s, R s s)
    (trans : ∀ s t u, R s t → R t u → R s u) (move : ∀ s t, PlayMove C W s t → R s t) {s t : State}
    (h : PlayMoves C W s t) : R s t := by
  induction h with
  | refl => exact refl _
  | tail _ hm ih => exact trans _ _ _ ih (move _ _ hm)

theorem PlayMove.mono {C D : CallSlot → Prop} {W V : Bool} (hC : ∀ c, C c → D c) (hW : W = true → V = true) {s t : State}
    (h : PlayMove C W s t) : PlayMove D V s t := by
  cases h with
  | call c q r hc e h hl => exact .call _ c q r (hC _ hc) e h hl
  | hear c l hc => exact .hear _ c l (hC _ hc)
  | source m q h hl => exact .source _ m q h hl
  | channel j b => exact .channel _ j b
  | segment k e hs hl => exact .segment _ k e hs hl
  | waitList l h => exact .waitList _ l (hW h)
  | device d hf hs hp => exact .device _ d hf hs hp
  | place p n h hn => exact .place _ p n h hn
  | owe p o h => exact .owe _ p o h

theorem PlayMoves.mono {C D : CallSlot → Prop} {W V : Bool} (hC : ∀ c, C c → D c) (hW : W = true → V = true) {s t : State}
    (h : PlayMoves C W s t) : PlayMoves D V s t :=
  h.lift (R := PlayMoves D V) (.refl D V) (fun _ _ _ => PlayMoves.trans) fun _ _ m => (m.mono hC hW).chain

theorem PlayMoves.foldl {α : Type} {C : CallSlot → Prop} {W : Bool} {f : State → α → State} (l : List α)
    (h : ∀ s, ∀ x ∈ l, PlayMoves C W s (f s x)) (s : State) : PlayMoves C W s (l.foldl f s) := by
  induction l generalizing s with
  | nil => exact .refl _ _ s
  | cons x l ih => exact (h s x (by simp)).trans (ih (fun s y hy => h s y (by simp [hy])) _)

theorem PlayMoves.snd {α : Type} {C : CallSlot → Prop} {W : Bool} {s t : State} {x : α × State} {a : α}
    (h : PlayMoves C W s x.2) (e : x = (a, t)) : PlayMoves C W s t := by
  rw [e] at h
  exact h

/-- A change of playout is an inner change. -/
theorem PlayMove.moves {C : CallSlot → Prop} {W : Bool} {ties : Bool} {s t : State} (h : PlayMove C W s t) : Moves ties s t := by
  cases h with
  | call c q r hc e h hl =>
    refine (Move.call s c q r e ⟨(by have := congrArg CallRec.identity h; exact this), fun hq => ?_⟩ hl).chain
    have h1 := congrArg CallRec.hops h
    have h2 := congrArg CallRec.noAnswers h
    change r.hops = q.hops at h1
    change r.noAnswers = q.noAnswers at h2
    exact ⟨h1 ▸ hq.1, h2 ▸ hq.2⟩
  | hear c l hc => exact (Move.hear s c l).chain
  | source m q h hl => exact (Move.source s m q h hl).chain
  | channel j b => exact (Move.channel s j b).chain
  | segment k e hs hl => exact (Move.segment s k e hs hl).chain
  | waitList l h => exact (Move.waitList s l).chain
  | device d hf hs hp => exact (Move.device s d hf hs).chain
  | place p n h hn => exact (Move.place s p n h).chain
  | owe p o h => exact (Move.owe s p o h).chain

theorem PlayMoves.moves {C : CallSlot → Prop} {W : Bool} {ties : Bool} {s t : State} (h : PlayMoves C W s t) : Moves ties s t :=
  h.lift (R := Moves ties) (.refl ties) (fun _ _ _ => Moves.trans) fun _ _ => PlayMove.moves

/-! ### What playout leaves -/

/-- The parts of the state that no work of playout touches. -/
structure OffPlayout (s t : State) : Prop where
  base : KeepsBase s t
  slots : KeepsSlots s t
  generator : t.generator = s.generator
  agents : t.agents = s.agents
  groups : t.groups = s.groups
  callTriggers : t.callTriggers = s.callTriggers
  agentTriggers : t.agentTriggers = s.agentTriggers
  sweepWaiting : t.sweepWaiting = s.sweepWaiting
  idleLimits : ∀ m, (t.source m).idleLimit = (s.source m).idleLimit
  starts : ∀ k, (t.segment k).start = (s.segment k).start
  lengths : ∀ k, (t.segment k).length = (s.segment k).length
  purgeDone : t.device.purgeDone = s.device.purgeDone
  maskSegmentFault : t.device.maskSegmentFault = s.device.maskSegmentFault
  maskStarved : t.device.maskStarved = s.device.maskStarved
  calls : ∀ c, (t.call c).map CallRec.offPlayout = (s.call c).map CallRec.offPlayout
  notices : ∀ p, ∃ l, (∀ n ∈ l, PlayNotice p n) ∧ (t.port p).notices = (s.port p).notices ++ l
  owed : ∀ p, ∃ l, (t.port p).owed = (s.port p).owed ++ l

theorem OffPlayout.refl (s : State) : OffPlayout s s := by
  constructor <;>
    first
    | rfl
    | exact KeepsBase.refl s
    | exact KeepsSlots.refl s
    | exact fun _ => rfl
    | exact fun _ => ⟨[], by simp, by simp⟩
    | exact fun _ => ⟨[], by simp⟩

theorem OffPlayout.trans {s t u : State} (h : OffPlayout s t) (k : OffPlayout t u) : OffPlayout s u where
  base := h.base.trans k.base
  slots := h.slots.trans k.slots
  generator := k.generator.trans h.generator
  agents := k.agents.trans h.agents
  groups := k.groups.trans h.groups
  callTriggers := k.callTriggers.trans h.callTriggers
  agentTriggers := k.agentTriggers.trans h.agentTriggers
  sweepWaiting := k.sweepWaiting.trans h.sweepWaiting
  idleLimits m := (k.idleLimits m).trans (h.idleLimits m)
  starts m := (k.starts m).trans (h.starts m)
  lengths m := (k.lengths m).trans (h.lengths m)
  purgeDone := k.purgeDone.trans h.purgeDone
  maskSegmentFault := k.maskSegmentFault.trans h.maskSegmentFault
  maskStarved := k.maskStarved.trans h.maskStarved
  calls c := (k.calls c).trans (h.calls c)
  notices p := by
    obtain ⟨l, hl, e⟩ := h.notices p
    obtain ⟨m, hm, f⟩ := k.notices p
    refine ⟨l ++ m, ?_, by rw [f, e, List.append_assoc]⟩
    intro n hn
    rcases List.mem_append.mp hn with h | h
    · exact hl n h
    · exact hm n h
  owed p := by
    obtain ⟨l, e⟩ := h.owed p
    obtain ⟨m, f⟩ := k.owed p
    exact ⟨l ++ m, by rw [f, e, List.append_assoc]⟩

theorem PlayMove.off {C : CallSlot → Prop} {W : Bool} {s t : State} (h : PlayMove C W s t) : OffPlayout s t := by
  have hb := (h.moves (ties := false)).base
  have hs := (h.moves (ties := false)).slots
  have hg := (h.moves (ties := false)).generator
  cases h with
  | hear c l hc =>
    have hr := hear_rest s c l
    refine { base := hb, slots := hs, generator := hg, agents := by rw [hr], groups := by rw [hr], callTriggers := by rw [hr],
             agentTriggers := by rw [hr], sweepWaiting := by rw [hr], idleLimits := hear_idleLimit s c l,
             starts := fun k => by rw [hr]; rfl, lengths := fun k => by rw [hr]; rfl, purgeDone := by rw [hr],
             maskSegmentFault := by rw [hr], maskStarved := by rw [hr], calls := fun d => ?_,
             notices := fun p => ⟨[], by simp, by rw [hr]; simp [State.port]⟩,
             owed := fun p => ⟨[], by rw [hr]; simp [State.port]⟩ }
    rw [hear_call]
    split
    · next e =>
      subst e
      cases s.call d <;> rfl
    · rfl
  | call c q r hc e h hl =>
    constructor <;> first | assumption | rfl | exact fun _ => rfl | exact fun _ => ⟨[], by simp, by simp⟩ | exact fun _ => ⟨[], by simp⟩ | skip
    intro d
    rw [State.putCall_call]
    split
    · next hd => rw [hd, e]; simp [h]
    · rfl
  | source m q h hl =>
    constructor <;> first | assumption | rfl | exact fun _ => rfl | exact fun _ => ⟨[], by simp, by simp⟩ | exact fun _ => ⟨[], by simp⟩ | skip
    intro d
    rw [State.setSource_source]
    split
    · next hd => rw [hd, h]
    · rfl
  | channel j b =>
    constructor <;> first | assumption | rfl | exact fun _ => rfl | exact fun _ => ⟨[], by simp, by simp⟩ | exact fun _ => ⟨[], by simp⟩
  | segment k e hs' hl =>
    constructor <;> first | assumption | rfl | exact fun _ => rfl | exact fun _ => ⟨[], by simp, by simp⟩ | exact fun _ => ⟨[], by simp⟩ | skip
    all_goals
      intro d
      rw [State.setSegment_segment]
      split
      · next hd => rw [hd]; assumption
      · rfl
  | waitList l h =>
    constructor <;> first | assumption | rfl | exact fun _ => rfl | exact fun _ => ⟨[], by simp, by simp⟩ | exact fun _ => ⟨[], by simp⟩
  | device d hf hs' hp =>
    constructor <;> first | assumption | rfl | exact fun _ => rfl | exact fun _ => ⟨[], by simp, by simp⟩ | exact fun _ => ⟨[], by simp⟩
  | place p n h hn =>
    constructor <;> first | assumption | (simp [State.pushNotice, State.modPort]; done) | skip
    all_goals
      intro q
      simp only [State.pushNotice, State.modPort, State.setPort_port]
      split
      · next hq =>
        subst hq
        first
        | exact ⟨[n], by simpa using hn, rfl⟩
        | exact ⟨[], by simp⟩
      · first
        | exact ⟨[], by simp, by simp⟩
        | exact ⟨[], by simp⟩
  | owe p o h =>
    constructor <;> first | assumption | (simp [State.appendOwed, State.modPort]; done) | skip
    all_goals
      intro q
      simp only [State.appendOwed, State.modPort, State.setPort_port]
      split
      · next hq =>
        subst hq
        first
        | exact ⟨[], by simp, by simp⟩
        | exact ⟨[o], rfl⟩
      · first
        | exact ⟨[], by simp, by simp⟩
        | exact ⟨[], by simp⟩

theorem PlayMoves.off {C : CallSlot → Prop} {W : Bool} {s t : State} (h : PlayMoves C W s t) : OffPlayout s t :=
  h.lift OffPlayout.refl (fun _ _ _ => OffPlayout.trans) fun _ _ => PlayMove.off

/-- A call that playout is not told of keeps its whole record. -/
theorem PlayMoves.other {C : CallSlot → Prop} {W : Bool} {s t : State} (h : PlayMoves C W s t) {c : CallSlot} (hc : ¬C c) :
    t.call c = s.call c :=
  h.lift (R := fun s t => t.call c = s.call c) (fun _ => rfl) (fun _ _ _ a b => b.trans a) fun s t m => by
    cases m with
    | call d q r hd e h hl =>
      rw [State.putCall_call, if_neg (by rintro rfl; exact hc hd)]
    | hear d l hd =>
      rw [hear_call, if_neg (by rintro rfl; exact hc hd)]
    | place p n h hn => simp [State.pushNotice, State.modPort]
    | owe p o h => simp [State.appendOwed, State.modPort]
    | _ => rfl

theorem PlayMoves.waitList {C : CallSlot → Prop} {s t : State} (h : PlayMoves C false s t) : t.waitList = s.waitList :=
  h.lift (R := fun s t => t.waitList = s.waitList) (fun _ => rfl) (fun _ _ _ a b => b.trans a) fun s t m => by
    cases m with
    | waitList l h => cases h
    | hear d l hd => rw [hear_rest]
    | place p n h hn => simp [State.pushNotice, State.modPort]
    | owe p o h => simp [State.appendOwed, State.modPort]
    | _ => rfl

theorem OffPlayout.agent {s t : State} (h : OffPlayout s t) (a : AgentSlot) : t.agent a = s.agent a := by
  simp [State.agent, h.agents]
theorem OffPlayout.group {s t : State} (h : OffPlayout s t) (g : Group) : t.group g = s.group g := by
  simp [State.group, h.groups]
/-- A call in use stays in use, and keeps all but what it hears and is due to hear. -/
theorem OffPlayout.call {s t : State} (h : OffPlayout s t) {c : CallSlot} {r : CallRec} (e : s.call c = some r) :
    ∃ q, t.call c = some q ∧ q.offPlayout = r.offPlayout := by
  have := h.calls c
  rw [e] at this
  cases ht : t.call c with
  | none => simp [ht] at this
  | some q => exact ⟨q, rfl, by simpa [ht] using this⟩

end Sys2Proof.Machine
end

