-- ==== Sys2Proof/Laws/Playout.lean ====
section
/-! SUPPORT. Every shared operation of the Playout Engine is a chain of moves of playout, with the calls it can touch. -/
namespace Sys2Proof.Machine

section
variable {C : CallSlot → Prop} {W : Bool} (s : State)

/-! ### Moves as they are written -/

theorem setSource_play (m : SourceNo) (q : SourceRec) (h : q.idleLimit = (s.source m).idleLimit)
    (hl : q.listeners = (s.source m).listeners) : PlayMoves C W s (s.setSource m q) := (PlayMove.source s m q h hl).chain

theorem hear_play {c : CallSlot} (l : Listen) (hc : C c) : PlayMoves C W s (s.hear c l) := (PlayMove.hear s c l hc).chain

theorem setChannel_play (j : ChannelNo) (b : Option Announcement) : PlayMoves C W s (s.setChannel j b) :=
  (PlayMove.channel s j b).chain

theorem setSegment_play (k : SegmentCode) (e : SegmentRec) (hs : e.start = (s.segment k).start)
    (hl : e.length = (s.segment k).length) : PlayMoves C W s (s.setSegment k e) := (PlayMove.segment s k e hs hl).chain

theorem setDevice_play (d : DeviceRec) (hf : d.maskSegmentFault = s.device.maskSegmentFault)
    (hs : d.maskStarved = s.device.maskStarved) (hp : d.purgeDone = s.device.purgeDone) :
    PlayMoves C W s (s.setDevice d) := (PlayMove.device s d hf hs hp).chain

theorem setWaitList_play (l : List WaitEntry) (h : W = true) : PlayMoves C W s (s.setWaitList l) :=
  (PlayMove.waitList s l h).chain

theorem modCall_play {c : CallSlot} (f : CallRec → CallRec) (hc : C c) (h : ∀ r, (f r).offPlayout = r.offPlayout)
    (hl : ∀ r, (f r).listen = r.listen) : PlayMoves C W s (s.modCall c f) := by
  unfold State.modCall
  cases e : s.call c with
  | none =>
    rw [Option.map_none, putCall_none s e]
  | some q => exact (PlayMove.call s c q _ hc e (h q) (hl q)).chain

theorem handWatch_play : PlayMoves C W s s.handWatch := by
  unfold State.handWatch
  split
  · next h =>
    split
    · exact .refl _ _ s
    · exact (PlayMove.place s .s _ h ⟨_, rfl⟩).chain
  · next h =>
    split
    · exact .refl _ _ s
    · exact (setDevice_play s _ (by rfl) (by rfl) (by rfl)).trans (PlayMove.owe _ .s _ (by simpa using h)).chain

theorem raiseSegmentFault_play : PlayMoves C W s s.raiseSegmentFault := by
  unfold State.raiseSegmentFault
  dsimp only
  split
  · exact .refl _ _ s
  · split
    · exact setDevice_play s _ (by rfl) (by rfl) (by rfl)
    · exact (setDevice_play s _ (by rfl) (by rfl) (by rfl)).trans (handWatch_play _)

theorem raiseStarved_play : PlayMoves C W s s.raiseStarved := by
  unfold State.raiseStarved
  dsimp only
  split
  · exact .refl _ _ s
  · split
    · exact setDevice_play s _ (by rfl) (by rfl) (by rfl)
    · exact (setDevice_play s _ (by rfl) (by rfl) (by rfl)).trans (handWatch_play _)

theorem evalStarved_play : PlayMoves C W s s.evalStarved := by
  unfold State.evalStarved
  dsimp only
  split
  · exact (setDevice_play s _ (by rfl) (by rfl) (by rfl)).trans (raiseStarved_play _)
  · exact setDevice_play s _ (by rfl) (by rfl) (by rfl)

theorem handListen_play {c : CallSlot} (hc : C c) : PlayMoves C W s (s.handCall c .listen) := by
  unfold State.handCall
  split
  · exact .refl _ _ s
  · next r e =>
    dsimp only
    split
    · next h =>
      simp only [State.callNotice, e]
      refine (PlayMove.place s _ _ h ?_).chain
      unfold PlayNotice portOf
      cases r.owner <;> exact ⟨_, _, rfl⟩
    · next h =>
      split
      · exact .refl _ _ s
      · refine (modCall_play s _ hc (fun r => ?_) fun r => ?_).trans (PlayMove.owe _ _ _ ?_).chain
        · rfl
        · rfl
        · simpa [State.modCall] using h

/-! ### Segments and steps -/

theorem beginSegment_play (code : Nat) : PlayMoves C W s (s.beginSegment code).2 := by
  unfold State.beginSegment
  split
  · exact raiseSegmentFault_play s
  · dsimp only
    split
    · exact raiseSegmentFault_play s
    · exact setSegment_play s _ _ rfl rfl

theorem beginWord_play (v : VocabNo) : PlayMoves C W s (s.beginWord v).2 := by
  unfold State.beginWord
  split
  · exact raiseSegmentFault_play s
  · exact beginSegment_play s _

theorem leaveSegment_play (k : Option SegmentCode) : PlayMoves C W s (s.leaveSegment k) := by
  unfold State.leaveSegment
  split
  · exact .refl _ _ s
  · exact setSegment_play s _ _ rfl rfl

theorem carryStep_play (caller : Option CallSlot) (r : Run) : PlayMoves C W s (s.carryStep caller r).2.2 := by
  unfold State.carryStep
  dsimp only
  split
  · exact .refl _ _ s
  · exact beginSegment_play s _
  · exact .refl _ _ s
  · split
    · exact .refl _ _ s
    · split
      · exact .refl _ _ s
      · exact beginWord_play s _
  · split
    · exact .refl _ _ s
    · split
      · exact .refl _ _ s
      · exact beginWord_play s _
  · exact .refl _ _ s
  · split
    · exact .refl _ _ s
    · split <;> exact .refl _ _ s
  · exact .refl _ _ s

/-! ### Music sources -/

theorem putSourceRun_play (m : SourceNo) (r : Run) : PlayMoves C W s (s.putSourceRun m r) := setSource_play s m _ rfl rfl

theorem sourceReturn_play (m : SourceNo) (ret : Return) (r : Run) : PlayMoves C W s (s.sourceReturn m ret r).2 := by
  unfold State.sourceReturn
  split
  · dsimp only
    split
    · exact setSource_play s m _ rfl rfl
    · (repeat' split) <;> exact setSource_play s m _ (by rfl) (by rfl)
  · exact .refl _ _ s

theorem carrySource_play (n : Nat) (m : SourceNo) (r : Run) : PlayMoves C W s (State.carrySource n m r s) := by
  induction n generalizing r s with
  | zero => exact putSourceRun_play s m r
  | succ n ih =>
    unfold State.carrySource
    have h := carryStep_play (C := C) (W := W) s none r
    split
    · next e => exact (h.snd (congrArg Prod.snd e)).trans (putSourceRun_play _ _ _)
    · next e => exact (h.snd (congrArg Prod.snd e)).trans (ih _ _)
    · next e =>
      split
      · split
        · next e2 => exact (h.snd (congrArg Prod.snd e)).trans ((sourceReturn_play _ _ _ _).snd e2)
        · next e2 => exact ((h.snd (congrArg Prod.snd e)).trans ((sourceReturn_play _ _ _ _).snd e2)).trans (ih _ _)
      · exact (h.snd (congrArg Prod.snd e)).trans (putSourceRun_play _ _ _)

theorem startSource_play (m : SourceNo) : PlayMoves C W s (s.startSource m) := by
  unfold State.startSource
  dsimp only
  split
  · refine (setSource_play s m _ ?_ ?_).trans (carrySource_play _ _ m _) <;> rfl
  · exact .refl _ _ s

/-! ### What callers hear -/

/-- A change of what a call hears, with the source that starts for its first listener. -/
theorem setListen_eq (c : CallSlot) (l : Listen) : s.setListen c l =
    match s.call c, l with
    | some r, .music m => if r.listen = .music m then s.hear c l else (s.hear c l).startSource m
    | _, _ => s.hear c l := by
  unfold State.setListen State.hear
  cases s.call c with
  | none => rfl
  | some r =>
    dsimp only
    unfold State.countListener
    cases l with
    | music m =>
      dsimp only
      by_cases h : r.listen = .music m
      · simp only [h, if_true]
      · simp only [h, if_false]
        rcases r.listen with _ | m1 | j1 <;> rfl
    | silent => rfl
    | announce j => rfl

theorem setListen_play {c : CallSlot} (l : Listen) (hc : C c) : PlayMoves C W s (s.setListen c l) := by
  rw [setListen_eq]
  split
  · split
    · exact hear_play s _ hc
    · exact (hear_play s _ hc).trans (startSource_play _ _)
  · exact hear_play s _ hc

theorem moveMusic_play (g : Group) {c : CallSlot} (hc : C c) : PlayMoves C W s (s.moveMusic g c) := by
  unfold State.moveMusic
  split
  · exact .refl _ _ s
  · split
    · exact .refl _ _ s
    · dsimp only
      split
      · exact setListen_play s _ hc
      · exact (setListen_play s _ hc).trans (handListen_play _ hc)

/-! ### The wait list and the channels -/

theorem joinWaitList_play {c : CallSlot} (due : Nat) (hc : C c) (hw : W = true) : PlayMoves C W s (s.joinWaitList c due) := by
  unfold State.joinWaitList
  split
  · exact .refl _ _ s
  · exact ((modCall_play s _ hc (by exact fun _ => rfl) (by exact fun _ => rfl)).trans (setWaitList_play _ _ hw)).trans (evalStarved_play _)

theorem leaveWaitList_play {c : CallSlot} (hc : C c) (hw : W = true) : PlayMoves C W s (s.leaveWaitList c) := by
  unfold State.leaveWaitList
  split
  · exact ((modCall_play s _ hc (by exact fun _ => rfl) (by exact fun _ => rfl)).trans (setWaitList_play _ _ hw)).trans (evalStarved_play _)
  · exact .refl _ _ s

/-- The wait list without the call's entry. -/
theorem leaveWaitList_waitList (c : CallSlot) : (s.leaveWaitList c).waitList = s.waitList.filter (·.call != c) := by
  unfold State.leaveWaitList
  split
  · exact (evalStarved_play (C := fun _ => False) _).waitList
  · next h =>
    rw [eq_comm, List.filter_eq_self]
    intro e he
    simp only [List.any_eq_true, not_exists, not_and] at h
    simpa using h e he

theorem putChannelRun_play (j : ChannelNo) (c : CallSlot) (r : Run) : PlayMoves C W s (s.putChannelRun j c r) :=
  setChannel_play s j _

theorem carryChannel_play (n : Nat) (c : CallSlot) (r : Run) : PlayMoves C W s (State.carryChannel n c r s).2 := by
  induction n generalizing r s with
  | zero => exact .refl _ _ s
  | succ n ih =>
    unfold State.carryChannel
    have h := carryStep_play (C := C) (W := W) s (some c) r
    split
    · next e => rw [e] at h; exact h
    · next e => rw [e] at h; exact h.trans (ih _ _)
    · next e => rw [e] at h; exact h
    · next e =>
      rw [e] at h
      split
      · exact h.trans (ih _ _)
      · exact h

theorem endAnnouncement_play (j : ChannelNo) {c : CallSlot} (hc : C c) : PlayMoves C W s (s.endAnnouncement j c) := by
  unfold State.endAnnouncement
  dsimp only
  split
  · exact setChannel_play s j _
  · exact (((setChannel_play s j none).trans (setListen_play _ _ hc)).trans (handListen_play _ hc)).trans
      (modCall_play _ _ hc (by exact fun _ => rfl) (by exact fun _ => rfl))

theorem runChannel_play (j : ChannelNo) {c : CallSlot} (r : Run) (hc : C c) : PlayMoves C W s (s.runChannel j c r) := by
  unfold State.runChannel
  have h := carryChannel_play (C := C) (W := W) s State.carryFuel c r
  split
  · next e => rw [e] at h; exact h.trans (putChannelRun_play _ _ _ _)
  · next e => rw [e] at h; exact h.trans (endAnnouncement_play _ _ hc)

theorem abortChannel_play (j : ChannelNo) : PlayMoves C W s (s.abortChannel j) := by
  unfold State.abortChannel
  split
  · exact .refl _ _ s
  · exact (leaveSegment_play s _).trans (setChannel_play _ _ _)

theorem grant_play (j : ChannelNo) {c : CallSlot} (p : ProgramNo) (hc : C c) : PlayMoves C W s (s.grant j c p) :=
  (((putChannelRun_play s j c _).trans (setListen_play _ _ hc)).trans (handListen_play _ hc)).trans
    (runChannel_play _ j _ hc)

/-- The arbiter touches the calls on the wait list alone. -/
theorem arbitrateUpTo_play (n : Nat) (hc : ∀ e ∈ s.waitList, C e.call) (hw : W = true) :
    PlayMoves C W s (State.arbitrateUpTo n s) := by
  induction n generalizing s with
  | zero => exact .refl _ _ s
  | succ n ih =>
    unfold State.arbitrateUpTo
    split
    · next e rest j hl hf =>
      dsimp only
      have he : C e.call := hc e (by rw [hl]; simp)
      have h := leaveWaitList_play (C := C) (W := W) s he hw
      have hl' : ∀ x ∈ (s.leaveWaitList e.call).waitList, C x.call := by
        intro x hx
        rw [leaveWaitList_waitList] at hx
        exact hc x (List.mem_filter.mp hx).1
      split
      · exact h.trans (ih _ hl')
      · split
        · exact h.trans (ih _ hl')
        · refine (h.trans (grant_play _ _ _ he)).trans (ih _ ?_)
          rw [(grant_play (C := fun c => c = e.call) (W := false) (s.leaveWaitList e.call) j _ rfl).waitList]
          exact hl'
    · exact .refl _ _ s

theorem arbitrate_play (hc : ∀ e ∈ s.waitList, C e.call) (hw : W = true) : PlayMoves C W s s.arbitrate :=
  arbitrateUpTo_play s _ hc hw

theorem modCall_modCall (c : CallSlot) (f g : CallRec → CallRec) :
    (s.modCall c f).modCall c g = s.modCall c fun r => g (f r) := by
  have : (s.modCall c f).call c = (s.call c).map f := by simp [State.modCall]
  unfold State.modCall at this ⊢
  rw [this]
  simp only [State.putCall, Option.map_map, Vector.set_set]
  rfl

theorem abortChannel_call (j : ChannelNo) : (s.abortChannel j).calls = s.calls := by
  unfold State.abortChannel State.leaveSegment
  repeat' split
  all_goals rfl

/-- Detaching is hearing nothing, once the announcement is aborted. -/
theorem detach_eq {c : CallSlot} {r : CallRec} (e : s.call c = some r) : s.detach c =
    let s1 := match r.listen with
      | .announce j => s.abortChannel j
      | _ => s
    ((s1.hear c .silent).modCall c fun r => { r with nextDue := none }).leaveWaitList c := by
  unfold State.detach State.hear
  rw [e]
  dsimp only
  congr 1
  rcases h : r.listen with _ | m | j
  · simp only [e, h, if_true, modCall_modCall]
  · simp only [e, h, reduceCtorEq, if_false]
    change (s.loseListener m).modCall c _ = ((s.loseListener m).modCall c _).modCall c _
    rw [modCall_modCall]
  · have : (s.abortChannel j).call c = some r := by
      simp only [State.call, abortChannel_call] at e ⊢
      exact e
    simp only [this, h, reduceCtorEq, if_false, modCall_modCall]

theorem detach_play {c : CallSlot} (hc : C c) (hw : W = true) : PlayMoves C W s (s.detach c) := by
  cases e : s.call c with
  | none =>
    unfold State.detach
    rw [e]
  | some r =>
    rw [detach_eq s e]
    refine PlayMoves.trans ?_ (((hear_play _ _ hc).trans (modCall_play _ _ hc (by exact fun _ => rfl)
      (by exact fun _ => rfl))).trans (leaveWaitList_play _ hc hw))
    split
    · exact abortChannel_play s _
    · exact .refl _ _ s

theorem leaveWaitList_call (c d : CallSlot) : (s.leaveWaitList c).call d =
    if d = c ∧ s.waitList.any (·.call == c) then (s.call c).map fun r => { r with onWaitList := false } else s.call d := by
  unfold State.leaveWaitList
  split
  · next h =>
    rw [(evalStarved_watch _).call]
    simp [State.modCall, State.putCall_call, h]
  · next h => simp [h]

/-- A call that has been detached hears nothing. -/
theorem detach_listen {c : CallSlot} {q : CallRec} (h : (s.detach c).call c = some q) : q.listen = .silent := by
  have key : ∀ (t : State), ((t.modCall c fun r => { r with listen := .silent, nextDue := none }).leaveWaitList c).call c =
      some q → q.listen = .silent := by
    intro t h
    have ht : (t.modCall c fun r => { r with listen := .silent, nextDue := none }).call c =
        (t.call c).map fun r => { r with listen := .silent, nextDue := none } := by
      simp [State.modCall]
    rw [leaveWaitList_call, ht] at h
    split at h
    · rw [Option.map_map, Option.map_eq_some_iff] at h
      obtain ⟨a, ha, rfl⟩ := h
      rfl
    · rw [Option.map_eq_some_iff] at h
      obtain ⟨a, ha, rfl⟩ := h
      rfl
  cases e : s.call c with
  | none =>
    unfold State.detach at h
    simp [e] at h
  | some r =>
    unfold State.detach at h
    simp only [e] at h
    exact key _ h

/-! ### Runs -/

theorem putRun_play (h : HighwayChannel) (r : Run) : PlayMoves C W s (s.putRun h r) := by
  unfold State.putRun
  split
  · exact putSourceRun_play s _ _
  · exact setChannel_play s _ _

theorem continueRun_play (h : HighwayChannel) (r : Run) (hc : ∀ j b, s.channel j = some b → C b.call) :
    PlayMoves C W s (s.continueRun h r) := by
  unfold State.continueRun
  split
  · exact carrySource_play s _ _ _
  · split
    · exact .refl _ _ s
    · next e => exact runChannel_play s _ _ (hc _ _ e)

theorem leaveSegment_channel (k : Option SegmentCode) (j : ChannelNo) : (s.leaveSegment k).channel j = s.channel j := by
  unfold State.leaveSegment
  split <;> rfl

theorem completeStep_play (h : HighwayChannel) (hc : ∀ j b, s.channel j = some b → C b.call)
    (hl : ∀ e ∈ s.waitList, C e.call) (hw : W = true) : PlayMoves C W s (s.completeStep h) := by
  unfold State.completeStep
  split
  · exact .refl _ _ s
  · next r _ =>
    split
    · have h1 : ∀ j b, (s.leaveSegment r.segment).channel j = some b → C b.call := by
        intro j b
        rw [leaveSegment_channel]
        exact hc j b
      refine ((leaveSegment_play s _).trans (continueRun_play _ _ _ h1)).trans (arbitrate_play _ ?_ hw)
      rw [(continueRun_play (C := C) (W := false) _ h _ h1).waitList,
        (leaveSegment_play (C := C) (W := false) s r.segment).waitList]
      exact hl
    · exact .refl _ _ s

theorem completeFill_play (h : HighwayChannel) (hc : ∀ j b, s.channel j = some b → C b.call)
    (hl : ∀ e ∈ s.waitList, C e.call) (hw : W = true) : PlayMoves C W s (s.completeFill h) := by
  unfold State.completeFill
  split
  · exact .refl _ _ s
  · split
    · split
      · split
        · next e => exact (sourceReturn_play _ _ _ _).snd e
        · next e => exact ((sourceReturn_play _ _ _ _).snd e).trans (carrySource_play _ _ _ _)
      · refine (continueRun_play s _ _ hc).trans (arbitrate_play _ ?_ hw)
        rw [(continueRun_play (C := C) (W := false) s h _ hc).waitList]
        exact hl
      · exact .refl _ _ s
    · exact .refl _ _ s

theorem playFrame_play (h : HighwayChannel) : PlayMoves C W s (s.playFrame h) := by
  unfold State.playFrame
  split
  · exact .refl _ _ s
  · dsimp only
    split
    · split
      · exact putRun_play s _ _
      · exact ((leaveSegment_play s _).trans (beginWord_play _ _)).trans (putRun_play _ _ _)
    · exact putRun_play s _ _

end

/-! ### As moves -/

section
variable {ties : Bool} (s : State)
theorem beginSegment_moves (code : Nat) : Moves ties s (s.beginSegment code).2 :=
  (beginSegment_play (C := fun _ => False) (W := false) s code).moves
theorem leaveSegment_moves (k : Option SegmentCode) : Moves ties s (s.leaveSegment k) :=
  (leaveSegment_play (C := fun _ => False) (W := false) s k).moves
theorem startSource_moves (m : SourceNo) : Moves ties s (s.startSource m) :=
  (startSource_play (C := fun _ => False) (W := false) s m).moves
theorem setListen_moves (c : CallSlot) (l : Listen) : Moves ties s (s.setListen c l) :=
  (setListen_play (C := fun _ => True) (W := false) s l trivial).moves
theorem moveMusic_moves (g : Group) (c : CallSlot) : Moves ties s (s.moveMusic g c) :=
  (moveMusic_play (C := fun _ => True) (W := false) s g trivial).moves
theorem joinWaitList_moves (c : CallSlot) (due : Nat) : Moves ties s (s.joinWaitList c due) :=
  (joinWaitList_play (C := fun _ => True) (W := true) s due trivial rfl).moves
theorem leaveWaitList_moves (c : CallSlot) : Moves ties s (s.leaveWaitList c) :=
  (leaveWaitList_play (C := fun _ => True) (W := true) s trivial rfl).moves
theorem abortChannel_moves (j : ChannelNo) : Moves ties s (s.abortChannel j) :=
  (abortChannel_play (C := fun _ => False) (W := false) s j).moves
theorem arbitrate_moves : Moves ties s s.arbitrate :=
  (arbitrate_play (C := fun _ => True) (W := true) s (fun _ _ => trivial) rfl).moves
theorem detach_moves (c : CallSlot) : Moves ties s (s.detach c) :=
  (detach_play (C := fun _ => True) (W := true) s trivial rfl).moves
theorem completeStep_moves (h : HighwayChannel) : Moves ties s (s.completeStep h) :=
  (completeStep_play (C := fun _ => True) (W := true) s h (fun _ _ _ => trivial) (fun _ _ => trivial) rfl).moves
theorem completeFill_moves (h : HighwayChannel) : Moves ties s (s.completeFill h) :=
  (completeFill_play (C := fun _ => True) (W := true) s h (fun _ _ _ => trivial) (fun _ _ => trivial) rfl).moves
theorem playFrame_moves (h : HighwayChannel) : Moves ties s (s.playFrame h) :=
  (playFrame_play (C := fun _ => False) (W := false) s h).moves
theorem completeRun_moves (h : HighwayChannel) : Moves ties s (s.completeRun h) :=
  (completeStep_moves s h).trans (completeFill_moves _ h)

end

end Sys2Proof.Machine
end

