-- ==== Sys2Proof/Laws/Tables.lean ====
section
/-! SUPPORT. The entries of a table that `findAll` finds. -/
namespace Sys2Proof.Machine

variable {α : Type} {n : Nat} (p : α → Bool) (v : Vector α n)

theorem findAll_eq : findAll p v = (List.finRange n).filter fun i => p (v.get i) := by
  unfold findAll
  have h : (List.finRange n).zip v.toList = (List.finRange n).map fun i => (i, v.get i) := by
    apply List.ext_getElem
    · simp
    · intro i h1 h2
      simp only [List.getElem_zip, List.getElem_map, List.getElem_finRange]
      rfl
  rw [h, List.filterMap_map]
  induction (List.finRange n) with
  | nil => rfl
  | cons i l ih =>
    simp only [List.filterMap_cons, Function.comp, List.filter_cons]
    cases p (v.get i) <;> simp_all [Function.comp]

/-- What `findAll` finds. -/
@[simp] theorem mem_findAll (i : Fin n) : i ∈ findAll p v ↔ p (v.get i) = true := by
  simp [findAll_eq]

theorem findAll_nodup : (findAll p v).Nodup := by
  rw [findAll_eq]
  exact (List.nodup_finRange n).filter _

theorem findAll_sorted : (findAll p v).Pairwise (· < ·) := by
  rw [findAll_eq]
  exact (List.pairwise_lt_finRange n).filter _

/-- The lowest entry found. -/
theorem head_findAll {i : Fin n} (h : (findAll p v).head? = some i) :
    p (v.get i) = true ∧ ∀ j, p (v.get j) = true → i ≤ j := by
  have hs := findAll_sorted p v
  have hm := fun j => mem_findAll p v j
  cases e : findAll p v with
  | nil => simp [e] at h
  | cons k l =>
    rw [e] at h hs hm
    simp only [List.head?_cons, Option.some.injEq] at h
    subst h
    refine ⟨(hm k).mp (by simp), fun j hj => ?_⟩
    rcases List.mem_cons.mp ((hm j).mpr hj) with rfl | hjl
    · exact le_refl _
    · exact le_of_lt (List.rel_of_pairwise_cons hs hjl)

theorem head_findAll_none (h : (findAll p v).head? = none) (j : Fin n) : p (v.get j) = false := by
  have : findAll p v = [] := by simpa using h
  have hm := mem_findAll p v j
  rw [this] at hm
  simpa using hm

end Sys2Proof.Machine
end

