-- ==== Sys2Proof/Laws/Report.lean ====
section
/-! SUPPORT. The WATCH notice: which flag it names, and what handing it leaves. -/
namespace Sys2Proof.Machine
open State

/-- The lowest group whose flag of a kind is set and unmasked. -/
theorem firstGroup_some {s : State} {k : GroupKind} {g : Group} (h : s.firstGroup k = some g) :
    s.groupWatch k g = true ∧ ∀ f, f < g → s.groupWatch k f = false := by
  have := head_findAll _ _ h
  refine ⟨this.1, fun f hf => ?_⟩
  cases e : s.groupWatch k f with
  | false => rfl
  | true => exact absurd hf (not_lt.mpr (this.2 f e))

theorem firstGroup_none {s : State} {k : GroupKind} (h : s.firstGroup k = none) (g : Group) : s.groupWatch k g = false :=
  head_findAll_none _ _ h g

/-- The flag that a WATCH names, and there is one, is the first in the report order that is set and unmasked (R192). -/
theorem firstWatch_iff (s : State) (w : Watch) : s.firstWatch = some w ↔ FirstWatch s w := by
  have showsDepth : ∀ g, ((s.group g).flags.depth = true ∧ (s.group g).masks.depth = false) ↔ s.groupWatch .depth g = true := by
    intro g; simp [groupWatch, WatchBits.get]
  have showsWait : ∀ g, ((s.group g).flags.wait = true ∧ (s.group g).masks.wait = false) ↔ s.groupWatch .wait g = true := by
    intro g; simp [groupWatch, WatchBits.get]
  have showsStaff : ∀ g, ((s.group g).flags.noStaff = true ∧ (s.group g).masks.noStaff = false) ↔ s.groupWatch .noStaff g = true := by
    intro g; simp [groupWatch, WatchBits.get]
  have hn := fun k => @firstGroup_some s k
  have hz := fun k => @firstGroup_none s k
  have uniq : ∀ (k : GroupKind) (f g : Group), s.firstGroup k = some f → s.groupWatch k g = true → (∀ h, h < g → s.groupWatch k h = false) → f = g := by
    intro k f g hf hg hl
    have := hn k hf
    rcases lt_trichotomy f g with h | h | h
    · simp [hl f h] at this
    · exact h
    · simp [this.2 g h] at hg
  unfold firstWatch FirstWatch
  dsimp only
  simp only [showsDepth, showsWait, showsStaff, Bool.not_eq_true]
  by_cases h1 : s.device.purgeDone = true
  · cases w <;> simp [h1]
  by_cases h2 : s.device.segmentFault = true ∧ s.device.maskSegmentFault = false
  · cases w <;> simp [h1, h2.1, h2.2]
  have h2' : (s.device.segmentFault && !s.device.maskSegmentFault) = false := by
    cases ha : s.device.segmentFault <;> cases hb : s.device.maskSegmentFault <;> simp_all
  have h2'' : s.device.segmentFault = false ∨ s.device.maskSegmentFault = true := by
    cases ha : s.device.segmentFault <;> cases hb : s.device.maskSegmentFault <;> simp_all
  by_cases h3 : s.device.starved = true ∧ s.device.maskStarved = false
  · cases w <;> simp [h1, h2, h2', h2'', h3.1, h3.2]
  have h3' : (s.device.starved && !s.device.maskStarved) = false := by
    cases ha : s.device.starved <;> cases hb : s.device.maskStarved <;> simp_all
  simp only [h1, h2', h3', Bool.false_eq_true, ↓reduceIte, h2, h3, or_self, not_false_eq_true, true_and, and_false]
  cases e1 : s.firstGroup .noStaff with
  | some f =>
    have := hn .noStaff e1
    cases w with
    | noStaff g => 
      constructor
      · intro h; cases h; exact ⟨this.1, fun h hh => by simpa using this.2 h hh⟩
      · rintro ⟨a, b⟩; rw [uniq _ _ _ e1 a (fun h hh => by simpa using b h hh)]
    | wait g => simp; intro h; simp [h f] at this
    | depth g => simp; intro h; simp [h f] at this
    | _ => simp
  | none =>
    have z1 := hz .noStaff e1
    cases e2 : s.firstGroup .wait with
    | some f =>
      have := hn .wait e2
      cases w with
      | noStaff g => simp [z1]
      | wait g =>
        simp only [z1]
        constructor
        · intro h; cases h; exact ⟨by simp, this.1, fun h hh => by simpa using this.2 h hh⟩
        · rintro ⟨-, a, b⟩; rw [uniq _ _ _ e2 a (fun h hh => by simpa using b h hh)]
      | depth g => simp; intro _ h; simp [h f] at this
      | _ => simp
    | none =>
      have z2 := hz .wait e2
      cases e3 : s.firstGroup .depth with
      | some f =>
        have := hn .depth e3
        cases w with
        | noStaff g => simp [z1]
        | wait g => simp [z2]
        | depth g =>
          simp only [z1, z2]
          constructor
          · intro h; simp at h; subst h; exact ⟨by simp, by simp, this.1, fun h hh => by simpa using this.2 h hh⟩
          · rintro ⟨-, -, a, b⟩; rw [uniq _ _ _ e3 a (fun h hh => by simpa using b h hh)]; rfl
        | _ => simp
      | none =>
        have z3 := hz .depth e3
        cases w <;> simp [z1, z2, z3]

/-- A WATCH that is handed while some flag is set and unmasked is placed, or owed (R187, R192). -/
theorem handWatch_handed {s : State} (hd : s.firstWatch ≠ none) :
    (∀ w, FirstWatch s w → (s.handWatch.port .s).notices = placed (s.port .s).notices [.watch w])
      ∧ s.handWatch.device.watchOwed = (s.device.watchOwed || !s.hasRoom .s) := by
  obtain ⟨w, hw⟩ := Option.ne_none_iff_exists'.mp hd
  unfold handWatch
  by_cases hr : s.hasRoom .s = true
  · have hr' : (s.port .s).notices.length < 64 := of_decide_eq_true hr
    simp only [hr, ↓reduceIte, hw]
    refine ⟨fun v hv => ?_, by simp [pushNotice, modPort, setPort]⟩
    rw [← firstWatch_iff, hw] at hv
    cases hv
    have : List.take (64 - (s.port .s).notices.length) [Notice.watch w] = [Notice.watch w] := by
      apply List.take_of_length_le; simp; omega
    simp [pushNotice, modPort, setPort, port, placed, Config.noticeCapacity]
    simpa [port] using this
  · have hr' : 64 ≤ (s.port .s).notices.length := not_lt.mp fun h => hr (decide_eq_true h)
    have hz : 64 - (s.port .s).notices.length = 0 := by omega
    simp only [hr, Bool.false_eq_true, ↓reduceIte]
    refine ⟨fun v _ => ?_, ?_⟩
    · split <;> simp [appendOwed, modPort, setPort, setDevice, port, placed, Config.noticeCapacity] <;> simpa [port] using hz
    · split <;> simp_all [appendOwed, modPort, setPort, setDevice]
end Sys2Proof.Machine
end

