-- ==== Sys2Proof/Laws/Carry.lean ====
section
/-! SUPPORT. What carrying a run on comes to: the carrying out of program steps, as the relation `Carries` says it. -/
namespace Sys2Proof.Machine
open State

/-- A code names a present segment, which is begun, or a missing one, which is reported. -/
theorem present_cases (s : State) (code : Nat) :
    (s.present code = none ∧ s.beginSegment code = (none, s.raiseSegmentFault))
    ∨ ∃ k, s.present code = some k ∧ s.beginSegment code = (some k, s.setSegment k { s.segment k with inUse := (s.segment k).inUse + 1 }) := by
  unfold State.present State.beginSegment below
  by_cases h : code < 240
  · simp only [h, ↓reduceDIte]
    by_cases hz : (s.segment ⟨code, h⟩).length = 0 <;> simp [hz]
  · simp [h]

/-- Handing a WATCH changes port S's queue and owed list and the device's WATCH owed flag alone. -/
theorem handWatch_rest (s : State) :
    s.handWatch = { s with portS := s.handWatch.portS, device := s.handWatch.device } ∧ SameSlots s s.handWatch := by
  unfold handWatch
  split <;> split <;> exact ⟨rfl, fun p => by cases p <;> exact ⟨rfl, rfl, rfl, rfl⟩⟩

/-- A SEGMENT_FAULT report (R152, R190). -/
theorem raiseSegmentFault_met (s : State) : SegmentMet s s.raiseSegmentFault none := by
  unfold SegmentMet raiseSegmentFault
  dsimp only
  by_cases h1 : s.device.segmentFault = true
  · rw [if_pos (.inl h1), if_pos h1]
    have : ({ s.device with segmentFault := true } : DeviceRec) = s.device := by
      rcases hd : s.device with ⟨a, b, c, d, e, f, g⟩; simp_all
    rw [this]; rfl
  · by_cases h2 : s.device.maskSegmentFault = true
    · rw [if_pos (.inr h2), if_neg h1, if_pos h2]
    · have hd : (s.setDevice { s.device with segmentFault := true }).firstWatch ≠ none := by
        unfold firstWatch
        by_cases hp : s.device.purgeDone = true <;> simp [setDevice, hp, h2]
      rw [if_neg (by tauto), if_neg h1, if_neg h2]
      have hs := handWatch_rest (s.setDevice { s.device with segmentFault := true })
      exact ⟨hs.1, hs.2, handWatch_side _, handWatch_handed hd⟩

theorem beginSegment_met (s : State) (code : Nat) :
    SegmentMet s (s.beginSegment code).2 (s.present code) ∧ (s.beginSegment code).1 = s.present code := by
  rcases present_cases s code with ⟨h, e⟩ | ⟨k, h, e⟩
  · rw [h, e]; exact ⟨raiseSegmentFault_met s, rfl⟩
  · rw [h, e]; exact ⟨rfl, rfl⟩

theorem beginWord_met (s : State) (v : VocabNo) :
    SegmentMet s (s.beginWord v).2 (s.wordSegment v) ∧ (s.beginWord v).1 = s.wordSegment v := by
  unfold State.beginWord State.wordSegment
  cases h : s.vocabEntry v with
  | none => simp; exact raiseSegmentFault_met s
  | some b => simpa using beginSegment_met s b.toNat

theorem repeatTarget_target (steps : List Step) (i : Nat) : Target steps i (repeatTarget steps i) := by
  have hk : ∀ j, (kindAt steps j == some StepKind.mark) = true ↔ ∃ o, steps[j]? = some ⟨.mark, o⟩ := by
    intro j
    unfold kindAt
    cases h : steps[j]? with
    | none => simp
    | some st => rcases st with ⟨k, o⟩; simp
  unfold repeatTarget Target
  cases h : (List.range i).reverse.find? fun j => kindAt steps j == some StepKind.mark with
  | none =>
    refine .inl ⟨rfl, fun j hj hm => ?_⟩
    rw [List.find?_eq_none] at h
    exact h j (by simpa using hj) ((hk j).mpr hm)
  | some j =>
    obtain ⟨hj, l, m, e, hl⟩ := List.find?_eq_some_iff_append.mp h
    have hji : j < i := by
      have : j ∈ (List.range i).reverse := by rw [e]; simp
      simpa using this
    refine .inr ⟨j, hji, (hk j).mp hj, fun k h1 h2 hm => ?_, rfl⟩
    have hs : (List.range i).reverse.Pairwise (· > ·) := by
      rw [List.pairwise_reverse]; exact List.pairwise_lt_range
    have hkl : k ∈ l := by
      have : k ∈ (List.range i).reverse := by simpa using h2
      rw [e] at this hs
      rw [List.pairwise_append] at hs
      rcases List.mem_append.mp this with h | h
      · exact h
      · rcases List.mem_cons.mp h with h | h
        · omega
        · have := (List.pairwise_cons.mp hs.2.1).1 k h; omega
    have := hl k hkl
    simp [(hk k).mpr hm] at this

/-- Rounds enough to carry the run on: to the end of its program, and after a return to the end of a program again. -/
def need (r : Run) : Nat := (32 - r.step) + 1 + if r.played then 34 else 0

theorem takeReturn_returned (s : State) (ret : Return) (r : Run) : Returned s ret r (s.takeReturn ret r) := by
  cases ret
  · exact ⟨_, repeatTarget_target _ _, rfl⟩
  · rfl

theorem takeReturn_need (s : State) (ret : Return) (r : Run) : need (s.takeReturn ret r) ≤ 33 := by
  cases ret <;> simp [takeReturn, need, Run.begin]; try omega

theorem endsPass_iff (s : State) (ret : Return) (r : Run) : s.endsPass ret r = true ↔ PassEnd s ret r := by
  unfold endsPass PassEnd stepAt
  cases ret <;> simp [BitVec.toNat_eq, Option.any_eq_true]

theorem sourceReturn_taken (s : State) (m : SourceNo) (ret : Return) (q : Run) :
    ReturnTaken s (.source m) ret q (s.sourceReturn m ret q).2 (s.sourceReturn m ret q).1
      ∧ (∀ w, (s.sourceReturn m ret q).1 = some w → need w ≤ 33) ∧ (s.sourceReturn m ret q).2.programs = s.programs := by
  by_cases hp : s.endsPass ret q = true
  · have hpass := (endsPass_iff s ret q).mp hp
    have stop := ReturnTaken.stopped (s := s) (x := .source m) (ret := ret) (r := q) m rfl hpass
    have again := fun on same => ReturnTaken.again (s := s) (x := .source m) (ret := ret) (r := q) m _ rfl hpass on same
      (takeReturn_returned s ret q)
    have swap := fun p on st => ReturnTaken.replaced (s := s) (x := .source m) (ret := ret) (r := q) m p rfl hpass on st
    have fresh : ∀ p, need (Run.begin p) ≤ 33 := by intro p; simp [need, Run.begin]
    have back := takeReturn_need s ret q
    unfold sourceReturn
    rw [if_pos hp]
    unfold SourceRec.stopsAtPass SourceRec.afterPass at *
    generalize hq : s.source m = x at *
    rcases x with ⟨current, staged, run, listeners, passes, limit⟩
    rcases staged with _ | (_ | p)
    · cases current with
      | none => exact ⟨stop (.inl rfl), by simp, rfl⟩
      | some p =>
        by_cases hi : listeners = 0 ∧ limit ≤ (if listeners = 0 then passes + 1 else passes)
        · dsimp only at *; rw [if_pos hi]; exact ⟨stop (.inr hi), by simp, rfl⟩
        · dsimp only at *; rw [if_neg hi]
          refine ⟨again ?_ rfl, ?_, rfl⟩
          · rintro (h | h)
            · simp at h
            · exact hi h
          · intro w hw; cases hw; exact back
    · exact ⟨stop (.inl rfl), by simp, rfl⟩
    · by_cases hi : listeners = 0 ∧ limit ≤ (if listeners = 0 then passes + 1 else passes)
      · dsimp only at *; rw [if_pos hi]; exact ⟨stop (.inr hi), by simp, rfl⟩
      · dsimp only at *; rw [if_neg hi]
        refine ⟨swap p ?_ rfl, ?_, rfl⟩
        · rintro (h | h)
          · simp at h
          · exact hi h
        · intro w hw; cases hw; exact fresh p
  · have hn : ¬PassEnd s ret q := fun h => hp ((endsPass_iff s ret q).mpr h)
    unfold sourceReturn
    rw [if_neg hp]
    exact ⟨.within m _ rfl hn (takeReturn_returned s ret q), fun w hw => by cases hw; exact takeReturn_need s ret q, rfl⟩

/-- A source carries a run on as R150 to R156 and R163 say. -/
theorem carrySource_carries (n : Nat) (m : SourceNo) (r : Run) (s : State) (short : ∀ p, (s.programSteps p).length ≤ 32)
    (fuel : need r ≤ n) : ∃ u e, Carries (.source m) s r u e ∧
      carrySource n m r s = match e with | some q => u.setSource m { u.source m with run := some q } | none => u := by
  induction n generalizing r s with
  | zero => simp [need] at fuel
  | succ n ih =>
    unfold carrySource
    unfold carryStep
    dsimp only
    generalize hst : (s.programSteps r.program)[r.step]? = o
    have hat : s.stepAt r = o := hst
    have hlt : ∀ x, o = some x → r.step < 32 := by
      intro x hx
      have : r.step < (s.programSteps r.program).length := by
        rw [hx] at hst; exact (List.getElem?_eq_some_iff.mp hst).1
      have := short r.program
      omega
    have ret : ∀ (q : Run) (ret : Return), ReturnDue s (.source m) r ret q → q.played = r.played →
        ∃ u e, Carries (.source m) s r u e ∧
        (if q.played then
          match s.sourceReturn m ret q with
          | (none, s2) => s2
          | (some r2, s2) => carrySource n m r2 s2
        else s.putSourceRun m { q with fill := some ret, position := 0 })
         = match e with | some q => u.setSource m { u.source m with run := some q } | none => u := by
      intro q ret due hp
      by_cases hq : q.played = true
      · rw [if_pos hq]
        have hn : 33 ≤ n := by
          have : need r = (32 - r.step) + 1 + 34 := by unfold need; rw [← hp, hq]; rfl
          omega
        have ht := sourceReturn_taken s m ret q
        rcases hr : s.sourceReturn m ret q with ⟨o2, s2⟩
        rw [hr] at ht
        cases o2 with
        | none => exact ⟨s2, none, .stopped s s2 r q ret due hq ht.1, rfl⟩
        | some w =>
          obtain ⟨u, e, hc, he⟩ := ih w s2 (by intro p; have := short p; unfold programSteps at *; rw [ht.2.2]; exact this) (by have := ht.2.1 w rfl; omega)
          exact ⟨u, e, .returned s s2 u r q w ret e due hq ht.1 hc, he⟩
      · rw [if_neg hq]
        exact ⟨s, _, .filled s r q ret due (by simpa using hq), rfl⟩
    have go : ∀ q : Run, q.step = r.step + 1 → q.played = r.played → r.step < 32 → 
        (∀ u e, Carries (.source m) s q u e → Carries (.source m) s r u e) →
        ∃ u e, Carries (.source m) s r u e ∧ carrySource n m q s = match e with | some q => u.setSource m { u.source m with run := some q } | none => u := by
      intro q h1 h2 h3 h4
      obtain ⟨u, e, hc, he⟩ := ih q s short (by unfold need at *; rw [h1, h2]; omega)
      exact ⟨u, e, h4 u e hc, he⟩
    cases o with
    | none => exact ret _ _ (.past m rfl hat) rfl
    | some st =>
      have hl := hlt st rfl
      rcases st with ⟨k, o⟩
      cases k with
      | play =>
        have hb := beginSegment_met s o.toNat
        refine ⟨(s.beginSegment o.toNat).2, _, .play s _ r o hat hb.1, ?_⟩
        simp only [putSourceRun, hb.2]; rfl
      | silence => exact ⟨s, _, .silence s r o hat, rfl⟩
      | sayPosition => exact go _ rfl rfl hl fun u e h => .skip s u r _ o e hat (.inr ⟨.inl rfl, m, rfl⟩) h
      | sayWait => exact go _ rfl rfl hl fun u e h => .skip s u r _ o e hat (.inr ⟨.inr rfl, m, rfl⟩) h
      | mark => exact go _ rfl rfl hl fun u e h => .skip s u r _ o e hat (.inl rfl) h
      | again =>
        by_cases h255 : o.toNat = 255
        · simp only [h255, ↓reduceIte]
          have : o = 255 := by apply BitVec.eq_of_toNat_eq; simpa using h255
          subst this
          exact ret _ _ (.forever hat) rfl
        · simp only [h255, ↓reduceIte]
          have hne : o ≠ 255 := by rintro rfl; exact h255 rfl
          by_cases hb : r.counters.getD r.step 0 < o.toNat
          · simp only [hb, ↓reduceIte]; exact ret _ _ (.counted o hat hne hb) rfl
          · simp only [hb, ↓reduceIte]
            exact go _ rfl rfl hl fun u e h => .counted s u r o e hat hne (by omega) h
      | finish => exact ret _ _ (.finish m o rfl hat) rfl

theorem numberWords_ne_nil (n : Nat) : numberWords n ≠ [] := by
  unfold numberWords
  dsimp only
  split_ifs <;> simp

/-- A SAY step speaks at least one word for a call in use. -/
theorem sayWords_ne_nil {s : State} {c : CallSlot} (h : s.call c ≠ none) {k : StepKind} (hk : k = .sayPosition ∨ k = .sayWait) :
    s.sayWords c k ≠ [] := by
  obtain ⟨r, e⟩ := Option.ne_none_iff_exists'.mp h
  unfold sayWords
  rw [e]
  rcases hk with rfl | rfl
  · exact numberWords_ne_nil _
  · dsimp only
    unfold waitWords
    split
    · simp
    · split
      · simp
      · exact numberWords_ne_nil _

/-- An announcement channel carries a run on as R150 to R156 say. -/
theorem carryChannel_carries (n : Nat) (c : CallSlot) (r : Run) (s : State) (hc : s.call c ≠ none)
    (short : ∀ p, (s.programSteps p).length ≤ 32) (fuel : need r ≤ n) :
    Carries (.call c) s r (carryChannel n c r s).2 (carryChannel n c r s).1 := by
  induction n generalizing r s with
  | zero => simp [need] at fuel
  | succ n ih =>
    unfold carryChannel
    unfold carryStep
    dsimp only
    generalize hst : (s.programSteps r.program)[r.step]? = o
    have hat : s.stepAt r = o := hst
    have hlt : ∀ x, o = some x → r.step < 32 := by
      intro x hx
      have : r.step < (s.programSteps r.program).length := by
        rw [hx] at hst; exact (List.getElem?_eq_some_iff.mp hst).1
      have := short r.program
      omega
    have ret : ∀ (q : Run), ReturnDue s (.call c) r .jump q → q.played = r.played →
        Carries (.call c) s r
          (if q.played then carryChannel n c (s.takeReturn .jump q) s
            else (some { q with fill := some .jump, position := 0 }, s)).2
          (if q.played then carryChannel n c (s.takeReturn .jump q) s
            else (some { q with fill := some .jump, position := 0 }, s)).1 := by
      intro q due hp
      by_cases hq : q.played = true
      · rw [if_pos hq]
        have hn : 33 ≤ n := by
          have : need r = (32 - r.step) + 1 + 34 := by unfold need; rw [← hp, hq]; rfl
          omega
        exact .returned s s _ r q _ .jump _ due hq (.announcement c _ rfl (takeReturn_returned s .jump q))
          (ih _ s hc short (by have := takeReturn_need s .jump q; omega))
      · rw [if_neg hq]
        exact .filled s r q .jump due (by simpa using hq)
    have go : ∀ q : Run, q.step = r.step + 1 → q.played = r.played → r.step < 32 →
        Carries (.call c) s q (carryChannel n c q s).2 (carryChannel n c q s).1 := by
      intro q h1 h2 h3
      exact ih q s hc short (by unfold need at *; rw [h1, h2]; omega)
    have say : ∀ (k : StepKind) (o : Byte) (v : VocabNo) (l : List VocabNo), s.stepAt r = some ⟨k, o⟩ → s.sayWords c k = v :: l →
        Carries (.call c) s r (s.beginWord v).2
          (some { r with position := 0, segment := (s.beginWord v).1, words := v :: l, word := 0 }) := by
      intro k o v l h hw
      have hb := beginWord_met s v
      rw [hb.2]
      exact .say s _ r k o c v l h rfl hw hb.1
    cases o with
    | none => exact .ended s r c rfl (.inl hat)
    | some st =>
      have hl := hlt st rfl
      rcases st with ⟨k, o⟩
      cases k with
      | play =>
        have hb := beginSegment_met s o.toNat
        dsimp only
        rw [hb.2]
        exact .play s _ r o hat hb.1
      | silence => exact .silence s r o hat
      | sayPosition =>
        have hk : kindAt (s.programSteps r.program) r.step = some .sayPosition := by unfold kindAt; rw [hst]; rfl
        dsimp only
        rw [hk]
        cases hw : s.sayWords c .sayPosition with
        | nil => exact absurd hw (sayWords_ne_nil hc (.inl rfl))
        | cons v l => simp only [Option.getD_some, hw]; exact say _ o v l hat hw
      | sayWait =>
        have hk : kindAt (s.programSteps r.program) r.step = some .sayWait := by unfold kindAt; rw [hst]; rfl
        dsimp only
        rw [hk]
        cases hw : s.sayWords c .sayWait with
        | nil => exact absurd hw (sayWords_ne_nil hc (.inr rfl))
        | cons v l => simp only [Option.getD_some, hw]; exact say _ o v l hat hw
      | mark => exact .skip s _ r _ o _ hat (.inl rfl) (go _ rfl rfl hl)
      | again =>
        by_cases h255 : o.toNat = 255
        · simp only [h255, ↓reduceIte]
          have : o = 255 := by apply BitVec.eq_of_toNat_eq; simpa using h255
          subst this
          exact ret _ (.forever hat) rfl
        · simp only [h255, ↓reduceIte]
          have hne : o ≠ 255 := by rintro rfl; exact h255 rfl
          by_cases hb : r.counters.getD r.step 0 < o.toNat
          · simp only [hb, ↓reduceIte]; exact ret _ (.counted o hat hne hb) rfl
          · simp only [hb, ↓reduceIte]
            exact .counted s _ r o _ hat hne (by omega) (go _ rfl rfl hl)
      | finish => exact .ended s r c rfl (.inr ⟨o, hat⟩)

end Sys2Proof.Machine
end

