-- ==== Sys2Proof/Laws/Records.lean ====
section
/-! SUPPORT. Every shared operation of the Group Table, the Call Table, the Agent Roster, the Distributor and the Offer Controller is a
chain of moves. -/
namespace Sys2Proof.Machine

/-! ### Agent records that keep their definition -/

theorem AgentRec.SameDefinition.rfl {r : AgentRec} : r.SameDefinition r := ⟨Eq.refl _, Eq.refl _, Eq.refl _⟩
theorem toSignedOut_same (r : AgentRec) : r.SameDefinition r.toSignedOut := ⟨rfl, rfl, rfl⟩
theorem toAux_same (r : AgentRec) (n : Nat) : r.SameDefinition (r.toAux n) := ⟨rfl, rfl, rfl⟩
theorem toReady_same (r : AgentRec) (n : Nat) : r.SameDefinition (r.toReady n) := ⟨rfl, rfl, rfl⟩
theorem freed_same (r : AgentRec) (n : Nat) : r.SameDefinition (r.freed n) := by
  unfold AgentRec.freed
  split <;> exact ⟨rfl, rfl, rfl⟩

/-- An average that a sample leaves lies within 16–65520 (R129, R132). -/
theorem newAverage_range (old : Option Nat) (k x : Nat) : 16 ≤ newAverage old k x ∧ newAverage old k x ≤ 65520 := by
  unfold newAverage clamp
  dsimp only
  split <;> omega

section
variable {ties : Bool} (s : State)

/-! ### Groups and queues -/

theorem takeSample_moves (g : Group) (n : Nat) : Moves ties s (s.takeSample g n) :=
  modGroup_moves s g _ ⟨rfl, .inl rfl, rfl, rfl, rfl, .inr ⟨_, rfl, newAverage_range _ _ _⟩⟩

theorem modStats_moves (g : Group) (f : Stats → Stats) : Moves ties s (s.modStats g f) :=
  modGroup_moves s g _ ⟨rfl, .inl rfl, rfl, rfl, rfl, .inl rfl⟩

theorem endOffer_moves (g : Group) : Moves ties s (s.endOffer g) :=
  modGroup_moves s g _ ⟨rfl, .inl rfl, rfl, rfl, rfl, .inl rfl⟩

theorem leaveQueue_moves (c : CallSlot) (g : Group) : Moves ties s (s.leaveQueue c g) := by
  refine (modGroup_moves s g _ ?_).trans (evalQueue_moves _ g)
  exact ⟨rfl, .inl rfl, rfl, rfl, rfl, .inl rfl⟩

theorem sweepIfOpened_moves (before : State) : Moves ties s (s.sweepIfOpened before) := by
  unfold State.sweepIfOpened
  split
  · exact raiseSweep_moves s
  · exact .refl _ s

theorem join_moves (c : CallSlot) (g : Group) : Moves ties s (s.join c g) := by
  unfold State.join
  split
  · exact .refl _ s
  · next r hr =>
    dsimp only
    refine Moves.trans (Move.call s c r _ hr ⟨by rfl, by exact id⟩ (by rfl)).chain
      (((modGroup_moves _ g _ ?_).trans (evalQueue_moves _ g)).trans (raiseCallTrigger_moves _ c))
    · exact ⟨rfl, .inl rfl, rfl, rfl, rfl, .inl rfl⟩

/-- Evaluating the conditions of a queue a call leaves leaves the call records. -/
theorem leaveQueue_call (c d : CallSlot) (g : Group) : (s.leaveQueue c g).call d = s.call d := by
  unfold State.leaveQueue
  rw [(evalQueue_watch _ g).call]
  rfl

theorem tryOverflow_moves (c : CallSlot) : Moves ties s (s.tryOverflow c) := by
  unfold State.tryOverflow
  split
  · exact .refl _ s
  · next r hr =>
    split
    · exact .refl _ s
    · next t ht =>
      have hops : r.hops < 3 := by
        unfold State.overflowGroup at ht
        split at ht
        · split at ht <;> simp_all
        · simp at ht
      dsimp only
      refine ((((leaveQueue_moves s c _).trans (modCall_moves _ c _ ?_ (by exact fun _ => rfl))).trans (modStats_moves _ _ _)).trans
        (modStats_moves _ _ _)).trans ((join_moves _ c t).trans (moveMusic_moves _ t c))
      intro q hq
      rw [leaveQueue_call, hr] at hq
      cases hq
      exact ⟨rfl, fun _ => ⟨by simp; omega, by simp⟩⟩

theorem moveListeners_moves (g : Group) : Moves ties s (s.moveListeners g) :=
  Moves.foldl (fun s c => moveMusic_moves s g c) _ s

theorem performSwap_moves (g : Group) : Moves ties s (s.performSwap g) := by
  unfold State.performSwap
  dsimp only
  have h : Moves ties s (s.setGroup g { s.group g with active := (s.group g).staged, swapPending := false }) :=
    setGroup_moves s g _ ⟨rfl, .inr rfl, rfl, rfl, rfl, .inl rfl⟩
  refine Moves.trans ((h.trans (evalDepth_moves _ g)).trans (evalWait_moves _ g)) ?_
  split
  · exact raiseSweep_moves _
  · exact (moveListeners_moves _ g).trans (raiseSweep_moves _)

theorem swapIfQuiet_moves (g : Group) : Moves ties s (s.swapIfQuiet g) := by
  unfold State.swapIfQuiet
  split
  · exact performSwap_moves s g
  · exact .refl _ s

theorem removeOwed_call (p : Port) (o : OwedPair) (c : CallSlot) : (s.removeOwed p o).call c = s.call c := by
  unfold State.removeOwed State.modPort State.setPort
  cases p <;> rfl

theorem freeCall_moves (c : CallSlot) : Moves ties s (s.freeCall c) := by
  unfold State.freeCall
  split
  · exact .refl _ s
  · dsimp only
    refine Moves.trans (Moves.trans ?_ (detach_moves _ c))
      (((removeOwed_moves _ _ _).trans (removeOwed_moves _ _ _)).trans ((removeOwed_moves _ _ _).trans
        (Move.free _ c fun q hq m => ?_).chain))
    · split
      · exact leaveQueue_moves s c _
      · exact .refl _ s
    · rw [removeOwed_call, removeOwed_call, removeOwed_call] at hq
      rw [detach_listen _ hq]
      simp

/-! ### Agents -/

theorem writeAgent_moves (a : AgentSlot) (r : AgentRec) (h : (s.agent a).SameDefinition r) :
    Moves ties s (s.writeAgent a r) := (Move.write s a r h).chain

theorem changeAgent_moves (a : AgentSlot) (r : AgentRec) (quiet : Bool) (h : (s.agent a).SameDefinition r) :
    Moves ties s (s.changeAgent a r quiet) := by
  unfold State.changeAgent
  dsimp only
  split
  · exact writeAgent_moves s a r h
  · exact (writeAgent_moves s a r h).trans (handAgentState_moves _ a)

theorem moveAgent_moves (a : AgentSlot) (r : AgentRec) (h : (s.agent a).SameDefinition r) :
    Moves ties s (s.moveAgent a r) := by
  unfold State.moveAgent
  dsimp only
  split
  · exact (changeAgent_moves s a r _ h).trans (raiseAgentTrigger_moves _ a)
  · exact changeAgent_moves s a r _ h

theorem takeSample_agent (g : Group) (n : Nat) (a : AgentSlot) : (s.takeSample g n).agent a = s.agent a := rfl

theorem endWrap_moves (a : AgentSlot) (forced : Bool) : Moves ties s (s.endWrap a forced) := by
  unfold State.endWrap
  dsimp only
  have same : (s.agent a).SameDefinition (if forced = true then (s.agent a).toSignedOut else (s.agent a).freed s.clock) := by
    split
    · exact toSignedOut_same _
    · exact freed_same _ _
  split
  · exact (takeSample_moves s _ _).trans (moveAgent_moves _ a _ same)
  · exact moveAgent_moves s a _ same

theorem expireWrap_moves (a : AgentSlot) : Moves ties s (s.expireWrap a) := by
  unfold State.expireWrap
  split
  · exact endWrap_moves s a _
  · exact .refl _ s

theorem wrapsEnded_moves : Moves ties s s.wrapsEnded := Moves.foldl (fun s a => expireWrap_moves s a) _ s

theorem endConnected_moves (a : AgentSlot) (g : Group) (mark : SampleMark) : Moves ties s (s.endConnected a g mark) := by
  unfold State.endConnected
  dsimp only
  split
  · exact changeAgent_moves s a _ _ ⟨rfl, rfl, rfl⟩
  · have same : (s.agent a).SameDefinition
        ({ s.agent a with boundCall := none, callsHandled := bump (s.agent a).callsHandled }.freed s.clock) := by
      have h := freed_same { s.agent a with boundCall := none, callsHandled := bump (s.agent a).callsHandled } s.clock
      exact ⟨h.defined, h.home, h.skills⟩
    split
    · split
      · exact (takeSample_moves s _ _).trans (moveAgent_moves _ a _ same)
      · exact moveAgent_moves s a _ same
    · exact changeAgent_moves s a _ _ ⟨rfl, rfl, rfl⟩

/-! ### Offers -/

theorem requeue_moves (c : CallSlot) (a : AgentSlot) (counted : Bool) : Moves ties s (s.requeue c a counted) := by
  refine modCall_moves s c _ (fun r _ => ⟨rfl, fun h => ⟨h.1, ?_⟩⟩) (by exact fun _ => rfl)
  have := h.2
  simp only
  split <;> omega

theorem overflowAtRequeue_moves (c : CallSlot) (counted : Bool) : Moves ties s (s.overflowAtRequeue c counted) := by
  unfold State.overflowAtRequeue
  split
  · exact .refl _ s
  · dsimp only
    have h : Moves ties s (s.modCall c fun k => { k with pendingOverflow := false }) :=
      modCall_moves s c _ (fun r _ => ⟨rfl, id⟩) (by exact fun _ => rfl)
    split
    · exact h.trans (tryOverflow_moves _ c)
    · exact h

theorem returnCall_moves (c : CallSlot) (g : Group) (a : AgentSlot) (counted : Bool) :
    Moves ties s (s.returnCall c g a counted) :=
  ((((requeue_moves s c a counted).trans (endOffer_moves _ g)).trans (overflowAtRequeue_moves _ c counted)).trans
    (swapIfQuiet_moves _ g)).trans (raiseCallTrigger_moves _ c)

theorem ringNoAnswer_moves (c : CallSlot) (r : CallRec) (a : AgentSlot) : Moves ties s (s.ringNoAnswer c r a) := by
  unfold State.ringNoAnswer
  dsimp only
  refine ((modCall_moves s c _ (by exact fun r _ => ⟨rfl, id⟩) (by exact fun _ => rfl)).trans (moveAgent_moves _ a _ ?_)).trans
    (returnCall_moves _ c _ a true)
  split
  · exact toAux_same _ _
  · exact toReady_same _ _

theorem withdraw_moves (a : AgentSlot) (r : AgentRec) (quiet : Bool) (h : (s.agent a).SameDefinition r) :
    Moves ties s (s.withdraw a r quiet) := by
  unfold State.withdraw
  split
  · exact changeAgent_moves s a r _ h
  · split
    · exact changeAgent_moves s a r _ h
    · exact ((modCall_moves s _ _ (by exact fun r _ => ⟨rfl, id⟩) (by exact fun _ => rfl)).trans (changeAgent_moves _ a r _ h)).trans
        (returnCall_moves _ _ _ a false)

theorem bind_moves (c : CallSlot) (r : CallRec) (a : AgentSlot) : Moves ties s (s.bind c r a) := by
  unfold State.bind
  dsimp only
  refine ((modCall_moves s c _ (by exact fun r _ => ⟨rfl, id⟩) (by exact fun _ => rfl)).trans (modGroup_moves _ _ _ ?_)).trans
    (changeAgent_moves _ a _ _ ?_)
  · exact ⟨rfl, .inl rfl, rfl, rfl, rfl, .inl rfl⟩
  · exact ⟨rfl, rfl, rfl⟩

/-! ### The Distributor -/

theorem breakTie_moves (l : List AgentSlot) : Moves true s (s.breakTie l).2 := by
  unfold State.breakTie
  split
  · exact .refl _ s
  · exact .refl _ s
  · exact (Move.advance s rfl).chain

theorem selectAgent_moves (r : CallRec) : Moves true s (s.selectAgent r).2 := breakTie_moves s _

theorem takeCallTrigger_moves (c : CallSlot) : Moves true s (s.takeCallTrigger c) := by
  unfold State.takeCallTrigger
  split
  · split
    · exact .refl _ s
    · split
      · next e => exact (selectAgent_moves s _).snd e
      · next e => exact ((selectAgent_moves s _).snd e).trans (bind_moves _ _ _ _)
  · exact .refl _ s

theorem takeAgentTrigger_moves (a : AgentSlot) : Moves ties s (s.takeAgentTrigger a) := by
  unfold State.takeAgentTrigger
  dsimp only
  split
  · split
    · exact .refl _ s
    · exact bind_moves s _ _ _
  · exact .refl _ s

theorem sweepRounds_moves (n : Nat) : Moves true s (State.sweepRounds n s) := by
  induction n generalizing s with
  | zero => exact .refl _ s
  | succ n ih =>
    unfold State.sweepRounds
    split
    · exact .refl _ s
    · split
      · next e => exact (selectAgent_moves s _).snd e
      · next e => exact (((selectAgent_moves s _).snd e).trans (bind_moves _ _ _ _)).trans (ih _)

theorem takeSweep_moves : Moves true s s.takeSweep := by
  unfold State.takeSweep
  exact sweepRounds_moves s 512

/-! ### Answer, hang-up and release -/

theorem recordPending_moves (a : AgentSlot) (p : Pending) : Moves ties s (s.recordPending a p) :=
  setAgent_moves s a _ ⟨rfl, rfl, rfl⟩ rfl

theorem connect_moves (a : AgentSlot) (c : CallSlot) (r : CallRec) : Moves ties s (s.connect a c r) := by
  unfold State.connect
  dsimp only
  refine Moves.trans (Moves.trans (Moves.trans
    (((modCall_moves s c _ (by exact fun r _ => ⟨rfl, id⟩) (by exact fun _ => rfl)).trans (writeAgent_moves _ a _ ?_)).trans (endOffer_moves _ _))
    (leaveQueue_moves _ c _)) ((modStats_moves _ _ _).trans (detach_moves _ c)))
    ((((handAgentState_moves _ a).trans (handCall_moves _ c _)).trans (handCall_moves _ c _)).trans
      ((swapIfQuiet_moves _ _).trans (arbitrate_moves _)))
  exact ⟨rfl, rfl, rfl⟩

theorem hangUp_moves (a : AgentSlot) (c : CallSlot) (r : CallRec) : Moves ties s (s.hangUp a c r) := by
  unfold State.hangUp
  dsimp only
  exact (((modCall_moves s c _ (by exact fun r _ => ⟨rfl, id⟩) (by exact fun _ => rfl)).trans (endConnected_moves _ a _ _)).trans
    (modCall_moves _ c _ (by exact fun r _ => ⟨rfl, id⟩) (by exact fun _ => rfl))).trans (handCall_moves _ c _)

theorem freeAgent_moves (a : AgentSlot) : Moves ties s (s.freeAgent a) := moveAgent_moves s a _ (toReady_same _ _)

theorem release_moves (c : CallSlot) (r : CallRec) : Moves ties s (s.release c r) := by
  unfold State.release
  split
  · exact (modStats_moves s _ _).trans (freeCall_moves _ c)
  · exact (((((modCall_moves s c _ (by exact fun r _ => ⟨rfl, id⟩) (by exact fun _ => rfl)).trans (freeAgent_moves _ _)).trans
      (modStats_moves _ _ _)).trans (freeCall_moves _ c)).trans (endOffer_moves _ _)).trans (swapIfQuiet_moves _ _)
  · exact ((modCall_moves s c _ (by exact fun r _ => ⟨rfl, id⟩) (by exact fun _ => rfl)).trans (endConnected_moves _ _ _ _)).trans
      (freeCall_moves _ c)
  · exact freeCall_moves s c

/-! ### Purge -/

theorem purgeOffer_moves (x : Shelf) (c : CallSlot) (r : CallRec) (a : AgentSlot) : Moves ties s (s.purgeOffer x c r a) := by
  unfold State.purgeOffer
  dsimp only
  refine Moves.trans ?_ ((endOffer_moves _ _).trans (swapIfQuiet_moves _ _))
  have h : Moves ties s ((s.modCall c fun k => { k with boundAgent := none, ring := none }).modStats r.group
      fun q => { q with purged := bump q.purged }) :=
    (modCall_moves s c _ (by exact fun r _ => ⟨rfl, id⟩) (by exact fun _ => rfl)).trans (modStats_moves _ _ _)
  split
  · have k := h.trans (freeCall_moves _ c)
    have e := k.definition a
    exact k.trans (changeAgent_moves _ a _ _ ⟨e.defined.symm, e.home.symm, e.skills.symm⟩)
  · exact (h.trans (freeAgent_moves _ a)).trans (freeCall_moves _ c)

theorem purgeConnected_moves (x : Shelf) (c : CallSlot) (r : CallRec) (a : AgentSlot) :
    Moves ties s (s.purgeConnected x c r a) := by
  unfold State.purgeConnected
  dsimp only
  refine Moves.trans ?_ (freeCall_moves _ c)
  have h : Moves ties s (s.modCall c fun k => { k with boundAgent := none }) :=
    modCall_moves s c _ (by exact fun r _ => ⟨rfl, id⟩) (by exact fun _ => rfl)
  split
  · exact h.trans (changeAgent_moves _ a _ _ ⟨rfl, rfl, rfl⟩)
  · exact h.trans (endConnected_moves _ a _ _)

theorem purgeCall_moves (x : Shelf) (c : CallSlot) : Moves ties s (State.purgeCall x s c) := by
  unfold State.purgeCall
  split
  · exact .refl _ s
  · split
    · exact (modStats_moves s _ _).trans (freeCall_moves _ c)
    · exact purgeOffer_moves s x c _ _
    · exact purgeConnected_moves s x c _ _
    · exact freeCall_moves s c

theorem purgeAgent_moves (a : AgentSlot) : Moves ties s (State.purgeAgent s a) := by
  unfold State.purgeAgent
  dsimp only
  split
  · exact .refl _ s
  · exact changeAgent_moves s a _ _ (toSignedOut_same _)
  · exact changeAgent_moves s a _ _ (toSignedOut_same _)
  · exact changeAgent_moves s a _ _ (toSignedOut_same _)
  · exact withdraw_moves s a _ _ (toSignedOut_same _)
  · exact recordPending_moves s a _

theorem mapTable_get {α β : Type} {n : Nat} (f : α → β) (v : Vector α n) (i : Fin n) : (mapTable f v).get i = f (v.get i) := by
  show (mapTable f v)[i.val] = f v[i.val]
  simp [mapTable]

theorem clearPort_moves (x : Shelf) : Moves ties s (s.clearPort x) := by
  unfold State.clearPort
  dsimp only
  refine (Move.clear s (portOf x)).chain.trans (Move.agents _ _ (fun a => ?_) fun a => ?_).chain
  all_goals
    rw [mapTable_get]
    unfold State.agent
    split <;> first | rfl | exact ⟨rfl, rfl, rfl⟩

theorem purgeShelf_moves (x : Shelf) : Moves ties s (s.purgeShelf x) := by
  unfold State.purgeShelf
  dsimp only
  exact (((Moves.foldl (fun s c => purgeCall_moves s x c) _ s).trans (Moves.foldl (fun s a => purgeAgent_moves s a) _ _)).trans
    (clearPort_moves _ x)).trans ((raisePurgeDone_moves _).trans (arbitrate_moves _))

/-! ### Expiries -/

theorem expireRing_moves (c : CallSlot) : Moves ties s (s.expireRing c) := by
  unfold State.expireRing
  split
  · exact .refl _ s
  · split
    · split
      · exact ringNoAnswer_moves s c _ _
      · exact .refl _ s
    · exact .refl _ s

theorem expireOverflow_moves (c : CallSlot) : Moves ties s (s.expireOverflow c) := by
  unfold State.expireOverflow
  split
  · exact .refl _ s
  · split
    · exact .refl _ s
    · split
      · split
        · exact (modCall_moves s c _ (by exact fun r _ => ⟨rfl, id⟩) (by exact fun _ => rfl)).trans (tryOverflow_moves _ c)
        all_goals exact modCall_moves s c _ (by exact fun r _ => ⟨rfl, id⟩) (by exact fun _ => rfl)
      · exact .refl _ s

theorem announce_moves (c : CallSlot) : Moves ties s (s.announce c) := by
  unfold State.announce
  split
  · exact .refl _ s
  · split
    · exact .refl _ s
    · split
      · have h : Moves ties s (s.modCall c fun k => { k with nextDue := none }) :=
          modCall_moves s c _ (by exact fun r _ => ⟨rfl, id⟩) (by exact fun _ => rfl)
        dsimp only
        split
        · exact (h.trans (joinWaitList_moves _ c _)).trans (arbitrate_moves _)
        · exact (h.trans (joinWaitList_moves _ c _)).trans (arbitrate_moves _)
        · exact h
        · exact h
      · exact .refl _ s

theorem announced_moves : Moves ties s s.announced := Moves.foldl (fun s c => announce_moves s c) _ s

theorem settled_moves : Moves ties s s.settled := (wrapsEnded_moves s).trans (announced_moves _)

theorem takeExpiries_moves : Moves ties s s.takeExpiries :=
  (Moves.foldl (fun s c => expireRing_moves s c) _ s).trans (Moves.foldl (fun s c => expireOverflow_moves s c) _ _)

end

end Sys2Proof.Machine
end

