-- ==== Sys2Proof/Laws/Request.lean ====
section
/-! SUPPORT. What writing a request record comes to, once for all kinds (R181 to R183), and the fields of records. -/
namespace Sys2Proof

/-! ### The act of each kind -/

namespace Machine

/-- What the owning block does with the parameters of a request of a kind from a port. -/
def actOf (k : Kind) (p : Port) : List Byte → State → Reply :=
  match k with
  | .agentRead => actAgentRead
  | .signIn => actSignIn p
  | .ready => actReady p
  | .aux => actAux p
  | .signOut => actSignOut p
  | .wrapExtend => actWrapExtend p
  | .wrapEnd => actWrapEnd p
  | .agentAnswer => actAgentAnswer p
  | .agentNoAnswer => actAgentNoAnswer p
  | .agentHangup => actAgentHangup p
  | .agentDefine => actAgentDefine
  | .forceAux => actForceAux p
  | .forceSignOut => actForceSignOut p
  | .groupRead => actGroupRead
  | .groupStage => actGroupStage
  | .groupSwap => actGroupSwap
  | .groupOpen => actGroupOpen
  | .groupClose => actGroupClose
  | .groupStats => actGroupStats
  | .groupWatchMask => actGroupWatchMask
  | .lineMode => actLineMode
  | .lineRead => actLineRead
  | .callArrive => actCallArrive p
  | .callRelease => actCallRelease p
  | .callRead => actCallRead p
  | .tiebreakSet => actTiebreakSet
  | .tiebreakRead => actTiebreakRead
  | .storeWrite => actStoreWrite
  | .storeRead => actStoreRead
  | .segmentLoad => actSegmentLoad
  | .segmentRead => actSegmentRead
  | .programLoad => actProgramLoad
  | .programRead => actProgramRead
  | .vocabLoad => actVocabLoad
  | .vocabRead => actVocabRead
  | .sourceRead => actSourceRead
  | .sourceSet => actSourceSet
  | .sourceLimit => actSourceLimit
  | .channelRead => actChannelRead
  | .slotMap => actSlotMap
  | .slotRead => actSlotRead
  | .idleByteSet => actIdleByteSet
  | .fetch => actFetch p
  | .watchRead => actWatchRead
  | .watchClear => actWatchClear
  | .watchMask => actWatchMask
  | .purgeShelf => actPurgeShelf
  | .restart => actRestart
  | .purge => actPurge p

/-- Every request command is the writing of its record on its port, once the wraps that are due have ended. -/
theorem exec_command (k : Kind) (p : Port) (body : List Byte) (s : State) :
    exec (k.command p body) s = .next (State.request k p body (actOf k p) s.settled) := by
  cases k <;> rfl

/-! ### Wraps and announcements that are due -/

/-- A wrap is due from its end on (R120). -/
theorem wrapDue_iff (s : State) (a : AgentSlot) :
    s.wrapDue a = true ↔ (s.agent a).state = .wrap ∧ (s.agent a).wrap.finish ≤ s.clock := by
  simp [State.wrapDue]

theorem wrapDue_eq_false_iff (s : State) (a : AgentSlot) :
    s.wrapDue a = false ↔ ¬((s.agent a).state = .wrap ∧ (s.agent a).wrap.finish ≤ s.clock) := by
  rw [← wrapDue_iff, Bool.not_eq_true]

theorem dueWraps_over {s : State} (h : WrapsOver s) : s.dueWraps = [] := by
  unfold State.dueWraps findAll
  rw [List.filterMap_eq_nil_iff]
  intro ⟨i, r⟩ hm
  have hr : r = s.agent i := by
    obtain ⟨n, hn, e⟩ := List.getElem_of_mem hm
    simp only [List.getElem_zip, Prod.mk.injEq, List.getElem_finRange] at e
    obtain ⟨e1, e2⟩ := e
    rw [← e1, ← e2]
    rfl
  have hi := (wrapDue_eq_false_iff s i).mpr (h i)
  simp only [State.wrapDue] at hi
  subst hr
  simpa using hi

/-- A state in which no wrap is due has ended its wraps. -/
theorem wrapsEnded_over {s : State} (h : WrapsOver s) : s.wrapsEnded = s := by
  unfold State.wrapsEnded
  rw [dueWraps_over h]
  rfl

/-- The calls in use that have a due `f` that has been reached. -/
theorem mem_callsDue (s : State) (f : CallRec → Option Nat) (c : CallSlot) :
    c ∈ s.callsDue f ↔ ∃ r e, s.call c = some r ∧ f r = some e ∧ e ≤ s.clock := by
  unfold State.callsDue
  rw [mem_findAll]
  show Option.any _ (s.call c) = true ↔ _
  cases s.call c with
  | none => simp
  | some r => cases h : f r <;> simp [h]

/-- A state in which no announcement is due has announced them. -/
theorem announced_taken {s : State} (h : AnnouncementsTaken s) : s.announced = s := by
  have : s.callsDue CallRec.nextDue = [] := by
    rw [List.eq_nil_iff_forall_not_mem]
    intro c hc
    obtain ⟨r, e, hr, he, hd⟩ := (mem_callsDue s _ c).mp hc
    exact absurd (h c r e hr he) (by omega)
  unfold State.announced
  rw [this]
  rfl

/-- A calm state is settled. -/
theorem settled_calm {s : State} (h : Calm s) : s.settled = s := by
  unfold State.settled
  rw [wrapsEnded_over h.wraps, announced_taken h.announcements]

/-! ### Fields of records (R197) -/

@[simp] theorem bytesBE_length (k n : Nat) : (bytesBE k n).length = k := by
  induction k generalizing n with
  | zero => rfl
  | succ k ih => simp [bytesBE, ih]

@[simp] theorem field_length (k n : Nat) : (field k n).length = k := by
  unfold field
  split <;> simp

/-- Parameters of fewer than 65536 bytes come out of their frame. -/
theorem unframe_frame {ps : List Byte} (h : ps.length < 65536) : unframe (frame ps) = some ps := by
  simp only [frame, bytesBE, List.nil_append, List.cons_append, unframe, BitVec.toNat_ofNat]
  rw [if_pos]
  omega

/-- Every kind's length is below 65536. -/
theorem lengthOk_lt {k : Kind} {p : Port} {ps : List Byte} (h : lengthOk k p ps = true) : ps.length < 65536 := by
  have h1 : u8 ps 1 < 256 := BitVec.isLt _
  have h4 : u8 ps 4 < 256 := BitVec.isLt _
  cases k <;> simp only [lengthOk, beq_iff_eq, Bool.and_eq_true, decide_eq_true_eq] at h <;>
    first
    | omega
    | (split at h <;> simp only [beq_iff_eq] at h <;> omega)

theorem checkRecord_frame {k : Kind} {p : Port} {ps : List Byte} (hl : lengthOk k p ps = true) (hp : permitted k p = true) :
    checkRecord k p (frame ps) = some ps := by
  simp [checkRecord, unframe_frame (lengthOk_lt hl), hl, hp]

/-- A parameter set is within the ranges of R30. -/
theorem legal_iff (p : Params) : p.legal = true ↔
    p.wrapTime ≤ 900 ∧ p.wrapTime ≤ p.wrapCap ∧ (5 ≤ p.extStep ∧ p.extStep ≤ 300) ∧ p.extLimit ≤ 3 ∧ p.wrapCap ≤ 1800
      ∧ (4 ≤ p.ringTimeout ∧ p.ringTimeout ≤ 60) ∧ (1 ≤ p.noAnswerLimit ∧ p.noAnswerLimit ≤ 7) ∧ (1 ≤ p.weight ∧ p.weight ≤ 15)
      ∧ p.priorityStep ≤ 255 ∧ (1 ≤ p.maxDepth ∧ p.maxDepth ≤ 1024)
      ∧ (p.overflowWait = 0 ∨ (10 ≤ p.overflowWait ∧ p.overflowWait ≤ 3600)) ∧ p.firstDelay ≤ 120
      ∧ (p.interval = 0 ∨ (15 ≤ p.interval ∧ p.interval ≤ 600)) ∧ (1 ≤ p.shift ∧ p.shift ≤ 6) ∧ p.depthThreshold ≤ 1024
      ∧ (p.waitObjective = 0 ∨ (5 ≤ p.waitObjective ∧ p.waitObjective ≤ 3600)) := by
  simp [Params.legal, and_assoc]

/-- A value brought into a range in which 0 means off. -/
theorem clampOrOff_cases (low high x : Nat) (h : low ≤ high) :
    clampOrOff low high x = 0 ∨ (low ≤ clampOrOff low high x ∧ clampOrOff low high x ≤ high) := by
  unfold clampOrOff clamp
  split <;> omega

/-- A parameter set brought into range is within the ranges of R30. -/
theorem inRange_legal (p : Params) : p.inRange.legal = true := by
  have h1 := clampOrOff_cases 1 1024 p.depthThreshold (by decide)
  refine (legal_iff _).mpr ⟨?_, ?_, ⟨?_, ?_⟩, ?_, ?_, ⟨?_, ?_⟩, ⟨?_, ?_⟩, ⟨?_, ?_⟩, ?_, ⟨?_, ?_⟩, clampOrOff_cases _ _ _ (by decide), ?_,
    clampOrOff_cases _ _ _ (by decide), ⟨?_, ?_⟩, ?_, clampOrOff_cases _ _ _ (by decide)⟩ <;>
    simp only [Params.inRange, clamp] <;> omega

/-- A parameter set within the ranges of R30 is left as it is. -/
theorem inRange_of_legal {p : Params} (h : p.legal = true) : p.inRange = p := by
  have hc : ∀ low high x : Nat, low ≤ x → x ≤ high → clamp low high x = x := by intro low high x _ _; unfold clamp; omega
  have ho : ∀ low high x : Nat, x = 0 ∨ (low ≤ x ∧ x ≤ high) → clampOrOff low high x = x := by
    intro low high x h; unfold clampOrOff; split <;> [omega; exact hc _ _ _ (by omega) (by omega)]
  obtain ⟨h1, h2, h3, h4, h5, h6, h7, h8, h9, h10, h11, h12, h13, h14, h15, h16⟩ := (legal_iff p).mp h
  have hd : clampOrOff 1 1024 p.depthThreshold = p.depthThreshold := ho _ _ _ (by omega)
  simp only [Params.inRange, hd, hc _ _ _ (Nat.zero_le _) h1, hc _ _ _ h3.1 h3.2, hc _ _ _ (Nat.zero_le _) h4,
    hc _ _ _ (Nat.zero_le _) h5, hc _ _ _ h6.1 h6.2, hc _ _ _ h7.1 h7.2, hc _ _ _ h8.1 h8.2, hc _ _ _ (Nat.zero_le _) h9,
    hc _ _ _ h10.1 h10.2, ho _ _ _ h11, hc _ _ _ (Nat.zero_le _) h12, ho _ _ _ h13, hc _ _ _ h14.1 h14.2, ho _ _ _ h16,
    Nat.min_eq_left h2]

/-! ### What a request comes to -/

theorem taken_eq (s : State) (p : Port) (body : List Byte) :
    s.taken p body = s.setPort p
      { s.port p with
        slot := .busy, rejected := false, shifted := s.statusByte p :: List.replicate (1 + body.length) 0 } := rfl

/-- The state in which the owning block acts. -/
theorem takeSlot_shiftWrite (s : State) (p : Port) (body : List Byte) :
    (s.shiftWrite p (1 + body.length)).takeSlot p = s.taken p body := by
  simp [taken_eq, State.takeSlot, State.shiftWrite, State.shiftOut, State.modPort]

/-- A request in IDLE that passes the port's checks is answered by its owning block. -/
theorem request_taken {k : Kind} {p : Port} {ps : List Byte} {s : State} (act : List Byte → State → Reply)
    (h : Takes s k p ps) : State.request k p (frame ps) act s = State.answer p (act ps (s.taken p (frame ps))) := by
  unfold State.request
  simp only [h.idle, checkRecord_frame h.length h.port, ↓reduceIte, takeSlot_shiftWrite]

/-- The same for the command. -/
theorem exec_taken {k : Kind} {p : Port} {ps : List Byte} {s : State} (h : Takes s k p ps) :
    exec (k.command p (frame ps)) s = .next (State.answer p (actOf k p ps (s.taken p (frame ps)))) := by
  rw [exec_command, settled_calm h.calm, request_taken _ h]

/-- A reply that changes nothing leaves the state answered and nothing else changed. -/
theorem answer_unchanged (s : State) (p : Port) (body : List Byte) (r : Result) (content : List Byte) :
    State.answer p { state := s.taken p body, result := r, content := content } = s.answered p body r content := by
  simp [State.answer, State.respond, State.answered, taken_eq, State.modPort]

/-- What an answered request shows, when the owning block has left the port's slot to the port. -/
theorem answer_answered {s : State} {p : Port} {body : List Byte} {r : Reply}
    (h : KeepsSlots (s.taken p body) r.state) : Answered (State.answer p r) p r.result r.content := by
  have hr : (r.state.port p).rejected = false := by
    rw [h.rejected p, taken_eq]
    simp
  constructor <;> simp [State.answer, State.respond, State.modPort, hr]

/-! ### The state in which the owning block acts -/

section
variable (s : State) (p : Port) (body : List Byte)

@[simp] theorem taken_clock : (s.taken p body).clock = s.clock := by simp [taken_eq]
@[simp] theorem taken_agents : (s.taken p body).agents = s.agents := by simp [taken_eq]
@[simp] theorem taken_groups : (s.taken p body).groups = s.groups := by simp [taken_eq]
@[simp] theorem taken_calls : (s.taken p body).calls = s.calls := by simp [taken_eq]
@[simp] theorem taken_agent (a : AgentSlot) : (s.taken p body).agent a = s.agent a := by simp [taken_eq]
@[simp] theorem taken_group (g : Group) : (s.taken p body).group g = s.group g := by simp [taken_eq]
@[simp] theorem taken_call (c : CallSlot) : (s.taken p body).call c = s.call c := by simp [taken_eq]
@[simp] theorem taken_line (l : LineNo) : (s.taken p body).line l = s.line l := by simp [taken_eq]
@[simp] theorem taken_segment (k : SegmentCode) : (s.taken p body).segment k = s.segment k := by simp [taken_eq]
@[simp] theorem taken_programSteps (n : ProgramNo) : (s.taken p body).programSteps n = s.programSteps n := by simp [taken_eq]
@[simp] theorem taken_vocabEntry (v : VocabNo) : (s.taken p body).vocabEntry v = s.vocabEntry v := by simp [taken_eq]
@[simp] theorem taken_source (m : SourceNo) : (s.taken p body).source m = s.source m := by simp [taken_eq]
@[simp] theorem taken_channel (j : ChannelNo) : (s.taken p body).channel j = s.channel j := by simp [taken_eq]
@[simp] theorem taken_slotOf (h : HighwayChannel) : (s.taken p body).slotOf h = s.slotOf h := by simp [taken_eq]
@[simp] theorem taken_modeOf (h : HighwayChannel) : (s.taken p body).modeOf h = s.modeOf h := by simp [taken_eq]
@[simp] theorem taken_device : (s.taken p body).device = s.device := by simp [taken_eq]
@[simp] theorem taken_ram : (s.taken p body).ram = s.ram := by simp [taken_eq]
@[simp] theorem taken_seed : (s.taken p body).seed = s.seed := by simp [taken_eq]
@[simp] theorem taken_taps : (s.taken p body).taps = s.taps := by simp [taken_eq]
@[simp] theorem taken_generator : (s.taken p body).generator = s.generator := by simp [taken_eq]
@[simp] theorem taken_waitList : (s.taken p body).waitList = s.waitList := by simp [taken_eq]
@[simp] theorem taken_seqCounter : (s.taken p body).seqCounter = s.seqCounter := by simp [taken_eq]
@[simp] theorem taken_idleByte : (s.taken p body).idleByte = s.idleByte := by simp [taken_eq]
@[simp] theorem taken_callTriggers : (s.taken p body).callTriggers = s.callTriggers := by simp [taken_eq]
@[simp] theorem taken_agentTriggers : (s.taken p body).agentTriggers = s.agentTriggers := by simp [taken_eq]
@[simp] theorem taken_sweepWaiting : (s.taken p body).sweepWaiting = s.sweepWaiting := by simp [taken_eq]
@[simp] theorem taken_segments : (s.taken p body).segments = s.segments := by simp [taken_eq]
@[simp] theorem taken_sources : (s.taken p body).sources = s.sources := by simp [taken_eq]
@[simp] theorem taken_channels : (s.taken p body).channels = s.channels := by simp [taken_eq]
@[simp] theorem taken_slotMap : (s.taken p body).slotMap = s.slotMap := by simp [taken_eq]
@[simp] theorem taken_notices (q : Port) : ((s.taken p body).port q).notices = (s.port q).notices := by
  rw [taken_eq, State.setPort_port]
  split <;> simp_all
@[simp] theorem taken_owed (q : Port) : ((s.taken p body).port q).owed = (s.port q).owed := by
  rw [taken_eq, State.setPort_port]
  split <;> simp_all
@[simp] theorem taken_hasRoom (q : Port) : (s.taken p body).hasRoom q = s.hasRoom q := by simp [State.hasRoom]
/-- Taking a request leaves all but the transaction side of its port. -/
theorem taken_base : KeepsBase s (s.taken p body) := by
  rw [taken_eq]
  constructor <;> simp

end

/-! ### What the answer of a request leaves -/

section
variable (p : Port) (r : Reply)

/-- The answer leaves all but the port's slot and response. -/
theorem answer_eq : State.answer p r = r.state.setPort p
    { r.state.port p with slot := .responseReady, response := responseRecord r.result r.content } := rfl

@[simp] theorem answer_agent (a : AgentSlot) : (State.answer p r).agent a = r.state.agent a := by simp [answer_eq]
@[simp] theorem answer_group (g : Group) : (State.answer p r).group g = r.state.group g := by simp [answer_eq]
@[simp] theorem answer_call (c : CallSlot) : (State.answer p r).call c = r.state.call c := by simp [answer_eq]
@[simp] theorem answer_notices (q : Port) : ((State.answer p r).port q).notices = (r.state.port q).notices := by
  rw [answer_eq, State.setPort_port]
  split <;> simp_all
@[simp] theorem answer_owed (q : Port) : ((State.answer p r).port q).owed = (r.state.port q).owed := by
  rw [answer_eq, State.setPort_port]
  split <;> simp_all
theorem answer_base : KeepsBase r.state (State.answer p r) := by
  rw [answer_eq]
  constructor <;> simp

end

end Machine

end Sys2Proof
end

