-- ==== Sys2Proof/Laws/Layout.lean ====
section
/-! SUPPORT. Content read byte by byte: a record that is a row of fields holds each of them at the sum of the widths before it. -/
namespace Sys2Proof.Machine

theorem numberOf_append (l m : List Byte) : numberOf (l ++ m) = numberOf l * 256 ^ m.length + numberOf m := by
  induction m using List.reverseRecOn with
  | nil => simp [numberOf]
  | append_singleton m b ih =>
    have one : ∀ k : List Byte, numberOf (k ++ [b]) = 256 * numberOf k + b.toNat := fun k => by
      simp [numberOf, List.foldl_append]
    rw [← List.append_assoc, one, one, ih, List.length_append, List.length_singleton, pow_succ]
    ring

theorem numberOf_bytesBE (k n : Nat) : numberOf (bytesBE k n) = n % 256 ^ k := by
  induction k generalizing n with
  | zero => simp [bytesBE, numberOf, Nat.mod_one]
  | succ k ih =>
    rw [bytesBE, numberOf_append, ih]
    simp only [List.length_singleton, pow_one, numberOf, List.foldl_cons, List.foldl_nil, mul_zero, zero_add,
      BitVec.toNat_ofNat]
    rw [pow_succ' 256 k, Nat.mod_mul]
    omega

theorem numberOf_field {k n : Nat} (h : n < 256 ^ k) : numberOf (field k n) = n := by
  rw [field, if_pos h, numberOf_bytesBE, Nat.mod_eq_of_lt h]

/-- A field after `pre` bytes. -/
theorem fieldAt_field (pre post : List Byte) (k x : Nat) : FieldAt (pre ++ (field k x ++ post)) pre.length k x := by
  refine ⟨by simp, fun h => ?_⟩
  rw [List.drop_left, List.take_append_of_le_length (by simp), List.take_of_length_le (by simp), numberOf_field h]

/-- A row of fields, each its width and its number. -/
def pack (l : List (Nat × Nat)) : List Byte := l.flatMap fun e => field e.1 e.2

/-- The offsets of a row of fields that begins at `i`. -/
def offsets : Nat → List (Nat × Nat) → List (Nat × Nat × Nat)
  | _, [] => []
  | i, (k, x) :: rest => (i, k, x) :: offsets (i + k) rest

theorem pack_length (l : List (Nat × Nat)) : (pack l).length = (l.map Prod.fst).sum := by
  induction l with
  | nil => rfl
  | cons e l ih =>
    have : pack (e :: l) = field e.1 e.2 ++ pack l := rfl
    rw [this, List.length_append, ih, field_length]
    rfl

/-- A row of fields holds each of them at its offset. -/
theorem fieldsAt_pack (pre post : List Byte) (l : List (Nat × Nat)) :
    FieldsAt (pre ++ (pack l ++ post)) (offsets pre.length l) := by
  induction l generalizing pre with
  | nil => intro e he; cases he
  | cons e l ih =>
    obtain ⟨k, x⟩ := e
    have hp : pre ++ (pack ((k, x) :: l) ++ post) = pre ++ (field k x ++ (pack l ++ post)) := by
      simp [pack]
    intro f hf
    rcases List.mem_cons.mp hf with rfl | hf
    · rw [hp]
      exact fieldAt_field pre _ k x
    · have := ih (pre ++ field k x)
      rw [List.append_assoc, ← hp, List.length_append, field_length] at this
      exact this f hf

/-- The same from the first byte on. -/
theorem fieldsAt_whole (post : List Byte) (l : List (Nat × Nat)) : FieldsAt (pack l ++ post) (offsets 0 l) :=
  fieldsAt_pack [] post l

theorem FieldsAt.sub {c : List Byte} {l m : List (Nat × Nat × Nat)} (h : FieldsAt c m) (k : ∀ e ∈ l, e ∈ m) : FieldsAt c l :=
  fun e he => h e (k e he)

end Sys2Proof.Machine
end

