-- ==== Sys2Proof/Laws/Memory.lean ====
section
/-! SUPPORT. The sample RAM: a write is read back, leaves every other byte, and keeps the canonical form. -/
namespace Sys2Proof.Machine

theorem Memory.read_of_lt {low : Nat} {m : List Host.Cell} (h : Memory.wfFrom low m = true) {a : Nat} (ha : a < low) :
    Memory.read m a = 0 := by
  induction m generalizing low with
  | nil => rfl
  | cons e rest ih =>
    obtain ⟨b, v⟩ := e
    simp only [Memory.wfFrom, Bool.and_eq_true, decide_eq_true_eq] at h
    simp only [Memory.read]
    rw [if_neg (by omega)]
    exact ih h.2 (by omega)

theorem Memory.wfFrom_le {low low' : Nat} {m : List Host.Cell} (h : Memory.wfFrom low m = true) (hl : low' ≤ low) :
    Memory.wfFrom low' m = true := by
  cases m with
  | nil => rfl
  | cons e rest =>
    obtain ⟨b, v⟩ := e
    simp only [Memory.wfFrom, Bool.and_eq_true, decide_eq_true_eq] at h ⊢
    exact ⟨⟨⟨by omega, h.1.1.2⟩, h.1.2⟩, h.2⟩

/-- A write of a byte inside the RAM keeps the canonical form. -/
theorem Memory.wfFrom_write {low : Nat} {m : List Host.Cell} (h : Memory.wfFrom low m = true) {a : Nat} (v : Byte)
    (hl : low ≤ a) (ha : a < Config.ramBytes) : Memory.wfFrom low (Memory.write m a v) = true := by
  induction m generalizing low with
  | nil =>
    simp only [Memory.write]
    split
    · rfl
    · next hv => simpa [Memory.wfFrom, hl, ha] using hv
  | cons e rest ih =>
    obtain ⟨b, w⟩ := e
    have h0 := h
    simp only [Memory.wfFrom, Bool.and_eq_true, decide_eq_true_eq] at h
    obtain ⟨⟨⟨h1, h2⟩, h3⟩, h4⟩ := h
    simp only [Memory.write]
    split
    · split
      · exact h0
      · next hab hv =>
        have : Memory.wfFrom (a + 1) ((b, w) :: rest) = true := by
          simp only [Memory.wfFrom, Bool.and_eq_true, decide_eq_true_eq]
          exact ⟨⟨⟨by omega, h2⟩, h3⟩, h4⟩
        simp [Memory.wfFrom, hl, ha] at this ⊢
        exact ⟨hv, this⟩
    · split
      · next hab =>
        split
        · exact Memory.wfFrom_le h4 (by omega)
        · next hv =>
          simp only [Memory.wfFrom, Bool.and_eq_true, decide_eq_true_eq]
          refine ⟨⟨⟨hl, ha⟩, by simpa using hv⟩, ?_⟩
          rw [hab]
          exact h4
      · simp only [Memory.wfFrom, Bool.and_eq_true, decide_eq_true_eq]
        exact ⟨⟨⟨h1, h2⟩, h3⟩, ih h4 (by omega)⟩

theorem Memory.wf_write {m : List Host.Cell} (h : Memory.wf m = true) {a : Nat} (v : Byte) (ha : a < Config.ramBytes) :
    Memory.wf (Memory.write m a v) = true := Memory.wfFrom_write h v (by omega) ha

/-- Bytes written inside the RAM keep the canonical form. -/
theorem Memory.wf_writeBytes {m : List Host.Cell} (h : Memory.wf m = true) (a : Nat) (l : List Byte)
    (ha : a + l.length ≤ Config.ramBytes) : Memory.wf (Memory.writeBytes m a l) = true := by
  induction l generalizing m a with
  | nil => exact h
  | cons v l ih =>
    simp only [List.length_cons] at ha
    exact ih (Memory.wf_write h v (by omega)) (a + 1) (by omega)

/-- What any address reads after a write: the byte written at its address, the old byte elsewhere. -/
theorem Memory.read_write {low : Nat} {m : List Host.Cell} (h : Memory.wfFrom low m = true) (a b : Nat) (v : Byte) :
    Memory.read (Memory.write m a v) b = if b = a then v else Memory.read m b := by
  induction m generalizing low with
  | nil =>
    simp only [Memory.write]
    split
    · simp [Memory.read, *]
    · simp only [Memory.read]
      simp [eq_comm]
  | cons e rest ih =>
    obtain ⟨c, w⟩ := e
    simp only [Memory.wfFrom, Bool.and_eq_true, decide_eq_true_eq] at h
    obtain ⟨⟨⟨h1, h2⟩, h3⟩, h4⟩ := h
    have hrest : ∀ x, x ≤ c → Memory.read rest x = 0 := fun x hx => Memory.read_of_lt h4 (by omega)
    simp only [Memory.write]
    split
    · next hac =>
      split
      · next hv =>
        by_cases hb : b = a
        · subst hb
          simp only [Memory.read, if_pos]
          rw [if_neg (by omega), hrest b (by omega), hv]
        · simp [hb]
      · simp only [Memory.read, eq_comm (a := a)]
    · split
      · next hac =>
        subst hac
        split
        · next hv =>
          by_cases hb : b = a
          · subst hb
            simp [hrest, hv]
          · simp [Memory.read, hb, eq_comm (a := a)]
        · by_cases hb : b = a
          · simp [Memory.read, hb]
          · simp [Memory.read, hb, eq_comm (a := a)]
      · simp only [Memory.read, ih h4]
        by_cases hb : c = b
        · rw [if_pos hb, if_neg (by omega), if_pos hb]
        · rw [if_neg hb, if_neg hb]

/-- What any address reads after bytes are written from an address upward. -/
theorem Memory.read_writeBytes {m : List Host.Cell} (h : Memory.wf m = true) (a : Nat) (l : List Byte)
    (ha : a + l.length ≤ Config.ramBytes) (b : Nat) :
    Memory.read (Memory.writeBytes m a l) b = if a ≤ b ∧ b < a + l.length then l.getD (b - a) 0 else Memory.read m b := by
  induction l generalizing m a with
  | nil =>
    simp only [Memory.writeBytes, List.length_nil]
    rw [if_neg (by omega)]
  | cons v l ih =>
    simp only [List.length_cons] at ha ⊢
    simp only [Memory.writeBytes]
    rw [ih (Memory.wf_write h v (by omega)) (a + 1) (by omega), Memory.read_write h]
    by_cases h1 : b = a
    · subst h1
      rw [if_neg (by omega), if_pos rfl, if_pos (by omega)]
      simp
    · by_cases h2 : a + 1 ≤ b ∧ b < a + 1 + l.length
      · rw [if_pos h2, if_pos (by omega)]
        obtain ⟨k, hk⟩ : ∃ k, b - a = k + 1 := ⟨b - a - 1, by omega⟩
        rw [hk, List.getD_cons_succ]
        congr 1
        omega
      · rw [if_neg h2, if_neg h1, if_neg (by omega)]

end Sys2Proof.Machine
end

