-- ==== Sys2Proof/Laws/Roster.lean ====
section
/-! SUPPORT. A change of an agent's record, said once: everything `changeAgent` and `moveAgent` do. -/
namespace Sys2Proof.Machine

/-! ### The AGENT_STATE notice (R23, R24, R187) -/

section
variable (s : State) (a : AgentSlot)

theorem handAgentState_agent (b : AgentSlot) :
    (s.handAgentState a).agent b =
      if b = a then { s.agent a with owed := (s.agent a).owed || !s.hasRoom (portOf (s.agent a).home) } else s.agent b := by
  unfold State.handAgentState
  dsimp only
  by_cases hb : b = a
  · subst hb
    cases hr : s.hasRoom (portOf (s.agent b).home)
    · cases ho : (s.agent b).owed
      · simp [State.appendOwed, State.modPort]
      · simp only [Bool.false_eq_true, ↓reduceIte, Bool.not_false, Bool.or_self]
        rw [← ho]
    · simp [State.pushNotice, State.modPort]
  · simp only [hb, ↓reduceIte]
    split
    · simp [State.pushNotice, State.modPort]
    · split
      · rfl
      · simp [State.appendOwed, State.modPort, State.setAgent_agent, hb]

theorem handAgentState_port (q : Port) :
    (s.handAgentState a).port q =
      if q = portOf (s.agent a).home then
        { s.port q with
          notices := if s.hasRoom q then (s.port q).notices ++ [s.agentNotice a] else (s.port q).notices
          owed := if s.hasRoom q || (s.agent a).owed then (s.port q).owed else (s.port q).owed ++ [.agentState a] }
      else s.port q := by
  unfold State.handAgentState
  dsimp only
  by_cases hq : q = portOf (s.agent a).home
  · subst hq
    cases hr : s.hasRoom (portOf (s.agent a).home) <;> cases ho : (s.agent a).owed <;>
      simp [State.pushNotice, State.appendOwed, State.modPort]
  · simp only [hq, ↓reduceIte]
    split
    · simp [State.pushNotice, State.modPort, State.setPort_port, hq]
    · split
      · rfl
      · simp [State.appendOwed, State.modPort, State.setPort_port, hq]

/-- Only agents and shelf ports differ. -/
theorem handAgentState_rest :
    s.handAgentState a =
      { s with
        agents := (s.handAgentState a).agents, portA := (s.handAgentState a).portA, portB := (s.handAgentState a).portB } := by
  unfold State.handAgentState
  dsimp only
  cases (s.agent a).home <;> (split; rfl; split <;> rfl)

end

/-! ### A change of an agent -/

theorem withRosterOf_trans {s t u : State} (h : t = s.withRosterOf t) (k : u = t.withRosterOf u) : u = s.withRosterOf u := by
  rw [h] at k
  exact k

theorem writeAgent_roster (s : State) (a : AgentSlot) (new : AgentRec) :
    s.writeAgent a new = s.withRosterOf (s.writeAgent a new) := by
  have h := (writeAgent_staff s a new).rest
  generalize s.writeAgent a new = t at h ⊢
  rw [h]
  rfl

theorem handAgentState_roster (s : State) (a : AgentSlot) : s.handAgentState a = s.withRosterOf (s.handAgentState a) := by
  have h := handAgentState_rest s a
  generalize s.handAgentState a = t at h ⊢
  rw [h]
  rfl

theorem changeAgent_roster (s : State) (a : AgentSlot) (new : AgentRec) (quiet : Bool) :
    s.changeAgent a new quiet = s.withRosterOf (s.changeAgent a new quiet) := by
  unfold State.changeAgent
  dsimp only
  split
  · exact writeAgent_roster s a new
  · exact withRosterOf_trans (writeAgent_roster s a new) (handAgentState_roster _ a)

theorem portOf_ne_s (x : Shelf) : portOf x ≠ .s := by cases x <;> simp [portOf]

/-- The notice that the change of a record hands is the record's as the statements spell it (R23, R126). -/
theorem agentNotice_eq (s : State) (a : AgentSlot) : s.agentNotice a = s.stateNotice a (s.agent a) := rfl

theorem noStaffCondition_eq (s : State) (g : Group) : s.noStaffCondition g = s.noStaffHolds g := rfl

theorem stateNotice_congr {s t : State} (hc : t.calls = s.calls) (hk : t.clock = s.clock) (a : AgentSlot) (r : AgentRec) :
    t.stateNotice a r = s.stateNotice a r := by
  simp only [State.stateNotice, hk, show t.call = s.call from by funext c; simp [State.call, hc]]

theorem hasRoom_congr {s t : State} {q : Port} (h : (t.port q).notices = (s.port q).notices) : t.hasRoom q = s.hasRoom q := by
  simp [State.hasRoom, h]

theorem changeAgent_effect (s : State) (a : AgentSlot) (new : AgentRec) : AgentEffect s (s.changeAgent a new) a new := by
  have hw := writeAgent_staff s a new
  have ha : (s.writeAgent a new).agent a = new := by rw [writeAgent_agent, if_pos rfl]
  have hp : ∀ q, q ≠ .s → (s.writeAgent a new).port q = s.port q := fun q hq => hw.queues q hq
  have hroom : (s.writeAgent a new).hasRoom (portOf new.home) = s.hasRoom (portOf new.home) :=
    hasRoom_congr (by rw [hp _ (portOf_ne_s _)])
  have hcalls : (s.writeAgent a new).calls = s.calls := by rw [hw.rest]; rfl
  have hclock : (s.writeAgent a new).clock = s.clock := by rw [hw.rest]; rfl
  have hnotice : (s.writeAgent a new).agentNotice a = s.stateNotice a new := by
    rw [agentNotice_eq, ha, stateNotice_congr hcalls hclock]
  have hg : ∀ g, (s.changeAgent a new).group g = (s.group g).restaffed (s.agent a) new g := by
    intro g
    have : (s.changeAgent a new).groups = (s.writeAgent a new).groups := by
      simp only [State.changeAgent, Bool.false_eq_true, ↓reduceIte]
      rw [handAgentState_rest]
    simp only [State.group, this]
    exact writeAgent_group s a new g
  constructor
  · simp only [State.changeAgent, Bool.false_eq_true, ↓reduceIte, handAgentState_agent, ha, hroom]
  · intro b hb
    simp only [State.changeAgent, Bool.false_eq_true, ↓reduceIte, handAgentState_agent, hb, writeAgent_agent]
  · simp only [Handed, State.changeAgent, Bool.false_eq_true, ↓reduceIte, handAgentState_port, ha, hroom, hnotice,
      hp _ (portOf_ne_s _)]
  · simp only [State.changeAgent, Bool.false_eq_true, ↓reduceIte, handAgentState_port, ha, hroom, hp _ (portOf_ne_s _)]
  · intro q hq hs
    simp only [SameQueue, State.changeAgent, Bool.false_eq_true, ↓reduceIte, handAgentState_port, ha, hq, hp q hs]
    trivial
  · have h1 : WatchSide s (s.writeAgent a new) := ⟨hw.watch.notices, hw.watch.owed, hw.watch.raised, hw.watch.device⟩
    refine h1.trans ?_
    simp only [State.changeAgent, Bool.false_eq_true, ↓reduceIte]
    have hps : ((s.writeAgent a new).handAgentState a).port .s = (s.writeAgent a new).port .s := by
      rw [handAgentState_port, if_neg (fun e => portOf_ne_s _ e.symm)]
    have hd : ((s.writeAgent a new).handAgentState a).device = (s.writeAgent a new).device := by rw [handAgentState_rest]
    exact ⟨⟨[], by rw [hps]; simp⟩, by rw [hps, hd]; simp, by rw [hd]; exact id, by rw [hd]⟩
  · intro g
    rw [hg]
    unfold GroupRec.restaffed staffedAfter
    simp only [staffs_eq]
    split <;> simp_all
  · intro g h
    rw [staffs_eq, staffs_eq] at h
    rw [hg]
    simp [GroupRec.restaffed, h]
  · intro g h
    rw [staffs_eq, staffs_eq] at h
    have e := hg g
    simp only [GroupRec.restaffed, if_neg h] at e
    have hv : (s.changeAgent a new).noStaffHolds g =
        (!(s.group g).queue.isEmpty && staffedAfter (s.agent a) new g (s.group g).staffed == 0) := by
      simp only [State.noStaffHolds, e]
    rw [hv, e]
    rfl
  · exact changeAgent_roster s a new false

theorem changeAgent_agentTriggers (s : State) (a : AgentSlot) (new : AgentRec) :
    (s.changeAgent a new).agentTriggers = s.agentTriggers := by
  simp only [State.changeAgent, Bool.false_eq_true, ↓reduceIte]
  rw [handAgentState_rest, (writeAgent_staff s a new).rest]
  rfl

theorem moveAgent_change (s : State) (a : AgentSlot) (new : AgentRec) : AgentChange s (s.moveAgent a new) a new := by
  have h := changeAgent_effect s a new
  have ht := changeAgent_agentTriggers s a new
  unfold State.moveAgent
  dsimp only
  generalize s.changeAgent a new = t at h ht ⊢
  split
  · next hr =>
    unfold State.raiseAgentTrigger
    rw [ht]
    split
    · next ha => exact ⟨h, by simp [ht, ha]⟩
    · next ha =>
      refine ⟨⟨h.record, h.others, h.notice, h.owed, h.queues, ?_, h.staffed, h.kept, h.noStaff, ?_⟩, by simp [hr, ha]⟩
      · exact ⟨h.watch.notices, h.watch.owed, h.watch.raised, h.watch.device⟩
      · have hk := h.rest
        rw [hk]
        rfl
  · next hr => exact ⟨h, by simp [ht, hr]⟩

theorem setPort_roster (s : State) (p : Port) (r : PortRec) : s.setPort p r = s.withRosterOf (s.setPort p r) := by
  cases p <;> rfl

theorem taken_roster (s : State) (p : Port) (ps : List Byte) : s.taken p ps = s.withRosterOf (s.taken p ps) := by
  rw [taken_eq]
  exact setPort_roster ..

theorem answer_roster (p : Port) (r : Reply) : State.answer p r = r.state.withRosterOf (State.answer p r) := by
  rw [answer_eq]
  exact setPort_roster ..

/-- The whole of a request of an agent's change: from the state before the request to the state after its answer. -/
theorem AgentChange.request {s : State} {p : Port} {ps : List Byte} {r : Reply} {a : AgentSlot} {new : AgentRec}
    (h : AgentChange (s.taken p ps) r.state a new) : AgentChange s (State.answer p r) a new := by
  have hroom := taken_hasRoom s p ps (portOf new.home)
  have hname : (s.taken p ps).stateNotice a new = s.stateNotice a new :=
    stateNotice_congr (taken_calls s p ps) (taken_clock s p ps) a new
  have hv : ∀ g, (State.answer p r).noStaffHolds g = r.state.noStaffHolds g := by
    intro g; simp [State.noStaffHolds]
  have hd : (State.answer p r).device = r.state.device := by simp [answer_eq]
  refine ⟨⟨?_, ?_, ?_, ?_, ?_, ?_, ?_, ?_, ?_, ?_⟩, ?_⟩
  · rw [answer_agent, h.record, hroom]
  · intro b hb; rw [answer_agent, h.others b hb, taken_agent]
  · have := h.notice
    simp only [Handed, taken_notices, hroom, hname] at this
    simp only [Handed, answer_notices, this]
  · rw [answer_owed, h.owed, hroom, taken_owed]
  · intro q hq hs
    have := h.queues q hq hs
    exact ⟨by rw [answer_notices, this.1, taken_notices], by rw [answer_owed, this.2, taken_owed]⟩
  · obtain ⟨⟨l, hl⟩, ho, hr, hdv⟩ := h.watch
    refine ⟨⟨l, by rw [answer_notices, hl, taken_notices]⟩, ?_, ?_, ?_⟩
    · rw [answer_owed, ho, taken_owed, taken_device, hd]
    · rw [hd]; simpa using hr
    · rw [hd]; simpa using hdv
  · intro g; rw [answer_group, h.staffed, taken_group, taken_agent]
  · intro g hg; rw [answer_group, h.kept g (by simpa using hg), taken_group]
  · intro g hg
    have := h.noStaff g (by simpa using hg)
    rw [answer_group, this, hv, taken_group, this]
  · exact withRosterOf_trans (withRosterOf_trans (taken_roster s p ps) h.rest) (answer_roster p r)
  · have := h.trigger
    simp only [taken_agentTriggers] at this
    simpa [answer_eq] using this

end Sys2Proof.Machine
end

