-- ==== Sys2Proof/Laws/Wraps.lean ====
section
/-! SUPPORT. The wraps and the announcements that are due when a command is taken: what every command but their own expiries finds. -/
namespace Sys2Proof.Machine

/-- No pending change leads to WRAP (R20). -/
theorem freed_not_wrap (r : AgentRec) (n : Nat) : (r.freed n).state ≠ .wrap := by
  unfold AgentRec.freed; split <;> simp [AgentRec.toReady, AgentRec.toAux, AgentRec.toSignedOut]

/-- Where the pending change leads, as the statements spell it. -/
theorem freed_eq (r : AgentRec) (now : Nat) : r.freed now = r.afterPending now := by
  unfold AgentRec.freed AgentRec.afterPending
  cases r.pending <;> rfl

/-- The end of a wrap touches the record of its agent alone (R120). -/
theorem endWrap_agent (s : State) (a b : AgentSlot) : ∃ o, (s.endWrap a false).agent b =
   if b = a then {(s.agent a).freed s.clock with owed := o} else s.agent b := by
  unfold State.endWrap
  dsimp only
  split
  · have h := moveAgent_change (s.takeSample (s.agent a).wrap.group ((s.agent a).wrap.talk + (s.clock - (s.agent a).wrap.start))) a ((s.agent a).freed s.clock)
    by_cases hb : b = a
    · subst hb; simp only [↓reduceIte, Bool.false_eq_true]; exact ⟨_, h.record⟩
    · simp only [hb, ↓reduceIte, Bool.false_eq_true]; exact ⟨false, h.others b hb⟩
  · have h := moveAgent_change s a ((s.agent a).freed s.clock)
    by_cases hb : b = a
    · subst hb; simp only [↓reduceIte, Bool.false_eq_true]; exact ⟨_, h.record⟩
    · simp only [hb, ↓reduceIte, Bool.false_eq_true]; exact ⟨false, h.others b hb⟩

/-- The expiry of a due wrap touches the record of its agent alone. -/
theorem expireWrap_agent (s : State) (a b : AgentSlot) : (b ≠ a → (s.expireWrap a).agent b = s.agent b) ∧
   (s.wrapDue a = true → ∃ o, (s.expireWrap a).agent a = {(s.agent a).freed s.clock with owed := o}) := by
  unfold State.expireWrap
  obtain ⟨o, h⟩ := endWrap_agent s a b
  obtain ⟨o', h'⟩ := endWrap_agent s a a
  constructor
  · intro hb; split
    · rw [h, if_neg hb]
    · rfl
  · intro hd; rw [if_pos hd]; exact ⟨o', by rw [h', if_pos rfl]⟩

/-- Due wraps that expire one after another. -/
theorem fold_wraps (l : List AgentSlot) (hl : l.Nodup) (s : State) (hd : ∀ a ∈ l, s.wrapDue a = true) (a : AgentSlot) :
   (a ∉ l → (l.foldl State.expireWrap s).agent a = s.agent a) ∧
   (a ∈ l → ∃ o, (l.foldl State.expireWrap s).agent a = {(s.agent a).freed s.clock with owed := o}) := by
  induction l generalizing s with
  | nil => simp
  | cons b l ih =>
    rw [List.nodup_cons] at hl
    have hclock : (s.expireWrap b).clock = s.clock := (expireWrap_moves (ties := false) s b).base.clock
    have hk : ∀ c, c ≠ b → (s.expireWrap b).agent c = s.agent c := fun c hc => (expireWrap_agent s b c).1 hc
    have hd' : ∀ c ∈ l, (s.expireWrap b).wrapDue c = true := by
      intro c hc
      have hne : c ≠ b := by rintro rfl; exact hl.1 hc
      have := hd c (by simp [hc])
      simpa [State.wrapDue, hk c hne, hclock] using this
    have := ih hl.2 (s.expireWrap b) hd'
    rw [List.foldl_cons]
    constructor
    · intro hn
      simp only [List.mem_cons, not_or] at hn
      rw [this.1 hn.2, hk a hn.1]
    · intro hm
      rcases List.mem_cons.mp hm with rfl | hm'
      · rw [this.1 hl.1]
        exact (expireWrap_agent s a a).2 (hd a (by simp))
      · have hne : a ≠ b := by rintro rfl; exact hl.1 hm'
        have := this.2 hm'
        rw [hk a hne, hclock] at this
        exact this

/-- What `wrapsEnded` leaves: no wrap is due, the agents whose wraps were due are where their pending changes lead, and no other has moved. -/
theorem wrapsEnded_facts (s : State) : WrapsOver s.wrapsEnded
    ∧ (∀ a, ¬((s.agent a).state = .wrap ∧ (s.agent a).wrap.finish ≤ s.clock) → s.wrapsEnded.agent a = s.agent a)
    ∧ (∀ a, (s.agent a).state = .wrap → (s.agent a).wrap.finish ≤ s.clock →
        ∃ owed, s.wrapsEnded.agent a = { (s.agent a).afterPending s.clock with owed := owed }) := by
  have hm : ∀ a, a ∈ s.dueWraps ↔ s.wrapDue a = true := by
    intro a; unfold State.dueWraps; rw [mem_findAll]; rfl
  have hclock : s.wrapsEnded.clock = s.clock := (wrapsEnded_moves (ties := false) s).base.clock
  have h := fold_wraps s.dueWraps (findAll_nodup _ _) s (fun a => (hm a).mp)
  have h1 : ∀ a, s.wrapDue a = false → s.wrapsEnded.agent a = s.agent a := by
    intro a ha; exact (h a).1 (by rw [hm]; simp [ha])
  have h2 : ∀ a, s.wrapDue a = true → ∃ owed, s.wrapsEnded.agent a = { (s.agent a).freed s.clock with owed := owed } := by
    intro a ha; exact (h a).2 ((hm a).mpr ha)
  refine ⟨fun a => (wrapDue_eq_false_iff _ a).mp ?_, fun a ha => h1 a ((wrapDue_eq_false_iff s a).mpr ha),
    fun a hs hf => ?_⟩
  · cases ha : s.wrapDue a
    · simpa [State.wrapDue, h1 a ha, hclock] using ha
    · obtain ⟨o, e⟩ := h2 a ha
      have : (s.wrapsEnded.agent a).state ≠ .wrap := by rw [e]; exact freed_not_wrap _ _
      simp [State.wrapDue, this]
  · rw [← freed_eq]
    exact h2 a ((wrapDue_iff s a).mpr ⟨hs, hf⟩)

/-- An announcement that falls due is the work of playout alone. -/
theorem announce_play (s : State) (c : CallSlot) : PlayMoves (fun _ => True) true s (s.announce c) := by
  unfold State.announce
  split
  · exact .refl _ _ s
  · split
    · exact .refl _ _ s
    · split
      · dsimp only
        have hm := modCall_play (C := fun _ => True) (W := true) s (c := c) (fun k => { k with nextDue := none }) trivial (fun _ => rfl)
          (fun _ => rfl)
        split
        · exact hm.trans ((joinWaitList_play _ _ trivial rfl).trans (arbitrate_play _ (fun _ _ => trivial) rfl))
        · exact hm.trans ((joinWaitList_play _ _ trivial rfl).trans (arbitrate_play _ (fun _ _ => trivial) rfl))
        · exact hm
        · exact hm
      · exact .refl _ _ s

/-- So are all that fall due together: agents, groups, clock and triggers are as the wraps have left them. -/
theorem settled_off (s : State) : OffPlayout s.wrapsEnded s.settled :=
  (PlayMoves.foldl _ (fun s c _ => announce_play s c) _).off

/-- The arbiter leaves no FREE channel while a call waits (R170). -/
theorem arbitrateUpTo_arbitrated (n : Nat) (s : State) (h : s.waitList.length ≤ n) : Arbitrated (State.arbitrateUpTo n s) := by
  induction n generalizing s with
  | zero => exact .inl (List.eq_nil_of_length_eq_zero (Nat.le_zero.mp h))
  | succ n ih =>
    unfold State.arbitrateUpTo
    split
    · next e rest j hl hf =>
      have hw : (s.leaveWaitList e.call).waitList.length ≤ n := by
        rw [leaveWaitList_waitList, hl, List.filter_cons_of_neg (by simp)]
        rw [hl, List.length_cons] at h
        exact (List.length_filter_le _ _).trans (by omega)
      dsimp only
      split
      · exact ih _ hw
      · split
        · exact ih _ hw
        · refine ih _ ?_
          rw [(grant_play (C := fun c => c = e.call) (W := false) (s.leaveWaitList e.call) j _ rfl).waitList]
          exact hw
    · next hno =>
      cases hl : s.waitList with
      | nil => exact .inl hl
      | cons e rest =>
        refine .inr fun j hj => ?_
        cases hf : s.freeChannel with
        | some i => exact hno e rest i hl hf
        | none =>
          have := head_findAll_none Option.isNone s.channels hf j
          rw [show s.channels.get j = none from hj] at this
          cases this

theorem arbitrate_arbitrated (s : State) : Arbitrated s.arbitrate := arbitrateUpTo_arbitrated _ s (Nat.le_refl _)

end Sys2Proof.Machine
end

