-- ==== Sys2Proof/Tests/Slice0.lean ====
section
/-! SUPPORT. Tests: the check of well-formedness, the manual's worked examples, one small step of each command, and for each statement a
state and operands that meet its hypotheses. -/
set_option Elab.async false
namespace Sys2Proof.Tests
open Sys2Proof.Machine

/-! ### Helpers -/

/-- The state that a command leads to; no command of the part stops. -/
def after (c : Instr) (s : State) : State :=
  match exec c s with
  | .next t => t
  | _ => s

/-- The result byte that waits on a port. -/
def result (p : Port) (s : State) : Option Byte := (s.port p).response.head?

/-- An agent's record: agent of shelf A with level 5 for group 3. -/
def agentRec (st : AgentState) : AgentRec := { defined := true, home := .a, skills := [⟨3, 5⟩], state := st }

/-- A call of shelf B with tag 0x0B01 in group 3. -/
def callRec (st : CallState) : CallRec := { owner := .b, tag := 0x0B01, state := st, group := 3 }

/-- Group 3, open, with a wrap time, a queue and offers in progress. -/
def open3 (queue : List CallSlot) (offers : Nat) : GroupRec := { supervisorClosed := false, queue := queue, offers := offers }

/-- The part with agent 5 in one of its states, the call it is bound to in slot 7, and group 3 open. -/
def office (st : AgentState) : State :=
  let s := (State.reset.setGroup 3 (open3 [] 0)).setAgent 5 (agentRec st)
  match st with
  | .offered =>
    ((s.setAgent 5 { agentRec st with boundCall := some 7 }).putCall 7
      (some { callRec .offered with boundAgent := some 5, ring := some 20 })).setGroup 3 (open3 [7] 1)
  | .connected =>
    (s.setAgent 5 { agentRec st with boundCall := some 7 }).putCall 7 (some { callRec .connected with boundAgent := some 5 })
  | .wrap => s.setAgent 5 { agentRec st with wrap := { start := 0, finish := 30, cap := 300, group := 3, talk := 200 } }
  | _ => s

/-- The part with call 7 QUEUED in group 3, and no agent. -/
def waiting : State := (State.reset.setGroup 3 (open3 [7] 0)).putCall 7 (some { callRec .queued with overflowDue := some 0 })

/-- No agent's record is in WRAP past its wrap end. -/
def wrapsB (s : State) : Bool := s.agents.toList.all fun r => !(r.state == .wrap && decide (r.wrap.finish ≤ s.clock))

/-- No call's next announcement due has been reached. -/
def announcementsB (s : State) : Bool := s.calls.toList.all fun o => o.all fun r => r.nextDue.all fun e => decide (s.clock < e)

def calmB (s : State) : Bool := wrapsB s && announcementsB s

def takesB (s : State) (k : Kind) (p : Port) (ps : List Byte) : Bool :=
  calmB s && (s.port p).slot == .idle && lengthOk k p ps && permitted k p

theorem all_table {α : Type} {n : Nat} (v : Vector α n) (f : α → Bool) : (∀ i, f (v.get i) = true) ↔ v.toList.all f = true := by
  simp only [List.all_eq_true, List.forall_mem_iff_getElem, Vector.length_toList, Vector.getElem_toList]
  exact ⟨fun h i hi => h ⟨i, hi⟩, fun h i => h i.val i.isLt⟩

theorem wraps_iff (s : State) : WrapsOver s ↔ wrapsB s = true := by
  unfold wrapsB
  rw [← all_table]
  unfold WrapsOver
  refine forall_congr' fun a => ?_
  rw [Bool.not_eq_true']
  exact (wrapDue_eq_false_iff s a).symm

theorem announcements_iff (s : State) : AnnouncementsTaken s ↔ announcementsB s = true := by
  unfold announcementsB
  rw [← all_table]
  unfold AnnouncementsTaken
  refine forall_congr' fun c => ?_
  change _ ↔ Option.all _ (s.call c) = true
  cases s.call c with
  | none => simp
  | some r =>
    constructor
    · intro H
      cases h : r.nextDue with
      | none => simp [h]
      | some e => simpa [h] using H r e rfl h
    · intro H k e hk he
      cases hk
      simpa [he] using H

theorem calm_iff (s : State) : Calm s ↔ calmB s = true := by
  unfold calmB
  rw [Bool.and_eq_true, ← wraps_iff, ← announcements_iff]
  exact ⟨fun h => ⟨h.wraps, h.announcements⟩, fun h => ⟨h.1, h.2⟩⟩

theorem takes_iff (s : State) (k : Kind) (p : Port) (ps : List Byte) : Takes s k p ps ↔ takesB s k p ps = true := by
  simp only [takesB, Bool.and_eq_true, beq_iff_eq, ← calm_iff]
  exact ⟨fun h => ⟨⟨⟨h.calm, h.idle⟩, h.length⟩, h.port⟩, fun h => ⟨h.1.1.1, h.1.1.2, h.1.2, h.2⟩⟩

theorem acts_iff (s : State) (k : Kind) (p : Port) (ps : List Byte) (a : AgentSlot) :
    ActsOn s k p ps a ↔ (u16 ps 0 = a.val ∧ (s.agent a).defined = true)
      ∧ (k = .forceAux ∨ k = .forceSignOut ∨ p = portOf (s.agent a).home) :=
  ⟨fun h => ⟨⟨h.names, h.defined⟩, h.home⟩, fun h => ⟨⟨h.1.1, h.1.2⟩, h.2⟩⟩

theorem names_iff (s : State) (ps : List Byte) (a : AgentSlot) :
    Names s ps a ↔ u16 ps 0 = a.val ∧ (s.agent a).defined = true := ⟨fun h => ⟨h.names, h.defined⟩, fun h => ⟨h.1, h.2⟩⟩

/-- No call but `c` has the owner and the tag. -/
def loneB (s : State) (c : CallSlot) (x : Shelf) (t : Tag) : Bool :=
  ((s.putCall c none).calls).toList.all fun o => !o.any fun q => q.owner == x && q.tag == t

theorem lone_of {s : State} {c : CallSlot} {x : Shelf} {t : Tag} (h : loneB s c x t = true) (d : CallSlot) (q : CallRec)
    (e : s.call d = some q) (ho : q.owner = x) (ht : q.tag = t) : d = c := by
  by_contra hd
  have h2 := (all_table _ _).mpr h d
  have h3 : (s.putCall c none).calls.get d = some q := by
    have : (s.putCall c none).call d = s.call d := by simp [State.putCall_call, hd]
    rw [e] at this; exact this
  rw [h3] at h2
  simp [ho, ht] at h2

/-! ### The check of well-formedness -/

/-- RESPONSE_READ without a type byte, or with a request write's, is refused; with any other it is well formed. -/
theorem test_well_formed_transaction : Instr.wellFormed (.responseRead .a []) = false
    ∧ Instr.wellFormed (.responseRead .a [0x02, 0]) = false ∧ Instr.wellFormed (.responseRead .a [0x03, 0]) = true
    ∧ Instr.wellFormed (.responseRead .a [0x01]) = true := by decide

/-- UNKNOWN_REQUEST_KIND with a record of a known kind is refused; with any other record it is well formed. -/
theorem test_well_formed : Instr.wellFormed (.unknownRequestKind .a [0x10, 0, 2, 0, 5]) = false
    ∧ Instr.wellFormed (.unknownRequestKind .a [0xFF, 0, 0]) = true ∧ Instr.wellFormed (.unknownRequestKind .a []) = true := by decide

/-! ### The manual's worked examples -/

/-- R87: the generator from 0xACE1 with taps 0xD008. -/
theorem test_generator : State.nextGenerator 0xD008 0xACE1 = 0x59C3 ∧ State.nextGenerator 0xD008 0x59C3 = 0xB386
    ∧ State.nextGenerator 0xD008 0xB386 = 0x670C ∧ State.nextGenerator 0x8000 0x8000 = 1
    ∧ State.nextGenerator 0x0001 0x8000 = 1 := by decide +kernel

/-- Chapter 7: a group's average through four samples, and one that stays. -/
theorem test_averages : newAverage none 3 235 = 3760 ∧ newAverage (some 3760) 3 346 = 3982 ∧ newAverage (some 3982) 3 100 = 3685
    ∧ newAverage (some 3685) 3 0 = 3227 ∧ newAverage (some 1606) 3 100 = 1606 ∧ newAverage none 3 5000 = 65520 := by decide +kernel

/-- Chapter 7: estimates for one caller and at the limits. -/
theorem test_estimates : estimatedWait 7 3760 12 = 138 ∧ waitMinutes 7 3760 12 = 3 ∧ estimatedWait 6 3685 12 = 116
    ∧ waitMinutes 6 3685 12 = 2 ∧ estimatedWait 1 16 512 = 1 ∧ waitMinutes 1 16 512 = 1 ∧ waitMinutes 3 960 1 = 3
    ∧ waitMinutes 40 65520 1 = 2730 ∧ estimatedWait 1024 65520 512 = 8190 ∧ waitMinutes 1024 65520 512 = 137
    ∧ estimatedWait 23 3760 12 = 451 ∧ waitMinutes 23 3760 12 = 8 ∧ waitWords 9 none 4 = [28] ∧ waitWords 3 (some 960) 0 = [28] := by
  decide +kernel

/-- R138: numbers spoken. -/
theorem test_numbers : numberWords 7 = [6] ∧ numberWords 20 = [19] ∧ numberWords 23 = [19, 2] ∧ numberWords 40 = [21]
    ∧ numberWords 99 = [26, 8] ∧ numberWords 100 = [27, 26, 8] ∧ numberWords 1024 = [27, 26, 8] := by decide +kernel

/-- R154: the targets of the counted loop of Chapter 8. -/
theorem test_targets :
    let steps : List Step := [⟨.play, 10⟩, ⟨.mark, 0⟩, ⟨.play, 11⟩, ⟨.silence, 20⟩, ⟨.again, 2⟩, ⟨.play, 12⟩, ⟨.again, 255⟩]
    repeatTarget steps 4 = 2 ∧ repeatTarget steps 6 = 2 ∧ repeatTarget steps 1 = 0 := by decide +kernel

/-! ### One small step of each command -/

/-- The result of a request from reset or another state, in one step, with its slot RESPONSE_READY. -/
def answers (k : Kind) (p : Port) (ps : List Byte) (s : State) : Option Byte × SlotState :=
  let t := after (k.command p (frame ps)) s
  (result p t, (t.port p).slot)

theorem test_power_on : (after .powerOnReset (office .wrap)).agent 5 = {} ∧ (after .powerOnReset (office .wrap)).seed = 0xACE1 := by
  decide +kernel
theorem test_sign_in : answers .signIn .a [0, 5] (office .signedOut) = (some 0, .responseReady)
    ∧ ((after (.signIn .a (frame [0, 5])) (office .signedOut)).agent 5).state = .aux
    ∧ ((after (.signIn .a (frame [0, 5])) (office .signedOut)).port .a).notices = [.agentState 5 .aux 0 0 none] := by decide +kernel
theorem test_ready : answers .ready .a [0, 5] (office .aux) = (some 0, .responseReady)
    ∧ (after (.ready .a (frame [0, 5])) (office .aux)).agentTriggers = [5] := by decide +kernel
theorem test_aux : answers .aux .a [0, 5, 4] (office .ready) = (some 0, .responseReady)
    ∧ answers .aux .a [0, 5, 15] (office .ready) = (some 0x11, .responseReady)
    ∧ answers .aux .a [0, 5, 4] (office .wrap) = (some 2, .responseReady) := by decide +kernel
theorem test_sign_out : answers .signOut .a [0, 5] (office .ready) = (some 0, .responseReady)
    ∧ answers .signOut .b [0, 5] (office .ready) = (some 0x15, .responseReady) := by decide +kernel
theorem test_wrap_extend : answers .wrapExtend .a [0, 5] (office .wrap) = (some 0, .responseReady)
    ∧ ((after (.wrapExtend .a (frame [0, 5])) (office .wrap)).agent 5).wrap.finish = 60 := by decide +kernel
theorem test_wrap_end : answers .wrapEnd .a [0, 5] (office .wrap) = (some 0, .responseReady)
    ∧ ((after (.wrapEnd .a (frame [0, 5])) (office .wrap)).group 3).average = some 3200 := by decide +kernel
theorem test_wrap_expiry : ((after (.wrapExpiry 5) { office .wrap with clock := 30 }).agent 5).state = .ready
    ∧ ((after (.wrapExpiry 5) { office .wrap with clock := 30 }).group 3).average = some 3680 := by decide +kernel
theorem test_agent_answer : answers .agentAnswer .a [0, 5, 1, 0x0B, 0x01] (office .offered) = (some 0, .responseReady)
    ∧ ((after (.agentAnswer .a (frame [0, 5, 1, 0x0B, 0x01])) (office .offered)).port .b).notices =
      [.connect 0x0B01 5 .a, .listen 0x0B01 none] := by decide +kernel
theorem test_agent_no_answer : answers .agentNoAnswer .a [0, 5, 1, 0x0B, 0x01] (office .offered) = (some 0, .responseReady)
    ∧ ((after (.agentNoAnswer .a (frame [0, 5, 1, 0x0B, 0x01])) (office .offered)).agent 5).auxReason = 15 := by decide +kernel
theorem test_ring_timer : ((after (.ringTimerExpiry 7) { office .offered with clock := 20 }).call 7).map CallRec.noAnswers = some 1
    ∧ (after (.ringTimerExpiry 7) { office .offered with clock := 20 }).callTriggers = [7] := by decide +kernel
theorem test_agent_hangup : answers .agentHangup .a [0, 5, 1, 0x0B, 0x01] (office .connected) = (some 0, .responseReady)
    ∧ ((after (.agentHangup .a (frame [0, 5, 1, 0x0B, 0x01])) (office .connected)).port .b).notices = [.cleared 0x0B01] := by
  decide +kernel
theorem test_agent_define : answers .agentDefine .s [0, 9, 1, 1, 1, 3, 9] State.reset = (some 0, .responseReady)
    ∧ (after (.agentDefine .s (frame [0, 9, 1, 1, 1, 3, 9])) State.reset).agent 9 =
      { defined := true, home := .b, skills := [⟨3, 9⟩] } := by decide +kernel
theorem test_force_aux : answers .forceAux .s [0, 5, 2] (office .ready) = (some 0, .responseReady)
    ∧ answers .forceAux .b [0, 5, 2] (office .ready) = (some 0x10, .responseReady) := by decide +kernel
theorem test_force_sign_out : answers .forceSignOut .s [0, 5] (office .wrap) = (some 0, .responseReady)
    ∧ ((after (.forceSignOut .s (frame [0, 5])) (office .wrap)).agent 5).state = .signedOut := by decide +kernel
/-- R32: fields out of range are brought into it, and the set is returned as stored. -/
theorem test_group_stage :
    let ps : List Byte := [3, 3, 0xE8, 0, 30, 1, 1, 44, 3, 3, 0, 0, 4, 30, 1, 0, 255, 0, 5, 0, 255, 255, 30, 0, 60, 3, 0, 0, 0, 0, 255]
    answers .groupStage .s ps State.reset = (some 1, .responseReady)
      ∧ ((after (.groupStage .s (frame ps)) State.reset).group 3).staged.wrapTime = 300
      ∧ ((after (.groupStage .s (frame ps)) State.reset).group 3).staged.ringTimeout = 4
      ∧ ((after (.groupStage .s (frame ps)) State.reset).group 3).staged.overflowWait = 10 := by decide +kernel
theorem test_group_swap : answers .groupSwap .s [3] State.reset = (some 0, .responseReady)
    ∧ answers .groupSwap .s [3] (office .offered) = (some 2, .responseReady) := by decide +kernel
theorem test_group_open : ((after (.groupOpen .s (frame [3])) State.reset).group 3).supervisorClosed = false
    ∧ (after (.groupOpen .s (frame [3])) State.reset).sweepWaiting = true := by decide +kernel
theorem test_group_close : (after (.groupClose .s (frame [3])) (office .ready)).closed 3 = true := by decide +kernel
theorem test_group_stats :
    ((after (.groupStats .s (frame [3])) (State.reset.setGroup 3 { stats := { answered := 9 } })).group 3).stats = {}
    ∧ ((after (.groupStats .s (frame [3])) (State.reset.setGroup 3 { stats := { answered := 9 } })).port .s).response =
      [0, 0, 10, 0, 9, 0, 0, 0, 0, 0, 0, 0, 0] := by decide +kernel
theorem test_line_mode : ((after (.lineMode .s (frame [2, 3])) State.reset).line 2).mode = .toggleRise := by decide +kernel
theorem test_line_input : ((after (.serviceLineInputChange 2 true) State.reset).line 2).input = true
    ∧ ((after (.serviceLineInputChange 2 true) State.reset).line 2).seen = false := by decide +kernel
theorem test_seen_level :
    let s := State.reset.setLine 2 { input := true, mode := .toggleRise }
    ((after (.seenLevelEdge 2) s).line 2) = { input := true, seen := true, mode := .toggleRise, latch := true } := by decide +kernel
theorem test_call_arrive : answers .callArrive .b [0x0B, 0x01, 3, 9] (office .ready) = (some 1, .responseReady)
    ∧ ((after (.callArrive .b (frame [0x0B, 0x01, 3, 9])) (office .ready)).call 0).map CallRec.priority = some 7
    ∧ ((after (.callArrive .b (frame [0x0B, 0x01, 3, 9])) (office .ready)).call 0).map CallRec.key = some (-210)
    ∧ ((after (.callArrive .b (frame [0x0B, 0x01, 3, 9])) (office .ready)).group 3).queue = [0] := by decide +kernel
theorem test_call_release : answers .callRelease .b [0x0B, 0x01] (office .connected) = (some 0, .responseReady)
    ∧ (after (.callRelease .b (frame [0x0B, 0x01])) (office .connected)).call 7 = none
    ∧ ((after (.callRelease .b (frame [0x0B, 0x01])) (office .connected)).agent 5).state = .wrap := by decide +kernel
theorem test_overflow_wait :
    let s := (waiting.setGroup 3 { open3 [7] 0 with active := { overflowTarget := some 8 } }).setGroup 8 (open3 [] 0)
    (after (.overflowWaitExpiry 7) s |>.group 8).queue = [7] ∧ (after (.overflowWaitExpiry 7) s |>.group 3).queue = [] := by
  decide +kernel
theorem test_call_trigger :
    let s := { waiting.setAgent 5 (agentRec .ready) with callTriggers := [7] }
    (after (.callTrigger 7) s |>.agent 5).boundCall = some 7 ∧ (after (.callTrigger 7) s |>.call 7).map CallRec.ring = some (some 20) := by
  decide +kernel
theorem test_agent_trigger :
    let s := { waiting.setAgent 5 (agentRec .ready) with agentTriggers := [5] }
    (after (.agentTrigger 5) s |>.agent 5).state = .offered ∧ (after (.agentTrigger 5) s |>.group 3).offers = 1 := by decide +kernel
theorem test_sweep :
    let s := { waiting.setAgent 5 (agentRec .ready) with sweepWaiting := true }
    (after .sweep s |>.agent 5).boundCall = some 7 ∧ (after .sweep s).sweepWaiting = false := by decide +kernel
theorem test_tiebreak : (after (.tiebreakSet .s (frame [0, 0, 0, 1])) State.reset).generator = 1
    ∧ (after (.tiebreakSet .s (frame [0, 0, 0, 1])) State.reset).taps = 1
    ∧ ((after (.tiebreakRead .s (frame [])) State.reset).port .s).response = [0, 0, 6, 0xAC, 0xE1, 0xD0, 0x08, 0xAC, 0xE1] := by
  decide +kernel
theorem test_store_write : (after (.storeWrite .s (frame [0, 0, 0, 9, 0xAA, 0, 0xBB])) State.reset).ram = [(9, 0xAA), (11, 0xBB)]
    ∧ answers .storeWrite .s [0, 0x3F, 0xFF, 0xFF, 1, 2] State.reset = (some 0x11, .responseReady)
    ∧ answers .storeWrite .s [0, 0, 0, 9, 1] (State.reset.setSegment 4 { start := 8, length := 2, inUse := 1 }) =
      (some 0x17, .responseReady) := by decide +kernel
theorem test_segment_load :
    (after (.segmentLoad .s (frame [4, 0, 0, 0, 8, 0, 0, 0, 2])) State.reset).segment 4 = { start := 8, length := 2 }
    ∧ (after (.segmentLoad .s (frame [4, 0, 0, 0, 8, 0, 0, 0, 0])) State.reset).segment 4 = {} := by decide +kernel
theorem test_program_load :
    (after (.programLoad .s (frame [3, 2, 2, 0, 1, 250])) State.reset).programSteps 3 = [⟨.silence, 1⟩, ⟨.play, 250⟩]
    ∧ ((after (.programLoad .s (frame [3, 2, 2, 0, 1, 250])) State.reset).port .s).response = [1, 0, 5, 2, 2, 1, 1, 250] := by
  decide +kernel
theorem test_vocab_load : (after (.vocabLoad .s (frame [28, 0, 250])) State.reset).vocabEntry 28 = some 250
    ∧ answers .vocabLoad .s [28, 1, 0] State.reset = (some 0x11, .responseReady) := by decide +kernel
theorem test_reads : answers .agentRead .b [1, 255] State.reset = (some 0, .responseReady)
    ∧ answers .groupRead .b [63] State.reset = (some 0, .responseReady)
    ∧ answers .lineRead .b [3] State.reset = (some 0, .responseReady)
    ∧ answers .callRead .b [0x0B, 0x01] waiting = (some 0, .responseReady)
    ∧ answers .sourceRead .b [7] State.reset = (some 0, .responseReady)
    ∧ answers .channelRead .s [15] State.reset = (some 0, .responseReady)
    ∧ answers .slotRead .s [] State.reset = (some 0, .responseReady)
    ∧ answers .watchRead .s [] State.reset = (some 0, .responseReady) := by decide +kernel
theorem test_store_reads :
    ((after (.storeRead .s (frame [0, 0, 0, 9, 0, 3])) { State.reset with ram := [(9, 0xAA)] }).port .s).response =
      [0, 0, 3, 0xAA, 0, 0]
    ∧ answers .segmentRead .s [239] State.reset = (some 0, .responseReady)
    ∧ answers .programRead .s [63] State.reset = (some 0, .responseReady)
    ∧ ((after (.vocabRead .s (frame [0])) State.reset).port .s).response = [0, 0, 2, 0xFF, 0xFF] := by decide +kernel

/-- Program 20 plays segment 50, of two bytes at address 9, and ends; source 1 has program 21, a silence in a loop without end. -/
def studio : State :=
  (((State.reset.setSegment 50 { start := 9, length := 2 }).setProgram 20 [⟨.play, 50⟩, ⟨.finish, 0⟩]).setProgram 21
    [⟨.silence, 1⟩, ⟨.again, 255⟩]).setRam [(9, 0xAA), (10, 0xBB)]

/-- Call 7 waits in group 3, which has source 1 and program 20; the call's announcement is to come at second 30. -/
def tuned : State :=
  ((studio.setGroup 3 { open3 [7] 0 with active := { music := some 1, program := some 20 } }).setSource 1
    { current := some 21, listeners := 1, run := some { program := 21 } }).putCall 7
      (some { callRec .queued with listen := .music 1, nextDue := some 30 })

/-- The same with the announcement due. -/
def due : State := tuned.putCall 7 (some { callRec .queued with listen := .music 1, nextDue := some 0 })

theorem test_source_set : (after (.sourceSet .s (frame [2, 21])) studio |>.source 2) = { current := some 21 }
    ∧ (after (.sourceSet .s (frame [1, 20])) tuned |>.source 1).staged = .value (some 20) := by decide +kernel
theorem test_source_limit : (after (.sourceLimit .s (frame [2, 16])) State.reset |>.source 2).idleLimit = 15
    ∧ answers .sourceLimit .s [2, 0] State.reset = (some 1, .responseReady) := by decide +kernel
theorem test_slot_map : (after (.slotMap .s (frame [1, 31, 1])) tuned).slotOf 1 = some 31
    ∧ (after (.slotMap .s (frame [1, 31, 1])) tuned |>.port .b).notices = [.listen 0x0B01 (some 31)]
    ∧ answers .slotMap .s [1, 2, 0] tuned = (some 0x17, .responseReady) := by decide +kernel
theorem test_idle_byte : (after (.idleByteSet .s (frame [0x55])) State.reset).idleByte = 0x55 := by decide +kernel
theorem test_announcement_due :
    let t := after (.announcementDue 7) due
    t.channel 0 = some ⟨7, { program := 20, segment := some 50 }⟩ ∧ (t.segment 50).inUse = 1 ∧ (t.source 1).listeners = 0
      ∧ (t.port .b).notices = [.listen 0x0B01 (some 8)] := by decide +kernel
/-- R167: an announcement whose first delay is 0 has been taken before the command after the arrival. -/
theorem test_announced_first :
    let s := studio.setGroup 3 { open3 [] 0 with active := { program := some 20, firstDelay := 0 } }
    let t := after (.callArrive .b (frame [0x0B, 0x01, 3, 0])) s
    (t.call 0).map CallRec.nextDue = some (some 0)
      ∧ (after (.responseRead .b [1]) t).channel 0 = some ⟨0, { program := 20, segment := some 50 }⟩ := by decide +kernel
theorem test_highway_frame :
    let t := after .highwayFrame (after (.announcementDue 7) due)
    t.highway.get 8 = some 0xAA ∧ t.highway.get 1 = some 0xFF ∧ t.highway.get 24 = none
      ∧ t.channel 0 = some ⟨7, { program := 20, segment := some 50, position := 1, played := true }⟩ := by decide +kernel
theorem test_step_complete :
    let s := (due.putCall 7 (some { callRec .queued with listen := .announce 0 })).setChannel 0
      (some ⟨7, { program := 20, segment := some 50, position := 2, played := true }⟩)
    let t := after (.stepComplete 8) s
    t.channel 0 = none ∧ (t.call 7).map CallRec.nextDue = some (some 60) ∧ (t.call 7).map CallRec.listen = some (.music 1) := by
  decide +kernel
theorem test_fill_complete :
    let r : Run := { program := 22, position := 8000, played := true, fill := some .restart }
    let s := studio.setSource 1 { current := some 22, listeners := 1, run := some r }
    (after (.fillComplete 1) s |>.source 1).run = some { program := 22, fill := some .restart } := by decide +kernel
theorem test_fetch :
    let s := State.reset.setPort .a { notices := [.cleared 0x0B01] }
    ((after (.fetch .a (frame [])) s).port .a).response = [0, 0, 3, 4, 0x0B, 0x01]
      ∧ ((after (.fetch .a (frame [])) s).port .a).notices = []
      ∧ answers .fetch .a [] State.reset = (some 3, .responseReady) := by decide +kernel
theorem test_watch_clear :
    let s := (State.reset.setDevice { purgeDone := true, starved := true }).setGroup 3 { flags := { depth := true, wait := true } }
    (after (.watchClear .s (frame [1, 2, 0xFE])) s).device = { starved := true }
      ∧ ((after (.watchClear .s (frame [1, 2, 0xFE])) s).group 3).flags = { depth := true } := by decide +kernel
theorem test_watch_mask :
    let s := State.reset.setDevice { segmentFault := true, maskSegmentFault := true }
    ((after (.watchMask .s (frame [4])) s).port .s).notices = [.watch .segmentFault]
      ∧ (after (.watchMask .s (frame [4])) s).device = { segmentFault := true, maskStarved := true }
      ∧ answers .watchMask .s [1] s = (some 0x11, .responseReady) := by decide +kernel
theorem test_group_watch_mask :
    let s := State.reset.setGroup 3 { flags := { depth := true }, masks := { depth := true } }
    ((after (.groupWatchMask .s (frame [3, 6])) s).group 3).masks = { wait := true, noStaff := true }
      ∧ ((after (.groupWatchMask .s (frame [3, 6])) s).port .s).notices = [.watch (.depth 3)] := by decide +kernel
theorem test_purge :
    let t := after (.purge .b (frame [])) (office .connected)
    (t.port .b).response = [0, 0, 4, 0, 1, 0, 0] ∧ t.call 7 = none ∧ (t.agent 5).state = .wrap
      ∧ (t.port .s).notices = [.watch .purgeDone] := by decide +kernel
/-- R49: the purge of an offer whose agent is of the same shelf never leaves the group with the call and without the agent. -/
theorem test_purge_offer_no_staff :
    let s := ((office .offered).setGroup 3 { open3 [7] 1 with staffed := 1 }).setAgent 5
      { agentRec .offered with home := .b, boundCall := some 7 }
    let t := after (.purge .b (frame [])) s
    (t.group 3).flags = {} ∧ (t.group 3).staffed = 0 ∧ (t.group 3).queue = [] ∧ (t.agent 5).state = .signedOut ∧ t.call 7 = none := by
  decide +kernel
/-- R101 and R59: a withdrawn offer leaves the call queued in its group, and its deferred overflow is carried out at once. -/
theorem test_withdrawal_moves :
    let s := (((office .offered).setGroup 3 { open3 [7] 1 with active := { overflowTarget := some 8 } }).setGroup 8
      { open3 [] 0 with active := { music := some 1 } }).putCall 7
        (some { callRec .offered with boundAgent := some 5, ring := some 20, pendingOverflow := true })
    let t := after (.aux .a (frame [0, 5, 3])) s
    (t.group 8).queue = [7] ∧ (t.port .b).notices = [.listen 0x0B01 (some 1)]
      ∧ (t.port .a).notices = [.agentState 5 .aux 3 0 none] := by decide +kernel
theorem test_purge_shelf :
    let t := after (.purgeShelf .s (frame [0])) (office .connected)
    (t.agent 5).pending = .signOutPurge ∧ (t.call 7).map CallRec.state = some .connected
      ∧ answers .purgeShelf .s [2] State.reset = (some 0x11, .responseReady) := by decide +kernel
theorem test_restart :
    let t := after (.restart .s (frame [])) (office .connected)
    t.agent 5 = { defined := true, home := .a, skills := [⟨3, 5⟩] } ∧ t.call 7 = none
      ∧ (t.group 3).supervisorClosed = false := by decide +kernel
theorem test_response_read :
    let s := State.reset.setPort .a { slot := .responseReady, response := [0, 0, 0] }
    ((after (.responseRead .a [3, 0, 0, 0]) s).port .a).slot = .idle
      ∧ ((after (.responseRead .a [3, 0, 0]) s).port .a).slot = .responseReady
      ∧ ((after (.responseRead .a [3, 0, 0, 0]) s).port .a).shifted = [0x80, 0, 0, 0] := by decide +kernel
theorem test_status_read :
    let s := State.reset.setPort .a { slot := .responseReady, response := [5, 6, 7] }
    (after (.responseRead .a [1, 0, 0, 0]) s).port .a = { s.port .a with shifted := [0x80, 0, 0, 0] }
      ∧ (after (.responseRead .a [2, 0]) s).port .a = s.port .a := by decide +kernel
theorem test_rejected :
    let s := State.reset.setPort .a { slot := .responseReady, response := [0, 0, 0] }
    ((after (.requestRejected .a [0x60, 0, 0]) s).port .a).rejected = true
      ∧ ((after (.unknownRequestKind .a [0xFF]) s).port .a).rejected = true
      ∧ result .a (after (.unknownRequestKind .a [0xFF]) State.reset) = some 0x10 := by decide +kernel
theorem test_clock_advance :
    let s := (office .offered).setGroup 3 { open3 [7] 1 with active := { waitObjective := 5 } }
    (after .stationClockAdvance { s with clock := 4 }).clock = 5
      ∧ ((after .stationClockAdvance { s with clock := 4 }).group 3).flags = { wait := true } := by decide +kernel

/-! ### States and operands that meet the hypotheses of the statements, clause by clause -/

theorem test_meets_step : State.reset.pending = [] := rfl

theorem test_meets_due_wraps :
    let s := { office .wrap with clock := 30 }
    Instr.sweep ≠ Instr.powerOnReset ∧ (∀ a, Instr.sweep ≠ Instr.wrapExpiry a) ∧ (∀ d, Instr.sweep ≠ Instr.announcementDue d)
      ∧ ((s.agent 5).state = .wrap ∧ (s.agent 5).wrap.finish ≤ s.clock) ∧ ¬((s.agent 6).state = .wrap ∧ (s.agent 6).wrap.finish ≤ s.clock)
      ∧ ¬AnnouncementsTaken due := by
  refine ⟨nofun, nofun, nofun, by decide +kernel, by decide +kernel, ?_⟩
  rw [announcements_iff]
  decide +kernel

theorem test_meets_bad_requests :
    Calm State.reset ∧ (State.reset.port .a).slot = .idle
    ∧ (∀ ps, [] = frame ps → ¬(lengthOk .agentRead .a ps = true ∧ permitted .agentRead .a = true))
    ∧ (∀ ps, frame (List.replicate 31 0) = frame ps → ¬(lengthOk .groupStage .a ps = true ∧ permitted .groupStage .a = true))
    ∧ unknownKind [0xFF] = true ∧ unknownKind [0x10] = false := by
  refine ⟨(calm_iff _).mpr (by decide +kernel), rfl, fun ps h => ?_, fun _ _ h => absurd h.2 (by decide), rfl, rfl⟩
  simp [frame, bytesBE] at h

theorem test_meets_rejected :
    let s := State.reset.setPort .a { slot := .responseReady, response := [0, 0, 0] }
    (Calm s ∧ (s.port .a).slot ≠ .idle ∧ unknownKind [0xFF] = true) ∧ (Calm State.reset ∧ (State.reset.port .a).slot = .idle) := by
  simp only [calm_iff]; decide +kernel

theorem test_meets_response_read :
    let s := State.reset.setPort .a { slot := .responseReady, response := [0, 0, 0] }
    Calm s ∧ (s.port .a).slot = .responseReady ∧ [0, 0].length < (s.port .a).response.length
      ∧ (s.port .a).response.length ≤ [0, 0, 0].length ∧ Calm State.reset ∧ (State.reset.port .a).slot ≠ .responseReady
      ∧ (0x01 : Byte) ≠ 0x02 ∧ (0x01 : Byte) ≠ 0x03 := by
  simp only [calm_iff]; decide +kernel

theorem test_meets_status_byte :
    let s := State.reset.setPort .a { notices := List.replicate 64 (.cleared 1) }
    (State.reset.port .a).notices.length ≤ Config.noticeCapacity ∧ (s.port .a).notices.length ≤ Config.noticeCapacity := by
  decide +kernel

theorem test_meets_taken_request : Takes State.reset .agentRead .a [0, 0] := by
  simp only [takes_iff]; decide +kernel

theorem test_meets_agent_read : Takes State.reset .agentRead .b [2, 0] ∧ 512 ≤ u16 [2, 0] 0 ∧ Takes State.reset .agentRead .b [1, 255]
    ∧ u16 [1, 255] 0 = (511 : AgentSlot).val := by
  simp only [takes_iff]; decide +kernel

theorem test_meets_group_read : Takes State.reset .groupRead .b [64] ∧ 64 ≤ u8 [64] 0 ∧ Takes State.reset .groupRead .b [63]
    ∧ u8 [63] 0 = (63 : Group).val := by
  simp only [takes_iff]; decide +kernel

/-- R38, R41: a group that its line holds is closed, whatever its flag; an edge of the line opens it. -/
theorem test_held_group :
    let s := (State.reset.setGroup 3 { open3 [] 0 with active := { line := some 2 } }).setLine 2 { mode := .levelLow }
    s.heldByLine 3 = true ∧ s.closed 3 = true ∧ (s.setLine 2 { mode := .levelLow, seen := true }).closed 3 = false
      ∧ (s.setLine 2 { mode := .toggleFall, latch := true }).closed 3 = true := by decide +kernel

theorem test_meets_call_read :
    Takes State.reset .callRead .s [2, 0, 0] ∧ shelfOfByte (u8 [2, 0, 0] 0) = none
    ∧ (Takes waiting .callRead .b [0x0B, 0x01] ∧ shelfOf .b = some .b ∧ (0x0B01 : Tag).toNat = u16 [0x0B, 0x01] 0
      ∧ waiting.call 7 ≠ none ∧ ∀ d q, waiting.call d = some q → q.owner = .b → q.tag = 0x0B01 → d = 7)
    ∧ (Takes waiting .callRead .s [1, 0x0B, 0x01] ∧ shelfOfByte (u8 [1, 0x0B, 0x01] 0) = some .b
      ∧ (0x0B01 : Tag).toNat = u16 [1, 0x0B, 0x01] 1)
    ∧ ∀ c r, State.reset.call c = some r → ¬(r.owner = .b ∧ r.tag = 0x0B01) := by
  simp only [takes_iff]
  refine ⟨by decide +kernel, by decide +kernel, ⟨by decide +kernel, rfl, rfl, by decide +kernel, lone_of (by decide +kernel)⟩,
    by decide +kernel, fun c r h => ?_⟩
  simp [State.call, State.reset] at h

theorem test_meets_store_reads :
    (Takes State.reset .storeRead .s [0, 0, 0, 0, 0, 0] ∧ u16 [0, 0, 0, 0, 0, 0] 4 = 0)
    ∧ (Takes State.reset .storeRead .s [0, 0, 0, 0, 1, 1] ∧ 256 < u16 [0, 0, 0, 0, 1, 1] 4)
    ∧ (4194304 < u32 [0, 0x3F, 0xFF, 0xFF, 0, 2] 0 + u16 [0, 0x3F, 0xFF, 0xFF, 0, 2] 4)
    ∧ (1 ≤ u16 [0, 0x3F, 0xFF, 0xFF, 0, 1] 4 ∧ u32 [0, 0x3F, 0xFF, 0xFF, 0, 1] 0 + u16 [0, 0x3F, 0xFF, 0xFF, 0, 1] 4 ≤ 4194304)
    ∧ (u16 [0, 0, 0, 0, 1, 0] 4 ≤ 256)
    ∧ (Takes State.reset .segmentRead .s [240] ∧ 240 ≤ u8 [240] 0 ∧ Takes State.reset .segmentRead .s [239])
    ∧ (Takes State.reset .programRead .s [64] ∧ 64 ≤ u8 [64] 0 ∧ Takes State.reset .programRead .s [63])
    ∧ (Takes State.reset .vocabRead .s [29] ∧ 29 ≤ u8 [29] 0 ∧ Takes State.reset .vocabRead .s [28]) := by
  simp only [takes_iff]; decide +kernel

theorem test_meets_playout_reads :
    let t := after (.announcementDue 7) due
    let w := { State.reset with waitList := [⟨7, 0⟩] }
    (Takes State.reset .sourceRead .b [8] ∧ 8 ≤ u8 [8] 0 ∧ Takes State.reset .sourceRead .b [7])
    ∧ (Takes State.reset .channelRead .s [16] ∧ 16 ≤ u8 [16] 0 ∧ Takes t .channelRead .s [0] ∧ t.channel 0 ≠ none ∧ t.call 7 ≠ none
      ∧ t.channel 15 = none ∧ t.waitList = [] ∧ Takes w .channelRead .s [0] ∧ w.waitList = [⟨7, 0⟩])
    ∧ (Takes State.reset .lineRead .b [4] ∧ 4 ≤ u8 [4] 0 ∧ Takes State.reset .lineRead .b [3])
    ∧ Takes State.reset .slotRead .s [] ∧ Takes State.reset .watchRead .s [] := by
  simp only [takes_iff]; decide +kernel

theorem test_meets_agent_checks :
    let s := office .ready
    (Takes State.reset .signIn .a [0, 5] ∧ ∀ a, ¬Names State.reset [0, 5] a)
    ∧ (Takes s .signIn .b [0, 5] ∧ Names s [0, 5] 5 ∧ Port.b ≠ portOf (s.agent 5).home)
    ∧ (Takes s .aux .a [0, 5, 0] ∧ ActsOn s .aux .a [0, 5, 0] 5 ∧ u8 [0, 5, 0] 2 = 0)
    ∧ (Takes s .forceAux .s [0, 5, 15] ∧ ActsOn s .forceAux .s [0, 5, 15] 5 ∧ 15 ≤ u8 [0, 5, 15] 2)
    ∧ (Takes s .agentAnswer .a [0, 5, 2, 0, 0] ∧ ActsOn s .agentAnswer .a [0, 5, 2, 0, 0] 5 ∧ 2 ≤ u8 [0, 5, 2, 0, 0] 2) := by
  simp only [takes_iff, acts_iff, names_iff]; decide +kernel

theorem test_meets_sign_in :
    Takes (office .signedOut) .signIn .a [0, 5] ∧ ActsOn (office .signedOut) .signIn .a [0, 5] 5
      ∧ ((office .signedOut).agent 5).state = .signedOut
      ∧ Takes (office .aux) .signIn .a [0, 5] ∧ ActsOn (office .aux) .signIn .a [0, 5] 5 ∧ ((office .aux).agent 5).state ≠ .signedOut := by
  simp only [takes_iff, acts_iff]; decide +kernel

/-- Every state of the agent is met by the office in that state. -/
theorem test_meets_ready : ∀ st ∈ [AgentState.signedOut, .aux, .ready, .offered, .connected, .wrap],
    Takes (office st) .ready .a [0, 5] ∧ ActsOn (office st) .ready .a [0, 5] 5 ∧ ((office st).agent 5).state = st := by
  simp only [takes_iff, acts_iff]; decide +kernel

/-- The pending sign-out marked by purge, and the office's ordinary pending change. -/
theorem test_meets_pending :
    let s := (office .connected).setAgent 5 { agentRec .connected with boundCall := some 7, pending := .signOutPurge }
    Takes s .ready .a [0, 5] ∧ ActsOn s .ready .a [0, 5] 5 ∧ (s.agent 5).pending = .signOutPurge
      ∧ ((office .connected).agent 5).pending ≠ .signOutPurge := by
  simp only [takes_iff, acts_iff]; decide +kernel

theorem test_meets_aux : ∀ st ∈ [AgentState.signedOut, .aux, .ready, .offered, .connected, .wrap],
    Takes (office st) .aux .a [0, 5, 14] ∧ ActsOn (office st) .aux .a [0, 5, 14] 5
      ∧ Takes (office st) .forceAux .s [0, 5, 1] ∧ ActsOn (office st) .forceAux .s [0, 5, 1] 5 ∧ ((office st).agent 5).state = st
      ∧ 1 ≤ u8 [0, 5, 1] 2 ∧ u8 [0, 5, 14] 2 ≤ 14 := by
  simp only [takes_iff, acts_iff]; decide +kernel

theorem test_meets_aux_reason_and_offer :
    let s := State.reset.setAgent 5 { agentRec .aux with auxReason := 4 }
    (Takes s .aux .a [0, 5, 4] ∧ ActsOn s .aux .a [0, 5, 4] 5 ∧ (s.agent 5).auxReason = u8 [0, 5, 4] 2
      ∧ ((office .aux).agent 5).auxReason ≠ u8 [0, 5, 14] 2)
    ∧ ((office .offered).agent 5).boundCall = some 7
    ∧ (office .offered).call 7 = some { callRec .offered with boundAgent := some 5, ring := some 20 } := by
  simp only [takes_iff, acts_iff]; decide +kernel

theorem test_meets_sign_out : ∀ st ∈ [AgentState.signedOut, .aux, .ready, .offered, .connected, .wrap],
    Takes (office st) .signOut .a [0, 5] ∧ ActsOn (office st) .signOut .a [0, 5] 5
      ∧ Takes (office st) .forceSignOut .s [0, 5] ∧ ActsOn (office st) .forceSignOut .s [0, 5] 5 ∧ ((office st).agent 5).state = st := by
  simp only [takes_iff, acts_iff]; decide +kernel

theorem test_meets_wrap_extend :
    let w : WrapFields := { start := 0, finish := 30, cap := 30, extensions := 1, group := 3, talk := 200 }
    let used := State.reset.setAgent 5 { agentRec .wrap with wrap := w }
    let full := State.reset.setAgent 5 { agentRec .wrap with wrap := { w with extensions := 0 } }
    (Takes (office .ready) .wrapExtend .a [0, 5] ∧ ActsOn (office .ready) .wrapExtend .a [0, 5] 5)
    ∧ (Takes used .wrapExtend .a [0, 5] ∧ ActsOn used .wrapExtend .a [0, 5] 5
      ∧ (used.group (used.agent 5).wrap.group).active.extLimit ≤ (used.agent 5).wrap.extensions)
    ∧ (Takes full .wrapExtend .a [0, 5] ∧ ActsOn full .wrapExtend .a [0, 5] 5
      ∧ (full.agent 5).wrap.extensions < (full.group (full.agent 5).wrap.group).active.extLimit
      ∧ min ((full.agent 5).wrap.finish + 30) ((full.agent 5).wrap.start + (full.agent 5).wrap.cap) = (full.agent 5).wrap.finish)
    ∧ (Takes (office .wrap) .wrapExtend .a [0, 5] ∧ ActsOn (office .wrap) .wrapExtend .a [0, 5] 5
      ∧ min (((office .wrap).agent 5).wrap.finish + 30) 300 ≠ ((office .wrap).agent 5).wrap.finish) := by
  simp only [takes_iff, acts_iff]; decide +kernel

theorem test_meets_wrap_end :
    ((office .wrap).agent 5).state = .wrap ∧ ((office .wrap).agent 5).wrap.finish ≤ 30 ∧ ¬((office .wrap).agent 5).wrap.finish ≤ 29
    ∧ Takes (office .wrap) .wrapEnd .a [0, 5] ∧ ActsOn (office .wrap) .wrapEnd .a [0, 5] 5
    ∧ Takes (office .wrap) .ready .a [0, 5] ∧ ActsOn (office .wrap) .ready .a [0, 5] 5 ∧ ((office .wrap).agent 5).state = .wrap
    ∧ Takes (office .aux) .wrapEnd .a [0, 5] ∧ ActsOn (office .aux) .wrapEnd .a [0, 5] 5 ∧ ((office .aux).agent 5).state ≠ .wrap := by
  simp only [takes_iff, acts_iff]; decide +kernel

/-- A READY agent is OFFERED and CONNECTED to no call. -/
theorem test_meets_late :
    let s := office .ready
    shelfOfByte (u8 [0, 5, 1, 0x0B, 0x01] 2) = some .b
    ∧ (∀ k ∈ [Kind.agentAnswer, .agentNoAnswer, .agentHangup],
      Takes s k .a [0, 5, 1, 0x0B, 0x01] ∧ ActsOn s k .a [0, 5, 1, 0x0B, 0x01] 5)
    ∧ (s.agent 5).state ≠ .offered ∧ (s.agent 5).state ≠ .connected := by
  simp only [takes_iff, acts_iff]; decide +kernel

theorem test_meets_ring_no_answer :
    let s := { office .offered with clock := 20 }
    let r : CallRec := { callRec .offered with boundAgent := some 5, ring := some 20 }
    (Calm s ∧ s.call 7 = some r ∧ r.state = .offered ∧ r.boundAgent = some 5 ∧ r.ring = some 20 ∧ 20 ≤ s.clock)
    ∧ (Calm (office .offered) ∧ (office .offered).call 7 = some r ∧ (office .offered).clock < 20)
    ∧ (Takes s .agentNoAnswer .a [0, 5, 1, 0x0B, 0x01] ∧ ActsOn s .agentNoAnswer .a [0, 5, 1, 0x0B, 0x01] 5
      ∧ (s.agent 5).state = .offered ∧ (s.agent 5).boundCall = some 7 ∧ shelfOfByte (u8 [0, 5, 1, 0x0B, 0x01] 2) = some r.owner
      ∧ u16 [0, 5, 1, 0x0B, 0x01] 3 = r.tag.toNat) := by
  simp only [takes_iff, acts_iff, calm_iff]; decide +kernel

/-- An answer with the call off the wait list, and one with the call on it. -/
theorem test_meets_answer :
    let r : CallRec := { callRec .offered with boundAgent := some 5, ring := some 20 }
    let k : CallRec := { r with onWaitList := true }
    let s := office .offered
    let listed := { s.putCall 7 (some k) with waitList := [⟨7, 0⟩] }
    let ps : List Byte := [0, 5, 1, 0x0B, 0x01]
    (Takes s .agentAnswer .a ps ∧ ActsOn s .agentAnswer .a ps 5 ∧ (s.agent 5).state = .offered ∧ (s.agent 5).boundCall = some 7
      ∧ s.call 7 = some r ∧ r.boundAgent = some 5 ∧ shelfOfByte (u8 ps 2) = some r.owner ∧ u16 ps 3 = r.tag.toNat
      ∧ r.onWaitList = false)
    ∧ (Takes listed .agentAnswer .a ps ∧ ActsOn listed .agentAnswer .a ps 5 ∧ (listed.agent 5).state = .offered
      ∧ (listed.agent 5).boundCall = some 7 ∧ listed.call 7 = some k ∧ k.boundAgent = some 5 ∧ shelfOfByte (u8 ps 2) = some k.owner
      ∧ u16 ps 3 = k.tag.toNat ∧ ∃ e ∈ listed.waitList, e.call = 7) := by
  simp only [takes_iff, acts_iff]
  exact ⟨by decide +kernel, by decide +kernel, by decide +kernel, by decide +kernel, by decide +kernel, by decide +kernel, by decide +kernel,
    by decide +kernel, by decide +kernel, ⟨7, 0⟩, by decide +kernel, rfl⟩

theorem test_meets_hangup :
    let s := office .connected
    let ps : List Byte := [0, 5, 1, 0x0B, 0x01]
    let r : CallRec := { callRec .connected with boundAgent := some 5 }
    Takes s .agentHangup .a ps ∧ ActsOn s .agentHangup .a ps 5 ∧ (s.agent 5).state = .connected ∧ (s.agent 5).boundCall = some 7
      ∧ s.call 7 = some r ∧ shelfOfByte (u8 ps 2) = some r.owner ∧ u16 ps 3 = r.tag.toNat := by
  simp only [takes_iff, acts_iff]; decide +kernel

theorem test_meets_agent_define_checks :
    (Takes State.reset .agentDefine .s [2, 0, 1, 0, 0] ∧ 512 ≤ u16 [2, 0, 1, 0, 0] 0)
    ∧ (Takes State.reset .agentDefine .s [0, 5, 1, 0, 1, 64, 1] ∧ 64 ≤ u8 [0, 5, 1, 0, 1, 64, 1] 5)
    ∧ (Takes State.reset .agentDefine .s [0, 5, 1, 0, 1, 63, 10] ∧ 9 < u8 [0, 5, 1, 0, 1, 63, 10] 6)
    ∧ (Takes (office .offered) .agentDefine .s [0, 5, 1, 0, 0] ∧ ((office .offered).agent 5).state = .offered)
    ∧ (Takes (office .ready) .agentDefine .s [0, 5, 0, 0, 0] ∧ ((office .ready).agent 5).state ≠ .offered
      ∧ ((office .ready).agent 5).state ≠ .signedOut ∧ u8 [0, 5, 0, 0, 0] 2 = 0) := by
  simp only [takes_iff]; decide +kernel

theorem test_meets_agent_define :
    let ks : List Skill := [⟨3, 9⟩]
    let ps : List Byte := [0, 5, 1, 0, 1, 3, 9]
    (Takes (office .ready) .agentDefine .s ps ∧ u16 ps 0 = (5 : AgentSlot).val ∧ shelfOfByte (u8 ps 3) = some .a
      ∧ (ks.map fun k => (k.group.val, k.level)) = (List.range (u8 ps 4)).map (fun i => (u8 ps (5 + 2 * i), u8 ps (6 + 2 * i)))
      ∧ skillsLegal ks = true ∧ ((office .ready).agent 5).state ≠ .offered ∧ u8 ps 2 = 1 ∧ ((office .ready).agent 5).home = .a)
    ∧ (Takes (office .signedOut) .agentDefine .s [0, 5, 0, 0, 0] ∧ ((office .signedOut).agent 5).defined = true
      ∧ ((office .signedOut).agent 5).state = .signedOut ∧ u8 [0, 5, 0, 0, 0] 2 = 0)
    ∧ (Takes State.reset .agentDefine .s [0, 5, 0, 0, 0] ∧ (State.reset.agent 5).defined = false) := by
  simp only [takes_iff]; decide +kernel

theorem test_meets_group_stage :
    let ps : List Byte := [3, 0, 30, 0, 30, 1, 1, 44, 20, 3, 0, 0, 4, 30, 1, 0, 255, 0, 0, 0, 255, 255, 30, 0, 60, 3, 0, 0, 0, 0, 255]
    (Takes State.reset .groupStage .s (64 :: ps.drop 1) ∧ 64 ≤ u8 (64 :: ps.drop 1) 0)
    ∧ (Takes State.reset .groupStage .s ps ∧ u8 ps 0 = (3 : Group).val ∧ u8 (ps.drop 1) 15 ≠ 3
      ∧ ¬(2 ≤ u8 (ps.drop 1) 9 ∨ 3 ≤ u8 (ps.drop 1) 10 ∨ 2 ≤ u8 (ps.drop 1) 18 ∨ (64 ≤ u8 (ps.drop 1) 15 ∧ u8 (ps.drop 1) 15 ≠ 255)
        ∨ (8 ≤ u8 (ps.drop 1) 19 ∧ u8 (ps.drop 1) 19 ≠ 255) ∨ (64 ≤ u8 (ps.drop 1) 20 ∧ u8 (ps.drop 1) 20 ≠ 255)
        ∨ (4 ≤ u8 (ps.drop 1) 29 ∧ u8 (ps.drop 1) 29 ≠ 255)))
    ∧ (Takes State.reset .groupStage .s (ps.set 16 3) ∧ u8 ((ps.set 16 3).drop 1) 15 = 3)
    ∧ (Takes State.reset .groupStage .s (ps.set 10 2) ∧ 2 ≤ u8 ((ps.set 10 2).drop 1) 9) := by
  simp only [takes_iff]; decide +kernel

theorem test_meets_group_swap :
    let pend := State.reset.setGroup 3 { open3 [] 1 with swapPending := true }
    let tune := waiting.setGroup 3 { open3 [7] 0 with staged := { music := some 1 } }
    (Takes State.reset .groupSwap .s [64] ∧ 64 ≤ u8 [64] 0)
    ∧ (Takes pend .groupSwap .s [3] ∧ (pend.group 3).swapPending = true)
    ∧ (Takes (office .offered) .groupSwap .s [3] ∧ ((office .offered).group 3).swapPending = false
      ∧ ((office .offered).group 3).offers ≠ 0)
    ∧ (Takes waiting .groupSwap .s [3] ∧ (waiting.group 3).swapPending = false ∧ (waiting.group 3).offers = 0
      ∧ (waiting.group 3).active.music = (waiting.group 3).staged.music)
    ∧ (Takes tune .groupSwap .s [3] ∧ (tune.group 3).active.music ≠ (tune.group 3).staged.music ∧ 7 ∈ (tune.group 3).queue
      ∧ tune.call 7 ≠ none ∧ 8 ∉ (tune.group 3).queue ∧ (tune.group 3).queue.Nodup) := by
  simp only [takes_iff]; decide +kernel

theorem test_meets_group_requests :
    (∀ k ∈ [Kind.groupOpen, .groupClose, .groupStats], Takes State.reset k .s [64] ∧ 64 ≤ u8 [64] 0 ∧ Takes State.reset k .s [63]
      ∧ u8 [63] 0 = (63 : Group).val)
    ∧ Port.a ≠ .s ∧ Calm State.reset ∧ (State.reset.port .a).slot = .idle ∧ Takes State.reset .groupRead .a [63] := by
  simp only [takes_iff, calm_iff]; decide +kernel

theorem test_meets_watch_masks :
    let s := State.reset.setGroup 3 { flags := { depth := true }, masks := { depth := true } }
    let t := after (.groupWatchMask .s (frame [3, 6])) s
    (Takes s .groupWatchMask .s [64, 0] ∧ 64 ≤ u8 [64, 0] 0 ∧ Takes s .groupWatchMask .s [3, 6] ∧ u8 [3, 6] 0 = (3 : Group).val
      ∧ FirstWatch t (.depth 3))
    ∧ (Takes s .watchMask .s [1] ∧ (u8 [1] 0).testBit 0 = true ∧ Takes s .watchMask .s [6] ∧ (u8 [6] 0).testBit 0 = false) := by
  refine ⟨⟨(takes_iff ..).mpr (by decide +kernel), by decide, (takes_iff ..).mpr (by decide +kernel), by decide,
    (firstWatch_iff _ _).mp (by decide +kernel)⟩, (takes_iff ..).mpr (by decide +kernel), by decide, (takes_iff ..).mpr (by decide +kernel),
    by decide⟩

theorem test_meets_lines :
    let s := State.reset.setLine 2 { input := true, mode := .toggleRise }
    (Takes State.reset .lineMode .s [4, 0] ∧ 4 ≤ u8 [4, 0] 0 ∧ 5 ≤ u8 [3, 5] 1 ∧ Takes State.reset .lineMode .s [3, 4]
      ∧ u8 [3, 4] 0 = (3 : LineNo).val ∧ u8 [3, 4] 1 = 4)
    ∧ (Calm s ∧ (s.line 2).input ≠ (s.line 2).seen ∧ (s.line 3).input = (s.line 3).seen) := by
  simp only [takes_iff, calm_iff]; decide +kernel

/-- Every call slot is in use, by shelf A. -/
def fullHouse : State :=
  { State.reset.setGroup 3 (open3 [] 0) with calls := Vector.replicate 1024 (some { callRec .queued with owner := .a, tag := 9 }) }

/-- Group 3 is at its depth; it overflows to the open group 4, which is at its depth too. -/
def twoFull : State :=
  let g : GroupRec := { open3 [7] 0 with active := { maxDepth := 1, overflowOnFull := true, overflowTarget := some 4 } }
  (waiting.setGroup 3 g).setGroup 4 { open3 [7] 0 with active := { maxDepth := 1 } }

theorem calls_of {s : State} {p : CallRec → Bool} (h : (s.calls.toList.all fun o => !o.any p) = true) (c : CallSlot) (r : CallRec)
    (e : s.call c = some r) : p r = false := by
  have := (all_table s.calls fun o => !o.any p).mpr h c
  have hg : s.calls.get c = some r := e
  rw [hg] at this
  simpa using this

theorem test_meets_arrivals_refused :
    (Takes waiting .callArrive .b [0x0B, 0x01, 3, 0] ∧ shelfOf .b = some .b ∧ (0x0B01 : Tag).toNat = u16 [0x0B, 0x01, 3, 0] 0
      ∧ ∃ c r, waiting.call c = some r ∧ r.owner = .b ∧ r.tag = 0x0B01)
    ∧ (Takes waiting .callArrive .a [0x0B, 0x01, 64, 0] ∧ 64 ≤ u8 [0x0B, 0x01, 64, 0] 2
      ∧ ¬∃ c r, waiting.call c = some r ∧ r.owner = .a ∧ r.tag = 0x0B01)
    ∧ (Takes State.reset .callArrive .a [0x0B, 0x01, 3, 0] ∧ State.reset.closed 3 = true)
    ∧ (Takes fullHouse .callArrive .b [0x0B, 0x01, 3, 0] ∧ fullHouse.closed 3 = false ∧ (∀ c, fullHouse.call c ≠ none)
      ∧ ¬∃ c r, fullHouse.call c = some r ∧ r.owner = .b ∧ r.tag = 0x0B01)
    ∧ (Takes twoFull .callArrive .a [0x0B, 0x01, 3, 0] ∧ twoFull.closed 3 = false ∧ (∃ c, twoFull.call c = none)
      ∧ twoFull.arrivalPlace 3 = none) := by
  simp only [takes_iff]
  refine ⟨⟨by decide +kernel, rfl, rfl, 7, { callRec .queued with overflowDue := some 0 }, by decide +kernel, rfl, rfl⟩,
    ⟨by decide +kernel, by decide, ?_⟩, by decide +kernel, ⟨by decide +kernel, by decide +kernel, fun c h => ?_, ?_⟩,
    by decide +kernel, by decide +kernel, ⟨0, by decide +kernel⟩, by decide +kernel⟩
  · rintro ⟨c, r, e, h1, h2⟩
    have := calls_of (p := fun r => r.owner == .a && r.tag == 0x0B01) (by decide +kernel) c r e
    simp [h1, h2] at this
  · have := (all_table fullHouse.calls Option.isSome).mpr (by decide +kernel) c
    have hg : fullHouse.calls.get c = none := h
    rw [hg] at this
    cases this
  · rintro ⟨c, r, e, h1, h2⟩
    have := calls_of (p := fun r => r.owner == .b && r.tag == 0x0B01) (by decide +kernel) c r e
    simp [h1, h2] at this

/-- R160, R162: the first listener of a STOPPED source with a program clears its idle passes and starts it. -/
theorem test_arrival_starts :
    let s := (studio.setGroup 3 { open3 [] 0 with active := { music := some 1 } }).setSource 1 { current := some 21, idlePasses := 1 }
    (s.source 1).run = none ∧ (s.programSteps 21).length ≤ 32
      ∧ (after (.callArrive .b (frame [0x0B, 0x01, 3, 0])) s).source 1 =
        { current := some 21, listeners := 1, run := some { program := 21 } } := by decide +kernel

/-- An arrival in its own group, and one that goes one hop. -/
theorem test_meets_arrivals_accepted :
    let hop := twoFull.setGroup 4 (open3 [] 0)
    (Takes (office .ready) .callArrive .b [0x0B, 0x01, 3, 9] ∧ shelfOf .b = some .b ∧ (0x0B01 : Tag).toNat = u16 [0x0B, 0x01, 3, 9] 0
      ∧ (∀ d r, (office .ready).call d = some r → ¬(r.owner = .b ∧ r.tag = 0x0B01)) ∧ u8 [0x0B, 0x01, 3, 9] 2 = (3 : Group).val
      ∧ (office .ready).closed 3 = false ∧ (office .ready).arrivalPlace 3 = some (3, 0) ∧ (office .ready).call 0 = none
      ∧ ∀ d, d < (0 : CallSlot) → (office .ready).call d ≠ none)
    ∧ (Takes hop .callArrive .a [0x0B, 0x01, 3, 9] ∧ (∀ d r, hop.call d = some r → ¬(r.owner = .a ∧ r.tag = 0x0B01))
      ∧ hop.closed 3 = false ∧ hop.arrivalPlace 3 = some (4, 1) ∧ hop.call 0 = none) := by
  simp only [takes_iff]
  refine ⟨⟨by decide +kernel, rfl, rfl, fun d r e h => ?_, rfl, by decide +kernel, by decide +kernel, by decide +kernel,
    fun d h => absurd h (Fin.not_lt_zero d)⟩, by decide +kernel, fun d r e h => ?_, by decide +kernel, by decide +kernel,
    by decide +kernel⟩
  · have := calls_of (p := fun r => r.owner == .b && r.tag == 0x0B01) (by decide +kernel) d r e
    simp [h] at this
  · have := calls_of (p := fun r => r.owner == .a && r.tag == 0x0B01) (by decide +kernel) d r e
    simp [h] at this

/-- A tag that the shelf does not hold, and a call of shelf B in each of its states. -/
theorem test_meets_release :
    let clearing := State.reset.putCall 7 (some (callRec .clearing))
    (Takes State.reset .callRelease .b [0x0B, 0x01] ∧ ∀ c r, State.reset.call c = some r → ¬(r.owner = .b ∧ r.tag = 0x0B01))
    ∧ ∀ s ∈ [waiting, office .offered, office .connected, clearing],
      Takes s .callRelease .b [0x0B, 0x01] ∧ shelfOf .b = some .b ∧ (0x0B01 : Tag).toNat = u16 [0x0B, 0x01] 0
      ∧ (∃ r, s.call 7 = some r ∧ r.owner = .b ∧ r.tag = 0x0B01
        ∧ (r.state = .queued ∨ (r.state = .offered ∧ r.boundAgent = some 5) ∨ (r.state = .connected ∧ r.boundAgent = some 5)
          ∨ r.state = .clearing))
      ∧ ∀ d q, s.call d = some q → q.owner = .b → q.tag = 0x0B01 → d = 7 := by
  refine ⟨⟨(takes_iff ..).mpr (by decide +kernel), fun c r e h => ?_⟩, fun s hs => ?_⟩
  · have := calls_of (p := fun r => r.owner == .b && r.tag == 0x0B01) (by decide +kernel) c r e
    simp [h] at this
  · simp only [List.mem_cons, List.not_mem_nil, or_false] at hs
    rcases hs with rfl | rfl | rfl | rfl
    · exact ⟨(takes_iff ..).mpr (by decide +kernel), rfl, rfl, ⟨{ callRec .queued with overflowDue := some 0 }, by decide +kernel⟩,
        lone_of (by decide +kernel)⟩
    · exact ⟨(takes_iff ..).mpr (by decide +kernel), rfl, rfl,
        ⟨{ callRec .offered with boundAgent := some 5, ring := some 20 }, by decide +kernel⟩, lone_of (by decide +kernel)⟩
    · exact ⟨(takes_iff ..).mpr (by decide +kernel), rfl, rfl, ⟨{ callRec .connected with boundAgent := some 5 }, by decide +kernel⟩,
        lone_of (by decide +kernel)⟩
    · exact ⟨(takes_iff ..).mpr (by decide +kernel), rfl, rfl, ⟨callRec .clearing, by decide +kernel⟩, lone_of (by decide +kernel)⟩

theorem test_meets_overflow_wait :
    let r : CallRec := { callRec .queued with overflowDue := some 0 }
    let late : CallRec := { r with overflowDue := some 1 }
    let rung : CallRec := { callRec .offered with overflowDue := some 0 }
    let s := (waiting.setGroup 3 { open3 [7] 0 with active := { overflowTarget := some 8 } }).setGroup 8 (open3 [] 0)
    (Calm waiting ∧ waiting.call 7 = some r ∧ r.overflowDue = some 0 ∧ 0 ≤ waiting.clock ∧ r.state = .queued
      ∧ waiting.overflowTo r = none)
    ∧ (Calm s ∧ s.call 7 = some r ∧ s.overflowTo r = some 8 ∧ (8 : Group) ≠ r.group ∧ 7 ∉ (s.group 8).queue)
    ∧ ((waiting.putCall 7 (some late)).call 7 = some late ∧ late.overflowDue = some 1 ∧ waiting.clock < 1)
    ∧ ((waiting.putCall 7 (some rung)).call 7 = some rung ∧ rung.state = .offered) := by
  simp only [calm_iff]; decide +kernel

/-- Agent 5 is eligible for call 7. -/
theorem test_eligible : Eligible (waiting.setAgent 5 (agentRec .ready)) { callRec .queued with overflowDue := some 0 } 5 :=
  ⟨by decide +kernel, ⟨⟨3, 5⟩, by decide +kernel, rfl⟩, by decide, by decide +kernel⟩

theorem test_meets_call_trigger :
    let r : CallRec := { callRec .queued with overflowDue := some 0 }
    let s := { waiting.setAgent 5 (agentRec .ready) with callTriggers := [7, 8] }
    Calm s ∧ (9 ∉ s.callTriggers) ∧ 8 ∈ s.callTriggers ∧ s.call 8 = none ∧ 7 ∈ s.callTriggers ∧ s.call 7 = some r ∧ r.state = .queued
      ∧ (s.group 3).swapPending = false ∧ Eligible s r 5 ∧ ∀ a, ¬Eligible { waiting with callTriggers := [7] } r a := by
  refine ⟨(calm_iff _).mpr (by decide +kernel), by decide, by decide, by decide +kernel, by decide, by decide +kernel, rfl,
    by decide +kernel, ⟨by decide +kernel, ⟨⟨3, 5⟩, by decide +kernel, rfl⟩, by decide, by decide +kernel⟩, fun a h => ?_⟩
  have := (all_table waiting.agents fun r => r.state != .ready).mpr (by decide +kernel) a
  have hr := h.ready
  have hg : ({ waiting with callTriggers := [7] } : State).agent a = waiting.agents.get a := rfl
  rw [hg] at hr
  simp [hr] at this

theorem test_meets_agent_trigger :
    let r : CallRec := { callRec .queued with overflowDue := some 0 }
    let s := { waiting.setAgent 5 (agentRec .ready) with agentTriggers := [5, 6] }
    Calm s ∧ 7 ∉ s.agentTriggers ∧ 6 ∈ s.agentTriggers ∧ (s.agent 6).state ≠ .ready ∧ 5 ∈ s.agentTriggers ∧ (s.agent 5).state = .ready
      ∧ (s.port (portOf (s.agent 5).home)).notices.length < 64 ∧ Candidate s 5 3 7 r
      ∧ ∀ c q, ¬∃ k ∈ ((office .ready).agent 5).skills, Candidate (office .ready) 5 k.group c q := by
  refine ⟨(calm_iff _).mpr (by decide +kernel), by decide, by decide, by decide +kernel, by decide, by decide +kernel, by decide +kernel,
    ⟨by decide +kernel, by decide +kernel, by decide, [], [], by decide +kernel, by simp⟩, ?_⟩
  rintro c q ⟨k, hk, h⟩
  have hq : ((office .ready).agent 5).skills = [⟨3, 5⟩] := by decide +kernel
  rw [hq, List.mem_singleton] at hk
  subst hk
  obtain ⟨-, -, -, l, m, e, -⟩ := h
  have he : ((office .ready).group 3).queue = [] := by decide +kernel
  rw [he] at e
  simp at e

theorem test_meets_sweep : Calm State.reset ∧ State.reset.sweepWaiting = false ∧ Calm { State.reset with sweepWaiting := true } := by
  simp only [calm_iff]; decide +kernel

theorem test_meets_tiebreak :
    Port.a ≠ .s ∧ Calm State.reset ∧ (State.reset.port .a).slot = .idle ∧ Takes State.reset .tiebreakSet .s [0, 0, 0, 0]
      ∧ (1 : Word16).toNat = (if u16 [0, 0, 0, 0] 0 = 0 then 0x0001 else u16 [0, 0, 0, 0] 0)
      ∧ (0xD008 : Word16).toNat = (if u16 [0, 0, 0, 0] 2 = 0 then 0xD008 else u16 [0, 0, 0, 0] 2)
      ∧ Takes State.reset .tiebreakRead .s [] := by
  simp only [takes_iff, calm_iff]; decide +kernel

theorem test_meets_averages :
    let r : GroupRec := { average := some 3760 }
    State.reset.group 5 = {} ∧ ({} : GroupRec).average = none
      ∧ ((State.reset.setGroup 5 r).group 5).average = some 3760 ∧ 16 ≤ 3760 ∧ 3760 ≤ 65520 ∧ 1 ≤ r.active.shift ∧ r.active.shift ≤ 6
      ∧ 3760 ≤ 16 * min 4095 (max 1 346) ∧ 16 * min 4095 (max 1 100) ≤ 3760 ∧ 1606 < 16 * 100 + 2 ^ 3 ∧ 16 * 100 < 1606 + 2 ^ 3 := by
  decide +kernel

theorem test_meets_say_steps :
    let s := waiting.setGroup 3 { open3 [7] 0 with average := some 16, staffed := 1 }
    (waiting.call 7 = some { callRec .queued with overflowDue := some 0 } ∧ 7 ∈ (waiting.group 3).queue
      ∧ (waiting.group 3).staffed = 0)
    ∧ (s.call 7 ≠ none ∧ 7 ∈ (s.group 3).queue ∧ (s.group 3).average = some 16 ∧ (s.group 3).staffed = 1) := by decide +kernel

/-- A write next to a segment in use, one that touches its first byte, and one past the end of the RAM. -/
theorem test_meets_store_write :
    let s := State.reset.setSegment 4 { start := 8, length := 2, inUse := 1 }
    Port.a ≠ .s ∧ Calm s ∧ (s.port .a).slot = .idle ∧ Memory.wf s.ram = true
    ∧ (Takes s .storeWrite .s [0, 0x3F, 0xFF, 0xFF, 1, 2] ∧ 4194304 < u32 [0, 0x3F, 0xFF, 0xFF, 1, 2] 0 + 2)
    ∧ (Takes s .storeWrite .s [0, 0, 0, 7, 1, 2] ∧ u32 [0, 0, 0, 7, 1, 2] 0 + 2 ≤ 4194304
      ∧ ∃ (k : SegmentCode) (i : Nat), i < 2 ∧ (s.segment k).inUse ≠ 0 ∧ (s.segment k).start ≤ 7 + i
        ∧ 7 + i < (s.segment k).start + (s.segment k).length)
    ∧ (Takes State.reset .storeWrite .s [0, 0x3F, 0xFF, 0xFF, 1] ∧ u32 [0, 0x3F, 0xFF, 0xFF, 1] 0 + 1 ≤ 4194304
      ∧ ¬∃ (k : SegmentCode) (i : Nat), i < 1 ∧ (State.reset.segment k).inUse ≠ 0 ∧ (State.reset.segment k).start ≤ 4194303 + i
        ∧ 4194303 + i < (State.reset.segment k).start + (State.reset.segment k).length) := by
  simp only [takes_iff, calm_iff]
  refine ⟨by decide, by decide +kernel, rfl, rfl, by decide +kernel, ⟨by decide +kernel, by decide, 4, 1, by decide +kernel⟩,
    by decide +kernel, by decide, ?_⟩
  rintro ⟨k, i, -, h, -⟩
  have := (all_table State.reset.segments fun e => e.inUse == 0).mpr (by decide +kernel) k
  exact h (show (State.reset.segments.get k).inUse = 0 by simpa using this)

theorem test_meets_loads :
    let busy := State.reset.setSegment 4 { start := 8, length := 2, inUse := 1 }
    (Takes State.reset .segmentLoad .s [240, 0, 0, 0, 8, 0, 0, 0, 2] ∧ 240 ≤ u8 [240, 0, 0, 0, 8, 0, 0, 0, 2] 0)
    ∧ (Takes State.reset .segmentLoad .s [239, 0, 0x3F, 0xFF, 0xFF, 0, 0, 0, 1]
      ∧ u32 [239, 0, 0x3F, 0xFF, 0xFF, 0, 0, 0, 1] 1 + u32 [239, 0, 0x3F, 0xFF, 0xFF, 0, 0, 0, 1] 5 ≤ 4194304
      ∧ (State.reset.segment 239).inUse = 0)
    ∧ (Takes busy .segmentLoad .s [4, 0, 0, 0, 8, 0, 0, 0, 0] ∧ (busy.segment 4).inUse ≠ 0 ∧ u32 [4, 0, 0, 0, 8, 0, 0, 0, 0] 5 = 0)
    ∧ (Takes State.reset .programLoad .s [64, 0] ∧ 64 ≤ u8 [64, 0] 0)
    ∧ (Takes State.reset .programLoad .s [63, 2, 2, 0, 7, 0] ∧ u8 [63, 2, 2, 0, 7, 0] 1 ≤ 32
      ∧ ¬∃ i, i < u8 [63, 2, 2, 0, 7, 0] 1 ∧ (u8 [63, 2, 2, 0, 7, 0] (2 + 2 * i) = 0 ∨ 7 < u8 [63, 2, 2, 0, 7, 0] (2 + 2 * i)))
    ∧ (Takes tuned .programLoad .s [21, 0] ∧ (tuned.source 1).run = some { program := 21 })
    ∧ (Takes State.reset .programLoad .s [63, 1, 8, 0] ∧ 7 < u8 [63, 1, 8, 0] 2)
    ∧ (Takes State.reset .vocabLoad .s [29, 0, 0] ∧ 29 ≤ u8 [29, 0, 0] 0)
    ∧ (Takes State.reset .vocabLoad .s [28, 1, 0] ∧ 256 ≤ u16 [28, 1, 0] 1 ∧ u16 [28, 1, 0] 1 ≠ 0xFFFF)
    ∧ (Takes State.reset .vocabLoad .s [28, 0, 255] ∧ u16 [28, 0, 255] 1 = (255 : Byte).toNat ∧ u16 [28, 255, 255] 1 = 0xFFFF) := by
  simp only [takes_iff]; decide +kernel

theorem storeLegal_of {s : State} (h : (Memory.wf s.ram && s.segments.toList.all SegmentRec.legal
    && s.programs.toList.all fun l => decide (l.length ≤ 32)) = true) : StoreLegal s := by
  simp only [Bool.and_eq_true] at h
  refine ⟨h.1.1, (all_table _ _).mpr h.1.2, fun p => ?_⟩
  have := (all_table _ _).mpr h.2 p
  exact of_decide_eq_true this

theorem test_meets_source_set :
    let held := studio.setSource 2 { listeners := 1 }
    (Takes studio .sourceSet .s [8, 21] ∧ 8 ≤ u8 [8, 21] 0 ∧ 64 ≤ u8 [2, 64] 1 ∧ u8 [2, 64] 1 ≠ 255)
    ∧ (Takes studio .sourceSet .s [2, 21] ∧ u8 [2, 21] 0 = (2 : SourceNo).val ∧ u8 [2, 21] 1 = codeNumber (some (21 : ProgramNo))
      ∧ (studio.source 2).run = none ∧ (studio.source 2).listeners = 0)
    ∧ (Takes held .sourceSet .s [2, 21] ∧ (held.source 2).run = none ∧ 0 < (held.source 2).listeners ∧ StoreLegal held)
    ∧ (Takes tuned .sourceSet .s [1, 21] ∧ (tuned.source 1).run ≠ none ∧ some 21 = (tuned.source 1).current)
    ∧ (Takes tuned .sourceSet .s [1, 255] ∧ u8 [1, 255] 1 = codeNumber (none : Option ProgramNo) ∧ none ≠ (tuned.source 1).current)
    ∧ (Takes studio .sourceLimit .s [8, 0] ∧ 8 ≤ u8 [8, 0] 0 ∧ Takes studio .sourceLimit .s [7, 16]) := by
  simp only [takes_iff]
  exact ⟨by decide +kernel, by decide +kernel, ⟨by decide +kernel, by decide +kernel, by decide +kernel, storeLegal_of (by decide +kernel)⟩,
    by decide +kernel, by decide +kernel, by decide +kernel⟩

theorem test_meets_slot_map :
    (Takes tuned .slotMap .s [24, 31, 0] ∧ 24 ≤ u8 [24, 31, 0] 0 ∧ Takes tuned .slotMap .s [1, 32, 0] ∧ 32 ≤ u8 [1, 32, 0] 1
      ∧ Takes tuned .slotMap .s [1, 31, 2] ∧ 2 ≤ u8 [1, 31, 2] 2)
    ∧ (Takes tuned .slotMap .s [1, 2, 0] ∧ (2 : HighwayChannel) ≠ 1 ∧ tuned.slotOf 2 = some 2)
    ∧ (Takes tuned .slotMap .s [1, 1, 1] ∧ (∀ k, k ≠ (1 : HighwayChannel) → tuned.slotOf k ≠ some 1) ∧ tuned.slotOf 1 = some 1)
    ∧ (Takes tuned .slotMap .s [1, 255, 1] ∧ u8 [1, 255, 1] 1 = codeNumber (none : Option Timeslot) ∧ tuned.slotOf 1 ≠ none)
    ∧ Takes tuned .idleByteSet .s [0] := by
  simp only [takes_iff]; decide +kernel

/-- R152, R153: a missing word is reported within the frame that leaves the word before it. -/
theorem test_missing_word :
    let t := after .highwayFrame (tuned.setChannel 0 (some ⟨7, { program := 20, words := [19, 2], position := 7999 }⟩))
    t.device.segmentFault = true ∧ t.portS.notices = [.watch .segmentFault]
      ∧ t.channel 0 = some ⟨7, { program := 20, words := [19, 2], word := 1, played := true }⟩ := by decide +kernel

theorem runs_of {s : State} {f : Run → Bool} (h : ((List.finRange 24).all fun k => (s.runOf k).all f) = true) (k : HighwayChannel) (r : Run)
    (e : s.runOf k = some r) : f r = true := by
  have := List.all_eq_true.mp h k (List.mem_finRange k)
  rw [e] at this
  exact this

/-- A source that plays, and a channel at the last byte of the first of two words, the second of which is missing. -/
theorem test_meets_highway_frame :
    let r : Run := { program := 20, words := [19, 2], position := 7999 }
    let s := tuned.setChannel 0 (some ⟨7, r⟩)
    Calm s ∧ SlotsApart s ∧ (∀ h q, s.runOf h = some q → ¬s.stepOver q ∧ ¬s.fillOver q)
      ∧ s.runOf 8 = some r ∧ s.nextWord r = some 2 ∧ s.wordSegment 2 = none ∧ s.nextWord { program := 21 } = none
      ∧ s.runOf 1 = some { program := 21 } ∧ s.runOf 2 = none ∧ (∀ h, s.slotOf h ≠ some 24) ∧ s.slotOf 8 = some 8 := by
  intro r s
  refine ⟨(calm_iff _).mpr (by decide +kernel), by unfold SlotsApart; decide +kernel, fun h q e => ?_, by decide +kernel, by decide +kernel,
    by decide +kernel, by decide +kernel, by decide +kernel, by decide +kernel, by decide +kernel, by decide +kernel⟩
  have := runs_of (f := fun q => decide (q.position < s.lasts q)) (by decide +kernel) h q e
  have hl : q.position < s.lasts q := of_decide_eq_true this
  exact ⟨fun ho => by have := ho.2.2; omega, fun ho => by have := ho.2; omega⟩

/-- A source whose silence is over, a channel whose segment is over, and runs whose steps are not. -/
theorem test_meets_step_complete :
    let r : Run := { program := 21, position := 800, played := true }
    let q : Run := { program := 20, segment := some 50, position := 2, played := true }
    let k : CallRec := { callRec .queued with listen := .announce 0 }
    let s := ((due.putCall 7 (some k)).setChannel 0 (some ⟨7, q⟩)).setSource 1 { current := some 21, run := some r }
    Calm s ∧ StoreLegal s ∧ Arbitrated s ∧ (∀ p, s.runOf 2 = some p → ¬s.stepOver p)
      ∧ (s.runOf 1 = some r ∧ s.stepOver r ∧ playerOf 1 = .source 1)
      ∧ (s.runOf 8 = some q ∧ s.stepOver q ∧ playerOf 8 = .channel 0 ∧ s.channel 0 = some ⟨7, q⟩ ∧ s.call 7 = some k
        ∧ k.listen = .announce 0 ∧ s.waitList = []) := by
  intro r q k s
  refine ⟨(calm_iff _).mpr (by decide +kernel), storeLegal_of (by decide +kernel), .inl rfl, fun p e => ?_,
    ⟨by decide +kernel, ⟨rfl, by decide, by decide +kernel⟩, rfl⟩,
    by decide +kernel, ⟨rfl, by decide, by decide +kernel⟩, rfl, by decide +kernel, by decide +kernel, rfl, rfl⟩
  have : s.runOf 2 = none := by decide +kernel
  rw [this] at e
  cases e

/-- A channel at the end of its announcement, with every channel BUSY and a call on the wait list. -/
theorem test_meets_step_complete_waiting :
    let q : Run := { program := 20, step := 1, position := 8000, played := true }
    let k : CallRec := { callRec .queued with listen := .announce 0 }
    let w : CallRec := { callRec .queued with tag := 2, onWaitList := true }
    let s := { (tuned.putCall 7 (some k)).putCall 8 (some w) with
      channels := Vector.replicate 16 (some ⟨7, q⟩), waitList := [⟨8, 0⟩] }
    Calm s ∧ StoreLegal s ∧ Arbitrated s ∧ s.runOf 8 = some q ∧ s.stepOver q ∧ playerOf 8 = .channel 0 ∧ s.channel 0 = some ⟨7, q⟩
      ∧ s.call 7 = some k ∧ k.listen = .announce 0 ∧ ∀ e ∈ s.waitList, s.call e.call ≠ none := by
  intro q k w s
  refine ⟨(calm_iff _).mpr (by decide +kernel), storeLegal_of (by decide +kernel), .inr (by decide +kernel), by decide +kernel,
    ⟨rfl, by decide, by decide +kernel⟩, rfl, by decide +kernel, by decide +kernel, rfl, fun e h => ?_⟩
  rw [List.mem_singleton.mp h]
  decide +kernel

theorem test_meets_fill_complete :
    let r : Run := { program := 22, position := 8000, played := true, fill := some .restart }
    let q : Run := { program := 23, position := 8000, played := true, fill := some .jump }
    let k : CallRec := { callRec .queued with listen := .announce 0 }
    let s := ((due.putCall 7 (some k)).setChannel 0 (some ⟨7, q⟩)).setSource 1 { current := some 22, run := some r }
    Calm s ∧ StoreLegal s ∧ Arbitrated s ∧ (∀ p, s.runOf 2 = some p → ¬s.fillOver p)
      ∧ (s.runOf 1 = some r ∧ s.fillOver r ∧ r.fill = some .restart ∧ playerOf 1 = .source 1)
      ∧ (s.runOf 8 = some q ∧ s.fillOver q ∧ q.fill = some .jump ∧ playerOf 8 = .channel 0 ∧ s.channel 0 = some ⟨7, q⟩
        ∧ s.call 7 = some k ∧ k.listen = .announce 0 ∧ s.waitList = []) := by
  intro r q k s
  refine ⟨(calm_iff _).mpr (by decide +kernel), storeLegal_of (by decide +kernel), .inl rfl, fun p e => ?_,
    ⟨by decide +kernel, ⟨by decide, by decide +kernel⟩, rfl, rfl⟩,
    by decide +kernel, ⟨by decide, by decide +kernel⟩, rfl, rfl, by decide +kernel, by decide +kernel, rfl, rfl⟩
  have : s.runOf 2 = none := by decide +kernel
  rw [this] at e
  cases e

/-- A call that is due with a channel FREE, with none FREE, before its second, and on the list. -/
theorem test_meets_announcement_due :
    let r : CallRec := { callRec .queued with listen := .music 1, nextDue := some 0 }
    let busy := { due with channels := Vector.replicate 16 (some ⟨8, { program := 20 }⟩) }
    let listed := { busy with waitList := [⟨7, 0⟩] }
    let plain := due.setGroup 3 (open3 [7] 0)
    (WrapsOver due ∧ StoreLegal due ∧ Arbitrated due ∧ due.call 7 = some r ∧ r.nextDue = some 0 ∧ 0 ≤ due.clock ∧ r.state = .queued
      ∧ due.waitList = [] ∧ due.channel 0 = none ∧ (∀ i, i < (0 : ChannelNo) → due.channel i ≠ none) ∧ r.onWaitList = false
      ∧ due.clock < 0 + 30 ∧ due.device.starvedCondition = false ∧ (due.group r.group).active.program = some 20
      ∧ (plain.group r.group).active.program = none)
    ∧ (WrapsOver busy ∧ StoreLegal busy ∧ Arbitrated busy ∧ busy.call 7 = some r ∧ (¬∃ e ∈ busy.waitList, e.call = 7)
      ∧ (∀ j, busy.channel j ≠ none) ∧ ∀ e ∈ busy.waitList, busy.call e.call ≠ none)
    ∧ (Arbitrated listed ∧ ∃ e ∈ listed.waitList, e.call = 7)
    ∧ (due.putCall 7 (some { r with nextDue := some 1 })).clock < 1 := by
  refine ⟨⟨(wraps_iff _).mpr (by decide +kernel), storeLegal_of (by decide +kernel), .inl rfl, by decide +kernel, rfl, by decide, rfl, rfl,
    by decide +kernel, fun i h => absurd h (Fin.not_lt_zero i), rfl, by decide, rfl, by decide +kernel, by decide +kernel⟩,
    ⟨(wraps_iff _).mpr (by decide +kernel), storeLegal_of (by decide +kernel), .inl rfl, by decide +kernel, ?_, by decide +kernel, ?_⟩,
    ⟨.inr (by decide +kernel), ⟨7, 0⟩, by decide +kernel, rfl⟩, by decide +kernel⟩
  · rintro ⟨e, h, -⟩; cases h
  · intro e h; cases h

/-- A queue with an owed list whose first pair is dropped and whose second is built. -/
theorem test_meets_fetch :
    let s := ((office .aux).setAgent 5 { agentRec .aux with owed := true }).setPort .a
      { notices := List.replicate 64 (.cleared 1), owed := [.call 9 .listen, .agentState 5] }
    Takes State.reset .fetch .a [] ∧ (State.reset.port .a).notices = [] ∧ Takes s .fetch .a []
      ∧ (s.port .a).notices = .cleared 1 :: List.replicate 63 (.cleared 1) ∧ (∀ n, ¬BuiltAs s (.call 9 .listen) n)
      ∧ BuiltAs s (.agentState 5) (.agentState 5 .aux 0 0 none) := by
  simp only [takes_iff]
  refine ⟨by decide +kernel, rfl, by decide +kernel, by decide +kernel, fun n h => ?_, ?_⟩
  · obtain ⟨r, e, -⟩ := h
    have : (((office .aux).setAgent 5 { agentRec .aux with owed := true }).setPort .a
      { notices := List.replicate 64 (.cleared 1), owed := [.call 9 .listen, .agentState 5] }).call 9 = none := by decide +kernel
    rw [this] at e
    cases e
  · show Notice.agentState 5 .aux 0 0 none = Notice.agentState 5 _ _ _ _
    decide +kernel

theorem test_meets_watch_clear :
    Takes State.reset .watchClear .s [1, 2, 64] ∧ 64 ≤ u8 [1, 2, 64] 2 ∧ u8 [1, 2, 64] 2 ≠ 0xFE ∧ u8 [1, 2, 64] 2 ≠ 0xFF
      ∧ Takes State.reset .watchClear .s [7, 7, 63] ∧ u8 [7, 7, 63] 2 < 64 ∧ Takes State.reset .watchClear .s [7, 7, 0xFE]
      ∧ Takes State.reset .watchClear .s [7, 7, 0xFF] := by
  simp only [takes_iff]; decide +kernel

/-- The office with agent 5 on call 7 is `office .offered`, counted and numbered as the manual has it. -/
def offered : State :=
  { (office .offered).setGroup 3 { open3 [7] 1 with staffed := 1 } with seqCounter := 1 }

/-- The record of call 7 there. -/
def offeredCall : CallRec := { callRec .offered with boundAgent := some 5, ring := some 20 }

theorem one_call {s : State} {r : CallRec} (h7 : s.call 7 = some r) (h : (s.putCall 7 none).calls.toList.all Option.isNone = true)
    (c : CallSlot) : s.call c = if c = 7 then some r else none := by
  by_cases hc : c = 7
  · rw [hc, h7, if_pos rfl]
  · have e : (s.putCall 7 none).call c = s.call c := by rw [State.putCall_call, if_neg hc]
    rw [if_neg hc, ← e]
    exact Option.isNone_iff_eq_none.mp ((all_table _ _).mpr h c)

theorem one_agent {s : State} {r : AgentRec} (h5 : s.agent 5 = r)
    (h : ((s.setAgent 5 {}).agents.toList.all fun r => decide (r = {})) = true) (a : AgentSlot) :
    s.agent a = if a = 5 then r else {} := by
  by_cases ha : a = 5
  · rw [ha, h5, if_pos rfl]
  · have e : (s.setAgent 5 {}).agent a = s.agent a := by rw [State.setAgent_agent, if_neg ha]
    rw [if_neg ha, ← e]
    exact of_decide_eq_true ((all_table (s.setAgent 5 {}).agents fun r => decide (r = {})).mpr h a)

/-- One agent and one call that are bound to each other are bound as R4 has it. -/
theorem one_pair {s : State} {k : AgentRec} {r : CallRec} (hc : ∀ c, s.call c = if c = 7 then some r else none)
    (ha : ∀ a, s.agent a = if a = 5 then k else {}) (hk : k.boundCall = some 7) (hr : r.boundAgent = some 5)
    (hs : (r.state = .offered ∧ k.state = .offered ∧ r.ring ≠ none) ∨ (r.state = .connected ∧ k.state = .connected ∧ r.ring = none)) :
    BindingsLegal s where
  both a c := by
    rw [ha, hc]
    by_cases h5 : a = 5 <;> by_cases h7 : c = 7 <;> simp [h5, h7, hk, hr, eq_comm]
  agents a := by
    rw [ha]
    by_cases h5 : a = 5
    · rcases hs with h | h <;> simp [h5, hk, h.2.1]
    · simp [h5]
  calls c q h := by
    rw [hc] at h
    split at h <;> cases h
    rcases hs with h | h <;> simp [hr, h.1]
  states c q a h hb := by
    rw [hc] at h
    split at h <;> cases h
    rw [hr] at hb
    cases hb
    rw [ha, if_pos rfl]
    rcases hs with h | h <;> simp [h.1, h.2.1]
  ring c q h := by
    rw [hc] at h
    split at h <;> cases h
    rcases hs with h | h <;> simp [h.1, h.2.2]

theorem offered_call (c : CallSlot) : offered.call c = if c = 7 then some offeredCall else none :=
  one_call (by decide +kernel) (by decide +kernel) c

theorem offered_agent (a : AgentSlot) : offered.agent a = if a = 5 then { agentRec .offered with boundCall := some 7 } else {} :=
  one_agent (by decide +kernel) (by decide +kernel) a

theorem offered_group (g : Group) : offered.group g = if g = 3 then { open3 [7] 1 with staffed := 1 } else {} := by
  by_cases h : g = 3
  · subst h; decide +kernel
  · rw [if_neg h]
    have := (all_table (offered.setGroup 3 {}).groups fun r => decide (r = {})).mpr (by decide +kernel) g
    have e : (offered.setGroup 3 {}).group g = offered.group g := by rw [State.setGroup_group, if_neg h]
    rw [← e]
    exact of_decide_eq_true this

theorem offered_bindings : BindingsLegal offered :=
  one_pair offered_call offered_agent rfl rfl (.inl ⟨rfl, rfl, nofun⟩)

theorem connected_bindings : BindingsLegal (office .connected) :=
  one_pair (r := { callRec .connected with boundAgent := some 5 }) (k := { agentRec .connected with boundCall := some 7 })
    (one_call (by decide +kernel) (by decide +kernel)) (one_agent (by decide +kernel) (by decide +kernel)) rfl rfl (.inr ⟨rfl, rfl, rfl⟩)

theorem offered_queues : QueuesLegal offered where
  members g c := by
    rw [offered_call, offered_group]
    by_cases hg : g = 3 <;> by_cases hc : c = 7 <;> simp [hg, hc, open3, offeredCall, callRec, CallRec.waits, eq_comm]
  once g := by
    rw [offered_group]
    split <;> simp [open3]
  order g := by
    rw [offered_group]
    split <;> simp [open3]
  numbers c d r q h k _ := by
    rw [offered_call] at h k
    split at h <;> split at k <;> simp_all
  counter c r h := by
    rw [offered_call] at h
    split at h <;> simp_all
    subst h
    decide +kernel

theorem offered_runs (h : HighwayChannel) : offered.runOf h = none := by
  revert h
  decide +kernel

theorem offered_counts : CountsLegal offered where
  offers g := by
    simp only [offered_group, offered_call]
    by_cases hg : g = 3
    · subst hg; decide +kernel
    · rw [if_neg hg, List.filter_eq_nil_iff.mpr]
      · rfl
      · intro c _
        by_cases hc : c = 7 <;> simp [hc, offeredCall, callRec, Ne.symm hg]
  swap g h := by
    rw [offered_group] at h
    split at h <;> simp [open3] at h
  staffed g := by
    simp only [offered_group, offered_agent]
    by_cases hg : g = 3
    · subst hg; decide +kernel
    · rw [if_neg hg, List.filter_eq_nil_iff.mpr]
      · rfl
      · intro a _
        by_cases ha : a = 5 <;> simp [ha, agentRec, AgentRec.staffs, Ne.symm hg]
  segments k := by
    rw [List.filter_eq_nil_iff.mpr]
    · have := (all_table offered.segments fun e => decide (e.inUse = 0)).mpr (by decide +kernel) k
      exact of_decide_eq_true this
    · intro h _
      simp [offered_runs]
  fills h r e := by
    rw [offered_runs] at e
    cases e
  listeners m := by
    rw [List.filter_eq_nil_iff.mpr]
    · have := (all_table offered.sources fun q => decide (q.listeners = 0)).mpr (by decide +kernel) m
      exact of_decide_eq_true this
    · intro c _
      rw [offered_call]
      by_cases hc : c = 7 <;> simp [hc, offeredCall, callRec]

theorem offered_hearing : HearingLegal offered where
  flags c r h := by
    rw [offered_call] at h
    split at h <;> simp_all
    subst h
    exact ⟨nofun, nofun⟩
  entries e h := by cases h
  once := List.nodup_nil
  order := List.Pairwise.nil
  channels c r j h := by
    have : ∀ j, offered.channel j = none := by decide +kernel
    rw [offered_call] at h
    rw [this j]
    split at h <;> simp_all
    subst h; simp [offeredCall, callRec]
  served j b h := by
    have : ∀ j, offered.channel j = none := by decide +kernel
    rw [this j] at h
    cases h
  dues c r j h hl := by
    rw [offered_call] at h
    split at h <;> simp_all
    subst h; rfl
  away c r h hw := by
    rw [offered_call] at h
    split at h <;> simp_all
    subst h
    simp [CallRec.waits, offeredCall, callRec] at hw

theorem offered_owed : OwedLegal offered where
  once p := by cases p <;> exact List.nodup_nil
  agents p a := by
    have : (offered.port p).owed = [] := by cases p <;> rfl
    rw [this, offered_agent]
    split <;> simp [agentRec]
  calls p c k := by
    have : (offered.port p).owed = [] := by cases p <;> rfl
    rw [this, offered_call]
    split <;> cases k <;> simp [offeredCall, callRec]
  watch p := by
    have : (offered.port p).owed = [] := by cases p <;> rfl
    rw [this]
    exact ⟨nofun, fun h => absurd h.1 (by decide +kernel)⟩

/-- A state in which an agent rings meets every legality, and a step is taken from it. -/
theorem test_meets_legal : StoreLegal offered ∧ SlotsApart offered ∧ PortsLegal offered ∧ GroupsLegal offered ∧ RecordsLegal offered
    ∧ OwedLegal offered ∧ LinksLegal offered ∧ Arbitrated offered ∧ ∃ t, step offered = .next t := by
  refine ⟨storeLegal_of (by decide +kernel), by unfold SlotsApart; decide +kernel, ⟨fun p => ?_, fun p h => ?_⟩, ⟨fun g => ?_, fun g => ?_,
    fun g a h => ?_⟩, ⟨fun c r h => ?_, fun c r h => ?_, fun c r h => ?_, fun c d r q h k _ _ => ?_, fun a => ?_, by decide +kernel,
    by decide +kernel, by decide +kernel⟩, offered_owed, ⟨offered_bindings, offered_queues, offered_counts, offered_hearing⟩, .inl rfl,
    offered, rfl⟩
  · cases p <;> exact Nat.zero_le _
  · cases p <;> exact absurd rfl h
  · rw [offered_group]; split <;> exact ⟨by decide, nofun⟩
  · rw [offered_group]; split <;> exact ⟨by decide, nofun⟩
  · rw [offered_group] at h; split at h <;> cases h
  · rw [offered_call] at h; split at h <;> simp_all; subst h; decide
  · rw [offered_call] at h; split at h <;> simp_all; subst h; decide
  · rw [offered_call] at h; split at h <;> simp_all; subst h; decide
  · rw [offered_call] at h k; split at h <;> split at k <;> simp_all
  · rw [offered_agent]; split <;> decide

/-- Purges of the call's shelf and of the agent's, the two being bound, OFFERED and CONNECTED. -/
theorem test_meets_purge :
    (Takes offered .purge .b [] ∧ Port.b = portOf .b ∧ BindingsLegal offered ∧ (offered.agent 5).home ≠ .b
      ∧ (offered.agent 5).state = .offered ∧ (offered.agent 5).boundCall = some 7 ∧ offered.call 7 = some offeredCall
      ∧ offeredCall.owner = .b ∧ LinksLegal offered)
    ∧ (Takes offered .purgeShelf .s [1] ∧ shelfOfByte (u8 [1] 0) = some .b ∧ Takes State.reset .purgeShelf .s [2] ∧ 2 ≤ u8 [2] 0)
    ∧ (Takes (office .connected) .purge .b [] ∧ Takes (office .connected) .purge .a [] ∧ BindingsLegal (office .connected)
      ∧ ((office .connected).agent 5).home = .a ∧ ((office .connected).agent 5).state = .connected
      ∧ ((office .connected).agent 5).boundCall = some 7
      ∧ (office .connected).call 7 = some { callRec .connected with boundAgent := some 5 })
    ∧ ∀ c r, offered.call c = some r → r.owner = .b → r.state = .offered → r.boundAgent ≠ none := by
  simp only [takes_iff]
  refine ⟨⟨by decide +kernel, rfl, offered_bindings, by decide +kernel, by decide +kernel, by decide +kernel, by decide +kernel, rfl,
      ⟨offered_bindings, offered_queues, offered_counts, offered_hearing⟩⟩,
    by decide +kernel, ⟨by decide +kernel, by decide +kernel, connected_bindings, by decide +kernel, by decide +kernel, by decide +kernel,
    by decide +kernel⟩, fun c r e _ hs h => ?_⟩
  exact (offered_bindings.calls c r e).mpr (.inl hs) h

theorem test_meets_restart : Takes (office .connected) .restart .s [] := by
  simp only [takes_iff]; decide +kernel

/-- A second with a ring timer that runs, and the last second that the clock can show. -/
theorem test_meets_clock :
    let last := { State.reset with clock := 4294967295 }
    (Calm (office .offered) ∧ (∀ c r, (office .offered).call c = some r →
        (∀ e, r.ring = some e → (office .offered).clock < e) ∧ (∀ e, r.overflowDue = some e → (office .offered).clock < e)
          ∧ ∀ e, r.nextDue = some e → (office .offered).clock < e) ∧ (office .offered).clock < 4294967295)
    ∧ (Calm last ∧ last.clock = 4294967295) := by
  refine ⟨⟨(calm_iff _).mpr (by decide +kernel), fun c r e => ?_, by decide +kernel⟩, (calm_iff _).mpr (by decide +kernel), rfl⟩
  have h1 := calls_of (p := fun r => r.ring != some 20) (by decide +kernel) c r e
  have h2 := calls_of (p := fun r => r.overflowDue.isSome || r.nextDue.isSome) (by decide +kernel) c r e
  have h3 : (office .offered).clock = 0 := by decide +kernel
  simp only [bne_eq_false_iff_eq, Bool.or_eq_false_iff, Option.isSome_eq_false_iff, Option.isNone_iff_eq_none] at h1 h2
  rw [h1, h2.1, h2.2, h3]
  simp

/-- Reset is legal in each way that a step keeps, and a step is taken from it. -/
theorem test_meets_invariants : StoreLegal State.reset ∧ SlotsApart State.reset ∧ step State.reset = .next State.reset
    ∧ (∀ p, (State.reset.port p).notices = [] ∧ (State.reset.port p).owed = [])
    ∧ (State.reset.groups.toList.all fun g => g.active.legal && g.staged.legal && g.average.isNone && g.active.overflowTarget.isNone
      && g.staged.overflowTarget.isNone) = true
    ∧ (State.reset.calls.toList.all Option.isNone && State.reset.agents.toList.all fun a => skillsLegal a.skills) = true
    ∧ State.reset.seed ≠ 0 ∧ State.reset.taps ≠ 0 ∧ State.reset.generator ≠ 0 := by
  refine ⟨storeLegal_of (by decide +kernel), by unfold SlotsApart; decide +kernel, rfl, fun p => by cases p <;> exact ⟨rfl, rfl⟩,
    by decide +kernel, by decide +kernel, by decide, by decide, by decide⟩

end Sys2Proof.Tests
end

/-! Agent requests that leave the call alone: what the checks of R8 hand on, what the change of one agent's record leaves after its
answer, and SIGN_IN and READY by the agent's state. -/
namespace Sys2Proof.Machine

/-! ### The agent that a request acts on (R8) -/

theorem below_val {n v : Nat} (i : Fin n) (h : v = i.val) : below n v = some i := by
  subst h
  exact dif_pos i.isLt

/-- In the state in which the owning block acts, the checks 2 and 3 of R8 hand on the defined agent that the parameters name. -/
theorem asAgent_taken {s : State} {p : Port} {ps : List Byte} {a : AgentSlot} (home : Bool) (body : List Byte)
    (act : AgentSlot → Reply) (hn : Names s ps a) (hh : home = true → p = portOf (s.agent a).home) :
    asAgent p home ps (s.taken p body) act = act a := by
  have hb : (home && p != portOf (s.agent a).home) = false := by
    cases home with
    | false => rfl
    | true => simpa using hh rfl
  simp [asAgent, below_val a hn.names, hn.defined, hb]

/-- A request of a kind that is not forced comes from the agent's home port. -/
theorem actsOn_home {s : State} {k : Kind} {p : Port} {ps : List Byte} {a : AgentSlot} (h : ActsOn s k p ps a)
    (hx : k ≠ .forceAux) (ho : k ≠ .forceSignOut) : p = portOf (s.agent a).home :=
  (h.home.resolve_left hx).resolve_left ho

theorem actsOn_asAgent {s : State} {k : Kind} {p : Port} {ps : List Byte} {a : AgentSlot} (h : ActsOn s k p ps a)
    (hx : k ≠ .forceAux) (ho : k ≠ .forceSignOut) (body : List Byte) (act : AgentSlot → Reply) :
    asAgent p true ps (s.taken p body) act = act a :=
  asAgent_taken true body act h.toNames fun _ => actsOn_home h hx ho

/-! ### The answer of an agent's request -/

/-- The transaction sides of the other ports are as they were before a request was taken and answered. -/
theorem answer_otherSlots {s : State} {p : Port} {body : List Byte} {r : Reply} (h : KeepsSlots (s.taken p body) r.state) :
    OtherSlots s (State.answer p r) p := by
  intro q hq
  have ha : (State.answer p r).port q = r.state.port q := by rw [answer_eq, State.setPort_port_of_ne _ _ hq]
  have ht : (s.taken p body).port q = s.port q := by rw [taken_eq, State.setPort_port_of_ne _ _ hq]
  rw [ha, h.slot, h.response, h.rejected, h.shifted, ht]
  exact ⟨rfl, rfl, rfl, rfl⟩

/-- The answer of an owning block that moves agent `a` to a record with the same definition. -/
theorem moveAgent_answered {s : State} {p : Port} {body : List Byte} {a : AgentSlot} {new : AgentRec} (r : Result)
    (content : List Byte) (h : (s.agent a).SameDefinition new) :
    AgentAnswered s (State.answer p { state := (s.taken p body).moveAgent a new, result := r, content := content }) p r content
      a new := by
  have hs : KeepsSlots (s.taken p body) ((s.taken p body).moveAgent a new) :=
    (moveAgent_moves (ties := false) _ a new (by rwa [taken_agent])).slots
  have hc := AgentChange.request (r := { state := (s.taken p body).moveAgent a new, result := r, content := content })
    (moveAgent_change (s.taken p body) a new)
  exact { toAnswered := answer_answered hs, toAgentChange := hc, slots := answer_otherSlots hs }

/-- A record in a state that binds no call keeps the agent's definition. -/
theorem unbound_same (r : AgentRec) (st : AgentState) (reason idle : Nat) : r.SameDefinition (r.unbound st reason idle) :=
  ⟨rfl, rfl, rfl⟩

/-- A pending change recorded on a taken request and answered is the answered state with that change. -/
theorem answer_recordPending (s : State) (p : Port) (body : List Byte) (a : AgentSlot) (q : Pending) (r : Result)
    (content : List Byte) :
    State.answer p { state := (s.taken p body).recordPending a q, result := r, content := content } =
      (s.answered p body r content).setAgent a { s.agent a with pending := q } := by
  rw [← answer_unchanged, State.recordPending, taken_agent]
  cases p <;> rfl

/-- A request whose owning block changes nothing. -/
theorem exec_unchanged {s : State} {k : Kind} {p : Port} {ps : List Byte} {r : Result} {content : List Byte}
    (h : Takes s k p ps)
    (hact : actOf k p ps (s.taken p (frame ps)) = { state := s.taken p (frame ps), result := r, content := content }) :
    exec (k.command p (frame ps)) s = .next (s.answered p (frame ps) r content) := by
  rw [exec_taken h, hact, answer_unchanged]

/-- A request whose owning block moves agent `a`. -/
theorem exec_moved {s : State} {k : Kind} {p : Port} {ps : List Byte} {a : AgentSlot} {new : AgentRec} {r : Result}
    {content : List Byte} (h : Takes s k p ps) (same : (s.agent a).SameDefinition new)
    (hact : actOf k p ps (s.taken p (frame ps)) =
      { state := (s.taken p (frame ps)).moveAgent a new, result := r, content := content }) :
    ∃ t, exec (k.command p (frame ps)) s = .next t ∧ AgentAnswered s t p r content a new := by
  rw [exec_taken h, hact]
  exact ⟨_, rfl, moveAgent_answered r content same⟩

/-- A request whose owning block records a pending change of agent `a`. -/
theorem exec_recorded {s : State} {k : Kind} {p : Port} {ps : List Byte} {a : AgentSlot} {q : Pending} {r : Result}
    {content : List Byte} (h : Takes s k p ps)
    (hact : actOf k p ps (s.taken p (frame ps)) =
      { state := (s.taken p (frame ps)).recordPending a q, result := r, content := content }) :
    exec (k.command p (frame ps)) s =
      .next ((s.answered p (frame ps) r content).setAgent a { s.agent a with pending := q }) := by
  rw [exec_taken h, hact, answer_recordPending]

/-! ### The states that bind no call, as the statements spell them (R1, R112) -/

theorem toAux_eq (r : AgentRec) (reason : Nat) : r.toAux reason = r.unbound .aux reason 0 := rfl
theorem toReady_eq (r : AgentRec) (idle : Nat) : r.toReady idle = r.unbound .ready 0 idle := rfl

/-! ### The content of READY's and WRAP_END's responses (R121, R197) -/

theorem stateContent_length (s : State) (a : AgentSlot) : (s.stateContent a).length = 2 := by simp [State.stateContent]

theorem stateContent_fields (s : State) (a : AgentSlot) :
    FieldsAt (s.stateContent a) [(0, 1, (s.agent a).state.code), (1, 1, (s.agent a).auxReason)] := by
  have h := fieldsAt_whole [] [(1, (s.agent a).state.code), (1, (s.agent a).auxReason)]
  simpa [State.stateContent, pack, offsets] using h

@[simp] theorem taken_stateContent (s : State) (p : Port) (body : List Byte) (a : AgentSlot) :
    (s.taken p body).stateContent a = s.stateContent a := by simp [State.stateContent]

/-- After an agent has moved, the content shows the state and the AUX reason moved to. -/
theorem moveAgent_stateContent (s : State) (a : AgentSlot) (new : AgentRec) :
    (s.moveAgent a new).stateContent a = field 1 new.state.code ++ field 1 new.auxReason := by
  simp [State.stateContent, (moveAgent_change s a new).record]

/-! ### SIGN_IN (R9) -/

/-- SIGN_IN of an agent acted on: the two outcomes of R9, as the statements spell the record. -/
theorem actSignIn_eq {s : State} {p : Port} {ps : List Byte} {a : AgentSlot} (h : ActsOn s .signIn p ps a) (body : List Byte) :
    actSignIn p ps (s.taken p body) =
      if (s.agent a).state = .signedOut then
        .ok ((s.taken p body).moveAgent a { (s.agent a).unbound .aux 0 0 with callsHandled := 0 })
      else .refuse (s.taken p body) .already := by
  rw [actSignIn, actsOn_asAgent h nofun nofun, taken_agent, toAux_eq]

/-- Settles O16: SIGN_IN moves a SIGNED_OUT agent and refuses every other. -/
theorem signInFromSignedOut : Obligations.SignInFromSignedOut := by
  intro s p ps a ht ha
  have hact := actSignIn_eq ha (frame ps)
  constructor
  · intro hs
    rw [if_pos hs] at hact
    exact exec_moved ht ⟨rfl, rfl, rfl⟩ hact
  · intro hs
    rw [if_neg hs] at hact
    exact exec_unchanged ht hact

/-! ### READY (R10) -/

/-- READY of an agent acted on: the table of R10, as the statements spell the record. -/
theorem actReady_eq {s : State} {p : Port} {ps : List Byte} {a : AgentSlot} (h : ActsOn s .ready p ps a) (body : List Byte) :
    actReady p ps (s.taken p body) =
      match (s.agent a).state with
      | .signedOut => .refuse (s.taken p body) .badState
      | .aux => .ok ((s.taken p body).moveAgent a ((s.agent a).unbound .ready 0 s.clock)) [2, 0]
      | .ready | .offered => .ok (s.taken p body) (s.stateContent a)
      | .connected =>
        if (s.agent a).pending = .signOutPurge then .refuse (s.taken p body) .badState
        else .ok ((s.taken p body).recordPending a .none) (s.stateContent a)
      | .wrap => (s.taken p body).finishWrap a := by
  have hm : ((s.taken p body).moveAgent a ((s.agent a).unbound .ready 0 s.clock)).stateContent a = [2, 0] :=
    moveAgent_stateContent ..
  rw [actReady, actsOn_asAgent h nofun nofun]
  cases hs : (s.agent a).state <;> simp only [taken_agent, taken_clock, taken_stateContent, toReady_eq, hm, hs]

/-- A READY that is taken would be taken as a WRAP_END: both are two bytes long and permitted on every port. -/
theorem takes_wrapEnd_of_ready {s : State} {p : Port} {ps : List Byte} (h : Takes s .ready p ps) : Takes s .wrapEnd p ps :=
  ⟨h.calm, h.idle, h.length, rfl⟩

/-- Both ask for the agent's home port. -/
theorem actsOn_wrapEnd_of_ready {s : State} {p : Port} {ps : List Byte} {a : AgentSlot} (h : ActsOn s .ready p ps a) :
    ActsOn s .wrapEnd p ps a :=
  ⟨h.toNames, .inr (.inr (actsOn_home h nofun nofun))⟩

theorem actWrapEnd_wrap {s : State} {p : Port} {ps : List Byte} {a : AgentSlot} (h : ActsOn s .wrapEnd p ps a) (body : List Byte)
    (hs : (s.agent a).state = .wrap) : actWrapEnd p ps (s.taken p body) = (s.taken p body).finishWrap a := by
  rw [actWrapEnd, actsOn_asAgent h nofun nofun, taken_agent, if_pos hs]

/-- In WRAP, READY and WRAP_END are the same end of the wrap (R10, R121). -/
theorem exec_ready_wrap {s : State} {p : Port} {ps : List Byte} {a : AgentSlot} (ht : Takes s .ready p ps)
    (ha : ActsOn s .ready p ps a) (hs : (s.agent a).state = .wrap) :
    exec (.ready p (frame ps)) s = exec (.wrapEnd p (frame ps)) s := by
  have hready : actReady p ps (s.taken p (frame ps)) = (s.taken p (frame ps)).finishWrap a := by rw [actReady_eq ha, hs]
  have hwrapEnd := actWrapEnd_wrap (actsOn_wrapEnd_of_ready ha) (frame ps) hs
  calc exec (.ready p (frame ps)) s
      = .next (State.answer p (actReady p ps (s.taken p (frame ps)))) := exec_taken ht
    _ = .next (State.answer p (actWrapEnd p ps (s.taken p (frame ps)))) := by rw [hready, hwrapEnd]
    _ = exec (.wrapEnd p (frame ps)) s := (exec_taken (takes_wrapEnd_of_ready ht)).symm

/-- Settles O17: by the state of the agent, along the table of R10. -/
theorem readyByState : Obligations.ReadyByState := by
  intro s p ps a ht ha
  have hact := actReady_eq ha (frame ps)
  have hlen := stateContent_length s a
  have hfields := stateContent_fields s a
  refine ⟨fun hs => ?signedOut, fun hs => ?aux, fun hs => ?idle, fun hs hp => ?kept, fun hs hp => ?purged, exec_ready_wrap ht ha⟩
  case signedOut =>
    rw [hs] at hact
    exact exec_unchanged ht hact
  case aux =>
    rw [hs] at hact
    exact exec_moved ht (unbound_same _ _ _ _) hact
  case idle =>
    rcases hs with hs | hs <;> rw [hs] at hact <;> exact ⟨_, hlen, hfields, exec_unchanged ht hact⟩
  case kept =>
    rw [hs] at hact hfields
    exact ⟨_, hlen, hfields, exec_recorded ht (hact.trans (if_neg hp))⟩
  case purged =>
    rw [hs] at hact
    exact exec_unchanged ht (hact.trans (if_pos hp))

end Sys2Proof.Machine

/-! Groups opened and closed by the supervisor, and their statistics: what the check of the group number hands on, when a change of
one group's record raises the sweep, and where the statistics stand in a response. -/
namespace Sys2Proof.Machine

/-! ### Requests on a port that may not send them (R182) -/

theorem checkRecord_forbidden {k : Kind} {p : Port} (h : permitted k p = false) (body : List Byte) :
    checkRecord k p body = none := by
  simp [checkRecord, h]

/-- A record that fails the port's checks in IDLE is answered by the port, and the owning block does not see it. -/
theorem request_failed {k : Kind} {p : Port} {body : List Byte} {s : State} (act : List Byte → State → Reply)
    (hi : (s.port p).slot = .idle) (hf : checkRecord k p body = none) :
    State.request k p body act s = s.answered p body .badRequest [] := by
  unfold State.request
  simp only [hi, hf, ↓reduceIte, takeSlot_shiftWrite]
  exact answer_unchanged s p body .badRequest []

theorem exec_forbidden {k : Kind} {p : Port} {s : State} (hc : Calm s) (hi : (s.port p).slot = .idle)
    (hf : permitted k p = false) (body : List Byte) :
    exec (k.command p body) s = .next (s.answered p body .badRequest []) := by
  rw [exec_command, settled_calm hc, request_failed _ hi (checkRecord_forbidden hf body)]

/-! ### The group that a request names (R29) -/

theorem below_of_le {n v : Nat} (h : n ≤ v) : below n v = none := dif_neg (Nat.not_lt.mpr h)

theorem asGroup_val {ps : List Byte} {g : Group} (h : u8 ps 0 = g.val) (s : State) (act : Group → Reply) :
    asGroup ps s act = act g := by
  rw [asGroup, below_val g h]

theorem asGroup_of_le {ps : List Byte} (h : 64 ≤ u8 ps 0) (s : State) (act : Group → Reply) :
    asGroup ps s act = .refuse s .badGroup := by
  rw [asGroup, below_of_le h]

/-! ### One group's record written by a request -/

theorem modStats_eq (s : State) (g : Group) (f : Stats → Stats) :
    s.modStats g f = s.setGroup g { s.group g with stats := f (s.group g).stats } := rfl

/-- A group's record written on a taken request and answered is the answered state with that record. -/
theorem answer_setGroup (s : State) (p : Port) (body : List Byte) (g : Group) (new : GroupRec) (r : Result)
    (content : List Byte) :
    State.answer p { state := (s.taken p body).setGroup g new, result := r, content := content } =
      (s.answered p body r content).setGroup g new := by
  rw [← answer_unchanged]
  cases p <;> rfl

/-- The port's answer and the trigger of a sweep do not touch each other. -/
theorem answer_raiseSweep (s : State) (p : Port) (r : Result) (content : List Byte) :
    State.answer p { state := s.raiseSweep, result := r, content := content } =
      (State.answer p { state := s, result := r, content := content }).raiseSweep := by
  cases p <;> rfl

/-! ### Closed groups (R38) -/

/-- Whether a group is held by its service line rests on the line its active set names and on the lines. -/
theorem heldByLine_congr {s t : State} {g : Group} (hg : (t.group g).active.line = (s.group g).active.line)
    (hl : ∀ l, t.line l = s.line l) : t.heldByLine g = s.heldByLine g := by
  simp only [State.heldByLine, hg, hl]

theorem closed_congr {s t : State} {g : Group} (hg : t.group g = s.group g) (hl : ∀ l, t.line l = s.line l) :
    t.closed g = s.closed g := by
  simp only [State.closed, hg, heldByLine_congr (congrArg (·.active.line) hg) hl]

@[simp] theorem taken_heldByLine (s : State) (p : Port) (body : List Byte) (g : Group) :
    (s.taken p body).heldByLine g = s.heldByLine g :=
  heldByLine_congr (by rw [taken_group]) (taken_line s p body)

@[simp] theorem taken_closed (s : State) (p : Port) (body : List Byte) (g : Group) :
    (s.taken p body).closed g = s.closed g :=
  closed_congr (taken_group s p body g) (taken_line s p body)

/-- Group `g` with its supervisor-closed flag written. -/
def State.setSupervisorClosed (s : State) (g : Group) (flag : Bool) : State :=
  s.setGroup g { s.group g with supervisorClosed := flag }

@[simp] theorem setSupervisorClosed_heldByLine (s : State) (g : Group) (flag : Bool) :
    (s.setSupervisorClosed g flag).heldByLine g = s.heldByLine g :=
  heldByLine_congr (by simp [State.setSupervisorClosed]) fun _ => rfl

@[simp] theorem setSupervisorClosed_closed (s : State) (g : Group) (flag : Bool) :
    (s.setSupervisorClosed g flag).closed g = (flag || s.heldByLine g) := by
  rw [State.closed, setSupervisorClosed_heldByLine]
  simp [State.setSupervisorClosed]

/-- Where one group's record has been written, no other group can have passed from closed to open. -/
theorem sweepIfOpened_setGroup (s : State) (g : Group) (new : GroupRec) :
    (s.setGroup g new).sweepIfOpened s =
      if s.closed g && !(s.setGroup g new).closed g then (s.setGroup g new).raiseSweep else s.setGroup g new := by
  have only : ∀ j, (s.closed j && !(s.setGroup g new).closed j) = true → j = g := by
    intro j hj
    by_contra hne
    rw [closed_congr (State.setGroup_group_of_ne s new hne) fun _ => rfl] at hj
    simp at hj
  have any : ((List.finRange 64).any fun j => s.closed j && !(s.setGroup g new).closed j) =
      (s.closed g && !(s.setGroup g new).closed g) := by
    rw [Bool.eq_iff_iff, List.any_eq_true]
    constructor
    · rintro ⟨j, _, hj⟩
      exact only j hj ▸ hj
    · exact fun hg => ⟨g, List.mem_finRange g, hg⟩
  rw [State.sweepIfOpened, any]

/-- The closed byte after the supervisor-closed flag has been written: the line's hold shows in both bits (R38, R197). -/
theorem setSupervisorClosed_closedByte (s : State) (g : Group) (flag : Bool) :
    (s.setSupervisorClosed g flag).closedByte g = [if s.heldByLine g then 3 else if flag then 1 else 0] := by
  rw [State.closedByte, setSupervisorClosed_closed, setSupervisorClosed_heldByLine]
  cases s.heldByLine g <;> cases flag <;> rfl

@[simp] theorem raiseSweep_closedByte (s : State) (g : Group) : s.raiseSweep.closedByte g = s.closedByte g := rfl

/-! ### GROUP_OPEN and GROUP_CLOSE (R39) -/

theorem actGroupOpen_eq {ps : List Byte} {g : Group} (h : u8 ps 0 = g.val) (s : State) :
    actGroupOpen ps s =
      .ok (if s.closed g && !s.heldByLine g then (s.setSupervisorClosed g false).raiseSweep else s.setSupervisorClosed g false)
        [if s.heldByLine g then 3 else 0] := by
  have hs : (s.setSupervisorClosed g false).sweepIfOpened s =
      if s.closed g && !s.heldByLine g then (s.setSupervisorClosed g false).raiseSweep else s.setSupervisorClosed g false := by
    have := sweepIfOpened_setGroup s g { s.group g with supervisorClosed := false }
    rwa [← State.setSupervisorClosed, setSupervisorClosed_closed, Bool.false_or] at this
  rw [actGroupOpen, asGroup_val h, State.modGroup_eq, ← State.setSupervisorClosed, hs]
  split <;> simp only [raiseSweep_closedByte, setSupervisorClosed_closedByte, Bool.false_eq_true, ↓reduceIte]

theorem actGroupClose_eq {ps : List Byte} {g : Group} (h : u8 ps 0 = g.val) (s : State) :
    actGroupClose ps s = .ok (s.setSupervisorClosed g true) [if s.heldByLine g then 3 else 1] := by
  rw [actGroupClose, asGroup_val h, State.modGroup_eq, ← State.setSupervisorClosed]
  simp only [setSupervisorClosed_closedByte, ↓reduceIte]

/-- A written supervisor-closed flag, answered. -/
theorem answer_setSupervisorClosed (s : State) (p : Port) (body : List Byte) (g : Group) (flag : Bool) (content : List Byte) :
    State.answer p (.ok ((s.taken p body).setSupervisorClosed g flag) content) =
      (s.answered p body .ok content).setGroup g { s.group g with supervisorClosed := flag } := by
  rw [Reply.ok, State.setSupervisorClosed, taken_group, answer_setGroup]

theorem exec_groupOpen {s : State} {ps : List Byte} {g : Group} (ht : Takes s .groupOpen .s ps) (hg : u8 ps 0 = g.val) :
    let u := (s.answered .s (frame ps) .ok [if s.heldByLine g then 3 else 0]).setGroup g
      { s.group g with supervisorClosed := false }
    exec (.groupOpen .s (frame ps)) s = .next (if s.closed g && !s.heldByLine g then u.raiseSweep else u) := by
  intro u
  have hact := actGroupOpen_eq hg (s.taken .s (frame ps))
  rw [taken_closed, taken_heldByLine] at hact
  have hu : State.answer .s (.ok ((s.taken .s (frame ps)).setSupervisorClosed g false) [if s.heldByLine g then 3 else 0]) = u :=
    answer_setSupervisorClosed ..
  calc exec (.groupOpen .s (frame ps)) s
      = .next (State.answer .s (actGroupOpen ps (s.taken .s (frame ps)))) := exec_taken ht
    _ = .next (if s.closed g && !s.heldByLine g then u.raiseSweep else u) := by
      rw [hact]
      split
      · rw [← hu, Reply.ok, answer_raiseSweep, Reply.ok]
      · rw [hu]

theorem exec_groupClose {s : State} {ps : List Byte} {g : Group} (ht : Takes s .groupClose .s ps) (hg : u8 ps 0 = g.val) :
    exec (.groupClose .s (frame ps)) s =
      .next ((s.answered .s (frame ps) .ok [if s.heldByLine g then 3 else 1]).setGroup g
        { s.group g with supervisorClosed := true }) := by
  have hact := actGroupClose_eq hg (s.taken .s (frame ps))
  rw [taken_heldByLine] at hact
  calc exec (.groupClose .s (frame ps)) s
      = .next (State.answer .s (actGroupClose ps (s.taken .s (frame ps)))) := exec_taken ht
    _ = _ := by rw [hact, answer_setSupervisorClosed]

/-- Settles O30: a group number out of range and a port other than S are refused alike for both kinds; a group in range has its flag
written, and GROUP_OPEN raises the sweep if that group alone has opened. -/
theorem groupOpenAndCloseWriteTheFlag : Obligations.GroupOpenAndCloseWriteTheFlag := by
  intro s ps
  refine ⟨fun k hk => ?refused, fun g hg => ⟨fun ht => exec_groupOpen ht hg, fun ht => exec_groupClose ht hg⟩⟩
  have hkind : k = .groupOpen ∨ k = .groupClose := by simpa using hk
  constructor
  · intro ht h64
    obtain rfl | rfl := hkind <;> exact exec_unchanged ht (asGroup_of_le h64 _ _)
  · intro p hp hc hi
    have hport : permitted k p = false := by obtain rfl | rfl := hkind <;> simpa [permitted] using hp
    exact exec_forbidden hc hi hport _

/-! ### The statistics in a response (R43, R197, R198) -/

theorem statBytes_eq_pack (q : Stats) :
    statBytes q = pack [(2, q.answered), (2, q.abandoned), (2, q.overflowedOut), (2, q.overflowedIn), (2, q.purged)] := by
  simp [statBytes, pack]

@[simp] theorem statBytes_length (q : Stats) : (statBytes q).length = 10 := by simp [statBytes]

/-- The statistics after `n` bytes of a record. -/
theorem statBytes_fields {pre : List Byte} {n : Nat} (hn : pre.length = n) (post : List Byte) (q : Stats) :
    FieldsAt (pre ++ (statBytes q ++ post))
      [(n, 2, q.answered), (n + 2, 2, q.abandoned), (n + 4, 2, q.overflowedOut), (n + 6, 2, q.overflowedIn),
        (n + 8, 2, q.purged)] := by
  subst hn
  rw [statBytes_eq_pack]
  exact fieldsAt_pack pre post _

@[simp] theorem flagByte_length (bits : List Bool) : (flagByte bits).length = 1 := field_length _ _

@[simp] theorem codeField_length {n : Nat} (o : Option (Fin n)) : (codeField o).length = 1 := field_length _ _

@[simp] theorem averageField_length (o : Option Nat) : (averageField o).length = 2 := field_length _ _

@[simp] theorem paramBytes_length (q : Params) : (paramBytes q).length = 30 := by
  unfold paramBytes
  simp

/-- In the group record the statistics begin at byte 74. -/
theorem groupBytes_stats (s : State) (g : Group) :
    ∃ pre post, pre.length = 74 ∧ s.groupBytes g = pre ++ (statBytes (s.group g).stats ++ post) := by
  have regroup : ∀ pre q a b c : List Byte, pre ++ q ++ a ++ b ++ c = pre ++ (q ++ (a ++ b ++ c)) := by simp
  refine ⟨_, _, ?_, regroup _ _ _ _ _⟩
  simp only [List.length_append, field_length, flagByte_length, paramBytes_length, averageField_length]

/-! ### GROUP_STATS and GROUP_READ (R33, R44) -/

theorem actGroupStats_eq {ps : List Byte} {g : Group} (h : u8 ps 0 = g.val) (s : State) :
    actGroupStats ps s = .ok (s.setGroup g { s.group g with stats := {} }) (statBytes (s.group g).stats) := by
  rw [actGroupStats, asGroup_val h, modStats_eq]

theorem actGroupRead_eq {ps : List Byte} {g : Group} (h : u8 ps 0 = g.val) (s : State) :
    actGroupRead ps s = .ok s (s.groupBytes g) := by
  rw [actGroupRead, asGroup_val h]

theorem exec_groupStats {s : State} {p : Port} {ps : List Byte} {g : Group} (ht : Takes s .groupStats p ps)
    (hg : u8 ps 0 = g.val) :
    exec (.groupStats p (frame ps)) s =
      .next ((s.answered p (frame ps) .ok (statBytes (s.group g).stats)).setGroup g { s.group g with stats := {} }) := by
  have hact := actGroupStats_eq hg (s.taken p (frame ps))
  rw [taken_group] at hact
  calc exec (.groupStats p (frame ps)) s
      = .next (State.answer p (actGroupStats ps (s.taken p (frame ps)))) := exec_taken ht
    _ = _ := by rw [hact, Reply.ok, answer_setGroup]

/-- Settles O31: GROUP_STATS answers the five fields and writes the cleared record in one step; GROUP_READ answers them within the
group record. -/
theorem groupStatsReturnsAndClears : Obligations.GroupStatsReturnsAndClears := by
  intro s p ps
  refine ⟨fun hp hc hi => ?forbidden, fun ht => ⟨fun h64 => ?badGroup, fun g hg => ?stats⟩, fun ht g hg => ?read⟩
  case forbidden =>
    have hport : permitted .groupStats p = false := by simpa [permitted] using hp
    exact exec_forbidden hc hi hport _
  case badGroup => exact exec_unchanged ht (asGroup_of_le h64 _ _)
  case stats =>
    have hfields := statBytes_fields (pre := []) rfl [] (s.group g).stats
    rw [List.nil_append, List.append_nil] at hfields
    exact ⟨_, statBytes_length _, hfields, exec_groupStats ht hg⟩
  case read =>
    obtain ⟨pre, post, hpre, hbytes⟩ := groupBytes_stats (s.taken p (frame ps)) g
    have hfields := statBytes_fields hpre post (s.group g).stats
    rw [taken_group] at hbytes
    rw [← hbytes] at hfields
    exact ⟨_, hfields, exec_unchanged ht (actGroupRead_eq hg _)⟩

end Sys2Proof.Machine

/-! The handle-time average (R130 to R132): a sample moves it toward the sample by the truncated quotient of the difference,
and a sample fed again and again settles it. -/
namespace Sys2Proof.Machine

/-! ### One sample (R130, R131) -/

/-- The value in sixteenths of a second that a sample draws the average to: 16 times the sample, clamped to 1–4095 (R130). -/
def sampleTarget (sample : Nat) : Nat := 16 * min 4095 (max 1 sample)

theorem sampleTarget_eq_clamp (sample : Nat) : 16 * clamp 1 4095 sample = sampleTarget sample := by
  unfold clamp sampleTarget
  omega

theorem sampleTarget_of_range {x : Nat} (low : 1 ≤ x) (high : x ≤ 4095) : sampleTarget x = 16 * x := by
  unfold sampleTarget
  omega

theorem newAverage_none (k sample : Nat) : newAverage none k sample = sampleTarget sample :=
  sampleTarget_eq_clamp sample

theorem newAverage_some (a k sample : Nat) :
    newAverage (some a) k sample =
      (max 16 (min 65520 ((a : Int) + Int.tdiv ((sampleTarget sample : Int) - a) (2 ^ k)))).toNat := by
  rw [← sampleTarget_eq_clamp, Nat.cast_mul]
  rfl

/-- A difference that is not negative, truncated toward zero, is the quotient of the natural numbers. -/
theorem tdiv_sub_of_le {a t : Nat} (h : a ≤ t) (k : Nat) : Int.tdiv ((t : Int) - a) (2 ^ k) = ((t - a) / 2 ^ k : Nat) := by
  rw [← Nat.cast_sub h, Int.natCast_div]
  exact_mod_cast Int.tdiv_eq_ediv_of_nonneg (Int.natCast_nonneg (t - a))

theorem newAverage_of_le {a sample : Nat} (h : a ≤ sampleTarget sample) (k : Nat) :
    newAverage (some a) k sample = max 16 (min 65520 (a + (sampleTarget sample - a) / 2 ^ k)) := by
  rw [newAverage_some, tdiv_sub_of_le h]
  omega

/-- A negative difference is truncated toward zero: the average falls by the quotient of the difference's size. -/
theorem newAverage_of_ge {a sample : Nat} (h : sampleTarget sample ≤ a) (k : Nat) :
    newAverage (some a) k sample = max 16 (min 65520 (a - (a - sampleTarget sample) / 2 ^ k)) := by
  have quotient : Int.tdiv ((sampleTarget sample : Int) - a) (2 ^ k) = -((a - sampleTarget sample) / 2 ^ k : Nat) := by
    rw [← neg_sub, Int.neg_tdiv, tdiv_sub_of_le h]
  have small : (a - sampleTarget sample) / 2 ^ k ≤ a - sampleTarget sample := Nat.div_le_self _ _
  rw [newAverage_some, quotient]
  omega

theorem takeSample_eq (s : State) (g : Group) (sample : Nat) :
    s.takeSample g sample = s.setGroup g
      { s.group g with average := some (newAverage (s.group g).average (s.group g).active.shift sample) } :=
  State.modGroup_eq s g _

/-! ### The bounds of the movement (R132)

An average and a sample within their ranges: the clamp of the result never acts. -/

section
variable {a x : Nat} (k : Nat) (alow : 16 ≤ a) (ahigh : a ≤ 65520) (xlow : 1 ≤ x) (xhigh : x ≤ 4095)

include alow xlow xhigh in
theorem newAverage_rises (h : a ≤ 16 * x) : newAverage (some a) k x = a + (16 * x - a) / 2 ^ k := by
  have small : (16 * x - a) / 2 ^ k ≤ 16 * x - a := Nat.div_le_self _ _
  have htarget := sampleTarget_of_range xlow xhigh
  rw [newAverage_of_le (htarget ▸ h), htarget]
  generalize (16 * x - a) / 2 ^ k = q at small ⊢
  omega

include ahigh xlow xhigh in
theorem newAverage_falls (h : 16 * x ≤ a) : newAverage (some a) k x = a - (a - 16 * x) / 2 ^ k := by
  have small : (a - 16 * x) / 2 ^ k ≤ a - 16 * x := Nat.div_le_self _ _
  have htarget := sampleTarget_of_range xlow xhigh
  rw [newAverage_of_ge (htarget ▸ h), htarget]
  generalize (a - 16 * x) / 2 ^ k = q at small ⊢
  omega

include alow ahigh xlow xhigh in
theorem newAverage_between :
    min a (16 * x) ≤ newAverage (some a) k x ∧ newAverage (some a) k x ≤ max a (16 * x) := by
  rcases Nat.le_total a (16 * x) with h | h
  · have small : (16 * x - a) / 2 ^ k ≤ 16 * x - a := Nat.div_le_self _ _
    rw [newAverage_rises k alow xlow xhigh h]
    generalize (16 * x - a) / 2 ^ k = q at small ⊢
    omega
  · have small : (a - 16 * x) / 2 ^ k ≤ a - 16 * x := Nat.div_le_self _ _
    rw [newAverage_falls k ahigh xlow xhigh h]
    generalize (a - 16 * x) / 2 ^ k = q at small ⊢
    omega

/-! ### A sample fed again and again (R132) -/

/-- The average `a` is within 2^k - 1 sixteenths of the target `t`, on either side. -/
def Settled (k t a : Nat) : Prop := a < t + 2 ^ k ∧ t < a + 2 ^ k

/-- How far the average `a` is from the target `t`, on either side. -/
def gap (t a : Nat) : Nat := (t - a) + (a - t)

include alow ahigh xlow xhigh in
/-- A difference below 2^k has the quotient 0. -/
theorem newAverage_of_settled (h : Settled k (16 * x) a) : newAverage (some a) k x = a := by
  obtain ⟨above, below⟩ := h
  rcases Nat.le_total a (16 * x) with hle | hge
  · rw [newAverage_rises k alow xlow xhigh hle, Nat.div_eq_of_lt (by omega), Nat.add_zero]
  · rw [newAverage_falls k ahigh xlow xhigh hge, Nat.div_eq_of_lt (by omega), Nat.sub_zero]

include alow ahigh xlow xhigh in
/-- A difference of at least 2^k has a quotient of at least 1. -/
theorem gap_newAverage_lt (h : ¬Settled k (16 * x) a) : gap (16 * x) (newAverage (some a) k x) < gap (16 * x) a := by
  have hpos : 0 < 2 ^ k := Nat.two_pow_pos k
  unfold Settled at h
  unfold gap
  rcases Nat.le_total a (16 * x) with hle | hge
  · have moves : 1 ≤ (16 * x - a) / 2 ^ k := Nat.div_pos (by omega) hpos
    have small : (16 * x - a) / 2 ^ k ≤ 16 * x - a := Nat.div_le_self _ _
    rw [newAverage_rises k alow xlow xhigh hle]
    omega
  · have moves : 1 ≤ (a - 16 * x) / 2 ^ k := Nat.div_pos (by omega) hpos
    have small : (a - 16 * x) / 2 ^ k ≤ a - 16 * x := Nat.div_le_self _ _
    rw [newAverage_falls k ahigh xlow xhigh hge]
    omega

include alow ahigh xlow xhigh in
/-- By induction on the gap: an average that is not settled comes nearer, and one that is settled stays where it is. -/
theorem iterate_newAverage_settles :
    ∃ n, ∀ m, n ≤ m → Settled k (16 * x) ((fun b => newAverage (some b) k x)^[m] a) := by
  induction hgap : gap (16 * x) a using Nat.strong_induction_on generalizing a with
  | _ d ih =>
    by_cases hsettled : Settled k (16 * x) a
    case pos =>
      have fixed : ∀ m, (fun b => newAverage (some b) k x)^[m] a = a :=
        Function.iterate_fixed (newAverage_of_settled k alow ahigh xlow xhigh hsettled)
      exact ⟨0, fun m _ => (fixed m).symm ▸ hsettled⟩
    case neg =>
      have nearer := gap_newAverage_lt k alow ahigh xlow xhigh hsettled
      obtain ⟨low, high⟩ := newAverage_range (some a) k x
      obtain ⟨n, hn⟩ := ih _ (hgap ▸ nearer) low high rfl
      refine ⟨n + 1, fun m hm => ?_⟩
      obtain ⟨m, rfl⟩ := Nat.exists_eq_add_of_le' (Nat.le_of_add_left_le hm)
      exact hn m (Nat.le_of_succ_le_succ hm)

end

/-- Settles O42: the record that a sample writes, by the average's being UNSET, below or above the target; the bounds of one movement; and
the settling under one sample. -/
theorem averagesMoveByTheShiftedDifference : Obligations.AveragesMoveByTheShiftedDifference := by
  refine ⟨fun s g sample => ⟨fun hunset => ?unset, fun a hset _ _ _ _ => ⟨fun hle => ?rises, fun hge => ?falls⟩⟩,
    fun k a x _ _ alow ahigh xlow xhigh => ?bounds⟩
  case unset => rw [takeSample_eq, hunset, newAverage_none, sampleTarget]
  case rises => rw [takeSample_eq, hset, newAverage_of_le hle, sampleTarget]
  case falls => rw [takeSample_eq, hset, newAverage_of_ge hge, sampleTarget]
  case bounds =>
    obtain ⟨least, most⟩ := newAverage_between k alow ahigh xlow xhigh
    obtain ⟨low, high⟩ := newAverage_range (some a) k x
    exact ⟨⟨least, most, low, high⟩, newAverage_rises k alow xlow xhigh, newAverage_falls k ahigh xlow xhigh,
      fun above below => newAverage_of_settled k alow ahigh xlow xhigh ⟨above, below⟩,
      iterate_newAverage_settles k alow ahigh xlow xhigh⟩

end Sys2Proof.Machine

namespace Sys2Proof.Machine

/-! The Sample Store written by the supervisor: which segments guard a range of the RAM, and the range that STORE_WRITE writes. -/

/-! ### The segments that guard a range (R144) -/

/-- A segment in use holds one of the `n` bytes from address `a`. -/
def State.Guarded (s : State) (a n : Nat) : Prop :=
  ∃ (k : SegmentCode) (i : Nat), i < n ∧ (s.segment k).inUse ≠ 0 ∧ (s.segment k).start ≤ a + i
    ∧ a + i < (s.segment k).start + (s.segment k).length

/-- The comparison of bounds in the check finds a byte that the segment and the range share: the later of their first bytes. -/
theorem guards_iff (e : SegmentRec) (a n : Nat) :
    e.guards a n = true ↔ ∃ i, i < n ∧ e.inUse ≠ 0 ∧ e.start ≤ a + i ∧ a + i < e.start + e.length := by
  simp only [SegmentRec.guards, Bool.and_eq_true, bne_iff_ne, decide_eq_true_eq]
  constructor
  · rintro ⟨⟨⟨⟨huse, hafter⟩, hbefore⟩, hlength⟩, hn⟩
    exact ⟨e.start - a, by omega, huse, by omega, by omega⟩
  · rintro ⟨i, hi, huse, hlow, hhigh⟩
    exact ⟨⟨⟨⟨huse, by omega⟩, by omega⟩, by omega⟩, by omega⟩

theorem any_segment_iff (s : State) (f : SegmentRec → Bool) :
    s.segments.toList.any f = true ↔ ∃ k : SegmentCode, f (s.segment k) = true := by
  rw [List.any_eq_true]
  constructor
  · rintro ⟨e, hmem, he⟩
    obtain ⟨i, hi, rfl⟩ := Vector.mem_iff_getElem.mp (Vector.mem_toList_iff.mp hmem)
    exact ⟨⟨i, hi⟩, he⟩
  · rintro ⟨k, hk⟩
    exact ⟨s.segment k, Vector.mem_toList_iff.mpr (Vector.getElem_mem k.isLt), hk⟩

theorem any_guards_iff (s : State) (a n : Nat) :
    (s.segments.toList.any fun e => e.guards a n) = true ↔ s.Guarded a n := by
  simp only [any_segment_iff, guards_iff, State.Guarded]

@[simp] theorem taken_guarded (s : State) (p : Port) (body : List Byte) (a n : Nat) :
    (s.taken p body).Guarded a n ↔ s.Guarded a n := by
  simp only [← any_guards_iff, taken_segments]

/-! ### STORE_WRITE (R144) -/

theorem actStoreWrite_past {s : State} {ps : List Byte} (h : Config.ramBytes < u32 ps 0 + (ps.drop 4).length) :
    actStoreWrite ps s = .refuse s .badParam := if_pos h

theorem actStoreWrite_guarded {s : State} {ps : List Byte} (h : u32 ps 0 + (ps.drop 4).length ≤ Config.ramBytes)
    (hg : s.Guarded (u32 ps 0) (ps.drop 4).length) : actStoreWrite ps s = .refuse s .busy :=
  (if_neg (Nat.not_lt.mpr h)).trans (if_pos ((any_guards_iff ..).mpr hg))

theorem actStoreWrite_written {s : State} {ps : List Byte} (h : u32 ps 0 + (ps.drop 4).length ≤ Config.ramBytes)
    (hg : ¬s.Guarded (u32 ps 0) (ps.drop 4).length) :
    actStoreWrite ps s = .ok (s.setRam (Memory.writeBytes s.ram (u32 ps 0) (ps.drop 4))) :=
  (if_neg (Nat.not_lt.mpr h)).trans (if_neg (mt (any_guards_iff ..).mp hg))

/-- A RAM written on a taken request and answered is the answered state with that RAM. -/
theorem answer_setRam (s : State) (p : Port) (body : List Byte) (m : List Host.Cell) (r : Result) (content : List Byte) :
    State.answer p { state := (s.taken p body).setRam m, result := r, content := content } =
      (s.answered p body r content).setRam m := by
  rw [← answer_unchanged]
  cases p <;> rfl

theorem exec_storeWrite_written {s : State} {p : Port} {ps : List Byte} (ht : Takes s .storeWrite p ps)
    (h : u32 ps 0 + (ps.drop 4).length ≤ Config.ramBytes)
    (hg : ¬s.Guarded (u32 ps 0) (ps.drop 4).length) :
    exec (.storeWrite p (frame ps)) s =
      .next ((s.answered p (frame ps) .ok []).setRam (Memory.writeBytes s.ram (u32 ps 0) (ps.drop 4))) := by
  have hact := actStoreWrite_written (s := s.taken p (frame ps)) h ((taken_guarded ..).not.mpr hg)
  rw [taken_ram] at hact
  calc exec (.storeWrite p (frame ps)) s
      = .next (State.answer p (actStoreWrite ps (s.taken p (frame ps)))) := exec_taken ht
    _ = _ := by rw [hact, Reply.ok, answer_setRam]

/-- What an address reads after the bytes behind a four-byte start address are written. -/
theorem read_writeBytes_drop {m : List Host.Cell} (hm : Memory.wf m = true) {a : Nat} {ps : List Byte}
    (h : a + (ps.drop 4).length ≤ Config.ramBytes) (x : Nat) :
    Memory.read (Memory.writeBytes m a (ps.drop 4)) x =
      if a ≤ x ∧ x < a + (ps.drop 4).length then ps.getD (4 + (x - a)) 0 else Memory.read m x := by
  rw [Memory.read_writeBytes hm a _ h]
  simp only [List.getD_eq_getElem?_getD, List.getElem?_drop]

/-- Settles O44, by the checks in their order: the port, the end of the RAM, the segments in use; a write that passes them reads back
as `Memory.read_writeBytes` says. -/
theorem storeWriteWritesUnlessASegmentIsInUse : Obligations.StoreWriteWritesUnlessASegmentIsInUse := by
  intro s p ps
  refine ⟨fun hp hc hi => ?forbidden, fun ht hm => ?_⟩
  case forbidden =>
    have hport : permitted .storeWrite p = false := by simpa [permitted] using hp
    exact exec_forbidden hc hi hport _
  rw [← List.length_drop (i := 4)]
  refine ⟨fun hpast => ?past, fun hfits hg => ?guarded, fun hfits hg => ?written⟩
  case past => exact exec_unchanged ht (actStoreWrite_past hpast)
  case guarded => exact exec_unchanged ht (actStoreWrite_guarded hfits ((taken_guarded ..).mpr hg))
  case written => exact ⟨_, exec_storeWrite_written ht hfits hg, read_writeBytes_drop hm hfits⟩

end Sys2Proof.Machine

/-! The queue of commands, the power-on values and the legality of the state that the model starts from. -/

namespace Sys2Proof.Machine

/-! ### The step (log entries 3, 22) -/

/-- Settles O1: both branches of `step` are its own. -/
theorem stepRunsTheFrontCommand : Obligations.StepRunsTheFrontCommand := by
  refine ⟨fun c rest s => rfl, fun s h => ?idle⟩
  case idle => rw [step, h]

/-! ### Power-on (R3, R40, R51, R73, R74) -/

theorem get_replicate {α : Type} {n : Nat} (x : α) (i : Fin n) : (Vector.replicate n x).get i = x := by
  simp [Vector.get]

theorem reset_slotOf : ∀ h, State.reset.slotOf h = some ⟨h.val, by omega⟩ := by decide

/-- The power-on values do not fix the input levels, the counter of free values and the queue of commands. -/
theorem powerOnValues_reset_with {v : Vector LineRec 4} (hv : ∀ l, (v.get l).seen = false ∧ (v.get l).mode = .off ∧ (v.get l).latch = false)
    (free : Nat) (pending : List Instr) :
    PowerOnValues { State.reset with lines := v, free := free, pending := pending } where
  clock := rfl
  agents _ := get_replicate _ _
  groups _ := get_replicate _ _
  calls _ := get_replicate _ _
  seqCounter := rfl
  lines := hv
  seed := rfl
  taps := rfl
  generator := rfl
  triggers := ⟨rfl, rfl, rfl⟩
  ram _ := rfl
  segments _ := get_replicate _ _
  programs _ := get_replicate _ _
  vocab _ := get_replicate _ _
  sources _ := get_replicate _ _
  channels _ := get_replicate _ _
  waitList := rfl
  slotMap := reset_slotOf
  idleModes _ := get_replicate _ _
  idleByte := rfl
  ports p := by cases p <;> exact ⟨rfl, rfl, rfl, rfl, rfl⟩
  device := rfl

theorem powerOnValues_poweredOn (s : State) : PowerOnValues s.poweredOn :=
  powerOnValues_reset_with (fun l => by rw [mapTable_get]; exact ⟨rfl, rfl, rfl⟩) _ _

theorem powerOnValues_reset : PowerOnValues State.reset :=
  powerOnValues_reset_with (fun l => by rw [get_replicate]; exact ⟨rfl, rfl, rfl⟩) _ _

theorem poweredOn_input (s : State) (l : LineNo) : (s.poweredOn.line l).input = (s.line l).input := by
  simp [State.poweredOn, State.line, mapTable_get]

/-- Settles O2: the reset pin and the start of the model share `powerOnValues_reset_with`. -/
theorem powerOnResetGivesThePowerOnValues : Obligations.PowerOnResetGivesThePowerOnValues :=
  ⟨fun s => ⟨s.poweredOn, rfl, powerOnValues_poweredOn s, poweredOn_input s, rfl, rfl⟩, powerOnValues_reset, rfl⟩

/-! ### The power-on values are legal -/

section PowerOnLegal
variable {s : State} (h : PowerOnValues s)
include h

theorem PowerOnValues.runOf (x : HighwayChannel) : s.runOf x = none := by
  unfold State.runOf
  split <;> simp [h.sources, h.channels]

theorem PowerOnValues.groupsLegal : GroupsLegal s where
  active g := by rw [h.groups]; exact ⟨rfl, nofun⟩
  staged g := by rw [h.groups]; exact ⟨rfl, nofun⟩
  average g a := by simp [h.groups]

theorem PowerOnValues.recordsLegal : RecordsLegal s where
  hops c r e := by simp [h.calls] at e
  noAnswers c r e := by simp [h.calls] at e
  priority c r e := by simp [h.calls] at e
  tags c d r q e := by simp [h.calls] at e
  skills a := by rw [h.agents]; decide
  seed := by rw [h.seed]; decide
  taps := by rw [h.taps]; decide
  generator := by rw [h.generator]; decide

theorem PowerOnValues.portsLegal : PortsLegal s where
  bounded p := by rw [(h.ports p).2.2.2.1]; exact Nat.zero_le _
  owed p ho := absurd (h.ports p).2.2.2.2 ho

theorem PowerOnValues.owedLegal : OwedLegal s := by
  have none : ∀ p, (s.port p).owed = [] := fun p => (h.ports p).2.2.2.2
  constructor <;> simp [none, h.agents, h.calls, h.device]

theorem PowerOnValues.slotsApart : SlotsApart s := by
  intro i j hij _
  rw [h.slotMap, h.slotMap]
  simp [Fin.ext_iff] at hij ⊢
  exact hij

theorem PowerOnValues.bindingsLegal : BindingsLegal s := by
  constructor <;> simp [h.agents, h.calls]

theorem PowerOnValues.queuesLegal : QueuesLegal s := by
  constructor <;> simp [h.groups, h.calls]

theorem PowerOnValues.countsLegal : CountsLegal s := by
  constructor <;> simp [h.groups, h.calls, h.agents, h.segments, h.sources, h.runOf, AgentRec.staffs]

theorem PowerOnValues.hearingLegal : HearingLegal s := by
  constructor <;> simp [h.calls, h.channels, h.waitList]

theorem PowerOnValues.calm : Calm s := by
  constructor
  · intro a; simp [h.agents]
  · intro c r e hc; simp [h.calls] at hc

end PowerOnLegal

/-- Settles O60: every part is a fact about the power-on values alone, but for the sample RAM, which is empty. -/
theorem resetIsLegal : Obligations.ResetIsLegal := by
  have h := powerOnValues_reset
  have store : StoreLegal State.reset := ⟨rfl, fun k => by rw [h.segments]; rfl, fun p => by simp [h.programs]⟩
  exact ⟨store, h.slotsApart, h.portsLegal, h.groupsLegal, h.recordsLegal, h.owedLegal,
    ⟨h.bindingsLegal, h.queuesLegal, h.countsLegal, h.hearingLegal⟩, h.calm, .inl h.waitList⟩

end Sys2Proof.Machine

/-! Records written on the ports: the tables of kinds and codes, what the ports refuse and reject by themselves, and what they shift
out. -/

namespace Sys2Proof.Machine

/-! ### The kinds and their codes (R182, R197) -/

theorem ofCode_isSome_iff (b : Byte) : Kind.ofCode b ≠ none ↔ ∃ k : Kind, k.code = b.toNat := by
  have listed : ∀ k : Kind, k ∈ Kind.all := by intro k; cases k <;> decide
  simp [Kind.ofCode, List.find?_eq_none, listed]

/-- The ranges of the kind codes: what R197's table leaves between them names no kind. -/
theorem code_range_iff (n : Nat) : (∃ k : Kind, k.code = n) ↔
    ∃ range ∈ [(0x10, 0x1C), (0x20, 0x28), (0x30, 0x32), (0x38, 0x39), (0x40, 0x47), (0x50, 0x56), (0x60, 0x66)],
      range.1 ≤ n ∧ n ≤ range.2 := by
  constructor
  · rintro ⟨k, rfl⟩
    cases k <;> decide
  · rintro ⟨range, hr, low, high⟩
    have covered : ∀ n ∈ Kind.all.map Kind.code, ∃ k : Kind, k.code = n := by
      simp only [List.mem_map]
      rintro n ⟨k, -, rfl⟩
      exact ⟨k, rfl⟩
    refine covered n ?_
    fin_cases hr <;> simp only at low high <;> interval_cases n <;> decide

theorem permitted_iff (k : Kind) (p : Port) : permitted k p = true ↔
    k ∈ [Kind.agentRead, .signIn, .ready, .aux, .signOut, .wrapExtend, .wrapEnd, .agentAnswer, .agentNoAnswer, .agentHangup,
      .groupRead, .lineRead, .callRead, .sourceRead, .fetch]
    ∨ (k ∈ [Kind.agentDefine, .forceAux, .forceSignOut, .groupStage, .groupSwap, .groupOpen, .groupClose, .groupStats,
      .groupWatchMask, .lineMode, .tiebreakSet, .tiebreakRead, .storeWrite, .storeRead, .segmentLoad, .segmentRead, .programLoad,
      .programRead, .vocabLoad, .vocabRead, .sourceSet, .sourceLimit, .channelRead, .slotMap, .slotRead, .idleByteSet, .watchRead,
      .watchClear, .watchMask, .purgeShelf, .restart] ∧ p = .s)
    ∨ (k ∈ [Kind.callArrive, .callRelease, .purge] ∧ p ≠ .s) := by
  cases k <;> simp [permitted]

theorem shelfOfByte_iff (n : Nat) (x : Shelf) : shelfOfByte n = some x ↔ (n = 0 ∧ x = .a) ∨ (n = 1 ∧ x = .b) := by
  unfold shelfOfByte
  split_ifs <;> cases x <;> simp_all

theorem shelfOf_iff (p : Port) (x : Shelf) : shelfOf p = some x ↔ p = portOf x := by
  cases p <;> cases x <;> simp [shelfOf, portOf]

/-- Settles O4: the rows of fixed length one by one, and the lengths that follow from a count or a port. -/
theorem kindsAndLengthsFollowTheTable : Obligations.KindsAndLengthsFollowTheTable := by
  refine ⟨?fixed, rfl, ?define, rfl, ?read, rfl, ?write, rfl, ?load, ?codes, permitted_iff, ?fields, shelfOfByte_iff,
    ⟨rfl, rfl, shelfOf_iff⟩, by decide, by decide, by decide, by decide, by decide⟩
  case fixed =>
    intro e he
    fin_cases he <;> exact ⟨rfl, fun p ps => by simp [lengthOk]⟩
  case define => intro p ps; simp only [lengthOk, Bool.and_eq_true, decide_eq_true_eq, beq_iff_eq]; omega
  case read => intro p ps; by_cases hp : p = .s <;> simp [lengthOk, hp]
  case write => intro p ps; simp [lengthOk]
  case load => intro p ps; simp only [lengthOk, Bool.and_eq_true, decide_eq_true_eq, beq_iff_eq]; omega
  case codes => intro b; rw [ofCode_isSome_iff, code_range_iff]
  case fields =>
    intro ps i
    exact ⟨rfl, by rw [u16, Nat.mul_comm], by rw [u32, Nat.mul_comm]⟩

/-! ### The port's own checks (R182, R197) -/

/-- A record that unframes is the frame of its parameters. -/
theorem eq_frame_of_unframe {body ps : List Byte} (h : unframe body = some ps) : body = frame ps := by
  match body with
  | [] | [_] => cases h
  | hi :: lo :: rest =>
    simp only [unframe, Option.ite_none_right_eq_some, Option.some.injEq] at h
    obtain ⟨hlen, rfl⟩ := h
    have hi_lt := hi.isLt
    have lo_lt := lo.isLt
    have high : BitVec.ofNat 8 (rest.length / 256) = hi := by
      apply BitVec.eq_of_toNat_eq
      rw [BitVec.toNat_ofNat, hlen]
      omega
    have low : BitVec.ofNat 8 rest.length = lo := by
      apply BitVec.eq_of_toNat_eq
      rw [BitVec.toNat_ofNat, hlen]
      omega
    simp [frame, bytesBE, high, low]

theorem checkRecord_none {k : Kind} {p : Port} {body : List Byte}
    (h : ∀ ps, body = frame ps → ¬(lengthOk k p ps = true ∧ permitted k p = true)) : checkRecord k p body = none := by
  unfold checkRecord
  cases hu : unframe body with
  | none => rfl
  | some ps => simpa [Option.filter] using h ps (eq_frame_of_unframe hu)

theorem unknownKind_iff (record : List Byte) :
    unknownKind record = true ↔ record = [] ∨ ∃ b rest, record = b :: rest ∧ Kind.ofCode b = none := by
  cases record with
  | nil => simp [unknownKind]
  | cons b rest => simp [unknownKind]

/-- What a port answers to a record of no known kind (R182, check 1). -/
theorem refuseUnknown_idle {s : State} {p : Port} {record : List Byte} (hu : unknownKind record = true)
    (hi : (s.port p).slot = .idle) :
    s.refuseUnknown p record =
      s.setPort p
        { s.port p with
          slot := .responseReady, rejected := false, response := [0x10, 0, 0],
          shifted := s.statusByte p :: List.replicate record.length 0 } := by
  have hresponse : responseRecord .badRequest [] = [0x10, 0, 0] := rfl
  simp [State.refuseUnknown, hu, hi, State.shiftWrite, State.shiftOut, State.takeSlot, State.respond, State.modPort_eq, hresponse]

/-- Settles O5: the port's own check fails, and a record of no known kind has none to pass. -/
theorem illFormedForbiddenAndUnknownRecordsAreBadRequests : Obligations.IllFormedForbiddenAndUnknownRecordsAreBadRequests := by
  intro p s hc hi
  refine ⟨fun k body hbad => ?known, fun record => ⟨unknownKind_iff record, fun hu => ?unknown, fun hu => ?other⟩⟩
  case known => rw [exec_command, settled_calm hc, request_failed _ hi (checkRecord_none hbad)]
  case unknown =>
    change Host.Outcome.next (s.settled.refuseUnknown p record) = _
    rw [settled_calm hc, refuseUnknown_idle hu hi]
  case other =>
    change Host.Outcome.next (s.settled.refuseUnknown p record) = _
    rw [settled_calm hc, State.refuseUnknown, hu]
    rfl

/-! ### Records rejected while the slot is taken (R183, R196) -/

theorem shiftWrite_reject (s : State) (p : Port) (n : Nat) : (s.shiftWrite p n).reject p = s.rejectedRecord p n := by
  simp [State.shiftWrite, State.shiftOut, State.reject, State.rejectedRecord, State.modPort_eq]

theorem request_rejected {k : Kind} {p : Port} {body : List Byte} {s : State} (act : List Byte → State → Reply)
    (h : (s.port p).slot ≠ .idle) : State.request k p body act s = s.rejectedRecord p (1 + body.length) := by
  rw [State.request, if_neg h, shiftWrite_reject]

/-- Settles O6: in every slot state but IDLE the record is rejected, whatever it holds. -/
theorem recordIsRejectedWhileTheSlotIsTaken : Obligations.RecordIsRejectedWhileTheSlotIsTaken := by
  intro p s hc
  refine ⟨fun hi => ⟨fun k body => ?request, fun record => ?event, fun record hu => ?unknown⟩, fun hi record => ?idle⟩
  case request => rw [exec_command, settled_calm hc, request_rejected _ hi]
  case event =>
    change Host.Outcome.next (s.settled.rejectRecord p record) = _
    rw [settled_calm hc, State.rejectRecord, if_neg hi, shiftWrite_reject]
  case unknown =>
    change Host.Outcome.next (s.settled.refuseUnknown p record) = _
    rw [settled_calm hc, State.refuseUnknown, if_pos hu, if_neg hi, shiftWrite_reject]
  case idle =>
    change Host.Outcome.next (s.settled.rejectRecord p record) = _
    rw [settled_calm hc, State.rejectRecord, if_pos hi]

/-! ### Response and status reads (R184, R196) -/

theorem exec_responseRead {s : State} (hc : Calm s) (p : Port) (sent : List Byte) :
    exec (.responseRead p sent) s = .next (s.readTransaction p sent) := by
  change Host.Outcome.next (s.settled.readTransaction p sent) = _
  rw [settled_calm hc]

theorem readResponse_partial {s : State} {p : Port} {n : Nat} (hr : (s.port p).slot = .responseReady)
    (hn : n < (s.port p).response.length) :
    s.readResponse p n = s.setPort p { s.port p with shifted := s.statusByte p :: (s.port p).response.take n } := by
  have hextra : n - (s.port p).response.length = 0 := by omega
  simp [State.readResponse, hr, Nat.not_le.mpr hn, hextra, State.shiftOut, State.modPort_eq]

theorem readResponse_whole {s : State} {p : Port} {n : Nat} (hr : (s.port p).slot = .responseReady)
    (hn : (s.port p).response.length ≤ n) :
    ∃ extra : List Byte, extra.length = n - (s.port p).response.length ∧
      s.readResponse p n =
        (s.setPort p
          { s.port p with
            slot := .idle, response := [], shifted := s.statusByte p :: ((s.port p).response ++ extra) }).draw extra.length := by
  refine ⟨(List.range (n - (s.port p).response.length)).map fun i => Config.byteAfterResponse (s.free + i), by simp, ?_⟩
  simp [State.readResponse, hr, hn, State.shiftOut, State.modPort_eq, List.take_of_length_le hn]

theorem readResponse_notReady {s : State} {p : Port} (n : Nat) (hr : (s.port p).slot ≠ .responseReady) :
    s.readResponse p n = s.readStatus p n := by
  rw [State.readResponse, if_neg hr, State.readStatus]

/-- Settles O7: by the type byte, and at a response read by the slot and by how far the response is read. -/
theorem responseReadEmptiesTheBufferAtItsEnd : Obligations.ResponseReadEmptiesTheBufferAtItsEnd := by
  intro p fill s hc
  simp only [exec_responseRead hc]
  refine ⟨fun hr hn => ?partly, fun hr hn => ?wholly, fun hr => ?zeros, fun type hw hread => ?status, rfl, rfl⟩
  case partly => exact congrArg _ (readResponse_partial hr hn)
  case wholly =>
    obtain ⟨extra, hlen, heq⟩ := readResponse_whole hr hn
    exact ⟨extra, hlen, congrArg _ heq⟩
  case zeros => exact congrArg _ (readResponse_notReady _ hr)
  case status =>
    have htype : Transaction.ofByte type = .statusRead := by rw [Transaction.ofByte, if_neg hw, if_neg hread]
    rw [State.readTransaction, htype]
    rfl

/-! ### The status byte (R185, R196) -/

/-- Settles O8: the three parts of the sum stand in separate bits. -/
theorem statusByteShowsReadyRejectedAndCount : Obligations.StatusByteShowsReadyRejectedAndCount := by
  intro s p hn
  have hcap : Config.noticeCapacity = 64 := rfl
  have hcount : (s.port p).notices.length % 64 < 64 := Nat.mod_lt _ (by decide)
  have bits : ∀ (ready rejected : Bool) (n : Nat), n < 64 →
      (BitVec.ofNat 8 ((if ready then 128 else 0) + (if rejected then 64 else 0) + n)).getLsbD 7 = ready
      ∧ (BitVec.ofNat 8 ((if ready then 128 else 0) + (if rejected then 64 else 0) + n)).getLsbD 6 = rejected
      ∧ (BitVec.ofNat 8 ((if ready then 128 else 0) + (if rejected then 64 else 0) + n)).toNat % 64 = n := by decide
  obtain ⟨hready, hrejected, hlow⟩ := bits (decide ((s.port p).slot = .responseReady)) (s.port p).rejected _ hcount
  simp only [decide_eq_true_eq] at hready hrejected hlow
  refine ⟨hready, hrejected, hlow.trans ?_⟩
  split <;> omega

end Sys2Proof.Machine

/-! What the owning blocks do with a request: the kinds that act by moves alone, and the transaction side of the ports, which no kind
touches. -/

namespace Sys2Proof.Machine

/-! ### The checks before an act -/

section Checks
variable {R : State → Prop} {s : State} {ps : List Byte}

/-- A property of the state that a refusal keeps holds after a checked act if the act establishes it. -/
theorem asAgent_lift {p : Port} {home : Bool} {act : AgentSlot → Reply} (refl : R s) (h : ∀ a, R (act a).state) :
    R (asAgent p home ps s act).state := by
  unfold asAgent
  split
  · exact refl
  · split_ifs
    · exact refl
    · exact refl
    · exact h _

theorem asGroup_lift {act : Group → Reply} (refl : R s) (h : ∀ g, R (act g).state) : R (asGroup ps s act).state := by
  unfold asGroup
  split
  · exact refl
  · exact h _

theorem asLine_lift {act : LineNo → Reply} (refl : R s) (h : ∀ l, R (act l).state) : R (asLine ps s act).state := by
  unfold asLine
  split
  · exact refl
  · exact h _

theorem asSource_lift {act : SourceNo → Reply} (refl : R s) (h : ∀ m, R (act m).state) : R (asSource ps s act).state := by
  unfold asSource
  split
  · exact refl
  · exact h _

theorem asSegment_lift {act : SegmentCode → Reply} (refl : R s) (h : ∀ k, R (act k).state) : R (asSegment ps s act).state := by
  unfold asSegment
  split
  · exact refl
  · exact h _

theorem asProgram_lift {act : ProgramNo → Reply} (refl : R s) (h : ∀ n, R (act n).state) : R (asProgram ps s act).state := by
  unfold asProgram
  split
  · exact refl
  · exact h _

theorem asVocab_lift {act : VocabNo → Reply} (refl : R s) (h : ∀ v, R (act v).state) : R (asVocab ps s act).state := by
  unfold asVocab
  split
  · exact refl
  · exact h _

theorem asCall_lift {x : Option Shelf} {t : Tag} {act : CallSlot → CallRec → Reply} (refl : R s)
    (h : ∀ c r, s.call c = some r → R (act c r).state) : R (asCall x t s act).state := by
  unfold asCall
  split
  · exact refl
  · split
    · exact refl
    · next hr => exact h _ _ hr

end Checks

theorem boundAs_some {s : State} {a : AgentSlot} {st : AgentState} {n : Shelf × Tag} {c : CallSlot} {r : CallRec}
    (h : s.boundAs a st n = some (c, r)) :
    (s.agent a).state = st ∧ (s.agent a).boundCall = some c ∧ s.call c = some r ∧ r.owner = n.1 ∧ r.tag = n.2 := by
  unfold State.boundAs at h
  dsimp only at h
  split at h
  next hst =>
    split at h
    · cases h
    next d hd =>
      split at h
      · cases h
      next q hq =>
        split at h
        next hn =>
          simp only [Option.some.injEq, Prod.mk.injEq] at h
          obtain ⟨rfl, rfl⟩ := h
          exact ⟨hst, hd, hq, hn.1, hn.2⟩
        · cases h
  · cases h

/-! ### Acts that are chains of moves -/

section Moves
variable {s : State}

theorem goAux_moves (a : AgentSlot) (n : Nat) : Moves true s (s.goAux a n).state := by
  unfold State.goAux
  dsimp only
  split
  · exact .refl _ s
  · split
    · exact .refl _ s
    · exact moveAgent_moves s a _ (toAux_same _ _)
  · exact moveAgent_moves s a _ (toAux_same _ _)
  · exact withdraw_moves s a _ _ (toAux_same _ _)
  all_goals
    split
    · exact .refl _ s
    · exact recordPending_moves s a _

theorem goOut_moves (a : AgentSlot) {engaged : Reply} (h : Moves true s engaged.state) : Moves true s (s.goOut a engaged).state := by
  unfold State.goOut
  dsimp only
  split
  · exact .refl _ s
  · exact moveAgent_moves s a _ (toSignedOut_same _)
  · exact moveAgent_moves s a _ (toSignedOut_same _)
  · exact withdraw_moves s a _ _ (toSignedOut_same _)
  · exact h
  · exact h

theorem finishWrap_moves (a : AgentSlot) : Moves true s (s.finishWrap a).state := endWrap_moves s a false

theorem giveProgram_moves (m : SourceNo) (n : Option ProgramNo) : Moves true s (s.giveProgram m n).state := by
  unfold State.giveProgram
  dsimp only
  split
  · refine (setSource_moves s m { s.source m with current := n } rfl rfl).trans ?_
    dsimp only [Reply.ok]
    split
    · exact startSource_moves _ m
    · exact .refl _ _
  · split
    · exact setSource_moves s m _ (by rfl) (by rfl)
    · exact setSource_moves s m _ (by rfl) (by rfl)

theorem purgeReply_moves (x : Shelf) : Moves true s (s.purgeReply x).state := purgeShelf_moves s x

variable (p : Port) (ps : List Byte)

theorem actSignIn_moves : Moves true s (actSignIn p ps s).state := by
  refine asAgent_lift (R := Moves true s) (.refl _ s) fun a => ?_
  split
  · exact moveAgent_moves s a { (s.agent a).toAux 0 with callsHandled := 0 } ⟨rfl, rfl, rfl⟩
  · exact .refl _ s

theorem actReady_moves : Moves true s (actReady p ps s).state := by
  refine asAgent_lift (R := Moves true s) (.refl _ s) fun a => ?_
  dsimp only
  split
  · exact .refl _ s
  · exact moveAgent_moves s a _ (toReady_same _ _)
  · exact .refl _ s
  · exact .refl _ s
  · split
    · exact .refl _ s
    · exact recordPending_moves s a _
  · exact finishWrap_moves a

theorem actAux_moves : Moves true s (actAux p ps s).state := by
  refine asAgent_lift (R := Moves true s) (.refl _ s) fun a => ?_
  split
  · exact goAux_moves a _
  · exact .refl _ s

theorem actForceAux_moves : Moves true s (actForceAux p ps s).state := by
  refine asAgent_lift (R := Moves true s) (.refl _ s) fun a => ?_
  split
  · exact goAux_moves a _
  · exact .refl _ s

theorem actSignOut_moves : Moves true s (actSignOut p ps s).state := by
  refine asAgent_lift (R := Moves true s) (.refl _ s) fun a => goOut_moves a ?_
  split
  · exact .refl _ s
  · exact recordPending_moves s a _

theorem actForceSignOut_moves : Moves true s (actForceSignOut p ps s).state := by
  refine asAgent_lift (R := Moves true s) (.refl _ s) fun a => goOut_moves a ?_
  split_ifs
  · exact endWrap_moves s a true
  · exact .refl _ s
  · exact recordPending_moves s a _

theorem actWrapExtend_moves : Moves true s (actWrapExtend p ps s).state := by
  refine asAgent_lift (R := Moves true s) (.refl _ s) fun a => ?_
  dsimp only
  split
  · exact .refl _ s
  split
  · exact .refl _ s
  dsimp only
  split
  · exact setAgent_moves s a _ ⟨by rfl, by rfl, by rfl⟩ (by rfl)
  · exact (setAgent_moves s a _ ⟨by rfl, by rfl, by rfl⟩ (by rfl)).trans (handAgentState_moves _ a)

theorem actWrapEnd_moves : Moves true s (actWrapEnd p ps s).state := by
  refine asAgent_lift (R := Moves true s) (.refl _ s) fun a => ?_
  split
  · exact finishWrap_moves a
  · exact .refl _ s

theorem actAgentAnswer_moves : Moves true s (actAgentAnswer p ps s).state := by
  refine asAgent_lift (R := Moves true s) (.refl _ s) fun a => ?_
  split
  · exact .refl _ s
  · split
    · exact .refl _ s
    · dsimp only [Reply.ok]
      exact connect_moves s a _ _

theorem actAgentNoAnswer_moves : Moves true s (actAgentNoAnswer p ps s).state := by
  refine asAgent_lift (R := Moves true s) (.refl _ s) fun a => ?_
  split
  · exact .refl _ s
  · split
    · exact .refl _ s
    · exact ringNoAnswer_moves s _ _ a

theorem actAgentHangup_moves : Moves true s (actAgentHangup p ps s).state := by
  refine asAgent_lift (R := Moves true s) (.refl _ s) fun a => ?_
  split
  · exact .refl _ s
  · split
    · exact .refl _ s
    · exact hangUp_moves s a _ _

theorem actGroupSwap_moves : Moves true s (actGroupSwap ps s).state := by
  refine asGroup_lift (R := Moves true s) (.refl _ s) fun g => ?_
  dsimp only
  split
  · exact .refl _ s
  split
  · exact performSwap_moves s g
  · exact setGroup_moves s g _ ⟨by rfl, .inl (by rfl), by rfl, by rfl, by rfl, .inl (by rfl)⟩

theorem actSourceSet_moves : Moves true s (actSourceSet ps s).state := by
  refine asSource_lift (R := Moves true s) (.refl _ s) fun m => ?_
  split
  · exact .refl _ s
  · exact giveProgram_moves m _

theorem clearGroups_moves (m : WatchBits) (l : List Group) : Moves true s (s.clearGroups m l) :=
  Moves.foldl (fun s g => modGroup_moves s g _ ⟨by rfl, .inl (by rfl), by rfl, by rfl, by rfl, .inl (by rfl)⟩) l s

theorem actWatchClear_moves : Moves true s (actWatchClear ps s).state := by
  unfold actWatchClear
  split
  · exact .refl _ s
  · exact (setDevice_moves s _ (by rfl) (by rfl)).trans (clearGroups_moves _ _)

theorem actPurgeShelf_moves : Moves true s (actPurgeShelf ps s).state := by
  unfold actPurgeShelf
  split
  · exact .refl _ s
  · exact purgeReply_moves _

theorem actPurge_moves : Moves true s (actPurge p ps s).state := by
  unfold actPurge
  split
  · exact .refl _ s
  · exact purgeReply_moves _

end Moves

/-! ### Reads -/

section Reads
variable (s : State) (p : Port) (ps : List Byte)

theorem actAgentRead_state : (actAgentRead ps s).state = s := by
  unfold actAgentRead
  split <;> rfl

theorem actCallRead_state : (actCallRead p ps s).state = s := by
  have found : ∀ x t, (asCall x t s fun c r => .ok s (s.callBytes c r)).state = s := fun x t =>
    asCall_lift (R := (· = s)) rfl fun _ _ _ => rfl
  unfold actCallRead
  split
  · exact found _ _
  · split
    · rfl
    · exact found _ _

theorem actStoreRead_state : (actStoreRead ps s).state = s := by
  unfold actStoreRead
  dsimp only
  split <;> rfl

theorem actChannelRead_state : (actChannelRead ps s).state = s := by
  unfold actChannelRead
  split <;> rfl

end Reads

/-- The kinds that read the state and leave it. -/
def readOnly : Kind → Bool
  | .agentRead | .groupRead | .lineRead | .callRead | .tiebreakRead | .storeRead | .segmentRead | .programRead | .vocabRead
  | .sourceRead | .channelRead | .slotRead | .watchRead => true
  | _ => false

theorem act_readOnly {k : Kind} (hk : readOnly k = true) (p : Port) (ps : List Byte) (s : State) :
    (actOf k p ps s).state = s := by
  cases k <;> try cases hk
  case agentRead => exact actAgentRead_state s ps
  case groupRead => exact asGroup_lift (R := (· = s)) rfl fun _ => rfl
  case lineRead => exact asLine_lift (R := (· = s)) rfl fun _ => rfl
  case callRead => exact actCallRead_state s p ps
  case tiebreakRead | slotRead | watchRead => rfl
  case storeRead => exact actStoreRead_state s ps
  case segmentRead => exact asSegment_lift (R := (· = s)) rfl fun _ => rfl
  case programRead => exact asProgram_lift (R := (· = s)) rfl fun _ => rfl
  case vocabRead => exact asVocab_lift (R := (· = s)) rfl fun _ => rfl
  case sourceRead => exact asSource_lift (R := (· = s)) rfl fun _ => rfl
  case channelRead => exact actChannelRead_state s ps

/-- The kinds whose act is a chain of moves: the others read, write the configuration, enter a call or take a notice. -/
def movesOnly : Kind → Bool
  | .signIn | .ready | .aux | .forceAux | .signOut | .forceSignOut | .wrapExtend | .wrapEnd | .agentAnswer | .agentNoAnswer
  | .agentHangup | .groupSwap | .groupStats | .callRelease | .sourceSet | .watchClear | .purgeShelf | .purge => true
  | _ => false

theorem act_moves {k : Kind} (hk : movesOnly k = true) (p : Port) (ps : List Byte) (s : State) :
    Moves true s (actOf k p ps s).state := by
  cases k <;> try cases hk
  case signIn => exact actSignIn_moves p ps
  case ready => exact actReady_moves p ps
  case aux => exact actAux_moves p ps
  case forceAux => exact actForceAux_moves p ps
  case signOut => exact actSignOut_moves p ps
  case forceSignOut => exact actForceSignOut_moves p ps
  case wrapExtend => exact actWrapExtend_moves p ps
  case wrapEnd => exact actWrapEnd_moves p ps
  case agentAnswer => exact actAgentAnswer_moves p ps
  case agentNoAnswer => exact actAgentNoAnswer_moves p ps
  case agentHangup => exact actAgentHangup_moves p ps
  case groupSwap => exact actGroupSwap_moves ps
  case groupStats => exact asGroup_lift (R := Moves true s) (.refl _ s) fun g => modStats_moves s g fun _ => {}
  case callRelease => exact asCall_lift (R := Moves true s) (.refl _ s) fun c r _ => (release_moves s c r).trans (arbitrate_moves _)
  case sourceSet => exact actSourceSet_moves ps
  case watchClear => exact actWatchClear_moves ps
  case purgeShelf => exact actPurgeShelf_moves ps
  case purge => exact actPurge_moves p ps

end Sys2Proof.Machine

/-! What a step can do, said once: it is a chain of the moves that the shared operations are made of and of writes, which change the
configuration, enter a call, take a notice, or belong to one command alone. -/

namespace Sys2Proof.Machine

/-- A change that is no move of a shared operation, with what the command that makes it has checked; `act` says that an owning block
makes it at a request. -/
inductive Write (act : Bool) : State → State → Prop
  | poweredOn (s : State) (e : act = false) : Write act s s.poweredOn
  | restarted (s : State) : Write act s s.restarted
  | pending (s : State) (l : List Instr) (e : act = false) : Write act s { s with pending := l }
  | tick (s : State) (e : act = false) : Write act s s.tick
  | draw (s : State) (n : Nat) (e : act = false) : Write act s (s.draw n)
  | highway (s : State) (v : Vector (Option Byte) 32) (e : act = false) : Write act s (s.setHighway v)
  | line (s : State) (l : LineNo) (r : LineRec) : Write act s (s.setLine l r)
  | slot (s : State) (p : Port) (r : PortRec) (e : act = false) (hn : r.notices = (s.port p).notices) (ho : r.owed = (s.port p).owed) :
      Write act s (s.setPort p r)
  | define (s : State) (a : AgentSlot) (r : AgentRec) (h : skillsLegal r.skills = true) : Write act s (s.writeAgent a r)
  | stage (s : State) (g : Group) (p : Params) (h : p.legal = true) (ht : p.overflowTarget ≠ some g) :
      Write act s (s.setGroup g { s.group g with staged := p })
  | close (s : State) (g : Group) (flag : Bool) : Write act s (s.setGroup g { s.group g with supervisorClosed := flag })
  | mask (s : State) (g : Group) (m : WatchBits) : Write act s (s.setGroup g { s.group g with masks := m })
  | maskDevice (s : State) (x y : Bool) : Write act s (s.setDevice { s.device with maskSegmentFault := x, maskStarved := y })
  | tiebreak (s : State) (seed taps : Word16) (hs : seed ≠ 0) (ht : taps ≠ 0) : Write act s (s.setTiebreak seed taps)
  | ram (s : State) (a : Nat) (l : List Byte) (h : a + l.length ≤ Config.ramBytes) :
      Write act s (s.setRam (Memory.writeBytes s.ram a l))
  | segment (s : State) (k : SegmentCode) (e : SegmentRec) (h : e.legal = true) : Write act s (s.setSegment k e)
  | program (s : State) (n : ProgramNo) (l : List Step) (h : l.length ≤ 32) : Write act s (s.setProgram n l)
  | vocab (s : State) (v : VocabNo) (o : Option Byte) : Write act s (s.setVocab v o)
  | idleLimit (s : State) (m : SourceNo) (n : Nat) : Write act s (s.setSource m { s.source m with idleLimit := n })
  | slotMap (s : State) (h : HighwayChannel) (t : Option Timeslot) (m : IdleMode)
      (free : ∀ k, k ≠ h → t ≠ none → s.slotOf k ≠ t) : Write act s (s.setSlot h t m)
  | idleByte (s : State) (b : Byte) : Write act s (s.setIdleByte b)
  | enter (s : State) (c : CallSlot) (x : Shelf) (t : Tag) (g : Group) (priority hops : Nat) (free : s.call c = none)
      (new : ∀ d r, s.call d = some r → ¬(r.owner = x ∧ r.tag = t)) (hp : priority ≤ 7) (hh : hops ≤ 3) :
      Write act s (s.putCall c (some (s.arrivalRecord x t g priority hops)))
  | seqCounter (s : State) (n : Nat) : Write act s (s.setSeqCounter n)
  | fetch (s : State) (p : Port) (n : Notice) (rest : List Notice) (h : (s.port p).notices = n :: rest) :
      Write act s (State.drain p (s.port p).owed (s.modPort p fun r => { r with notices := rest }))

/-- One move or one write. -/
def Work (act : Bool) (s t : State) : Prop := Move true s t ∨ Write act s t

/-- A chain of moves and writes. -/
abbrev Works (act : Bool) : State → State → Prop := Relation.ReflTransGen (Work act)

theorem Works.refl {act : Bool} (s : State) : Works act s s := Relation.ReflTransGen.refl
theorem Works.trans {act : Bool} {s t u : State} (h : Works act s t) (k : Works act t u) : Works act s u :=
  Relation.ReflTransGen.trans h k
theorem Write.works {act : Bool} {s t : State} (h : Write act s t) : Works act s t := .single (.inr h)
theorem Moves.works {act : Bool} {s t : State} (h : Moves true s t) : Works act s t :=
  Relation.ReflTransGen.mono (r := Move true) (p := Work act) (fun _ _ => .inl) _ _ h

/-- A predicate that every move and every write keeps is kept by a chain of them. -/
theorem Works.keep {act : Bool} {P : State → Prop} (move : ∀ s t, Move true s t → P s → P t)
    (write : ∀ s t, Write act s t → P s → P t) {s t : State} (h : Works act s t) (hs : P s) : P t := by
  induction h with
  | refl => exact hs
  | tail _ k ih =>
    rcases k with k | k
    · exact move _ _ k ih
    · exact write _ _ k ih

theorem Write.weaken {s t : State} (h : Write true s t) : Write false s t := by
  cases h <;> first | contradiction | constructor
  all_goals assumption

theorem Works.weaken {s t : State} (h : Works true s t) : Works false s t :=
  Relation.ReflTransGen.mono (r := Work true) (p := Work false) (fun _ _ => Or.imp_right Write.weaken) _ _ h

theorem Works.ite {act : Bool} {s t u : State} {c : Prop} [Decidable c] (h : Works act s t) (k : Works act s u) : Works act s (if c then t else u) := by
  split
  · exact h
  · exact k

/-! ### The ports' part of a request -/

theorem shiftOut_works (s : State) (p : Port) (rest : List Byte) : Works false s (s.shiftOut p rest) :=
  (Write.slot s p { s.port p with shifted := s.statusByte p :: rest } rfl rfl rfl).works

theorem takeSlot_works (s : State) (p : Port) : Works false s (s.takeSlot p) :=
  (Write.slot s p { s.port p with slot := .busy, rejected := false } rfl rfl rfl).works

theorem respond_works (s : State) (p : Port) (r : Result) (content : List Byte) : Works false s (s.respond p r content) :=
  (Write.slot s p { s.port p with slot := .responseReady, response := responseRecord r content } rfl rfl rfl).works

theorem reject_works (s : State) (p : Port) : Works false s (s.reject p) :=
  (Write.slot s p { s.port p with rejected := true } rfl rfl rfl).works

theorem emptyBuffer_works (s : State) (p : Port) : Works false s (s.modPort p fun q => { q with slot := .idle, response := [] }) :=
  (Write.slot s p { s.port p with slot := .idle, response := [] } rfl rfl rfl).works

theorem request_works {k : Kind} {p : Port} {body : List Byte} {act : List Byte → State → Reply} (s : State)
    (h : ∀ ps s, Works true s (act ps s).state) : Works false s (State.request k p body act s) := by
  have shift : Works false s (s.shiftWrite p (1 + body.length)) := shiftOut_works s p _
  unfold State.request
  dsimp only
  split
  · split
    · exact (shift.trans (takeSlot_works _ p)).trans (respond_works _ p _ _)
    · exact ((shift.trans (takeSlot_works _ p)).trans (h _ _).weaken).trans (respond_works _ p _ _)
  · exact shift.trans (reject_works _ p)

theorem readTransaction_works (s : State) (p : Port) (sent : List Byte) : Works false s (s.readTransaction p sent) := by
  unfold State.readTransaction
  split
  · exact .refl s
  · split
    · exact shiftOut_works s p _
    · unfold State.readResponse
      dsimp only
      split
      · split
        · exact ((shiftOut_works s p _).trans (emptyBuffer_works _ p)).trans (Write.draw _ _ rfl).works
        · exact shiftOut_works s p _
      · exact shiftOut_works s p _
    · exact .refl s

theorem rejectRecord_works (s : State) (p : Port) (record : List Byte) : Works false s (s.rejectRecord p record) := by
  unfold State.rejectRecord
  split
  · exact .refl s
  · exact (shiftOut_works s p _).trans (reject_works _ p)

theorem refuseUnknown_works (s : State) (p : Port) (record : List Byte) : Works false s (s.refuseUnknown p record) := by
  unfold State.refuseUnknown
  split
  · dsimp only
    split
    · exact ((shiftOut_works s p _).trans (takeSlot_works _ p)).trans (respond_works _ p _ _)
    · exact (shiftOut_works s p _).trans (reject_works _ p)
  · exact .refl s

/-! ### AGENT_DEFINE (R5, R6) -/

theorem below_some {n v : Nat} {i : Fin n} (h : below n v = some i) : v = i.val := by
  unfold below at h
  split at h
  · cases h; rfl
  · cases h

/-- The skills that pairs write: the groups and levels written, each level 1–9. -/
theorem skillsOf_some {l : List (Nat × Nat)} {ks : List Skill} (h : skillsOf l = some ks) :
    l = ks.map (fun k => (k.group.val, k.level)) ∧ ∀ k ∈ ks, 1 ≤ k.level ∧ k.level ≤ 9 := by
  induction l generalizing ks with
  | nil =>
    cases h
    exact ⟨rfl, nofun⟩
  | cons e rest ih =>
    simp only [skillsOf] at h
    split at h
    next g qs hg hqs =>
      split at h
      next hlevel =>
        cases h
        obtain ⟨hrest, hlevels⟩ := ih hqs
        refine ⟨?_, List.forall_mem_cons.mpr ⟨hlevel, hlevels⟩⟩
        rw [List.map_cons, ← hrest, ← below_some hg]
      · cases h
    · cases h

theorem skillsLegal_iff (l : List Skill) :
    skillsLegal l = true ↔ l.length ≤ 8 ∧ (∀ k ∈ l, 1 ≤ k.level ∧ k.level ≤ 9) ∧ (l.map Skill.group).Nodup := by
  simp [skillsLegal, and_assoc]

/-- The skill list of an AGENT_DEFINE that passes its checks is legal (R2). -/
theorem skillsOf_legal {ps : List Byte} {ks : List Skill} (h : skillsOf (skillPairs ps) = some ks)
    (hn : ((skillPairs ps).map Prod.fst).Nodup) (hc : u8 ps 4 ≤ 8) : skillsLegal ks = true := by
  obtain ⟨hpairs, hlevels⟩ := skillsOf_some h
  rw [skillsLegal_iff]
  refine ⟨?_, hlevels, ?_⟩
  · have hlen := congrArg List.length hpairs
    simp only [skillPairs, List.length_map, List.length_range] at hlen
    omega
  · rw [hpairs, List.map_map] at hn
    refine List.Nodup.of_map Fin.val ?_
    rwa [List.map_map]

theorem actAgentDefine_works (s : State) (ps : List Byte) : Works true s (actAgentDefine ps s).state := by
  have removed : ∀ p o, Works true s (s.removeOwed p o) := fun p o => (removeOwed_moves s p o).works
  unfold actAgentDefine
  split
  · exact .refl s
  next a _ =>
    dsimp only
    split
    · exact .refl s
    split
    next ks home hks _ =>
      split
      · exact .refl s
      next hparams =>
      simp only [Bool.not_eq_true', Bool.or_eq_true, decide_eq_false_iff_not, decide_eq_true_eq, not_or, not_lt, not_not] at hparams
      obtain ⟨⟨hnodup, hcount⟩, -⟩ := hparams
      split
      · exact .refl s
      split
      · exact .refl s
      split
      · split
        · exact (removed _ _).trans (Write.define _ _ _ (by decide)).works
        · exact .refl s
      · have before : Works true s (if (s.agent a).home = home then s else s.removeOwed (portOf (s.agent a).home) (.agentState a)) :=
          Works.ite (.refl s) (removed _ _)
        have written := before.trans (Write.define _ a
          { s.agent a with defined := true, home := home, skills := ks, owed := (s.agent a).owed && (s.agent a).home == home }
          (skillsOf_legal hks hnodup hcount)).works
        split
        · exact written.trans (raiseAgentTrigger_moves _ _).works
        · exact written
    · exact .refl s

/-! ### The group requests (R31, R32, R38, R39, R50) -/

theorem actGroupStage_works (s : State) (ps : List Byte) : Works true s (actGroupStage ps s).state := by
  refine asGroup_lift (R := Works true s) (.refl s) fun g => ?_
  split
  · exact .refl s
  next p _ =>
    split
    · exact .refl s
    next htarget => exact (Write.stage s g p.inRange (inRange_legal p) htarget).works

theorem actGroupOpen_works (s : State) (ps : List Byte) : Works true s (actGroupOpen ps s).state :=
  asGroup_lift (R := Works true s) (.refl s) fun g => (Write.close s g false).works.trans (sweepIfOpened_moves _ s).works

theorem actGroupClose_works (s : State) (ps : List Byte) : Works true s (actGroupClose ps s).state :=
  asGroup_lift (R := Works true s) (.refl s) fun g => (Write.close s g true).works

theorem actGroupWatchMask_works (s : State) (ps : List Byte) : Works true s (actGroupWatchMask ps s).state := by
  refine asGroup_lift (R := Works true s) (.refl s) fun g =>
    (Write.mask s g (watchBitsOf (u8 ps 1))).works.trans (Moves.works ?_)
  refine Moves.foldl (fun u k => ?_) _ _
  unfold unmaskWatch
  split
  · exact handWatch_moves u
  · exact .refl _ u

theorem actLineMode_works (s : State) (ps : List Byte) : Works true s (actLineMode ps s).state := by
  refine asLine_lift (R := Works true s) (.refl s) fun l => ?_
  split
  · exact .refl s
  · exact (Write.line s l _).works.trans (sweepIfOpened_moves _ s).works

/-! ### Arrivals (R56, R60 to R62) and the tie-break registers (R88) -/

theorem findCall_none_iff (s : State) (x : Shelf) (t : Tag) :
    s.findCall x t = none ↔ ∀ d r, s.call d = some r → ¬(r.owner = x ∧ r.tag = t) := by
  constructor
  · intro h d r hr hx
    have miss := head_findAll_none _ _ h d
    change (s.call d).any _ = false at miss
    simp [hr, hx] at miss
  · intro h
    rw [State.findCall, List.head?_eq_none_iff, List.eq_nil_iff_forall_not_mem]
    intro d hd
    rw [mem_findAll] at hd
    change (s.call d).any _ = true at hd
    simp only [Option.any_eq_true, Bool.and_eq_true, beq_iff_eq] at hd
    obtain ⟨r, hr, hx⟩ := hd
    exact h d r hr hx

/-- The chain of overflow targets takes an arrival at one of the hops that are left (R61). -/
theorem overflowChain_hops {s : State} {left hop : Nat} {g t : Group} {n : Nat} (h : s.overflowChain left hop g = some (t, n)) :
    n < hop + left := by
  induction left generalizing hop g with
  | zero => cases h
  | succ left ih =>
    simp only [State.overflowChain] at h
    split at h
    · cases h
    · split at h
      · cases h; omega
      · have := ih h; omega

theorem placeArrival_hops {s : State} {named g : Group} {hops : Nat} (h : s.placeArrival named = some (g, hops)) : hops ≤ 3 := by
  unfold State.placeArrival at h
  split_ifs at h
  · cases h; omega
  · have := overflowChain_hops h; omega

theorem startListening_moves (s : State) (c : CallSlot) (g : Group) : Moves true s (s.startListening c g) := by
  unfold State.startListening
  dsimp only
  have due : ∀ (u : State) (o : Option Nat), Moves true u (u.modCall c fun r => { r with nextDue := o }) := fun u o =>
    modCall_moves u c _ (by exact fun _ _ => ⟨rfl, id⟩) (by exact fun _ => rfl)
  split
  · exact (setListen_moves s c _).trans (due _ _)
  · exact ((setListen_moves s c _).trans (handCall_moves _ c _)).trans (due _ _)

theorem countHop_moves (s : State) (named taken : Group) (hops : Nat) : Moves true s (s.countHop named taken hops) := by
  unfold State.countHop
  split
  · exact .refl _ s
  · exact (modStats_moves s named _).trans (modStats_moves _ taken _)

theorem arrive_works (s : State) {c : CallSlot} {x : Shelf} {t : Tag} (named g : Group) {priority hops : Nat}
    (free : s.call c = none) (new : s.findCall x t = none) (hp : priority ≤ 7) (hh : hops ≤ 3) :
    Works true s (s.arrive c x t named g priority hops) := by
  have entered := (Write.enter (act := true) s c x t g priority hops free ((findCall_none_iff s x t).mp new) hp hh).works
  have numbered := fun n => entered.trans (Write.seqCounter _ n).works
  exact (numbered _).trans (((countHop_moves _ named g hops).trans (join_moves _ c g)).trans (startListening_moves _ c g)).works

theorem freeSlot_free {s : State} {c : CallSlot} (h : s.freeSlot = some c) : s.call c = none := by
  exact Option.isNone_iff_eq_none.mp (head_findAll _ _ h).1

theorem actCallArrive_works (s : State) (p : Port) (ps : List Byte) : Works true s (actCallArrive p ps s).state := by
  unfold actCallArrive
  split
  · exact .refl s
  · dsimp only
    split
    · exact .refl s
    next hnew =>
      rw [Bool.not_eq_true, Option.isSome_eq_false_iff, Option.isNone_iff_eq_none] at hnew
      split
      · exact .refl s
      · split
        · exact .refl s
        · split
          · exact .refl s
          · exact .refl s
          next hfree hplace =>
            exact arrive_works s _ _ (freeSlot_free hfree) hnew (Nat.min_le_left _ _) (placeArrival_hops hplace)

theorem u8_lt (ps : List Byte) (i : Nat) : u8 ps i < 256 := (ps.getD i 0).isLt

theorem u16_lt (ps : List Byte) (i : Nat) : u16 ps i < 65536 := by
  have high := u8_lt ps i
  have low := u8_lt ps (i + 1)
  unfold u16
  omega

/-- A tie-break register takes the value given, or its stand-in for 0: it is never 0 (R88). -/
theorem standIn_ne_zero {n d : Nat} (hn : n < 65536) (hd : d < 65536) (h : d ≠ 0) :
    BitVec.ofNat 16 (if n = 0 then d else n) ≠ 0 := by
  intro h0
  have := congrArg BitVec.toNat h0
  simp only [BitVec.toNat_ofNat] at this
  split at this <;> simp at this <;> omega

theorem actTiebreakSet_works (s : State) (ps : List Byte) : Works true s (actTiebreakSet ps s).state :=
  (Write.tiebreak s _ _ (standIn_ne_zero (u16_lt ps 0) (by omega) (by omega))
    (standIn_ne_zero (u16_lt ps 2) (by omega) (by omega))).works

/-! ### The stores (R144, R146, R148, R157) -/

theorem actStoreWrite_works (s : State) (ps : List Byte) : Works true s (actStoreWrite ps s).state := by
  unfold actStoreWrite
  dsimp only
  split
  · exact .refl s
  next hfits =>
    split
    · exact .refl s
    · exact (Write.ram s _ _ (Nat.not_lt.mp hfits)).works

theorem actSegmentLoad_works (s : State) (ps : List Byte) : Works true s (actSegmentLoad ps s).state := by
  refine asSegment_lift (R := Works true s) (.refl s) fun k => ?_
  dsimp only
  split
  · exact .refl s
  next hfits =>
    split
    · exact .refl s
    · refine (Write.segment s k _ ?_).works
      by_cases h0 : u32 ps 5 = 0
      · simp [SegmentRec.legal, h0]
      · simp [SegmentRec.legal, h0] at hfits ⊢
        exact hfits

theorem stepsOf_length {l : List (Nat × Nat)} {steps : List Step} (h : stepsOf l = some steps) : steps.length = l.length := by
  induction l generalizing steps with
  | nil => cases h; rfl
  | cons e rest ih =>
    simp only [stepsOf] at h
    split at h
    next hrest => cases h; simp [ih hrest]
    · cases h

theorem actProgramLoad_works (s : State) (ps : List Byte) : Works true s (actProgramLoad ps s).state := by
  refine asProgram_lift (R := Works true s) (.refl s) fun n => ?_
  split
  · exact .refl s
  next hcount =>
    split
    · exact .refl s
    next given hgiven =>
      dsimp only
      split
      · exact .refl s
      · refine (Write.program s n _ ?_).works
        rw [List.length_map, stepsOf_length hgiven]
        simpa [stepPairs] using hcount

theorem actVocabLoad_works (s : State) (ps : List Byte) : Works true s (actVocabLoad ps s).state := by
  refine asVocab_lift (R := Works true s) (.refl s) fun v => ?_
  dsimp only
  split_ifs
  · exact (Write.vocab s v _).works
  · exact (Write.vocab s v _).works
  · exact .refl s

/-! ### The playout and highway requests (R165, R175, R176) -/

theorem slotTaken_false {s : State} {h : HighwayChannel} {t : Option Timeslot} (hf : s.slotTaken h t = false) (k : HighwayChannel)
    (hk : k ≠ h) (ht : t ≠ none) : s.slotOf k ≠ t := by
  intro hs
  have mem : k ∈ findAll (· == t) s.slotMap := (mem_findAll _ _ k).mpr (by simpa [State.slotOf] using hs)
  simp only [State.slotTaken, Bool.and_eq_false_iff, List.any_eq_false, bne_iff_ne] at hf
  rcases hf with hf | hf
  · exact ht (by simpa using hf)
  · exact hf k mem hk

theorem actSlotMap_works (s : State) (ps : List Byte) : Works true s (actSlotMap ps s).state := by
  unfold actSlotMap
  split
  next h t m _ _ _ =>
    split
    · exact .refl s
    next hfree =>
      have mapped := (Write.slotMap (act := true) s h t m (slotTaken_false (Bool.eq_false_of_not_eq_true hfree))).works
      dsimp only [Reply.ok]
      split
      · exact mapped
      · exact mapped.trans (Moves.foldl (fun u c => handCall_moves u c .listen) _ _).works
  · exact .refl s

/-! ### FETCH, the device masks and RESTART (R188, R191, R195) -/

theorem sweepIfRoom_moves (s before : State) (p : Port) : Moves true s (s.sweepIfRoom before p) := by
  unfold State.sweepIfRoom
  split
  · exact raiseSweep_moves s
  · exact .refl _ s

theorem actFetch_works (s : State) (p : Port) (ps : List Byte) : Works true s (actFetch p ps s).state := by
  unfold actFetch
  split
  · exact .refl s
  next hn => exact (Write.fetch s p _ _ hn).works.trans (sweepIfRoom_moves _ s p).works

theorem watchIf_moves (due : Bool) (s : State) : Moves true s (State.watchIf due s) := by
  unfold State.watchIf
  split
  · exact handWatch_moves s
  · exact .refl _ s

theorem actWatchMask_works (s : State) (ps : List Byte) : Works true s (actWatchMask ps s).state := by
  unfold actWatchMask
  dsimp only
  split
  · exact .refl s
  · exact (Write.maskDevice s _ _).works.trans ((watchIf_moves _ _).trans (watchIf_moves _ _)).works

/-! ### Every command -/

theorem act_works (k : Kind) (p : Port) (ps : List Byte) (s : State) : Works true s (actOf k p ps s).state := by
  by_cases hr : readOnly k = true
  · rw [act_readOnly hr]
  by_cases hm : movesOnly k = true
  · exact (act_moves hm p ps s).works
  cases k <;> try cases hr rfl
  all_goals try cases hm rfl
  case agentDefine => exact actAgentDefine_works s ps
  case groupStage => exact actGroupStage_works s ps
  case groupOpen => exact actGroupOpen_works s ps
  case groupClose => exact actGroupClose_works s ps
  case groupWatchMask => exact actGroupWatchMask_works s ps
  case lineMode => exact actLineMode_works s ps
  case callArrive => exact actCallArrive_works s p ps
  case tiebreakSet => exact actTiebreakSet_works s ps
  case storeWrite => exact actStoreWrite_works s ps
  case segmentLoad => exact actSegmentLoad_works s ps
  case programLoad => exact actProgramLoad_works s ps
  case vocabLoad => exact actVocabLoad_works s ps
  case sourceLimit => exact asSource_lift (R := Works true s) (.refl s) fun m => (Write.idleLimit s m _).works
  case slotMap => exact actSlotMap_works s ps
  case idleByteSet => exact (Write.idleByte s _).works
  case fetch => exact actFetch_works s p ps
  case watchMask => exact actWatchMask_works s ps
  case restart => exact (Write.restarted s).works

theorem advance_works (s : State) : Works false s s.advance :=
  ((takeExpiries_moves s).works.trans (Write.tick _ rfl).works).trans
    ((Moves.foldl (fun u g => evalWait_moves u g) _ _).trans (evalStarved_moves _)).works

theorem seeLevel_works (s : State) (l : LineNo) : Works false s (s.seeLevel l) := by
  unfold State.seeLevel
  dsimp only
  split
  · exact .refl s
  · exact (Write.line s l _).works.trans (sweepIfOpened_moves _ s).works

theorem nextFrame_works (s : State) : Works false s s.nextFrame :=
  ((Moves.foldl (fun u h => completeRun_moves u h) _ s).works.trans (Write.highway _ _ rfl).works).trans
    (Moves.foldl (fun u h => playFrame_moves u h) _ _).works

section Commands
variable {s t : State}

theorem exec_request_works {k : Kind} {p : Port} {body : List Byte} (h : exec (k.command p body) s = .next t) : Works false s t := by
  rw [exec_command] at h
  cases h
  exact (settled_moves s).works.trans (request_works _ fun ps u => act_works k p ps u)

/-- The commands that are no request of a known kind. -/
inductive Event : Instr → Prop
  | powerOnReset : Event .powerOnReset
  | stationClockAdvance : Event .stationClockAdvance
  | ringTimerExpiry (c : CallSlot) : Event (.ringTimerExpiry c)
  | wrapExpiry (a : AgentSlot) : Event (.wrapExpiry a)
  | overflowWaitExpiry (c : CallSlot) : Event (.overflowWaitExpiry c)
  | announcementDue (c : CallSlot) : Event (.announcementDue c)
  | serviceLineInputChange (l : LineNo) (high : Bool) : Event (.serviceLineInputChange l high)
  | seenLevelEdge (l : LineNo) : Event (.seenLevelEdge l)
  | highwayFrame : Event .highwayFrame
  | stepComplete (x : HighwayChannel) : Event (.stepComplete x)
  | fillComplete (x : HighwayChannel) : Event (.fillComplete x)
  | callTrigger (c : CallSlot) : Event (.callTrigger c)
  | agentTrigger (a : AgentSlot) : Event (.agentTrigger a)
  | sweep : Event .sweep
  | responseRead (p : Port) (sent : List Byte) : Event (.responseRead p sent)
  | requestRejected (p : Port) (record : List Byte) : Event (.requestRejected p record)
  | unknownRequestKind (p : Port) (record : List Byte) : Event (.unknownRequestKind p record)

theorem request_or_event (c : Instr) : (∃ k p body, c = Kind.command k p body) ∨ Event c := by
  cases c
  case powerOnReset => exact .inr .powerOnReset
  case stationClockAdvance => exact .inr .stationClockAdvance
  case ringTimerExpiry c => exact .inr (.ringTimerExpiry c)
  case wrapExpiry a => exact .inr (.wrapExpiry a)
  case overflowWaitExpiry c => exact .inr (.overflowWaitExpiry c)
  case announcementDue c => exact .inr (.announcementDue c)
  case serviceLineInputChange l high => exact .inr (.serviceLineInputChange l high)
  case seenLevelEdge l => exact .inr (.seenLevelEdge l)
  case highwayFrame => exact .inr .highwayFrame
  case stepComplete x => exact .inr (.stepComplete x)
  case fillComplete x => exact .inr (.fillComplete x)
  case callTrigger c => exact .inr (.callTrigger c)
  case agentTrigger a => exact .inr (.agentTrigger a)
  case sweep => exact .inr .sweep
  case responseRead p sent => exact .inr (.responseRead p sent)
  case requestRejected p record => exact .inr (.requestRejected p record)
  case unknownRequestKind p record => exact .inr (.unknownRequestKind p record)
  case agentRead p body => exact .inl ⟨.agentRead, p, body, rfl⟩
  case signIn p body => exact .inl ⟨.signIn, p, body, rfl⟩
  case ready p body => exact .inl ⟨.ready, p, body, rfl⟩
  case aux p body => exact .inl ⟨.aux, p, body, rfl⟩
  case signOut p body => exact .inl ⟨.signOut, p, body, rfl⟩
  case wrapExtend p body => exact .inl ⟨.wrapExtend, p, body, rfl⟩
  case wrapEnd p body => exact .inl ⟨.wrapEnd, p, body, rfl⟩
  case agentAnswer p body => exact .inl ⟨.agentAnswer, p, body, rfl⟩
  case agentNoAnswer p body => exact .inl ⟨.agentNoAnswer, p, body, rfl⟩
  case agentHangup p body => exact .inl ⟨.agentHangup, p, body, rfl⟩
  case agentDefine p body => exact .inl ⟨.agentDefine, p, body, rfl⟩
  case forceAux p body => exact .inl ⟨.forceAux, p, body, rfl⟩
  case forceSignOut p body => exact .inl ⟨.forceSignOut, p, body, rfl⟩
  case groupRead p body => exact .inl ⟨.groupRead, p, body, rfl⟩
  case groupStage p body => exact .inl ⟨.groupStage, p, body, rfl⟩
  case groupSwap p body => exact .inl ⟨.groupSwap, p, body, rfl⟩
  case groupOpen p body => exact .inl ⟨.groupOpen, p, body, rfl⟩
  case groupClose p body => exact .inl ⟨.groupClose, p, body, rfl⟩
  case groupStats p body => exact .inl ⟨.groupStats, p, body, rfl⟩
  case groupWatchMask p body => exact .inl ⟨.groupWatchMask, p, body, rfl⟩
  case lineMode p body => exact .inl ⟨.lineMode, p, body, rfl⟩
  case lineRead p body => exact .inl ⟨.lineRead, p, body, rfl⟩
  case callArrive p body => exact .inl ⟨.callArrive, p, body, rfl⟩
  case callRelease p body => exact .inl ⟨.callRelease, p, body, rfl⟩
  case callRead p body => exact .inl ⟨.callRead, p, body, rfl⟩
  case tiebreakSet p body => exact .inl ⟨.tiebreakSet, p, body, rfl⟩
  case tiebreakRead p body => exact .inl ⟨.tiebreakRead, p, body, rfl⟩
  case storeWrite p body => exact .inl ⟨.storeWrite, p, body, rfl⟩
  case storeRead p body => exact .inl ⟨.storeRead, p, body, rfl⟩
  case segmentLoad p body => exact .inl ⟨.segmentLoad, p, body, rfl⟩
  case segmentRead p body => exact .inl ⟨.segmentRead, p, body, rfl⟩
  case programLoad p body => exact .inl ⟨.programLoad, p, body, rfl⟩
  case programRead p body => exact .inl ⟨.programRead, p, body, rfl⟩
  case vocabLoad p body => exact .inl ⟨.vocabLoad, p, body, rfl⟩
  case vocabRead p body => exact .inl ⟨.vocabRead, p, body, rfl⟩
  case sourceRead p body => exact .inl ⟨.sourceRead, p, body, rfl⟩
  case sourceSet p body => exact .inl ⟨.sourceSet, p, body, rfl⟩
  case sourceLimit p body => exact .inl ⟨.sourceLimit, p, body, rfl⟩
  case channelRead p body => exact .inl ⟨.channelRead, p, body, rfl⟩
  case slotMap p body => exact .inl ⟨.slotMap, p, body, rfl⟩
  case slotRead p body => exact .inl ⟨.slotRead, p, body, rfl⟩
  case idleByteSet p body => exact .inl ⟨.idleByteSet, p, body, rfl⟩
  case fetch p body => exact .inl ⟨.fetch, p, body, rfl⟩
  case watchRead p body => exact .inl ⟨.watchRead, p, body, rfl⟩
  case watchClear p body => exact .inl ⟨.watchClear, p, body, rfl⟩
  case watchMask p body => exact .inl ⟨.watchMask, p, body, rfl⟩
  case purgeShelf p body => exact .inl ⟨.purgeShelf, p, body, rfl⟩
  case purge p body => exact .inl ⟨.purge, p, body, rfl⟩
  case restart p body => exact .inl ⟨.restart, p, body, rfl⟩

theorem Works.of_exec {c : Instr} {u : State} (h : exec c s = .next t) (e : exec c s = .next u) (w : Works false s u) : Works false s t := by
  rw [e] at h
  cases h
  exact w

theorem event_works {c : Instr} (e : Event c) (h : exec c s = .next t) : Works false s t := by
  have settled := fun s => (settled_moves (ties := true) s).works (act := false)
  cases e
  case powerOnReset => exact .of_exec h rfl (Write.poweredOn s rfl).works
  case stationClockAdvance => exact .of_exec h rfl ((settled s).trans (advance_works _))
  case ringTimerExpiry c => exact .of_exec h rfl ((settled s).trans (expireRing_moves _ c).works)
  case wrapExpiry a => exact .of_exec h rfl (expireWrap_moves s a).works
  case overflowWaitExpiry c => exact .of_exec h rfl ((settled s).trans (expireOverflow_moves _ c).works)
  case announcementDue c => exact .of_exec h rfl ((wrapsEnded_moves s).works.trans (announce_moves _ c).works)
  case serviceLineInputChange l high => exact .of_exec h rfl ((settled s).trans (Write.line _ l _).works)
  case seenLevelEdge l => exact .of_exec h rfl ((settled s).trans (seeLevel_works _ l))
  case highwayFrame => exact .of_exec h rfl ((settled s).trans (nextFrame_works _))
  case stepComplete x => exact .of_exec h rfl ((settled s).trans (completeStep_moves _ x).works)
  case fillComplete x => exact .of_exec h rfl ((settled s).trans (completeFill_moves _ x).works)
  case callTrigger c =>
    exact .of_exec h rfl ((settled s).trans (Works.ite
      ((dropCallTrigger_moves _ c).trans (takeCallTrigger_moves _ c)).works (.refl _)))
  case agentTrigger a =>
    exact .of_exec h rfl ((settled s).trans (Works.ite
      ((dropAgentTrigger_moves _ a).trans (takeAgentTrigger_moves _ a)).works (.refl _)))
  case sweep =>
    exact .of_exec h rfl ((settled s).trans (Works.ite ((dropSweep_moves _).trans (takeSweep_moves _)).works (.refl _)))
  case responseRead p sent => exact .of_exec h rfl ((settled s).trans (readTransaction_works _ p sent))
  case requestRejected p record => exact .of_exec h rfl ((settled s).trans (rejectRecord_works _ p record))
  case unknownRequestKind p record => exact .of_exec h rfl ((settled s).trans (refuseUnknown_works _ p record))

theorem exec_works {c : Instr} (h : exec c s = .next t) : Works false s t := by
  obtain ⟨k, p, body, rfl⟩ | e := request_or_event c
  · exact exec_request_works h
  · exact event_works e h

/-- Whatever every move and every write keeps, every step keeps. -/
theorem step_works (h : step s = .next t) : Works false s t := by
  unfold step at h
  split at h
  · cases h
    exact .refl s
  next c rest _ => exact (Write.pending s rest rfl).works.trans (exec_works h)

end Commands

end Sys2Proof.Machine

/-! Invariants of one record at a time: each move and each write keeps them, so every step does. -/

namespace Sys2Proof.Machine

/-- What a step keeps if every move and every write does. -/
theorem step_keeps {P : State → Prop} (move : ∀ s t, Move true s t → P s → P t) (write : ∀ s t, Write false s t → P s → P t)
    {s t : State} (h : step s = .next t) (hs : P s) : P t := (step_works h).keep move write hs

/-! ### The drain of an owed list (R188) -/

theorem clearOwed_moves (s : State) (o : OwedPair) : Moves true s (s.clearOwed o) := by
  cases o with
  | agentState a => exact setAgent_moves s a _ ⟨by rfl, by rfl, by rfl⟩ (by rfl)
  | call c k => exact modCall_moves s c _ (by cases k <;> exact fun _ _ => ⟨rfl, id⟩) (by cases k <;> exact fun _ => rfl)
  | watch => exact setDevice_moves s _ (by rfl) (by rfl)

/-- A predicate that says nothing of the ports is kept by a drain if moves keep it. -/
theorem drain_keep {P : State → Prop} (move : ∀ s t, Move true s t → P s → P t) (port : ∀ s p r, P s → P (State.setPort s p r))
    (p : Port) (l : List OwedPair) (s : State) (hs : P s) : P (State.drain p l s) := by
  induction l generalizing s with
  | nil => exact hs
  | cons o rest ih =>
    have cleared : P ((s.modPort p fun r => { r with owed := rest }).clearOwed o) :=
      (clearOwed_moves _ o).keep move (port _ _ _ hs)
    unfold State.drain
    dsimp only
    split
    · exact ih _ cleared
    · exact port _ _ _ cleared

/-! ### The stores and the slot map (R141, R142, R147, R175) -/

theorem Move.keepsSegment {ties : Bool} {s t : State} (h : Move ties s t) (k : SegmentCode) :
    (t.segment k).start = (s.segment k).start ∧ (t.segment k).length = (s.segment k).length := by
  cases h with
  | write a r h => rw [(writeAgent_staff s a r).rest]; exact ⟨rfl, rfl⟩
  | hear c l => rw [hear_rest]; exact ⟨rfl, rfl⟩
  | segment j e hs hl =>
    rw [State.setSegment_segment]
    split
    next e => exact ⟨e ▸ hs, e ▸ hl⟩
    · exact ⟨rfl, rfl⟩
  | _ => constructor <;> simp [State.pushNotice, State.appendOwed, State.modPort, State.segment]

theorem legal_congr {e f : SegmentRec} (hs : e.start = f.start) (hl : e.length = f.length) : e.legal = f.legal := by
  simp [SegmentRec.legal, hs, hl]

theorem StoreLegal.congr {s t : State} (h : StoreLegal s) (hr : t.ram = s.ram) (hp : t.programs = s.programs)
    (hs : ∀ k, (t.segment k).start = (s.segment k).start ∧ (t.segment k).length = (s.segment k).length) : StoreLegal t where
  ram := hr ▸ h.ram
  segments k := (legal_congr (hs k).1 (hs k).2).trans (h.segments k)
  programs n := by
    have : t.programSteps n = s.programSteps n := congrArg (Vector.get · n) hp
    exact this ▸ h.programs n

theorem Move.storeLegal {ties : Bool} {s t : State} (h : Move ties s t) (hs : StoreLegal s) : StoreLegal t :=
  hs.congr h.base.ram h.base.programs h.keepsSegment

theorem setPort_storeLegal (s : State) (p : Port) (r : PortRec) (hs : StoreLegal s) : StoreLegal (s.setPort p r) :=
  hs.congr (by simp) (by simp) fun k => by simp

theorem Write.storeLegal {act : Bool} {s t : State} (h : Write act s t) (hs : StoreLegal s) : StoreLegal t := by
  cases h with
  | poweredOn =>
    have on := powerOnValues_poweredOn s
    exact ⟨rfl, fun k => by rw [on.segments]; rfl, fun n => by simp [on.programs]⟩
  | restarted =>
    refine hs.congr rfl rfl fun k => ?_
    have : s.restarted.segment k = { s.segment k with inUse := 0 } := mapTable_get ..
    rw [this]
    exact ⟨rfl, rfl⟩
  | tick =>
    unfold State.tick
    split <;> exact hs.congr (by simp) (by simp) fun k => by simp
  | define a r h =>
    have rest := (writeAgent_staff s a r).rest
    exact hs.congr (by rw [rest]; rfl) (by rw [rest]; rfl) fun k => by rw [rest]; exact ⟨rfl, rfl⟩
  | ram a l h => exact ⟨Memory.wf_writeBytes hs.ram a l h, hs.segments, hs.programs⟩
  | segment k e h =>
    refine ⟨hs.ram, fun j => ?_, hs.programs⟩
    rw [State.setSegment_segment]
    split
    · exact h
    · exact hs.segments j
  | program n l h =>
    refine ⟨hs.ram, hs.segments, fun m => ?_⟩
    rw [State.setProgram_programSteps]
    split
    · exact h
    · exact hs.programs m
  | fetch p n rest h =>
    exact drain_keep (fun _ _ => Move.storeLegal) setPort_storeLegal p _ _ (setPort_storeLegal _ _ _ hs)
  | slot p r _ hn ho => exact setPort_storeLegal s p r hs
  | _ => exact hs.congr (by simp) (by simp) fun k => by constructor <;> simp [State.segment]

theorem SlotsApart.congr {s t : State} (h : SlotsApart s) (e : t.slotMap = s.slotMap) : SlotsApart t := by
  have : ∀ k, t.slotOf k = s.slotOf k := fun k => congrArg (Vector.get · k) e
  intro i j hij hi
  rw [this, this]
  exact h i j hij (this i ▸ hi)

theorem Move.slotsApart {ties : Bool} {s t : State} (h : Move ties s t) (hs : SlotsApart s) : SlotsApart t :=
  hs.congr h.base.slotMap

theorem setPort_slotsApart (s : State) (p : Port) (r : PortRec) (hs : SlotsApart s) : SlotsApart (s.setPort p r) :=
  hs.congr (by simp)

/-- A timeslot that no other channel holds is given to one channel. -/
theorem setSlot_slotsApart {s : State} {h : HighwayChannel} {t : Option Timeslot} {m : IdleMode} (hs : SlotsApart s)
    (free : ∀ k, k ≠ h → t ≠ none → s.slotOf k ≠ t) : SlotsApart (s.setSlot h t m) := by
  intro i j hij
  rw [State.setSlot_slotOf, State.setSlot_slotOf]
  split_ifs with hi hj hj
  · exact absurd (hi.trans hj.symm) hij
  · exact fun ht => (free j hj ht).symm
  · exact fun hn he => free i hi (he ▸ hn) he
  · exact hs i j hij

theorem Write.slotsApart {act : Bool} {s t : State} (h : Write act s t) (hs : SlotsApart s) : SlotsApart t := by
  cases h with
  | poweredOn => exact (powerOnValues_poweredOn s).slotsApart
  | tick =>
    unfold State.tick
    split <;> exact hs.congr (by simp)
  | define a r h => exact hs.congr (writeAgent_base s a r).slotMap
  | slotMap h t m free => exact setSlot_slotsApart hs free
  | fetch p n rest h =>
    exact drain_keep (fun _ _ => Move.slotsApart) setPort_slotsApart p _ _ (setPort_slotsApart _ _ _ hs)
  | restarted | pending => exact hs.congr rfl
  | _ => exact hs.congr (by simp)

/-! ### The group records (R30, R129) -/

theorem GroupsLegal.congr {s t : State} (h : GroupsLegal s)
    (hg : ∀ g, (t.group g).active = (s.group g).active ∧ (t.group g).staged = (s.group g).staged
      ∧ (t.group g).average = (s.group g).average) : GroupsLegal t where
  active g := by rw [(hg g).1]; exact h.active g
  staged g := by rw [(hg g).2.1]; exact h.staged g
  average g := by rw [(hg g).2.2]; exact h.average g

theorem GroupsLegal.of_groups {s t : State} (h : GroupsLegal s) (e : t.groups = s.groups) : GroupsLegal t := by
  have : ∀ g, t.group g = s.group g := fun g => congrArg (Vector.get · g) e
  exact h.congr fun g => by rw [this]; exact ⟨rfl, rfl, rfl⟩

theorem writeAgent_groupsLegal {s : State} (a : AgentSlot) (r : AgentRec) (hs : GroupsLegal s) : GroupsLegal (s.writeAgent a r) := by
  refine hs.congr fun g => ?_
  rw [writeAgent_group, GroupRec.restaffed]
  split <;> exact ⟨rfl, rfl, rfl⟩

theorem setGroup_groupsLegal {s : State} (g : Group) (r : GroupRec) (hs : GroupsLegal s)
    (ha : r.active.legal = true ∧ r.active.overflowTarget ≠ some g) (hb : r.staged.legal = true ∧ r.staged.overflowTarget ≠ some g)
    (hv : ∀ a, r.average = some a → 16 ≤ a ∧ a ≤ 65520) : GroupsLegal (s.setGroup g r) := by
  constructor <;> intro f <;> rw [State.setGroup_group] <;> split
  next e => exact e ▸ ha
  · exact hs.active f
  next e => exact e ▸ hb
  · exact hs.staged f
  · exact hv
  · exact hs.average f

theorem Move.groupsLegal {ties : Bool} {s t : State} (h : Move ties s t) (hs : GroupsLegal s) : GroupsLegal t := by
  cases h with
  | write a r h => exact writeAgent_groupsLegal a r hs
  | group g r h =>
    refine setGroup_groupsLegal g r hs ?_ ?_ ?_
    · rcases h.active with e | e <;> rw [e]
      · exact hs.active g
      · exact hs.staged g
    · rw [h.staged]
      exact hs.staged g
    · rcases h.average with e | ⟨a, e, hlow, hhigh⟩ <;> rw [e]
      · exact hs.average g
      · rintro b ⟨⟩
        exact ⟨hlow, hhigh⟩
  | hear c l => exact hs.of_groups (by rw [hear_rest])
  | _ => exact hs.of_groups (by simp [State.pushNotice, State.appendOwed, State.modPort])

theorem setPort_groupsLegal (s : State) (p : Port) (r : PortRec) (hs : GroupsLegal s) : GroupsLegal (s.setPort p r) :=
  hs.of_groups (by simp)

theorem restarted_group (s : State) (g : Group) : s.restarted.group g = (s.group g).restarted := mapTable_get ..

theorem Write.groupsLegal {act : Bool} {s t : State} (h : Write act s t) (hs : GroupsLegal s) : GroupsLegal t := by
  cases h with
  | poweredOn => exact (powerOnValues_poweredOn s).groupsLegal
  | restarted =>
    constructor <;> intro g <;> rw [restarted_group] <;> dsimp only [GroupRec.restarted]
    · split
      · exact hs.staged g
      · exact hs.active g
    · exact hs.staged g
    · exact nofun
  | tick =>
    unfold State.tick
    split <;> exact hs.of_groups (by simp)
  | define a r h => exact writeAgent_groupsLegal a r hs
  | stage g p h ht => exact setGroup_groupsLegal g _ hs (hs.active g) ⟨h, ht⟩ (hs.average g)
  | close g flag => exact setGroup_groupsLegal g _ hs (hs.active g) (hs.staged g) (hs.average g)
  | mask g m => exact setGroup_groupsLegal g _ hs (hs.active g) (hs.staged g) (hs.average g)
  | fetch p n rest h =>
    exact drain_keep (fun _ _ => Move.groupsLegal) setPort_groupsLegal p _ _ (setPort_groupsLegal _ _ _ hs)
  | pending => exact hs.of_groups rfl
  | _ => exact hs.of_groups (by simp)

/-! ### The call and agent records and the tie-break registers (R2, R53, R54, R69, R74) -/

/-- The call records that a state holds follow those of another: no call has entered. -/
def CallsFollow (s t : State) : Prop := ∀ c q, t.call c = some q → ∃ r, s.call c = some r ∧ r.Follows q

theorem CallsFollow.of_calls {s t : State} (e : t.calls = s.calls) : CallsFollow s t := by
  intro c q hq
  have : t.call c = s.call c := congrArg (Vector.get · c) e
  exact ⟨q, this ▸ hq, rfl, id⟩

theorem Move.callsFollow {ties : Bool} {s t : State} (h : Move ties s t) : CallsFollow s t := by
  cases h with
  | write a r h => exact .of_calls (by rw [(writeAgent_staff s a r).rest]; rfl)
  | call c q r e h hl =>
    intro d k hk
    rw [State.putCall_call] at hk
    split at hk
    next hd => cases hk; exact ⟨q, hd ▸ e, h⟩
    · exact ⟨k, hk, rfl, id⟩
  | free c h =>
    intro d k hk
    rw [State.putCall_call] at hk
    split at hk
    · cases hk
    · exact ⟨k, hk, rfl, id⟩
  | hear c l =>
    intro d k hk
    rw [hear_call] at hk
    split at hk
    next hd =>
      obtain ⟨r, hr, rfl⟩ := Option.map_eq_some_iff.mp hk
      exact ⟨r, hd ▸ hr, rfl, id⟩
    · exact ⟨k, hk, rfl, id⟩
  | _ => exact .of_calls (by simp [State.pushNotice, State.appendOwed, State.modPort])

theorem identity_priority {q r : CallRec} (h : r.identity = q.identity) : r.priority = q.priority := congrArg (·.2.2.2.2) h
theorem identity_owner {q r : CallRec} (h : r.identity = q.identity) : r.owner = q.owner := congrArg (·.1) h
theorem identity_tag {q r : CallRec} (h : r.identity = q.identity) : r.tag = q.tag := congrArg (·.2.1) h

/-- The call records and the agents' skills are legal if they were and no call has entered; the registers are not 0. -/
theorem RecordsLegal.follow {s t : State} (hs : RecordsLegal s) (hc : CallsFollow s t)
    (ha : ∀ a, skillsLegal (t.agent a).skills = true) (h1 : t.seed ≠ 0) (h2 : t.taps ≠ 0) (h3 : t.generator ≠ 0) :
    RecordsLegal t where
  hops c q hq := by
    obtain ⟨r, hr, f⟩ := hc c q hq
    exact (f.counted ⟨hs.hops c r hr, hs.noAnswers c r hr⟩).1
  noAnswers c q hq := by
    obtain ⟨r, hr, f⟩ := hc c q hq
    exact (f.counted ⟨hs.hops c r hr, hs.noAnswers c r hr⟩).2
  priority c q hq := by
    obtain ⟨r, hr, f⟩ := hc c q hq
    exact identity_priority f.identity ▸ hs.priority c r hr
  tags c d q p hq hp ho ht := by
    obtain ⟨r, hr, f⟩ := hc c q hq
    obtain ⟨k, hk, g⟩ := hc d p hp
    rw [identity_owner f.identity, identity_owner g.identity] at ho
    rw [identity_tag f.identity, identity_tag g.identity] at ht
    exact hs.tags c d r k hr hk ho ht
  skills := ha
  seed := h1
  taps := h2
  generator := h3

theorem one_for_zero_ne_zero (x : Word16) : (if x = 0 then 1 else x) ≠ 0 := by
  split
  · decide
  next h => exact h

theorem nextGenerator_ne_zero (taps w : Word16) : State.nextGenerator taps w ≠ 0 := one_for_zero_ne_zero _

theorem Move.generator_cases {ties : Bool} {s t : State} (h : Move ties s t) :
    t.generator = s.generator ∨ t.generator = State.nextGenerator s.taps s.generator := by
  cases h with
  | advance h => exact .inr rfl
  | write a r h => left; rw [(writeAgent_staff s a r).rest]; rfl
  | hear c l => left; rw [hear_rest]
  | _ => left; simp [State.pushNotice, State.appendOwed, State.modPort]

theorem Move.recordsLegal {ties : Bool} {s t : State} (h : Move ties s t) (hs : RecordsLegal s) : RecordsLegal t := by
  refine hs.follow h.callsFollow (fun a => ?_) ?_ ?_ ?_
  · rw [(h.definition a).skills]
    exact hs.skills a
  · rw [h.base.seed]
    exact hs.seed
  · rw [h.base.taps]
    exact hs.taps
  · rcases h.generator_cases with e | e <;> rw [e]
    · exact hs.generator
    · exact nextGenerator_ne_zero _ _

theorem RecordsLegal.congr {s t : State} (hs : RecordsLegal s) (hc : t.calls = s.calls) (ha : t.agents = s.agents)
    (h1 : t.seed = s.seed) (h2 : t.taps = s.taps) (h3 : t.generator = s.generator) : RecordsLegal t := by
  refine hs.follow (.of_calls hc) (fun a => ?_) (h1 ▸ hs.seed) (h2 ▸ hs.taps) (h3 ▸ hs.generator)
  have : t.agent a = s.agent a := congrArg (Vector.get · a) ha
  exact this ▸ hs.skills a

theorem setPort_recordsLegal (s : State) (p : Port) (r : PortRec) (hs : RecordsLegal s) : RecordsLegal (s.setPort p r) :=
  hs.congr (by simp) (by simp) (by simp) (by simp) (by simp)

theorem enter_recordsLegal {s : State} {c : CallSlot} {x : Shelf} {t : Tag} (g : Group) {priority hops : Nat}
    (new : ∀ d r, s.call d = some r → ¬(r.owner = x ∧ r.tag = t)) (hp : priority ≤ 7) (hh : hops ≤ 3) (hs : RecordsLegal s) :
    RecordsLegal (s.putCall c (some (s.arrivalRecord x t g priority hops))) := by
  have cases_call : ∀ d q, (s.putCall c (some (s.arrivalRecord x t g priority hops))).call d = some q →
      (d = c ∧ q = s.arrivalRecord x t g priority hops) ∨ s.call d = some q := by
    intro d q hq
    rw [State.putCall_call] at hq
    split at hq
    next hd => cases hq; exact .inl ⟨hd, rfl⟩
    · exact .inr hq
  refine ⟨fun d q hq => ?_, fun d q hq => ?_, fun d q hq => ?_, fun d e q k hq hk ho ht => ?_, hs.skills, hs.seed, hs.taps,
    hs.generator⟩
  · obtain ⟨-, rfl⟩ | hq := cases_call d q hq
    · exact hh
    · exact hs.hops d q hq
  · obtain ⟨-, rfl⟩ | hq := cases_call d q hq
    · exact Nat.zero_le _
    · exact hs.noAnswers d q hq
  · obtain ⟨-, rfl⟩ | hq := cases_call d q hq
    · exact hp
    · exact hs.priority d q hq
  · obtain ⟨hd, hnew⟩ | old := cases_call d q hq <;> obtain ⟨he, hnew'⟩ | old' := cases_call e k hk
    · exact hd.trans he.symm
    · exact absurd ⟨ho.symm.trans (by rw [hnew]; rfl), ht.symm.trans (by rw [hnew]; rfl)⟩ (new e k old')
    · exact absurd ⟨ho.trans (by rw [hnew']; rfl), ht.trans (by rw [hnew']; rfl)⟩ (new d q old)
    · exact hs.tags d e q k old old' ho ht

theorem restarted_agent (s : State) (a : AgentSlot) : s.restarted.agent a = (s.agent a).restarted := mapTable_get ..
theorem restarted_call (s : State) (c : CallSlot) : s.restarted.call c = none := get_replicate ..

theorem Write.recordsLegal {act : Bool} {s t : State} (h : Write act s t) (hs : RecordsLegal s) : RecordsLegal t := by
  cases h with
  | poweredOn => exact (powerOnValues_poweredOn s).recordsLegal
  | restarted =>
    refine hs.follow (fun c q hq => ?_) (fun a => ?_) hs.seed hs.taps hs.seed
    · rw [restarted_call] at hq
      cases hq
    · rw [restarted_agent]
      exact hs.skills a
  | tick =>
    unfold State.tick
    split <;> exact hs.congr (by simp) (by simp) (by simp) (by simp) (by simp)
  | define a r h =>
    have rest := (writeAgent_staff s a r).rest
    refine hs.follow (.of_calls (by rw [rest]; rfl)) (fun b => ?_) (by rw [rest]; exact hs.seed) (by rw [rest]; exact hs.taps)
      (by rw [rest]; exact hs.generator)
    rw [writeAgent_agent]
    split
    · exact h
    · exact hs.skills b
  | tiebreak seed taps h1 h2 => exact hs.follow (.of_calls rfl) hs.skills h1 h2 h1
  | enter c x t g priority hops free new hp hh => exact enter_recordsLegal g new hp hh hs
  | fetch p n rest h =>
    exact drain_keep (fun _ _ => Move.recordsLegal) setPort_recordsLegal p _ _ (setPort_recordsLegal _ _ _ hs)
  | pending => exact hs.congr rfl rfl rfl rfl rfl
  | _ => exact hs.congr (by simp) (by simp) (by simp) (by simp) (by simp)

/-- The first part of O59: both kinds of records stay in range. -/
theorem step_groupsLegal_recordsLegal {s t : State} (hg : GroupsLegal s) (hr : RecordsLegal s) (h : step s = .next t) :
    GroupsLegal t ∧ RecordsLegal t :=
  ⟨step_keeps (fun _ _ => Move.groupsLegal) (fun _ _ => Write.groupsLegal) h hg,
    step_keeps (fun _ _ => Move.recordsLegal) (fun _ _ => Write.recordsLegal) h hr⟩

end Sys2Proof.Machine

/-! A relation between states that the writes of the records obey is obeyed by every shared operation: the walk through the operations,
made once. `Quiet` asks for the writes of the operations that leave the wait list and the channels alone, `Full` for all. -/

namespace Sys2Proof.Machine

/-- The owner shelf and the owed flags of a call record (R187). -/
structure CallRec.SameOwed (q r : CallRec) : Prop where
  owner : r.owner = q.owner
  listen : r.owedListen = q.owedListen
  connect : r.owedConnect = q.owedConnect
  cleared : r.owedCleared = q.owedCleared

/-- The home shelf and the owed flag of an agent record (R187). -/
structure AgentRec.SameOwed (q r : AgentRec) : Prop where
  home : r.home = q.home
  owed : r.owed = q.owed

/-- The records of agents and calls, the wait list, the channels, the ports and the device record are left alone. -/
structure SameKept (s t : State) : Prop where
  agents : t.agents = s.agents
  calls : t.calls = s.calls
  channels : t.channels = s.channels
  waitList : t.waitList = s.waitList
  portA : t.portA = s.portA
  portB : t.portB = s.portB
  portS : t.portS = s.portS
  device : t.device = s.device

/-- The relation `R` holds along every write of a record that keeps owners, homes and owed flags, and along the handing of notices. -/
structure Quiet (R : State → State → Prop) : Prop where
  refl : ∀ s, R s s
  trans : ∀ {s t u}, R s t → R t u → R s u
  plain : ∀ {s t}, SameKept s t → R s t
  agent : ∀ s a r, (s.agent a).SameOwed r → R s (s.setAgent a r)
  call : ∀ s c q r, s.call c = some q → q.SameOwed r → R s (s.putCall c (some r))
  enter : ∀ s c r, s.call c = none → r.owedListen = false → r.owedConnect = false → r.owedCleared = false →
    R s (s.putCall c (some r))
  device : ∀ s d, d.watchOwed = s.device.watchOwed → R s (s.setDevice d)
  port : ∀ s p r, r.notices = (s.port p).notices → r.owed = (s.port p).owed → R s (s.setPort p r)
  handWatch : ∀ s, R s s.handWatch
  handAgent : ∀ s a, R s (s.handAgentState a)
  handCall : ∀ s c k, R s (s.handCall c k)

theorem toSignedOut_sameOwed (r : AgentRec) : r.SameOwed r.toSignedOut := ⟨rfl, rfl⟩
theorem toAux_sameOwed (r : AgentRec) (n : Nat) : r.SameOwed (r.toAux n) := ⟨rfl, rfl⟩
theorem toReady_sameOwed (r : AgentRec) (n : Nat) : r.SameOwed (r.toReady n) := ⟨rfl, rfl⟩

theorem freed_sameOwed (r : AgentRec) (n : Nat) : r.SameOwed (r.freed n) := by
  unfold AgentRec.freed
  split <;> exact ⟨rfl, rfl⟩

namespace Quiet
variable {R : State → State → Prop} (w : Quiet R) (s : State)
include w

/-! ### Chains -/

theorem foldl {α : Type} {f : State → α → State} (h : ∀ s x, R s (f s x)) (l : List α) (s : State) : R s (l.foldl f s) := by
  induction l generalizing s with
  | nil => exact w.refl s
  | cons x l ih => exact w.trans (h s x) (ih _)

theorem ite {t u : State} {c : Prop} [Decidable c] (h : c → R s t) (k : ¬c → R s u) : R s (if c then t else u) := by
  split
  next e => exact h e
  next e => exact k e

omit w in
theorem snd {s : State} {α : Type} {t : State} {x : α × State} {a : α} (h : R s x.2) (e : x = (a, t)) : R s t := by
  rw [e] at h
  exact h

theorem group (g : Group) (r : GroupRec) : R s (s.setGroup g r) := w.plain ⟨rfl, rfl, rfl, rfl, rfl, rfl, rfl, rfl⟩
theorem source (m : SourceNo) (q : SourceRec) : R s (s.setSource m q) := w.plain ⟨rfl, rfl, rfl, rfl, rfl, rfl, rfl, rfl⟩
theorem segment (k : SegmentCode) (e : SegmentRec) : R s (s.setSegment k e) := w.plain ⟨rfl, rfl, rfl, rfl, rfl, rfl, rfl, rfl⟩

theorem triggers (x : List CallSlot) (y : List AgentSlot) (z : Bool) :
    R s { s with callTriggers := x, agentTriggers := y, sweepWaiting := z } := w.plain ⟨rfl, rfl, rfl, rfl, rfl, rfl, rfl, rfl⟩

theorem generator (x : Word16) : R s (s.setGenerator x) := w.plain ⟨rfl, rfl, rfl, rfl, rfl, rfl, rfl, rfl⟩

theorem modGroup (g : Group) (f : GroupRec → GroupRec) : R s (s.modGroup g f) := w.group s g _

theorem modCall (c : CallSlot) (f : CallRec → CallRec) (h : ∀ r : CallRec, r.SameOwed (f r)) : R s (s.modCall c f) := by
  rw [State.modCall_eq]
  cases e : s.call c with
  | none => exact (putCall_none s e).symm ▸ w.refl s
  | some r => exact w.call s c r _ e (h r)

theorem raiseCallTrigger (c : CallSlot) : R s (s.raiseCallTrigger c) := w.ite s (fun _ => w.refl s) fun _ => w.triggers s _ _ _
theorem raiseAgentTrigger (a : AgentSlot) : R s (s.raiseAgentTrigger a) := w.ite s (fun _ => w.refl s) fun _ => w.triggers s _ _ _
theorem raiseSweep : R s s.raiseSweep := w.triggers s _ _ _

/-! ### Watch conditions -/

theorem raiseGroupFlag (g : Group) (k : GroupKind) : R s (s.raiseGroupFlag g k) :=
  w.ite s (fun _ => w.refl s) fun _ =>
    w.ite s (fun _ => w.group s g _) fun _ => w.trans (w.group s g _) (w.handWatch _)

theorem evalCondition (g : Group) (k : GroupKind) (v : Bool) : R s (s.evalCondition g k v) :=
  w.ite s (fun _ => w.trans (w.group s g _) (w.raiseGroupFlag _ g k)) fun _ => w.group s g _

theorem evalDepth (g : Group) : R s (s.evalDepth g) := w.evalCondition s g _ _
theorem evalWait (g : Group) : R s (s.evalWait g) := w.evalCondition s g _ _
theorem evalNoStaff (g : Group) : R s (s.evalNoStaff g) := w.evalCondition s g _ _

theorem evalQueue (g : Group) : R s (s.evalQueue g) :=
  w.trans (w.trans (w.evalDepth s g) (w.evalWait _ g)) (w.evalNoStaff _ g)

theorem raiseSegmentFault : R s s.raiseSegmentFault :=
  w.ite s (fun _ => w.refl s) fun _ =>
    w.ite s (fun _ => w.device s _ rfl) fun _ => w.trans (w.device s _ (by rfl)) (w.handWatch _)

theorem raiseStarved : R s s.raiseStarved :=
  w.ite s (fun _ => w.refl s) fun _ =>
    w.ite s (fun _ => w.device s _ rfl) fun _ => w.trans (w.device s _ (by rfl)) (w.handWatch _)

theorem raisePurgeDone : R s s.raisePurgeDone :=
  w.ite s (fun _ => w.refl s) fun _ => w.trans (w.device s _ (by rfl)) (w.handWatch _)

theorem evalStarved : R s s.evalStarved :=
  w.ite s (fun _ => w.trans (w.device s _ (by rfl)) (w.raiseStarved _)) fun _ => w.device s _ rfl

/-! ### Playout off the stage -/

theorem beginSegment (code : Nat) : R s (s.beginSegment code).2 := by
  obtain ⟨-, h⟩ | ⟨k, -, h⟩ := present_cases s code <;> rw [h]
  · exact w.raiseSegmentFault s
  · exact w.segment s k _

theorem beginWord (v : VocabNo) : R s (s.beginWord v).2 := by
  unfold State.beginWord
  split
  · exact w.raiseSegmentFault s
  · exact w.beginSegment s _

theorem leaveSegment (k : Option SegmentCode) : R s (s.leaveSegment k) := by
  cases k with
  | none => exact w.refl s
  | some k => exact w.segment s k _

theorem carryStep (caller : Option CallSlot) (r : Run) : R s (s.carryStep caller r).2.2 := by
  unfold State.carryStep
  dsimp only
  split
  · exact w.refl s
  · exact w.beginSegment s _
  · exact w.refl s
  · split
    · exact w.refl s
    · split
      · exact w.refl s
      · exact w.beginWord s _
  · split
    · exact w.refl s
    · split
      · exact w.refl s
      · exact w.beginWord s _
  · exact w.refl s
  · split_ifs <;> exact w.refl s
  · exact w.refl s

theorem sourceReturn (m : SourceNo) (ret : Return) (r : Run) : R s (s.sourceReturn m ret r).2 := by
  unfold State.sourceReturn
  dsimp only
  split
  · repeat' split
    all_goals exact w.source s m _
  · exact w.refl s

theorem carrySource (n : Nat) (m : SourceNo) (r : Run) : R s (State.carrySource n m r s) := by
  induction n generalizing r s with
  | zero => exact w.source s m _
  | succ n ih =>
    have step := w.carryStep s none r
    unfold State.carrySource
    split
    next h => exact w.trans (snd step (congrArg Prod.snd h)) (w.source _ m _)
    next h => exact w.trans (snd step (congrArg Prod.snd h)) (ih _ _)
    next r1 s1 h =>
      have carried : R s s1 := snd step (congrArg Prod.snd h)
      split
      · split
        next h2 => exact w.trans carried (snd (w.sourceReturn s1 m _ r1) h2)
        next h2 => exact w.trans (w.trans carried (snd (w.sourceReturn s1 m _ r1) h2)) (ih _ _)
      · exact w.trans carried (w.source _ m _)

theorem startSource (m : SourceNo) : R s (s.startSource m) := by
  unfold State.startSource
  dsimp only
  split
  · exact w.trans (w.source s m _) (w.carrySource _ _ m _)
  · exact w.refl s

theorem countListener (before after : Listen) : R s (s.countListener before after) := by
  have gained (m : SourceNo) (s : State) : R s (s.gainListener m) := w.trans (w.source s m _) (w.startSource _ m)
  have lost (m : SourceNo) : R s (s.loseListener m) := w.source s m _
  unfold State.countListener
  refine w.ite s (fun _ => w.refl s) fun _ => ?_
  cases before with
  | music m =>
    cases after with
    | music n => exact w.trans (lost m) (gained n _)
    | silent => exact lost m
    | announce j => exact lost m
  | silent =>
    cases after with
    | music n => exact gained n s
    | silent => exact w.refl s
    | announce j => exact w.refl s
  | announce i =>
    cases after with
    | music n => exact gained n s
    | silent => exact w.refl s
    | announce j => exact w.refl s

theorem setListen (c : CallSlot) (l : Listen) : R s (s.setListen c l) := by
  unfold State.setListen
  split
  · exact w.refl s
  · exact w.trans (w.modCall s c _ (by exact fun _ => ⟨rfl, rfl, rfl, rfl⟩)) (w.countListener _ _ _)

theorem moveMusic (g : Group) (c : CallSlot) : R s (s.moveMusic g c) := by
  unfold State.moveMusic
  split
  · exact w.refl s
  · split
    · exact w.refl s
    · exact w.ite s (fun _ => w.setListen s c _) fun _ => w.trans (w.setListen s c _) (w.handCall _ c _)

/-! ### Queues, overflow and the swap -/

theorem sweepIfOpened (before : State) : R s (s.sweepIfOpened before) := w.ite s (fun _ => w.raiseSweep s) fun _ => w.refl s

theorem modStats (g : Group) (f : Stats → Stats) : R s (s.modStats g f) := w.modGroup s g _

theorem join (c : CallSlot) (g : Group) : R s (s.join c g) := by
  unfold State.join
  split
  · exact w.refl s
  next r e =>
    exact w.trans (w.trans (w.trans (w.call s c r _ e (by exact ⟨rfl, rfl, rfl, rfl⟩)) (w.modGroup _ g _)) (w.evalQueue _ g))
      (w.raiseCallTrigger _ c)

theorem leaveQueue (c : CallSlot) (g : Group) : R s (s.leaveQueue c g) := w.trans (w.modGroup s g _) (w.evalQueue _ g)

theorem tryOverflow (c : CallSlot) : R s (s.tryOverflow c) := by
  unfold State.tryOverflow
  split
  · exact w.refl s
  next r _ =>
    split
    · exact w.refl s
    next g _ =>
      have moved := w.modCall (s.leaveQueue c r.group) c
        (fun k => { k with hops := k.hops + 1, noAnswers := 0, pendingOverflow := false }) fun _ => ⟨rfl, rfl, rfl, rfl⟩
      exact w.trans (w.trans (w.trans (w.trans (w.trans (w.leaveQueue s c _) moved) (w.modStats _ _ _)) (w.modStats _ g _))
        (w.join _ c g)) (w.moveMusic _ g c)

theorem performSwap (g : Group) : R s (s.performSwap g) := by
  have evaluated := w.trans (w.trans (w.group s g { s.group g with active := (s.group g).staged, swapPending := false })
    (w.evalDepth _ g)) (w.evalWait _ g)
  exact w.trans (w.ite s (fun _ => evaluated) fun _ => w.trans evaluated (w.foldl (fun s c => w.moveMusic s g c) _ _)) (w.raiseSweep _)

theorem swapIfQuiet (g : Group) : R s (s.swapIfQuiet g) := w.ite s (fun _ => w.performSwap s g) fun _ => w.refl s

theorem endOffer (g : Group) : R s (s.endOffer g) := w.modGroup s g _

/-! ### Agents and wraps -/

theorem restaff (old new : AgentRec) (g : Group) : R s (State.restaff old new s g) :=
  w.ite s (fun _ => w.refl s) fun _ => w.trans (w.modGroup s g _) (w.evalCondition _ g _ _)

theorem writeAgent (a : AgentSlot) (r : AgentRec) (h : (s.agent a).SameOwed r) : R s (s.writeAgent a r) :=
  w.trans (w.agent s a r h) (w.foldl (fun s g => w.restaff s _ _ g) _ _)

theorem changeAgent (a : AgentSlot) (r : AgentRec) (quiet : Bool) (h : (s.agent a).SameOwed r) : R s (s.changeAgent a r quiet) :=
  w.ite s (fun _ => w.writeAgent s a r h) fun _ => w.trans (w.writeAgent s a r h) (w.handAgent _ a)

theorem moveAgent (a : AgentSlot) (r : AgentRec) (h : (s.agent a).SameOwed r) : R s (s.moveAgent a r) :=
  w.ite s (fun _ => w.trans (w.changeAgent s a r false h) (w.raiseAgentTrigger _ a)) fun _ => w.changeAgent s a r false h

theorem takeSample (g : Group) (n : Nat) : R s (s.takeSample g n) := w.modGroup s g _

theorem endWrap (a : AgentSlot) (forced : Bool) : R s (s.endWrap a forced) := by
  have same : (s.agent a).SameOwed (if forced = true then (s.agent a).toSignedOut else (s.agent a).freed s.clock) := by
    split
    · exact toSignedOut_sameOwed _
    · exact freed_sameOwed _ _
  unfold State.endWrap
  dsimp only
  split
  · exact w.trans (w.takeSample s _ _) (w.moveAgent _ a _ same)
  · exact w.moveAgent s a _ same

theorem expireWrap (a : AgentSlot) : R s (s.expireWrap a) := w.ite s (fun _ => w.endWrap s a false) fun _ => w.refl s

theorem wrapsEnded : R s s.wrapsEnded := w.foldl (fun s a => w.expireWrap s a) _ s

theorem endConnected (a : AgentSlot) (g : Group) (mark : SampleMark) : R s (s.endConnected a g mark) := by
  unfold State.endConnected
  dsimp only
  split
  · exact w.changeAgent s a _ _ ⟨rfl, rfl⟩
  · split
    · have same : (s.agent a).SameOwed
          ({ s.agent a with boundCall := none, callsHandled := bump (s.agent a).callsHandled }.freed s.clock) := by
        unfold AgentRec.freed
        split <;> exact ⟨rfl, rfl⟩
      split
      · exact w.trans (w.takeSample s _ _) (w.moveAgent _ a _ same)
      · exact w.moveAgent s a _ same
    · exact w.changeAgent s a _ _ ⟨rfl, rfl⟩

theorem recordPending (a : AgentSlot) (p : Pending) : R s (s.recordPending a p) := w.agent s a _ ⟨rfl, rfl⟩

/-! ### Offers -/

theorem overflowAtRequeue (c : CallSlot) (counted : Bool) : R s (s.overflowAtRequeue c counted) := by
  unfold State.overflowAtRequeue
  split
  · exact w.refl s
  · have cleared := w.modCall s c (fun k => { k with pendingOverflow := false }) fun _ => ⟨rfl, rfl, rfl, rfl⟩
    exact w.ite s (fun _ => w.trans cleared (w.tryOverflow _ c)) fun _ => cleared

theorem returnCall (c : CallSlot) (g : Group) (a : AgentSlot) (counted : Bool) : R s (s.returnCall c g a counted) :=
  w.trans (w.trans (w.trans (w.trans (w.modCall s c _ (by exact fun _ => ⟨rfl, rfl, rfl, rfl⟩)) (w.endOffer _ g)) (w.overflowAtRequeue _ c counted))
    (w.swapIfQuiet _ g)) (w.raiseCallTrigger _ c)

theorem ringNoAnswer (c : CallSlot) (r : CallRec) (a : AgentSlot) : R s (s.ringNoAnswer c r a) := by
  have unbound := w.modCall s c (fun k => { k with boundAgent := none, ring := none }) fun _ => ⟨rfl, rfl, rfl, rfl⟩
  refine w.trans (w.trans unbound (w.moveAgent _ a _ ?_)) (w.returnCall _ c _ a true)
  split <;> exact ⟨rfl, rfl⟩

theorem withdraw (a : AgentSlot) (r : AgentRec) (quiet : Bool) (h : (s.agent a).SameOwed r) : R s (s.withdraw a r quiet) := by
  unfold State.withdraw
  split
  · exact w.changeAgent s a r quiet h
  next c _ =>
    split
    · exact w.changeAgent s a r quiet h
    · exact w.trans (w.trans (w.modCall s c _ (by exact fun _ => ⟨rfl, rfl, rfl, rfl⟩)) (w.changeAgent _ a r quiet h)) (w.returnCall _ c _ a false)

theorem freeAgent (a : AgentSlot) : R s (s.freeAgent a) := w.moveAgent s a _ (toReady_sameOwed _ _)

theorem hangUp (a : AgentSlot) (c : CallSlot) (r : CallRec) : R s (s.hangUp a c r) :=
  w.trans (w.trans (w.trans (w.modCall s c _ (by exact fun _ => ⟨rfl, rfl, rfl, rfl⟩)) (w.endConnected _ a _ _))
    (w.modCall _ c _ (by exact fun _ => ⟨rfl, rfl, rfl, rfl⟩))) (w.handCall _ c _)

/-! ### The Distributor -/

theorem bind (c : CallSlot) (r : CallRec) (a : AgentSlot) : R s (s.bind c r a) := by
  unfold State.bind
  exact w.trans (w.trans (w.modCall s c _ (by exact fun _ => ⟨rfl, rfl, rfl, rfl⟩)) (w.modGroup _ _ _)) (w.changeAgent _ a _ _ (by exact ⟨rfl, rfl⟩))

theorem selectAgent (r : CallRec) : R s (s.selectAgent r).2 := by
  unfold State.selectAgent State.breakTie
  split
  · exact w.refl s
  · exact w.refl s
  · exact w.generator s _

theorem takeCallTrigger (c : CallSlot) : R s (s.takeCallTrigger c) := by
  unfold State.takeCallTrigger
  refine w.ite s (fun _ => ?_) fun _ => w.refl s
  split
  · exact w.refl s
  next r _ =>
    split
    next e => exact snd (w.selectAgent s r) e
    next e => exact w.trans (snd (w.selectAgent s r) e) (w.bind _ c r _)

theorem takeAgentTrigger (a : AgentSlot) : R s (s.takeAgentTrigger a) := by
  unfold State.takeAgentTrigger
  refine w.ite s (fun _ => ?_) fun _ => w.refl s
  split
  · exact w.refl s
  · exact w.bind s _ _ a

theorem sweepRounds (n : Nat) : R s (State.sweepRounds n s) := by
  induction n generalizing s with
  | zero => exact w.refl s
  | succ n ih =>
    unfold State.sweepRounds
    split
    · exact w.refl s
    next c r _ =>
      split
      next e => exact snd (w.selectAgent s r) e
      next e => exact w.trans (w.trans (snd (w.selectAgent s r) e) (w.bind _ c r _)) (ih _)

/-! ### Expiries -/

theorem expireRing (c : CallSlot) : R s (s.expireRing c) := by
  unfold State.expireRing
  split
  · exact w.refl s
  · split
    · exact w.ite s (fun _ => w.ringNoAnswer s c _ _) fun _ => w.refl s
    · exact w.refl s

theorem expireOverflow (c : CallSlot) : R s (s.expireOverflow c) := by
  unfold State.expireOverflow
  split
  · exact w.refl s
  · split
    · exact w.refl s
    · refine w.ite s (fun _ => ?_) fun _ => w.refl s
      have written (f : CallRec → CallRec) (h : ∀ r : CallRec, r.SameOwed (f r)) : R s (s.modCall c f) := w.modCall s c f h
      split
      · exact w.trans (written _ (by exact fun _ => ⟨rfl, rfl, rfl, rfl⟩)) (w.tryOverflow _ c)
      · exact written _ (by exact fun _ => ⟨rfl, rfl, rfl, rfl⟩)
      · exact written _ (by exact fun _ => ⟨rfl, rfl, rfl, rfl⟩)
      · exact written _ (by exact fun _ => ⟨rfl, rfl, rfl, rfl⟩)

theorem takeExpiries : R s s.takeExpiries :=
  w.trans (w.foldl (fun s c => w.expireRing s c) _ s) (w.foldl (fun s c => w.expireOverflow s c) _ _)

end Quiet

/-- The relation `R` holds along the writes of the wait list and of the channels too, and along the last step of a freeing: the call's
owed pairs leave the list of its port, and its slot is free (R55). -/
structure Full (R : State → State → Prop) : Prop extends Quiet R where
  waitList : ∀ s l, R s (s.setWaitList l)
  channel : ∀ s j b, R s (s.setChannel j b)
  free : ∀ (s : State) c r, s.call c = some r →
    R s ((((s.removeOwed (portOf r.owner) (.call c .listen)).removeOwed (portOf r.owner) (.call c .connect)).removeOwed
      (portOf r.owner) (.call c .cleared)).putCall c none)

namespace Full
variable {R : State → State → Prop} (w : Full R) (s : State)
include w

/-! ### The wait list and the channels -/

theorem joinWaitList (c : CallSlot) (due : Nat) : R s (s.joinWaitList c due) :=
  w.ite s (fun _ => w.refl s) fun _ =>
    w.trans (w.trans (w.modCall s c _ (by exact fun _ => ⟨rfl, rfl, rfl, rfl⟩)) (w.waitList _ _)) (w.evalStarved _)

theorem leaveWaitList (c : CallSlot) : R s (s.leaveWaitList c) :=
  w.ite s (fun _ => w.trans (w.trans (w.modCall s c _ (by exact fun _ => ⟨rfl, rfl, rfl, rfl⟩)) (w.waitList _ _)) (w.evalStarved _))
    fun _ => w.refl s

theorem carryChannel (n : Nat) (c : CallSlot) (r : Run) : R s (State.carryChannel n c r s).2 := by
  induction n generalizing r s with
  | zero => exact w.refl s
  | succ n ih =>
    have step := w.carryStep s (some c) r
    unfold State.carryChannel
    split
    next h => exact Quiet.snd step (congrArg Prod.snd h)
    next h => exact w.trans (Quiet.snd step (congrArg Prod.snd h)) (ih _ _)
    next h => exact Quiet.snd step (congrArg Prod.snd h)
    next h =>
      split
      · exact w.trans (Quiet.snd step (congrArg Prod.snd h)) (ih _ _)
      · exact Quiet.snd step (congrArg Prod.snd h)

theorem endAnnouncement (j : ChannelNo) (c : CallSlot) : R s (s.endAnnouncement j c) := by
  unfold State.endAnnouncement
  dsimp only
  split
  · exact w.channel s j none
  · exact w.trans (w.trans (w.trans (w.channel s j none) (w.setListen _ c _)) (w.handCall _ c _))
      (w.modCall _ c _ (by exact fun _ => ⟨rfl, rfl, rfl, rfl⟩))

theorem runChannel (j : ChannelNo) (c : CallSlot) (r : Run) : R s (s.runChannel j c r) := by
  have carried := w.carryChannel s State.carryFuel c r
  unfold State.runChannel
  split
  next h => exact w.trans (Quiet.snd carried h) (w.channel _ j _)
  next h => exact w.trans (Quiet.snd carried h) (w.endAnnouncement _ j c)

theorem abortChannel (j : ChannelNo) : R s (s.abortChannel j) := by
  unfold State.abortChannel
  split
  · exact w.refl s
  · exact w.trans (w.leaveSegment s _) (w.channel _ j none)

theorem grant (j : ChannelNo) (c : CallSlot) (p : ProgramNo) : R s (s.grant j c p) :=
  w.trans (w.trans (w.trans (w.channel s j _) (w.setListen _ c _)) (w.handCall _ c _)) (w.runChannel _ j c _)

theorem arbitrateUpTo (n : Nat) : R s (State.arbitrateUpTo n s) := by
  induction n generalizing s with
  | zero => exact w.refl s
  | succ n ih =>
    unfold State.arbitrateUpTo
    split
    next e _ j _ _ =>
      have left := w.leaveWaitList s e.call
      dsimp only
      split
      · exact w.trans left (ih _)
      · split
        · exact w.trans left (ih _)
        · exact w.trans (w.trans left (w.grant _ j e.call _)) (ih _)
    next => exact w.refl s

theorem arbitrate : R s s.arbitrate := w.arbitrateUpTo s _

theorem detach (c : CallSlot) : R s (s.detach c) := by
  unfold State.detach
  split
  · exact w.refl s
  next r _ =>
    have off : R s (match r.listen with | .silent => s | .music m => s.loseListener m | .announce j => s.abortChannel j) := by
      split
      · exact w.refl s
      · exact w.source s _ _
      · exact w.abortChannel s _
    exact w.trans (w.trans off (w.modCall _ c _ (by exact fun _ => ⟨rfl, rfl, rfl, rfl⟩))) (w.leaveWaitList _ c)

theorem announce (c : CallSlot) : R s (s.announce c) := by
  unfold State.announce
  split
  · exact w.refl s
  · split
    · exact w.refl s
    · refine w.ite s (fun _ => ?_) fun _ => w.refl s
      have cleared := w.modCall s c (fun k => { k with nextDue := none }) (by exact fun _ => ⟨rfl, rfl, rfl, rfl⟩)
      split
      · exact w.trans (w.trans cleared (w.joinWaitList _ c _)) (w.arbitrate _)
      · exact w.trans (w.trans cleared (w.joinWaitList _ c _)) (w.arbitrate _)
      · exact cleared
      · exact cleared

theorem settled : R s s.settled := w.trans (w.wrapsEnded s) (w.foldl (fun s c => w.announce s c) _ _)

/-! ### Runs -/

theorem putRun (h : HighwayChannel) (r : Run) : R s (s.putRun h r) := by
  unfold State.putRun
  split
  · exact w.source s _ _
  · exact w.channel s _ _

theorem continueRun (h : HighwayChannel) (r : Run) : R s (s.continueRun h r) := by
  unfold State.continueRun
  split
  · exact w.carrySource s _ _ _
  · split
    · exact w.refl s
    · exact w.runChannel s _ _ _

theorem completeStep (h : HighwayChannel) : R s (s.completeStep h) := by
  unfold State.completeStep
  split
  · exact w.refl s
  · exact w.ite s (fun _ => w.trans (w.trans (w.leaveSegment s _) (w.continueRun _ h _)) (w.arbitrate _)) fun _ => w.refl s

theorem completeFill (h : HighwayChannel) : R s (s.completeFill h) := by
  unfold State.completeFill
  split
  · exact w.refl s
  next r _ =>
    refine w.ite s (fun _ => ?_) fun _ => w.refl s
    split
    · split
      next e => exact Quiet.snd (w.sourceReturn s _ _ r) e
      next e => exact w.trans (Quiet.snd (w.sourceReturn s _ _ r) e) (w.carrySource _ _ _ _)
    · exact w.trans (w.continueRun s h _) (w.arbitrate _)
    · exact w.refl s

theorem playFrame (h : HighwayChannel) : R s (s.playFrame h) := by
  unfold State.playFrame
  split
  · exact w.refl s
  · refine w.ite s (fun _ => ?_) fun _ => w.putRun s h _
    split
    · exact w.putRun s h _
    · exact w.trans (w.trans (w.leaveSegment s _) (w.beginWord _ _)) (w.putRun _ h _)

/-! ### Answer, release and purge -/

theorem connect (a : AgentSlot) (c : CallSlot) (r : CallRec) : R s (s.connect a c r) := by
  unfold State.connect
  have answered := w.trans (w.modCall s c
    (fun k => { k with state := .connected, ring := none, talkStart := s.clock, overflowDue := none, pendingOverflow := false })
    (by exact fun _ => ⟨rfl, rfl, rfl, rfl⟩)) (w.writeAgent _ a { s.agent a with state := .connected, idleSince := 0, answerStart := s.clock }
      (by exact ⟨rfl, rfl⟩))
  have left := w.trans (w.trans (w.trans answered (w.endOffer _ r.group)) (w.leaveQueue _ c r.group)) (w.modStats _ r.group fun q => { q with answered := bump q.answered })
  exact w.trans (w.trans (w.trans (w.trans (w.trans (w.trans left (w.detach _ c)) (w.handAgent _ a)) (w.handCall _ c _))
    (w.handCall _ c _)) (w.swapIfQuiet _ _)) (w.arbitrate _)

theorem freeCall (c : CallSlot) : R s (s.freeCall c) := by
  unfold State.freeCall
  split
  · exact w.refl s
  next r e =>
    have off : R s ((if c ∈ (s.group r.group).queue then s.leaveQueue c r.group else s).detach c) :=
      w.trans (w.ite s (fun _ => w.leaveQueue s c _) fun _ => w.refl s) (w.detach _ c)
    have here : ∃ q, ((if c ∈ (s.group r.group).queue then s.leaveQueue c r.group else s).detach c).call c = some q
        ∧ q.owner = r.owner := by
      have before : (if c ∈ (s.group r.group).queue then s.leaveQueue c r.group else s).call c = some r := by
        split
        · rw [leaveQueue_call, e]
        · exact e
      obtain ⟨q, hq, hr⟩ := (detach_play (C := fun _ => True) (W := true) _ (c := c) trivial rfl).off.call before
      have owner : q.offPlayout.owner = r.offPlayout.owner := congrArg CallRec.owner hr
      exact ⟨q, hq, owner⟩
    obtain ⟨q, hq, ho⟩ := here
    have freed := w.free _ c q hq
    rw [ho] at freed
    exact w.trans off freed

theorem release (c : CallSlot) (r : CallRec) : R s (s.release c r) := by
  unfold State.release
  split
  · exact w.trans (w.modStats s _ _) (w.freeCall _ c)
  · exact w.trans (w.trans (w.trans (w.trans (w.trans (w.modCall s c _ (by exact fun _ => ⟨rfl, rfl, rfl, rfl⟩)) (w.freeAgent _ _))
      (w.modStats _ _ _)) (w.freeCall _ c)) (w.endOffer _ _)) (w.swapIfQuiet _ _)
  · exact w.trans (w.trans (w.modCall s c _ (by exact fun _ => ⟨rfl, rfl, rfl, rfl⟩)) (w.endConnected _ _ _ _)) (w.freeCall _ c)
  · exact w.freeCall s c

end Full
end Sys2Proof.Machine

/-! The walk through the commands: what holds along the writes of the records, and along the few operations named by `Acts`, holds along
every command. -/

namespace Sys2Proof.Machine

/-- The relation `R` holds along the writes that `Quiet` names and along the operations that change who is served, who owes and who is on
the stage. -/
structure Acts (R : State → State → Prop) : Prop extends Quiet R where
  connect : ∀ (s : State) a c r, R s (s.connect a c r)
  release : ∀ (s : State) c r, R s (s.release c r).arbitrate
  announce : ∀ (s : State) c, R s (s.announce c)
  completeStep : ∀ (s : State) h, R s (s.completeStep h)
  completeFill : ∀ (s : State) h, R s (s.completeFill h)
  playFrame : ∀ (s : State) h, R s (s.playFrame h)
  purge : ∀ (s : State) x, R s (s.purgeShelf x)
  define : ∀ s ps, R s (actAgentDefine ps s).state
  fetch : ∀ s p ps, R s (actFetch p ps s).state
  restarted : ∀ s : State, R s s.restarted
  poweredOn : ∀ s : State, R s s.poweredOn

namespace Quiet
variable {R : State → State → Prop} (w : Quiet R) (s : State) (p : Port) (ps : List Byte)
include w

/-! ### Agent requests -/

theorem goAux (a : AgentSlot) (n : Nat) : R s (s.goAux a n).state := by
  unfold State.goAux
  dsimp only
  split
  · exact w.refl s
  · split
    · exact w.refl s
    · exact w.moveAgent s a _ (toAux_sameOwed _ _)
  · exact w.moveAgent s a _ (toAux_sameOwed _ _)
  · exact w.withdraw s a _ _ (toAux_sameOwed _ _)
  all_goals
    split
    · exact w.refl s
    · exact w.recordPending s a _

theorem goOut (a : AgentSlot) {engaged : Reply} (h : R s engaged.state) : R s (s.goOut a engaged).state := by
  unfold State.goOut
  dsimp only
  split
  · exact w.refl s
  · exact w.moveAgent s a _ (toSignedOut_sameOwed _)
  · exact w.moveAgent s a _ (toSignedOut_sameOwed _)
  · exact w.withdraw s a _ _ (toSignedOut_sameOwed _)
  · exact h
  · exact h

theorem finishWrap (a : AgentSlot) : R s (s.finishWrap a).state := w.endWrap s a false

theorem actSignIn : R s (actSignIn p ps s).state := by
  refine asAgent_lift (R := R s) (w.refl s) fun a => ?_
  split
  · exact w.moveAgent s a { (s.agent a).toAux 0 with callsHandled := 0 } ⟨rfl, rfl⟩
  · exact w.refl s

theorem actReady : R s (actReady p ps s).state := by
  refine asAgent_lift (R := R s) (w.refl s) fun a => ?_
  dsimp only
  split
  · exact w.refl s
  · exact w.moveAgent s a _ (toReady_sameOwed _ _)
  · exact w.refl s
  · exact w.refl s
  · split
    · exact w.refl s
    · exact w.recordPending s a _
  · exact w.finishWrap s a

theorem actAux : R s (actAux p ps s).state := by
  refine asAgent_lift (R := R s) (w.refl s) fun a => ?_
  split
  · exact w.goAux s a _
  · exact w.refl s

theorem actForceAux : R s (actForceAux p ps s).state := by
  refine asAgent_lift (R := R s) (w.refl s) fun a => ?_
  split
  · exact w.goAux s a _
  · exact w.refl s

theorem actSignOut : R s (actSignOut p ps s).state := by
  refine asAgent_lift (R := R s) (w.refl s) fun a => w.goOut s a ?_
  split
  · exact w.refl s
  · exact w.recordPending s a _

theorem actForceSignOut : R s (actForceSignOut p ps s).state := by
  refine asAgent_lift (R := R s) (w.refl s) fun a => w.goOut s a ?_
  split_ifs
  · exact w.endWrap s a true
  · exact w.refl s
  · exact w.recordPending s a _

theorem actWrapExtend : R s (actWrapExtend p ps s).state := by
  refine asAgent_lift (R := R s) (w.refl s) fun a => ?_
  dsimp only
  split
  · exact w.refl s
  split
  · exact w.refl s
  dsimp only
  split
  · exact w.agent s a _ (by exact ⟨rfl, rfl⟩)
  · exact w.trans (w.agent s a _ (by exact ⟨rfl, rfl⟩)) (w.handAgent _ a)

theorem actWrapEnd : R s (actWrapEnd p ps s).state := by
  refine asAgent_lift (R := R s) (w.refl s) fun a => ?_
  split
  · exact w.finishWrap s a
  · exact w.refl s

theorem actAgentNoAnswer : R s (actAgentNoAnswer p ps s).state := by
  refine asAgent_lift (R := R s) (w.refl s) fun a => ?_
  split
  · exact w.refl s
  · split
    · exact w.refl s
    · exact w.ringNoAnswer s _ _ a

theorem actAgentHangup : R s (actAgentHangup p ps s).state := by
  refine asAgent_lift (R := R s) (w.refl s) fun a => ?_
  split
  · exact w.refl s
  · split
    · exact w.refl s
    · exact w.hangUp s a _ _

/-! ### Group and line requests -/

theorem actGroupStage : R s (actGroupStage ps s).state := by
  refine asGroup_lift (R := R s) (w.refl s) fun g => ?_
  split
  · exact w.refl s
  next p _ =>
    split
    · exact w.refl s
    · exact w.modGroup s g fun r => { r with staged := p.inRange }

theorem actGroupSwap : R s (actGroupSwap ps s).state := by
  refine asGroup_lift (R := R s) (w.refl s) fun g => ?_
  dsimp only
  split
  · exact w.refl s
  split
  · exact w.performSwap s g
  · exact w.group s g _

theorem actGroupOpen : R s (actGroupOpen ps s).state :=
  asGroup_lift (R := R s) (w.refl s) fun g => w.trans (w.modGroup s g _) (w.sweepIfOpened _ s)

theorem actGroupClose : R s (actGroupClose ps s).state := 
  asGroup_lift (R := R s) (w.refl s) fun g => w.modGroup s g fun r => { r with supervisorClosed := true }

theorem actGroupStats : R s (actGroupStats ps s).state := asGroup_lift (R := R s) (w.refl s) fun g => w.modStats s g fun _ => {}

theorem actGroupWatchMask : R s (actGroupWatchMask ps s).state :=
  asGroup_lift (R := R s) (w.refl s) fun g =>
    w.trans (w.modGroup s g fun r => { r with masks := watchBitsOf (u8 ps 1) })
      (w.foldl (fun u _ => w.ite u (fun _ => w.handWatch u) fun _ => w.refl u) _ _)

theorem setLine (l : LineNo) (r : LineRec) : R s (s.setLine l r) := w.plain ⟨rfl, rfl, rfl, rfl, rfl, rfl, rfl, rfl⟩

theorem actLineMode : R s (actLineMode ps s).state := by
  refine asLine_lift (R := R s) (w.refl s) fun l => ?_
  split
  · exact w.refl s
  · exact w.trans (w.setLine s l _) (w.sweepIfOpened _ s)

/-! ### Arrivals -/

theorem arrive {c : CallSlot} (free : s.call c = none) (x : Shelf) (t : Tag) (named g : Group) (priority hops : Nat) :
    R s (s.arrive c x t named g priority hops) := by
  have numbered (u : State) (n : Nat) : R u (u.setSeqCounter n) := w.plain ⟨rfl, rfl, rfl, rfl, rfl, rfl, rfl, rfl⟩
  have counted (u : State) : R u (u.countHop named g hops) :=
    w.ite u (fun _ => w.refl u) fun _ => w.trans (w.modStats u named _) (w.modStats _ g _)
  have hearing (u : State) : R u (u.startListening c g) := by
    have heard : R u (if u.musicOf g = .silent then u.setListen c (u.musicOf g)
        else (u.setListen c (u.musicOf g)).handCall c .listen) :=
      w.ite u (fun _ => w.setListen u c _) fun _ => w.trans (w.setListen u c _) (w.handCall _ c _)
    exact w.trans heard (w.modCall _ c _ (by exact fun _ => ⟨rfl, rfl, rfl, rfl⟩))
  have entered := w.enter s c (s.arrivalRecord x t g priority hops) free rfl rfl rfl
  exact w.trans (w.trans (w.trans (w.trans entered (numbered _ _)) (counted _)) (w.join _ c g)) (hearing _)

theorem actCallArrive : R s (actCallArrive p ps s).state := by
  unfold Sys2Proof.Machine.actCallArrive
  split
  · exact w.refl s
  · dsimp only
    split
    · exact w.refl s
    · split
      · exact w.refl s
      · split
        · exact w.refl s
        · split
          · exact w.refl s
          · exact w.refl s
          next hfree _ => exact w.arrive s (freeSlot_free hfree) _ _ _ _ _ _

theorem actTiebreakSet : R s (actTiebreakSet ps s).state := w.plain ⟨rfl, rfl, rfl, rfl, rfl, rfl, rfl, rfl⟩

/-! ### The stores, the sources and the slot map -/

theorem actStoreWrite : R s (actStoreWrite ps s).state := by
  unfold Sys2Proof.Machine.actStoreWrite
  dsimp only
  split
  · exact w.refl s
  · split
    · exact w.refl s
    · exact w.plain ⟨rfl, rfl, rfl, rfl, rfl, rfl, rfl, rfl⟩

theorem actSegmentLoad : R s (actSegmentLoad ps s).state := by
  refine asSegment_lift (R := R s) (w.refl s) fun k => ?_
  dsimp only
  split
  · exact w.refl s
  · split
    · exact w.refl s
    · exact w.segment s k _

theorem actProgramLoad : R s (actProgramLoad ps s).state := by
  refine asProgram_lift (R := R s) (w.refl s) fun n => ?_
  split
  · exact w.refl s
  · split
    · exact w.refl s
    · dsimp only
      split
      · exact w.refl s
      · exact w.plain ⟨rfl, rfl, rfl, rfl, rfl, rfl, rfl, rfl⟩

theorem actVocabLoad : R s (actVocabLoad ps s).state := by
  refine asVocab_lift (R := R s) (w.refl s) fun v => ?_
  dsimp only
  split_ifs
  · exact w.plain ⟨rfl, rfl, rfl, rfl, rfl, rfl, rfl, rfl⟩
  · exact w.plain ⟨rfl, rfl, rfl, rfl, rfl, rfl, rfl, rfl⟩
  · exact w.refl s

theorem giveProgram (m : SourceNo) (o : Option ProgramNo) : R s (s.giveProgram m o).state := by
  unfold State.giveProgram
  dsimp only
  split
  · exact w.ite s (fun _ => w.trans (w.source s m _) (w.startSource _ m)) fun _ => w.source s m _
  · split
    · exact w.source s m _
    · exact w.source s m _

theorem actSourceSet : R s (actSourceSet ps s).state := by
  refine asSource_lift (R := R s) (w.refl s) fun m => ?_
  split
  · exact w.refl s
  · exact w.giveProgram s m _

theorem actSourceLimit : R s (actSourceLimit ps s).state := asSource_lift (R := R s) (w.refl s) fun m => w.source s m _

theorem actSlotMap : R s (actSlotMap ps s).state := by
  unfold Sys2Proof.Machine.actSlotMap
  split
  next h t m _ _ _ =>
    split
    · exact w.refl s
    · have mapped : R s (s.setSlot h t m) := w.plain ⟨rfl, rfl, rfl, rfl, rfl, rfl, rfl, rfl⟩
      exact w.ite s (fun _ => mapped) fun _ => w.trans mapped (w.foldl (fun u c => w.handCall u c .listen) _ _)
  · exact w.refl s

theorem actIdleByteSet : R s (actIdleByteSet ps s).state := w.plain ⟨rfl, rfl, rfl, rfl, rfl, rfl, rfl, rfl⟩

/-! ### Watch flags -/

theorem actWatchClear : R s (actWatchClear ps s).state := by
  unfold Sys2Proof.Machine.actWatchClear
  split
  · exact w.refl s
  · exact w.trans (w.device s _ (by rfl)) (w.foldl (fun u g => w.modGroup u g _) _ _)

theorem actWatchMask : R s (actWatchMask ps s).state := by
  have handed (due : Bool) (u : State) : R u (State.watchIf due u) := w.ite u (fun _ => w.handWatch u) fun _ => w.refl u
  unfold Sys2Proof.Machine.actWatchMask
  dsimp only
  split
  · exact w.refl s
  · exact w.trans (w.trans (w.device s _ (by rfl)) (handed _ _)) (handed _ _)

/-! ### Transactions -/

theorem modPort (f : PortRec → PortRec) (hn : ∀ r, (f r).notices = r.notices) (ho : ∀ r, (f r).owed = r.owed) : R s (s.modPort p f) :=
  w.port s p _ (hn _) (ho _)

theorem shiftOut (l : List Byte) : R s (s.shiftOut p l) := w.modPort s p _ (fun _ => rfl) fun _ => rfl
theorem takeSlot : R s (s.takeSlot p) := w.modPort s p _ (fun _ => rfl) fun _ => rfl
theorem respond (r : Result) (c : List Byte) : R s (s.respond p r c) := w.modPort s p _ (fun _ => rfl) fun _ => rfl
theorem reject : R s (s.reject p) := w.modPort s p _ (fun _ => rfl) fun _ => rfl

theorem request {k : Kind} {body : List Byte} {act : List Byte → State → Reply} (h : ∀ ps s, R s (act ps s).state) :
    R s (State.request k p body act s) := by
  have shift : R s (s.shiftWrite p (1 + body.length)) := w.shiftOut s p _
  unfold State.request
  dsimp only
  split
  · split
    · exact w.trans (w.trans shift (w.takeSlot _ p)) (w.respond _ p _ _)
    · exact w.trans (w.trans (w.trans shift (w.takeSlot _ p)) (h _ _)) (w.respond _ p _ _)
  · exact w.trans shift (w.reject _ p)

theorem readTransaction (sent : List Byte) : R s (s.readTransaction p sent) := by
  unfold State.readTransaction
  split
  · exact w.refl s
  · split
    · exact w.shiftOut s p _
    · unfold State.readResponse
      dsimp only
      split
      · split
        · exact w.trans (w.trans (w.shiftOut s p _) (w.modPort _ p _ (by exact fun _ => rfl) (by exact fun _ => rfl)))
            (w.plain ⟨rfl, rfl, rfl, rfl, rfl, rfl, rfl, rfl⟩)
        · exact w.shiftOut s p _
      · exact w.shiftOut s p _
    · exact w.refl s

theorem rejectRecord (record : List Byte) : R s (s.rejectRecord p record) :=
  w.ite s (fun _ => w.refl s) fun _ => w.trans (w.shiftOut s p _) (w.reject _ p)

theorem refuseUnknown (record : List Byte) : R s (s.refuseUnknown p record) := by
  have shift : R s (s.shiftWrite p record.length) := w.shiftOut s p _
  refine w.ite s (fun _ => ?_) fun _ => w.refl s
  exact w.ite s (fun _ => w.trans (w.trans shift (w.takeSlot _ p)) (w.respond _ p _ _)) fun _ => w.trans shift (w.reject _ p)

/-! ### The station clock and the lines -/

theorem advance : R s s.advance := by
  have ticked (u : State) : R u u.tick :=
    w.ite u (fun _ => w.plain ⟨rfl, rfl, rfl, rfl, rfl, rfl, rfl, rfl⟩) fun _ => w.plain ⟨rfl, rfl, rfl, rfl, rfl, rfl, rfl, rfl⟩
  exact w.trans (w.trans (w.trans (w.takeExpiries s) (ticked _)) (w.foldl (fun u g => w.evalWait u g) _ _)) (w.evalStarved _)

theorem seeLevel (l : LineNo) : R s (s.seeLevel l) :=
  w.ite s (fun _ => w.refl s) fun _ => w.trans (w.setLine s l _) (w.sweepIfOpened _ s)

end Quiet

namespace Acts
variable {R : State → State → Prop} (w : Acts R) (s : State)
include w

theorem actAgentAnswer (p : Port) (ps : List Byte) : R s (actAgentAnswer p ps s).state := by
  refine asAgent_lift (R := R s) (w.refl s) fun a => ?_
  split
  · exact w.refl s
  · split
    · exact w.refl s
    · dsimp only [Reply.ok]
      exact w.connect s a _ _

theorem purgeReply (x : Shelf) : R s (s.purgeReply x).state := w.purge s x

theorem actPurgeShelf (ps : List Byte) : R s (actPurgeShelf ps s).state := by
  unfold Sys2Proof.Machine.actPurgeShelf
  split
  · exact w.refl s
  · exact w.purgeReply s _

theorem actPurge (p : Port) (ps : List Byte) : R s (actPurge p ps s).state := by
  unfold Sys2Proof.Machine.actPurge
  split
  · exact w.refl s
  · exact w.purgeReply s _

theorem act (k : Kind) (p : Port) (ps : List Byte) : R s (actOf k p ps s).state := by
  by_cases hr : readOnly k = true
  · rw [act_readOnly hr]
    exact w.refl s
  cases k <;> try cases hr rfl
  case signIn => exact w.actSignIn s p ps
  case ready => exact w.actReady s p ps
  case aux => exact w.actAux s p ps
  case signOut => exact w.actSignOut s p ps
  case wrapExtend => exact w.actWrapExtend s p ps
  case wrapEnd => exact w.actWrapEnd s p ps
  case agentAnswer => exact w.actAgentAnswer s p ps
  case agentNoAnswer => exact w.actAgentNoAnswer s p ps
  case agentHangup => exact w.actAgentHangup s p ps
  case agentDefine => exact w.define s ps
  case forceAux => exact w.actForceAux s p ps
  case forceSignOut => exact w.actForceSignOut s p ps
  case groupStage => exact w.actGroupStage s ps
  case groupSwap => exact w.actGroupSwap s ps
  case groupOpen => exact w.actGroupOpen s ps
  case groupClose => exact w.actGroupClose s ps
  case groupStats => exact w.actGroupStats s ps
  case groupWatchMask => exact w.actGroupWatchMask s ps
  case lineMode => exact w.actLineMode s ps
  case callArrive => exact w.actCallArrive s p ps
  case callRelease => exact asCall_lift (R := R s) (w.refl s) fun c r _ => w.release s c r
  case tiebreakSet => exact w.actTiebreakSet s ps
  case storeWrite => exact w.actStoreWrite s ps
  case segmentLoad => exact w.actSegmentLoad s ps
  case programLoad => exact w.actProgramLoad s ps
  case vocabLoad => exact w.actVocabLoad s ps
  case sourceSet => exact w.actSourceSet s ps
  case sourceLimit => exact w.actSourceLimit s ps
  case slotMap => exact w.actSlotMap s ps
  case idleByteSet => exact w.actIdleByteSet s ps
  case fetch => exact w.fetch s p ps
  case watchClear => exact w.actWatchClear s ps
  case watchMask => exact w.actWatchMask s ps
  case purgeShelf => exact w.actPurgeShelf s ps
  case purge => exact w.actPurge s p ps
  case restart => exact w.restarted s

theorem settled : R s s.settled := w.trans (w.wrapsEnded s) (w.foldl (fun u c => w.announce u c) _ _)

theorem nextFrame : R s s.nextFrame := by
  have completed := w.foldl (fun u h => w.trans (w.completeStep u h) (w.completeFill _ h)) (List.finRange 24) s
  have driven (u : State) (v : Vector (Option Byte) 32) : R u (u.setHighway v) := w.plain ⟨rfl, rfl, rfl, rfl, rfl, rfl, rfl, rfl⟩
  exact w.trans (w.trans completed (driven _ _)) (w.foldl (fun u h => w.playFrame u h) _ _)

omit w in
theorem of_exec {s t u : State} {c : Instr} (h : exec c s = .next t) (e : exec c s = .next u) (hu : R s u) : R s t := by
  rw [e] at h
  cases h
  exact hu

theorem event {s t : State} {c : Instr} (e : Event c) (h : exec c s = .next t) : R s t := by
  cases e
  case powerOnReset => exact of_exec h rfl (w.poweredOn s)
  case stationClockAdvance => exact of_exec h rfl (w.trans (w.settled s) (w.advance _))
  case ringTimerExpiry c => exact of_exec h rfl (w.trans (w.settled s) (w.expireRing _ c))
  case wrapExpiry a => exact of_exec h rfl (w.expireWrap s a)
  case overflowWaitExpiry c => exact of_exec h rfl (w.trans (w.settled s) (w.expireOverflow _ c))
  case announcementDue c => exact of_exec h rfl (w.trans (w.wrapsEnded s) (w.announce _ c))
  case serviceLineInputChange l high => exact of_exec h rfl (w.trans (w.settled s) (w.setLine _ l _))
  case seenLevelEdge l => exact of_exec h rfl (w.trans (w.settled s) (w.seeLevel _ l))
  case highwayFrame => exact of_exec h rfl (w.trans (w.settled s) (w.nextFrame _))
  case stepComplete x => exact of_exec h rfl (w.trans (w.settled s) (w.completeStep _ x))
  case fillComplete x => exact of_exec h rfl (w.trans (w.settled s) (w.completeFill _ x))
  case callTrigger c =>
    have dropped (u : State) : R u (u.dropCallTrigger c) := w.triggers u _ _ _
    exact of_exec h rfl (w.trans (w.settled s) (w.ite _ (fun _ => w.trans (dropped _) (w.takeCallTrigger _ c)) fun _ => w.refl _))
  case agentTrigger a =>
    have dropped (u : State) : R u (u.dropAgentTrigger a) := w.triggers u _ _ _
    exact of_exec h rfl (w.trans (w.settled s) (w.ite _ (fun _ => w.trans (dropped _) (w.takeAgentTrigger _ a)) fun _ => w.refl _))
  case sweep =>
    have dropped (u : State) : R u u.dropSweep := w.triggers u _ _ _
    exact of_exec h rfl (w.trans (w.settled s) (w.ite _ (fun _ => w.trans (dropped _) (w.sweepRounds _ _)) fun _ => w.refl _))
  case responseRead p sent => exact of_exec h rfl (w.trans (w.settled s) (w.readTransaction _ p sent))
  case requestRejected p record => exact of_exec h rfl (w.trans (w.settled s) (w.rejectRecord _ p record))
  case unknownRequestKind p record => exact of_exec h rfl (w.trans (w.settled s) (w.refuseUnknown _ p record))

theorem exec {s t : State} {c : Instr} (h : exec c s = .next t) : R s t := by
  obtain ⟨k, p, body, rfl⟩ | e := request_or_event c
  · exact of_exec h (exec_command k p body s) (w.trans (w.settled s) (w.request _ p fun ps u => w.act u k p ps))
  · exact w.event e h

theorem step {s t : State} (h : step s = .next t) : R s t := by
  unfold Sys2Proof.Machine.step at h
  split at h
  · cases h
    exact w.refl s
  next c rest _ =>
    have waiting : R s { s with pending := rest } := w.plain ⟨rfl, rfl, rfl, rfl, rfl, rfl, rfl, rfl⟩
    exact w.trans waiting (w.exec h)

end Acts
end Sys2Proof.Machine

/-! AGENT_DEFINE by its outcomes, and the arbiter (R170): every step leaves it with nothing to do, as an operation leaves the wait list and the channels alone or ends in
`arbitrate`. -/

namespace Sys2Proof.Machine

/-! ### What AGENT_DEFINE does (R5, R6) -/

/-- Agent `a`'s record returns to its power-on values, its owed pair off its port's list. -/
def State.undefine (s : State) (a : AgentSlot) : State :=
  (s.removeOwed (portOf (s.agent a).home) (.agentState a)).writeAgent a {}

/-- Agent `a` is defined with home `x` and skills `ks`; a home that changes takes the owed pair with it. -/
def State.redefine (s : State) (a : AgentSlot) (x : Shelf) (ks : List Skill) : State :=
  (if (s.agent a).home = x then s else s.removeOwed (portOf (s.agent a).home) (.agentState a)).writeAgent a
    { s.agent a with defined := true, home := x, skills := ks, owed := (s.agent a).owed && (s.agent a).home == x }

/-- What holds of a state, of the state with an agent undefined, and of one with an agent defined, holds after AGENT_DEFINE. -/
theorem actAgentDefine_lift {R : State → Prop} (s : State) (ps : List Byte) (refl : R s)
    (undefine : ∀ a, (s.agent a).state = .signedOut → R (s.undefine a))
    (redefine : ∀ a x ks, skillsLegal ks = true → (s.agent a).state ≠ .offered →
      ((s.agent a).home ≠ x → (s.agent a).state = .signedOut) →
        R (s.redefine a x ks) ∧ ((s.agent a).state = .ready → R ((s.redefine a x ks).raiseAgentTrigger a))) :
    R (actAgentDefine ps s).state := by
  unfold actAgentDefine
  split
  · exact refl
  next a _ =>
    dsimp only
    split
    · exact refl
    split
    next ks home hks _ =>
      split
      · exact refl
      next hparams =>
      simp only [Bool.not_eq_true', Bool.or_eq_true, decide_eq_false_iff_not, decide_eq_true_eq, not_or, not_lt, not_not] at hparams
      obtain ⟨⟨hnodup, hcount⟩, -⟩ := hparams
      split
      · exact refl
      next hoffer =>
      split
      · exact refl
      next hstate =>
      have out (h : (s.agent a).home ≠ home ∨ u8 ps 2 = 0) : (s.agent a).state = .signedOut :=
        not_not.mp fun e => hstate ⟨h, e⟩
      split
      next hflag =>
        split
        · exact undefine a (out (.inr hflag))
        · exact refl
      · obtain ⟨defined, triggered⟩ := redefine a home ks (skillsOf_legal hks hnodup hcount) hoffer fun h => out (.inl h)
        dsimp only [Reply.ok]
        split
        next h => exact triggered h.1
        next => exact defined
    · exact refl

/-- The wait list and the channels are left alone. -/
structure OffStage (s t : State) : Prop where
  waitList : t.waitList = s.waitList
  channels : t.channels = s.channels

namespace OffStage

theorem refl (s : State) : OffStage s s := ⟨rfl, rfl⟩

theorem trans {s t u : State} (h : OffStage s t) (k : OffStage t u) : OffStage s u :=
  ⟨k.waitList.trans h.waitList, k.channels.trans h.channels⟩

theorem foldl {α : Type} {f : State → α → State} (h : ∀ s x, OffStage s (f s x)) (l : List α) (s : State) :
    OffStage s (l.foldl f s) := by
  induction l generalizing s with
  | nil => exact refl s
  | cons x l ih => exact (h s x).trans (ih _)

theorem ite {s t u : State} {c : Prop} [Decidable c] (h : c → OffStage s t) (k : ¬c → OffStage s u) :
    OffStage s (if c then t else u) := by
  split
  next e => exact h e
  next e => exact k e

theorem snd {α : Type} {s t : State} {x : α × State} {a : α} (h : OffStage s x.2) (e : x = (a, t)) : OffStage s t := by
  rw [e] at h
  exact h

theorem channel {s t : State} (h : OffStage s t) (j : ChannelNo) : t.channel j = s.channel j := congrArg (Vector.get · j) h.channels

theorem arbitrated {s t : State} (h : OffStage s t) (ha : Arbitrated s) : Arbitrated t := by
  unfold Arbitrated
  simp only [h.channel, h.waitList]
  exact ha

end OffStage

theorem handCall_offStage (s : State) (c : CallSlot) (k : CallNotice) : OffStage s (s.handCall c k) := by
  have placed (u : State) (p : Port) (f : PortRec → PortRec) : OffStage u (u.modPort p f) := by cases p <;> exact ⟨rfl, rfl⟩
  unfold State.handCall
  split
  · exact .refl s
  · dsimp only
    split
    · split
      · exact .refl s
      · exact placed s _ _
    · split
      · exact .refl s
      · exact .trans (t := s.modCall c fun r => r.setOwed k true) ⟨rfl, rfl⟩ (placed _ _ _)

theorem handAgentState_offStage (s : State) (a : AgentSlot) : OffStage s (s.handAgentState a) := by
  rw [handAgentState_rest]
  exact ⟨rfl, rfl⟩

theorem offStage_quiet : Quiet OffStage where
  refl := .refl
  trans := .trans
  plain h := ⟨h.waitList, h.channels⟩
  agent _ _ _ _ := ⟨rfl, rfl⟩
  call _ _ _ _ _ _ := ⟨rfl, rfl⟩
  enter _ _ _ _ _ _ _ := ⟨rfl, rfl⟩
  device _ _ _ := ⟨rfl, rfl⟩
  port _ p _ _ _ := by cases p <;> exact ⟨rfl, rfl⟩
  handWatch s := ⟨(handWatch_watch s).waitList, (handWatch_watch s).channels⟩
  handAgent := handAgentState_offStage
  handCall := handCall_offStage

/-- `t` leaves the arbiter nothing to do, if `s` does. -/
def KeepsArbitrated (s t : State) : Prop := Arbitrated s → Arbitrated t

theorem keepsArbitrated_quiet : Quiet KeepsArbitrated := by
  have off {s t : State} (h : OffStage s t) : KeepsArbitrated s t := h.arbitrated
  have w := offStage_quiet
  exact
    { refl := fun _ => id
      trans := fun h k => k ∘ h
      plain := fun h => off (w.plain h)
      agent := fun s a r h => off (w.agent s a r h)
      call := fun s c q r e h => off (w.call s c q r e h)
      enter := fun s c r e h1 h2 h3 => off (w.enter s c r e h1 h2 h3)
      device := fun s d h => off (w.device s d h)
      port := fun s p r h1 h2 => off (w.port s p r h1 h2)
      handWatch := fun s => off (w.handWatch s)
      handAgent := fun s a => off (w.handAgent s a)
      handCall := fun s c k => off (w.handCall s c k) }

theorem announce_arbitrated (s : State) (c : CallSlot) : KeepsArbitrated s (s.announce c) := by
  have written (f : CallRec → CallRec) : KeepsArbitrated s (s.modCall c f) := OffStage.arbitrated ⟨rfl, rfl⟩
  unfold State.announce
  split
  · exact id
  · split
    · exact id
    · split
      · split
        · exact fun _ => arbitrate_arbitrated _
        · exact fun _ => arbitrate_arbitrated _
        · exact written _
        · exact written _
      · exact id

theorem completeStep_arbitrated (s : State) (h : HighwayChannel) : KeepsArbitrated s (s.completeStep h) := by
  unfold State.completeStep
  split
  · exact id
  · exact keepsArbitrated_quiet.ite s (fun _ _ => arbitrate_arbitrated _) fun _ => id

theorem completeFill_arbitrated (s : State) (h : HighwayChannel) : KeepsArbitrated s (s.completeFill h) := by
  have w := keepsArbitrated_quiet
  unfold State.completeFill
  split
  · exact id
  next r _ =>
    refine w.ite s (fun _ => ?_) fun _ => id
    split
    · split
      next e => exact Quiet.snd (w.sourceReturn s _ _ r) e
      next e => exact w.trans (Quiet.snd (w.sourceReturn s _ _ r) e) (w.carrySource _ _ _ _)
    · exact fun _ => arbitrate_arbitrated _
    · exact id

/-- A frame replaces runs: a channel is BUSY after it exactly if it was before. -/
theorem putRun_arbitrated (s : State) (h : HighwayChannel) (r : Run) : KeepsArbitrated s (s.putRun h r) := by
  unfold State.putRun
  split
  · exact keepsArbitrated_quiet.source s _ _
  next i _ =>
    rintro (hl | hb)
    · exact .inl hl
    · refine .inr fun j => ?_
      rw [State.setChannel_channel]
      split
      · simpa using hb i
      · exact hb j

theorem playFrame_arbitrated (s : State) (h : HighwayChannel) : KeepsArbitrated s (s.playFrame h) := by
  have w := keepsArbitrated_quiet
  unfold State.playFrame
  split
  · exact id
  · refine w.ite s (fun _ => ?_) fun _ => putRun_arbitrated s h _
    split
    · exact putRun_arbitrated s h _
    · exact w.trans (w.trans (w.leaveSegment s _) (w.beginWord _ _)) (putRun_arbitrated _ h _)

theorem setPort_offStage (s : State) (p : Port) (r : PortRec) : OffStage s (s.setPort p r) := by cases p <;> exact ⟨rfl, rfl⟩

theorem clearOwed_offStage (s : State) (o : OwedPair) : OffStage s (s.clearOwed o) := by cases o <;> exact ⟨rfl, rfl⟩

theorem drain_offStage (p : Port) (l : List OwedPair) (s : State) : OffStage s (State.drain p l s) := by
  induction l generalizing s with
  | nil => exact .refl s
  | cons o rest ih =>
    have cleared : OffStage s ((s.modPort p fun r => { r with owed := rest }).clearOwed o) :=
      (setPort_offStage s p _).trans (clearOwed_offStage _ o)
    unfold State.drain
    dsimp only
    split
    · exact cleared.trans (ih _)
    · exact cleared.trans (setPort_offStage _ p _)

theorem actFetch_offStage (s : State) (p : Port) (ps : List Byte) : OffStage s (actFetch p ps s).state := by
  unfold actFetch
  split
  · exact .refl s
  next n rest _ =>
    have drained := (setPort_offStage s p { s.port p with notices := rest }).trans (drain_offStage p (s.port p).owed _)
    exact offStage_quiet.ite s (fun _ => drained.trans (offStage_quiet.raiseSweep _)) fun _ => drained

theorem writeAgent_offStage (s : State) (a : AgentSlot) (r : AgentRec) : OffStage s (s.writeAgent a r) := by
  rw [(writeAgent_staff s a r).rest]
  exact ⟨rfl, rfl⟩

theorem actAgentDefine_offStage (s : State) (ps : List Byte) : OffStage s (actAgentDefine ps s).state := by
  have removed (u : State) (p : Port) (o : OwedPair) : OffStage u (u.removeOwed p o) := setPort_offStage u p _
  refine actAgentDefine_lift s ps (.refl s) (fun a _ => (removed s _ _).trans (writeAgent_offStage _ _ _)) fun a x ks _ _ _ => ?_
  have defined : OffStage s (s.redefine a x ks) :=
    (offStage_quiet.ite s (fun _ => .refl s) fun _ => removed s _ _).trans (writeAgent_offStage _ _ _)
  exact ⟨defined, fun _ => defined.trans (offStage_quiet.raiseAgentTrigger _ a)⟩

theorem keepsArbitrated_acts : Acts KeepsArbitrated where
  toQuiet := keepsArbitrated_quiet
  connect _ _ _ _ _ := arbitrate_arbitrated _
  release _ _ _ _ := arbitrate_arbitrated _
  announce := announce_arbitrated
  completeStep := completeStep_arbitrated
  completeFill := completeFill_arbitrated
  playFrame := playFrame_arbitrated
  purge _ _ _ := arbitrate_arbitrated _
  define s ps := (actAgentDefine_offStage s ps).arbitrated
  fetch s p ps := (actFetch_offStage s p ps).arbitrated
  restarted _ _ := .inl rfl
  poweredOn _ _ := .inl rfl

/-- Settles O57, by the moves and writes that every step is made of and, for the arbiter, by the walk through the commands. -/
theorem everyStepKeepsTheStoreAndTheSlotMapLegal : Obligations.EveryStepKeepsTheStoreAndTheSlotMapLegal := by
  unfold Obligations.EveryStepKeepsTheStoreAndTheSlotMapLegal
  intro s t h
  exact ⟨step_keeps (fun _ _ => Move.storeLegal) (fun _ _ => Write.storeLegal) h,
    step_keeps (fun _ _ => Move.slotsApart) (fun _ _ => Write.slotsApart) h, keepsArbitrated_acts.step h⟩

end Sys2Proof.Machine

/-! A taken request is answered in the same step: no owning block touches the transaction side of a port (R181, R183). -/

namespace Sys2Proof.Machine

theorem keepsSlots_of_ports {s t : State} (h : ∀ p, t.port p = s.port p) : KeepsSlots s t :=
  ⟨fun p => by rw [h], fun p => by rw [h], fun p => by rw [h], fun p => by rw [h]⟩

theorem setPort_slots (s : State) (p : Port) (r : PortRec) (h1 : r.slot = (s.port p).slot) (h2 : r.response = (s.port p).response)
    (h3 : r.rejected = (s.port p).rejected) (h4 : r.shifted = (s.port p).shifted) : KeepsSlots s (s.setPort p r) := by
  have same (q : Port) : ((s.setPort p r).port q).slot = (s.port q).slot ∧ ((s.setPort p r).port q).response = (s.port q).response
      ∧ ((s.setPort p r).port q).rejected = (s.port q).rejected ∧ ((s.setPort p r).port q).shifted = (s.port q).shifted := by
    rw [State.setPort_port]
    split
    next e => exact e ▸ ⟨h1, h2, h3, h4⟩
    next => exact ⟨rfl, rfl, rfl, rfl⟩
  exact ⟨fun q => (same q).1, fun q => (same q).2.1, fun q => (same q).2.2.1, fun q => (same q).2.2.2⟩

theorem clearOwed_slots (s : State) (o : OwedPair) : KeepsSlots s (s.clearOwed o) :=
  keepsSlots_of_ports fun p => by cases o <;> cases p <;> rfl

theorem drain_slots (p : Port) (l : List OwedPair) (s : State) : KeepsSlots s (State.drain p l s) := by
  induction l generalizing s with
  | nil => exact .refl s
  | cons o rest ih =>
    have cleared : KeepsSlots s ((s.modPort p fun r => { r with owed := rest }).clearOwed o) :=
      (setPort_slots s p _ (by rfl) (by rfl) (by rfl) (by rfl)).trans (clearOwed_slots _ o)
    unfold State.drain
    dsimp only
    split
    · exact cleared.trans (ih _)
    · exact cleared.trans (setPort_slots _ p _ (by rfl) (by rfl) (by rfl) (by rfl))

theorem Write.slots {s t : State} (h : Write true s t) : KeepsSlots s t := by
  cases h with
  | restarted => constructor <;> intro p <;> cases p <;> rfl
  | define a r _ => exact writeAgent_slots s a r
  | fetch p n rest _ => exact (setPort_slots s p { s.port p with notices := rest } rfl rfl rfl rfl).trans (drain_slots p _ _)
  | line | stage | close | mask | maskDevice | tiebreak | ram | segment | program | vocab | idleLimit | slotMap | idleByte | enter
    | seqCounter => exact keepsSlots_of_ports fun p => by cases p <;> rfl
  | poweredOn e | pending _ e | tick e | draw _ e | highway _ e | slot _ _ e => cases e

theorem Works.slots {s t : State} (h : Works true s t) : KeepsSlots s t := by
  induction h with
  | refl => exact .refl s
  | tail _ work ih => exact ih.trans (work.elim Move.slots Write.slots)

theorem act_slots (k : Kind) (p : Port) (ps : List Byte) (s : State) : KeepsSlots s (actOf k p ps s).state := (act_works k p ps s).slots

/-- What a taken request leaves of the ports: its own answer, and the other ports' transaction sides (R181). -/
theorem exec_answers {s : State} {k : Kind} {p : Port} {ps : List Byte} (h : Takes s k p ps) :
    exec (k.command p (frame ps)) s = .next (State.answer p (actOf k p ps (s.taken p (frame ps))))
      ∧ Answered (State.answer p (actOf k p ps (s.taken p (frame ps)))) p (actOf k p ps (s.taken p (frame ps))).result
          (actOf k p ps (s.taken p (frame ps))).content
      ∧ OtherSlots s (State.answer p (actOf k p ps (s.taken p (frame ps)))) p :=
  ⟨exec_taken h, answer_answered (act_slots k p ps _), answer_otherSlots (act_slots k p ps _)⟩

theorem frame_length (ps : List Byte) : (frame ps).length = 2 + ps.length := by simp [frame]

theorem frame_eq (ps : List Byte) : frame ps = BitVec.ofNat 8 (ps.length / 256) :: BitVec.ofNat 8 ps.length :: ps := by
  simp [frame, bytesBE]

/-- Settles O9: the owning block's work is moves and writes, which keep the transaction side of every port. -/
theorem takenRequestIsAnsweredOnItsPort : Obligations.TakenRequestIsAnsweredOnItsPort := by
  unfold Obligations.TakenRequestIsAnsweredOnItsPort
  refine ⟨frame_eq, ?_, ?_⟩
  · simp only [List.forall_mem_cons]
    simp [responseRecord, Result.code, Result.hasContent, frame_eq]
  · intro s k p ps h
    obtain ⟨next, answered, others⟩ := exec_answers h
    refine ⟨_, _, _, next, answered, ?_, others⟩
    rw [answer_eq, State.setPort_port_self, (act_slots k p ps _).shifted p, taken_eq, State.setPort_port_self]
    simp [frame_length]
    omega

end Sys2Proof.Machine

/-! The ports (R187): the bounds of the queues, and the agreement of the owed lists with the owed flags. -/

namespace Sys2Proof.Machine

/-! ### The purge up to the emptying of the port (R194) -/

/-- The calls of shelf `x` freed and its agents signed out: the purge before its port is emptied. -/
def State.purgeWork (s : State) (x : Shelf) : State :=
  let s1 := (s.callsOf x).foldl (State.purgeCall x) s
  (s1.agentsOf x).foldl State.purgeAgent s1

theorem leaveQueue_agents (s : State) (c : CallSlot) (g : Group) : (s.leaveQueue c g).agents = s.agents :=
  (evalQueue_watch (s.modGroup g _) g).agents

theorem detach_agents (s : State) (c : CallSlot) : (s.detach c).agents = s.agents :=
  (detach_play (C := fun _ => True) (W := true) s (c := c) trivial rfl).off.agents

theorem freeCall_agents (s : State) (c : CallSlot) : (s.freeCall c).agents = s.agents := by
  unfold State.freeCall
  split
  · rfl
  · simp only [State.removeOwed, State.modPort_eq, State.putCall_agents, State.setPort_agents, detach_agents]
    split
    · exact leaveQueue_agents s c _
    · rfl

namespace Full
variable {R : State → State → Prop} (w : Full R) (s : State)
include w

theorem purgeOffer (x : Shelf) (c : CallSlot) (r : CallRec) (a : AgentSlot) :
    R s (s.purgeOffer x c r a) := by
  unfold State.purgeOffer
  have counted := w.trans (w.modCall s c (fun k => { k with boundAgent := none, ring := none })
    (by exact fun _ => ⟨rfl, rfl, rfl, rfl⟩)) (w.modStats _ r.group fun q => { q with purged := bump q.purged })
  refine w.trans (w.trans (w.ite s (fun _ => ?_) fun _ => w.trans (w.trans counted (w.freeAgent _ a)) (w.freeCall _ c))
    (w.endOffer _ _)) (w.swapIfQuiet _ _)
  refine w.trans (w.trans counted (w.freeCall _ c)) (w.changeAgent _ a _ true ?_)
  have same (u : State) (h : u.agents = s.agents) : (u.agent a).SameOwed (s.agent a).toSignedOut := by
    rw [show u.agent a = s.agent a from congrArg (Vector.get · a) h]
    exact toSignedOut_sameOwed _
  exact same _ (freeCall_agents _ c)

theorem purgeConnected (x : Shelf) (c : CallSlot) (r : CallRec) (a : AgentSlot) : R s (s.purgeConnected x c r a) := by
  unfold State.purgeConnected
  have unbound := w.modCall s c (fun k => { k with boundAgent := none }) (by exact fun _ => ⟨rfl, rfl, rfl, rfl⟩)
  exact w.trans (w.ite s (fun _ => w.trans unbound (w.changeAgent _ a _ _ (by exact ⟨rfl, rfl⟩)))
    fun _ => w.trans unbound (w.endConnected _ a _ _)) (w.freeCall _ c)

theorem purgeCall (x : Shelf) (c : CallSlot) : R s (State.purgeCall x s c) := by
  unfold State.purgeCall
  split
  · exact w.refl s
  · split
    · exact w.trans (w.modStats s _ _) (w.freeCall _ c)
    · exact w.purgeOffer s x c _ _
    · exact w.purgeConnected s x c _ _
    · exact w.freeCall s c

theorem purgeAgent (a : AgentSlot) : R s (State.purgeAgent s a) := by
  unfold State.purgeAgent
  dsimp only
  split
  · exact w.refl s
  · exact w.changeAgent s a _ _ (toSignedOut_sameOwed _)
  · exact w.changeAgent s a _ _ (toSignedOut_sameOwed _)
  · exact w.changeAgent s a _ _ (toSignedOut_sameOwed _)
  · exact w.withdraw s a _ _ (toSignedOut_sameOwed _)
  · exact w.recordPending s a _

theorem purgeWork (x : Shelf) : R s (s.purgeWork x) :=
  w.trans (w.foldl (fun u c => w.purgeCall u x c) _ s) (w.foldl (fun u a => w.purgeAgent u a) _ _)

/-- What `Full` walks, with the operations that move owners, homes and owed flags, is what every command is made of. -/
theorem acts (clearPort : ∀ s x, R s ((State.purgeWork s x).clearPort x)) (define : ∀ s ps, R s (actAgentDefine ps s).state)
    (fetch : ∀ s p ps, R s (actFetch p ps s).state) (restarted : ∀ s : State, R s s.restarted)
    (poweredOn : ∀ s : State, R s s.poweredOn) : Acts R where
  toQuiet := w.toQuiet
  connect s a c r := w.connect s a c r
  release s c r := w.trans (w.release s c r) (w.arbitrate _)
  announce s c := w.announce s c
  completeStep s h := w.completeStep s h
  completeFill s h := w.completeFill s h
  playFrame s h := w.playFrame s h
  purge s x := w.trans (w.trans (clearPort s x) (w.raisePurgeDone _)) (w.arbitrate _)
  define := define
  fetch := fetch
  restarted := restarted
  poweredOn := poweredOn

end Full

/-! ### The bounds of the queues -/

theorem PortsLegal.congr {s t : State} (hn : ∀ p, (t.port p).notices = (s.port p).notices) (ho : ∀ p, (t.port p).owed = (s.port p).owed)
    (h : PortsLegal s) : PortsLegal t :=
  ⟨fun p => by rw [hn]; exact h.bounded p, fun p e => by rw [hn]; exact h.owed p (by rwa [ho] at e)⟩

theorem PortsLegal.setPort {s : State} (h : PortsLegal s) (p : Port) {r : PortRec} (hn : r.notices.length ≤ Config.noticeCapacity)
    (ho : r.owed ≠ [] → r.notices.length = Config.noticeCapacity) : PortsLegal (s.setPort p r) := by
  constructor
  · intro q
    rw [State.setPort_port]
    split
    · exact hn
    · exact h.bounded q
  · intro q
    rw [State.setPort_port]
    split
    · exact ho
    · exact h.owed q

theorem hasRoom_iff (s : State) (p : Port) : s.hasRoom p = true ↔ (s.port p).notices.length < 64 := decide_eq_true_iff

theorem PortsLegal.pushNotice {s : State} (h : PortsLegal s) {p : Port} (n : Notice) (room : s.hasRoom p = true) :
    PortsLegal (s.pushNotice p n) := by
  have short := (hasRoom_iff s p).mp room
  refine h.setPort p ?_ fun e => ?_
  · simp only [List.length_append, List.length_singleton]
    exact short
  · have := h.owed p e
    simp only [Config.noticeCapacity] at this
    omega

theorem PortsLegal.appendOwed {s : State} (h : PortsLegal s) {p : Port} (o : OwedPair) (full : s.hasRoom p = false) :
    PortsLegal (s.appendOwed p o) := by
  have long : ¬(s.port p).notices.length < 64 := fun e => by simp [(hasRoom_iff s p).mpr e] at full
  have := h.bounded p
  exact h.setPort p this fun _ => Nat.le_antisymm this (not_lt.mp long)

/-- `t` has legal ports, if `s` has. -/
def KeepsPorts (s t : State) : Prop := PortsLegal s → PortsLegal t

theorem keepsPorts_of_ports {s t : State} (h : ∀ p, t.port p = s.port p) : KeepsPorts s t :=
  PortsLegal.congr (fun p => by rw [h]) fun p => by rw [h]

theorem handWatch_ports (s : State) : KeepsPorts s s.handWatch := by
  intro h
  unfold State.handWatch
  split
  next room =>
    split
    · exact h
    · exact h.pushNotice _ room
  next full =>
    split
    · exact h
    · have h' : PortsLegal (s.setDevice { s.device with watchOwed := true }) := keepsPorts_of_ports (fun p => by cases p <;> rfl) h
      exact h'.appendOwed _ (by simpa using full)

theorem handAgentState_ports (s : State) (a : AgentSlot) : KeepsPorts s (s.handAgentState a) := by
  intro h
  unfold State.handAgentState
  dsimp only
  split
  next room => exact h.pushNotice _ room
  next full =>
    split
    · exact h
    · have h' : PortsLegal (s.setAgent a { s.agent a with owed := true }) :=
        keepsPorts_of_ports (fun p => by cases p <;> rfl) h
      exact h'.appendOwed _ (by simpa using full)

theorem handCall_ports (s : State) (c : CallSlot) (k : CallNotice) : KeepsPorts s (s.handCall c k) := by
  intro h
  unfold State.handCall
  split
  · exact h
  · dsimp only
    split
    next room =>
      split
      · exact h
      · exact h.pushNotice _ room
    next full =>
      split
      · exact h
      · have h' : PortsLegal (s.modCall c fun r => r.setOwed k true) := keepsPorts_of_ports (fun p => by cases p <;> rfl) h
        exact h'.appendOwed _ (by simpa [State.modCall_eq] using full)

theorem removeOwed_ports (s : State) (p : Port) (o : OwedPair) : KeepsPorts s (s.removeOwed p o) := by
  intro h
  refine h.setPort p (h.bounded p) fun e => h.owed p fun h0 => e ?_
  simp [h0]

theorem keepsPorts_full : Full KeepsPorts where
  refl _ := id
  trans h k := k ∘ h
  plain h := keepsPorts_of_ports (State.same_ports h.portA h.portB h.portS)
  agent _ _ _ _ := keepsPorts_of_ports fun p => by cases p <;> rfl
  call _ _ _ _ _ _ := keepsPorts_of_ports fun p => by cases p <;> rfl
  enter _ _ _ _ _ _ _ := keepsPorts_of_ports fun p => by cases p <;> rfl
  device _ _ _ := keepsPorts_of_ports fun p => by cases p <;> rfl
  port s p r hn ho h := h.setPort p (hn ▸ h.bounded p) fun e => hn ▸ h.owed p (ho ▸ e)
  handWatch := handWatch_ports
  handAgent := handAgentState_ports
  handCall := handCall_ports
  waitList _ _ := keepsPorts_of_ports fun p => by cases p <;> rfl
  channel _ _ _ := keepsPorts_of_ports fun p => by cases p <;> rfl
  free s c r _ h :=
    have removed := removeOwed_ports _ _ _ (removeOwed_ports _ _ _ (removeOwed_ports s _ _ h))
    keepsPorts_of_ports (fun p => by cases p <;> rfl) removed

theorem clearOwed_port (s : State) (o : OwedPair) (p : Port) : (s.clearOwed o).port p = s.port p := by cases o <;> cases p <;> rfl

/-- A port that has just given a notice away, or has no pair owed, gets a legal queue by the drain of its owed list (R188). -/
theorem drain_ports (p : Port) (l : List OwedPair) (s : State) (hl : (s.port p).owed = l)
    (others : ∀ q, q ≠ p → (s.port q).notices.length ≤ 64 ∧ ((s.port q).owed ≠ [] → (s.port q).notices.length = 64))
    (bounded : (s.port p).notices.length ≤ 64) (given : l ≠ [] → (s.port p).notices.length = 63) :
    PortsLegal (State.drain p l s) := by
  induction l generalizing s with
  | nil =>
    refine ⟨fun q => ?_, fun q e => ?_⟩ <;> by_cases hq : q = p
    · exact hq ▸ bounded
    · exact (others q hq).1
    · exact absurd hl (hq ▸ e)
    · exact (others q hq).2 e
  | cons o rest ih =>
    have given : (s.port p).notices.length = 63 := given (by simp)
    unfold State.drain
    dsimp only
    have here : ((s.modPort p fun r => { r with owed := rest }).clearOwed o).port p = { s.port p with owed := rest } := by
      rw [clearOwed_port, State.modPort_eq, State.setPort_port_self]
    have elsewhere (q : Port) (hq : q ≠ p) : ((s.modPort p fun r => { r with owed := rest }).clearOwed o).port q = s.port q := by
      rw [clearOwed_port, State.modPort_eq, State.setPort_port_of_ne s _ hq]
    generalize (s.modPort p fun r => { r with owed := rest }).clearOwed o = u at here elsewhere
    split
    · refine ih u (by rw [here]) (fun q hq => ?_) (by rw [here]; exact bounded) fun _ => by rw [here]; exact given
      rw [elsewhere q hq]
      exact others q hq
    next n _ =>
      have placed : ((u.pushNotice p n).port p).notices.length = 64 := by
        simp [State.pushNotice, State.modPort_eq, here, given]
      refine ⟨fun q => ?_, fun q e => ?_⟩ <;> by_cases hq : q = p
      · exact hq ▸ placed.le
      · rw [State.pushNotice, State.modPort_eq, State.setPort_port_of_ne u _ hq, elsewhere q hq]
        exact (others q hq).1
      · exact hq ▸ placed
      · rw [State.pushNotice, State.modPort_eq, State.setPort_port_of_ne u _ hq, elsewhere q hq] at e ⊢
        exact (others q hq).2 e

theorem actFetch_ports (s : State) (p : Port) (ps : List Byte) : KeepsPorts s (actFetch p ps s).state := by
  intro h
  unfold actFetch
  split
  · exact h
  next n rest hn =>
    have bound := h.bounded p
    have full := h.owed p
    simp only [hn, List.length_cons, Config.noticeCapacity] at bound full
    have drained : PortsLegal (State.drain p (s.port p).owed (s.modPort p fun r => { r with notices := rest })) := by
      refine drain_ports p _ _ ?_ (fun q hq => ?_) ?_ fun e => ?_
      · rw [State.modPort_eq, State.setPort_port_self]
      · rw [State.modPort_eq, State.setPort_port_of_ne s _ hq]
        exact ⟨h.bounded q, h.owed q⟩
      · rw [State.modPort_eq, State.setPort_port_self]
        dsimp only
        omega
      · rw [State.modPort_eq, State.setPort_port_self]
        have := full e
        dsimp only
        omega
    exact keepsPorts_full.ite s (fun _ _ => keepsPorts_full.raiseSweep _ drained) (fun _ _ => drained) h

theorem clearPort_ports (s : State) (x : Shelf) : KeepsPorts s (s.clearPort x) := by
  intro h
  have emptied : PortsLegal (s.modPort (portOf x) fun r => { r with notices := [], owed := [] }) :=
    h.setPort (portOf x) (Nat.zero_le _) fun e => absurd rfl e
  exact keepsPorts_of_ports (fun p => by cases p <;> rfl) emptied

theorem actAgentDefine_ports (s : State) (ps : List Byte) : KeepsPorts s (actAgentDefine ps s).state := by
  have w := keepsPorts_full
  have written (u : State) (a : AgentSlot) (r : AgentRec) : KeepsPorts u (u.writeAgent a r) :=
    w.trans (t := u.setAgent a r) (keepsPorts_of_ports fun p => by cases p <;> rfl)
      (w.foldl (fun u g => w.restaff u _ _ g) _ _)
  refine actAgentDefine_lift s ps (w.refl s) (fun a _ => w.trans (removeOwed_ports s _ _) (written _ _ _)) fun a x ks _ _ _ => ?_
  have defined : KeepsPorts s (s.redefine a x ks) :=
    w.trans (w.ite s (fun _ => w.refl s) fun _ => removeOwed_ports s _ _) (written _ _ _)
  exact ⟨defined, fun _ => w.trans defined (w.raiseAgentTrigger _ a)⟩

theorem keepsPorts_acts : Acts KeepsPorts :=
  keepsPorts_full.acts (fun s x => keepsPorts_full.trans (keepsPorts_full.purgeWork s x) (clearPort_ports _ x)) actAgentDefine_ports
    actFetch_ports (fun _ _ => ⟨fun p => by cases p <;> exact Nat.zero_le _, fun p e => by cases p <;> exact absurd rfl e⟩)
    fun _ _ => ⟨fun p => by cases p <;> exact Nat.zero_le _, fun p e => by cases p <;> exact absurd rfl e⟩

end Sys2Proof.Machine

/-! The owed lists and the owed flags agree (R187): which port a pair is owed on, read from the records, and the writes that keep the
lists in step. -/

namespace Sys2Proof.Machine

/-- The record of a pair says that it is owed on port `p` (R187). -/
def State.owesOn (s : State) (p : Port) : OwedPair → Prop
  | .agentState a => (s.agent a).owed = true ∧ p = portOf (s.agent a).home
  | .call c k => ∃ r, s.call c = some r ∧ p = portOf r.owner ∧ r.owes k = true
  | .watch => s.device.watchOwed = true ∧ p = .s

theorem owedLegal_iff (s : State) :
    OwedLegal s ↔ ∀ p, (s.port p).owed.Nodup ∧ ∀ o, o ∈ (s.port p).owed ↔ s.owesOn p o := by
  constructor
  · intro h p
    refine ⟨h.once p, fun o => ?_⟩
    cases o with
    | agentState a => exact h.agents p a
    | call c k =>
      refine (h.calls p c k).trans ?_
      cases k <;> exact Iff.rfl
    | watch => exact h.watch p
  · intro h
    refine ⟨fun p => (h p).1, fun p a => (h p).2 _, fun p c k => ((h p).2 _).trans ?_, fun p => (h p).2 _⟩
    cases k <;> exact Iff.rfl

/-- No pair is owed on two ports. -/
theorem owesOn_port {s : State} {p q : Port} {o : OwedPair} (h : s.owesOn p o) (k : s.owesOn q o) : p = q := by
  cases o with
  | agentState a => exact h.2.trans k.2.symm
  | call c n =>
    obtain ⟨r, hr, hp, -⟩ := h
    obtain ⟨r', hr', hq, -⟩ := k
    rw [hr] at hr'
    cases hr'
    exact hp.trans hq.symm
  | watch => exact h.2.trans k.2.symm

/-! ### The three ways in which lists and flags change together -/

theorem OwedLegal.congr {s t : State} (h : OwedLegal s) (lists : ∀ p, (t.port p).owed = (s.port p).owed)
    (flags : ∀ p o, t.owesOn p o ↔ s.owesOn p o) : OwedLegal t := by
  rw [owedLegal_iff] at h ⊢
  intro p
  rw [lists]
  exact ⟨(h p).1, fun o => ((h p).2 o).trans (flags p o).symm⟩

/-- A pair that is not owed comes to be: it goes to the tail of its port's list and its flag is set. -/
theorem OwedLegal.owe {s t : State} (h : OwedLegal s) (p : Port) (o : OwedPair) (new : ∀ q, ¬s.owesOn q o)
    (lists : ∀ q, (t.port q).owed = if q = p then (s.port q).owed ++ [o] else (s.port q).owed)
    (flags : ∀ q n, t.owesOn q n ↔ s.owesOn q n ∨ (q = p ∧ n = o)) : OwedLegal t := by
  rw [owedLegal_iff] at h ⊢
  intro q
  have old := (h q).2
  rw [lists]
  split
  next e =>
    refine ⟨(h q).1.append (List.nodup_singleton o) ?_, fun n => ?_⟩
    · exact List.disjoint_singleton.mpr fun m => new q ((old o).mp m)
    · rw [List.mem_append, List.mem_singleton, old, flags]
      simp [e]
  next e =>
    refine ⟨(h q).1, fun n => ?_⟩
    rw [old, flags]
    simp [e]

/-- The pairs that do not satisfy `keep` leave the lists, and their flags are cleared. -/
theorem OwedLegal.drop {s t : State} (h : OwedLegal s) (keep : Port → OwedPair → Bool)
    (lists : ∀ p, (t.port p).owed = (s.port p).owed.filter (keep p))
    (flags : ∀ p o, t.owesOn p o ↔ s.owesOn p o ∧ keep p o = true) : OwedLegal t := by
  rw [owedLegal_iff] at h ⊢
  intro p
  rw [lists]
  refine ⟨(h p).1.filter _, fun o => ?_⟩
  rw [List.mem_filter, (h p).2, flags]

/-! ### What a write leaves of the flags -/

/-- `t` has owed lists that agree with the flags, if `s` has. -/
def KeepsOwed (s t : State) : Prop := OwedLegal s → OwedLegal t

/-- Records that keep their owed parts keep what is owed. -/
theorem owesOn_congr {s t : State} (agents : ∀ a, (s.agent a).SameOwed (t.agent a))
    (calls : ∀ c, (s.call c = none ∧ t.call c = none) ∨ ∃ q r, s.call c = some q ∧ t.call c = some r ∧ q.SameOwed r)
    (watch : t.device.watchOwed = s.device.watchOwed) (p : Port) (o : OwedPair) : t.owesOn p o ↔ s.owesOn p o := by
  cases o with
  | agentState a => simp only [State.owesOn, (agents a).home, (agents a).owed]
  | call c k =>
    rcases calls c with ⟨hs, ht⟩ | ⟨q, r, hs, ht, same⟩
    · simp [State.owesOn, hs, ht]
    · have owes : r.owes k = q.owes k := by
        cases k
        · exact same.listen
        · exact same.connect
        · exact same.cleared
      simp [State.owesOn, hs, ht, same.owner, owes]
  | watch => simp only [State.owesOn, watch]

theorem callsSame {s t : State} (h : ∀ c, t.call c = s.call c) (c : CallSlot) :
    (s.call c = none ∧ t.call c = none) ∨ ∃ q r, s.call c = some q ∧ t.call c = some r ∧ q.SameOwed r := by
  cases e : s.call c with
  | none => exact .inl ⟨rfl, (h c).trans e⟩
  | some r => exact .inr ⟨r, r, rfl, (h c).trans e, rfl, rfl, rfl, rfl⟩

theorem keepsOwed_of_records {s t : State} (lists : ∀ p, (t.port p).owed = (s.port p).owed)
    (agents : ∀ a, t.agent a = s.agent a) (calls : ∀ c, t.call c = s.call c) (watch : t.device.watchOwed = s.device.watchOwed) :
    KeepsOwed s t := fun h =>
  h.congr lists (owesOn_congr (fun a => by rw [agents]; exact ⟨rfl, rfl⟩) (callsSame calls) watch)

theorem putCall_owed {s : State} {c : CallSlot} {q r : CallRec} (e : s.call c = some q) (h : q.SameOwed r) :
    KeepsOwed s (s.putCall c (some r)) := fun hs => by
  refine hs.congr (fun p => by cases p <;> rfl) (owesOn_congr (fun a => ⟨rfl, rfl⟩) (fun d => ?_) rfl)
  by_cases hd : d = c
  · subst hd
    exact .inr ⟨q, r, e, State.putCall_call_self s d _, h⟩
  · have other := State.putCall_call_of_ne s (some r) hd
    cases hs : s.call d with
    | none => exact .inl ⟨rfl, other.trans hs⟩
    | some k => exact .inr ⟨k, k, rfl, other.trans hs, rfl, rfl, rfl, rfl⟩

theorem setAgent_owed {s : State} {a : AgentSlot} {r : AgentRec} (h : (s.agent a).SameOwed r) : KeepsOwed s (s.setAgent a r) := fun hs => by
  refine hs.congr (fun p => by cases p <;> rfl) (owesOn_congr (fun b => ?_) (callsSame fun c => rfl) rfl)
  rw [State.setAgent_agent]
  split
  next e => exact e ▸ h
  next => exact ⟨rfl, rfl⟩

/-- A call that enters a free slot owes nothing, and no pair of its slot is on a list. -/
theorem enter_owed {s : State} {c : CallSlot} {r : CallRec} (e : s.call c = none) (h : ∀ k, r.owes k = false) :
    KeepsOwed s (s.putCall c (some r)) := fun hs => by
  refine hs.congr (fun p => by cases p <;> rfl) fun p o => ?_
  cases o with
  | agentState a => exact Iff.rfl
  | call d k =>
    by_cases hd : d = c
    · subst hd
      simp [State.owesOn, State.putCall_call_self, e, h]
    · simp [State.owesOn, State.putCall_call_of_ne s _ hd]
  | watch => exact Iff.rfl

/-! ### The handing of notices -/

theorem pushNotice_owed (s : State) (p : Port) (n : Notice) : KeepsOwed s (s.pushNotice p n) :=
  keepsOwed_of_records (fun q => by
    rw [State.pushNotice, State.modPort_eq, State.setPort_port]
    split
    next e => rw [e]
    next => rfl) (fun a => by cases p <;> rfl) (fun c => by cases p <;> rfl) (by cases p <;> rfl)

theorem appendOwed_lists (s : State) (p : Port) (o : OwedPair) (q : Port) :
    ((s.appendOwed p o).port q).owed = if q = p then (s.port q).owed ++ [o] else (s.port q).owed := by
  rw [State.appendOwed, State.modPort_eq, State.setPort_port]
  split
  next e => rw [e]
  next => rfl

theorem setPort_owesOn (s : State) (p : Port) (r : PortRec) (q : Port) (o : OwedPair) : (s.setPort p r).owesOn q o ↔ s.owesOn q o := by
  cases p <;> cases o <;> exact Iff.rfl

theorem handWatch_owed (s : State) : KeepsOwed s s.handWatch := by
  unfold State.handWatch
  split
  · split
    · exact id
    · exact pushNotice_owed s _ _
  · split
    · exact id
    next clear =>
      intro h
      refine h.owe .s .watch (fun q e => clear e.1) (fun q => ?_) fun q n => ?_
      · rw [appendOwed_lists]
        rfl
      · rw [State.appendOwed, State.modPort_eq, setPort_owesOn]
        cases n with
        | watch => simp [State.owesOn, clear]
        | agentState a => simp [State.owesOn]
        | call c k => simp [State.owesOn]

theorem handAgentState_owed (s : State) (a : AgentSlot) : KeepsOwed s (s.handAgentState a) := by
  unfold State.handAgentState
  dsimp only
  split
  · exact pushNotice_owed s _ _
  · split
    · exact id
    next clear =>
      intro h
      refine h.owe (portOf (s.agent a).home) (.agentState a) (fun q e => clear e.1) (fun q => ?_) fun q n => ?_
      · rw [appendOwed_lists]
        rfl
      · rw [State.appendOwed, State.modPort_eq, setPort_owesOn]
        cases n with
        | agentState b =>
          by_cases hb : b = a
          · subst hb
            simp [State.owesOn, clear]
          · simp [State.owesOn, State.setAgent_agent_of_ne s _ hb, hb]
        | watch => simp [State.owesOn]
        | call c k => simp [State.owesOn]

theorem setOwed_owes (r : CallRec) (k n : CallNotice) (v : Bool) : (r.setOwed k v).owes n = if n = k then v else r.owes n := by
  cases k <;> cases n <;> rfl

theorem setOwed_owner (r : CallRec) (k : CallNotice) (v : Bool) : (r.setOwed k v).owner = r.owner := by cases k <;> rfl

theorem handCall_owed (s : State) (c : CallSlot) (k : CallNotice) : KeepsOwed s (s.handCall c k) := by
  unfold State.handCall
  split
  · exact id
  next r hr =>
    dsimp only
    split
    · split
      · exact id
      · exact pushNotice_owed s _ _
    · split
      · exact id
      next clear =>
        intro h
        refine h.owe (portOf r.owner) (.call c k) ?_ (fun q => ?_) fun q n => ?_
        · rintro q ⟨r', hr', -, ho⟩
          rw [hr] at hr'
          cases hr'
          exact clear ho
        · rw [appendOwed_lists]
          rfl
        · rw [State.appendOwed, State.modPort_eq, setPort_owesOn]
          cases n with
          | call d m =>
            by_cases hd : d = c
            · subst hd
              simp only [State.owesOn, State.modCall_eq, State.putCall_call_self, hr, Option.map_some, Option.some.injEq,
                exists_eq_left', setOwed_owner, setOwed_owes, OwedPair.call.injEq, true_and]
              by_cases hm : m = k
              · subst hm
                simp [clear]
              · simp [hm]
            · simp [State.owesOn, State.modCall_eq, State.putCall_call_of_ne s _ hd, hd]
          | watch => simp [State.owesOn, State.modCall_eq]
          | agentState b => simp [State.owesOn, State.modCall_eq]

/-! ### Pairs that leave the lists -/

theorem removeOwed_lists (s : State) (p : Port) (o : OwedPair) (q : Port) :
    ((s.removeOwed p o).port q).owed = (s.port q).owed.filter fun n => q != p || n != o := by
  rw [State.removeOwed, State.modPort_eq, State.setPort_port]
  split
  next e =>
    subst e
    simp
  next e =>
    have other : (q != p) = true := bne_iff_ne.mpr e
    simp [other]

/-- The freeing of a call takes its pairs with it (R55). -/
theorem free_owed (s : State) (c : CallSlot) (r : CallRec) (e : s.call c = some r) :
    KeepsOwed s ((((s.removeOwed (portOf r.owner) (.call c .listen)).removeOwed (portOf r.owner) (.call c .connect)).removeOwed
      (portOf r.owner) (.call c .cleared)).putCall c none) := fun h => by
  refine h.drop (fun p o => p != portOf r.owner || (o != .call c .listen && o != .call c .connect && o != .call c .cleared))
    (fun p => ?_) fun p o => ?_
  · rw [show ∀ u : State, ((u.putCall c none).port p).owed = (u.port p).owed from fun u => by cases p <;> rfl,
      removeOwed_lists, removeOwed_lists, removeOwed_lists, List.filter_filter, List.filter_filter]
    refine List.filter_congr fun o _ => ?_
    cases p != portOf r.owner <;> simp [Bool.and_comm, Bool.and_left_comm, Bool.and_assoc]
  · have here (u : State) : (u.putCall c none).owesOn p o ↔ u.owesOn p o ∧ ∀ k, o ≠ .call c k := by
      cases o with
      | call d k =>
        by_cases hd : d = c
        · subst hd
          simp [State.owesOn]
        · simp [State.owesOn, State.putCall_call_of_ne u _ hd, hd]
      | watch => simp [State.owesOn]
      | agentState a => simp [State.owesOn]
    rw [here]
    simp only [State.removeOwed, State.modPort_eq, setPort_owesOn]
    constructor
    · rintro ⟨owed, other⟩
      simp [owed, other]
    · rintro ⟨owed, kept⟩
      refine ⟨owed, fun k ho => ?_⟩
      subst ho
      obtain ⟨r', hr', hp, -⟩ := owed
      rw [e] at hr'
      cases hr'
      cases k <;> simp [hp] at kept

theorem keepsOwed_full : Full KeepsOwed where
  refl _ := id
  trans h k := k ∘ h
  plain h := keepsOwed_of_records (fun p => by rw [State.same_ports h.portA h.portB h.portS p])
    (fun a => congrArg (Vector.get · a) h.agents) (fun c => congrArg (Vector.get · c) h.calls) (by rw [h.device])
  agent _ _ _ h := setAgent_owed h
  call _ _ _ _ e h := putCall_owed e h
  enter _ _ _ e h1 h2 h3 := enter_owed e fun k => by
    cases k
    · exact h1
    · exact h2
    · exact h3
  device _ _ h := keepsOwed_of_records (fun p => by cases p <;> rfl) (fun _ => rfl) (fun _ => rfl) h
  port s p r _ h := keepsOwed_of_records (fun q => by
    rw [State.setPort_port]
    split
    next e => exact e ▸ h
    next => rfl) (fun a => by cases p <;> rfl) (fun c => by cases p <;> rfl) (by cases p <;> rfl)
  handWatch := handWatch_owed
  handAgent := handAgentState_owed
  handCall := handCall_owed
  waitList _ _ := keepsOwed_of_records (fun p => by cases p <;> rfl) (fun _ => rfl) (fun _ => rfl) rfl
  channel _ _ _ := keepsOwed_of_records (fun p => by cases p <;> rfl) (fun _ => rfl) (fun _ => rfl) rfl
  free := free_owed

/-! ### FETCH (R188) -/

theorem clearOwed_owesOn (s : State) (o : OwedPair) (p : Port) (n : OwedPair) :
    (s.clearOwed o).owesOn p n ↔ s.owesOn p n ∧ n ≠ o := by
  cases o with
  | agentState a =>
    cases n with
    | agentState b =>
      by_cases hb : b = a
      · subst hb
        simp [State.owesOn, State.clearOwed]
      · simp [State.owesOn, State.clearOwed, State.setAgent_agent_of_ne s _ hb, hb]
    | call d k => simp [State.owesOn, State.clearOwed]
    | watch => simp [State.owesOn, State.clearOwed]
  | call c k =>
    cases n with
    | call d m =>
      by_cases hd : d = c
      · subst hd
        simp only [State.owesOn, State.clearOwed, State.modCall_eq, State.putCall_call_self, Option.map_eq_some_iff, ne_eq,
          OwedPair.call.injEq, true_and]
        constructor
        · rintro ⟨_, ⟨r, hr, rfl⟩, hp, ho⟩
          rw [setOwed_owner] at hp
          rw [setOwed_owes] at ho
          split at ho
          · cases ho
          next hm => exact ⟨⟨r, hr, hp, ho⟩, hm⟩
        · rintro ⟨⟨r, hr, hp, ho⟩, hm⟩
          exact ⟨_, ⟨r, hr, rfl⟩, by rw [setOwed_owner]; exact hp, by rw [setOwed_owes, if_neg hm]; exact ho⟩
      · simp [State.owesOn, State.clearOwed, State.modCall_eq, State.putCall_call_of_ne s _ hd, hd]
    | agentState b => simp [State.owesOn, State.clearOwed, State.modCall_eq]
    | watch => simp [State.owesOn, State.clearOwed, State.modCall_eq]
  | watch => cases n <;> simp [State.owesOn, State.clearOwed]

/-- The head of an owed list leaves it with its flag. -/
theorem dropHead_owed {s : State} (h : OwedLegal s) (p : Port) (o : OwedPair) (rest : List OwedPair) (hl : (s.port p).owed = o :: rest) :
    OwedLegal ((s.modPort p fun r => { r with owed := rest }).clearOwed o) := by
  have nodup := h.once p
  rw [hl, List.nodup_cons] at nodup
  refine h.drop (fun _ n => n != o) (fun q => ?_) fun q n => ?_
  · rw [clearOwed_port, State.modPort_eq, State.setPort_port]
    have absent (l : List OwedPair) (hn : o ∉ l) : l.filter (· != o) = l :=
      List.filter_eq_self.mpr fun n hn' => bne_iff_ne.mpr fun e => hn (e ▸ hn')
    split
    next e => simp [e, hl, absent rest nodup.1]
    next e =>
      refine (absent _ fun m => e ?_).symm
      have here : s.owesOn p o := (((owedLegal_iff s).mp h p).2 o).mp (by rw [hl]; exact List.mem_cons_self)
      exact owesOn_port ((((owedLegal_iff s).mp h q).2 o).mp m) here
  · rw [clearOwed_owesOn, State.modPort_eq, setPort_owesOn, bne_iff_ne]

theorem drain_owed (p : Port) (l : List OwedPair) (s : State) (hl : (s.port p).owed = l) (h : OwedLegal s) :
    OwedLegal (State.drain p l s) := by
  induction l generalizing s with
  | nil => exact h
  | cons o rest ih =>
    have dropped := dropHead_owed h p o rest hl
    unfold State.drain
    dsimp only
    split
    · refine ih _ ?_ dropped
      rw [clearOwed_port, State.modPort_eq, State.setPort_port_self]
    · exact pushNotice_owed _ p _ dropped

theorem actFetch_owed (s : State) (p : Port) (ps : List Byte) : KeepsOwed s (actFetch p ps s).state := by
  intro h
  unfold actFetch
  split
  · exact h
  next n rest _ =>
    have taken : OwedLegal (s.modPort p fun r => { r with notices := rest }) :=
      keepsOwed_of_records (fun q => by
        rw [State.modPort_eq, State.setPort_port]
        split
        next e => rw [e]
        next => rfl) (fun a => by cases p <;> rfl) (fun c => by cases p <;> rfl) (by cases p <;> rfl) h
    have drained := drain_owed p (s.port p).owed _ (by rw [State.modPort_eq, State.setPort_port_self]) taken
    exact keepsOwed_full.ite s (fun _ _ => keepsOwed_full.raiseSweep _ drained) (fun _ _ => drained) h

/-! ### AGENT_DEFINE and the resets -/

theorem actAgentDefine_owed (s : State) (ps : List Byte) : KeepsOwed s (actAgentDefine ps s).state := by
  have w := keepsOwed_full
  have restaffed (u : State) (a : AgentSlot) (r : AgentRec) : KeepsOwed (u.setAgent a r) (u.writeAgent a r) :=
    w.foldl (fun u g => w.restaff u _ _ g) _ _
  /- A record that owes nothing, its pair off the list of the old home. -/
  have cleared (a : AgentSlot) (r : AgentRec) (hr : r.owed = false) :
      KeepsOwed s ((s.removeOwed (portOf (s.agent a).home) (.agentState a)).setAgent a r) := fun h => by
    refine h.drop (fun p o => p != portOf (s.agent a).home || o != .agentState a) (fun p => ?_) fun p o => ?_
    · rw [← removeOwed_lists]
      cases p <;> rfl
    · cases o with
      | agentState b =>
        by_cases hb : b = a
        · subst hb
          simp [State.owesOn, hr]
        · simp [State.owesOn, State.setAgent_agent_of_ne _ _ hb, hb, State.removeOwed, State.modPort_eq]
      | call d k => simp [State.owesOn, State.removeOwed, State.modPort_eq]
      | watch => simp [State.owesOn, State.removeOwed, State.modPort_eq]
  refine actAgentDefine_lift s ps (w.refl s) (fun a _ => w.trans (cleared a {} rfl) (restaffed _ a _)) fun a x ks _ _ _ => ?_
  have defined : KeepsOwed s (s.redefine a x ks) := by
    unfold State.redefine
    split
    next e => exact w.trans (setAgent_owed ⟨e.symm, by simp [e]⟩) (restaffed _ a _)
    next e => exact w.trans (cleared a _ (by simp [e])) (restaffed _ a _)
  exact ⟨defined, fun _ => w.trans defined (w.raiseAgentTrigger _ a)⟩

theorem owedLegal_of_none {s : State} (lists : ∀ p, (s.port p).owed = []) (agents : ∀ a, (s.agent a).owed = false)
    (calls : ∀ c, s.call c = none) (watch : s.device.watchOwed = false) : OwedLegal s := by
  rw [owedLegal_iff]
  intro p
  rw [lists]
  refine ⟨List.nodup_nil, fun o => ?_⟩
  cases o <;> simp [State.owesOn, agents, calls, watch]

/-! ### The purge (R194) -/

theorem Moves.callsFollow {ties : Bool} {s t : State} (h : Moves ties s t) : CallsFollow s t :=
  h.lift (fun _ _ q hq => ⟨q, hq, rfl, id⟩)
    (fun _ _ _ f g c q hq =>
      have ⟨r, hr, fr⟩ := g c q hq
      have ⟨k, hk, fk⟩ := f c r hr
      ⟨k, hk, fr.identity.trans fk.identity, fun x => fr.counted (fk.counted x)⟩) fun _ _ => Move.callsFollow

/-- Moves put no call into a slot that is free. -/
theorem Moves.call_none {ties : Bool} {s t : State} (h : Moves ties s t) {c : CallSlot} (e : s.call c = none) : t.call c = none := by
  cases ht : t.call c with
  | none => rfl
  | some q =>
    obtain ⟨r, hr, -⟩ := h.callsFollow c q ht
    rw [e] at hr
    cases hr

theorem freeCall_call_self (s : State) (c : CallSlot) : (s.freeCall c).call c = none := by
  unfold State.freeCall
  split
  next e => exact e
  next => exact State.putCall_call_self _ c none

/-- A purge of a call frees it, by its state (R72, R107). -/
theorem purgeCall_frees (s : State) (x : Shelf) (c : CallSlot) : (State.purgeCall x s c).call c = none := by
  unfold State.purgeCall
  split
  next e => exact e
  · split
    · exact freeCall_call_self _ c
    · unfold State.purgeOffer
      refine Moves.call_none (ties := true) ((endOffer_moves _ _).trans (swapIfQuiet_moves _ _)) ?_
      split
      · rw [show ∀ (u : State) a r, (u.changeAgent a r true).call c = u.call c from fun u a r => by rw [changeAgent_roster]; rfl]
        exact freeCall_call_self _ c
      · exact freeCall_call_self _ c
    · exact freeCall_call_self _ c
    · exact freeCall_call_self _ c

theorem mem_callsOf (s : State) (x : Shelf) (c : CallSlot) : c ∈ s.callsOf x ↔ ∃ r, s.call c = some r ∧ r.owner = x := by
  rw [State.callsOf, mem_findAll]
  change (s.call c).any _ = true ↔ _
  simp [Option.any_eq_true]

theorem purgeCalls_free (x : Shelf) (l : List CallSlot) (s : State) {c : CallSlot} (hc : c ∈ l) :
    (l.foldl (State.purgeCall x) s).call c = none := by
  induction l generalizing s with
  | nil => cases hc
  | cons d l ih =>
    rcases List.mem_cons.mp hc with rfl | hc
    · exact Moves.call_none (ties := true) (Moves.foldl (fun u c => purgeCall_moves u x c) l _) (purgeCall_frees s x c)
    · exact ih _ hc

theorem purgeWork_moves {ties : Bool} (s : State) (x : Shelf) : Moves ties s (s.purgeWork x) :=
  (Moves.foldl (fun u c => purgeCall_moves u x c) _ s).trans (Moves.foldl (fun u a => purgeAgent_moves u a) _ _)

/-- The purge of a shelf leaves it no call (R194). -/
theorem purgeWork_owner {s : State} {x : Shelf} {c : CallSlot} {q : CallRec} (h : (s.purgeWork x).call c = some q) : q.owner ≠ x := by
  intro hx
  obtain ⟨r, hr, f⟩ := (purgeWork_moves (ties := true) s x).callsFollow c q h
  have owner : q.owner = r.owner := congrArg Prod.fst f.identity
  have mem : c ∈ s.callsOf x := (mem_callsOf s x c).mpr ⟨r, hr, owner ▸ hx⟩
  have freed : (s.purgeWork x).call c = none :=
    Moves.call_none (ties := true) (Moves.foldl (fun u a => purgeAgent_moves u a) _ _) (purgeCalls_free x _ s mem)
  rw [freed] at h
  cases h

theorem clearPort_agent (s : State) (x : Shelf) (a : AgentSlot) :
    (s.clearPort x).agent a = if (s.agent a).home = x then { s.agent a with owed := false } else s.agent a := by
  have h := mapTable_get (fun r : AgentRec => if r.home = x then { r with owed := false } else r) s.agents a
  cases x <;> exact h

theorem portOf_injective {x y : Shelf} (h : portOf x = portOf y) : x = y := by
  cases x <;> cases y <;> first | rfl | cases h

theorem clearPort_owed {s : State} {x : Shelf} (none : ∀ c q, s.call c = some q → q.owner ≠ x) : KeepsOwed s (s.clearPort x) :=
  fun h => by
  refine h.drop (fun p _ => p != portOf x) (fun p => ?_) fun p o => ?_
  · have port : ((s.clearPort x).port p).owed = if p = portOf x then [] else (s.port p).owed := by
      cases x <;> cases p <;> rfl
    rw [port]
    split
    next e => simp [e]
    next e =>
      have other : (p != portOf x) = true := bne_iff_ne.mpr e
      simp [other]
  · cases o with
    | agentState a =>
      simp only [State.owesOn, clearPort_agent, bne_iff_ne]
      split
      next e => simp [e]
      next e =>
        refine ⟨fun k => ⟨k, fun hp => e ?_⟩, fun k => k.1⟩
        exact portOf_injective (k.2.symm.trans hp)
    | call c k =>
      have calls : (s.clearPort x).call c = s.call c := by cases x <;> rfl
      simp only [State.owesOn, calls, bne_iff_ne]
      refine ⟨fun ⟨r, hr, hp, ho⟩ => ⟨⟨r, hr, hp, ho⟩, fun e => none c r hr ?_⟩, fun k => k.1⟩
      exact portOf_injective (hp.symm.trans e)
    | watch =>
      have device : (s.clearPort x).device = s.device := by cases x <;> rfl
      simp only [State.owesOn, device, bne_iff_ne]
      exact ⟨fun k => ⟨k, fun e => portOf_ne_s x (e.symm.trans k.2)⟩, fun k => k.1⟩

theorem keepsOwed_acts : Acts KeepsOwed := by
  refine keepsOwed_full.acts (fun s x => ?_) actAgentDefine_owed actFetch_owed (fun s _ => ?_) fun s _ => ?_
  · exact keepsOwed_full.trans (keepsOwed_full.purgeWork s x) (clearPort_owed fun c q h => purgeWork_owner h)
  · exact owedLegal_of_none (fun p => by cases p <;> rfl) (fun a => congrArg AgentRec.owed (mapTable_get AgentRec.restarted s.agents a))
      (get_replicate none) rfl
  · exact owedLegal_of_none (fun p => by cases p <;> rfl) (fun a => congrArg AgentRec.owed (get_replicate _ a)) (get_replicate none) rfl

/-- Settles O58, by the walk through the commands: for the bounds of the queues, and for the owed lists and flags. -/
theorem everyStepKeepsThePortsLegal : Obligations.EveryStepKeepsThePortsLegal := by
  unfold Obligations.EveryStepKeepsThePortsLegal
  exact ⟨hasRoom_iff, fun s t hs h => keepsPorts_acts.step h hs, fun s t _ hs h => keepsOwed_acts.step h hs⟩

end Sys2Proof.Machine

/-! The reads (R197, R198): each record is a row of fields at the offsets of its layout, and a read answers it and changes nothing. -/

namespace Sys2Proof.Machine

/-! ### Fields as numbers -/

theorem shelfField_eq (o : Option Shelf) : shelfField o = field 1 (shelfNumber o) := by
  rcases o with _ | (_ | _) <;> rfl

theorem slotField_eq {n : Nat} (o : Option (Fin n)) : slotField o = field 2 (slotNumber o) := rfl
theorem codeField_eq {n : Nat} (o : Option (Fin n)) : codeField o = field 1 (codeNumber o) := rfl
theorem flagByte_eq (l : List Bool) : flagByte l = field 1 (bitsNumber l) := rfl

/-- The fields of a row stand at their offsets after what stands before them. -/
theorem fieldsAt_row {c pre : List Byte} {n : Nat} (hn : pre.length = n) (l : List (Nat × Nat)) (post : List Byte)
    (hc : c = pre ++ (pack l ++ post)) : FieldsAt c (offsets n l) := by
  subst hn hc
  exact fieldsAt_pack pre post l

/-- A record that is one row. -/
theorem fieldsAt_only {c : List Byte} (l : List (Nat × Nat)) (hc : c = pack l) : FieldsAt c (offsets 0 l) := by
  subst hc
  have := fieldsAt_whole [] l
  rwa [List.append_nil] at this

/-- The request reads and answers `content`: it is computed as if the request had not been taken. -/
theorem exec_read {s : State} {k : Kind} {p : Port} {ps : List Byte} {content : State → List Byte} (h : Takes s k p ps)
    (hact : ∀ u, actOf k p ps (s.taken p u) = .ok (s.taken p u) (content (s.taken p u)))
    (hc : ∀ u, content (s.taken p u) = content s) :
    exec (k.command p (frame ps)) s = .next (s.answered p (frame ps) .ok (content s)) := by
  refine exec_unchanged h ?_
  rw [hact, hc]
  rfl

/-! ### AGENT_READ (R7) -/

/-- A skill list's pairs as fields. -/
def skillFields (l : List Skill) : List (Nat × Nat) := l.flatMap fun k => [(1, k.group.val), (1, k.level)]

theorem offsets_skillFields (i : Nat) (l : List Skill) : offsets i (skillFields l) = skillTable i l := by
  induction l generalizing i with
  | nil => rfl
  | cons k l ih => exact congrArg (fun t => (i, 1, k.group.val) :: (i + 1, 1, k.level) :: t) (ih (i + 2))

theorem skillFields_length (l : List Skill) : (pack (skillFields l)).length = 2 * l.length := by
  induction l with
  | nil => rfl
  | cons k l ih =>
    rw [pack_length] at ih ⊢
    simp only [skillFields, List.flatMap_cons, List.map_append, List.sum_append, List.length_cons] at ih ⊢
    rw [ih]
    simp
    omega

theorem skillBytes_eq (l : List Skill) : skillBytes l = field 1 l.length ++ pack (skillFields l) := by
  simp [skillBytes, pack, skillFields, List.flatMap_assoc]

/-- The fields of the agent record before its skills (R198). -/
def State.agentFields (s : State) (a : AgentSlot) : List (Nat × Nat) :=
  let r := s.agent a
  let call := r.boundCall.bind s.call
  [(2, a.val), (1, bitsNumber [r.defined, r.owed]), (1, shelfNumber (some r.home)), (1, r.state.code), (1, r.auxReason),
    (1, match r.pending with | .none => 0 | .aux _ => 1 | .signOut => 2 | .signOutPurge => 3),
    (1, match r.pending with | .aux reason => reason | _ => 0), (4, r.idleSince), (2, slotNumber r.boundCall),
    (1, shelfNumber (call.map CallRec.owner)), (2, (call.map fun k => k.tag.toNat).getD 0), (4, r.wrap.start),
    (2, if r.state = .wrap then r.wrap.finish - s.clock else 0), (1, r.wrap.extensions),
    (1, codeNumber (if r.state = .wrap then some r.wrap.group else none)), (2, r.wrap.cap), (4, r.wrap.talk),
    (1, match r.wrap.mark with | .keep => 0 | .drop => 1), (2, r.callsHandled), (4, r.answerStart), (1, r.skills.length)]

theorem pack_nil : pack [] = [] := rfl

theorem pack_cons (k x : Nat) (l : List (Nat × Nat)) : pack ((k, x) :: l) = field k x ++ pack l := by
  unfold pack
  exact List.flatMap_cons ..

theorem nameBytes_eq (o : Option (Shelf × Tag)) :
    nameBytes o = field 1 (shelfNumber (o.map Prod.fst)) ++ field 2 ((o.map fun n => n.2.toNat).getD 0) := by
  rw [nameBytes, shelfField_eq]
  cases o <;> rfl

theorem pendingBytes_eq (q : Pending) :
    pendingBytes q = field 1 (match q with | .none => 0 | .aux _ => 1 | .signOut => 2 | .signOutPurge => 3)
      ++ field 1 (match q with | .aux reason => reason | _ => 0) := by
  cases q <;> rfl

theorem boundName_eq (s : State) (r : AgentRec) :
    nameBytes (s.boundName r) = field 1 (shelfNumber ((r.boundCall.bind s.call).map CallRec.owner))
      ++ field 2 (((r.boundCall.bind s.call).map fun k => k.tag.toNat).getD 0) := by
  rw [nameBytes_eq, State.boundName]
  cases r.boundCall.bind s.call <;> rfl

theorem agentBytes_eq (s : State) (a : AgentSlot) :
    s.agentBytes a = pack (s.agentFields a) ++ (pack (skillFields (s.agent a).skills) ++ []) := by
  have mark : (s.agent a).wrap.mark.code = match (s.agent a).wrap.mark with | .keep => 0 | .drop => 1 := by
    cases (s.agent a).wrap.mark <;> rfl
  simp only [State.agentBytes, shelfField_eq, boundName_eq, pendingBytes_eq, skillBytes_eq, mark, State.agentFields, pack,
    List.flatMap_cons, List.flatMap_nil, List.append_assoc, List.append_nil]
  rfl

/-- Settles O10. -/
theorem agentReadReturnsTheAgentRecord : Obligations.AgentReadReturnsTheAgentRecord := by
  unfold Obligations.AgentReadReturnsTheAgentRecord
  intro s p ps h
  constructor
  · intro hn
    exact exec_unchanged h (by simp only [actOf, actAgentRead, below_of_le hn]; rfl)
  · intro a ha
    have bytes := agentBytes_eq s a
    refine ⟨s.agentBytes a, ?_, ?_, ?_, ?_⟩
    · refine exec_read (content := fun u => u.agentBytes a) h (fun u => ?_) fun u => by cases p <;> rfl
      simp only [actOf, actAgentRead, below_val a ha]
    · rw [bytes, List.append_nil, List.length_append, skillFields_length, pack_length]
      simp [State.agentFields]
    · exact fieldsAt_row (n := 0) (pre := []) rfl (s.agentFields a) _ bytes
    · rw [← offsets_skillFields]
      refine fieldsAt_row ?_ _ _ bytes
      rw [pack_length]
      simp [State.agentFields]

/-! ### GROUP_READ (R33) -/

/-- The fields of a parameter block (R30, R197). -/
def Params.fields (p : Params) : List (Nat × Nat) :=
  [(2, p.wrapTime), (2, p.extStep), (1, p.extLimit), (2, p.wrapCap), (1, p.ringTimeout), (1, p.noAnswerLimit),
    (1, p.noAnswerAction.code), (1, p.policy.code), (1, p.weight), (1, p.priorityStep), (2, p.maxDepth),
    (1, codeNumber p.overflowTarget), (2, p.overflowWait), (1, bitsNumber [p.overflowOnFull]), (1, codeNumber p.music),
    (1, codeNumber p.program), (1, p.firstDelay), (2, p.interval), (1, p.shift), (2, p.depthThreshold), (2, p.waitObjective),
    (1, codeNumber p.line)]

theorem paramBytes_eq (p : Params) : paramBytes p = pack p.fields := by
  unfold paramBytes Params.fields
  simp only [pack_cons, pack_nil, List.append_nil, List.append_assoc]
  simp only [flagByte_eq, codeField_eq]

theorem offsets_params (i : Nat) (p : Params) : offsets i p.fields = paramTable i p := by
  simp [offsets, Params.fields, paramTable]

theorem params_length (p : Params) : (pack p.fields).length = 30 := by simp [pack_length, Params.fields]

/-- The fields of the group record before its parameter sets (R198). -/
def State.groupHead (s : State) (g : Group) : List (Nat × Nat) :=
  let r := s.group g
  [(1, g.val), (1, bitsNumber [r.swapPending, r.supervisorClosed, s.closed g, s.heldByLine g]), (2, r.offers)]

/-- The fields of the group record behind its parameter sets (R198). -/
def State.groupTail (s : State) (g : Group) : List (Nat × Nat) :=
  let r := s.group g
  [(2, r.queue.length), (4, s.longestWait g), (2, r.staffed), (2, r.average.getD 0), (2, r.stats.answered), (2, r.stats.abandoned),
    (2, r.stats.overflowedOut), (2, r.stats.overflowedIn), (2, r.stats.purged),
    (1, bitsNumber [r.flags.depth, r.flags.wait, r.flags.noStaff]), (1, bitsNumber [r.masks.depth, r.masks.wait, r.masks.noStaff]),
    (1, bitsNumber [r.conditions.depth, r.conditions.wait, r.conditions.noStaff])]

theorem groupBytes_eq (s : State) (g : Group) :
    s.groupBytes g = pack (s.groupHead g) ++ (pack (s.group g).active.fields
      ++ (pack (s.group g).staged.fields ++ pack (s.groupTail g))) := by
  rw [← paramBytes_eq, ← paramBytes_eq]
  simp only [State.groupBytes, State.groupHead, State.groupTail, pack, statBytes, List.flatMap_cons, List.flatMap_nil,
    List.append_assoc, List.append_nil]
  rfl

/-- A line holds a group closed by its mode, its seen level and its latch (R41). -/
theorem line_active_iff (r : LineRec) :
    r.active = true ↔ match r.mode with
      | .off => False
      | .levelHigh => r.seen = true
      | .levelLow => r.seen = false
      | .toggleRise | .toggleFall => r.latch = true := by
  unfold LineRec.active
  cases r.mode <;> simp

theorem heldByLine_iff (s : State) (g : Group) :
    s.heldByLine g = true ↔ ∃ l : LineNo, (s.group g).active.line = some l ∧ (s.line l).active = true := by
  unfold State.heldByLine
  cases (s.group g).active.line <;> simp

/-- Settles O11. -/
theorem groupReadReturnsTheGroupRecord : Obligations.GroupReadReturnsTheGroupRecord := by
  unfold Obligations.GroupReadReturnsTheGroupRecord
  refine ⟨fun s g => ⟨?_, by simp [State.closed]⟩, fun s p ps h => ⟨fun hn => ?_, fun g hg => ?_⟩⟩
  · exact (heldByLine_iff s g).trans (exists_congr fun l => and_congr_right fun _ => line_active_iff _)
  · exact exec_unchanged h (asGroup_of_le hn _ _)
  · have bytes := groupBytes_eq s g
    have row1 : (pack (s.groupHead g)).length = 4 := by simp [pack_length, State.groupHead]
    have row2 : (pack (s.group g).active.fields).length = 30 := params_length _
    have row3 : (pack (s.group g).staged.fields).length = 30 := params_length _
    have row4 : (pack (s.groupTail g)).length = 23 := by simp [pack_length, State.groupTail]
    refine ⟨s.groupBytes g, ?_, ?_, ?_, ?_, ?_, ?_⟩
    · refine exec_read (content := fun u => u.groupBytes g) h (fun u => ?_) fun u => by cases p <;> rfl
      exact actGroupRead_eq hg _
    · simp [bytes, row1, row2, row3, row4]
    · exact fieldsAt_row (n := 0) (pre := []) rfl (s.groupHead g) _ bytes
    · rw [← offsets_params]
      exact fieldsAt_row row1 _ _ bytes
    · rw [← offsets_params]
      refine fieldsAt_row (n := 34) (pre := pack (s.groupHead g) ++ pack (s.group g).active.fields) ?_ _ (pack (s.groupTail g)) ?_
      · rw [List.length_append, row1, row2]
      · rw [bytes]
        simp only [List.append_assoc]
    · refine fieldsAt_row (n := 64) (pre := pack (s.groupHead g) ++ (pack (s.group g).active.fields
        ++ pack (s.group g).staged.fields)) ?_ (s.groupTail g) [] ?_
      · simp only [List.length_append, row1, row2, row3]
      · rw [bytes]
        simp only [List.append_assoc, List.append_nil]

/-! ### CALL_READ (R63) -/

/-- The fields of the call record (R198), in the two rows of the statement. -/
def State.callHead (c : CallSlot) (r : CallRec) : List (Nat × Nat) :=
  [(2, c.val), (1, shelfNumber (some r.owner)), (2, r.tag.toNat), (1, r.state.code), (1, r.group.val), (1, r.priority),
    (4, r.arrival), (4, r.seq), (4, r.entry), (8, (BitVec.ofInt 64 r.key).toNat), (4, r.overflowDue.getD 0), (1, r.hops),
    (1, r.noAnswers), (2, slotNumber r.lastRefused)]

def State.callTail (s : State) (c : CallSlot) (r : CallRec) : List (Nat × Nat) :=
  [(1, bitsNumber [r.pendingOverflow, r.onWaitList, r.owedListen, r.owedConnect, r.owedCleared, r.overflowDue.isSome,
      r.nextDue.isSome]),
    (2, slotNumber r.boundAgent), (1, shelfNumber (r.boundAgent.map fun a => (s.agent a).home)),
    (1, match r.listen with | .silent => 0x00 | .music m => 0x10 + m.val | .announce j => 0x20 + j.val), (4, r.nextDue.getD 0),
    (4, r.talkStart), (2, if c ∈ (s.group r.group).queue then (s.group r.group).queue.idxOf c + 1 else 0),
    (2, (s.group r.group).queue.length), (1, (r.ring.map fun e => e - s.clock).getD 0)]

theorem position_eq {s : State} {c : CallSlot} {r : CallRec} (h : s.call c = some r) :
    s.position c = (s.group r.group).queue.idxOf c + 1 := by
  simp [State.position, h]

theorem callBytes_eq {s : State} {c : CallSlot} {r : CallRec} (h : s.call c = some r) :
    s.callBytes c r = pack (State.callHead c r) ++ pack (s.callTail c r) := by
  have listen : r.listen.code = match r.listen with | .silent => 0x00 | .music m => 0x10 + m.val | .announce j => 0x20 + j.val := by
    cases r.listen <;> rfl
  have slot : slotNumber (some c) = c.val := rfl
  unfold State.callBytes State.callHead State.callTail
  simp only [pack_cons, pack_nil, List.append_nil, List.append_assoc]
  simp only [shelfField_eq, slotField_eq, flagByte_eq, tagField, keyField, State.queueLength, State.shownPosition,
    position_eq h, listen, slot]

/-- The only call of a shelf with a tag is the one that is found by it (R54). -/
theorem findCall_eq {s : State} {x : Shelf} {t : Tag} {c : CallSlot} {r : CallRec} (h : s.call c = some r) (hx : r.owner = x)
    (ht : r.tag = t) (only : ∀ d q, s.call d = some q → q.owner = x → q.tag = t → d = c) : s.findCall x t = some c := by
  cases e : s.findCall x t with
  | none => exact absurd ⟨hx, ht⟩ ((findCall_none_iff s x t).mp e c r h)
  | some d =>
    have found := (head_findAll _ _ e).1
    change (s.call d).any _ = true at found
    simp only [Option.any_eq_true, Bool.and_eq_true, beq_iff_eq] at found
    obtain ⟨q, hq, howner, htag⟩ := found
    rw [only d q hq howner htag]

@[simp] theorem taken_findCall (s : State) (p : Port) (body : List Byte) (x : Shelf) (t : Tag) :
    (s.taken p body).findCall x t = s.findCall x t := by cases p <;> rfl

theorem asCall_none {s : State} {x : Shelf} {t : Tag} (h : s.findCall x t = none) (act : CallSlot → CallRec → Reply) :
    asCall (some x) t s act = .refuse s .unknownCall := by
  simp [asCall, h]

theorem asCall_some {s : State} {x : Shelf} {t : Tag} {c : CallSlot} {r : CallRec} (h : s.findCall x t = some c)
    (hr : s.call c = some r) (act : CallSlot → CallRec → Reply) : asCall (some x) t s act = act c r := by
  simp [asCall, h, hr]

/-- CALL_READ seeks the call that the port or the record names (R63). -/
theorem actCallRead_eq {p : Port} {ps : List Byte} {x : Shelf} {t : Tag}
    (shelf : (∃ y, shelfOf p = some y) → shelfOf p = some x ∧ t.toNat = u16 ps 0)
    (supervisor : p = .s → shelfOfByte (u8 ps 0) = some x ∧ t.toNat = u16 ps 1) (s : State) :
    actCallRead p ps s = asCall (some x) t s fun c r => .ok s (s.callBytes c r) := by
  have tag (i : Nat) (h : t.toNat = u16 ps i) : tagAt ps i = t := by rw [tagAt, ← h, BitVec.ofNat_toNat, BitVec.setWidth_eq]
  unfold actCallRead
  cases hp : shelfOf p with
  | some y =>
    obtain ⟨hx, ht⟩ := shelf ⟨y, hp⟩
    rw [hp] at hx
    cases hx
    rw [← tag 0 ht]
  | none =>
    have hs : p = .s := by cases p <;> first | rfl | cases hp
    obtain ⟨hx, ht⟩ := supervisor hs
    simp only [hx, tag 1 ht]

/-- Settles O12. -/
theorem callReadReturnsTheCallRecord : Obligations.CallReadReturnsTheCallRecord := by
  unfold Obligations.CallReadReturnsTheCallRecord
  intro s p ps h
  constructor
  · rintro rfl hx
    exact exec_unchanged h (by simp only [actOf, actCallRead, shelfOf, hx]; rfl)
  · intro x t shelf supervisor
    have act := actCallRead_eq shelf supervisor (s.taken p (frame ps))
    constructor
    · intro none
      refine exec_unchanged h (act.trans (asCall_none ?_ _))
      rw [taken_findCall]
      exact (findCall_none_iff s x t).mpr none
    · intro c r hr hx ht only
      have bytes := callBytes_eq hr
      have found := findCall_eq hr hx ht only
      refine ⟨s.callBytes c r, ?_, ?_, ?_, ?_⟩
      · refine exec_read (content := fun u => u.callBytes c r) h (fun u => ?_) fun u => by cases p <;> rfl
        rw [show actOf .callRead p ps = actCallRead p ps from rfl, actCallRead_eq shelf supervisor]
        exact asCall_some (by rw [taken_findCall]; exact found) (by simpa using hr) _
      · rw [bytes, List.length_append, pack_length, pack_length]
        simp [State.callHead, State.callTail]
      · exact fieldsAt_row (n := 0) (pre := []) rfl (State.callHead c r) _ bytes
      · refine fieldsAt_row (n := 36) ?_ (s.callTail c r) [] (bytes.trans (by rw [List.append_nil]))
        simp [pack_length, State.callHead]

end Sys2Proof.Machine

/-! The reads of the store, the playout, the lines and the watch (R42, R145 to R157, R165, R174, R175, R193). -/

namespace Sys2Proof.Machine

/-! ### Rows of equal parts -/

theorem pack_append (l m : List (Nat × Nat)) : pack (l ++ m) = pack l ++ pack m := by
  unfold pack
  exact List.flatMap_append

theorem offsets_append (n : Nat) (l m : List (Nat × Nat)) :
    offsets n (l ++ m) = offsets n l ++ offsets (n + (l.map Prod.fst).sum) m := by
  induction l generalizing n with
  | nil => rfl
  | cons e l ih =>
    obtain ⟨k, x⟩ := e
    rw [List.cons_append, offsets, ih, offsets, List.cons_append, List.map_cons, List.sum_cons, Nat.add_assoc]

/-- In a row of parts of `w` bytes, part `j` begins `w * j` bytes after the first. -/
theorem mem_offsets_flatMap {α : Type} {w : Nat} (f : α → List (Nat × Nat)) (hw : ∀ x, ((f x).map Prod.fst).sum = w) (l : List α)
    (n j : Nat) (hj : j < l.length) : ∀ e ∈ offsets (n + w * j) (f l[j]), e ∈ offsets n (l.flatMap f) := by
  induction l generalizing n j with
  | nil => exact absurd hj (Nat.not_lt_zero j)
  | cons x l ih =>
    intro e he
    rw [List.flatMap_cons, offsets_append, hw, List.mem_append]
    cases j with
    | zero => exact .inl he
    | succ j =>
      refine .inr (ih (n + w) j (Nat.lt_of_succ_lt_succ hj) e ?_)
      rwa [Nat.mul_succ, Nat.add_comm (w * j) w, ← Nat.add_assoc] at he
theorem mem_offsets_finRange {N w : Nat} (f : Fin N → List (Nat × Nat)) (hw : ∀ i, ((f i).map Prod.fst).sum = w) (n : Nat)
    (i : Fin N) : ∀ e ∈ offsets (n + w * i.val) (f i), e ∈ offsets n ((List.finRange N).flatMap f) := by
  have := mem_offsets_flatMap f hw (List.finRange N) n i.val (by simp)
  rwa [List.getElem_finRange] at this

theorem length_flatMap {α : Type} {w : Nat} (f : α → List (Nat × Nat)) (hw : ∀ x, ((f x).map Prod.fst).sum = w) (l : List α) :
    (pack (l.flatMap f)).length = w * l.length := by
  induction l with
  | nil => rfl
  | cons x l ih => rw [List.flatMap_cons, pack_append, List.length_append, ih, pack_length, hw, List.length_cons, Nat.mul_succ, Nat.add_comm]

theorem pack_flatMap {α : Type} (f : α → List (Nat × Nat)) (l : List α) :
    pack (l.flatMap f) = l.flatMap fun x => pack (f x) := by
  unfold pack
  exact List.flatMap_assoc

/-- The request is refused. -/
theorem exec_refused {s : State} {k : Kind} {p : Port} {ps : List Byte} {r : Result} (h : Takes s k p ps)
    (hact : actOf k p ps (s.taken p (frame ps)) = .refuse (s.taken p (frame ps)) r) :
    exec (k.command p (frame ps)) s = .next (s.answered p (frame ps) r []) :=
  exec_unchanged h hact

/-- A byte is the one-byte field of its number. -/
theorem field_one_toNat (b : Byte) : field 1 b.toNat = [b] := by
  rw [field, if_pos (by simpa using b.isLt)]
  simp [bytesBE]

/-! ### The store (R145 to R157) -/

/-- The fields of a program's step pairs (R200). -/
def stepFields (l : List Step) : List (Nat × Nat) := l.flatMap fun st => [(1, st.kind.code), (1, st.operand.toNat)]

theorem offsets_stepFields (i : Nat) (l : List Step) : offsets i (stepFields l) = stepTable i l := by
  induction l generalizing i with
  | nil => rfl
  | cons k l ih => exact congrArg (fun t => (i, 1, k.kind.code) :: (i + 1, 1, k.operand.toNat) :: t) (ih (i + 2))

theorem programBytes_eq (l : List Step) : programBytes l = pack [(1, l.length)] ++ (pack (stepFields l) ++ []) := by
  rw [programBytes, stepFields, pack_flatMap, pack_cons, pack_nil, List.append_nil, List.append_nil]
  simp only [pack_cons, pack_nil, List.append_nil, field_one_toNat]

theorem programBytes_length (l : List Step) : (programBytes l).length = 1 + 2 * l.length := by
  have steps : (pack (stepFields l)).length = 2 * l.length := length_flatMap (fun st : Step => [(1, st.kind.code), (1, st.operand.toNat)]) (fun _ => rfl) l
  rw [programBytes_eq, List.append_nil, List.length_append, steps, pack_length]
  rfl

/-- A program as returned holds its count and its step pairs. -/
theorem programBytes_fields (l : List Step) : FieldAt (programBytes l) 0 1 l.length ∧ FieldsAt (programBytes l) (stepTable 1 l) := by
  constructor
  · exact fieldsAt_row (n := 0) (pre := []) rfl [(1, l.length)] _ (programBytes_eq l) _ (.head _)
  · rw [← offsets_stepFields]
    exact fieldsAt_row (by rw [pack_length]; rfl) _ _ (programBytes_eq l)

theorem readBytes_getD (m : List Host.Cell) (a n i : Nat) (h : i < n) :
    (Memory.readBytes m a n).getD i 0 = Memory.read m (a + i) := by
  simp [Memory.readBytes, h]

/-- The fields of a segment entry (R198). -/
def SegmentRec.fields (e : SegmentRec) : List (Nat × Nat) := [(4, e.start), (4, e.length), (1, e.inUse)]

/-- Settles O13. -/
theorem storeReadsReturnWhatTheStoreHolds : Obligations.StoreReadsReturnWhatTheStoreHolds := by
  unfold Obligations.StoreReadsReturnWhatTheStoreHolds
  intro s p ps
  refine ⟨fun h => ⟨fun out => ?_, fun low high last => ?_⟩, fun h => ⟨fun out => ?_, fun k hk => ?_⟩,
    fun h => ⟨fun out => ?_, fun n hn => ?_⟩, fun h => ⟨fun out => ?_, fun v hv => ?_⟩⟩
  · exact exec_refused h (by simp only [actOf, actStoreRead]; exact if_pos out)
  · refine ⟨Memory.readBytes s.ram (u32 ps 0) (u16 ps 4), ?_, by simp [Memory.readBytes], fun i hi => readBytes_getD _ _ _ _ hi⟩
    refine exec_read (content := fun u => Memory.readBytes u.ram (u32 ps 0) (u16 ps 4)) h (fun u => ?_) fun u => by simp
    have inside : ¬(u16 ps 4 = 0 ∨ 256 < u16 ps 4 ∨ Config.ramBytes < u32 ps 0 + u16 ps 4) := by
      change ¬(u16 ps 4 = 0 ∨ 256 < u16 ps 4 ∨ 4194304 < u32 ps 0 + u16 ps 4)
      omega
    exact if_neg inside
  · exact exec_refused h (by simp only [actOf, actSegmentRead, asSegment, below_of_le out])
  · have bytes : ∀ e : SegmentRec, field 4 e.start ++ field 4 e.length ++ field 1 e.inUse = pack e.fields := fun e => by
      simp [SegmentRec.fields, pack]
    refine ⟨pack (s.segment k).fields, ?_, by simp [pack_length, SegmentRec.fields], fieldsAt_only (s.segment k).fields rfl⟩
    refine exec_read (content := fun u => pack (u.segment k).fields) h (fun u => ?_) fun u => by simp
    simp only [actOf, actSegmentRead, asSegment, below_val k hk, bytes]
  · exact exec_refused h (by simp only [actOf, actProgramRead, asProgram, below_of_le out])
  · refine ⟨programBytes (s.programSteps n), ?_, programBytes_length _, programBytes_fields _⟩
    refine exec_read (content := fun u => programBytes (u.programSteps n)) h (fun u => ?_) fun u => by simp
    simp only [actOf, actProgramRead, asProgram, below_val n hn]
  · exact exec_refused h (by simp only [actOf, actVocabRead, asVocab, below_of_le out])
  · refine ⟨field 2 (((s.vocabEntry v).map BitVec.toNat).getD 0xFFFF), ?_, field_length _ _, ?_⟩
    · refine exec_read (content := fun u => field 2 (((u.vocabEntry v).map BitVec.toNat).getD 0xFFFF)) h (fun u => ?_)
        fun u => by simp
      simp only [actOf, actVocabRead, asVocab, below_val v hv]
    · cases s.vocabEntry v with
      | none => exact fieldsAt_only [(2, 0xFFFF)] (by simp [pack]) _ (.head _)
      | some code => exact fieldsAt_only [(2, code.toNat)] (by simp [pack]) _ (.head _)

/-! ### The playout, the lines and the watch (R42, R165, R174, R175, R193) -/

/-- The fields of the source record (R198). -/
def State.sourceFields (s : State) (m : SourceNo) : List (Nat × Nat) :=
  let q := s.source m
  [(1, m.val), (1, codeNumber q.current), (1, match q.staged with | .empty => 0xFE | .value n => codeNumber n),
    (1, bitsNumber [q.run.isSome]), (1, (q.run.map Run.step).getD 0), (4, (q.run.map Run.position).getD 0), (2, q.listeners),
    (1, q.idlePasses), (1, q.idleLimit), (1, codeNumber (s.slotOf (highwayOfSource m))),
    (1, match s.modeOf (highwayOfSource m) with | .idleByte => 0 | .off => 1), (2, 0)]

theorem idleMode_code (m : IdleMode) : m.code = match m with | .idleByte => 0 | .off => 1 := by cases m <;> rfl

theorem sourceBytes_eq (s : State) (m : SourceNo) : s.sourceBytes m = pack (s.sourceFields m) := by
  unfold State.sourceBytes State.sourceFields
  simp only [pack_cons, pack_nil, List.append_nil, List.append_assoc]
  cases (s.source m).staged <;> simp only [flagByte_eq, codeField_eq, idleMode_code]

/-- The fields of the channel record (R198). -/
def State.channelFields (s : State) (j : ChannelNo) : List (Nat × Nat) :=
  let b := s.channel j
  let k := b.bind fun b => s.call b.call
  [(1, j.val), (1, bitsNumber [b.isSome]), (2, slotNumber (b.map Announcement.call)), (1, shelfNumber (k.map CallRec.owner)),
    (2, (k.map fun r => r.tag.toNat).getD 0), (1, (b.map fun b => b.run.program.val).getD 0), (1, (b.map fun b => b.run.step).getD 0),
    (4, (b.map fun b => b.run.position).getD 0), (2, s.waitList.length), (2, slotNumber (s.waitList.head?.map WaitEntry.call)),
    (2, (s.waitList.head?.map fun e => s.clock - e.due).getD 0)]

theorem channelBytes_eq (s : State) (j : ChannelNo) : s.channelBytes j = pack (s.channelFields j) := by
  unfold State.channelBytes State.channelFields
  simp only [pack_cons, pack_nil, List.append_nil, List.append_assoc]
  simp only [nameBytes_eq, flagByte_eq, slotField_eq, Option.map_map, List.append_assoc]
  rfl

/-- The fields of a line's record (R42). -/
def LineRec.fields (r : LineRec) : List (Nat × Nat) :=
  [(1, match r.mode with | .off => 0 | .levelHigh => 1 | .levelLow => 2 | .toggleRise => 3 | .toggleFall => 4),
    (1, bitsNumber [r.seen]), (1, bitsNumber [r.latch]),
    (1, bitsNumber [match r.mode with
      | .off => false
      | .levelHigh => r.seen
      | .levelLow => !r.seen
      | .toggleRise | .toggleFall => r.latch])]

theorem lineBytes_eq (r : LineRec) :
    field 1 r.mode.code ++ flagByte [r.seen] ++ flagByte [r.latch] ++ flagByte [r.active] = pack r.fields := by
  unfold LineRec.fields LineRec.active
  simp only [pack_cons, pack_nil, List.append_nil, List.append_assoc]
  cases r.mode <;> simp only [flagByte_eq, LineMode.code]

/-- The fields of the slot map's record (R198). -/
def State.slotFields (s : State) (h : HighwayChannel) : List (Nat × Nat) :=
  [(1, codeNumber (s.slotOf h)), (1, match s.modeOf h with | .idleByte => 0 | .off => 1)]

theorem slotBytes_eq (s : State) :
    ((List.finRange 24).flatMap fun h => codeField (s.slotOf h) ++ field 1 (s.modeOf h).code) ++ [s.idleByte]
      = pack ((List.finRange 24).flatMap s.slotFields) ++ (pack [(1, s.idleByte.toNat)] ++ []) := by
  have part (h : HighwayChannel) : pack (s.slotFields h) = codeField (s.slotOf h) ++ field 1 (s.modeOf h).code := by
    unfold State.slotFields
    simp only [pack_cons, pack_nil, List.append_nil, codeField_eq, idleMode_code]
  rw [pack_flatMap, funext part, pack_cons, pack_nil, List.append_nil, List.append_nil, field_one_toNat]

/-- The fields of the watch record before the groups' (R193). -/
def State.deviceFields (s : State) : List (Nat × Nat) :=
  [(1, bitsNumber [s.device.purgeDone, s.device.segmentFault, s.device.starved]),
    (1, bitsNumber [false, s.device.maskSegmentFault, s.device.maskStarved]), (1, bitsNumber [s.device.starvedCondition])]

def State.groupFlagFields (s : State) (g : Group) : List (Nat × Nat) :=
  [(1, bitsNumber [(s.group g).flags.depth, (s.group g).flags.wait, (s.group g).flags.noStaff])]

theorem watchRecord_eq (s : State) :
    s.deviceFlags ++ s.deviceMasks ++ flagByte [s.device.starvedCondition]
        ++ (List.finRange 64).flatMap (fun g => watchByte (s.group g).flags)
      = pack s.deviceFields ++ (pack ((List.finRange 64).flatMap s.groupFlagFields) ++ []) := by
  have part (g : Group) : pack (s.groupFlagFields g) = watchByte (s.group g).flags := by
    unfold State.groupFlagFields watchByte
    simp only [pack_cons, pack_nil, List.append_nil, flagByte_eq]
  rw [pack_flatMap, funext part, List.append_nil]
  unfold State.deviceFields State.deviceFlags State.deviceMasks
  simp only [pack_cons, pack_nil, List.append_nil, List.append_assoc, flagByte_eq]

/-- Settles O14. -/
theorem playoutLineAndWatchReadsReturnTheirRecords : Obligations.PlayoutLineAndWatchReadsReturnTheirRecords := by
  unfold Obligations.PlayoutLineAndWatchReadsReturnTheirRecords
  intro s p ps
  refine ⟨fun h => ⟨fun out => ?_, fun m hm => ?_⟩, fun h => ⟨fun out => ?_, fun j hj => ?_⟩,
    fun h => ⟨fun out => ?_, fun l hl => ?_⟩, fun h => ?_, fun h => ?_⟩
  · exact exec_refused h (by simp only [actOf, actSourceRead, asSource, below_of_le out])
  · refine ⟨pack (s.sourceFields m), ?_, by simp [pack_length, State.sourceFields], fieldsAt_only (s.sourceFields m) rfl⟩
    refine exec_read (content := fun u => pack (u.sourceFields m)) h (fun u => ?_) fun u => by simp [State.sourceFields]
    simp only [actOf, actSourceRead, asSource, below_val m hm, sourceBytes_eq]
  · exact exec_refused h (by simp only [actOf, actChannelRead, below_of_le out])
  · have row := fieldsAt_only (s.channelFields j) rfl
    refine ⟨pack (s.channelFields j), ?_, by simp [pack_length, State.channelFields], fun b hb => ⟨?_, fun r hr => ?_⟩,
      fun free => ?_, ?_, fun empty => ?_, fun e rest first => ?_⟩
    · refine exec_read (content := fun u => pack (u.channelFields j)) h (fun u => ?_) fun u => by simp [State.channelFields]
      simp only [actOf, actChannelRead, below_val j hj, channelBytes_eq]
    · refine row.sub ?_
      simp [State.channelFields, offsets, hb, bitsNumber, slotNumber]
    · refine row.sub ?_
      simp [State.channelFields, offsets, hb, hr]
    · refine row.sub ?_
      simp [State.channelFields, offsets, free, bitsNumber, slotNumber, shelfNumber]
    · exact row (13, 2, s.waitList.length) (by simp [State.channelFields, offsets])
    · refine row.sub ?_
      simp [State.channelFields, offsets, empty, slotNumber]
    · refine row.sub ?_
      simp [State.channelFields, offsets, first, slotNumber]
  · exact exec_refused h (by simp only [actOf, actLineRead, asLine, below_of_le out])
  · refine ⟨pack (s.line l).fields, ?_, by simp [pack_length, LineRec.fields], fieldsAt_only (s.line l).fields rfl⟩
    refine exec_read (content := fun u => pack (u.line l).fields) h (fun u => ?_) fun u => by simp
    simp only [actOf, actLineRead, asLine, below_val l hl, lineBytes_eq]
  · have bytes := slotBytes_eq s
    have row : (pack ((List.finRange 24).flatMap s.slotFields)).length = 48 := by
      rw [length_flatMap (w := 2) s.slotFields fun _ => rfl, List.length_finRange]
    refine ⟨_, exec_read (content := fun u => (((List.finRange 24).flatMap fun h =>
      codeField (u.slotOf h) ++ field 1 (u.modeOf h).code) ++ [u.idleByte])) h (fun u => rfl) fun u => by simp, ?_, fun i => ?_, ?_⟩
    · simp [bytes, row, pack_length]
    · refine (fieldsAt_row (n := 0) (pre := []) rfl _ _ bytes).sub fun e he => ?_
      exact mem_offsets_finRange (w := 2) s.slotFields (fun _ => rfl) 0 i e (by rw [Nat.zero_add]; exact he)
    · exact fieldsAt_row row _ _ bytes _ (.head _)
  · have bytes := watchRecord_eq s
    have row : (pack ((List.finRange 64).flatMap s.groupFlagFields)).length = 64 := by
      rw [length_flatMap (w := 1) s.groupFlagFields fun _ => rfl, List.length_finRange]
    have head : (pack s.deviceFields).length = 3 := by simp [pack_length, State.deviceFields]
    refine ⟨_, exec_read (content := fun u => u.deviceFlags ++ u.deviceMasks ++ flagByte [u.device.starvedCondition]
      ++ (List.finRange 64).flatMap fun g => watchByte (u.group g).flags) h (fun u => rfl)
        fun u => by simp [State.deviceFlags, State.deviceMasks], ?_, ?_, fun g => ?_⟩
    · rw [bytes, List.append_nil, List.length_append, head, row]
    · exact fieldsAt_row (n := 0) (pre := []) rfl s.deviceFields _ bytes
    · refine fieldsAt_row head _ _ bytes (3 + g.val, 1, _) (mem_offsets_finRange (w := 1) s.groupFlagFields (fun _ => rfl) 3 g _ ?_)
      rw [Nat.one_mul]
      exact .head _

end Sys2Proof.Machine

/-! The checks of the agent requests, the late answers, and the extension and the end of a wrap (R8, R17, R18, R117 to R121). -/

namespace Sys2Proof.Machine

/-! ### The checks of R8 -/

theorem asAgent_unnamed {s : State} {ps : List Byte} (h : ∀ a, ¬Names s ps a) (p : Port) (home : Bool) (body : List Byte)
    (act : AgentSlot → Reply) : asAgent p home ps (s.taken p body) act = .refuse (s.taken p body) .noAgent := by
  unfold asAgent below
  by_cases hv : u16 ps 0 < 512
  · have undefined : (s.agent ⟨u16 ps 0, hv⟩).defined = false := by
      by_contra defined
      exact h ⟨u16 ps 0, hv⟩ ⟨rfl, by simpa using defined⟩
    simp [hv, undefined]
  · simp [hv]

theorem asAgent_away {s : State} {p : Port} {ps : List Byte} {a : AgentSlot} (hn : Names s ps a)
    (hp : p ≠ portOf (s.agent a).home) (body : List Byte) (act : AgentSlot → Reply) :
    asAgent p true ps (s.taken p body) act = .refuse (s.taken p body) .notHome := by
  simp [asAgent, below_val a hn.names, hn.defined, hp]

/-- The kinds of request that act on the agent they name (R8). -/
def agentKinds : List Kind :=
  [.signIn, .ready, .aux, .signOut, .forceAux, .forceSignOut, .wrapExtend, .wrapEnd, .agentAnswer, .agentNoAnswer, .agentHangup]

/-- Each of these kinds makes the checks 2 and 3 of R8 before anything else, check 3 unless it is forced. -/
theorem actOf_asAgent {k : Kind} (h : k ∈ agentKinds) (p : Port) (ps : List Byte) :
    ∃ act : State → AgentSlot → Reply, ∀ s,
      actOf k p ps s = asAgent p (decide (k ≠ .forceAux ∧ k ≠ .forceSignOut)) ps s (act s) := by
  simp only [agentKinds, List.mem_cons, List.not_mem_nil, or_false] at h
  rcases h with rfl | rfl | rfl | rfl | rfl | rfl | rfl | rfl | rfl | rfl | rfl <;> exact ⟨_, fun s => rfl⟩

theorem reasonOk_out {r : Nat} (h : r = 0 ∨ 15 ≤ r) : reasonOk r = false := by
  simp only [reasonOk, Bool.and_eq_false_iff, decide_eq_false_iff_not]
  omega

theorem shelfOfByte_out {v : Nat} (h : 2 ≤ v) : shelfOfByte v = none := by
  rw [shelfOfByte, if_neg (by omega), if_neg (by omega)]

/-- A request with a reason out of range is refused after the checks 2 and 3 (R11, R13). -/
theorem act_badReason {s : State} {k : Kind} {p : Port} {ps : List Byte} {a : AgentSlot} (ha : ActsOn s k p ps a)
    (hk : k = .aux ∨ k = .forceAux) (out : u8 ps 2 = 0 ∨ 15 ≤ u8 ps 2) (body : List Byte) :
    actOf k p ps (s.taken p body) = .refuse (s.taken p body) .badParam := by
  have bad := reasonOk_out out
  rcases hk with rfl | rfl
  · simp only [actOf, actAux, actsOn_asAgent ha nofun nofun, bad, Bool.false_eq_true, if_false]
  · simp only [actOf, actForceAux, asAgent_taken false body _ ha.toNames nofun, bad, Bool.false_eq_true, if_false]

/-- The kinds of request that name a call after their agent (R17, R18), what they seek and how they answer when it is not there. -/
theorem act_badShelf {s : State} {k : Kind} {p : Port} {ps : List Byte} {a : AgentSlot} (ha : ActsOn s k p ps a)
    (hk : k = .agentAnswer ∨ k = .agentNoAnswer ∨ k = .agentHangup) (out : 2 ≤ u8 ps 2) (body : List Byte) :
    actOf k p ps (s.taken p body) = .refuse (s.taken p body) .badParam := by
  have bad : namedCall ps = none := by simp [namedCall, shelfOfByte_out out]
  rcases hk with rfl | rfl | rfl <;>
    simp only [actOf, actAgentAnswer, actAgentNoAnswer, actAgentHangup, actsOn_asAgent ha nofun nofun, bad]

/-- Settles O15. -/
theorem agentRequestsAreCheckedInOrder : Obligations.AgentRequestsAreCheckedInOrder := by
  unfold Obligations.AgentRequestsAreCheckedInOrder
  intro s k p ps h hk
  obtain ⟨act, checks⟩ := actOf_asAgent hk p ps
  refine ⟨fun unnamed => ?_, fun a ha => ⟨fun notAux notOut away => ?_, fun acts aux out => ?_, fun acts call out => ?_⟩⟩
  · exact exec_refused h (by rw [checks, asAgent_unnamed unnamed])
  · exact exec_refused h (by rw [checks, decide_eq_true ⟨notAux, notOut⟩, asAgent_away ha away])
  · exact exec_refused h (act_badReason acts aux out _)
  · exact exec_refused h (act_badShelf acts call out _)

/-! ### Late answers and hang-ups (R17, R18, R100) -/

/-- The agent is not bound in the state asked for to the call that the parameters name. -/
theorem boundAs_none {s : State} {a : AgentSlot} {st : AgentState} {ps : List Byte} {x : Shelf}
    (h : ¬((s.agent a).state = st
      ∧ ∃ c r, (s.agent a).boundCall = some c ∧ s.call c = some r ∧ r.owner = x ∧ r.tag.toNat = u16 ps 3)) (hu : u16 ps 3 < 65536) :
    s.boundAs a st (x, BitVec.ofNat 16 (u16 ps 3)) = none := by
  unfold State.boundAs
  by_contra found
  refine h ?_
  dsimp only at found
  split at found
  · next hs =>
    refine ⟨hs, ?_⟩
    cases hb : (s.agent a).boundCall with
    | none => simp [hb] at found
    | some c =>
      cases hr : s.call c with
      | none => simp [hb, hr] at found
      | some r =>
        simp only [hb, hr, ite_eq_right_iff, reduceCtorEq, imp_false, not_not] at found
        refine ⟨c, r, rfl, hr, found.1, ?_⟩
        rw [found.2]
        simp [Nat.mod_eq_of_lt hu]
  · exact absurd rfl found

@[simp] theorem taken_boundAs (s : State) (p : Port) (body : List Byte) (a : AgentSlot) (st : AgentState) (n : Shelf × Tag) :
    (s.taken p body).boundAs a st n = s.boundAs a st n := by cases p <;> rfl

/-- Settles O22. -/
theorem lateAnswersAndHangupsChangeNothing : Obligations.LateAnswersAndHangupsChangeNothing := by
  unfold Obligations.LateAnswersAndHangupsChangeNothing
  intro s k p ps a h ha x hx
  have named : namedCall ps = some (x, BitVec.ofNat 16 (u16 ps 3)) := by simp [namedCall, hx]
  refine ⟨fun hk absent => exec_refused h ?_, fun hk absent => exec_refused h ?_⟩
  · have none := boundAs_none absent (u16_lt ps 3)
    rcases hk with rfl | rfl
    · simp only [actOf, actAgentAnswer, actsOn_asAgent ha nofun nofun, named, taken_boundAs, none]
    · simp only [actOf, actAgentNoAnswer, actsOn_asAgent ha nofun nofun, named, taken_boundAs, none]
  · subst hk
    have none := boundAs_none absent (u16_lt ps 3)
    simp only [actOf, actAgentHangup, actsOn_asAgent ha nofun nofun, named, taken_boundAs, none]

/-! ### WRAP_EXTEND (R117, R118) -/

/-- An agent whose state and skills stay is written without a change of a staffed count (R134). -/
theorem writeAgent_eq_setAgent {s : State} {a : AgentSlot} {new : AgentRec} (hs : new.state = (s.agent a).state)
    (hk : new.skills = (s.agent a).skills) : s.writeAgent a new = s.setAgent a new := by
  have same (g : Group) : (s.agent a).counts g = new.counts g := by simp [AgentRec.counts, AgentRec.skillFor, hs, hk]
  unfold State.writeAgent
  generalize s.setAgent a new = u
  induction List.finRange 64 generalizing u with
  | nil => rfl
  | cons g l ih => rw [List.foldl_cons, State.restaff, if_pos (same g), ih]

theorem moveAgent_eq_hand {s : State} {a : AgentSlot} {new : AgentRec} (hs : new.state = (s.agent a).state)
    (hk : new.skills = (s.agent a).skills) (hr : new.state ≠ .ready) :
    s.moveAgent a new = (s.setAgent a new).handAgentState a := by
  simp [State.moveAgent, State.changeAgent, writeAgent_eq_setAgent hs hk, hr]

/-- An agent's record written by a taken request and answered is the answered state with that record. -/
theorem answer_setAgent (s : State) (p : Port) (body : List Byte) (a : AgentSlot) (new : AgentRec) (r : Result)
    (content : List Byte) :
    State.answer p { state := (s.taken p body).setAgent a new, result := r, content := content } =
      (s.answered p body r content).setAgent a new := by
  rw [← answer_unchanged]
  cases p <;> rfl

/-- The record of an agent whose wrap has been extended (R117). -/
def AgentRec.extended (r : AgentRec) (step : Nat) : AgentRec :=
  { r with wrap := { r.wrap with finish := min (r.wrap.finish + step) (r.wrap.start + r.wrap.cap), extensions := r.wrap.extensions + 1 } }

/-- WRAP_EXTEND of an agent acted on, along R16 and R117. -/
theorem actWrapExtend_eq {s : State} {p : Port} {ps : List Byte} {a : AgentSlot} (h : ActsOn s .wrapExtend p ps a) (body : List Byte) :
    actWrapExtend p ps (s.taken p body) =
      let w := (s.agent a).wrap
      let g := (s.group w.group).active
      let new := (s.agent a).extended g.extStep
      if (s.agent a).state ≠ .wrap then .refuse (s.taken p body) .badState
      else if g.extLimit ≤ w.extensions then .refuse (s.taken p body) .limit
      else
        { state := if new.wrap.finish = w.finish then (s.taken p body).setAgent a new
            else ((s.taken p body).setAgent a new).handAgentState a
          result := if w.finish + g.extStep ≤ w.start + w.cap then .ok else .okClamped
          content := field 2 (new.wrap.finish - s.clock) ++ field 1 (w.extensions + 1) } := by
  rw [actWrapExtend, actsOn_asAgent h nofun nofun]
  simp only [taken_agent, taken_group, taken_clock]
  rfl

/-- Settles O20. -/
theorem wrapExtendMovesTheEndUpToTheCap : Obligations.WrapExtendMovesTheEndUpToTheCap := by
  unfold Obligations.WrapExtendMovesTheEndUpToTheCap
  intro s p ps a h ha w g finish new
  have act := actWrapExtend_eq ha (frame ps)
  dsimp only at act
  refine ⟨fun hs => exec_refused h ?_, fun hs limit => exec_refused h ?_, fun hs room => ?_⟩
  · exact act.trans (if_pos hs)
  · exact act.trans ((if_neg (not_not.mpr hs)).trans (if_pos limit))
  · have extends_ := act.trans ((if_neg (not_not.mpr hs)).trans (if_neg (Nat.not_le.mpr room)))
    refine ⟨field 2 (finish - s.clock) ++ field 1 (w.extensions + 1), by simp, ?_, fun stays => ?_, fun moves => ?_⟩
    · exact fieldsAt_only [(2, finish - s.clock), (1, w.extensions + 1)] (by simp [pack])
    · have same : ((s.agent a).extended g.extStep).wrap.finish = w.finish := stays
      rw [if_pos same] at extends_
      change exec (Kind.wrapExtend.command p (frame ps)) s = _
      rw [exec_taken h, show actOf .wrapExtend p ps = actWrapExtend p ps from rfl, extends_]
      exact congrArg _ (answer_setAgent ..)
    · have other : ((s.agent a).extended g.extStep).wrap.finish ≠ w.finish := moves
      rw [if_neg other] at extends_
      have moved := moveAgent_eq_hand (s := s.taken p (frame ps)) (a := a) (new := new) (by rw [taken_agent]) (by rw [taken_agent])
        (by rw [show new.state = .wrap from hs]; nofun)
      refine exec_moved h ⟨rfl, rfl, rfl⟩ (extends_.trans ?_)
      rw [moved]
      rfl

/-! ### The end of a wrap (R120, R121) -/

/-- The end of a wrap is the sample, then the agent's move to the state that the pending change gives (R120). -/
theorem endWrap_eq (s : State) (a : AgentSlot) :
    s.endWrap a false = (s.withWrapSample a).moveAgent a ((s.agent a).afterPending s.clock) := by
  simp only [State.endWrap, State.withWrapSample, takeSample_eq, freed_eq, Bool.false_eq_true, if_false]

theorem withWrapSample_agent (s : State) (a b : AgentSlot) : (s.withWrapSample a).agent b = s.agent b := by
  unfold State.withWrapSample
  dsimp only
  split <;> rfl

theorem taken_withWrapSample (s : State) (p : Port) (body : List Byte) (a : AgentSlot) :
    (s.taken p body).withWrapSample a = (s.withWrapSample a).taken p body := by
  simp only [State.withWrapSample, taken_agent, taken_group, taken_clock]
  split
  · cases p <;> rfl
  · rfl

theorem afterPending_same (r : AgentRec) (now : Nat) : r.SameDefinition (r.afterPending now) := by
  unfold AgentRec.afterPending
  cases r.pending <;> exact ⟨rfl, rfl, rfl⟩

/-- The end of a wrap by a request answers the state and the reason that the agent has reached (R121). -/
theorem finishWrap_eq (s : State) (p : Port) (body : List Byte) (a : AgentSlot) :
    let new := (s.agent a).afterPending s.clock
    (s.taken p body).finishWrap a =
      { state := ((s.withWrapSample a).taken p body).moveAgent a new, result := .ok,
        content := field 1 new.state.code ++ field 1 new.auxReason } := by
  dsimp only
  have ended := endWrap_eq (s.taken p body) a
  rw [taken_withWrapSample, taken_agent, taken_clock] at ended
  simp only [State.finishWrap, ended, moveAgent_stateContent]
  rfl

/-- A request that ends a wrap. -/
theorem wrapEnd_answered {s : State} {k : Kind} {p : Port} {ps : List Byte} {a : AgentSlot} (h : Takes s k p ps)
    (hact : actOf k p ps (s.taken p (frame ps)) = (s.taken p (frame ps)).finishWrap a) :
    let new := (s.agent a).afterPending s.clock
    ∃ t c, exec (k.command p (frame ps)) s = .next t ∧ c.length = 2 ∧ FieldsAt c [(0, 1, new.state.code), (1, 1, new.auxReason)]
      ∧ AgentAnswered (s.withWrapSample a) t p .ok c a new := by
  intro new
  have same : ((s.withWrapSample a).agent a).SameDefinition new := by
    rw [withWrapSample_agent]
    exact afterPending_same _ _
  refine ⟨_, field 1 new.state.code ++ field 1 new.auxReason, ?_, by simp, ?_, moveAgent_answered (body := frame ps) .ok _ same⟩
  · rw [exec_taken h, hact, finishWrap_eq]
  · exact fieldsAt_only [(1, new.state.code), (1, new.auxReason)] (by simp [pack])

/-- Settles O21. -/
theorem wrapEndsByExpiryAndByRequest : Obligations.WrapEndsByExpiryAndByRequest := by
  unfold Obligations.WrapEndsByExpiryAndByRequest
  intro s a
  refine ⟨fun hs due => ?_, fun early => ?_, fun k p ps hk h ha => ⟨fun wrapEnd hs => ?_, fun hs => ?_⟩⟩
  · refine ⟨(s.withWrapSample a).moveAgent a ((s.agent a).afterPending s.clock), ?_, moveAgent_change _ _ _⟩
    change Host.Outcome.next (s.expireWrap a) = _
    rw [State.expireWrap, if_pos ((wrapDue_iff s a).mpr ⟨hs, due⟩), endWrap_eq]
  · change Host.Outcome.next (s.expireWrap a) = _
    rw [State.expireWrap, if_neg fun due => early ((wrapDue_iff s a).mp due)]
  · subst wrapEnd
    exact exec_refused h (by simp only [actOf, actWrapEnd, actsOn_asAgent ha nofun nofun, taken_agent, if_neg hs])
  · refine wrapEnd_answered h ?_
    rcases hk with rfl | rfl
    · exact actWrapEnd_wrap ha _ hs
    · rw [show actOf .ready p ps = actReady p ps from rfl, actReady_eq ha, hs]

end Sys2Proof.Machine

/-! AGENT_DEFINE (R5, R6): its checks in order, and what a definition taken leaves. -/

namespace Sys2Proof.Machine

/-! ### The skill list that a request writes (R197) -/

theorem skillsOf_exists {l : List (Nat × Nat)} (h : ∀ k ∈ l, k.1 < 64 ∧ 1 ≤ k.2 ∧ k.2 ≤ 9) : ∃ ks, skillsOf l = some ks := by
  induction l with
  | nil => exact ⟨[], rfl⟩
  | cons e rest ih =>
    obtain ⟨group, level⟩ := h e List.mem_cons_self
    obtain ⟨ks, hks⟩ := ih fun k hk => h k (List.mem_cons_of_mem e hk)
    exact ⟨⟨⟨e.1, group⟩, e.2⟩ :: ks, by simp [skillsOf, below, group, hks, level]⟩

theorem skillsOf_map {ks : List Skill} (h : ∀ k ∈ ks, 1 ≤ k.level ∧ k.level ≤ 9) :
    skillsOf (ks.map fun k => (k.group.val, k.level)) = some ks := by
  induction ks with
  | nil => rfl
  | cons k ks ih =>
    have rest := ih fun q hq => h q (List.mem_cons_of_mem k hq)
    simp [skillsOf, below_val k.group rfl, rest, h k List.mem_cons_self]

/-- A skill list with a level outside 1–9 is none (R5). -/
theorem skillsOf_badLevel {l : List (Nat × Nat)} (h : ∃ k ∈ l, k.2 = 0 ∨ 9 < k.2) : skillsOf l = none := by
  cases hks : skillsOf l with
  | none => rfl
  | some ks =>
    obtain ⟨pairs, levels⟩ := skillsOf_some hks
    obtain ⟨k, hk, bad⟩ := h
    rw [pairs] at hk
    obtain ⟨q, hq, rfl⟩ := List.mem_map.mp hk
    have := levels q hq
    dsimp only at bad
    omega

theorem shelfOfByte_in {v : Nat} (h : v < 2) : ∃ x, shelfOfByte v = some x := by
  unfold shelfOfByte
  split
  · exact ⟨_, rfl⟩
  · exact ⟨.b, if_pos (by omega)⟩

/-! ### The checks (R5) -/

section
variable {ps : List Byte} {a : AgentSlot} (s : State)

theorem agentDefine_unknown (h : 512 ≤ u16 ps 0) : actAgentDefine ps s = .refuse s .noAgent := by
  simp only [actAgentDefine, below_of_le h]

theorem agentDefine_badGroup (ha : u16 ps 0 = a.val) (h : ∃ k ∈ skillPairs ps, 64 ≤ k.1) :
    actAgentDefine ps s = .refuse s .badGroup := by
  have any : ((skillPairs ps).any fun k => decide (64 ≤ k.1)) = true := by simpa using h
  simp only [actAgentDefine, below_val a ha, any, if_true]

theorem groups_in {l : List (Nat × Nat)} (h : ∀ k ∈ l, k.1 < 64) : (l.any fun k => decide (64 ≤ k.1)) = false := by
  simpa using h

/-- A level, a shelf, a flag, a count or a repeated group out of R197's ranges is refused. -/
theorem agentDefine_badParam (ha : u16 ps 0 = a.val) (hg : ∀ k ∈ skillPairs ps, k.1 < 64)
    (bad : (∃ k ∈ skillPairs ps, k.2 = 0 ∨ 9 < k.2) ∨ ¬((skillPairs ps).map Prod.fst).Nodup ∨ 8 < u8 ps 4 ∨ 1 < u8 ps 2
      ∨ 2 ≤ u8 ps 3) : actAgentDefine ps s = .refuse s .badParam := by
  simp only [actAgentDefine, below_val a ha, groups_in hg, Bool.false_eq_true, if_false]
  cases hks : skillsOf (skillPairs ps) with
  | none => rfl
  | some ks =>
    cases hx : shelfOfByte (u8 ps 3) with
    | none => rfl
    | some x =>
      have levels : ¬∃ k ∈ skillPairs ps, k.2 = 0 ∨ 9 < k.2 := fun h => by
        rw [skillsOf_badLevel h] at hks
        cases hks
      have shelf : ¬2 ≤ u8 ps 3 := fun h => by
        rw [shelfOfByte_out h] at hx
        cases hx
      refine if_pos ?_
      simp only [Bool.or_eq_true, Bool.not_eq_true', decide_eq_false_iff_not, decide_eq_true_eq]
      rcases bad with h | h | h | h | h
      · exact absurd h levels
      · exact .inl (.inl h)
      · exact .inl (.inr h)
      · exact .inr h
      · exact absurd h shelf

/-- A request whose parameters are in range goes on to the agent's state: what is left of AGENT_DEFINE. -/
theorem agentDefine_inRange (ha : u16 ps 0 = a.val) {ks : List Skill} {x : Shelf} (hg : ∀ k ∈ skillPairs ps, k.1 < 64)
    (hks : skillsOf (skillPairs ps) = some ks) (hx : shelfOfByte (u8 ps 3) = some x)
    (distinct : ((skillPairs ps).map Prod.fst).Nodup) (count : u8 ps 4 ≤ 8) (flag : u8 ps 2 ≤ 1) :
    actAgentDefine ps s =
      if (s.agent a).state = .offered then .refuse s .busy
      else if ((s.agent a).home ≠ x ∨ u8 ps 2 = 0) ∧ (s.agent a).state ≠ .signedOut then .refuse s .badState
      else if u8 ps 2 = 0 then (if (s.agent a).defined then .ok (s.undefine a) else .ok s)
      else .ok (if (s.agent a).state = .ready ∧ (s.agent a).skills ≠ ks then (s.redefine a x ks).raiseAgentTrigger a
        else s.redefine a x ks) := by
  have out : (!decide ((skillPairs ps).map Prod.fst).Nodup || decide (8 < u8 ps 4) || decide (1 < u8 ps 2)) = false := by
    simp [distinct, count, flag]
  simp only [actAgentDefine, below_val a ha, groups_in hg, Bool.false_eq_true, if_false, hks, hx, out]
  rfl

end

/-- Settles O26. -/
theorem agentDefineIsCheckedInOrder : Obligations.AgentDefineIsCheckedInOrder := by
  unfold Obligations.AgentDefineIsCheckedInOrder
  intro s ps h pairs bad
  refine ⟨fun unknown => exec_refused h (agentDefine_unknown _ unknown), fun a ha =>
    ⟨fun badGroup => exec_refused h (agentDefine_badGroup _ ha badGroup), fun hg =>
      ⟨fun out => exec_refused h (agentDefine_badParam _ ha hg out), fun legal offered => ?_,
        fun legal notOffered engaged away => ?_⟩⟩⟩
  all_goals
    simp only [bad, not_or, not_exists, not_and, not_lt, not_le, not_not] at legal
    obtain ⟨levels, distinct, count, flag, shelf⟩ := legal
    obtain ⟨ks, hks⟩ := skillsOf_exists fun k hk =>
      ⟨hg k hk, Nat.one_le_iff_ne_zero.mpr (levels k hk).1, (levels k hk).2⟩
    obtain ⟨x, hx⟩ := shelfOfByte_in shelf
    have act := agentDefine_inRange (s.taken .s (frame ps)) ha hg hks hx distinct count flag
    rw [taken_agent] at act
  · exact exec_refused h (act.trans (if_pos offered))
  · have moved : (s.agent a).home ≠ x ∨ u8 ps 2 = 0 := away.imp_left fun ne e => ne (by rw [hx, e])
    exact exec_refused h (act.trans ((if_neg notOffered).trans (if_pos ⟨moved, engaged⟩)))

/-! ### A record rewritten without a notice -/

/-- The agents, the groups, port S's queue and the device record are the same, and but for shelf ports and agent triggers so is all
else. -/
structure SameRoster (s t : State) : Prop where
  agents : t.agents = s.agents
  groups : t.groups = s.groups
  watches : SameQueue s t .s
  device : t.device = s.device
  rest : t = s.withRosterOf t

namespace SameRoster

variable {s t : State}

theorem agent (h : SameRoster s t) (a : AgentSlot) : t.agent a = s.agent a := congrArg (Vector.get · a) h.agents
theorem group (h : SameRoster s t) (g : Group) : t.group g = s.group g := congrArg (Vector.get · g) h.groups

theorem noStaffHolds (h : SameRoster s t) (g : Group) : t.noStaffHolds g = s.noStaffHolds g := by
  simp only [State.noStaffHolds, h.group]

end SameRoster

theorem taken_sameRoster (s : State) (p : Port) (body : List Byte) : SameRoster s (s.taken p body) :=
  ⟨taken_agents .., taken_groups .., ⟨taken_notices .., taken_owed ..⟩, taken_device .., taken_roster ..⟩

theorem answer_sameRoster (p : Port) (r : Reply) : SameRoster r.state (State.answer p r) :=
  ⟨by simp [answer_eq], by simp [answer_eq], ⟨answer_notices .., answer_owed ..⟩, by simp [answer_eq], answer_roster ..⟩

theorem removeOwed_sameRoster (s : State) (x : Shelf) (o : OwedPair) : SameRoster s (s.removeOwed (portOf x) o) := by
  cases x <;> exact ⟨rfl, rfl, ⟨rfl, rfl⟩, rfl, rfl⟩

theorem raiseAgentTrigger_sameRoster (s : State) (a : AgentSlot) : SameRoster s (s.raiseAgentTrigger a) := by
  unfold State.raiseAgentTrigger
  split <;> exact ⟨rfl, rfl, ⟨rfl, rfl⟩, rfl, rfl⟩

theorem writeAgent_rewritten (s : State) (a : AgentSlot) (new : AgentRec) : AgentRewritten s (s.writeAgent a new) a new := by
  have staff := writeAgent_staff s a new
  have group := writeAgent_group s a new
  constructor
  case record => rw [writeAgent_agent, if_pos rfl]
  case others => intro b hb; rw [writeAgent_agent, if_neg hb]
  case watch => exact ⟨staff.watch.notices, staff.watch.owed, staff.watch.raised, staff.watch.device⟩
  case staffed =>
    intro g
    rw [group, GroupRec.restaffed, staffedAfter, staffs_eq, staffs_eq]
    split
    next same => simp
    next other => simp [staffs_eq, other]
  case kept =>
    intro g same
    rw [staffs_eq, staffs_eq] at same
    rw [group, GroupRec.restaffed, if_pos same]
  case noStaff =>
    intro g other
    rw [staffs_eq, staffs_eq] at other
    have here := group g
    rw [GroupRec.restaffed, if_neg other] at here
    have holds : (s.writeAgent a new).noStaffHolds g =
        (!(s.group g).queue.isEmpty && staffedAfter (s.agent a) new g (s.group g).staffed == 0) := by
      simp only [State.noStaffHolds, here]
    rw [holds, here]
    rfl
  case rest => exact writeAgent_roster s a new

/-- The same WATCHes seen from states with the same queue of port S and device record. -/
theorem WatchSide.congr {s u v t : State} (h : WatchSide u v) (before : SameQueue s u .s) (deviceBefore : u.device = s.device)
    (after : SameQueue v t .s) (deviceAfter : t.device = v.device) : WatchSide s t := by
  obtain ⟨⟨l, placed⟩, owed, raised, device⟩ := h
  refine ⟨⟨l, by rw [after.1, placed, before.1]⟩, ?_, ?_, ?_⟩
  · rw [after.2, owed, before.2, deviceAfter, deviceBefore]
  · rwa [deviceAfter, ← deviceBefore]
  · rwa [deviceAfter, ← deviceBefore]

/-- The same seen from a state before and after that differ in shelf ports and agent triggers alone. -/
theorem AgentRewritten.congr {s u v t : State} {a : AgentSlot} {new : AgentRec} (h : AgentRewritten u v a new)
    (before : SameRoster s u) (after : SameRoster v t) : AgentRewritten s t a new := by
  constructor
  case record => rw [after.agent, h.record]
  case others => intro b hb; rw [after.agent, h.others b hb, before.agent]
  case watch => exact h.watch.congr before.watches before.device after.watches after.device
  case staffed => intro g; rw [after.group, h.staffed, before.group, before.agent]
  case kept =>
    intro g same
    rw [after.group, h.kept g (by rwa [before.agent]), before.group]
  case noStaff =>
    intro g other
    have here := h.noStaff g (by rwa [before.agent])
    rw [before.group] at here
    rw [after.group, after.noStaffHolds]
    exact here
  case rest => exact withRosterOf_trans (withRosterOf_trans before.rest h.rest) after.rest


/-! ### A definition taken (R5, R6) -/

theorem undefine_rewritten (s : State) (a : AgentSlot) : AgentRewritten s (s.undefine a) a {} := by
  have removed := removeOwed_sameRoster s (s.agent a).home (.agentState a)
  exact (writeAgent_rewritten _ a {}).congr removed ⟨rfl, rfl, ⟨rfl, rfl⟩, rfl, rfl⟩

theorem redefine_rewritten (s : State) (a : AgentSlot) (x : Shelf) (ks : List Skill) :
    AgentRewritten s (s.redefine a x ks) a
      { s.agent a with
        defined := true, home := x, skills := ks, owed := (s.agent a).owed && decide ((s.agent a).home = x) } := by
  have same (t : State) : SameRoster t t := ⟨rfl, rfl, ⟨rfl, rfl⟩, rfl, rfl⟩
  have home : ((s.agent a).home == x) = decide ((s.agent a).home = x) := rfl
  unfold State.redefine
  rw [home]
  refine (writeAgent_rewritten _ a _).congr ?_ (same _)
  split
  · exact same s
  · exact removeOwed_sameRoster ..

/-- The shelf ports' queues: the write of a record leaves them alone. -/
theorem writeAgent_queues (s : State) (a : AgentSlot) (new : AgentRec) (y : Shelf) :
    ((s.writeAgent a new).port (portOf y)).notices = (s.port (portOf y)).notices
      ∧ ((s.writeAgent a new).port (portOf y)).owed = (s.port (portOf y)).owed := by
  rw [(writeAgent_staff s a new).queues _ (portOf_ne_s y), State.setAgent_port]
  exact ⟨rfl, rfl⟩

theorem removeOwed_notices (s : State) (p : Port) (o : OwedPair) (q : Port) :
    ((s.removeOwed p o).port q).notices = (s.port q).notices := by
  rw [State.removeOwed, State.modPort_eq, State.setPort_port]
  split
  next e => rw [e]
  next => rfl

/-- The pair leaves the list of its port. -/
theorem removeOwed_owed (s : State) (x y : Shelf) (o : OwedPair) :
    ((s.removeOwed (portOf x) o).port (portOf y)).owed =
      if y = x then (s.port (portOf y)).owed.filter (· != o) else (s.port (portOf y)).owed := by
  rw [removeOwed_lists]
  split
  next e => simp [e]
  next e =>
    have other : portOf y ≠ portOf x := fun h => e (portOf_injective h)
    simp [other]

theorem undefine_notices (s : State) (a : AgentSlot) (y : Shelf) :
    ((s.undefine a).port (portOf y)).notices = (s.port (portOf y)).notices := by
  rw [State.undefine, (writeAgent_queues _ _ _ y).1, removeOwed_notices]

theorem undefine_owed (s : State) (a : AgentSlot) (y : Shelf) :
    ((s.undefine a).port (portOf y)).owed =
      if y = (s.agent a).home then (s.port (portOf y)).owed.filter (· != .agentState a) else (s.port (portOf y)).owed := by
  rw [State.undefine, (writeAgent_queues _ _ _ y).2, removeOwed_owed]

theorem redefine_notices (s : State) (a : AgentSlot) (x : Shelf) (ks : List Skill) (y : Shelf) :
    ((s.redefine a x ks).port (portOf y)).notices = (s.port (portOf y)).notices := by
  rw [State.redefine, (writeAgent_queues _ _ _ y).1]
  split
  · rfl
  · rw [removeOwed_notices]

theorem redefine_owed (s : State) (a : AgentSlot) (x : Shelf) (ks : List Skill) (y : Shelf) :
    ((s.redefine a x ks).port (portOf y)).owed =
      if y = (s.agent a).home ∧ y ≠ x then (s.port (portOf y)).owed.filter (· != .agentState a)
      else (s.port (portOf y)).owed := by
  rw [State.redefine, (writeAgent_queues _ _ _ y).2]
  by_cases stays : (s.agent a).home = x
  · rw [if_pos stays, if_neg fun h => h.2 (h.1.trans stays)]
  · rw [if_neg stays, removeOwed_owed]
    by_cases old : y = (s.agent a).home
    · rw [if_pos old, if_pos ⟨old, fun h => stays (old.symm.trans h)⟩]
    · rw [if_neg old, if_neg fun h => old h.1]

theorem writeAgent_triggers (s : State) (a : AgentSlot) (new : AgentRec) : (s.writeAgent a new).agentTriggers = s.agentTriggers := by
  rw [(writeAgent_staff s a new).rest]
  rfl

theorem removeOwed_triggers (s : State) (p : Port) (o : OwedPair) : (s.removeOwed p o).agentTriggers = s.agentTriggers := by
  cases p <;> rfl

theorem redefine_triggers (s : State) (a : AgentSlot) (x : Shelf) (ks : List Skill) :
    (s.redefine a x ks).agentTriggers = s.agentTriggers := by
  rw [State.redefine, writeAgent_triggers]
  split
  · rfl
  · rw [removeOwed_triggers]

theorem removeOwed_slots (s : State) (p : Port) (o : OwedPair) : KeepsSlots s (s.removeOwed p o) :=
  (removeOwed_moves (ties := false) s p o).slots

theorem undefine_slots (s : State) (a : AgentSlot) : KeepsSlots s (s.undefine a) :=
  (removeOwed_slots s _ _).trans (writeAgent_slots _ a _)

theorem redefine_slots (s : State) (a : AgentSlot) (x : Shelf) (ks : List Skill) : KeepsSlots s (s.redefine a x ks) := by
  unfold State.redefine
  refine .trans ?_ (writeAgent_slots _ a _)
  split
  · exact .refl s
  · exact removeOwed_slots ..

/-- What AGENT_DEFINE leaves for a new definition: the record, then the trigger of a READY agent whose skills differ (R6). -/
def State.defined (s : State) (a : AgentSlot) (x : Shelf) (ks : List Skill) : State :=
  if (s.agent a).state = .ready ∧ (s.agent a).skills ≠ ks then (s.redefine a x ks).raiseAgentTrigger a else s.redefine a x ks

theorem defined_sameRoster (s : State) (a : AgentSlot) (x : Shelf) (ks : List Skill) :
    SameRoster (s.redefine a x ks) (s.defined a x ks) := by
  unfold State.defined
  split
  · exact raiseAgentTrigger_sameRoster ..
  · exact ⟨rfl, rfl, ⟨rfl, rfl⟩, rfl, rfl⟩

theorem defined_port (s : State) (a : AgentSlot) (x : Shelf) (ks : List Skill) (p : Port) :
    (s.defined a x ks).port p = (s.redefine a x ks).port p := by
  unfold State.defined State.raiseAgentTrigger
  split
  · split <;> cases p <;> rfl
  · rfl

theorem defined_triggers (s : State) (a : AgentSlot) (x : Shelf) (ks : List Skill) :
    (s.defined a x ks).agentTriggers =
      if (s.agent a).state = .ready ∧ (s.agent a).skills ≠ ks ∧ a ∉ s.agentTriggers then s.agentTriggers ++ [a]
      else s.agentTriggers := by
  unfold State.defined State.raiseAgentTrigger
  rw [redefine_triggers]
  by_cases differs : (s.agent a).state = .ready ∧ (s.agent a).skills ≠ ks
  · by_cases waits : a ∈ s.agentTriggers <;> simp [differs, waits, redefine_triggers]
  · rw [if_neg differs, if_neg fun h => differs ⟨h.1, h.2.1⟩, redefine_triggers]

/-- The answer of a request that has rewritten agent `a`'s record. -/
theorem rewritten_answered {s v : State} {p : Port} {body : List Byte} {a : AgentSlot} {new : AgentRec}
    (h : AgentRewritten (s.taken p body) v a new) (slots : KeepsSlots (s.taken p body) v) :
    let t := State.answer p (.ok v)
    Answered t p .ok [] ∧ OtherSlots s t p ∧ AgentRewritten s t a new :=
  ⟨answer_answered (r := .ok v) slots, answer_otherSlots (r := .ok v) slots,
    h.congr (taken_sameRoster s p body) (answer_sameRoster p (.ok v))⟩

theorem answer_agentTriggers (p : Port) (r : Reply) : (State.answer p r).agentTriggers = r.state.agentTriggers := by
  simp [answer_eq]

/-- Settles O27. -/
theorem agentDefineWritesTheDefinition : Obligations.AgentDefineWritesTheDefinition := by
  unfold Obligations.AgentDefineWritesTheDefinition
  intro s ps a x ks h ha hx pairs legal notOffered
  obtain ⟨count, levels, distinct⟩ := (skillsLegal_iff ks).mp legal
  change (ks.map fun k => (k.group.val, k.level)) = skillPairs ps at pairs
  have hks : skillsOf (skillPairs ps) = some ks := by rw [← pairs, skillsOf_map levels]
  have hg : ∀ k ∈ skillPairs ps, k.1 < 64 := by
    rw [← pairs]
    intro k hk
    obtain ⟨q, -, rfl⟩ := List.mem_map.mp hk
    exact q.group.isLt
  have nodup : ((skillPairs ps).map Prod.fst).Nodup := by
    rw [← pairs, List.map_map, show Prod.fst ∘ (fun k : Skill => (k.group.val, k.level)) = Fin.val ∘ Skill.group from rfl,
      ← List.map_map]
    exact distinct.map Fin.val_injective
  have length : u8 ps 4 ≤ 8 := by
    have := congrArg List.length pairs
    simp only [skillPairs, List.length_map, List.length_range] at this
    omega
  have act (flag : u8 ps 2 ≤ 1) := agentDefine_inRange (s.taken .s (frame ps)) ha hg hks hx nodup length flag
  simp only [taken_agent] at act
  have exec_act (v : State) (hv : actAgentDefine ps (s.taken .s (frame ps)) = .ok v) :
      exec (.agentDefine .s (frame ps)) s = .next (State.answer .s (.ok v)) := by
    rw [← hv]
    exact exec_taken h
  refine ⟨fun flag home => ?_, fun flag out defined => ?_, fun flag out undefined => exec_unchanged h ?_⟩
  · have stays : ¬(((s.agent a).home ≠ x ∨ u8 ps 2 = 0) ∧ (s.agent a).state ≠ .signedOut) := by
      rw [flag]
      rintro ⟨away | zero, engaged⟩
      · exact home.elim away engaged
      · cases zero
    have rewritten := (redefine_rewritten (s.taken .s (frame ps)) a x ks).congr ⟨rfl, rfl, ⟨rfl, rfl⟩, rfl, rfl⟩
      (defined_sameRoster (s.taken .s (frame ps)) a x ks)
    have slots : KeepsSlots (s.taken .s (frame ps)) ((s.taken .s (frame ps)).defined a x ks) :=
      (redefine_slots _ a x ks).trans (keepsSlots_of_ports (defined_port _ a x ks))
    obtain ⟨answered, others, record⟩ := rewritten_answered rewritten slots
    refine ⟨_, exec_act ((s.taken .s (frame ps)).defined a x ks) ?_, answered, others, by simpa only [taken_agent] using record, fun y => ?_, fun y => ?_, ?_⟩
    · rw [act (by omega), if_neg notOffered, if_neg stays, if_neg (by omega), State.defined, taken_agent]
    · rw [answer_notices]
      dsimp only [Reply.ok]
      rw [defined_port, redefine_notices, taken_notices]
    · rw [answer_owed]
      dsimp only [Reply.ok]
      rw [defined_port, redefine_owed, taken_owed, taken_agent]
    · rw [answer_agentTriggers]
      dsimp only [Reply.ok]
      rw [defined_triggers, taken_agent, taken_agentTriggers]
  · obtain ⟨answered, others, record⟩ := rewritten_answered (undefine_rewritten (s.taken .s (frame ps)) a)
      (undefine_slots (s.taken .s (frame ps)) a)
    refine ⟨_, exec_act ((s.taken .s (frame ps)).undefine a) ?_, answered, others, record, fun y => ?_, fun y => ?_, ?_⟩
    · rw [act (by omega), if_neg notOffered, if_neg fun h => h.2 out, if_pos flag, if_pos defined]
    · rw [answer_notices]
      dsimp only [Reply.ok]
      rw [undefine_notices, taken_notices]
    · rw [answer_owed]
      dsimp only [Reply.ok]
      rw [undefine_owed, taken_owed, taken_agent]
    · rw [answer_agentTriggers]
      dsimp only [Reply.ok]
      rw [State.undefine, writeAgent_triggers, removeOwed_triggers, taken_agentTriggers]
  · have kept : ¬(s.agent a).defined = true := by rw [undefined]; nofun
    exact (act (by omega)).trans ((if_neg notOffered).trans ((if_neg fun h => h.2 out).trans ((if_pos flag).trans (if_neg kept))))


end Sys2Proof.Machine

/-! GROUP_STAGE (R31, R32), the service lines (R40 to R42), and the arrivals refused (R60). -/

namespace Sys2Proof.Machine

/-! ### The fields of a parameter block (R31, R197) -/

theorem belowOrNone_out {n v : Nat} (low : n ≤ v) (some : v ≠ 255) : belowOrNone n v = none := by
  rw [belowOrNone, if_neg some, below_of_le low]
  rfl

theorem belowOrNone_in {n v : Nat} (h : ¬(n ≤ v ∧ v ≠ 255)) : ∃ o : Option (Fin n), belowOrNone n v = some o ∧ codeNumber o = v := by
  by_cases hv : v = 255
  · exact ⟨none, if_pos hv, hv.symm⟩
  · have low : v < n := by omega
    refine ⟨some ⟨v, low⟩, ?_, rfl⟩
    rw [belowOrNone, if_neg hv, below, dif_pos low]
    rfl

theorem noAnswerActionOf_out {v : Nat} (h : 2 ≤ v) : noAnswerActionOf v = none := by
  rw [noAnswerActionOf, if_neg (by omega), if_neg (by omega)]

theorem noAnswerActionOf_in {v : Nat} (h : v < 2) : ∃ x, noAnswerActionOf v = some x ∧ x.code = v := by
  unfold noAnswerActionOf
  interval_cases v
  · exact ⟨.aux, rfl, rfl⟩
  · exact ⟨.ready, rfl, rfl⟩

theorem policyOf_out {v : Nat} (h : 3 ≤ v) : policyOf v = none := by
  rw [policyOf, if_neg (by omega), if_neg (by omega), if_neg (by omega)]

theorem policyOf_in {v : Nat} (h : v < 3) : ∃ x, policyOf v = some x ∧ x.code = v := by
  unfold policyOf
  interval_cases v
  · exact ⟨.longestIdle, rfl, rfl⟩
  · exact ⟨.highestLevel, rfl, rfl⟩
  · exact ⟨.leastCalls, rfl, rfl⟩

theorem yesNoOf_out {v : Nat} (h : 2 ≤ v) : yesNoOf v = none := by
  rw [yesNoOf, if_neg (by omega), if_neg (by omega)]

theorem yesNoOf_in {v : Nat} (h : v < 2) : ∃ x, yesNoOf v = some x ∧ bitsNumber [x] = v := by
  unfold yesNoOf
  interval_cases v
  · exact ⟨false, rfl, rfl⟩
  · exact ⟨true, rfl, rfl⟩

/-- An enumerated field of the block is out of its range (R31, check 2). -/
def BadBlock (b : List Byte) : Prop :=
  2 ≤ u8 b 9 ∨ 3 ≤ u8 b 10 ∨ 2 ≤ u8 b 18 ∨ (64 ≤ u8 b 15 ∧ u8 b 15 ≠ 255) ∨ (8 ≤ u8 b 19 ∧ u8 b 19 ≠ 255)
    ∨ (64 ≤ u8 b 20 ∧ u8 b 20 ≠ 255) ∨ (4 ≤ u8 b 29 ∧ u8 b 29 ≠ 255)

theorem paramsOf_bad {b : List Byte} (h : BadBlock b) : paramsOf b = none := by
  unfold paramsOf
  split
  next action policy target full music program line =>
    rcases h with h | h | h | ⟨h, some⟩ | ⟨h, some⟩ | ⟨h, some⟩ | ⟨h, some⟩
    · rw [noAnswerActionOf_out h] at action; cases action
    · rw [policyOf_out h] at policy; cases policy
    · rw [yesNoOf_out h] at full; cases full
    · rw [belowOrNone_out h some] at target; cases target
    · rw [belowOrNone_out h some] at music; cases music
    · rw [belowOrNone_out h some] at program; cases program
    · rw [belowOrNone_out h some] at line; cases line
  · rfl

/-- The numeric fields of a parameter set, in the order of R30. -/
def Params.numbers (p : Params) : List Nat :=
  [p.wrapTime, p.extStep, p.extLimit, p.wrapCap, p.ringTimeout, p.noAnswerLimit, p.weight, p.priorityStep, p.maxDepth,
    p.overflowWait, p.firstDelay, p.interval, p.shift, p.depthThreshold, p.waitObjective]

/-- The enumerated fields of a parameter set as their bytes. -/
def Params.choices (p : Params) : List Nat :=
  [p.noAnswerAction.code, p.policy.code, bitsNumber [p.overflowOnFull], codeNumber p.overflowTarget, codeNumber p.music,
    codeNumber p.program, codeNumber p.line]

/-- A block with its enumerated fields in range is the parameter set that it spells. -/
theorem paramsOf_good {b : List Byte} (h : ¬BadBlock b) : ∃ p, paramsOf b = some p
    ∧ p.numbers = [u16 b 0, u16 b 2, u8 b 4, u16 b 5, u8 b 7, u8 b 8, u8 b 11, u8 b 12, u16 b 13, u16 b 16, u8 b 21, u16 b 22,
        u8 b 24, u16 b 25, u16 b 27]
    ∧ p.choices = [u8 b 9, u8 b 10, u8 b 18, u8 b 15, u8 b 19, u8 b 20, u8 b 29] := by
  simp only [BadBlock, not_or] at h
  obtain ⟨action, policy, full, target, music, program, line⟩ := h
  obtain ⟨_, action, actionCode⟩ := noAnswerActionOf_in (Nat.lt_of_not_le action)
  obtain ⟨_, policy, policyCode⟩ := policyOf_in (Nat.lt_of_not_le policy)
  obtain ⟨_, full, fullCode⟩ := yesNoOf_in (Nat.lt_of_not_le full)
  obtain ⟨_, target, targetCode⟩ := belowOrNone_in target
  obtain ⟨_, music, musicCode⟩ := belowOrNone_in music
  obtain ⟨_, program, programCode⟩ := belowOrNone_in program
  obtain ⟨_, line, lineCode⟩ := belowOrNone_in line
  simp only [paramsOf, action, policy, full, target, music, program, line]
  refine ⟨_, rfl, rfl, ?_⟩
  simp only [Params.choices, actionCode, policyCode, fullCode, targetCode, musicCode, programCode, lineCode]

theorem codeNumber_eq_iff {n : Nat} (hn : n ≤ 255) (o : Option (Fin n)) (i : Fin n) : codeNumber o = i.val ↔ o = some i := by
  have := i.isLt
  cases o with
  | none => simp [codeNumber]; omega
  | some j => simp [codeNumber, Fin.ext_iff]

/-- Bringing the numbers into range alters the set exactly where it alters a number (R32). -/
theorem inRange_eq_iff (p : Params) : p.inRange = p ↔ p.inRange.numbers = p.numbers := by
  constructor
  · intro h
    rw [h]
  · intro h
    cases p
    simpa [Params.inRange, Params.numbers] using h

/-! ### GROUP_STAGE (R31, R32) -/

/-- Settles O28. -/
theorem groupStageWritesTheStagedSetInRange : Obligations.GroupStageWritesTheStagedSetInRange := by
  unfold Obligations.GroupStageWritesTheStagedSetInRange
  refine ⟨fun low high x => ⟨rfl, rfl⟩, fun s ps h => ?_⟩
  intro b bad cap given kept
  refine ⟨fun out => exec_refused h (asGroup_of_le out _ _), fun g hg => ⟨fun refused => exec_refused h ?_, fun legal target => ?_⟩⟩
  · refine (asGroup_val hg _ _).trans ?_
    by_cases block : BadBlock b
    · simp only [paramsOf_bad (b := ps.drop 1) block]
    · obtain ⟨p, spells, -, choices⟩ := paramsOf_good block
      have self := refused.resolve_left block
      have code : codeNumber p.overflowTarget = g.val := by
        simp only [Params.choices, List.cons.injEq] at choices
        obtain ⟨-, -, -, code, -⟩ := choices
        rw [code, self]
      have own := (codeNumber_eq_iff (by omega) _ _).mp code
      simp only [show paramsOf (ps.drop 1) = some p from spells, own, if_true]
  · obtain ⟨p, spells, numbers, choices⟩ := paramsOf_good (b := b) legal
    have other : p.overflowTarget ≠ some g := fun own => target <| by
      simp only [Params.choices, List.cons.injEq] at choices
      obtain ⟨-, -, -, code, -⟩ := choices
      rw [← code, own]
      rfl
    have stored : p.inRange.numbers = kept := by
      simp only [Params.numbers, List.cons.injEq] at numbers
      obtain ⟨h1, h2, h3, h4, h5, h6, h7, h8, h9, h10, h11, h12, h13, h14, h15, -⟩ := numbers
      simp only [Params.numbers, Params.inRange, h1, h2, h3, h4, h5, h6, h7, h8, h9, h10, h11, h12, h13, h14, h15, kept, cap]
    have same : kept = given ↔ p.inRange = p := by
      rw [inRange_eq_iff, stored, numbers]
    refine ⟨p.inRange, paramBytes p.inRange, stored, choices, paramBytes_length _, ?_, ?_⟩
    · rw [← offsets_params]
      exact fieldsAt_only _ (paramBytes_eq _)
    · have act : actGroupStage ps (s.taken .s (frame ps)) =
          { state := (s.taken .s (frame ps)).setGroup g { s.group g with staged := p.inRange },
            result := if kept = given then .ok else .okClamped, content := paramBytes p.inRange } := by
        refine (asGroup_val hg _ _).trans ?_
        simp only [show paramsOf (ps.drop 1) = some p from spells, if_neg other, same, State.modGroup, taken_group]
      change exec (Kind.groupStage.command .s (frame ps)) s = _
      rw [exec_taken h, show actOf .groupStage .s ps = actGroupStage ps from rfl, act]
      exact congrArg _ (answer_setGroup ..)

/-! ### The service lines (R38, R40 to R42) -/

/-- A sweep is raised where a group has passed from closed to open (R38). -/
theorem sweepIfOpened_eq (u s : State) : u.sweepIfOpened s = { u with sweepWaiting := u.sweepWaiting || s.opens u } := by
  unfold State.sweepIfOpened State.opens
  split
  next any => rw [any, Bool.or_true]; rfl
  next none =>
    rw [Bool.not_eq_true] at none
    rw [none, Bool.or_false]

theorem opens_congr {s s' t t' : State} (hs : ∀ g, s'.closed g = s.closed g) (ht : ∀ g, t'.closed g = t.closed g) :
    s'.opens t' = s.opens t := by
  simp only [State.opens, hs, ht]

theorem lineModeOf_out {v : Nat} (h : 5 ≤ v) : lineModeOf v = none := by
  rw [lineModeOf, if_neg (by omega), if_neg (by omega), if_neg (by omega), if_neg (by omega), if_neg (by omega)]

theorem lineModeOf_code (m : LineMode) : lineModeOf m.code = some m := by cases m <;> rfl

/-- Settles O33. -/
theorem serviceLineCommands : Obligations.ServiceLineCommands := by
  unfold Obligations.ServiceLineCommands
  intro s
  refine ⟨fun ps h => ⟨fun out => exec_refused h ?_, fun l m hl hm => ?_⟩, fun calm l high => ?_,
    fun calm l => ⟨fun stays => ?_, fun edge => ?_⟩⟩
  · by_cases hl : 4 ≤ u8 ps 0
    · simp only [actOf, actLineMode, asLine, below_of_le hl]
    · have line := below_val (n := 4) ⟨u8 ps 0, by omega⟩ rfl
      simp only [actOf, actLineMode, asLine, line, lineModeOf_out (out.resolve_left hl)]
  · intro u
    have mode : lineModeOf (u8 ps 1) = some m := by
      rw [hm, ← lineModeOf_code m]
      cases m <;> rfl
    have act : actLineMode ps (s.taken .s (frame ps)) =
        .ok (((s.taken .s (frame ps)).setLine l { s.line l with mode := m, latch := false }).sweepIfOpened (s.taken .s (frame ps))) := by
      simp only [actLineMode, asLine, below_val l hl, mode, taken_line]
    have opened : (s.taken .s (frame ps)).opens ((s.taken .s (frame ps)).setLine l { s.line l with mode := m, latch := false })
        = s.opens u := opens_congr (fun g => taken_closed ..) fun g => rfl
    change exec (Kind.lineMode.command .s (frame ps)) s = _
    rw [exec_taken h, show actOf .lineMode .s ps = actLineMode ps from rfl, act, sweepIfOpened_eq, opened]
    rfl
  · change Host.Outcome.next (s.settled.setInput l high) = _
    rw [settled_calm calm]
    rfl
  · change Host.Outcome.next (s.settled.seeLevel l) = _
    rw [settled_calm calm, State.seeLevel, if_pos stays]
  · intro latch u
    have follows : State.latchAfter (s.line l) (s.line l).input = latch := by
      unfold State.latchAfter
      cases hm : (s.line l).mode <;> simp only [latch, hm]
    change Host.Outcome.next (s.settled.seeLevel l) = _
    rw [settled_calm calm, State.seeLevel, if_neg edge, follows, sweepIfOpened_eq]
    rfl

/-! ### Arrivals refused (R60, R61) -/

/-- The chain of overflow targets from a group, spelled out for its three hops (R61). -/
theorem placeArrival_eq (s : State) (g : Group) : s.placeArrival g = s.arrivalPlace g := by
  have below (h : Group) : s.belowDepth h = decide ((s.group h).queue.length < (s.group h).active.maxDepth) := rfl
  unfold State.placeArrival State.arrivalPlace
  dsimp only
  simp only [below, decide_eq_true_eq]
  by_cases room : (s.group g).queue.length < (s.group g).active.maxDepth
  · rw [if_pos room, if_pos room]
  · rw [if_neg room, if_neg room]
    cases (s.group g).active.overflowOnFull
    · rfl
    · rfl

theorem freeSlot_none {s : State} (h : ∀ c, s.call c ≠ none) : s.freeSlot = none := by
  cases e : s.freeSlot with
  | none => rfl
  | some c => exact absurd (freeSlot_free e) (h c)

theorem freeSlot_some {s : State} (h : ∃ c, s.call c = none) : ∃ c, s.freeSlot = some c := by
  obtain ⟨c, hc⟩ := h
  cases e : s.freeSlot with
  | some d => exact ⟨d, rfl⟩
  | none =>
    have := head_findAll_none _ _ e c
    change (s.call c).isNone = false at this
    rw [hc] at this
    cases this

@[simp] theorem taken_freeSlot (s : State) (p : Port) (body : List Byte) : (s.taken p body).freeSlot = s.freeSlot := by
  cases p <;> rfl

@[simp] theorem taken_placeArrival (s : State) (p : Port) (body : List Byte) (g : Group) :
    (s.taken p body).placeArrival g = s.placeArrival g := by
  cases p <;> rfl

/-- Settles O34. -/
theorem arrivalsAreRefusedInOrder : Obligations.ArrivalsAreRefusedInOrder := by
  unfold Obligations.ArrivalsAreRefusedInOrder
  intro s p ps x tag h hx ht duplicate
  have named : tagAt ps 0 = tag := by rw [tagAt, ← ht, BitVec.ofNat_toNat, BitVec.setWidth_eq]
  have act := congrFun (show actOf .callArrive p ps = actCallArrive p ps from rfl) (s.taken p (frame ps))
  simp only [actCallArrive, hx, named, taken_findCall] at act
  refine ⟨fun held => exec_refused h ?_, fun new => ?_⟩
  · have found : (s.findCall x tag).isSome = true := by
      rw [Option.isSome_iff_ne_none]
      intro none
      obtain ⟨c, r, hr, howner, htag⟩ := held
      exact (findCall_none_iff s x tag).mp none c r hr ⟨howner, htag⟩
    rw [act, if_pos found]
  · have none : s.findCall x tag = none :=
      (findCall_none_iff s x tag).mpr fun c r hr ho => new ⟨c, r, hr, ho⟩
    simp only [none, Option.isSome_none, Bool.false_eq_true, if_false] at act
    refine ⟨fun out => exec_refused h (by simp only [act, below_of_le out]), fun g hg => ⟨fun closed => exec_refused h ?_,
      fun opened full => exec_refused h ?_, fun opened room place => exec_refused h ?_⟩⟩
    · simp only [act, below_val g hg, taken_closed, closed, if_true]
    · simp only [act, below_val g hg, taken_closed, opened, Bool.false_eq_true, if_false, taken_freeSlot, freeSlot_none full]
    · obtain ⟨c, slot⟩ := freeSlot_some room
      simp only [act, below_val g hg, taken_closed, opened, Bool.false_eq_true, if_false, taken_freeSlot, slot, taken_placeArrival,
        (placeArrival_eq s g).trans place]

end Sys2Proof.Machine

/-! The masks of the watch kinds (R50, R191): the WATCHes handed for the flags that they unmask. -/

namespace Sys2Proof.Machine

/-! ### Several WATCHes handed one after another (R187, R192) -/

theorem placed_placed (q l m : List Notice) : placed (placed q l) m = placed q (l ++ m) := by
  simp only [placed, List.length_append, List.length_take, List.append_assoc, List.take_append]
  congr 3
  omega

theorem placed_replicate_succ (q : List Notice) (n : Nat) (x : Notice) :
    placed (placed q (List.replicate n x)) [x] = placed q (List.replicate (n + 1) x) := by
  rw [placed_placed, List.replicate_succ']

/-- What a WATCH names depends on the flags and masks alone. -/
theorem firstWatch_congr {s t : State} (groups : t.groups = s.groups)
    (device : { t.device with watchOwed := s.device.watchOwed } = s.device) : t.firstWatch = s.firstWatch := by
  rw [DeviceRec.mk.injEq] at device
  obtain ⟨purgeDone, segmentFault, starved, maskFault, maskStarved, -, -⟩ := device
  simp only [State.firstWatch, State.firstGroup, groups, purgeDone, segmentFault, starved, maskFault, maskStarved]

/-- The state after `n` WATCHes handed one after another. -/
def State.handWatches (s : State) (n : Nat) : State := State.handWatch^[n] s

theorem handWatches_succ (s : State) (n : Nat) : s.handWatches (n + 1) = (s.handWatches n).handWatch :=
  Function.iterate_succ_apply' ..

theorem handWatches_add (s : State) (m n : Nat) : (s.handWatches n).handWatches m = s.handWatches (m + n) :=
  (Function.iterate_add_apply State.handWatch m n s).symm

theorem handWatches_groups (s : State) (n : Nat) : (s.handWatches n).groups = s.groups := by
  induction n with
  | zero => rfl
  | succ n ih => rw [handWatches_succ, handWatch_groups, ih]

theorem handWatches_side (s : State) (n : Nat) : WatchSide s (s.handWatches n) := by
  induction n with
  | zero => exact .refl s
  | succ n ih =>
    rw [handWatches_succ]
    exact ih.trans (handWatch_side _)

theorem handWatches_slots (s : State) (n : Nat) : KeepsSlots s (s.handWatches n) := by
  induction n with
  | zero => exact .refl s
  | succ n ih =>
    rw [handWatches_succ]
    exact ih.trans (handWatch_moves (ties := false) _).slots

theorem handWatches_rest (s : State) (n : Nat) : ∃ q d, s.handWatches n = { s with portS := q, device := d } := by
  induction n with
  | zero => exact ⟨s.portS, s.device, rfl⟩
  | succ n ih =>
    obtain ⟨q, d, rest⟩ := ih
    have handed := (handWatch_rest (s.handWatches n)).1
    rw [← handWatches_succ, rest] at handed
    exact ⟨_, _, handed⟩

theorem handWatches_firstWatch (s : State) (n : Nat) : (s.handWatches n).firstWatch = s.firstWatch :=
  firstWatch_congr (handWatches_groups s n) (handWatches_side s n).device

/-- The queue of port S and the owed flag after `n` WATCHes handed while some flag is set and unmasked. -/
theorem handWatches_handed {s : State} {n : Nat} (flag : n ≠ 0 → s.firstWatch ≠ none) :
    (∀ w, FirstWatch s w → ((s.handWatches n).port .s).notices = placed (s.port .s).notices (List.replicate n (.watch w)))
      ∧ (s.handWatches n).device.watchOwed =
        (s.device.watchOwed || decide (Config.noticeCapacity - (s.port .s).notices.length < n)) := by
  induction n with
  | zero => exact ⟨fun w _ => by simp [placed, State.handWatches], by simp [State.handWatches]⟩
  | succ n ih =>
    obtain ⟨notices, owed⟩ := ih fun _ => flag (Nat.succ_ne_zero n)
    have some : (s.handWatches n).firstWatch ≠ none := by
      rw [handWatches_firstWatch]
      exact flag (Nat.succ_ne_zero n)
    obtain ⟨placed_, owed_⟩ := handWatch_handed some
    rw [handWatches_succ]
    refine ⟨fun w hw => ?_, ?_⟩
    · rw [placed_ w (by rwa [← firstWatch_iff, handWatches_firstWatch, firstWatch_iff]), notices w hw, placed_replicate_succ]
    · obtain ⟨w, hw⟩ := Option.ne_none_iff_exists'.mp (flag (Nat.succ_ne_zero n))
      have length := congrArg List.length (notices w ((firstWatch_iff s w).mp hw))
      simp only [placed, List.length_append, List.length_take, List.length_replicate] at length
      rw [owed_, owed, State.hasRoom, length, Bool.or_assoc]
      congr 1
      rw [Bool.eq_iff_iff]
      simp only [Bool.or_eq_true, decide_eq_true_eq, Bool.not_eq_true', decide_eq_false_iff_not]
      omega

/-! ### The masks (R50, R191) -/

theorem unmaskWatch_eq (old : GroupRec) (g : Group) (s : State) (k : GroupKind) :
    unmaskWatch old g s k = s.handWatches (old.masks.get k && s.groupWatch k g).toNat := by
  unfold unmaskWatch
  cases old.masks.get k && s.groupWatch k g <;> rfl

theorem watchIf_eq (due : Bool) (s : State) : State.watchIf due s = s.handWatches due.toNat := by cases due <;> rfl

theorem handWatches_groupWatch (s : State) (n : Nat) (k : GroupKind) (g : Group) :
    (s.handWatches n).groupWatch k g = s.groupWatch k g := by
  simp only [State.groupWatch, State.group, handWatches_groups]

/-- The WATCHes for the kinds of a group that a mask uncovers are handed one after another. -/
theorem unmaskWatches_eq (old : GroupRec) (g : Group) (s : State) :
    [GroupKind.depth, .wait, .noStaff].foldl (unmaskWatch old g) s =
      s.handWatches ((old.masks.get .noStaff && s.groupWatch .noStaff g).toNat
        + ((old.masks.get .wait && s.groupWatch .wait g).toNat + (old.masks.get .depth && s.groupWatch .depth g).toNat)) := by
  simp only [List.foldl_cons, List.foldl_nil, unmaskWatch_eq, handWatches_groupWatch, handWatches_add]

/-- A flag that is set and unmasked is named by a WATCH. -/
theorem firstWatch_of_group {s : State} {k : GroupKind} {g : Group} (h : s.groupWatch k g = true) : s.firstWatch ≠ none := by
  intro none
  have missing (j : GroupKind) (absent : s.firstGroup j = Option.none) : j ≠ k := by
    rintro rfl
    rw [firstGroup_none absent] at h
    cases h
  unfold State.firstWatch at none
  split at none
  · cases none
  split at none
  · cases none
  split at none
  · cases none
  split at none
  · cases none
  next noStaff =>
    split at none
    · cases none
    next wait =>
      have depth := missing _ (Option.map_eq_none_iff.mp none)
      cases k
      · exact depth rfl
      · exact missing _ wait rfl
      · exact missing _ noStaff rfl

theorem firstWatch_of_device {s : State} (h : (s.device.segmentFault && !s.device.maskSegmentFault) = true
    ∨ (s.device.starved && !s.device.maskStarved) = true) : s.firstWatch ≠ none := by
  unfold State.firstWatch
  rcases h with h | h <;> rw [h]
  · split <;> nofun
  · split
    · nofun
    · split <;> nofun

theorem answer_firstWatch (p : Port) (r : Reply) : (State.answer p r).firstWatch = r.state.firstWatch :=
  firstWatch_congr (answer_sameRoster p r).groups (by rw [(answer_sameRoster p r).device])

/-- An answered request on port S whose owning block has handed WATCHes. -/
theorem handWatches_answered {s v : State} {n : Nat} {body : List Byte} (slots : KeepsSlots (s.taken .s body) v)
    (notices : (v.port .s).notices = (s.port .s).notices) (flag : n ≠ 0 → v.firstWatch ≠ none) :
    let t := State.answer .s (.ok (v.handWatches n))
    Answered t .s .ok [] ∧ OtherSlots s t .s
      ∧ (∀ w, FirstWatch t w → (t.port .s).notices = placed (s.port .s).notices (List.replicate n (.watch w)))
      ∧ (n = 0 → (t.port .s).notices = (s.port .s).notices)
      ∧ t.device.watchOwed = (v.device.watchOwed || decide (Config.noticeCapacity - (s.port .s).notices.length < n)) := by
  intro t
  obtain ⟨handed, owed⟩ := handWatches_handed flag
  rw [notices] at handed owed
  have kept := slots.trans (handWatches_slots v n)
  refine ⟨answer_answered (r := .ok _) kept, answer_otherSlots (r := .ok _) kept, fun w hw => ?_, fun zero => ?_, owed⟩
  · rw [answer_notices]
    refine handed w ?_
    rw [← firstWatch_iff, show t.firstWatch = (v.handWatches n).firstWatch from answer_firstWatch .s _, handWatches_firstWatch] at hw
    exact (firstWatch_iff v w).mp hw
  · rw [answer_notices, zero]
    exact notices

/-- The WATCHes that GROUP_WATCH_MASK hands: one for each kind that is set and that it unmasks. -/
theorem actGroupWatchMask_eq {s : State} {ps : List Byte} {g : Group} (hg : u8 ps 0 = g.val) (body : List Byte) :
    let r := s.group g
    let m := watchBitsOf (u8 ps 1)
    let n := (r.flags.depth && r.masks.depth && !m.depth).toNat + (r.flags.wait && r.masks.wait && !m.wait).toNat
      + (r.flags.noStaff && r.masks.noStaff && !m.noStaff).toNat
    actGroupWatchMask ps (s.taken .s body) = .ok (((s.taken .s body).setGroup g { r with masks := m }).handWatches n) := by
  intro r m n
  have shows (k : GroupKind) : ((s.taken .s body).setGroup g { r with masks := m }).groupWatch k g = (r.flags.get k && !m.get k) := by
    rw [State.groupWatch, State.setGroup_group, if_pos rfl]
  refine (asGroup_val hg _ _).trans ?_
  simp only [State.modGroup, taken_group, unmaskWatches_eq]
  congr 2
  rw [shows, shows, shows]
  simp only [n, WatchBits.get, r, m]
  simp only [Bool.and_assoc, Bool.and_left_comm (s.group g).masks.depth, Bool.and_left_comm (s.group g).masks.wait,
    Bool.and_left_comm (s.group g).masks.noStaff]
  omega

/-- Settles O32. -/
theorem watchMasksHandAWatchForEachFlagUnmasked : Obligations.WatchMasksHandAWatchForEachFlagUnmasked := by
  unfold Obligations.WatchMasksHandAWatchForEachFlagUnmasked
  intro s ps
  constructor
  · refine fun h => ⟨fun out => exec_refused h (asGroup_of_le out _ _), fun g hg => ?_⟩
    intro r m n
    let v := (s.taken .s (frame ps)).setGroup g { r with masks := m }
    have act : actGroupWatchMask ps (s.taken .s (frame ps)) = .ok (v.handWatches n) := actGroupWatchMask_eq hg _
    have shows (k : GroupKind) : v.groupWatch k g = (r.flags.get k && !m.get k) := by
      rw [State.groupWatch, State.setGroup_group, if_pos rfl]
    have flag : n ≠ 0 → v.firstWatch ≠ none := fun some => by
      by_contra none
      have clear (k : GroupKind) : (r.flags.get k && !m.get k) = false := by
        rw [← shows, ← Bool.not_eq_true]
        exact fun set => firstWatch_of_group set none
      have depth := clear .depth
      have wait := clear .wait
      have staff := clear .noStaff
      simp only [WatchBits.get, Bool.and_eq_false_iff] at depth wait staff
      refine some ?_
      simp only [n, Bool.and_right_comm _ r.masks.depth, Bool.and_right_comm _ r.masks.wait, Bool.and_right_comm _ r.masks.noStaff]
      rw [Bool.and_eq_false_iff.mpr depth, Bool.and_eq_false_iff.mpr wait, Bool.and_eq_false_iff.mpr staff]
      rfl
    have slots : KeepsSlots (s.taken .s (frame ps)) v := keepsSlots_of_ports fun _ => rfl
    obtain ⟨answered, others, named, unchanged, owed⟩ := handWatches_answered slots (taken_notices s .s (frame ps) .s) flag
    have group (j : Group) : (State.answer .s (.ok (v.handWatches n))).group j = v.group j := by
      rw [answer_group]
      exact congrArg (Vector.get · j) (handWatches_groups v n)
    refine ⟨_, (exec_taken h).trans (congrArg (fun r => Host.Outcome.next (State.answer .s r)) act), answered, others, ?_, fun j hj => ?_, named,
      unchanged, ?_, ?_, ?_⟩
    · rw [group, State.setGroup_group, if_pos rfl]
    · rw [group, State.setGroup_group_of_ne _ _ hj, taken_group]
    · rw [owed]
      exact congrArg (fun d : DeviceRec => d.watchOwed || _) (taken_device ..)
    · exact (handWatches_side v n).congr ⟨taken_notices s .s (frame ps) .s, taken_owed s .s (frame ps) .s⟩ (taken_device ..)
        ⟨answer_notices .., answer_owed ..⟩ rfl
    · obtain ⟨q, d, rest⟩ := handWatches_rest v n
      rw [rest]
      rfl
  · intro h d n
    refine ⟨fun masked => exec_refused h ?_, fun kept => ?_⟩
    · simp only [actOf, actWatchMask, masked, if_true]
    · let v := (s.taken .s (frame ps)).setDevice
        { d with maskSegmentFault := (u8 ps 0).testBit 1, maskStarved := (u8 ps 0).testBit 2 }
      have act : actWatchMask ps (s.taken .s (frame ps)) = .ok (v.handWatches n) := by
        simp only [actWatchMask, kept, Bool.false_eq_true, if_false, taken_device, watchIf_eq, handWatches_add]
        rw [Nat.add_comm]
      have flag : n ≠ 0 → v.firstWatch ≠ none := fun some => firstWatch_of_device <| by
        by_contra none
        simp only [not_or, Bool.not_eq_true] at none
        obtain ⟨fault, starved⟩ := none
        change (d.segmentFault && !(u8 ps 0).testBit 1) = false at fault
        change (d.starved && !(u8 ps 0).testBit 2) = false at starved
        refine some ?_
        simp only [n, Bool.and_right_comm _ d.maskSegmentFault, Bool.and_right_comm _ d.maskStarved]
        rw [fault, starved]
        rfl
      have slots : KeepsSlots (s.taken .s (frame ps)) v := keepsSlots_of_ports fun _ => rfl
      obtain ⟨answered, others, named, unchanged, owed⟩ := handWatches_answered slots (taken_notices s .s (frame ps) .s) flag
      have side := handWatches_side v n
      have watches : (v.port .s).owed = (s.port .s).owed := taken_owed s .s (frame ps) .s
      refine ⟨_, (exec_taken h).trans (congrArg (fun r => Host.Outcome.next (State.answer .s r)) act), answered, others, ?_, named,
        unchanged, ?_, ?_⟩
      · have device := side.device
        rw [DeviceRec.mk.injEq] at device ⊢
        obtain ⟨purgeDone, segmentFault, starved, maskFault, maskStarved, condition, -⟩ := device
        exact ⟨purgeDone, segmentFault, starved, maskFault, maskStarved, condition, owed⟩
      · rw [answer_owed, ← watches]
        exact side.owed
      · obtain ⟨q, e, rest⟩ := handWatches_rest v n
        rw [rest]
        rfl

end Sys2Proof.Machine

/-! The tie-break registers (R87 to R89), the words of a SAY step (R135 to R138), and the loads of the stores (R146, R148, R157). -/

namespace Sys2Proof.Machine

/-! ### The tie-break registers (R87 to R89) -/

/-- The parity of the bits of a list that a predicate selects. -/
theorem foldl_xor_eq {α : Type} (f : α → Bool) (l : List α) (b : Bool) :
    l.foldl (fun b i => b ^^ f i) b = (b ^^ ((l.filter f).length % 2 == 1)) := by
  induction l generalizing b with
  | nil => cases b <;> rfl
  | cons x l ih =>
    rw [List.foldl_cons, ih, List.filter_cons]
    cases f x with
    | false => simp
    | true =>
      have flips : (((l.filter f).length + 1) % 2 == 1) = !((l.filter f).length % 2 == 1) := by
        rw [Bool.eq_iff_iff]
        simp only [beq_iff_eq, Bool.not_eq_true', beq_eq_false_iff_ne]
        omega
      simp only [if_true, List.length_cons, flips]
      cases b <;> cases (l.filter f).length % 2 == 1 <;> rfl

theorem nextGenerator_shifts (taps w : Word16) :
    ∃ shifted : Word16, (∀ i, i < 15 → shifted.getLsbD (i + 1) = w.getLsbD i)
      ∧ shifted.getLsbD 0 = (((List.range 16).filter fun i => w.getLsbD i && taps.getLsbD i).length % 2 == 1)
      ∧ State.nextGenerator taps w = if shifted = 0 then 1 else shifted := by
  let parity := (List.range 16).foldl (fun b i => b ^^ (w &&& taps).getLsbD i) false
  refine ⟨(w <<< 1) ||| (if parity then 1 else 0), fun i hi => ?_, ?_, rfl⟩
  · have low : i + 1 < 16 := by omega
    have entered : (if parity then (1 : Word16) else 0).getLsbD (i + 1) = false := by cases parity <;> simp
    rw [BitVec.getLsbD_or, entered, Bool.or_false, BitVec.getLsbD_shiftLeft]
    simp [low]
  · have entered : (if parity then (1 : Word16) else 0).getLsbD 0 = parity := by cases parity <;> simp
    rw [BitVec.getLsbD_or, entered, BitVec.getLsbD_shiftLeft]
    simp [parity, foldl_xor_eq, ← BitVec.getLsbD_and]

/-- The tie-break registers written by a taken request and answered. -/
theorem answer_setTiebreak (s : State) (p : Port) (body : List Byte) (seed taps : Word16) (r : Result) (content : List Byte) :
    State.answer p { state := (s.taken p body).setTiebreak seed taps, result := r, content := content } =
      { s.answered p body r content with seed := seed, taps := taps, generator := seed } := by
  rw [← answer_unchanged]
  cases p <;> rfl

/-- Settles O41. -/
theorem tiebreakGeneratorAdvancesAndIsSet : Obligations.TiebreakGeneratorAdvancesAndIsSet := by
  unfold Obligations.TiebreakGeneratorAdvancesAndIsSet
  refine ⟨nextGenerator_shifts, fun s p ps => ⟨fun k hk hp calm idle => ?_, fun h seed taps hseed htaps => ?_, fun h => ?_⟩⟩
  · refine exec_forbidden calm idle ?_ _
    simp only [List.mem_cons, List.not_mem_nil, or_false] at hk
    have other : p = .a ∨ p = .b := by
      cases p
      case s => exact absurd rfl hp
      case a => exact .inl rfl
      case b => exact .inr rfl
    rcases hk with rfl | rfl <;> rcases other with rfl | rfl <;> rfl
  · have word (v : Word16) (n : Nat) (hv : v.toNat = n) : BitVec.ofNat 16 n = v := by
      rw [← hv, BitVec.ofNat_toNat, BitVec.setWidth_eq]
    refine ⟨field 2 seed.toNat ++ field 2 taps.toNat, by simp, ?_, ?_⟩
    · exact fieldsAt_only [(2, seed.toNat), (2, taps.toNat)] (by simp [pack])
    · change exec (Kind.tiebreakSet.command p (frame ps)) s = _
      rw [exec_taken h, show actOf .tiebreakSet p ps = actTiebreakSet ps from rfl, actTiebreakSet, ← answer_setTiebreak]
      simp only [word seed _ hseed, word taps _ htaps, hseed, htaps]
  · refine ⟨field 2 s.seed.toNat ++ field 2 s.taps.toNat ++ field 2 s.generator.toNat, by simp, ?_, ?_⟩
    · exact fieldsAt_only [(2, s.seed.toNat), (2, s.taps.toNat), (2, s.generator.toNat)] (by simp [pack])
    · exact exec_read (content := fun u => field 2 u.seed.toNat ++ field 2 u.taps.toNat ++ field 2 u.generator.toNat) h
        (fun u => rfl) fun u => by simp

/-! ### The words of a SAY step (R135 to R138) -/

/-- The vocabulary entries that speak `n`, as R138 decomposes it. -/
def Spoken (n : Nat) (l : List VocabNo) : Prop :=
  (1 ≤ n → n ≤ 20 → l.map Fin.val = [n - 1])
    ∧ (21 ≤ n → n ≤ 99 → l.map Fin.val = (if n / 10 = 2 then 19 else 20 + (n / 10 - 3)) :: (if n % 10 = 0 then [] else [n % 10 - 1]))
    ∧ (99 < n → l.map Fin.val = [27, 26, 8])

theorem ofNat_vocab {v : Nat} (h : v < 29) : (Fin.ofNat 29 v).val = v := Nat.mod_eq_of_lt h

theorem numberWords_spoken (n : Nat) : Spoken n (numberWords n) := by
  refine ⟨fun low high => ?_, fun low high => ?_, fun low => ?_⟩
  · rw [numberWords, if_pos high, List.map_singleton, ofNat_vocab (by omega)]
  · have tens : (if n / 10 = 2 then (19 : VocabNo) else Fin.ofNat 29 (20 + (n / 10 - 3))).val
        = if n / 10 = 2 then 19 else 20 + (n / 10 - 3) := by
      split
      · rfl
      · exact ofNat_vocab (by omega)
    rw [numberWords, if_neg (by omega), if_pos high]
    dsimp only
    split
    · rw [List.map_singleton, tens]
    · rw [List.map_cons, List.map_singleton, tens, ofNat_vocab (by omega)]
  · rw [numberWords, if_neg (by omega), if_neg (by omega)]
    rfl

/-- A quotient rounded up is the least number whose multiple covers the dividend (R136). -/
theorem ceilDiv_bounds (x : Nat) {y : Nat} (hy : 0 < y) : x ≤ y * ceilDiv x y ∧ y * ceilDiv x y < x + y := by
  have parts := Nat.div_add_mod x y
  have rest := Nat.mod_lt x hy
  unfold ceilDiv
  split
  · rw [Nat.add_zero]
    omega
  · rw [Nat.mul_add, Nat.mul_one]
    omega

/-- Settles O43. -/
theorem sayStepsSpeakPositionAndWait : Obligations.SayStepsSpeakPositionAndWait := by
  unfold Obligations.SayStepsSpeakPositionAndWait
  intro s c r hr hc
  have position : s.position c = (s.group r.group).queue.idxOf c + 1 := position_eq hr
  intro p spoken
  have place : s.sayWords c .sayPosition = numberWords p := by simp only [State.sayWords, hr, position, p]
  have waits : s.sayWords c .sayWait = waitWords p (s.group r.group).average (s.group r.group).staffed := by
    simp only [State.sayWords, hr, position, p]
  refine ⟨place ▸ numberWords_spoken p, fun unknown => ?_, fun a n average staffed ha hn => ?_⟩
  · rw [waits]
    rcases unknown with staffed | average
    · cases (s.group r.group).average with
      | none => rfl
      | some a => rw [staffed]; rfl
    · rw [average]
      rfl
  · obtain ⟨covers, least⟩ := ceilDiv_bounds (p * a) (Nat.mul_pos (by omega) hn : 0 < 16 * n)
    obtain ⟨minutes, leastMinutes⟩ := ceilDiv_bounds (ceilDiv (p * a) (16 * n)) (by omega : 0 < 60)
    have product : 0 < p * a := Nat.mul_pos (Nat.succ_pos _) (by omega)
    refine ⟨ceilDiv (p * a) (16 * n), waitMinutes p a n, ?_, covers, least, minutes, leastMinutes, ?_⟩
    · by_contra zero
      have noMinutes : waitMinutes p a n = 0 := by omega
      rw [waitMinutes, estimatedWait] at noMinutes
      rw [noMinutes, Nat.mul_zero, Nat.le_zero] at minutes
      rw [minutes, Nat.mul_zero] at covers
      omega
    · have minutes_ : waitWords p (some a) n = numberWords (waitMinutes p a n) := if_neg (by omega)
      rw [waits, average, staffed, minutes_]
      exact numberWords_spoken _


/-! ### SEGMENT_LOAD and VOCAB_LOAD (R146, R157) -/

section
variable {s : State} {ps : List Byte}

theorem segmentLoad_out (h : Takes s .segmentLoad .s ps)
    (out : 240 ≤ u8 ps 0 ∨ (u32 ps 5 ≠ 0 ∧ Config.ramBytes < u32 ps 1 + u32 ps 5)) :
    exec (.segmentLoad .s (frame ps)) s = .next (s.answered .s (frame ps) .badParam []) := by
  refine exec_refused h ?_
  by_cases code : 240 ≤ u8 ps 0
  · simp only [actOf, actSegmentLoad, asSegment, below_of_le code]
  · have named := below_val (n := 240) ⟨u8 ps 0, by omega⟩ rfl
    simp only [actOf, actSegmentLoad, asSegment, named]
    exact if_pos (out.resolve_left code)

/-- SEGMENT_LOAD of a segment within the RAM, by its use (R146). -/
theorem actSegmentLoad_eq {k : SegmentCode} (hk : u8 ps 0 = k.val)
    (inside : u32 ps 5 ≠ 0 → u32 ps 1 + u32 ps 5 ≤ Config.ramBytes) (u : State) :
    actSegmentLoad ps u =
      if (u.segment k).inUse ≠ 0 then .refuse u .busy
      else .ok (u.setSegment k
        { u.segment k with start := if u32 ps 5 = 0 then 0 else u32 ps 1, length := u32 ps 5 }) := by
  have within : ¬(u32 ps 5 ≠ 0 ∧ Config.ramBytes < u32 ps 1 + u32 ps 5) := fun h => Nat.not_le.mpr h.2 (inside h.1)
  simp only [actSegmentLoad, asSegment, below_val k hk, if_neg within]

theorem answer_setSegment (s : State) (p : Port) (body : List Byte) (k : SegmentCode) (e : SegmentRec) (r : Result)
    (content : List Byte) :
    State.answer p { state := (s.taken p body).setSegment k e, result := r, content := content } =
      (s.answered p body r content).setSegment k e := by
  rw [← answer_unchanged]
  cases p <;> rfl

theorem answer_setProgram (s : State) (p : Port) (body : List Byte) (n : ProgramNo) (steps : List Step) (r : Result)
    (content : List Byte) :
    State.answer p { state := (s.taken p body).setProgram n steps, result := r, content := content } =
      (s.answered p body r content).setProgram n steps := by
  rw [← answer_unchanged]
  cases p <;> rfl

theorem answer_setVocab (s : State) (p : Port) (body : List Byte) (v : VocabNo) (o : Option Byte) (r : Result)
    (content : List Byte) :
    State.answer p { state := (s.taken p body).setVocab v o, result := r, content := content } =
      (s.answered p body r content).setVocab v o := by
  rw [← answer_unchanged]
  cases p <;> rfl

theorem vocabLoad_out (h : Takes s .vocabLoad .s ps) (out : 29 ≤ u8 ps 0 ∨ (256 ≤ u16 ps 1 ∧ u16 ps 1 ≠ 0xFFFF)) :
    exec (.vocabLoad .s (frame ps)) s = .next (s.answered .s (frame ps) .badParam []) := by
  refine exec_refused h ?_
  by_cases entry : 29 ≤ u8 ps 0
  · simp only [actOf, actVocabLoad, asVocab, below_of_le entry]
  · have named := below_val (n := 29) ⟨u8 ps 0, by omega⟩ rfl
    obtain ⟨high, some⟩ := out.resolve_left entry
    simp only [actOf, actVocabLoad, asVocab, named, if_neg some, if_neg (Nat.not_lt.mpr high)]

theorem actVocabLoad_eq {v : VocabNo} {o : Option Byte} (hv : u8 ps 0 = v.val)
    (ho : u16 ps 1 = match o with | none => 0xFFFF | some code => code.toNat) (u : State) :
    actVocabLoad ps u = .ok (u.setVocab v o) := by
  simp only [actVocabLoad, asVocab, below_val v hv]
  cases o with
  | none => exact if_pos ho
  | some code =>
    have small := code.isLt
    dsimp only at ho
    rw [ho, if_neg (by omega), if_pos small, BitVec.ofNat_toNat, BitVec.setWidth_eq]

end

/-! ### PROGRAM_LOAD (R148, R200) -/

theorem stepKindOf_out {v : Nat} (h : v = 0 ∨ 7 < v) : stepKindOf v = none := by
  unfold stepKindOf
  iterate 7 rw [if_neg (by omega)]

theorem stepKindOf_in {v : Nat} (h : ¬(v = 0 ∨ 7 < v)) : ∃ k, stepKindOf v = some k ∧ k.code = v := by
  have low : 1 ≤ v := by omega
  have high : v ≤ 7 := by omega
  interval_cases v
  · exact ⟨.play, rfl, rfl⟩
  · exact ⟨.silence, rfl, rfl⟩
  · exact ⟨.sayPosition, rfl, rfl⟩
  · exact ⟨.sayWait, rfl, rfl⟩
  · exact ⟨.mark, rfl, rfl⟩
  · exact ⟨.again, rfl, rfl⟩
  · exact ⟨.finish, rfl, rfl⟩

theorem stepsOf_out {l : List (Nat × Nat)} (h : ∃ e ∈ l, e.1 = 0 ∨ 7 < e.1) : stepsOf l = none := by
  induction l with
  | nil => simp at h
  | cons e rest ih =>
    obtain ⟨f, hf, bad⟩ := h
    rcases List.mem_cons.mp hf with rfl | hf
    · simp only [stepsOf, stepKindOf_out bad]
    · simp only [stepsOf, ih ⟨f, hf, bad⟩]
      cases stepKindOf e.1 <;> rfl

/-- A step is the one that a byte pair writes. -/
def Step.Spells (st : Step) (e : Nat × Nat) : Prop := st.kind.code = e.1 ∧ st.operand = BitVec.ofNat 8 e.2

theorem stepsOf_in {l : List (Nat × Nat)} (h : ∀ e ∈ l, ¬(e.1 = 0 ∨ 7 < e.1)) :
    ∃ steps, stepsOf l = some steps ∧ List.Forall₂ Step.Spells steps l := by
  induction l with
  | nil => exact ⟨[], rfl, .nil⟩
  | cons e rest ih =>
    obtain ⟨steps, spelled, spells⟩ := ih fun f hf => h f (List.mem_cons_of_mem e hf)
    obtain ⟨k, kind, code⟩ := stepKindOf_in (h e List.mem_cons_self)
    exact ⟨⟨k, BitVec.ofNat 8 e.2⟩ :: steps, by simp only [stepsOf, kind, spelled], .cons ⟨code, rfl⟩ spells⟩

/-- A step whose operand is raised when it is stored: a SILENCE or a REPEAT with operand 0 (R200). -/
def Step.Raised (st : Step) : Prop := (st.kind.code = 2 ∨ st.kind.code = 6) ∧ st.operand = 0

theorem stored_raised {st : Step} (h : st.Raised) : st.stored = { st with operand := 1 } := by
  obtain ⟨kind, zero⟩ := h
  unfold Step.stored
  cases hk : st.kind
  case silence => exact if_pos zero
  case again => exact if_pos zero
  all_goals rw [hk] at kind; exact absurd kind (by decide)

theorem stored_kept {st : Step} (h : ¬st.Raised) : st.stored = st := by
  unfold Step.stored
  cases hk : st.kind
  case silence => exact if_neg fun zero => h ⟨.inl (by rw [hk]; rfl), zero⟩
  case again => exact if_neg fun zero => h ⟨.inr (by rw [hk]; rfl), zero⟩
  all_goals rfl

theorem map_stored_eq_iff (l : List Step) : l.map Step.stored = l ↔ ∀ st ∈ l, ¬st.Raised := by
  constructor
  · intro same st hst raised
    have kept : st.stored = st := List.map_inj_left.mp (same.trans (List.map_id l).symm) st hst
    rw [stored_raised raised] at kept
    have one : (1 : Byte) = st.operand := congrArg Step.operand kept
    rw [raised.2] at one
    exact absurd one (by decide)
  · intro kept
    exact (List.map_congr_left fun st hst => stored_kept (kept st hst)).trans (List.map_id l)

theorem any_source_iff (s : State) (f : SourceRec → Bool) :
    s.sources.toList.any f = true ↔ ∃ m : SourceNo, f (s.source m) = true := by
  rw [List.any_eq_true]
  constructor
  · rintro ⟨e, hmem, he⟩
    obtain ⟨i, hi, rfl⟩ := Vector.mem_iff_getElem.mp (Vector.mem_toList_iff.mp hmem)
    exact ⟨⟨i, hi⟩, he⟩
  · rintro ⟨m, hm⟩
    exact ⟨s.source m, Vector.mem_toList_iff.mpr (Vector.getElem_mem m.isLt), hm⟩

theorem any_channel_iff (s : State) (f : Option Announcement → Bool) :
    s.channels.toList.any f = true ↔ ∃ j : ChannelNo, f (s.channel j) = true := by
  rw [List.any_eq_true]
  constructor
  · rintro ⟨e, hmem, he⟩
    obtain ⟨i, hi, rfl⟩ := Vector.mem_iff_getElem.mp (Vector.mem_toList_iff.mp hmem)
    exact ⟨⟨i, hi⟩, he⟩
  · rintro ⟨j, hj⟩
    exact ⟨s.channel j, Vector.mem_toList_iff.mpr (Vector.getElem_mem j.isLt), hj⟩

/-- A program is held while a source runs it or has it staged, or a channel runs it (R148). -/
theorem programHeld_iff (s : State) (n : ProgramNo) :
    s.programHeld n = true ↔ (∃ m r, (s.source m).run = some r ∧ r.program = n)
      ∨ (∃ j b, s.channel j = some b ∧ b.run.program = n) ∨ ∃ m, (s.source m).staged = .value (some n) := by
  simp only [State.programHeld, Bool.or_eq_true, any_source_iff, any_channel_iff, Option.any_eq_true, beq_iff_eq, exists_or]
  rw [or_assoc, or_congr_right or_comm]

@[simp] theorem taken_programHeld (s : State) (p : Port) (body : List Byte) (n : ProgramNo) :
    (s.taken p body).programHeld n = s.programHeld n := by
  cases p <;> rfl

theorem stepPairs_get (ps : List Byte) (i : Nat) (h : i < (stepPairs ps).length) :
    (stepPairs ps)[i] = (u8 ps (2 + 2 * i), u8 ps (3 + 2 * i)) := by
  simp [stepPairs]

theorem stepPairs_length (ps : List Byte) : (stepPairs ps).length = u8 ps 1 := by simp [stepPairs]

theorem programLoad_out {s : State} {ps : List Byte} (h : Takes s .programLoad .s ps)
    (out : 64 ≤ u8 ps 0 ∨ 32 < u8 ps 1 ∨ ∃ i, i < u8 ps 1 ∧ (u8 ps (2 + 2 * i) = 0 ∨ 7 < u8 ps (2 + 2 * i))) :
    exec (.programLoad .s (frame ps)) s = .next (s.answered .s (frame ps) .badParam []) := by
  refine exec_refused h ?_
  by_cases number : 64 ≤ u8 ps 0
  · simp only [actOf, actProgramLoad, asProgram, below_of_le number]
  · have named := below_val (n := 64) ⟨u8 ps 0, by omega⟩ rfl
    simp only [actOf, actProgramLoad, asProgram, named]
    by_cases count : 32 < u8 ps 1
    · rw [if_pos count]
    · obtain ⟨i, hi, bad⟩ := (out.resolve_left number).resolve_left count
      have inside : i < (stepPairs ps).length := by rw [stepPairs_length]; exact hi
      have none : stepsOf (stepPairs ps) = none :=
        stepsOf_out ⟨_, List.getElem_mem inside, by rw [stepPairs_get]; exact bad⟩
      rw [if_neg count, none]

/-- PROGRAM_LOAD of a program in range, by what holds the program (R148). -/
theorem actProgramLoad_eq {ps : List Byte} {n : ProgramNo} {given : List Step} (hn : u8 ps 0 = n.val) (count : u8 ps 1 ≤ 32)
    (spelled : stepsOf (stepPairs ps) = some given) (u : State) :
    actProgramLoad ps u =
      if u.programHeld n then .refuse u .busy
      else
        { state := u.setProgram n (given.map Step.stored), result := if given.map Step.stored = given then .ok else .okClamped,
          content := programBytes (given.map Step.stored) } := by
  simp only [actProgramLoad, asProgram, below_val n hn, if_neg (Nat.not_lt.mpr count), spelled]

/-- Settles O45. -/
theorem loadsStoreWhatTheyCarry : Obligations.LoadsStoreWhatTheyCarry := by
  unfold Obligations.LoadsStoreWhatTheyCarry
  intro s ps
  refine ⟨fun h => ⟨segmentLoad_out h, fun k hk inside => ?_⟩, fun h => ?_, fun h => ⟨vocabLoad_out h, fun v o hv ho => ?_⟩⟩
  · have act := actSegmentLoad_eq hk inside (s.taken .s (frame ps))
    rw [taken_segment] at act
    refine ⟨fun used => exec_refused h (act.trans (if_pos used)), fun unused => ?_⟩
    have entry : ({ s.segment k with start := if u32 ps 5 = 0 then 0 else u32 ps 1, length := u32 ps 5 } : SegmentRec)
        = { start := if u32 ps 5 = 0 then 0 else u32 ps 1, length := u32 ps 5, inUse := 0 } := by rw [← unused]
    rw [if_neg (not_not.mpr unused), entry] at act
    change exec (Kind.segmentLoad.command .s (frame ps)) s = _
    rw [exec_taken h, show actOf .segmentLoad .s ps = actSegmentLoad ps from rfl, act]
    exact congrArg _ (answer_setSegment ..)
  · intro kind operand raised unknown held
    refine ⟨programLoad_out h, fun n hn count known => ?_⟩
    obtain ⟨given, spelled, spells⟩ := stepsOf_in (l := stepPairs ps) fun e he bad => by
      obtain ⟨i, hi, rfl⟩ := List.getElem_of_mem he
      rw [stepPairs_get] at bad
      exact known ⟨i, by rwa [stepPairs_length] at hi, bad⟩
    have act := actProgramLoad_eq hn count spelled (s.taken .s (frame ps))
    rw [taken_programHeld] at act
    have length : given.length = u8 ps 1 := spells.length_eq.trans (stepPairs_length ps)
    have spells_at (i : Nat) (hi : i < given.length) : given[i].Spells (kind i, operand i) := by
      have inside : i < (stepPairs ps).length := by rwa [← spells.length_eq]
      have here := (List.forall₂_iff_get.mp spells).2 i hi inside
      rwa [List.get_eq_getElem, List.get_eq_getElem, stepPairs_get] at here
    have raised_at (i : Nat) (hi : i < given.length) : given[i].Raised ↔ raised i := by
      obtain ⟨code, value⟩ := spells_at i hi
      have small : operand i < 256 := u8_lt ps _
      have zero : given[i].operand = 0 ↔ operand i = 0 := by
        rw [value, ← BitVec.toNat_inj]
        simp [Nat.mod_eq_of_lt small]
      rw [Step.Raised, code, zero]
    refine ⟨fun busy => exec_refused h (act.trans (if_pos ((programHeld_iff s n).mpr busy))), fun free => ?_⟩
    rw [if_neg fun busy => free ((programHeld_iff s n).mp busy)] at act
    refine ⟨given.map Step.stored, if given.map Step.stored = given then .ok else .okClamped,
      programBytes (given.map Step.stored), by rw [List.length_map, length], fun i st hst => ?_, fun some => ?_, fun none => ?_,
      programBytes_length _, (programBytes_fields _).1, (programBytes_fields _).2, ?_⟩
    · obtain ⟨hi, hst⟩ := List.getElem?_eq_some_iff.mp hst
      rw [List.getElem_map] at hst
      rw [List.length_map] at hi
      obtain ⟨code, value⟩ := spells_at i hi
      have small : operand i < 256 := u8_lt ps _
      subst hst
      by_cases up : raised i
      · rw [stored_raised ((raised_at i hi).mpr up)]
        exact ⟨code, fun _ => rfl, fun down => absurd up down⟩
      · rw [stored_kept fun r => up ((raised_at i hi).mp r)]
        refine ⟨code, fun r => absurd r up, fun _ => ?_⟩
        rw [value]
        simp [Nat.mod_eq_of_lt small]
    · obtain ⟨i, hi, up⟩ := some
      rw [← length] at hi
      exact if_neg fun same => (map_stored_eq_iff given).mp same _ (List.getElem_mem hi) ((raised_at i hi).mpr up)
    · refine if_pos ((map_stored_eq_iff given).mpr fun st hst up => ?_)
      obtain ⟨i, hi, rfl⟩ := List.getElem_of_mem hst
      exact none i (length ▸ hi) ((raised_at i hi).mp up)
    · change exec (Kind.programLoad.command .s (frame ps)) s = _
      rw [exec_taken h, show actOf .programLoad .s ps = actProgramLoad ps from rfl, act]
      exact congrArg _ (answer_setProgram ..)
  · change exec (Kind.vocabLoad.command .s (frame ps)) s = _
    rw [exec_taken h, show actOf .vocabLoad .s ps = actVocabLoad ps from rfl, actVocabLoad_eq hv ho]
    exact congrArg _ (answer_setVocab ..)


end Sys2Proof.Machine

/-! SOURCE_SET and SOURCE_LIMIT (R164, R165), SLOT_MAP and the LISTENs that it hands (R175, R187), and IDLE_BYTE_SET (R176). -/

namespace Sys2Proof.Machine

/-! ### A run that has played nothing does not stop (R156, R163) -/

theorem ReturnDue.played {s : State} {x : Performer} {r q : Run} {ret : Return} (h : ReturnDue s x r ret q) : q.played = r.played := by
  cases h <;> rfl

/-- A source whose run has played nothing comes to a step that takes time or to a fill. -/
theorem Carries.silent_goes_on {m : SourceNo} {s t : State} {r : Run} {e : Option Run} (h : Carries (.source m) s r t e)
    (silent : r.played = false) : ∃ q, e = some q := by
  induction h with
  | play | silence | filled => exact ⟨_, rfl⟩
  | say _ _ _ _ _ _ _ _ _ call => cases call
  | skip _ _ _ _ _ _ _ _ _ ih => exact ih silent
  | counted _ _ _ _ _ _ _ _ _ ih => exact ih silent
  | returned _ _ _ _ _ _ _ _ due heard => rw [due.played, silent] at heard; cases heard
  | stopped _ _ _ _ _ due heard => rw [due.played, silent] at heard; cases heard
  | ended _ _ _ call => cases call

theorem startSource_eq {s : State} {m : SourceNo} {n : ProgramNo} (stopped : (s.source m).run = none)
    (holds : (s.source m).current = some n) :
    s.startSource m = State.carrySource State.carryFuel m { program := n }
      (s.setSource m { s.source m with run := some { program := n }, idlePasses := 0 }) := by
  unfold State.startSource
  dsimp only
  split
  next p _ program =>
    rw [holds] at program
    cases program
    rfl
  next h => exact absurd holds (h n stopped)

theorem setSource_setSource (s : State) (m : SourceNo) (q r : SourceRec) : (s.setSource m q).setSource m r = s.setSource m r := by
  simp [State.setSource]

/-- A source that starts carries its program out from step 0 until it plays or fills (R162). -/
theorem startSource_carries {s : State} {m : SourceNo} {n : ProgramNo} (stopped : (s.source m).run = none)
    (holds : (s.source m).current = some n) (short : ∀ p, (s.programSteps p).length ≤ 32) :
    ∃ v r, Carries (.source m) (s.setSource m { s.source m with run := some { program := n }, idlePasses := 0 }) { program := n } v
        (some r)
      ∧ s.startSource m = v.setSource m { v.source m with run := some r } := by
  obtain ⟨v, e, carries, carried⟩ := carrySource_carries State.carryFuel m { program := n }
    (s.setSource m { s.source m with run := some { program := n }, idlePasses := 0 }) short
    (by change 33 ≤ 100; omega)
  obtain ⟨r, rfl⟩ := carries.silent_goes_on rfl
  refine ⟨v, r, carries, ?_⟩
  exact (startSource_eq stopped holds).trans carried

/-! ### SOURCE_SET and SOURCE_LIMIT (R164, R165) -/

/-- A STOPPED source takes the program at once, and starts if it has listeners (R164). -/
theorem giveProgram_stopped {s : State} {m : SourceNo} (h : (s.source m).run = none) (o : Option ProgramNo) :
    s.giveProgram m o =
      .ok (if 0 < (s.source m).listeners then (s.setSource m { s.source m with current := o }).startSource m
        else s.setSource m { s.source m with current := o }) := by
  unfold State.giveProgram
  dsimp only
  split
  next => rfl
  next r running => rw [h] at running; cases running

/-- A RUNNING source drops what it has staged for its current program, and stages any other (R164). -/
theorem giveProgram_running {s : State} {m : SourceNo} (h : (s.source m).run ≠ none) (o : Option ProgramNo) :
    s.giveProgram m o =
      if o = (s.source m).current then .ok (s.setSource m { s.source m with staged := .empty })
      else { state := s.setSource m { s.source m with staged := .value o }, result := .pending } := by
  unfold State.giveProgram
  dsimp only
  split
  next stopped => exact absurd stopped h
  next => rfl

theorem answer_setSource (s : State) (p : Port) (body : List Byte) (m : SourceNo) (q : SourceRec) (r : Result)
    (content : List Byte) :
    State.answer p { state := (s.taken p body).setSource m q, result := r, content := content } =
      (s.answered p body r content).setSource m q := by
  rw [← answer_unchanged]
  cases p <;> rfl

theorem belowOrNone_code {n : Nat} (hn : n ≤ 255) {v : Nat} {o : Option (Fin n)} (h : v = codeNumber o) :
    belowOrNone n v = some o := by
  subst h
  cases o with
  | none => rfl
  | some i =>
    have := i.isLt
    rw [codeNumber, Option.map_some, Option.getD_some, belowOrNone, if_neg (by omega), below_val i rfl]
    rfl

/-- SOURCE_SET of a source and a program in range is the table of R164. -/
theorem actSourceSet_eq {ps : List Byte} {m : SourceNo} {o : Option ProgramNo} (hm : u8 ps 0 = m.val) (ho : u8 ps 1 = codeNumber o)
    (s : State) : actSourceSet ps s = s.giveProgram m o := by
  simp only [actSourceSet, asSource, below_val m hm, belowOrNone_code (by omega) ho]

/-- Settles O46. -/
theorem sourceSetAndLimitWriteTheSource : Obligations.SourceSetAndLimitWriteTheSource := by
  unfold Obligations.SourceSetAndLimitWriteTheSource
  intro s ps
  refine ⟨fun h => ⟨fun out => exec_refused h ?_, fun m o hm ho => ?_⟩, fun h => ⟨fun out => exec_refused h ?_, fun m hm => ?_⟩⟩
  · by_cases number : 8 ≤ u8 ps 0
    · simp only [actOf, actSourceSet, asSource, below_of_le number]
    · have named := below_val (n := 8) ⟨u8 ps 0, by omega⟩ rfl
      obtain ⟨high, some⟩ := out.resolve_left number
      simp only [actOf, actSourceSet, asSource, named, belowOrNone_out high some]
  · intro q
    have act : exec (.sourceSet .s (frame ps)) s = .next (State.answer .s ((s.taken .s (frame ps)).giveProgram m o)) := by
      rw [← actSourceSet_eq hm ho]
      exact exec_taken h
    have here : (s.taken .s (frame ps)).source m = q := taken_source ..
    refine ⟨fun stopped idle => ?_, fun n stopped heard program legal => ?_, fun running same => ?_, fun running other => ?_⟩
    · rw [giveProgram_stopped (by rw [here]; exact stopped), here] at act
      have stays : ((s.taken .s (frame ps)).setSource m { q with current := o }).startSource m
          = (s.taken .s (frame ps)).setSource m { q with current := o } ∨ ¬0 < q.listeners := by
        refine idle.symm.imp (fun none => ?_) fun unheard => by omega
        simp [State.startSource, none]
      rw [act]
      refine congrArg _ (.trans ?_ (answer_setSource ..))
      refine congrArg (fun u => State.answer .s (.ok u)) ?_
      split
      next heard => exact stays.resolve_right (not_not.mpr heard)
      next => rfl
    · subst program
      rw [giveProgram_stopped (by rw [here]; exact stopped), here, if_pos heard] at act
      let u := (s.taken .s (frame ps)).setSource m { q with current := some n }
      have started : u.source m = { q with current := some n } := State.setSource_source_self ..
      obtain ⟨v, r, carries, starts⟩ := startSource_carries (s := u) (m := m) (n := n) (by rw [started]; exact stopped) (by rw [started])
        fun p => by
          rw [State.setSource_programSteps, taken_programSteps]
          exact legal.programs p
      rw [started, show u = (s.taken .s (frame ps)).setSource m { q with current := some n } from rfl, setSource_setSource]
        at carries
      refine ⟨v, r, carries, act.trans ?_⟩
      rw [starts]
      rfl
    · rw [giveProgram_running (by rw [here]; exact running), here, if_pos same] at act
      exact act.trans (congrArg _ (answer_setSource ..))
    · rw [giveProgram_running (by rw [here]; exact running), here, if_neg other] at act
      exact act.trans (congrArg _ (answer_setSource ..))
  · simp only [actOf, actSourceLimit, asSource, below_of_le out]
  · intro n
    have act : actSourceLimit ps (s.taken .s (frame ps)) =
        { state := (s.taken .s (frame ps)).setSource m { s.source m with idleLimit := n },
          result := if n = u8 ps 1 then .ok else .okClamped, content := field 1 n } := by
      simp only [actSourceLimit, asSource, below_val m hm, taken_source]
      rfl
    refine ⟨field 1 n, field_length _ _, fieldsAt_only [(1, n)] (by simp [pack]) _ (.head _), ?_⟩
    change exec (Kind.sourceLimit.command .s (frame ps)) s = _
    rw [exec_taken h, show actOf .sourceLimit .s ps = actSourceLimit ps from rfl, act]
    exact congrArg _ (answer_setSource ..)

end Sys2Proof.Machine

/-! What handing a LISTEN leaves (R159, R187), and SLOT_MAP and IDLE_BYTE_SET (R175, R176). -/

namespace Sys2Proof.Machine

/-! ### One LISTEN handed to a call's port -/

/-- The LISTEN that call `c` would be handed now, if it is a call of shelf `y` (R159). -/
def State.listenFor (s : State) (y : Shelf) (c : CallSlot) : List Notice :=
  match s.call c with
  | none => []
  | some r => if r.owner = y then [.listen r.tag (s.heard r.listen)] else []

theorem placed_nil (q : List Notice) : placed q [] = q := by simp [placed]

theorem placed_singleton (q : List Notice) (n : Notice) :
    placed q [n] = if q.length < Config.noticeCapacity then q ++ [n] else q := by
  unfold placed
  split
  next room => rw [List.take_of_length_le (by simp only [List.length_singleton]; omega)]
  next full => rw [Nat.sub_eq_zero_of_le (by omega), List.take_zero, List.append_nil]

theorem modCall_some {s : State} {c : CallSlot} {r : CallRec} (h : s.call c = some r) (f : CallRec → CallRec) :
    s.modCall c f = s.putCall c (some (f r)) := by
  rw [State.modCall_eq, h]
  rfl

theorem modCall_call (s : State) (c d : CallSlot) (f : CallRec → CallRec) :
    (s.modCall c f).call d = if d = c then (s.call c).map f else s.call d := by
  rw [State.modCall_eq, State.putCall_call]

/-- The outcomes of handing a LISTEN: placed, owed already, or owed from now. -/
theorem handListen_cases {s : State} {c : CallSlot} {r : CallRec} (h : s.call c = some r) :
    let p := portOf r.owner
    (s.hasRoom p = true ∧ s.handCall c .listen = s.pushNotice p (.listen r.tag (s.heard r.listen)))
      ∨ (s.hasRoom p = false ∧ r.owedListen = true ∧ s.handCall c .listen = s)
      ∨ (s.hasRoom p = false ∧ r.owedListen = false
        ∧ s.handCall c .listen = (s.putCall c (some { r with owedListen := true })).appendOwed p (.call c .listen)) := by
  intro p
  have notice : s.callNotice c .listen = some (.listen r.tag (s.heard r.listen)) := by simp only [State.callNotice, h]
  unfold State.handCall
  simp only [h, notice]
  by_cases room : s.hasRoom p = true
  · exact .inl ⟨room, if_pos room⟩
  · have full : s.hasRoom p = false := Bool.eq_false_of_not_eq_true room
    refine .inr ?_
    by_cases owed : r.owedListen = true
    · exact .inl ⟨full, owed, (if_neg room).trans (if_pos owed)⟩
    · refine .inr ⟨full, Bool.eq_false_of_not_eq_true owed, (if_neg room).trans ((if_neg owed).trans ?_)⟩
      rw [modCall_some h]
      rfl

theorem handCall_absent {s : State} {c : CallSlot} (h : s.call c = none) (k : CallNotice) : s.handCall c k = s := by
  simp only [State.handCall, h]

theorem pushNotice_port (s : State) (p q : Port) (n : Notice) :
    (s.pushNotice p n).port q = if q = p then { s.port p with notices := (s.port p).notices ++ [n] } else s.port q := by
  rw [State.pushNotice, State.modPort_eq, State.setPort_port]

theorem appendOwed_port (s : State) (p q : Port) (o : OwedPair) :
    (s.appendOwed p o).port q = if q = p then { s.port p with owed := (s.port p).owed ++ [o] } else s.port q := by
  rw [State.appendOwed, State.modPort_eq, State.setPort_port]

/-- Handing a LISTEN changes the calls and the shelf ports alone. -/
theorem handListen_rest (s : State) (c : CallSlot) :
    ∃ calls a b, s.handCall c .listen = { s with calls := calls, portA := a, portB := b } := by
  cases h : s.call c with
  | none => exact ⟨_, _, _, handCall_absent h _⟩
  | some r =>
    rcases handListen_cases h with ⟨-, e⟩ | ⟨-, -, e⟩ | ⟨-, -, e⟩
    · cases hx : r.owner <;> rw [hx] at e <;> exact ⟨_, _, _, e⟩
    · exact ⟨_, _, _, e⟩
    · cases hx : r.owner <;> rw [hx] at e <;> exact ⟨_, _, _, e⟩

/-- Of the calls, the one handed to may owe the LISTEN from now. -/
theorem handListen_call (s : State) (c d : CallSlot) :
    (s.handCall c .listen).call d =
      if d = c then (s.call c).map fun r => { r with owedListen := r.owedListen || !s.hasRoom (portOf r.owner) } else s.call d := by
  cases h : s.call c with
  | none =>
    rw [handCall_absent h]
    split
    next e => rw [e, h]; rfl
    next => rfl
  | some r =>
    simp only [Option.map_some]
    rcases handListen_cases h with ⟨room, e⟩ | ⟨full, owed, e⟩ | ⟨full, owed, e⟩
    · have kept : (s.handCall c .listen).call d = s.call d := by rw [e]; cases hx : r.owner <;> rfl
      rw [kept, room, Bool.not_true, Bool.or_false]
      split
      next hd => rw [hd, h]
      next => rfl
    · rw [e, full, Bool.not_false, Bool.or_true, ← owed]
      split
      next hd => rw [hd, h]
      next => rfl
    · have kept (u : State) (p : Port) (o : OwedPair) : (u.appendOwed p o).call d = u.call d := by cases p <;> rfl
      rw [e, full, Bool.not_false, Bool.or_true, kept, State.putCall_call]

/-- The notice is placed at the tail of the owner's port's queue, if there is room for it. -/
theorem handListen_notices (s : State) (c : CallSlot) (y : Shelf) :
    ((s.handCall c .listen).port (portOf y)).notices = placed (s.port (portOf y)).notices (s.listenFor y c) := by
  cases h : s.call c with
  | none => rw [handCall_absent h, State.listenFor, h, placed_nil]
  | some r =>
    simp only [State.listenFor, h]
    have room_iff : s.hasRoom (portOf r.owner) = decide ((s.port (portOf r.owner)).notices.length < Config.noticeCapacity) := rfl
    by_cases own : r.owner = y
    · subst own
      rw [if_pos rfl, placed_singleton]
      rcases handListen_cases h with ⟨room, e⟩ | ⟨full, owed, e⟩ | ⟨full, owed, e⟩
      · rw [e, pushNotice_port, if_pos rfl, if_pos (of_decide_eq_true (room_iff ▸ room))]
      · rw [e, if_neg (of_decide_eq_false (room_iff ▸ full))]
      · rw [e, appendOwed_port, if_pos rfl, if_neg (of_decide_eq_false (room_iff ▸ full))]
        rfl
    · rw [if_neg own, placed_nil]
      have other : portOf y ≠ portOf r.owner := fun e => own (portOf_injective e).symm
      rcases handListen_cases h with ⟨room, e⟩ | ⟨full, owed, e⟩ | ⟨full, owed, e⟩
      · rw [e, pushNotice_port, if_neg other]
      · rw [e]
      · rw [e, appendOwed_port, if_neg other]
        rfl

/-! ### LISTENs handed one after another -/

/-- The calls of the list are each handed a LISTEN. -/
def State.handListens (s : State) (l : List CallSlot) : State := l.foldl (fun s c => s.handCall c .listen) s

theorem handListens_rest (s : State) (l : List CallSlot) :
    ∃ calls a b, s.handListens l = { s with calls := calls, portA := a, portB := b } := by
  induction l generalizing s with
  | nil => exact ⟨_, _, _, rfl⟩
  | cons c l ih =>
    obtain ⟨_, _, _, first⟩ := handListen_rest s c
    obtain ⟨calls, a, b, rest⟩ := ih (s.handCall c .listen)
    refine ⟨calls, a, b, rest.trans ?_⟩
    rw [first]

/-- Nothing of a call but its owed LISTEN changes. -/
theorem handListens_call (s : State) (l : List CallSlot) (d : CallSlot) :
    ((s.handListens l).call d).map (fun r => { r with owedListen := false }) = (s.call d).map fun r => { r with owedListen := false } := by
  induction l generalizing s with
  | nil => rfl
  | cons c l ih =>
    refine (ih (s.handCall c .listen)).trans ?_
    rw [handListen_call]
    split
    next e => rw [e, Option.map_map]; rfl
    next => rfl

theorem listenFor_congr {s t : State} (calls : ∀ d, (t.call d).map (fun r => { r with owedListen := false })
    = (s.call d).map fun r => { r with owedListen := false }) (slots : t.slotMap = s.slotMap) (y : Shelf) (c : CallSlot) :
    t.listenFor y c = s.listenFor y c := by
  have heard (l : Listen) : t.heard l = s.heard l := by cases l <;> simp only [State.heard, State.slotOf, slots]
  have here := calls c
  unfold State.listenFor
  cases hs : s.call c with
  | none =>
    rw [hs, Option.map_none, Option.map_eq_none_iff] at here
    rw [here]
  | some r =>
    rw [hs, Option.map_some, Option.map_eq_some_iff] at here
    obtain ⟨q, hq, same⟩ := here
    have owner : q.owner = r.owner := by simpa only using congrArg CallRec.owner same
    have tag : q.tag = r.tag := by simpa only using congrArg CallRec.tag same
    have listen : q.listen = r.listen := by simpa only using congrArg CallRec.listen same
    simp only [hq, heard, owner, tag, listen]

theorem handListens_notices (s : State) (l : List CallSlot) (y : Shelf) :
    ((s.handListens l).port (portOf y)).notices = placed (s.port (portOf y)).notices (l.flatMap (s.listenFor y)) := by
  induction l generalizing s with
  | nil => exact (placed_nil _).symm
  | cons c l ih =>
    have slots : (s.handCall c .listen).slotMap = s.slotMap := by
      obtain ⟨_, _, _, e⟩ := handListen_rest s c
      rw [e]
    have same : (s.handCall c .listen).listenFor y = s.listenFor y :=
      funext fun d => listenFor_congr (handListens_call s [c]) slots y d
    refine (ih (s.handCall c .listen)).trans ?_
    rw [handListen_notices, placed_placed, same, List.flatMap_cons]

/-! ### SLOT_MAP (R175) -/

theorem slotTaken_iff (s : State) (h : HighwayChannel) (t : Option Timeslot) :
    s.slotTaken h t = true ↔ ∃ k, k ≠ h ∧ t ≠ none ∧ s.slotOf k = t := by
  simp only [State.slotTaken, Bool.and_eq_true, List.any_eq_true, mem_findAll, beq_iff_eq, bne_iff_ne, Option.isSome_iff_ne_none]
  constructor
  · rintro ⟨some, k, mapped, other⟩
    exact ⟨k, other, some, mapped⟩
  · rintro ⟨k, other, some, mapped⟩
    exact ⟨some, k, mapped, other⟩

theorem idleModeOf_out {v : Nat} (h : 2 ≤ v) : idleModeOf v = none := by
  rw [idleModeOf, if_neg (by omega), if_neg (by omega)]

/-- SLOT_MAP in range, along R175. -/
theorem actSlotMap_eq {ps : List Byte} {h : HighwayChannel} {x : Option Timeslot} {mode : IdleMode} (hh : u8 ps 0 = h.val)
    (hx : u8 ps 1 = codeNumber x) (hm : u8 ps 2 = mode.code) (s : State) :
    actSlotMap ps s =
      if s.slotTaken h x then .refuse s .busy
      else .ok (if s.slotOf h = x then s.setSlot h x mode else (s.setSlot h x mode).handListens ((s.setSlot h x mode).hearers h)) := by
  have code : idleModeOf (u8 ps 2) = some mode := by rw [hm]; cases mode <;> rfl
  simp only [actSlotMap, below_val h hh, belowOrNone_code (by omega) hx, code]
  rfl

theorem actSlotMap_out {ps : List Byte} (out : 24 ≤ u8 ps 0 ∨ (32 ≤ u8 ps 1 ∧ u8 ps 1 ≠ 255) ∨ 2 ≤ u8 ps 2) (s : State) :
    actSlotMap ps s = .refuse s .badParam := by
  unfold actSlotMap
  split
  next _ _ _ named slot mode =>
    rcases out with h | ⟨high, some⟩ | h
    · rw [below_of_le h] at named; cases named
    · rw [belowOrNone_out high some] at slot; cases slot
    · rw [idleModeOf_out h] at mode; cases mode
  · rfl

theorem playerOf_source_iff (h : HighwayChannel) (m : SourceNo) : playerOf h = .source m ↔ h.val = m.val := by
  unfold playerOf
  split
  next low => simp [Fin.ext_iff]
  next high => simp; omega

theorem playerOf_channel_iff (h : HighwayChannel) (j : ChannelNo) : playerOf h = .channel j ↔ h.val = 8 + j.val := by
  unfold playerOf
  split
  next low => simp; omega
  next high => simp [Fin.ext_iff]; omega

/-- A call that listens to what highway channel `h` plays (R175). -/
theorem listen_listenOf (r : CallRec) (h : HighwayChannel) :
    (r.listen == State.listenOf h) = match r.listen with
      | .silent => false
      | .music m => m.val == h.val
      | .announce j => 8 + j.val == h.val := by
  have music (m : SourceNo) : Listen.music m = State.listenOf h ↔ m.val = h.val := by
    rw [eq_comm (a := m.val), ← playerOf_source_iff, State.listenOf]
    cases playerOf h <;> simp [eq_comm]
  have announce (j : ChannelNo) : Listen.announce j = State.listenOf h ↔ 8 + j.val = h.val := by
    rw [eq_comm (a := 8 + j.val), ← playerOf_channel_iff, State.listenOf]
    cases playerOf h <;> simp [eq_comm]
  have silent : Listen.silent ≠ State.listenOf h := by
    unfold State.listenOf
    cases playerOf h <;> nofun
  rw [Bool.eq_iff_iff, beq_iff_eq]
  cases r.listen with
  | silent => simp [silent]
  | music m => simp [music]
  | announce j => simp [announce]

theorem heard_music {s : State} {m : SourceNo} {h : HighwayChannel} (e : h.val = m.val) : s.heard (.music m) = s.slotOf h :=
  congrArg s.slotOf (Fin.ext e.symm)

theorem heard_announce {s : State} {j : ChannelNo} {h : HighwayChannel} (e : h.val = 8 + j.val) :
    s.heard (.announce j) = s.slotOf h :=
  congrArg s.slotOf (Fin.ext e.symm)

theorem heard_listenOf (s : State) (h : HighwayChannel) : s.heard (State.listenOf h) = s.slotOf h := by
  unfold State.listenOf
  cases e : playerOf h with
  | source m => exact heard_music ((playerOf_source_iff h m).mp e)
  | channel j => exact heard_announce ((playerOf_channel_iff h j).mp e)

/-- A LISTEN to each call of shelf `y` that hears highway channel `h`, in ascending order of call slot (R175). -/
theorem hearers_listens (s : State) (h : HighwayChannel) (y : Shelf) :
    (s.hearers h).flatMap (s.listenFor y) =
      (List.finRange 1024).filterMap fun c =>
        ((s.call c).filter fun r => (r.listen == State.listenOf h) && r.owner == y).map fun r => Notice.listen r.tag (s.slotOf h) := by
  have each (c : CallSlot) : (if (s.call c).any (fun r => r.listen == State.listenOf h) then s.listenFor y c else [])
      = (((s.call c).filter fun r => (r.listen == State.listenOf h) && r.owner == y).map
          fun r => Notice.listen r.tag (s.slotOf h)).toList := by
    cases hc : s.call c with
    | none => rfl
    | some r =>
      by_cases listens : r.listen = State.listenOf h
      · by_cases own : r.owner = y <;> simp [State.listenFor, hc, listens, own, heard_listenOf, Option.filter]
      · simp [listens]
  rw [State.hearers, findAll_eq]
  change (List.flatMap (s.listenFor y) ((List.finRange 1024).filter fun c => (s.call c).any fun r => r.listen == State.listenOf h)) = _
  induction List.finRange 1024 with
  | nil => rfl
  | cons c l ih =>
    have here := each c
    rw [List.filter_cons, List.filterMap_cons]
    by_cases hears : (s.call c).any (fun r => r.listen == State.listenOf h) = true
    · rw [if_pos hears] at here ⊢
      rw [List.flatMap_cons, ih, here]
      cases ((s.call c).filter fun r => (r.listen == State.listenOf h) && r.owner == y).map
        fun r => Notice.listen r.tag (s.slotOf h) <;> rfl
    · rw [if_neg hears] at here ⊢
      rw [ih]
      cases e : ((s.call c).filter fun r => (r.listen == State.listenOf h) && r.owner == y).map
        fun r => Notice.listen r.tag (s.slotOf h) with
      | none => rfl
      | some n => rw [e] at here; cases here

theorem hearers_congr {s t : State} (calls : t.calls = s.calls) (h : HighwayChannel) : t.hearers h = s.hearers h := by
  simp only [State.hearers, calls]

theorem handListens_slots (s : State) (l : List CallSlot) : KeepsSlots s (s.handListens l) :=
  (Moves.foldl (ties := false) (fun u c => handCall_moves u c .listen) l s).slots

theorem answer_setSlot (s : State) (p : Port) (body : List Byte) (h : HighwayChannel) (x : Option Timeslot) (mode : IdleMode)
    (r : Result) (content : List Byte) :
    State.answer p { state := (s.taken p body).setSlot h x mode, result := r, content := content } =
      (s.answered p body r content).setSlot h x mode := by
  rw [← answer_unchanged]
  cases p <;> rfl

/-- A SLOT_MAP that changes the timeslot of a highway channel. -/
theorem slotMapped {s : State} {h : HighwayChannel} {x : Option Timeslot} {mode : IdleMode} (body : List Byte) :
    let v := (s.taken .s body).setSlot h x mode
    let t := State.answer .s (.ok (v.handListens (v.hearers h)))
    Answered t .s .ok [] ∧ OtherSlots s t .s
      ∧ (∀ k, t.slotOf k = (if k = h then x else s.slotOf k) ∧ t.modeOf k = (if k = h then mode else s.modeOf k))
      ∧ (∀ y : Shelf, (t.port (portOf y)).notices =
          placed (s.port (portOf y)).notices
            ((List.finRange 1024).filterMap fun c =>
              ((s.call c).filter fun r => (r.listen == State.listenOf h) && r.owner == y).map fun r => Notice.listen r.tag x))
      ∧ (∀ c, ((t.call c).map fun r => { r with owedListen := false }) = (s.call c).map fun r => { r with owedListen := false })
      ∧ t = { s with slotMap := t.slotMap, idleModes := t.idleModes, calls := t.calls, portA := t.portA, portB := t.portB,
                     portS := t.portS } := by
  intro v t
  obtain ⟨calls, a, b, rest⟩ := handListens_rest v (v.hearers h)
  have mapped : KeepsSlots (s.taken .s body) v := keepsSlots_of_ports fun _ => rfl
  have slots : KeepsSlots (s.taken .s body) (v.handListens (v.hearers h)) := mapped.trans (handListens_slots v _)
  refine ⟨answer_answered (r := .ok _) slots, answer_otherSlots (r := .ok _) slots, fun k => ?_, fun y => ?_, fun c => ?_, ?_⟩
  · have mapped : t.slotOf k = v.slotOf k ∧ t.modeOf k = v.modeOf k := by
      simp only [t, rest]
      exact ⟨rfl, rfl⟩
    rw [mapped.1, mapped.2, State.setSlot_slotOf, State.setSlot_modeOf, taken_slotOf, taken_modeOf]
    exact ⟨rfl, rfl⟩
  · have listeners : v.hearers h = (s.taken .s body).hearers h := hearers_congr rfl h
    have driven : v.slotOf h = x := by rw [State.setSlot_slotOf, if_pos rfl]
    have heard := hearers_listens v h y
    rw [driven] at heard
    have call (c : CallSlot) : v.call c = s.call c := taken_call s .s body c
    simp only [call] at heard
    have queue : (v.port (portOf y)).notices = (s.port (portOf y)).notices := taken_notices s .s body (portOf y)
    rw [answer_notices]
    dsimp only [Reply.ok]
    rw [handListens_notices, heard, queue]
  · rw [answer_call]
    refine (handListens_call v _ c).trans ?_
    rw [show v.call c = s.call c from taken_call s .s body c]
  · simp only [t, rest]
    rfl

/-- Settles O47. -/
theorem slotMapAndIdleByteAreWritten : Obligations.SlotMapAndIdleByteAreWritten := by
  unfold Obligations.SlotMapAndIdleByteAreWritten
  refine ⟨fun m => rfl, fun h => ⟨playerOf_source_iff h, playerOf_channel_iff h⟩,
    fun s => ⟨rfl, fun m h => heard_music, fun j h => heard_announce⟩, fun s ps => ⟨fun k => ⟨fun out => exec_refused k (actSlotMap_out out _), ?_⟩, fun k => ?_⟩⟩
  · intro h x mode hh hx hm
    have code : u8 ps 2 = mode.code := hm.trans (idleMode_code mode).symm
    have act := actSlotMap_eq hh hx code (s.taken .s (frame ps))
    have shared : (s.taken .s (frame ps)).slotTaken h x = true ↔ ∃ k, k ≠ h ∧ x ≠ none ∧ s.slotOf k = x := by
      rw [slotTaken_iff]
      simp only [taken_slotOf]
    refine ⟨fun busy => exec_refused k (act.trans (if_pos (shared.mpr busy))), fun own => ?_⟩
    rw [if_neg fun busy => let ⟨k, other, slot, mapped⟩ := shared.mp busy; own k other slot mapped, taken_slotOf] at act
    have exec_act : exec (.slotMap .s (frame ps)) s = .next (State.answer .s (actSlotMap ps (s.taken .s (frame ps)))) := exec_taken k
    rw [act] at exec_act
    refine ⟨fun stays => ?_, fun changes => ?_⟩
    · rw [if_pos stays] at exec_act
      exact exec_act.trans (congrArg _ (answer_setSlot ..))
    · rw [if_neg changes] at exec_act
      refine ⟨_, exec_act, ?_⟩
      obtain ⟨answered, others, mapped, notices, calls, rest⟩ := slotMapped (s := s) (h := h) (x := x) (mode := mode) (frame ps)
      simp only [listen_listenOf] at notices
      exact ⟨answered, others, mapped, notices, calls, rest⟩
  · exact exec_taken k

end Sys2Proof.Machine

/-! The commands act on a settled state: the wraps that are due end first, then the announcements that are due are taken (O3). -/

namespace Sys2Proof.Machine

/-! ### The next announcement due of each call -/

/-- The next announcement due of the call in slot `c` (R167). -/
def State.dueOf (s : State) (c : CallSlot) : Option Nat := (s.call c).bind CallRec.nextDue

theorem dueOf_eq_some_iff {s : State} {c : CallSlot} {e : Nat} :
    s.dueOf c = some e ↔ ∃ r, s.call c = some r ∧ r.nextDue = some e := by
  simp only [State.dueOf, Option.bind_eq_some_iff]

theorem announcementsTaken_iff (s : State) : AnnouncementsTaken s ↔ ∀ c e, s.dueOf c = some e → s.clock < e := by
  simp only [AnnouncementsTaken, dueOf_eq_some_iff, forall_exists_index, and_imp]
  exact ⟨fun h c e r hr he => h c r e hr he, fun h c r e hr he => h c e r hr he⟩

/-- The clock stands, and every announcement due was there before or is still to come. -/
structure DuesKept (s t : State) : Prop where
  clock : t.clock = s.clock
  dues : ∀ c e, t.dueOf c = some e → s.dueOf c = some e ∨ s.clock < e

theorem DuesKept.refl (s : State) : DuesKept s s := ⟨rfl, fun _ _ h => .inl h⟩

theorem DuesKept.trans {s t u : State} (h : DuesKept s t) (k : DuesKept t u) : DuesKept s u where
  clock := k.clock.trans h.clock
  dues c e hd := (k.dues c e hd).elim (h.dues c e) fun later => .inr (h.clock ▸ later)

theorem DuesKept.of_same {s t : State} (clock : t.clock = s.clock) (same : ∀ c, t.dueOf c = s.dueOf c) : DuesKept s t :=
  ⟨clock, fun c _ h => .inl (same c ▸ h)⟩

/-- What playout does without being told of a call leaves the dues alone. -/
theorem PlayMoves.duesKept {s t : State} (h : PlayMoves (fun _ => False) true s t) : DuesKept s t :=
  .of_same h.off.base.clock fun c => by simp only [State.dueOf, h.other (c := c) not_false]

theorem modCall_dueOf (s : State) (c d : CallSlot) (f : CallRec → CallRec) :
    (s.modCall c f).dueOf d = if d = c then (s.call c).bind fun r => (f r).nextDue else s.dueOf d := by
  unfold State.dueOf
  rw [modCall_call]
  split
  · rw [Option.bind_map]; rfl
  · rfl

/-- A call record rewritten in other fields than its next announcement due. -/
theorem dueOf_rewritten {s t : State} {c : CallSlot} {f : CallRec → CallRec} (keeps : ∀ r, (f r).nextDue = r.nextDue)
    (calls : ∀ d, t.call d = if d = c then (s.call c).map f else s.call d) (d : CallSlot) : t.dueOf d = s.dueOf d := by
  unfold State.dueOf
  rw [calls]
  split
  next same => simp only [same, Option.bind_map, Function.comp_def, keeps]
  next => rfl

theorem modCall_duesKept (s : State) (c : CallSlot) (f : CallRec → CallRec) (keeps : ∀ r, (f r).nextDue = r.nextDue) :
    DuesKept s (s.modCall c f) :=
  .of_same rfl (dueOf_rewritten keeps (modCall_call s c · f))

/-- Call `c` listens to `l`, and no other record of a call is touched. -/
theorem setListen_call (s : State) (c d : CallSlot) (l : Listen) :
    (s.setListen c l).call d = if d = c then (s.call c).map fun r => { r with listen := l } else s.call d := by
  have starts (m : SourceNo) : ((s.hear c l).startSource m).call d = (s.hear c l).call d :=
    (startSource_play (C := fun _ => False) (W := true) (s.hear c l) m).other not_false
  rw [setListen_eq, ← hear_call]
  split
  · split
    · rfl
    · exact starts _
  · rfl

theorem setListen_duesKept (s : State) (c : CallSlot) (l : Listen) : DuesKept s (s.setListen c l) :=
  .of_same (setListen_play (C := fun _ => True) (W := true) s l trivial).off.base.clock
    (dueOf_rewritten (by exact fun _ => rfl) fun d => setListen_call s c d l)

theorem handListen_duesKept (s : State) (c : CallSlot) : DuesKept s (s.handCall c .listen) :=
  .of_same (handListen_play (C := fun _ => True) (W := true) s trivial).off.base.clock
    (dueOf_rewritten (by exact fun _ => rfl) fun d => handListen_call s c d)

theorem leaveWaitList_duesKept (s : State) (c : CallSlot) : DuesKept s (s.leaveWaitList c) := by
  unfold State.leaveWaitList
  split
  · exact (modCall_duesKept s c _ (by exact fun _ => rfl)).trans
      (((setWaitList_play _ _ rfl).trans (evalStarved_play _)).duesKept)
  · exact .refl s

theorem joinWaitList_duesKept (s : State) (c : CallSlot) (due : Nat) : DuesKept s (s.joinWaitList c due) := by
  unfold State.joinWaitList
  split
  · exact .refl s
  · exact (modCall_duesKept s c _ (by exact fun _ => rfl)).trans
      (((setWaitList_play _ _ rfl).trans (evalStarved_play _)).duesKept)

/-- A due that an announcement leaves behind lies an interval that is not 0 ahead (R171). -/
theorem endAnnouncement_duesKept (s : State) (j : ChannelNo) (c : CallSlot) : DuesKept s (s.endAnnouncement j c) := by
  have freed : DuesKept s (s.setChannel j none) := (setChannel_play s j none).duesKept
  unfold State.endAnnouncement
  dsimp only
  split
  · exact freed
  next r _ =>
    have told := (freed.trans (setListen_duesKept _ c ((s.setChannel j none).musicOf r.group))).trans (handListen_duesKept _ c)
    refine ⟨told.clock, fun d e hd => ?_⟩
    rw [modCall_dueOf] at hd
    split at hd
    · obtain ⟨r, -, hr⟩ := Option.bind_eq_some_iff.mp hd
      dsimp only at hr
      split at hr
      next due =>
        simp only [Bool.and_eq_true, bne_iff_ne] at due
        simp only [Option.some.injEq] at hr
        exact .inr (by omega)
      next => cases hr
    · exact told.dues d e hd

theorem runChannel_duesKept (s : State) (j : ChannelNo) (c : CallSlot) (r : Run) : DuesKept s (s.runChannel j c r) := by
  have carried := (carryChannel_play (C := fun _ => False) (W := true) s State.carryFuel c r).duesKept
  unfold State.runChannel
  split
  next e =>
    rw [e] at carried
    exact carried.trans (putChannelRun_play _ j c _).duesKept
  next e =>
    rw [e] at carried
    exact carried.trans (endAnnouncement_duesKept _ j c)

theorem grant_duesKept (s : State) (j : ChannelNo) (c : CallSlot) (p : ProgramNo) : DuesKept s (s.grant j c p) :=
  (((putChannelRun_play s j c _).duesKept.trans (setListen_duesKept _ c _)).trans (handListen_duesKept _ c)).trans
    (runChannel_duesKept _ j c _)

theorem arbitrateUpTo_duesKept (n : Nat) (s : State) : DuesKept s (State.arbitrateUpTo n s) := by
  induction n generalizing s with
  | zero => exact .refl s
  | succ n ih =>
    unfold State.arbitrateUpTo
    split
    · have left := leaveWaitList_duesKept s
      dsimp only
      split
      · exact (left _).trans (ih _)
      · split
        · exact (left _).trans (ih _)
        · exact ((left _).trans (grant_duesKept _ _ _ _)).trans (ih _)
    · exact .refl s

theorem arbitrate_duesKept (s : State) : DuesKept s s.arbitrate := arbitrateUpTo_duesKept _ s

/-! ### The announcements that are due -/

/-- A due that is taken is gone, and those that it leaves behind are kept or still to come. -/
theorem announce_dues (s : State) (c : CallSlot) :
    DuesKept s (s.announce c) ∧ ∀ e, (s.announce c).dueOf c = some e → s.clock < e := by
  unfold State.announce
  split
  next absent => exact ⟨.refl s, fun e h => by simp only [State.dueOf, absent, Option.bind_none, reduceCtorEq] at h⟩
  next r hr =>
    split
    next silent =>
      exact ⟨.refl s, fun e h => by simp only [State.dueOf, hr, Option.bind_some, silent, reduceCtorEq] at h⟩
    next due hdue =>
      split
      next reached =>
        have gone : (s.modCall c fun k => { k with nextDue := none }).dueOf c = none := by
          rw [modCall_dueOf, if_pos rfl, hr]; rfl
        have cleared : DuesKept s (s.modCall c fun k => { k with nextDue := none }) := by
          refine ⟨rfl, fun d e hd => ?_⟩
          rw [modCall_dueOf] at hd
          split at hd
          · rw [hr] at hd; cases hd
          · exact .inl hd
        have taken {t : State} (k : DuesKept (s.modCall c fun k => { k with nextDue := none }) t) :
            DuesKept s t ∧ ∀ e, t.dueOf c = some e → s.clock < e :=
          ⟨cleared.trans k, fun e he => (k.dues c e he).resolve_left (by simp only [gone, reduceCtorEq, not_false_eq_true])⟩
        have joined := (joinWaitList_duesKept (s.modCall c fun k => { k with nextDue := none }) c due).trans (arbitrate_duesKept _)
        dsimp only
        split
        · exact taken joined
        · exact taken joined
        · exact taken (.refl _)
        · exact taken (.refl _)
      next early =>
        refine ⟨.refl s, fun e h => ?_⟩
        simp only [State.dueOf, hr, Option.bind_some, hdue, Option.some.injEq] at h
        omega

theorem announces_dues (l : List CallSlot) (s : State) :
    DuesKept s (l.foldl State.announce s) ∧ ∀ c ∈ l, ∀ e, (l.foldl State.announce s).dueOf c = some e → s.clock < e := by
  induction l generalizing s with
  | nil => exact ⟨.refl s, fun _ h => nomatch h⟩
  | cons c l ih =>
    obtain ⟨first, gone⟩ := announce_dues s c
    obtain ⟨rest, later⟩ := ih (s.announce c)
    refine ⟨first.trans rest, fun d hd e he => ?_⟩
    rcases List.mem_cons.mp hd with rfl | hd
    · exact (rest.dues d e he).elim (gone e) fun h => first.clock ▸ h
    · exact first.clock ▸ later d hd e he

/-- Once all that are due have been taken, every due is still to come (R167). -/
theorem announced_announcementsTaken (s : State) : AnnouncementsTaken s.announced := by
  obtain ⟨kept, later⟩ := announces_dues (s.callsDue CallRec.nextDue) s
  rw [announcementsTaken_iff]
  intro c e he
  rw [State.announced, kept.clock]
  rcases kept.dues c e he with before | ahead
  · by_cases reached : e ≤ s.clock
    · obtain ⟨r, hr, hd⟩ := dueOf_eq_some_iff.mp before
      exact later c ((mem_callsDue s CallRec.nextDue c).mpr ⟨r, e, hr, hd, reached⟩) e he
    · omega
  · exact ahead

theorem settled_calmed (s : State) : Calm s.settled where
  wraps a := by
    have off := settled_off s
    have same : s.settled.agent a = s.wrapsEnded.agent a := by simp only [State.agent, off.agents]
    rw [same, off.base.clock]
    exact (wrapsEnded_facts s).1 a
  announcements := announced_announcementsTaken s.wrapsEnded

/-! ### What a command finds -/

theorem wrapsEnded_twice (s : State) : s.wrapsEnded.wrapsEnded = s.wrapsEnded := wrapsEnded_over (wrapsEnded_facts s).1

theorem settled_of_wrapsEnded (s : State) : s.wrapsEnded.settled = s.settled := by
  rw [State.settled, State.settled, wrapsEnded_twice]

/-- Every command but WRAP_EXPIRY, ANNOUNCEMENT_DUE and POWER_ON_RESET finds the settled state. -/
theorem exec_finds_settled (c : Instr) (reset : c ≠ .powerOnReset) (wrap : ∀ a, c ≠ .wrapExpiry a)
    (due : ∀ d, c ≠ .announcementDue d) {s t : State} (same : s.settled = t.settled) : exec c s = exec c t := by
  rcases request_or_event c with ⟨k, p, body, rfl⟩ | e
  · rw [exec_command, exec_command, same]
  · cases e
    case powerOnReset => exact absurd rfl reset
    case wrapExpiry a => exact absurd rfl (wrap a)
    case announcementDue d => exact absurd rfl (due d)
    case stationClockAdvance => exact congrArg (fun u : State => Host.Outcome.next u.advance) same
    case ringTimerExpiry c => exact congrArg (fun u : State => Host.Outcome.next (u.expireRing c)) same
    case overflowWaitExpiry c => exact congrArg (fun u : State => Host.Outcome.next (u.expireOverflow c)) same
    case serviceLineInputChange l high => exact congrArg (fun u : State => Host.Outcome.next (u.setInput l high)) same
    case seenLevelEdge l => exact congrArg (fun u : State => Host.Outcome.next (u.seeLevel l)) same
    case highwayFrame => exact congrArg (fun u : State => Host.Outcome.next u.nextFrame) same
    case stepComplete x => exact congrArg (fun u : State => Host.Outcome.next (u.completeStep x)) same
    case fillComplete x => exact congrArg (fun u : State => Host.Outcome.next (u.completeFill x)) same
    all_goals simp only [exec, execCallTrigger, execAgentTrigger, execSweep, execResponseRead, execRequestRejected,
      execUnknownRequestKind, same]

/-- Wraps whose expiries come one after another. -/
theorem wrapExpiries_inTurn (l : List AgentSlot) (s : State) : InTurn (l.map Instr.wrapExpiry) s (l.foldl State.expireWrap s) := by
  induction l generalizing s with
  | nil => exact .nil s
  | cons a l ih => exact .cons _ _ s _ _ rfl (ih (s.expireWrap a))

/-- Announcements that fall due one after another, no wrap being due. -/
theorem announcementsDue_inTurn (l : List CallSlot) (s : State) (ended : WrapsOver s) :
    InTurn (l.map Instr.announcementDue) s (l.foldl State.announce s) := by
  induction l generalizing s with
  | nil => exact .nil s
  | cons c l ih =>
    have off := (announce_play s c).off
    have still : WrapsOver (s.announce c) := by
      intro a
      simp only [State.agent, off.agents, off.base.clock]
      exact ended a
    have taken : exec (.announcementDue c) s = .next (s.wrapsEnded.announce c) := rfl
    rw [wrapsEnded_over ended] at taken
    exact .cons _ _ s _ _ taken (ih _ still)

/-- Settles O3: the wraps that are due are the agents that `dueWraps` lists, each of whom the fold of expiries moves once; what
every other command finds is made from `wrapsEnded`, which does nothing the second time. -/
theorem dueWrapsEndBeforeACommand : Obligations.DueWrapsEndBeforeACommand := by
  unfold Obligations.DueWrapsEndBeforeACommand
  intro s c reset wrap u
  obtain ⟨none_due, others, freed⟩ := wrapsEnded_facts s
  refine ⟨?_, none_due, ⟨s.dueWraps, findAll_sorted _ _, fun a => ?_, wrapExpiries_inTurn _ s⟩, others, freed, fun due =>
    ⟨exec_finds_settled c reset wrap due (settled_calm (settled_calmed s)).symm, settled_calmed s, (settled_off s).agents,
      u.callsDue CallRec.nextDue, findAll_sorted _ _, fun d => ?_, announcementsDue_inTurn _ u none_due⟩⟩
  · by_cases due : ∃ d, c = .announcementDue d
    · obtain ⟨d, rfl⟩ := due
      exact congrArg (fun t : State => Host.Outcome.next (t.announce d)) (wrapsEnded_twice s).symm
    · exact exec_finds_settled c reset wrap (fun d h => due ⟨d, h⟩) (settled_of_wrapsEnded s).symm
  · rw [State.dueWraps, mem_findAll]
    exact wrapDue_iff s a
  · rw [mem_callsDue]

end Sys2Proof.Machine

/-! WATCH_CLEAR, RESTART and FETCH: the requests of the Control Ports on flags, working state and notices (O53, O55, O52). -/

namespace Sys2Proof.Machine

/-! ### WATCH_CLEAR -/

theorem without_twice (f m : WatchBits) : (f.without m).without m = f.without m := by
  simp only [WatchBits.without, Bool.and_assoc, Bool.and_self]

theorem clearGroups_group (m : WatchBits) (l : List Group) (s : State) (g : Group) :
    (s.clearGroups m l).group g = if g ∈ l then { s.group g with flags := (s.group g).flags.without m } else s.group g := by
  induction l generalizing s with
  | nil => rfl
  | cons x l ih =>
    have first : (s.modGroup x fun r => { r with flags := r.flags.without m }).group g
        = if g = x then { s.group g with flags := (s.group g).flags.without m } else s.group g := by
      rw [State.modGroup, State.setGroup_group]
      split
      next e => rw [e]
      next => rfl
    have rest := ih (s.modGroup x fun r => { r with flags := r.flags.without m })
    rw [first] at rest
    refine rest.trans ?_
    by_cases here : g = x <;> by_cases later : g ∈ l <;> simp [here, later, without_twice]

theorem clearGroups_rest (m : WatchBits) (l : List Group) (s : State) : ∃ groups, s.clearGroups m l = { s with groups := groups } := by
  induction l generalizing s with
  | nil => exact ⟨_, rfl⟩
  | cons x l ih =>
    obtain ⟨groups, rest⟩ := ih (s.modGroup x fun r => { r with flags := r.flags.without m })
    exact ⟨groups, rest⟩

theorem selection_eq_none {v : Nat} (high : 64 ≤ v) (all : v ≠ 0xFE) (none : v ≠ 0xFF) : selection v = .none := by
  rw [selection, if_neg none, if_neg all, below_of_le high, Option.map_none]

/-- What a selection byte in range selects (R197). -/
theorem mem_selection {v : Nat} (h : v < 64 ∨ v = 0xFE ∨ v = 0xFF) :
    ∃ l, selection v = some l ∧ ∀ g : Group, g ∈ l ↔ v = 0xFE ∨ v = g.val := by
  rcases h with low | rfl | rfl
  · refine ⟨[⟨v, low⟩], ?_, fun g => ?_⟩
    · rw [selection, if_neg (by omega), if_neg (by omega), below_val (⟨v, low⟩ : Group) rfl, Option.map_some]
    · have := g.isLt
      rw [List.mem_singleton, Fin.ext_iff]
      dsimp only
      omega
  · exact ⟨List.finRange 64, rfl, fun g => ⟨fun _ => .inl rfl, fun _ => List.mem_finRange g⟩⟩
  · refine ⟨[], rfl, fun g => ?_⟩
    have := g.isLt
    simp only [List.not_mem_nil, false_iff]
    omega

/-- Settles O53: along the selections of R197; the groups are those that the fold over the selection has met. -/
theorem watchClearClearsTheFlagsNamed : Obligations.WatchClearClearsTheFlagsNamed := by
  unfold Obligations.WatchClearClearsTheFlagsNamed
  intro s ps h d
  refine ⟨fun high all none => exec_refused h ?_, fun named => ?_⟩
  · simp only [actOf, actWatchClear, selection_eq_none high all none]
  · obtain ⟨l, selects, mem⟩ := mem_selection named
    let u := (s.taken .s (frame ps)).clearDevice (u8 ps 0)
    have act : actWatchClear ps (s.taken .s (frame ps)) = .ok (u.clearGroups (watchBitsOf (u8 ps 1)) l) := by
      simp only [actWatchClear, selects, u]
    refine ⟨_, (exec_taken h).trans (congrArg (fun r => Host.Outcome.next (State.answer .s r)) act), fun g => ?_, ?_⟩
    · have start : u.group g = s.group g := taken_group ..
      rw [answer_group]
      refine (clearGroups_group (watchBitsOf (u8 ps 1)) l u g).trans ?_
      rw [start]
      simp only [mem]
      rfl
    · obtain ⟨groups, rest⟩ := clearGroups_rest (watchBitsOf (u8 ps 1)) l u
      have device : u.device = { d with purgeDone := d.purgeDone && !(u8 ps 0).testBit 0
                                        segmentFault := d.segmentFault && !(u8 ps 0).testBit 1
                                        starved := d.starved && !(u8 ps 0).testBit 2 } := by
        simp only [u, d, State.clearDevice, State.setDevice, taken_device]
      rw [rest, ← device]
      rfl

/-! ### RESTART -/

theorem restarted_segment (s : State) (k : SegmentCode) : s.restarted.segment k = { s.segment k with inUse := 0 } := mapTable_get ..

theorem restarted_source (s : State) (m : SourceNo) : s.restarted.source m = (s.source m).restarted := mapTable_get ..

theorem restarted_channel (s : State) (j : ChannelNo) : s.restarted.channel j = none := by
  simp only [State.channel, State.restarted, Vector.get_replicate]

/-- A request taken on port S leaves the ports of the shelves alone. -/
theorem taken_shelfPort (s : State) (body : List Byte) (x : Shelf) : (s.taken .s body).port (portOf x) = s.port (portOf x) := by
  cases x <;> rfl

/-- Settles O55: each record of `restarted` is the obligation's; the request and its answer touch port S alone. -/
theorem restartKeepsTheConfiguration : Obligations.RestartKeepsTheConfiguration := by
  unfold Obligations.RestartKeepsTheConfiguration
  intro s ps h
  obtain ⟨taken, answered, -⟩ := exec_answers h
  let u := s.taken .s (frame ps)
  have base : KeepsBase s u := taken_base s .s (frame ps)
  refine ⟨_, taken, answered, fun a => ?_, fun g => ?_, fun c => ?_, rfl, base.seed, rfl, rfl, rfl, fun k => ?_, fun m => ?_,
    fun j => ?_, rfl, fun x => ?_, answer_notices .., answer_owed .., ?_, ?_⟩
  · rw [← taken_agent s .s (frame ps)]
    exact (answer_agent ..).trans (restarted_agent u a)
  · rw [← taken_group s .s (frame ps)]
    exact (answer_group ..).trans (restarted_group u g)
  · exact (answer_call ..).trans (restarted_call u c)
  · rw [← taken_segment s .s (frame ps)]
    exact restarted_segment u k
  · rw [← taken_source s .s (frame ps)]
    exact restarted_source u m
  · exact restarted_channel u j
  · rw [← taken_shelfPort s (frame ps)]
    cases x <;> rfl
  · rw [← taken_device s .s (frame ps)]
    rfl
  · exact { base with seqCounter := rfl, generator := rfl }

end Sys2Proof.Machine

/-! FETCH: the oldest notice is returned, and the owed list is drained until one of its pairs is built (O52). -/

namespace Sys2Proof.Machine

/-! ### The bytes of a notice (R199) -/

/-- The fields of a notice as FETCH returns it: their widths and numbers. -/
def Notice.fields : Notice → List (Nat × Nat)
  | .agentState a st reason remaining call =>
    [(1, 1), (2, a.val), (1, st.code), (1, reason), (2, remaining), (1, shelfNumber (call.map Prod.fst)),
      (2, (call.map fun n => n.2.toNat).getD 0)]
  | .listen tag slot => [(1, 2), (2, tag.toNat), (1, codeNumber slot)]
  | .connect tag a home => [(1, 3), (2, tag.toNat), (2, a.val), (1, shelfNumber (some home))]
  | .cleared tag => [(1, 4), (2, tag.toNat)]
  | .watch w =>
    match w with
    | .purgeDone => [(1, 5), (1, 1), (1, 0xFF)]
    | .segmentFault => [(1, 5), (1, 2), (1, 0xFF)]
    | .starved => [(1, 5), (1, 3), (1, 0xFF)]
    | .noStaff g => [(1, 5), (1, 4), (1, g.val)]
    | .wait g => [(1, 5), (1, 5), (1, g.val)]
    | .depth g => [(1, 5), (1, 6), (1, g.val)]

theorem noticeBytes_eq (n : Notice) : noticeBytes n = pack n.fields := by
  cases n with
  | agentState a st reason remaining call =>
    simp only [noticeBytes, Notice.fields, pack_cons, pack_nil, List.append_nil, List.append_assoc, nameBytes_eq]
    rfl
  | listen tag slot => simp only [noticeBytes, Notice.fields, pack_cons, pack_nil, List.append_nil, List.append_assoc, codeField_eq, tagField]
  | connect tag a home =>
    simp only [noticeBytes, Notice.fields, pack_cons, pack_nil, List.append_nil, List.append_assoc, shelfField_eq, tagField]
    rfl
  | cleared tag => simp only [noticeBytes, Notice.fields, pack_cons, pack_nil, List.append_nil, tagField]
  | watch w =>
    cases w <;> simp only [noticeBytes, watchBytes, Notice.fields, pack_cons, pack_nil, List.append_nil]

theorem offsets_notice (n : Notice) : offsets 0 n.fields = (noticeTable n).2 := by
  cases n with
  | watch w => cases w <;> rfl
  | _ => rfl

theorem notice_length (n : Notice) : (pack n.fields).length = (noticeTable n).1 := by
  rw [pack_length]
  cases n with
  | watch w => cases w <;> rfl
  | _ => rfl

/-! ### States that differ in owed flags -/

/-- `t` is `s` but for the owed flags of the pairs `gone`, which are cleared, for port `p` and for the sweep trigger. -/
structure Disowes (s t : State) (p : Port) (gone : List OwedPair) : Prop where
  agent : ∀ a, t.agent a = { s.agent a with owed := (s.agent a).owed && !gone.contains (.agentState a) }
  call : ∀ c, t.call c = (s.call c).map fun r =>
    { r with
      owedListen := r.owedListen && !gone.contains (.call c .listen)
      owedConnect := r.owedConnect && !gone.contains (.call c .connect)
      owedCleared := r.owedCleared && !gone.contains (.call c .cleared) }
  device : t.device = { s.device with watchOwed := s.device.watchOwed && !gone.contains .watch }
  ports : ∀ q, q ≠ p → t.port q = s.port q
  rest : t = { s with agents := t.agents, calls := t.calls, device := t.device, sweepWaiting := t.sweepWaiting, portA := t.portA,
                      portB := t.portB, portS := t.portS }

theorem call_owed_none (o : Option CallRec) (c : CallSlot) : o = o.map fun r =>
    { r with
      owedListen := r.owedListen && !([] : List OwedPair).contains (.call c .listen)
      owedConnect := r.owedConnect && !([] : List OwedPair).contains (.call c .connect)
      owedCleared := r.owedCleared && !([] : List OwedPair).contains (.call c .cleared) } := by
  cases o <;> simp

/-- A write of the port alone clears no owed flag. -/
theorem disowes_setPort (s : State) (p : Port) (r : PortRec) : Disowes s (s.setPort p r) p [] where
  agent a := by simp
  call c := by rw [State.setPort_call]; exact call_owed_none ..
  device := by simp
  ports q hq := State.setPort_port_of_ne _ _ hq
  rest := by cases p <;> rfl

theorem disowes_taken (s : State) (p : Port) (body : List Byte) : Disowes s (s.taken p body) p [] := disowes_setPort s p _

theorem disowes_answer (p : Port) (r : Reply) : Disowes r.state (State.answer p r) p [] := disowes_setPort r.state p _

theorem disowes_raiseSweep (s : State) (p : Port) : Disowes s s.raiseSweep p [] where
  agent a := by simp
  call c := call_owed_none ..
  device := by simp
  ports q _ := by cases q <;> rfl
  rest := rfl

theorem Disowes.refl (s : State) (p : Port) : Disowes s s p [] where
  agent a := by simp
  call c := call_owed_none ..
  device := by simp
  ports _ _ := rfl
  rest := rfl

theorem contains_append_not {l m : List OwedPair} {b : Bool} {o : OwedPair} :
    ((b && !l.contains o) && !m.contains o) = (b && !(l ++ m).contains o) := by
  simp only [List.contains_eq_mem, List.mem_append, Bool.decide_or, Bool.not_or, Bool.and_assoc]

theorem Disowes.trans {s t u : State} {p : Port} {gone more : List OwedPair} (h : Disowes s t p gone) (k : Disowes t u p more) :
    Disowes s u p (gone ++ more) where
  agent a := by rw [k.agent, h.agent]; simp only [contains_append_not]
  call c := by
    rw [k.call, h.call, Option.map_map]
    simp only [Function.comp_def, contains_append_not]
  device := by rw [k.device, h.device]; simp only [contains_append_not]
  ports q hq := (k.ports q hq).trans (h.ports q hq)
  rest := by
    have first := k.rest
    rw [h.rest] at first
    exact first

/-- A pair is built as the same notice from records that differ in owed flags alone. -/
theorem Disowes.buildOwed {s t : State} {p : Port} {gone : List OwedPair} (h : Disowes s t p gone) (o : OwedPair) :
    t.buildOwed o = s.buildOwed o := by
  have clock : t.clock = s.clock := by rw [h.rest]
  have slots : t.slotMap = s.slotMap := by rw [h.rest]
  have groups : t.groups = s.groups := by rw [h.rest]
  have heard (l : Listen) : t.heard l = s.heard l := by cases l <;> simp only [State.heard, State.slotOf, slots]
  cases o with
  | agentState a =>
    have name : t.boundName (t.agent a) = s.boundName (s.agent a) := by
      rw [h.agent]
      simp only [State.boundName]
      cases (s.agent a).boundCall with
      | none => rfl
      | some c => simp only [Option.bind_some, h.call, Option.map_map, Function.comp_def]
    simp only [State.buildOwed, State.agentNotice, name, State.remainingWrap, clock]
    rw [h.agent]
  | call c k =>
    simp only [State.buildOwed, State.callNotice, h.call]
    cases s.call c with
    | none => rfl
    | some r => cases k <;> simp only [Option.map_some, heard, h.agent]
  | watch =>
    have same := firstWatch_congr groups (by rw [h.device])
    simp only [State.buildOwed, same]

/-- What an owed pair is built as (R189). -/
theorem buildOwed_iff (s : State) (o : OwedPair) (n : Notice) : s.buildOwed o = some n ↔ BuiltAs s o n := by
  cases o with
  | agentState a => exact Option.some_inj.trans eq_comm
  | call c k =>
    simp only [State.buildOwed, State.callNotice]
    cases hc : s.call c with
    | none => cases k <;> simp [BuiltAs, hc]
    | some r =>
      cases k with
      | listen => simp only [BuiltAs, hc, Option.some.injEq, exists_eq_left', eq_comm]
      | cleared => simp only [BuiltAs, hc, Option.some.injEq, exists_eq_left', eq_comm]
      | connect =>
        simp only [BuiltAs, hc, Option.some.injEq, exists_and_left, exists_eq_left']
        by_cases hs : r.state = .connected
        · simp only [hs, if_true, Option.map_eq_some_iff, true_and, eq_comm (a := n)]
        · simp only [hs, if_false, false_and, reduceCtorEq]
  | watch =>
    simp only [State.buildOwed, BuiltAs, Option.map_eq_some_iff]
    exact exists_congr fun w => and_congr (firstWatch_iff s w) eq_comm

/-! ### The drain of an owed list (R188) -/

/-- The pair taken from the head of the list leaves it with its owed flag cleared. -/
theorem clearOwed_disowes (s : State) (p : Port) (o : OwedPair) : Disowes s (s.clearOwed o) p [o] := by
  have ports : ∀ q, q ≠ p → (s.clearOwed o).port q = s.port q := fun q _ => clearOwed_port s o q
  cases o with
  | agentState a =>
    refine ⟨fun b => ?_, fun c => ?_, ?_, ports, rfl⟩
    · simp only [State.clearOwed, State.setAgent_agent]
      by_cases e : b = a <;> simp [e]
    · simp [State.clearOwed]
    · simp [State.clearOwed]
  | call c k =>
    refine ⟨fun b => ?_, fun d => ?_, ?_, ports, rfl⟩
    · simp [State.clearOwed, State.modCall_eq]
    · simp only [State.clearOwed, modCall_call]
      by_cases e : d = c
      · subst e
        cases k <;> cases s.call d <;> simp [CallRec.setOwed]
      · cases s.call d <;> simp [e]
    · simp [State.clearOwed, State.modCall_eq]
  | watch =>
    refine ⟨fun b => ?_, fun d => ?_, ?_, ports, rfl⟩
    · simp [State.clearOwed]
    · simp [State.clearOwed]
    · simp [State.clearOwed]

/-- What the drain of the owed list `l` of port `p` makes of `s`: the pairs ahead of the first that is built are dropped, and that
one is placed. -/
def DrainsTo (s t : State) (p : Port) (l : List OwedPair) : Prop :=
  ∃ dropped left new gone, l = dropped ++ left ∧ (∀ o ∈ dropped, ∀ m, ¬BuiltAs s o m)
    ∧ ((left = [] ∧ new = [] ∧ gone = dropped ∧ (t.port p).owed = [])
      ∨ (∃ o more m, left = o :: more ∧ BuiltAs s o m ∧ new = [m] ∧ gone = dropped ++ [o] ∧ (t.port p).owed = more))
    ∧ (t.port p).notices = (s.port p).notices ++ new ∧ Disowes s t p gone

theorem drain_drainsTo (p : Port) (l : List OwedPair) (s : State) (owed : (s.port p).owed = l) :
    DrainsTo s (State.drain p l s) p l := by
  induction l generalizing s with
  | nil => exact ⟨[], [], [], [], rfl, fun _ h => (nomatch h), .inl ⟨rfl, rfl, rfl, owed⟩, (List.append_nil _).symm, .refl s p⟩
  | cons o more ih =>
    let u := (s.modPort p fun r => { r with owed := more }).clearOwed o
    have cleared : Disowes s u p [o] := (disowes_setPort s p _).trans (clearOwed_disowes _ p o)
    have port : u.port p = { s.port p with owed := more } := (clearOwed_port _ o p).trans (State.setPort_port_self ..)
    have built (x : OwedPair) (m : Notice) : BuiltAs u x m ↔ BuiltAs s x m := by
      rw [← buildOwed_iff, ← buildOwed_iff, cleared.buildOwed]
    unfold State.drain
    dsimp only
    split
    next none =>
      obtain ⟨dropped, left, new, gone, split, never, outcome, notices, disowes⟩ := ih u (by rw [port])
      refine ⟨o :: dropped, left, new, o :: gone, by rw [split]; rfl, fun x hx m => ?_, ?_, by rw [notices, port], cleared.trans disowes⟩
      · rcases List.mem_cons.mp hx with rfl | hx
        · rw [← built, ← buildOwed_iff]
          exact fun some => by rw [none] at some; cases some
        · exact (built x m).not.mp (never x hx m)
      · rcases outcome with ⟨rfl, rfl, rfl, done⟩ | ⟨x, rest, m, rfl, placed, rfl, rfl, done⟩
        · exact .inl ⟨rfl, rfl, rfl, done⟩
        · exact .inr ⟨x, rest, m, rfl, (built x m).mp placed, rfl, rfl, done⟩
    next n some =>
      have push : (u.pushNotice p n).port p = { u.port p with notices := (u.port p).notices ++ [n] } := State.setPort_port_self ..
      refine ⟨[], o :: more, [n], [o], rfl, fun _ h => (nomatch h),
        .inr ⟨o, more, n, rfl, (built o n).mp ((buildOwed_iff u o n).mp some), rfl, rfl, ?_⟩, ?_, cleared.trans (disowes_setPort u p _)⟩
      · exact (congrArg PortRec.owed push).trans (by rw [port])
      · exact (congrArg PortRec.notices push).trans (by rw [port])

theorem drain_sweepWaiting (p : Port) (l : List OwedPair) (s : State) : (State.drain p l s).sweepWaiting = s.sweepWaiting := by
  induction l generalizing s with
  | nil => rfl
  | cons o more ih =>
    let u := (s.modPort p fun r => { r with owed := more }).clearOwed o
    have same : u.sweepWaiting = s.sweepWaiting := by cases o <;> cases p <;> rfl
    unfold State.drain
    dsimp only
    split
    · exact (ih u).trans same
    · rw [← same]
      cases p <;> rfl

/-- A port of a shelf whose full queue has room again raises a sweep (R77, R188). -/
theorem sweepIfRoom_eq (s before : State) (p : Port) :
    s.sweepIfRoom before p = { s with sweepWaiting := s.sweepWaiting
      || (p != .s && decide (64 ≤ (before.port p).notices.length) && decide ((s.port p).notices.length < 64)) } := by
  have full : (!before.hasRoom p) = decide (64 ≤ (before.port p).notices.length) := by
    rw [State.hasRoom, ← decide_not, Config.noticeCapacity]
    simp only [not_lt]
  have room : s.hasRoom p = decide ((s.port p).notices.length < 64) := rfl
  unfold State.sweepIfRoom
  rw [full, room]
  split
  next raised => simp only [raised, Bool.or_true, State.raiseSweep]
  next quiet => simp only [Bool.eq_false_of_not_eq_true quiet, Bool.or_false]

/-- Settles O52: by induction on the owed list, whose pairs are built from records that the drain changes in owed flags alone. -/
theorem fetchReturnsTheOldestNotice : Obligations.FetchReturnsTheOldestNotice := by
  unfold Obligations.FetchReturnsTheOldestNotice
  intro s p ps h
  let v := s.taken p (frame ps)
  have notices : (v.port p).notices = (s.port p).notices := taken_notices s p (frame ps) p
  refine ⟨fun empty => exec_refused h ?_, fun n rest queue => ?_⟩
  · simp only [actOf, actFetch, taken_notices, empty]
  · let w := v.modPort p fun r => { r with notices := rest }
    let u := State.drain p (v.port p).owed w
    have act : actFetch p ps v = .ok (u.sweepIfRoom v p) (noticeBytes n) := by
      simp only [actFetch, v, taken_notices, queue]
      rfl
    obtain ⟨taken, answered, others⟩ := exec_answers h
    have port : w.port p = { v.port p with notices := rest } := State.setPort_port_self ..
    obtain ⟨dropped, left, new, gone, split, never, outcome, tail, drained⟩ :=
      drain_drainsTo p (v.port p).owed w (by rw [port])
    have start : Disowes s w p [] := (disowes_taken s p _).trans (disowes_setPort v p _)
    let x := u.sweepIfRoom v p
    have swept : Disowes u x p [] := by
      unfold x State.sweepIfRoom
      split
      · exact disowes_raiseSweep u p
      · exact .refl u p
    let t := State.answer p (.ok x (noticeBytes n))
    have all : Disowes s t p ((([] ++ gone) ++ []) ++ []) := ((start.trans drained).trans swept).trans (disowes_answer p (.ok x (noticeBytes n)))
    rw [List.nil_append, List.append_nil, List.append_nil] at all
    have built (o : OwedPair) (m : Notice) : BuiltAs w o m ↔ BuiltAs s o m := by
      rw [← buildOwed_iff, ← buildOwed_iff, start.buildOwed]
    have port' : x.port p = u.port p := by rw [show x = _ from sweepIfRoom_eq u v p]; cases p <;> rfl
    have left_notices : (t.port p).notices = rest ++ new := by
      rw [answer_notices]
      exact (congrArg PortRec.notices port').trans (tail.trans (by rw [port]))
    have left_owed : (t.port p).owed = (u.port p).owed := by
      rw [answer_owed]
      exact congrArg PortRec.owed port'
    have sweeps : t.sweepWaiting = x.sweepWaiting := by cases p <;> rfl
    change actOf .fetch p ps v = _ at act
    rw [act] at answered others
    refine ⟨t, noticeBytes n, taken.trans (congrArg (fun r => Host.Outcome.next (State.answer p r)) act), answered, ?_, ?_, others,
      ⟨dropped, left, new, gone, ?_, fun o ho m => (built o m).not.mp (never o ho m), ?_, left_notices, all.agent, all.call, all.device⟩,
      ?_, fun q hq => ?_, all.rest⟩
    · rw [noticeBytes_eq, notice_length]
    · rw [← offsets_notice]
      exact fieldsAt_only _ (noticeBytes_eq n)
    · rw [← split]
      exact (taken_owed s p (frame ps) p).symm
    · rw [left_owed]
      refine outcome.imp_right ?_
      rintro ⟨o, more, m, head, placed, rest⟩
      exact ⟨o, more, m, head, (built o m).mp placed, rest⟩
    · rw [sweeps, left_notices, show x = _ from sweepIfRoom_eq u v p, notices, tail, port]
      have before : u.sweepWaiting = s.sweepWaiting := (drain_sweepWaiting p _ w).trans (by cases p <;> rfl)
      rw [← before]
    · rw [SameQueue, all.ports q hq]
      exact ⟨rfl, rfl⟩

end Sys2Proof.Machine

/-! The station clock counts a second: the WAIT conditions and the STARVED condition are evaluated, with their flags and WATCHes (O56). -/

namespace Sys2Proof.Machine

/-! ### WATCHes counted -/

/-- Port S has been handed `n` WATCHes: those for which its queue has room are placed, the others are owed once (R187, R192). -/
structure Watched (s t : State) (n : Nat) : Prop where
  notices : ∃ l : List Watch, l.length = n ∧ (t.port .s).notices = placed (s.port .s).notices (l.map Notice.watch)
  raised : t.device.watchOwed = (s.device.watchOwed || decide (Config.noticeCapacity - (s.port .s).notices.length < n))
  owed : (t.port .s).owed = if t.device.watchOwed = s.device.watchOwed then (s.port .s).owed else (s.port .s).owed ++ [.watch]

/-- The queue and the owed list of port S and the WATCH owed flag are as they were. -/
theorem Watched.of_same {s t : State} (notices : (t.port .s).notices = (s.port .s).notices)
    (owed : (t.port .s).owed = (s.port .s).owed) (raised : t.device.watchOwed = s.device.watchOwed) : Watched s t 0 where
  notices := ⟨[], rfl, by rw [notices, List.map_nil, placed_nil]⟩
  raised := by simp [raised]
  owed := by rw [if_pos raised, owed]

theorem Watched.trans {s t u : State} {m n : Nat} (h : Watched s t m) (k : Watched t u n) : Watched s u (m + n) := by
  obtain ⟨l, hl, hnotices⟩ := h.notices
  obtain ⟨l', hl', knotices⟩ := k.notices
  have length : (t.port .s).notices.length
      = (s.port .s).notices.length + min (Config.noticeCapacity - (s.port .s).notices.length) m := by
    rw [hnotices, placed, List.length_append, List.length_take, List.length_map, hl]
  refine ⟨⟨l ++ l', by simp [hl, hl'], by rw [knotices, hnotices, placed_placed, List.map_append]⟩, ?_, ?_⟩
  · rw [k.raised, h.raised, length, Bool.or_assoc]
    congr 1
    rw [Bool.eq_iff_iff]
    simp only [Bool.or_eq_true, decide_eq_true_eq]
    omega
  · have first : s.device.watchOwed = true → t.device.watchOwed = true := fun e => by rw [h.raised, e, Bool.true_or]
    have second : t.device.watchOwed = true → u.device.watchOwed = true := fun e => by rw [k.raised, e, Bool.true_or]
    rw [k.owed, h.owed]
    generalize s.device.watchOwed = a, t.device.watchOwed = b, u.device.watchOwed = c at first second ⊢
    cases a <;> cases b <;> cases c <;> simp at first second ⊢

/-- A WATCH handed while some flag is set and unmasked. -/
theorem handWatch_watched {s : State} (flag : s.firstWatch ≠ none) : Watched s s.handWatch 1 := by
  obtain ⟨notices, raised⟩ := handWatch_handed flag
  obtain ⟨w, named⟩ := Option.ne_none_iff_exists'.mp flag
  refine ⟨⟨[w], rfl, notices w ((firstWatch_iff s w).mp named)⟩, ?_, (handWatch_side s).owed⟩
  rw [raised, State.hasRoom, ← decide_not]
  congr 1
  rw [decide_eq_decide]
  omega

/-! ### Evaluations counted -/

/-- An evaluation hands a WATCH when the condition rises, its flag was clear and it is unmasked (R46). -/
theorem evalCondition_watched (s : State) (g : Group) (k : GroupKind) (v : Bool) :
    Watched s (s.evalCondition g k v)
      (v && !(s.group g).conditions.get k && !(s.group g).flags.get k && !(s.group g).masks.get k).toNat := by
  have same (u : State) (r : GroupRec) : Watched u (u.setGroup g r) 0 := .of_same rfl rfl rfl
  unfold State.evalCondition State.raiseGroupFlag
  simp only [State.setGroup_group_self]
  by_cases rises : (v && !(s.group g).conditions.get k) = true
  · rw [if_pos rises, rises, Bool.true_and]
    by_cases set : (s.group g).flags.get k = true
    · rw [if_pos set, set]
      exact same s _
    · rw [if_neg set, Bool.eq_false_of_not_eq_true set]
      by_cases masked : (s.group g).masks.get k = true
      · rw [if_pos masked, masked]
        exact (same s _).trans (same _ _)
      · rw [if_neg masked, Bool.eq_false_of_not_eq_true masked]
        refine ((same s _).trans (same _ _)).trans (handWatch_watched (firstWatch_of_group (k := k) (g := g) ?_))
        rw [State.groupWatch, State.setGroup_group_self]
        have shows : ((s.group g).flags.set k true).get k = true := by cases k <;> rfl
        simp only [shows, masked, Bool.not_false, Bool.and_self]
  · rw [if_neg rises, Bool.eq_false_of_not_eq_true rises]
    exact same s _

theorem evalCondition_rest (s : State) (g : Group) (k : GroupKind) (v : Bool) :
    ∃ groups q d, s.evalCondition g k v = { s with groups := groups, portS := q, device := d } := by
  unfold State.evalCondition State.raiseGroupFlag
  dsimp only
  split
  · split
    · exact ⟨_, _, _, rfl⟩
    · split
      · exact ⟨_, _, _, rfl⟩
      · exact ⟨_, _, _, (handWatch_rest _).1⟩
  · exact ⟨_, _, _, rfl⟩

/-- The group record after its WAIT condition has been evaluated (R46, R48). -/
def State.waitEvaluated (s : State) (g : Group) : GroupRec :=
  { s.group g with
    conditions := { (s.group g).conditions with wait := s.waitCondition g }
    flags := { (s.group g).flags with wait := (s.group g).flags.wait || (s.waitCondition g && !(s.group g).conditions.wait) } }

/-- The evaluation of group `g`'s WAIT condition hands a WATCH. -/
def State.waitWatches (s : State) (g : Group) : Bool :=
  s.waitCondition g && !(s.group g).conditions.wait && !(s.group g).flags.wait && !(s.group g).masks.wait

theorem evalWait_group (s : State) (g h : Group) : (s.evalWait g).group h = if h = g then s.waitEvaluated g else s.group h :=
  evalCondition_group s g h .wait _

/-- What the WAIT condition of a group is made of. -/
theorem waitCondition_congr {s t : State} {g : Group} (group : t.group g = s.group g) (calls : t.calls = s.calls)
    (clock : t.clock = s.clock) : t.waitCondition g = s.waitCondition g := by
  have call (c : CallSlot) : t.call c = s.call c := congrArg (Vector.get · c) calls
  unfold State.waitCondition State.oldestAge
  rw [group, clock, funext call]

/-- The WAIT conditions of several groups evaluated one after another. -/
theorem evalWaits (l : List Group) (distinct : l.Nodup) (s : State) :
    (∀ g, (l.foldl State.evalWait s).group g = if g ∈ l then s.waitEvaluated g else s.group g)
      ∧ Watched s (l.foldl State.evalWait s) (l.filter s.waitWatches).length
      ∧ { (l.foldl State.evalWait s).device with watchOwed := s.device.watchOwed } = s.device
      ∧ ∃ groups q d, l.foldl State.evalWait s = { s with groups := groups, portS := q, device := d } := by
  induction l generalizing s with
  | nil => exact ⟨fun _ => rfl, .of_same rfl rfl rfl, rfl, s.groups, s.portS, s.device, rfl⟩
  | cons x l ih =>
    obtain ⟨absent, distinct⟩ := List.nodup_cons.mp distinct
    obtain ⟨groups, watched, device, gs, q, d, rest⟩ := ih distinct (s.evalWait x)
    obtain ⟨gs', q', d', first⟩ : ∃ groups q d, s.evalWait x = { s with groups := groups, portS := q, device := d } :=
      evalCondition_rest s x .wait (s.waitCondition x)
    have kept (g : Group) (hg : g ∈ l) : (s.evalWait x).group g = s.group g := by
      rw [evalWait_group, if_neg (by rintro rfl; exact absent hg)]
    have condition (g : Group) (hg : g ∈ l) : (s.evalWait x).waitCondition g = s.waitCondition g :=
      waitCondition_congr (kept g hg) (by rw [first]) (by rw [first])
    have watches : l.filter (s.evalWait x).waitWatches = l.filter s.waitWatches :=
      List.filter_congr fun g hg => by simp only [State.waitWatches, kept g hg, condition g hg]
    refine ⟨fun g => ?_, ?_, ?_, gs, q, d, ?_⟩
    · rw [List.foldl_cons, groups]
      by_cases later : g ∈ l
      · rw [if_pos later, if_pos (List.mem_cons_of_mem x later), State.waitEvaluated, kept g later, condition g later]
        rfl
      · rw [if_neg later, evalWait_group]
        by_cases here : g = x <;> simp [here, later]
    · have both := (evalCondition_watched s x .wait (s.waitCondition x)).trans watched
      rw [watches] at both
      rw [List.filter_cons, show (if s.waitWatches x = true then x :: l.filter s.waitWatches else l.filter s.waitWatches).length
        = (s.waitWatches x).toNat + (l.filter s.waitWatches).length by cases s.waitWatches x <;> simp [Nat.add_comm]]
      exact both
    · have before := (evalCondition_side s x .wait (s.waitCondition x)).device
      rw [DeviceRec.mk.injEq] at before device ⊢
      obtain ⟨a1, a2, a3, a4, a5, a6, -⟩ := before
      obtain ⟨b1, b2, b3, b4, b5, b6, -⟩ := device
      exact ⟨b1.trans a1, b2.trans a2, b3.trans a3, b4.trans a4, b5.trans a5, b6.trans a6, rfl⟩
    · rw [List.foldl_cons, rest]
      rw [first]

/-! ### The STARVED condition -/

theorem starvedNow_eq (s : State) : s.starvedNow = starvedBy s.waitList s.clock := by
  unfold State.starvedNow starvedBy
  cases s.waitList <;> rfl

/-- The STARVED condition rises. -/
def State.starves (s : State) : Bool := s.starvedNow && !s.device.starvedCondition

/-- The device record after an evaluation of the STARVED condition, but for its owed flag. -/
def State.starvedEvaluated (s : State) : DeviceRec :=
  { s.device with starvedCondition := s.starvedNow, starved := s.device.starved || s.starves }

/-- An evaluation of the STARVED condition hands a WATCH when the condition rises, its flag was clear and it is unmasked. -/
theorem evalStarved_eq (s : State) : s.evalStarved =
    if s.starves && !s.device.starved && !s.device.maskStarved then (s.setDevice s.starvedEvaluated).handWatch
    else s.setDevice s.starvedEvaluated := by
  unfold State.evalStarved State.raiseStarved State.starvedEvaluated State.setDevice
  dsimp only
  rw [← State.starves]
  by_cases rises : s.starves = true
  · by_cases set : s.device.starved = true
    · simp only [rises, set, if_true, Bool.or_true, Bool.not_true, Bool.and_false, Bool.false_and, Bool.false_eq_true, if_false]
    · have clear := Bool.eq_false_of_not_eq_true set
      by_cases masked : s.device.maskStarved = true
      · simp [rises, clear, masked]
      · simp [rises, clear, Bool.eq_false_of_not_eq_true masked]
  · simp [Bool.eq_false_of_not_eq_true rises]

theorem evalStarved_rest (s : State) : ∃ q d, s.evalStarved = { s with portS := q, device := d } := by
  rw [evalStarved_eq]
  split
  · exact ⟨_, _, (handWatch_rest _).1⟩
  · exact ⟨_, _, rfl⟩

theorem evalStarved_device (s : State) :
    { s.evalStarved.device with watchOwed := s.device.watchOwed } = s.starvedEvaluated := by
  rw [evalStarved_eq]
  split
  · exact (handWatch_side (s.setDevice s.starvedEvaluated)).device
  · rfl

theorem evalStarved_watched (s : State) :
    Watched s s.evalStarved (s.starves && !s.device.starved && !s.device.maskStarved).toNat := by
  have same : Watched s (s.setDevice s.starvedEvaluated) 0 := .of_same rfl rfl rfl
  rw [evalStarved_eq]
  split
  next hands =>
    rw [hands]
    refine same.trans (handWatch_watched (firstWatch_of_device (.inr ?_)))
    simp only [Bool.and_eq_true, Bool.not_eq_true'] at hands
    obtain ⟨⟨rises, -⟩, unmasked⟩ := hands
    change ((s.device.starved || s.starves) && !s.device.maskStarved) = true
    rw [rises, unmasked, Bool.or_true]
    rfl
  next quiet => rwa [Bool.eq_false_of_not_eq_true quiet]

/-! ### The advance of the clock (R48, R168) -/

/-- No ring timer and no overflow wait has run out. -/
theorem takeExpiries_quiet {s : State} (ring : ∀ c r e, s.call c = some r → r.ring = some e → s.clock < e)
    (overflow : ∀ c r e, s.call c = some r → r.overflowDue = some e → s.clock < e) : s.takeExpiries = s := by
  have none (f : CallRec → Option Nat) (ahead : ∀ c r e, s.call c = some r → f r = some e → s.clock < e) : s.callsDue f = [] := by
    rw [List.eq_nil_iff_forall_not_mem]
    intro c due
    obtain ⟨r, e, hr, he, reached⟩ := (mem_callsDue s f c).mp due
    have := ahead c r e hr he
    omega
  simp only [State.takeExpiries, none CallRec.ring ring, List.foldl_nil, none CallRec.overflowDue overflow]

theorem tick_before {s : State} (h : s.clock < 4294967295) : s.tick = s.setClock (s.clock + 1) := by
  rw [State.tick, if_pos (by rw [Config.wrap32]; omega)]

theorem tick_last {s : State} (h : s.clock = 4294967295) : s.tick.clock < 4294967296 ∧ s.tick.free = s.free + 1 := by
  rw [State.tick, if_neg (by rw [Config.wrap32]; omega)]
  exact ⟨BitVec.isLt _, rfl⟩

theorem tick_rest (s : State) : ∃ k n, s.tick = { s with clock := k, free := n } := by
  unfold State.tick
  split
  · exact ⟨_, _, rfl⟩
  · exact ⟨_, _, rfl⟩

/-- Settles O56: nothing that is due being outstanding, the second counts and the conditions are evaluated in it, group by group. -/
theorem clockAdvanceEvaluatesWaitAndStarved : Obligations.ClockAdvanceEvaluatesWaitAndStarved := by
  unfold Obligations.ClockAdvanceEvaluatesWaitAndStarved
  intro s calm ahead
  have quiet : s.settled.takeExpiries = s := by
    rw [settled_calm calm]
    exact takeExpiries_quiet (fun c r e hr he => (ahead c r hr).1 e he) fun c r e hr he => (ahead c r hr).2.1 e he
  obtain ⟨k, n, ticked⟩ := tick_rest s
  let v : State := { s with clock := k, free := n }
  have waits := evalWaits _ (List.nodup_finRange 64) v
  have slots : KeepsSlots v ((List.finRange 64).foldl State.evalWait v).evalStarved :=
    ((Moves.foldl (ties := false) (fun u g => evalWait_moves u g) _ v).trans (evalStarved_moves _)).slots
  have advanced : s.settled.advance = ((List.finRange 64).foldl State.evalWait v).evalStarved := by rw [State.advance, quiet, ticked]
  generalize (List.finRange 64).foldl State.evalWait v = u at waits slots advanced
  obtain ⟨groups, watched, device, gs, q, d, hu⟩ := waits
  obtain ⟨q', d', ht⟩ := evalStarved_rest u
  let t := u.evalStarved
  have here : t = { v with groups := gs, portS := q', device := d' } := ht.trans (by rw [hu])
  have clock : t.clock = k := by rw [here]
  have taken : exec .stationClockAdvance s = .next t := congrArg Host.Outcome.next advanced
  have starvedNow : u.starvedNow = starvedBy s.waitList k := by rw [starvedNow_eq, hu]
  rw [DeviceRec.mk.injEq] at device
  obtain ⟨purgeDone, segmentFault, starved, maskFault, maskStarved, condition, -⟩ := device
  have starves : u.starves = (starvedBy s.waitList k && !s.device.starvedCondition) := by
    rw [State.starves, starvedNow]
    exact congrArg (fun b => starvedBy s.waitList k && !b) condition
  refine ⟨t, taken, fun before => ?_, fun last => ?_, ⟨fun g => ?_, ?_, ?_⟩, fun p => ?_, ?_⟩
  · rw [tick_before before] at ticked
    rw [clock, show t.free = n by rw [here]]
    exact ⟨(congrArg State.clock ticked).symm, (congrArg State.free ticked).symm⟩
  · obtain ⟨bound, drawn⟩ := tick_last last
    rw [ticked] at bound drawn
    rw [clock, show t.free = n by rw [here]]
    exact ⟨bound, drawn⟩
  · rw [clock]
    have group : t.group g = u.group g := by rw [show t = _ from ht]; rfl
    exact group.trans ((groups g).trans (if_pos (List.mem_finRange g)))
  · have evaluated := evalStarved_device u
    rw [State.starvedEvaluated, DeviceRec.mk.injEq] at evaluated
    obtain ⟨e1, e2, e3, e4, e5, e6, -⟩ := evaluated
    rw [clock, DeviceRec.mk.injEq]
    exact ⟨e1.trans purgeDone, e2.trans segmentFault, e3.trans (by rw [starves]; exact congrArg (· || _) starved), e4.trans maskFault,
      e5.trans maskStarved, e6.trans starvedNow, rfl⟩
  · have all := watched.trans (evalStarved_watched u)
    obtain ⟨l, length, notices⟩ := all.notices
    refine ⟨l, ?_, notices, ?_, all.owed⟩
    · rw [length, starves, show u.device.starved = s.device.starved from starved,
        show u.device.maskStarved = s.device.maskStarved from maskStarved, clock]
      cases starvedBy s.waitList k && !s.device.starvedCondition && !s.device.starved && !s.device.maskStarved <;> rfl
    · refine all.raised.trans ?_
      rw [← length]
      refine congrArg (s.device.watchOwed || ·) (decide_eq_decide.mpr ?_)
      have none : l ≠ [] ↔ l.length ≠ 0 := by simp
      simp only [Bool.and_eq_true, decide_eq_true_eq, none, Config.noticeCapacity]
      change 64 - s.portS.notices.length < _ ↔ _
      omega
  · exact ⟨slots.slot p, slots.response p, slots.rejected p, slots.shifted p⟩
  · rw [here]

end Sys2Proof.Machine

/-! The rules of the Playout Engine's acts that the events of highway channels and announcements, and the moves of calls, are built
from: sources that gain and lose listeners, grants, ends of announcements and the arbiter (R160, R162, R168 to R171). -/

namespace Sys2Proof.Machine

/-! ### A source that starts (R162) -/

theorem raiseSegmentFault_rest (s : State) : ∃ q d, s.raiseSegmentFault = { s with portS := q, device := d } := by
  unfold State.raiseSegmentFault
  dsimp only
  split
  · exact ⟨_, _, rfl⟩
  · split
    · exact ⟨_, _, rfl⟩
    · exact ⟨_, _, (handWatch_rest _).1⟩

theorem beginSegment_rest (s : State) (code : Nat) :
    ∃ segments q d, (s.beginSegment code).2 = { s with segments := segments, portS := q, device := d } := by
  obtain ⟨q, d, fault⟩ := raiseSegmentFault_rest s
  rcases present_cases s code with ⟨-, e⟩ | ⟨k, -, e⟩
  · exact ⟨s.segments, q, d, by rw [e]; exact fault⟩
  · exact ⟨_, s.portS, s.device, by rw [e]; rfl⟩

theorem beginWord_rest (s : State) (v : VocabNo) :
    ∃ segments q d, (s.beginWord v).2 = { s with segments := segments, portS := q, device := d } := by
  unfold State.beginWord
  split
  · obtain ⟨q, d, fault⟩ := raiseSegmentFault_rest s
    exact ⟨s.segments, q, d, fault⟩
  · exact beginSegment_rest s _

/-- A step carried out touches segments, the device record and port S alone, and the run has played what it had. -/
theorem carryStep_rest (s : State) (caller : Option CallSlot) (r : Run) :
    (∃ segments q d, (s.carryStep caller r).2.2 = { s with segments := segments, portS := q, device := d })
      ∧ (s.carryStep caller r).2.1.played = r.played := by
  unfold State.carryStep
  dsimp only
  split
  case h_2 => exact ⟨beginSegment_rest s _, rfl⟩
  case h_4 | h_5 =>
    split
    · exact ⟨⟨_, _, _, rfl⟩, rfl⟩
    · split
      · exact ⟨⟨_, _, _, rfl⟩, rfl⟩
      · exact ⟨beginWord_rest s _, rfl⟩
  case h_7 =>
    split
    · exact ⟨⟨_, _, _, rfl⟩, rfl⟩
    · split <;> exact ⟨⟨_, _, _, rfl⟩, rfl⟩
  all_goals exact ⟨⟨_, _, _, rfl⟩, rfl⟩

/-- A run that has played nothing is carried on to a run, and of the sources only its own comes to hold it. -/
theorem carrySource_silent (n : Nat) (m : SourceNo) (r : Run) (s : State) (silent : r.played = false) :
    ∃ q segments port d, State.carrySource n m r s =
      { s.setSource m { s.source m with run := some q } with segments := segments, portS := port, device := d } := by
  induction n generalizing r s with
  | zero => exact ⟨r, _, _, _, rfl⟩
  | succ n ih =>
    obtain ⟨⟨segments, port, d, rest⟩, played⟩ := carryStep_rest s none r
    unfold State.carrySource
    split
    next r1 s1 e =>
      rw [e] at rest
      dsimp only at rest
      exact ⟨r1, segments, port, d, by rw [rest]; rfl⟩
    next r1 s1 e =>
      rw [e] at rest played
      dsimp only at rest played
      obtain ⟨q, segs, port', d', on⟩ := ih { r1 with step := r1.step + 1 } s1 (played.trans silent)
      exact ⟨q, segs, port', d', by rw [on, rest]; rfl⟩
    next ret r1 s1 e =>
      rw [e] at rest played
      dsimp only at rest played
      rw [if_neg (by rw [played, silent]; exact Bool.false_ne_true)]
      exact ⟨_, segments, port, d, by rw [rest]; rfl⟩

/-- A STOPPED source that holds a program starts. -/
theorem startSource_started {s : State} {m : SourceNo} {p : ProgramNo} (stopped : (s.source m).run = none)
    (holds : (s.source m).current = some p) :
    ∃ q segments port d, s.startSource m =
      { s.setSource m { s.source m with run := some q, idlePasses := 0 } with segments := segments, portS := port, device := d } := by
  obtain ⟨q, segments, port, d, carried⟩ := carrySource_silent State.carryFuel m { program := p }
    (s.setSource m { s.source m with run := some { program := p }, idlePasses := 0 }) rfl
  rw [State.setSource_source_self, setSource_setSource] at carried
  exact ⟨q, segments, port, d, (startSource_eq stopped holds).trans carried⟩

/-- A RUNNING source, and one without a program, stay as they are. -/
theorem startSource_stays {s : State} {m : SourceNo} (h : (s.source m).run ≠ none ∨ (s.source m).current = none) :
    s.startSource m = s := by
  unfold State.startSource
  dsimp only
  split
  next stopped holds => exact absurd (h.resolve_left (not_not.mpr stopped)) (by rw [holds]; exact Option.some_ne_none _)
  · rfl

/-! ### Listeners (R160) -/

/-- The record of source `m` after a call has come from listening to `before` to listening to `after`. -/
def SourceRec.retuned (q : SourceRec) (m : SourceNo) (before after : Listen) : SourceRec :=
  if after = .music m ∧ before ≠ .music m then { q with listeners := q.listeners + 1, idlePasses := 0 }
  else { q with listeners := if before = .music m ∧ after ≠ .music m then q.listeners - 1 else q.listeners }

/-- What a call has listened to loses a listener (R160). -/
def State.unheard (s : State) (before : Listen) : State :=
  match before with
  | .music n => s.loseListener n
  | _ => s

theorem unheard_source (s : State) (before : Listen) (m : SourceNo) : (s.unheard before).source m =
      if before = .music m then { s.source m with listeners := (s.source m).listeners - 1 } else s.source m := by
  cases before with
  | music n =>
    rw [State.unheard, State.loseListener, State.setSource_source]
    by_cases same : m = n
    · simp [same]
    · simp [same, Ne.symm same]
  | silent => rfl
  | announce j => rfl

theorem hear_source {s : State} {c : CallSlot} {r : CallRec} (h : s.call c = some r) (l : Listen) (m : SourceNo) :
    (s.hear c l).source m = (s.source m).retuned m r.listen l := by
  unfold State.hear SourceRec.retuned
  rw [h]
  dsimp only
  by_cases stays : r.listen = l
  · rw [if_pos stays, stays, if_neg (fun h => h.2 h.1), if_neg (fun h => h.2 h.1)]
    rfl
  · rw [if_neg stays]
    have lost := unheard_source (s.modCall c fun r => { r with listen := l }) r.listen m
    have tuned : ¬(r.listen = .music m ∧ l = .music m) := fun h => stays (h.1.trans h.2.symm)
    cases l with
    | music n =>
      refine (State.setSource_source ..).trans ?_
      by_cases same : m = n
      · subst same
        rw [if_pos rfl, if_pos ⟨rfl, stays⟩]
        exact congrArg (fun q : SourceRec => { q with listeners := q.listeners + 1, idlePasses := 0 }) (lost.trans (if_neg stays))
      · rw [if_neg same]
        refine lost.trans ?_
        rw [if_neg (c := _ ∧ _) (fun h => same (Listen.music.inj h.1).symm)]
        by_cases left : r.listen = .music m
        · rw [if_pos left, if_pos ⟨left, fun h => same (Listen.music.inj h).symm⟩]
          rfl
        · rw [if_neg left, if_neg fun h => left h.1]
          rfl
    | silent | announce =>
      refine lost.trans ?_
      by_cases left : r.listen = .music m <;> simp only [left, if_true, if_false, reduceCtorEq, false_and, true_and, ne_eq,
        not_false_eq_true] <;> rfl

/-- A call that comes to listen to `l`: all that changes beside its record. -/
theorem setListen_rest (s : State) (c : CallSlot) (l : Listen) :
    ∃ calls sources segments port d, s.setListen c l =
      { s with calls := calls, sources := sources, segments := segments, portS := port, device := d } := by
  have heard : ∃ calls sources, s.hear c l = { s with calls := calls, sources := sources } := ⟨_, _, hear_rest s c l⟩
  obtain ⟨calls, sources, heard⟩ := heard
  have starts (m : SourceNo) : ∃ sources segments port d,
      (s.hear c l).startSource m = { s.hear c l with sources := sources, segments := segments, portS := port, device := d } := by
    by_cases starts : ((s.hear c l).source m).run ≠ none ∨ ((s.hear c l).source m).current = none
    · exact ⟨_, _, _, _, startSource_stays starts⟩
    · obtain ⟨stopped, holds⟩ := not_or.mp starts
      obtain ⟨p, holds⟩ := Option.ne_none_iff_exists'.mp holds
      obtain ⟨q, segments, port, d, started⟩ := startSource_started (not_not.mp stopped) holds
      exact ⟨_, _, _, _, started⟩
  rw [setListen_eq]
  split
  · split
    · exact ⟨_, _, _, _, _, heard⟩
    · obtain ⟨sources', segments, port, d, e⟩ := starts _
      exact ⟨calls, sources', segments, port, d, by rw [e, heard]⟩
  · exact ⟨_, _, _, _, _, heard⟩

/-- No source starts where the call comes to no source, or to one that is RUNNING or holds no program. -/
theorem setListen_quiet {s : State} {c : CallSlot} {r : CallRec} (h : s.call c = some r) {l : Listen}
    (quiet : ∀ m, l = .music m → r.listen ≠ .music m → (s.source m).run ≠ none ∨ (s.source m).current = none) :
    s.setListen c l = s.hear c l := by
  rw [setListen_eq, h]
  cases l with
  | music m =>
    dsimp only
    by_cases stays : r.listen = .music m
    · rw [if_pos stays]
    · rw [if_neg stays]
      refine startSource_stays ?_
      rw [hear_source h, SourceRec.retuned, if_pos ⟨rfl, stays⟩]
      exact quiet m rfl stays
  | silent => rfl
  | announce j => rfl

/-- What a gain of listeners says depends on sources, programs, segments and the fault flag alone. -/
theorem SourceGains.congr {s s' t t' : State} {m : SourceNo} {n : Nat} (h : SourceGains s t m n)
    (source : s'.source m = s.source m) (programs : s'.programs = s.programs) (segments : s'.segments = s.segments)
    (fault : s'.device.segmentFault = s.device.segmentFault) (source' : t'.source m = t.source m)
    (segments' : t'.segments = t.segments) (fault' : t'.device.segmentFault = t.device.segmentFault) : SourceGains s' t' m n := by
  have steps (k : ProgramNo) : s'.programSteps k = s.programSteps k := congrArg (Vector.get · k) programs
  have begun (p : ProgramNo) (q : Run) (b : RunBegun s t m p q) : RunBegun s' t' m p q := by
    obtain ⟨u, v, b1, b2, b3, carries, b4, b5⟩ := b
    exact ⟨u, v, b1.trans programs.symm, b2.trans segments.symm, b3.trans fault.symm, carries, segments'.trans b4, fault'.trans b5⟩
  obtain ⟨listeners, idlePasses, goesOn, starts, rest⟩ := h
  constructor
  · rw [source, source']; exact listeners
  · rw [source, source']; exact idlePasses
  · rw [source, source']; exact goesOn
  · rw [source, source']
    intro p some stopped holds
    obtain ⟨q, run, b⟩ := starts p some stopped holds
    exact ⟨q, run, fun short => begun p q (b fun k => steps k ▸ short k)⟩
  · rw [source, source']; exact rest

/-- A source that no call has come to or gone from. -/
theorem SourceGains.none {s t : State} {m : SourceNo} (same : t.source m = s.source m) : SourceGains s t m 0 where
  listeners := by rw [same]; rfl
  idlePasses := by rw [same]; rfl
  goesOn _ := by rw [same]
  starts _ some := absurd rfl some
  rest := by rw [same]

/-- Source `m`, with a listener more and its idle-pass counter clear, starts if it is STOPPED and holds a program. -/
theorem startSource_gains {s u : State} {m : SourceNo}
    (source : u.source m = { s.source m with listeners := (s.source m).listeners + 1, idlePasses := 0 })
    (programs : u.programs = s.programs) (segments : u.segments = s.segments)
    (fault : u.device.segmentFault = s.device.segmentFault) : SourceGains s (u.startSource m) m 1 := by
  by_cases starts : (s.source m).run ≠ none ∨ (s.source m).current = none
  · rw [startSource_stays (by rw [source]; exact starts)]
    refine ⟨by rw [source], by rw [source]; rfl, fun _ => by rw [source], fun p _ stopped holds => ?_, by rw [source]⟩
    rcases starts with running | empty
    · exact absurd stopped running
    · rw [holds] at empty; cases empty
  · obtain ⟨stopped, holds⟩ := not_or.mp starts
    have stopped := not_not.mp stopped
    obtain ⟨p, holds⟩ := Option.ne_none_iff_exists'.mp holds
    have stopped' : (u.source m).run = none := by rw [source]; exact stopped
    have holds' : (u.source m).current = some p := by rw [source]; exact holds
    obtain ⟨q, segs, port, d, started⟩ := startSource_started stopped' holds'
    have now : (u.startSource m).source m = { u.source m with run := some q, idlePasses := 0 } := by
      rw [started]
      exact State.setSource_source_self ..
    refine ⟨by rw [now, source], by rw [now]; rfl, fun h => ?_, fun p' _ _ holds'' => ⟨q, by rw [now], fun short => ?_⟩, ?_⟩
    · exact absurd (h.resolve_left Nat.one_ne_zero) starts
    · rw [holds] at holds''
      cases holds''
      have short' (k : ProgramNo) : (u.programSteps k).length ≤ 32 := by
        rw [show u.programSteps k = s.programSteps k from congrArg (Vector.get · k) programs]
        exact short k
      obtain ⟨v, r, carries, same⟩ := startSource_carries stopped' holds' short'
      have run : r = q := by
        have := (congrArg (fun w : State => (w.source m).run) same).symm.trans (congrArg SourceRec.run now)
        rw [State.setSource_source_self] at this
        exact Option.some.inj this
      subst run
      exact ⟨u.setSource m { u.source m with run := some { program := p }, idlePasses := 0 }, v, programs, segments, fault, carries, by rw [same]; rfl, by rw [same]; rfl⟩
    · rw [now, source]


theorem setListen_gains {s : State} {c : CallSlot} {r : CallRec} {m : SourceNo} (h : s.call c = some r)
    (tunes : r.listen ≠ .music m) : SourceGains s (s.setListen c (.music m)) m 1 := by
  have rest := hear_rest s c (.music m)
  rw [setListen_eq, h]
  dsimp only
  rw [if_neg tunes]
  refine startSource_gains ?_ ?_ ?_ ?_
  · rw [hear_source h, SourceRec.retuned, if_pos ⟨rfl, tunes⟩]
  all_goals rw [rest]

/-- A source that the call does not come to loses a listener where the call has left it, and is else as it was. -/
theorem setListen_source {s : State} {c : CallSlot} {r : CallRec} (h : s.call c = some r) {l : Listen} {m : SourceNo}
    (elsewhere : ¬(l = .music m ∧ r.listen ≠ .music m)) :
    (s.setListen c l).source m =
      { s.source m with
        listeners := if r.listen = .music m ∧ l ≠ .music m then (s.source m).listeners - 1 else (s.source m).listeners } := by
  have heard : (s.hear c l).source m = _ := (hear_source h l m).trans (if_neg elsewhere)
  by_cases quiet : ∀ n, l = .music n → r.listen ≠ .music n → (s.source n).run ≠ none ∨ (s.source n).current = none
  · rw [setListen_quiet h quiet]
    exact heard
  · simp only [not_forall, not_or, not_not] at quiet
    obtain ⟨n, rfl, tunes, stopped, holds⟩ := quiet
    obtain ⟨p, holds⟩ := Option.ne_none_iff_exists'.mp holds
    have here : (s.hear c (.music n)).source n = _ := (hear_source h _ n).trans (if_pos ⟨rfl, tunes⟩)
    obtain ⟨q, segments, port, d, started⟩ := startSource_started (s := s.hear c (.music n)) (m := n) (p := p)
      (by rw [here]; exact stopped) (by rw [here]; exact holds)
    have other : m ≠ n := by rintro rfl; exact elsewhere ⟨rfl, tunes⟩
    rw [setListen_eq, h]
    dsimp only
    rw [if_neg tunes, started]
    exact (State.setSource_source_of_ne _ _ other).trans heard

/-- Where no source starts, segments, the device record and port S stay as they are. -/
theorem setListen_quiet_rest {s : State} {c : CallSlot} {r : CallRec} (h : s.call c = some r) {l : Listen}
    (quiet : ∀ m, l = .music m → r.listen ≠ .music m → (s.source m).run ≠ none ∨ (s.source m).current = none) :
    ∃ calls sources, s.setListen c l = { s with calls := calls, sources := sources } :=
  ⟨_, _, (setListen_quiet h quiet).trans (hear_rest s c l)⟩

/-! ### LISTENs (R159, R187) -/

theorem port_other_ne (y : Shelf) : portOf (other y) ≠ portOf y := by cases y <;> nofun

/-- A LISTEN is handed to the call's port: placed, or owed once. -/
theorem handListen_handed {s : State} {c : CallSlot} {r : CallRec} (h : s.call c = some r) :
    (s.handCall c .listen).call c = some { r with owedListen := r.owedListen || !s.hasRoom (portOf r.owner) }
      ∧ ListenHanded s (s.handCall c .listen) c (s.heard r.listen) r
          { r with owedListen := r.owedListen || !s.hasRoom (portOf r.owner) } := by
  have notices := handListen_notices s c r.owner
  rw [State.listenFor, h] at notices
  dsimp only at notices
  rw [if_pos rfl] at notices
  refine ⟨by rw [handListen_call, if_pos rfl, h, Option.map_some], notices, ?_, rfl, ?_⟩
  · rcases handListen_cases h with ⟨room, e⟩ | ⟨full, owed, e⟩ | ⟨full, owed, e⟩
    · rw [e, room, Bool.true_or, if_pos rfl, pushNotice_port, if_pos rfl]
    · rw [e, owed, Bool.or_true, if_pos rfl]
    · rw [e, full, owed, Bool.or_false, if_neg Bool.false_ne_true, appendOwed_port, if_pos rfl]
      rfl
  · rcases handListen_cases h with ⟨room, e⟩ | ⟨full, owed, e⟩ | ⟨full, owed, e⟩
    · rw [SameQueue, e, pushNotice_port, if_neg (port_other_ne r.owner)]
      exact ⟨rfl, rfl⟩
    · rw [e]
      exact ⟨rfl, rfl⟩
    · rw [SameQueue, e, appendOwed_port, if_neg (port_other_ne r.owner)]
      exact ⟨rfl, rfl⟩

/-- What the handing of a LISTEN says depends on the shelves' ports and the call's name and owed flag alone. -/
theorem ListenHanded.congr {s s' t t' : State} {c : CallSlot} {slot : Option Timeslot} {before before' after after' : CallRec}
    (h : ListenHanded s t c slot before after) (ports : ∀ y, SameQueue s' s (portOf y)) (ports' : ∀ y, SameQueue t t' (portOf y))
    (owner : before'.owner = before.owner) (tag : before'.tag = before.tag) (owed : before'.owedListen = before.owedListen)
    (owed' : after'.owedListen = after.owedListen) : ListenHanded s' t' c slot before' after' := by
  obtain ⟨notices, list, flag, otherPort⟩ := h
  unfold ListenHanded SameQueue State.hasRoom
  dsimp only
  unfold SameQueue State.hasRoom at *
  rw [owner, tag, owed, owed', (ports' before.owner).1, (ports' before.owner).2, ← (ports before.owner).1, ← (ports before.owner).2]
  exact ⟨notices, list, flag, (ports' _).1.trans (otherPort.1.trans (ports _).1), (ports' _).2.trans (otherPort.2.trans (ports _).2)⟩


/-! ### Grants and ends of announcements (R170, R171) -/

theorem KeepsSlots.same {s t : State} (h : KeepsSlots s t) : SameSlots s t := fun p => ⟨h.slot p, h.response p, h.rejected p, h.shifted p⟩

theorem KeepsBase.same {s t : State} (h : KeepsBase s t) (generator : t.generator = s.generator) : SameBase s t where
  clock := h.clock
  seqCounter := h.seqCounter
  lines := h.lines
  seed := h.seed
  taps := h.taps
  generator := generator
  ram := h.ram
  programs := h.programs
  vocab := h.vocab
  slotMap := h.slotMap
  idleModes := h.idleModes
  idleByte := h.idleByte
  highway := h.highway
  free := h.free
  pending := h.pending

/-- The listen source of call `c` becomes `l`, and a LISTEN is handed to its port. -/
def State.tells (s : State) (c : CallSlot) (l : Listen) : State := (s.setListen c l).handCall c .listen

theorem tells_play {C : CallSlot → Prop} {W : Bool} (s : State) {c : CallSlot} (l : Listen) (hc : C c) : PlayMoves C W s (s.tells c l) :=
  (setListen_play s l hc).trans (handListen_play _ hc)

theorem tells_rest (s : State) (c : CallSlot) (l : Listen) : ∃ calls sources segments a b port d, s.tells c l =
    { s with calls := calls, sources := sources, segments := segments, portA := a, portB := b, portS := port, device := d } := by
  obtain ⟨calls, sources, segments, port, d, listens⟩ := setListen_rest s c l
  obtain ⟨calls', a, b, told⟩ := handListen_rest (s.setListen c l) c
  exact ⟨calls', sources, segments, a, b, port, d, by rw [State.tells, told, listens]⟩

/-- The call's record, and the LISTEN, when it is told of what it hears from now. -/
theorem tells_handed {s : State} {c : CallSlot} {r : CallRec} (h : s.call c = some r) (l : Listen) :
    ∃ q, (s.tells c l).call c = some q ∧ { q with owedListen := r.owedListen } = { r with listen := l }
      ∧ ListenHanded s (s.tells c l) c (s.heard l) r q := by
  obtain ⟨calls, sources, segments, port, d, rest⟩ := setListen_rest s c l
  have call : (s.setListen c l).call c = some { r with listen := l } := by rw [setListen_call, if_pos rfl, h]; rfl
  obtain ⟨now, handed⟩ := handListen_handed call
  have heard : (s.setListen c l).heard l = s.heard l := by rw [rest]; cases l <;> rfl
  dsimp only at handed
  rw [heard] at handed
  refine ⟨_, now, rfl, handed.congr (fun y => ?_) (fun y => ⟨rfl, rfl⟩) rfl rfl rfl rfl⟩
  rw [rest]
  cases y <;> exact ⟨rfl, rfl⟩

theorem tells_source (s : State) (c : CallSlot) (l : Listen) (m : SourceNo) : (s.tells c l).source m = (s.setListen c l).source m := by
  obtain ⟨calls, a, b, told⟩ := handListen_rest (s.setListen c l) c
  rw [State.tells, told]
  rfl

/-- The run of channel `j` begins for call `c`, which is told of it. -/
def State.grants (s : State) (j : ChannelNo) (c : CallSlot) (p : ProgramNo) : State :=
  (s.putChannelRun j c { program := p }).tells c (.announce j)

theorem grant_eq (s : State) (j : ChannelNo) (c : CallSlot) (p : ProgramNo) :
    s.grant j c p = (s.grants j c p).runChannel j c { program := p } := rfl

theorem grants_granted {s : State} {c : CallSlot} {r : CallRec} (h : s.call c = some r) (j : ChannelNo) (p : ProgramNo) :
    ChannelGranted s (s.grants j c p) j c r p := by
  let u := s.putChannelRun j c { program := p }
  have call : u.call c = some r := h
  obtain ⟨q, now, same, handed⟩ := tells_handed call (.announce j)
  obtain ⟨calls, sources, listens⟩ := setListen_quiet_rest call (l := .announce j) nofun
  obtain ⟨calls', a, b, told⟩ := handListen_rest (u.setListen c (.announce j)) c
  have rest : s.grants j c p = { u with calls := calls', sources := sources, portA := a, portB := b } := by
    rw [State.grants, State.tells, told, listens]
  constructor
  · rw [rest]
    exact State.setChannel_channel_self ..
  · intro i hi
    rw [rest]
    exact State.setChannel_channel_of_ne _ _ hi
  · exact ⟨q, now, same, handed⟩
  · intro d hd
    exact (tells_play (C := (· = c)) (W := false) u (.announce j) rfl).other hd
  · intro m
    refine (tells_source u c _ m).trans ((setListen_source call fun tuned => by cases tuned.1).trans ?_)
    simp only [ne_eq, reduceCtorEq, not_false_eq_true, and_true]
    rfl
  · exact ((putChannelRun_play (C := (· = c)) (W := false) s j c _).trans (tells_play u _ rfl)).off.slots.same
  · rw [rest]
    rfl

theorem musicOf_eq (s : State) (g : Group) : s.musicOf g = s.groupMusic g := by
  unfold State.musicOf State.groupMusic
  cases (s.group g).active.music <;> rfl

theorem endAnnouncement_over {s : State} {c : CallSlot} {r : CallRec} {j : ChannelNo} (h : s.call c = some r)
    (listens : r.listen = .announce j) : AnnouncementOver s (s.endAnnouncement j c) j c r := by
  let u := s.setChannel j none
  let l := s.groupMusic r.group
  have call : u.call c = some r := h
  obtain ⟨q, now, same, handed⟩ := tells_handed call l
  obtain ⟨calls, sources, segments, a, b, port, d, rest⟩ := tells_rest u c l
  let due := if (s.group r.group).active.program.isSome && (s.group r.group).active.interval != 0 then
    some (s.clock + (s.group r.group).active.interval) else none
  have ends : s.endAnnouncement j c = (u.tells c l).modCall c fun r => { r with nextDue := due } := by
    rw [State.endAnnouncement]
    dsimp only
    rw [call]
    dsimp only
    rw [musicOf_eq]
    rfl
  have play := endAnnouncement_play (C := (· = c)) (W := false) s j rfl
  have off := play.off
  have source (m : SourceNo) : (s.endAnnouncement j c).source m = (u.setListen c l).source m := by
    rw [ends]
    exact tells_source u c l m
  constructor
  · rw [ends, rest]
    exact State.setChannel_channel_self ..
  · intro i hi
    rw [ends, rest]
    exact State.setChannel_channel_of_ne _ _ hi
  · refine ⟨{ q with nextDue := due }, by rw [ends, modCall_call, if_pos rfl, now]; rfl, ?_, ?_⟩
    · have due_eq : due = if (s.group r.group).active.program ≠ none ∧ (s.group r.group).active.interval ≠ 0 then
          some (s.clock + (s.group r.group).active.interval) else none := by
        simp only [due, Bool.and_eq_true, Option.isSome_iff_ne_none, bne_iff_ne]
      rw [← due_eq]
      exact congrArg (fun k : CallRec => { k with nextDue := due }) same
    · refine handed.congr (fun y => ⟨rfl, rfl⟩) (fun y => ?_) rfl rfl rfl rfl
      rw [ends]
      cases y <;> exact ⟨rfl, rfl⟩
  · exact fun e he => play.other he
  · intro m
    obtain ⟨calls', a', b', told⟩ := handListen_rest (u.setListen c l) c
    have after : (s.endAnnouncement j c).segments = (u.setListen c l).segments
        ∧ (s.endAnnouncement j c).device.segmentFault = (u.setListen c l).device.segmentFault := by
      rw [ends, State.tells, told]
      exact ⟨rfl, rfl⟩
    by_cases tunes : s.groupMusic r.group = .music m
    · rw [if_pos tunes]
      have gains := setListen_gains (m := m) call (by rw [listens]; nofun)
      rw [← tunes] at gains
      exact gains.congr rfl rfl rfl rfl (source m) after.1 after.2
    · rw [if_neg tunes]
      refine .none ((source m).trans ((setListen_source call fun h => tunes h.1).trans ?_))
      rw [if_neg fun h => by rw [listens] at h; cases h.1]
      rfl
  · exact off.slots.same
  · exact off.groups
  · exact off.agents
  · exact play.waitList
  · exact ⟨off.callTriggers, off.agentTriggers, off.sweepWaiting⟩
  · exact off.base.same off.generator


/-! ### The wait list and the arbiter (R168, R170) -/

/-- The STARVED condition evaluated in a state whose device record and port S are those of `s`. -/
theorem evalStarved_evaluated {s u : State} (device : u.device = s.device) (port : u.portS = s.portS) :
    StarvedEvaluated s u.evalStarved u.waitList u.clock where
  device := by
    have evaluated := evalStarved_device u
    rw [State.starvedEvaluated, State.starves, starvedNow_eq, device] at evaluated
    exact evaluated
  quiet quiet := by
    have still : (u.starves && !u.device.starved && !u.device.maskStarved) = false := by
      rw [State.starves, starvedNow_eq, device]
      rcases quiet with h | h | h | h <;> simp [h]
    rw [evalStarved_eq, still, if_neg Bool.false_ne_true]
    refine ⟨port, ?_⟩
    change u.device.watchOwed = _
    rw [device]
  handed := by
    obtain ⟨l, length, notices⟩ := (evalStarved_watched u).notices
    refine ⟨l.take (Config.noticeCapacity - (u.port .s).notices.length), ?_, ?_⟩
    · rw [notices, placed, ← List.map_take, show u.port .s = s.port .s from port]
    · have := Bool.toNat_le (u.starves && !u.device.starved && !u.device.maskStarved)
      rw [List.length_take, length]
      omega

/-- Call `c`, which waits, leaves the list. -/
theorem leaveWaitList_left {s : State} {c : CallSlot} (waits : ∃ e ∈ s.waitList, e.call = c) : ListLeft s (s.leaveWaitList c) c := by
  have listed : s.waitList.any (·.call == c) = true := by
    rw [List.any_eq_true]
    obtain ⟨e, he, hc⟩ := waits
    exact ⟨e, he, beq_iff_eq.mpr hc⟩
  have left : s.leaveWaitList c =
      ((s.modCall c fun r => { r with onWaitList := false }).setWaitList (s.waitList.filter (·.call != c))).evalStarved := by
    rw [State.leaveWaitList, if_pos listed]
  let u := (s.modCall c fun r => { r with onWaitList := false }).setWaitList (s.waitList.filter (·.call != c))
  obtain ⟨port, d, rest⟩ := evalStarved_rest u
  have waitList := leaveWaitList_waitList s c
  refine ⟨waitList, ?_, fun e he => ?_, ?_, ?_⟩
  · rw [leaveWaitList_call, if_pos ⟨rfl, listed⟩]
  · rw [leaveWaitList_call, if_neg fun h => he h.1]
  · rw [waitList, left]
    exact evalStarved_evaluated (s := s) (u := u) rfl rfl
  · rw [left, rest]
    rfl

theorem carryChannel_rest (n : Nat) (c : CallSlot) (r : Run) (s : State) :
    ∃ segments port d, (State.carryChannel n c r s).2 = { s with segments := segments, portS := port, device := d } := by
  induction n generalizing r s with
  | zero => exact ⟨_, _, _, rfl⟩
  | succ n ih =>
    obtain ⟨⟨segments, port, d, rest⟩, -⟩ := carryStep_rest s (some c) r
    have on (r' : Run) (s1 : State) (e : s1 = { s with segments := segments, portS := port, device := d }) :
        ∃ segments port d, (State.carryChannel n c r' s1).2 = { s with segments := segments, portS := port, device := d } := by
      obtain ⟨segments', port', d', goesOn⟩ := ih r' s1
      exact ⟨segments', port', d', by rw [goesOn, e]⟩
    unfold State.carryChannel
    split
    next e => rw [e] at rest; exact ⟨_, _, _, rest⟩
    next e => rw [e] at rest; exact on _ _ rest
    next e => rw [e] at rest; exact ⟨_, _, _, rest⟩
    next e =>
      rw [e] at rest
      split
      · exact on _ _ rest
      · exact ⟨_, _, _, rest⟩

/-- A run begun on channel `j` for call `c` goes on until it must play, or the announcement is over. -/
theorem runChannel_carries {s : State} {c : CallSlot} {k : CallRec} {r : Run} {j : ChannelNo} (call : s.call c = some k)
    (listens : k.listen = .announce j) (short : ∀ p, (s.programSteps p).length ≤ 32) (fuel : need r ≤ 100) :
    ∃ v e, Carries (.call c) s r v e ∧ v.call c = some k
      ∧ (∃ segments port d, v = { s with segments := segments, portS := port, device := d })
      ∧ (∀ q, e = some q → s.runChannel j c r = v.setChannel j (some ⟨c, q⟩))
      ∧ (e = none → s.runChannel j c r = v.endAnnouncement j c ∧ AnnouncementOver v (v.endAnnouncement j c) j c k) := by
  have carries := carryChannel_carries State.carryFuel c r s (by rw [call]; exact Option.some_ne_none _) short fuel
  obtain ⟨segments, port, d, rest⟩ := carryChannel_rest State.carryFuel c r s
  have here : (State.carryChannel State.carryFuel c r s).2.call c = some k := by rw [rest]; exact call
  refine ⟨_, _, carries, here, ⟨_, _, _, rest⟩, fun q e => ?_, fun e => ⟨?_, endAnnouncement_over here listens⟩⟩
  · unfold State.runChannel
    split
    next r1 s1 h => rw [h] at e ⊢; cases e; rfl
    next s1 h => rw [h] at e; cases e
  · unfold State.runChannel
    split
    next r1 s1 h => rw [h] at e; cases e
    next s1 h => rw [h]

/-- The lowest FREE channel. -/
theorem freeChannel_some {s : State} {j : ChannelNo} (h : s.freeChannel = some j) :
    s.channel j = none ∧ ∀ i, i < j → s.channel i ≠ none := by
  obtain ⟨free, lowest⟩ := head_findAll Option.isNone s.channels h
  refine ⟨Option.isNone_iff_eq_none.mp free, fun i hi free => ?_⟩
  exact absurd (lowest i (Option.isNone_iff_eq_none.mpr free)) (not_le.mpr hi)

theorem freeChannel_none {s : State} (h : s.freeChannel = none) (j : ChannelNo) : s.channel j ≠ none := fun free => by
  have := head_findAll_none Option.isNone s.channels h j
  rw [show s.channels.get j = none from free] at this
  cases this

theorem programSteps_congr {s t : State} (programs : t.programs = s.programs) (p : ProgramNo) :
    t.programSteps p = s.programSteps p := congrArg (Vector.get · p) programs

/-- The arbiter's work goes on from a grant to the call that has left the list. -/
theorem grant_arbitrates {s u t : State} {e : WaitEntry} {l : List WaitEntry} {r : CallRec} {j : ChannelNo} {p : ProgramNo}
    (head : s.waitList = e :: l) (free : s.channel j = none) (lowest : ∀ i, i < j → s.channel i ≠ none)
    (left : ListLeft s u e.call) (call : u.call e.call = some r) (names : (s.group r.group).active.program = some p)
    (short : ∀ k, (u.programSteps k).length ≤ 32) (on : Arbitrates (u.grant j e.call p) t) : Arbitrates s t := by
  have granted := grants_granted call j p
  obtain ⟨q, now, same, -⟩ := granted.call
  have programs : (u.grants j e.call p).programs = u.programs := by rw [granted.rest]
  obtain ⟨v, o, carries, listens, -, plays, ends⟩ := runChannel_carries (j := j) (r := { program := p }) now
    (congrArg CallRec.listen same) (fun k => by rw [programSteps_congr programs]; exact short k) (by change 33 ≤ 100; omega)
  rw [grant_eq] at on
  cases o with
  | some w =>
    rw [plays w rfl] at on
    exact .played s u _ v _ e l _ j p w head free lowest left call names granted carries on
  | none =>
    obtain ⟨done, finished⟩ := ends rfl
    rw [done] at on
    exact .ended s u _ v _ _ e l _ q j p head free lowest left call names granted carries listens finished on

/-- The arbiter acts by R170, where the calls on the list exist and programs are of legal length. -/
theorem arbitrateUpTo_arbitrates (n : Nat) (s : State) (enough : s.waitList.length ≤ n)
    (exist : ∀ w ∈ s.waitList, s.call w.call ≠ none) (short : ∀ p, (s.programSteps p).length ≤ 32) :
    Arbitrates s (State.arbitrateUpTo n s) := by
  induction n generalizing s with
  | zero => exact .done s (.inl (List.eq_nil_of_length_eq_zero (Nat.le_zero.mp enough)))
  | succ n ih =>
    unfold State.arbitrateUpTo
    split
    next e l j head free =>
      obtain ⟨free, lowest⟩ := freeChannel_some free
      have left := leaveWaitList_left (s := s) (c := e.call) ⟨e, by rw [head]; exact List.mem_cons_self, rfl⟩
      let u := s.leaveWaitList e.call
      have off := (leaveWaitList_play (C := fun _ => True) (W := true) s (c := e.call) trivial rfl).off
      have shorter : u.waitList.length ≤ n := by
        rw [left.waitList, head, List.filter_cons_of_neg (by simp)]
        rw [head, List.length_cons] at enough
        exact (List.length_filter_le _ l).trans (Nat.le_of_succ_le_succ enough)
      have gone (w : WaitEntry) (hw : w ∈ u.waitList) : w.call ≠ e.call := by
        rw [left.waitList, List.mem_filter, bne_iff_ne] at hw
        exact hw.2
      have exist' : ∀ w ∈ u.waitList, u.call w.call ≠ none := fun w hw => by
        rw [left.others w.call (gone w hw)]
        rw [left.waitList, List.mem_filter] at hw
        exact exist w hw.1
      have short' : ∀ p, (u.programSteps p).length ≤ 32 := fun p => by
        rw [programSteps_congr off.base.programs]
        exact short p
      obtain ⟨r, call⟩ := Option.ne_none_iff_exists'.mp (exist e (by rw [head]; exact List.mem_cons_self))
      have call' : u.call e.call = some { r with onWaitList := false } := by rw [left.call, call]; rfl
      have group : u.group r.group = s.group r.group := congrArg (Vector.get · r.group) off.groups
      dsimp only
      rw [show (s.leaveWaitList e.call).call e.call = _ from call']
      dsimp only
      split
      next silent =>
        exact .dropped s u _ e l r j head free call left (by rw [← group]; exact silent) (ih u shorter exist' short')
      next p names =>
        have play := grant_play (C := (· = e.call)) (W := false) u j p rfl
        have on := ih (u.grant j e.call p) (by rw [play.waitList]; exact shorter)
          (fun w hw => by
            rw [play.waitList] at hw
            rw [play.other (gone w hw)]
            exact exist' w hw)
          fun k => by
            rw [programSteps_congr play.off.base.programs]
            exact short' k
        exact grant_arbitrates head free lowest left call' (by rw [← group]; exact names) short' on
    next none =>
      refine .done s ?_
      cases waits : s.waitList with
      | nil => exact .inl waits
      | cons e l =>
        refine .inr fun j free => ?_
        cases found : s.freeChannel with
        | none => exact freeChannel_none found j free
        | some i => exact none e l i waits found


end Sys2Proof.Machine

/-! STEP_COMPLETE, FILL_COMPLETE and ANNOUNCEMENT_DUE (R150, R156, R167, R170, R171): O49, O50, O51. -/

namespace Sys2Proof.Machine

/-! ### Complete steps and fills -/

theorem frames_eq (s : State) (r : Run) : s.frames r = s.lasts r := by
  unfold State.frames State.lasts State.stepAt
  cases r.fill with
  | some ret => rfl
  | none =>
    cases r.segment with
    | some k => rfl
    | none =>
      cases (s.programSteps r.program)[r.step]? with
      | none => rfl
      | some st =>
        obtain ⟨k, o⟩ := st
        cases k <;> rfl

theorem stepDone_iff (s : State) (r : Run) : s.stepDone r = true ↔ s.stepOver r := by
  simp only [State.stepDone, State.stepOver, State.moreWords, frames_eq, Bool.and_eq_true, Option.isNone_iff_eq_none,
    decide_eq_true_eq, Bool.not_eq_true', decide_eq_false_iff_not, not_lt]
  exact ⟨fun ⟨⟨a, b⟩, c⟩ => ⟨a, c, b⟩, fun ⟨a, b, c⟩ => ⟨⟨a, c⟩, b⟩⟩

theorem fillDone_iff (s : State) (r : Run) : s.fillDone r = true ↔ s.fillOver r := by
  simp only [State.fillDone, State.fillOver, frames_eq, Bool.and_eq_true, Option.isSome_iff_ne_none, decide_eq_true_eq]

theorem leaveSegment_eq (s : State) (o : Option SegmentCode) : s.leaveSegment o = s.left o := by cases o <;> rfl

theorem left_rest (s : State) (o : Option SegmentCode) : ∃ segments, s.left o = { s with segments := segments } := by
  cases o <;> exact ⟨_, rfl⟩

theorem exec_stepComplete {s : State} (calm : Calm s) (h : HighwayChannel) : exec (.stepComplete h) s = .next (s.completeStep h) :=
  congrArg (fun u : State => Host.Outcome.next (u.completeStep h)) (settled_calm calm)

theorem exec_fillComplete {s : State} (calm : Calm s) (h : HighwayChannel) : exec (.fillComplete h) s = .next (s.completeFill h) :=
  congrArg (fun u : State => Host.Outcome.next (u.completeFill h)) (settled_calm calm)

theorem runOf_channel {s : State} {h : HighwayChannel} {j : ChannelNo} (e : playerOf h = .channel j) :
    s.runOf h = (s.channel j).map Announcement.run := by rw [State.runOf, e]

/-! ### The arbiter after a run has gone on -/

/-- With no call waiting or no channel FREE the arbiter does nothing. -/
theorem arbitrate_of_arbitrated {s : State} (h : Arbitrated s) : s.arbitrate = s := by
  unfold State.arbitrate
  cases waits : s.waitList with
  | nil => rfl
  | cons e l =>
    have busy := h.resolve_left (by rw [waits]; exact List.cons_ne_nil _ _)
    rw [List.length_cons, State.arbitrateUpTo]
    split
    next free => exact absurd (freeChannel_some free).1 (busy _)
    next => rfl

theorem arbitrated_congr {s t : State} (h : Arbitrated s) (waitList : t.waitList = s.waitList)
    (busy : ∀ j, s.channel j ≠ none → t.channel j ≠ none) : Arbitrated t :=
  h.imp (fun empty => waitList.trans empty) fun all j => busy j (all j)

/-- What playout does keeps calls in use. -/
theorem PlayMoves.call_ne_none {C : CallSlot → Prop} {W : Bool} {s t : State} (h : PlayMoves C W s t) {c : CallSlot}
    (used : s.call c ≠ none) : t.call c ≠ none := fun none => by
  have := h.off.calls c
  rw [none, Option.map_none, eq_comm, Option.map_eq_none_iff] at this
  exact used this

/-- A channel's run goes on: the channel stays BUSY, or the announcement ends and the arbiter acts. -/
theorem runChannel_arbitrates {s : State} {c : CallSlot} {k : CallRec} {r : Run} {j : ChannelNo} (arbitrated : Arbitrated s)
    (call : s.call c = some k) (listens : k.listen = .announce j) (short : ∀ p, (s.programSteps p).length ≤ 32)
    (fuel : need r ≤ 100) :
    ∃ v e, Carries (.call c) s r v e ∧ (∀ q, e = some q → (s.runChannel j c r).arbitrate = v.setChannel j (some ⟨c, q⟩))
      ∧ (e = none → (∀ w ∈ s.waitList, s.call w.call ≠ none) →
        ∃ u, AnnouncementOver v u j c k ∧ Arbitrates u (s.runChannel j c r).arbitrate) := by
  obtain ⟨v, e, carries, here, ⟨segments, port, d, rest⟩, plays, ends⟩ := runChannel_carries call listens short fuel
  refine ⟨v, e, carries, fun q on => ?_, fun ended exist => ?_⟩
  · rw [plays q on]
    refine arbitrate_of_arbitrated (arbitrated_congr arbitrated (by rw [rest]; rfl) fun i busy => ?_)
    rw [State.setChannel_channel, rest]
    split
    · exact Option.some_ne_none _
    · exact busy
  · obtain ⟨done, finished⟩ := ends ended
    have play := runChannel_play (C := fun _ => True) (W := false) s j r (c := c) trivial
    refine ⟨_, finished, ?_⟩
    rw [← done]
    refine arbitrateUpTo_arbitrates _ _ (Nat.le_refl _) (fun w hw => play.call_ne_none ?_) fun p => ?_
    · exact exist w (play.waitList ▸ hw)
    · rw [programSteps_congr play.off.base.programs]
      exact short p

theorem ReturnTaken.rest {s u : State} {x : Performer} {ret : Return} {r : Run} {e : Option Run} (h : ReturnTaken s x ret r u e) :
    ∃ sources, u = { s with sources := sources } := by
  cases h <;> exact ⟨_, rfl⟩

/-- A source's run that goes on touches sources, segments, the device record and port S alone. -/
theorem carrySource_rest (n : Nat) (m : SourceNo) (r : Run) (s : State) :
    ∃ sources segments port d, State.carrySource n m r s =
      { s with sources := sources, segments := segments, portS := port, device := d } := by
  induction n generalizing r s with
  | zero => exact ⟨_, _, _, _, rfl⟩
  | succ n ih =>
    obtain ⟨⟨segments, port, d, rest⟩, -⟩ := carryStep_rest s none r
    have on (q : Run) (u : State) (sources : Vector SourceRec 8)
        (e : u = { s with sources := sources, segments := segments, portS := port, device := d }) :
        ∃ sources segments port d, State.carrySource n m q u =
          { s with sources := sources, segments := segments, portS := port, device := d } := by
      obtain ⟨sources', segments', port', d', goesOn⟩ := ih q u
      exact ⟨sources', segments', port', d', by rw [goesOn, e]⟩
    unfold State.carrySource
    split
    next r1 s1 e => rw [e] at rest; exact ⟨_, segments, port, d, by rw [show s1 = _ from rest]; rfl⟩
    next r1 s1 e => rw [e] at rest; exact on _ _ s.sources (rest.trans rfl)
    next ret r1 s1 e =>
      rw [e] at rest
      split
      · obtain ⟨sources, back⟩ := (sourceReturn_taken s1 m ret r1).1.rest
        split
        next e' => rw [e'] at back; exact ⟨sources, segments, port, d, back.trans (by rw [show s1 = _ from rest])⟩
        next e' => rw [e'] at back; exact on _ _ sources (back.trans (by rw [show s1 = _ from rest]))
      · exact ⟨_, segments, port, d, by rw [show s1 = _ from rest]; rfl⟩

/-! ### STEP_COMPLETE (R150) -/

/-- The run after a step that has had its last byte played. -/
def Run.stepped (r : Run) : Run := { r with step := r.step + 1, position := 0, segment := none, words := [], word := 0 }

theorem need_le (r : Run) : need r ≤ 67 := by
  unfold need
  split <;> omega

theorem completeStep_eq {s : State} {h : HighwayChannel} {r : Run} (runs : s.runOf h = some r) (done : s.stepOver r) :
    s.completeStep h = ((s.left r.segment).continueRun h r.stepped).arbitrate := by
  unfold State.completeStep
  rw [runs]
  dsimp only
  rw [if_pos ((stepDone_iff s r).mpr done), leaveSegment_eq]
  rfl

theorem completeStep_idle {s : State} {h : HighwayChannel} (idle : ∀ r, s.runOf h = some r → ¬s.stepOver r) : s.completeStep h = s := by
  unfold State.completeStep
  split
  · rfl
  next r runs => rw [if_neg ((stepDone_iff s r).not.mpr (idle r runs))]

/-- A source's run goes on. -/
theorem carrySource_arbitrated {s : State} (arbitrated : Arbitrated s) (n : Nat) (m : SourceNo) (r : Run) :
    (State.carrySource n m r s).arbitrate = State.carrySource n m r s := by
  obtain ⟨sources, segments, port, d, rest⟩ := carrySource_rest n m r s
  rw [rest]
  exact arbitrate_of_arbitrated (arbitrated_congr arbitrated rfl fun _ busy => busy)

/-- Settles O49: along the source's and the channel's way on (R150, R170, R171). -/
theorem completedStepsCarryTheRunOn : Obligations.CompletedStepsCarryTheRunOn := by
  unfold Obligations.CompletedStepsCarryTheRunOn
  intro s h calm legal arbitrated
  rw [exec_stepComplete calm]
  refine ⟨fun idle => congrArg _ (completeStep_idle idle), fun r runs done => ?_⟩
  intro next
  obtain ⟨segments, left⟩ := left_rest s r.segment
  have short (p : ProgramNo) : ((s.left r.segment).programSteps p).length ≤ 32 := by
    rw [left]
    exact legal.programs p
  have arbitrated' : Arbitrated (s.left r.segment) := by
    rw [left]
    exact arbitrated_congr arbitrated rfl fun _ busy => busy
  have fuel : need next ≤ 100 := (need_le next).trans (by omega)
  rw [completeStep_eq runs done]
  refine ⟨fun m source => ?_, fun j c k channel busy call listens => ?_⟩
  · obtain ⟨v, e, carries, carried⟩ := carrySource_carries State.carryFuel m next (s.left r.segment) short fuel
    refine ⟨v, e, carries, congrArg _ ?_⟩
    have goesOn : (s.left r.segment).continueRun h next = State.carrySource State.carryFuel m next (s.left r.segment) := by
      rw [State.continueRun, source]
    rw [show r.stepped = next from rfl, goesOn, carrySource_arbitrated arbitrated']
    exact carried.trans (by cases e <;> rfl)
  · have goesOn : (s.left r.segment).continueRun h next = (s.left r.segment).runChannel j c next := by
      have busy' : (s.left r.segment).channel j = some ⟨c, r⟩ := by rw [left]; exact busy
      rw [State.continueRun, channel]
      dsimp only
      rw [busy']
    obtain ⟨v, e, carries, plays, ends⟩ := runChannel_arbitrates (s := s.left r.segment) (k := k) arbitrated'
      (by rw [left]; exact call) listens short fuel
    rw [show r.stepped = next from rfl, goesOn]
    refine ⟨v, e, carries, fun q on => congrArg _ (plays q on), fun ended exist => ?_⟩
    obtain ⟨u, finished, acts⟩ := ends ended (by rw [left]; exact exist)
    exact ⟨u, _, rfl, finished, acts⟩

/-! ### FILL_COMPLETE (R156) -/

theorem completeFill_idle {s : State} {h : HighwayChannel} (idle : ∀ r, s.runOf h = some r → ¬s.fillOver r) : s.completeFill h = s := by
  unfold State.completeFill
  split
  · rfl
  next r runs => rw [if_neg ((fillDone_iff s r).not.mpr (idle r runs))]

theorem completeFill_source {s : State} {h : HighwayChannel} {r : Run} {ret : Return} {m : SourceNo} (runs : s.runOf h = some r)
    (done : s.fillOver r) (waits : r.fill = some ret) (source : playerOf h = .source m) :
    s.completeFill h = match s.sourceReturn m ret r with
      | (none, s1) => s1
      | (some r1, s1) => State.carrySource State.carryFuel m r1 s1 := by
  unfold State.completeFill
  rw [runs]
  dsimp only
  rw [if_pos ((fillDone_iff s r).mpr done), waits, source] <;> rfl

theorem completeFill_channel {s : State} {h : HighwayChannel} {r : Run} {ret : Return} {j : ChannelNo} (runs : s.runOf h = some r)
    (done : s.fillOver r) (waits : r.fill = some ret) (channel : playerOf h = .channel j) :
    s.completeFill h = (s.continueRun h (s.takeReturn ret r)).arbitrate := by
  unfold State.completeFill
  rw [runs]
  dsimp only
  rw [if_pos ((fillDone_iff s r).mpr done), waits, channel]

/-- Settles O50: a source's return with the steps of its pass end, a channel's return, and the run carried on from there. -/
theorem completedFillsTakeTheReturn : Obligations.CompletedFillsTakeTheReturn := by
  unfold Obligations.CompletedFillsTakeTheReturn
  intro s h calm legal arbitrated
  rw [exec_fillComplete calm]
  refine ⟨fun idle => congrArg _ (completeFill_idle idle), fun r ret runs done waits => ⟨fun m source => ?_,
    fun j c k channel busy call listens => ?_⟩⟩
  · obtain ⟨taken, fuel, programs⟩ := sourceReturn_taken s m ret r
    rw [completeFill_source runs done waits source]
    generalize s.sourceReturn m ret r = back at taken fuel programs
    obtain ⟨e, u⟩ := back
    refine ⟨u, e, taken, fun stops => by cases stops; rfl, fun w on => ?_⟩
    cases on
    obtain ⟨v, d, carries, carried⟩ := carrySource_carries State.carryFuel m w u
      (fun p => by rw [programSteps_congr programs]; exact legal.programs p) ((fuel w rfl).trans (by change 33 ≤ 100; omega))
    refine ⟨v, d, carries, congrArg _ (carried.trans ?_)⟩
    cases d <;> rfl
  · have goesOn : s.continueRun h (s.takeReturn ret r) = s.runChannel j c (s.takeReturn ret r) := by
      rw [State.continueRun, channel]
      dsimp only
      rw [busy]
    obtain ⟨v, e, carries, plays, ends⟩ := runChannel_arbitrates arbitrated call listens legal.programs
      ((takeReturn_need s ret r).trans (by omega))
    rw [completeFill_channel runs done waits channel, goesOn]
    refine ⟨_, v, e, .announcement c _ rfl (takeReturn_returned s ret r), carries, fun q on => congrArg _ (plays q on), fun ended exist => ?_⟩
    obtain ⟨u, finished, acts⟩ := ends ended exist
    exact ⟨u, _, rfl, finished, acts⟩

/-! ### ANNOUNCEMENT_DUE (R167, R168, R170) -/

theorem exec_announcementDue {s : State} (wraps : WrapsOver s) (c : CallSlot) :
    exec (.announcementDue c) s = .next (s.announce c) :=
  congrArg (fun u : State => Host.Outcome.next (u.announce c)) (wrapsEnded_over wraps)

theorem announce_early {s : State} {c : CallSlot} {r : CallRec} (call : s.call c = some r)
    (early : ∀ due, r.nextDue = some due → s.clock < due) : s.announce c = s := by
  unfold State.announce
  rw [call]
  dsimp only
  split
  · rfl
  next due waits => rw [if_neg (not_le.mpr (early due waits))]

/-- A call that does not wait for an announcement has its due second cleared. -/
theorem announce_cleared {s : State} {c : CallSlot} {r : CallRec} {due : Nat} (call : s.call c = some r) (waits : r.nextDue = some due)
    (reached : due ≤ s.clock) (away : ¬(r.state = .queued ∨ r.state = .offered)) :
    s.announce c = s.putCall c (some { r with nextDue := none }) := by
  unfold State.announce
  rw [call]
  dsimp only
  rw [waits]
  dsimp only
  rw [if_pos reached, modCall_some call]
  split
  next h => exact absurd (.inl h) away
  next h => exact absurd (.inr h) away
  · rfl
  · rfl

/-- A QUEUED or OFFERED call joins the wait list, and the arbiter acts. -/
theorem announce_waits {s : State} {c : CallSlot} {r : CallRec} {due : Nat} (call : s.call c = some r) (waits : r.nextDue = some due)
    (reached : due ≤ s.clock) (here : r.state = .queued ∨ r.state = .offered) :
    s.announce c = ((s.putCall c (some { r with nextDue := none })).joinWaitList c due).arbitrate := by
  unfold State.announce
  rw [call]
  dsimp only
  rw [waits]
  dsimp only
  rw [if_pos reached, modCall_some call]
  rcases here with h | h <;> rw [h]

/-- Where the STARVED condition is as it was, its evaluation changes nothing. -/
theorem evalStarved_same {s : State} (same : s.starvedNow = s.device.starvedCondition) : s.evalStarved = s := by
  have still : s.starves = false := by rw [State.starves, same, Bool.and_not_self]
  rw [evalStarved_eq, still, Bool.false_and, Bool.false_and, if_neg Bool.false_ne_true, State.starvedEvaluated, same, still,
    Bool.or_false]
  rfl

/-- The place of a new entry in the wait list: after every entry that it does not stand before. -/
theorem insertWait_split (s : State) (new : WaitEntry) (l : List WaitEntry) :
    ∃ a b, l = a ++ b ∧ s.insertWait new l = a ++ new :: b ∧ (∀ e ∈ a, s.waitsBefore new.due new.call e = false)
      ∧ ∀ e ∈ b.head?, s.waitsBefore new.due new.call e = true := by
  induction l with
  | nil => exact ⟨[], [], rfl, rfl, nofun, nofun⟩
  | cons e l ih =>
    unfold State.insertWait
    by_cases first : s.waitsBefore new.due new.call e = true
    · rw [if_pos first]
      exact ⟨[], e :: l, rfl, rfl, nofun, fun d hd => by cases hd; exact first⟩
    · obtain ⟨a, b, split, placed, after, ahead⟩ := ih
      rw [if_neg first]
      refine ⟨e :: a, b, by rw [split]; rfl, by rw [placed]; rfl, fun d hd => ?_, ahead⟩
      rcases List.mem_cons.mp hd with rfl | hd
      · exact Bool.eq_false_of_not_eq_true first
      · exact after d hd

/-- Due seconds are compared first, then arrival sequence numbers (R168). -/
theorem waitsBefore_iff {s : State} {c : CallSlot} {r q : CallRec} {e : WaitEntry} {due : Nat} (call : s.call c = some r)
    (other : s.call e.call = some q) :
    s.waitsBefore due c e = true ↔ due < e.due ∨ (due = e.due ∧ r.seq < q.seq) := by
  simp only [State.waitsBefore, call, other, Option.map_some, Option.getD_some, Bool.or_eq_true, Bool.and_eq_true, beq_iff_eq,
    decide_eq_true_eq]

theorem joinWaitList_listed {s : State} {c : CallSlot} (listed : ∃ e ∈ s.waitList, e.call = c) (due : Nat) :
    s.joinWaitList c due = s := by
  obtain ⟨e, he, hc⟩ := listed
  exact if_pos (List.any_eq_true.mpr ⟨e, he, by rw [hc]; exact beq_self_eq_true c⟩)

theorem joinWaitList_new {s : State} {c : CallSlot} (absent : ¬∃ e ∈ s.waitList, e.call = c) (due : Nat) :
    s.joinWaitList c due =
      ((s.modCall c fun r => { r with onWaitList := true }).setWaitList (s.insertWait ⟨c, due⟩ s.waitList)).evalStarved := by
  rw [State.joinWaitList, if_neg]
  rw [List.any_eq_true]
  rintro ⟨e, he, hc⟩
  exact absent ⟨e, he, beq_iff_eq.mp hc⟩

theorem putCall_putCall (s : State) (c : CallSlot) (o o' : Option CallRec) : (s.putCall c o).putCall c o' = s.putCall c o' := by
  simp [State.putCall]

theorem freeChannel_eq {s : State} {j : ChannelNo} (free : s.channel j = none) (lowest : ∀ i, i < j → s.channel i ≠ none) :
    s.freeChannel = some j := by
  cases found : s.freeChannel with
  | none => exact absurd free (freeChannel_none found j)
  | some i =>
    obtain ⟨free', lowest'⟩ := freeChannel_some found
    rcases lt_trichotomy i j with less | rfl | more
    · exact absurd free' (lowest i less)
    · rfl
    · exact absurd free (lowest' j more)

theorem putCall_same {s : State} {c : CallSlot} {k : CallRec} (call : s.call c = some k) : s.putCall c (some k) = s := by
  rw [← call]
  simp [State.putCall, State.call, Vector.get]

/-- With the list empty and a channel FREE, the call that joins it is the one that leaves it, and is granted the lowest FREE channel. -/
theorem joinWaitList_arbitrate {s : State} {c : CallSlot} {k : CallRec} {due : Nat} {j : ChannelNo} (call : s.call c = some k)
    (empty : s.waitList = []) (free : s.freeChannel = some j) (clear : k.onWaitList = false) (fresh : s.clock < due + 30)
    (calm : s.device.starvedCondition = false) :
    (s.joinWaitList c due).arbitrate =
      match (s.group k.group).active.program with
      | none => s
      | some p => s.grant j c p := by
  let u := (s.putCall c (some { k with onWaitList := true })).setWaitList [⟨c, due⟩]
  have joined : s.joinWaitList c due = u := by
    rw [joinWaitList_new (by rw [empty]; rintro ⟨e, he, -⟩; cases he), empty, modCall_some call]
    refine evalStarved_same (s := u) ?_
    rw [starvedNow_eq]
    refine Eq.trans ?_ calm.symm
    have : ¬30 ≤ s.clock - due := by omega
    exact decide_eq_false this
  have left : u.leaveWaitList c = s := by
    have here : u.call c = some { k with onWaitList := true } := State.putCall_call_self ..
    rw [State.leaveWaitList, if_pos (by simp [u]), modCall_some here]
    have filtered : u.waitList.filter (·.call != c) = [] := by simp [u]
    have back : (u.putCall c (some { k with onWaitList := false })).setWaitList [] = s := by
      have record : { k with onWaitList := false } = k := by rw [← clear]
      rw [record, ← empty]
      refine Eq.trans ?_ (putCall_same call)
      exact congrArg (fun w : State => w.setWaitList s.waitList) (putCall_putCall s c _ _)
    refine (congrArg (fun l => ((u.putCall c (some { k with onWaitList := false })).setWaitList l).evalStarved) filtered).trans ?_
    rw [back]
    refine evalStarved_same ?_
    rw [starvedNow_eq, empty, calm]
    rfl
  have found : u.freeChannel = some j := free
  rw [joined, State.arbitrate, show u.waitList.length = 1 from rfl, State.arbitrateUpTo]
  split
  next e l i waits lowest =>
    rw [found] at lowest
    cases lowest
    cases (show u.waitList = [⟨c, due⟩] from rfl).symm.trans waits
    dsimp only
    rw [left, call]
    dsimp only
    cases (s.group k.group).active.program <;> rfl
  next none => exact absurd found (none _ _ _ rfl)

/-- Settles O51: along R167's cases; the call that joins an empty list with a channel FREE is granted it at once (R170). -/
theorem dueAnnouncementsJoinTheListOrAreGranted : Obligations.DueAnnouncementsJoinTheListOrAreGranted := by
  unfold Obligations.DueAnnouncementsJoinTheListOrAreGranted
  intro s c r wraps legal arbitrated call k waits listed
  rw [exec_announcementDue wraps]
  refine ⟨fun early => congrArg _ (announce_early call early), fun due falls reached => ?_⟩
  let u := s.putCall c (some k)
  have here : u.call c = some k := State.putCall_call_self ..
  refine ⟨fun stays => congrArg _ ?_, fun away absent busy => ?_, fun j away empty free lowest clear fresh calm => ?_⟩
  · by_cases away : waits
    · have joined : u.joinWaitList c due = u := joinWaitList_listed (s := u) (stays.resolve_left (not_not.mpr away)) due
      rw [announce_waits call falls reached away]
      exact (congrArg State.arbitrate joined).trans (arbitrate_of_arbitrated (arbitrated_congr arbitrated rfl fun _ h => h))
    · exact announce_cleared call falls reached away
  · let v := (u.modCall c fun r => { r with onWaitList := true }).setWaitList (u.insertWait ⟨c, due⟩ u.waitList)
    obtain ⟨port, d, rest⟩ := evalStarved_rest v
    have joined : s.announce c = v.evalStarved := by
      rw [announce_waits call falls reached away]
      have joined : u.joinWaitList c due = v.evalStarved := joinWaitList_new (s := u) absent due
      refine (congrArg State.arbitrate joined).trans (arbitrate_of_arbitrated (.inr fun j => ?_))
      rw [rest]
      exact busy j
    have calls (d : CallSlot) : v.evalStarved.call d = if d = c then some { k with onWaitList := true } else s.call d := by
      rw [rest]
      refine (modCall_call u c d _).trans ?_
      split
      · rw [here]; rfl
      next other => exact State.putCall_call_of_ne _ _ other
    refine ⟨v.evalStarved, congrArg _ joined, by rw [calls, if_pos rfl], fun e he => by rw [calls, if_neg he], ?_, ?_, ?_⟩
    · intro before exist
      obtain ⟨a, b, split, placed, after, ahead⟩ := insertWait_split u ⟨c, due⟩ u.waitList
      have order (e : WaitEntry) (he : e ∈ s.waitList) : u.waitsBefore due c e = true ↔ before e := by
        have other : e.call ≠ c := fun same => absent ⟨e, he, same⟩
        obtain ⟨q, hq⟩ := Option.ne_none_iff_exists'.mp (exist e he)
        rw [waitsBefore_iff here ((State.putCall_call_of_ne _ _ other).trans hq)]
        simp only [before, hq, Option.some.injEq, exists_eq_left']
        rfl
      have split : s.waitList = a ++ b := split
      refine ⟨a, b, split, ?_, fun e he => ?_, fun e he => ?_⟩
      · rw [rest]
        exact placed
      · rw [← order e (by rw [split]; exact List.mem_append_left b he), after e he]
        exact Bool.false_ne_true
      · exact (order e (by rw [split]; exact List.mem_append_right a (List.mem_of_mem_head? he))).mp (ahead e he)
    · have starved := evalStarved_evaluated (s := s) (u := v) rfl rfl
      rw [rest] at starved ⊢
      exact starved
    · rw [rest]
      rfl
  · have found : s.freeChannel = some j := freeChannel_eq free lowest
    have acts : s.announce c = match (s.group r.group).active.program with | none => u | some p => u.grant j c p := by
      rw [announce_waits call falls reached away]
      exact joinWaitList_arbitrate (k := k) here empty found clear fresh calm
    refine ⟨fun silent => congrArg _ (acts.trans (by rw [silent])), fun p names => ?_⟩
    have acts : s.announce c = u.grant j c p := acts.trans (by rw [names])
    have granted := grants_granted here j p
    obtain ⟨q, now, same, -⟩ := granted.call
    have programs : (u.grants j c p).programs = s.programs := by rw [granted.rest]; rfl
    obtain ⟨v, e, carries, listens, -, plays, ends⟩ := runChannel_carries (j := j) (r := { program := p }) now
      (congrArg CallRec.listen same) (fun n => by rw [programSteps_congr programs]; exact legal.programs n) (by change 33 ≤ 100; omega)
    rw [acts, grant_eq]
    refine ⟨_, v, e, granted, carries, fun w on => congrArg _ (plays w on), fun ended => ?_⟩
    obtain ⟨done, finished⟩ := ends ended
    exact ⟨_, q, congrArg _ done, listens, finished⟩

end Sys2Proof.Machine

/-! One highway frame (R150, R153, R176): O48. -/

namespace Sys2Proof.Machine

/-! ### What the timeslots carry -/

theorem slotOutput_unmapped {s : State} {x : Timeslot} (unmapped : ∀ h, s.slotOf h ≠ some x) : s.slotOutput x = none := by
  unfold State.slotOutput
  split
  · rfl
  next h found => exact absurd (beq_iff_eq.mp (head_findAll _ _ found).1) (unmapped h)

/-- Timeslots being apart, a mapped one carries what its highway channel gives. -/
theorem slotOutput_mapped {s : State} (apart : SlotsApart s) {h : HighwayChannel} {x : Timeslot} (mapped : s.slotOf h = some x) :
    s.slotOutput x = s.channelOutput h := by
  unfold State.slotOutput
  split
  next missing =>
    have := head_findAll_none _ _ missing h
    rw [show s.slotMap.get h = some x from mapped, beq_self_eq_true] at this
    cases this
  next k found =>
    have there : s.slotOf k = some x := beq_iff_eq.mp (head_findAll _ _ found).1
    by_cases same : h = k
    · rw [same]
    · exact absurd (mapped.trans there.symm) (apart h k same (by rw [mapped]; exact Option.some_ne_none x))

theorem frameOutput_get (s : State) (x : Timeslot) : s.frameOutput.get x = s.slotOutput x := by
  simp only [State.frameOutput, Vector.get, List.getElem_toArray, List.getElem_map, List.getElem_finRange]
  rfl

/-! ### What a frame reads of a run -/

theorem lasts_congr {s t : State} (off : OffPlayout s t) (r : Run) : t.lasts r = s.lasts r := by
  have step : t.stepAt r = s.stepAt r := by rw [State.stepAt, programSteps_congr off.base.programs]; rfl
  unfold State.lasts
  rw [step]
  simp only [off.lengths]

theorem nextWord_congr {s t : State} (off : OffPlayout s t) (r : Run) : t.nextWord r = s.nextWord r := by
  simp only [State.nextWord, lasts_congr off]

theorem present_congr {s t : State} (lengths : ∀ k, (t.segment k).length = (s.segment k).length) (code : Nat) :
    t.present code = s.present code := by
  simp only [State.present, lengths]

theorem wordSegment_congr {s t : State} (vocab : t.vocab = s.vocab) (lengths : ∀ k, (t.segment k).length = (s.segment k).length)
    (v : VocabNo) : t.wordSegment v = s.wordSegment v := by
  have entry : t.vocabEntry v = s.vocabEntry v := congrArg (Vector.get · v) vocab
  rw [State.wordSegment, State.wordSegment, entry, funext fun code => present_congr lengths _]

theorem left_lengths (s : State) (o : Option SegmentCode) (k : SegmentCode) : ((s.left o).segment k).length = (s.segment k).length := by
  cases o with
  | none => rfl
  | some j =>
    rw [State.left, State.setSegment_segment]
    split
    next same => rw [same]
    next => rfl

/-- The run after a frame: a byte more has been played, and at a word's last byte the next word is come to (R153). -/
def State.framed (s : State) (r : Run) : Run :=
  match s.nextWord r with
  | none => { r with position := r.position + 1, played := true }
  | some v => { r with word := r.word + 1, position := 0, segment := s.wordSegment v, played := true }

theorem framed_congr {s t : State} (off : OffPlayout s t) (r : Run) : t.framed r = s.framed r := by
  rw [State.framed, State.framed, nextWord_congr off]
  simp only [wordSegment_congr off.base.vocab off.lengths]

/-! ### A frame of one run -/

theorem playFrame_silent {s : State} {h : HighwayChannel} (silent : s.runOf h = none) : s.playFrame h = s := by
  simp only [State.playFrame, silent]

/-- A run that does not come to a word has played a byte. -/
theorem playFrame_plays {s : State} {h : HighwayChannel} {r : Run} (runs : s.runOf h = some r) (word : s.nextWord r = none) :
    s.playFrame h = s.putRun h (s.framed r) := by
  have lasts : s.lasts { r with position := r.position + 1, played := true } = s.lasts r := rfl
  have played : s.framed r = { r with position := r.position + 1, played := true } := by rw [State.framed, word]
  unfold State.playFrame
  rw [runs, played]
  dsimp only
  split
  next comes =>
    split
    · rfl
    next w here =>
      simp only [frames_eq, lasts, Bool.and_eq_true, decide_eq_true_eq, Option.isNone_iff_eq_none] at comes
      obtain ⟨⟨unfilled, last⟩, -⟩ := comes
      rw [State.nextWord, if_pos ⟨unfilled, last⟩, here] at word
      cases word
  · rfl

/-- A run that comes to a word leaves its segment and begins the word's (R153). -/
theorem playFrame_comes {s : State} {h : HighwayChannel} {r : Run} {v : VocabNo} (runs : s.runOf h = some r)
    (word : s.nextWord r = some v) : s.playFrame h = ((s.left r.segment).beginWord v).2.putRun h (s.framed r) := by
  have lasts : s.lasts { r with position := r.position + 1, played := true } = s.lasts r := rfl
  have conds : (r.fill = none ∧ s.lasts r ≤ r.position + 1) ∧ r.words[r.word + 1]? = some v := by
    rw [State.nextWord] at word
    split at word
    next c => exact ⟨c, word⟩
    next => cases word
  obtain ⟨⟨unfilled, last⟩, here⟩ := conds
  have more : r.word + 1 < r.words.length := (List.getElem?_eq_some_iff.mp here).1
  have segment : ((s.left r.segment).beginWord v).1 = s.wordSegment v := by
    obtain ⟨segments, rest⟩ := left_rest s r.segment
    exact (beginWord_met _ v).2.trans (wordSegment_congr (by rw [rest]) (left_lengths s _) v)
  have framed : s.framed r = { r with word := r.word + 1, position := 0, segment := s.wordSegment v, played := true } := by
    rw [State.framed, word]
  unfold State.playFrame
  rw [runs, framed, ← segment, ← leaveSegment_eq]
  dsimp only
  rw [if_pos]
  · rw [here]
  · simp only [frames_eq, lasts, State.moreWords, Bool.and_eq_true, decide_eq_true_eq, Option.isNone_iff_eq_none]
    exact ⟨⟨unfilled, last⟩, more⟩

/-! ### The runs of the highway channels -/

theorem playerOf_injective {h k : HighwayChannel} (e : playerOf h = playerOf k) : h = k := by
  cases p : playerOf k with
  | source m =>
    rw [p] at e
    exact Fin.ext (((playerOf_source_iff h m).mp e).trans ((playerOf_source_iff k m).mp p).symm)
  | channel j =>
    rw [p] at e
    exact Fin.ext (((playerOf_channel_iff h j).mp e).trans ((playerOf_channel_iff k j).mp p).symm)

theorem runOf_source {s : State} {h : HighwayChannel} {m : SourceNo} (e : playerOf h = .source m) :
    s.runOf h = (s.source m).run := by rw [State.runOf, e]

/-- A run that is replaced, and the others. -/
theorem putRun_runOf {s : State} {h : HighwayChannel} {r q : Run} (runs : s.runOf h = some r) (k : HighwayChannel) :
    (s.putRun h q).runOf k = if k = h then some q else s.runOf k := by
  unfold State.putRun
  cases e : playerOf h with
  | source m =>
    dsimp only
    split
    next same =>
      subst same
      rw [runOf_source e, State.putSourceRun, State.setSource_source_self]
    next other =>
      have distinct : playerOf k ≠ .source m := fun h => other (playerOf_injective (h.trans e.symm))
      cases p : playerOf k with
      | source n =>
        have : n ≠ m := by rintro rfl; exact distinct p
        rw [runOf_source p, runOf_source p, State.putSourceRun, State.setSource_source_of_ne _ _ this]
      | channel j => rw [runOf_channel p, runOf_channel p]; rfl
  | channel j =>
    rw [runOf_channel e] at runs
    obtain ⟨b, here, -⟩ := Option.map_eq_some_iff.mp runs
    dsimp only
    rw [here]
    split
    next same =>
      subst same
      rw [runOf_channel e, State.setChannel_channel_self]
      rfl
    next other =>
      have distinct : playerOf k ≠ .channel j := fun h => other (playerOf_injective (h.trans e.symm))
      cases p : playerOf k with
      | source n => rw [runOf_source p, runOf_source p]; rfl
      | channel i =>
        have : i ≠ j := by rintro rfl; exact distinct p
        rw [runOf_channel p, runOf_channel p, State.setChannel_channel_of_ne _ _ this]

/-- Beside the runs, sources and channels are as they were. -/
structure RunsOnly (s t : State) : Prop where
  sources : ∀ m, { t.source m with run := (s.source m).run } = s.source m
  channels : ∀ j, (t.channel j).map Announcement.call = (s.channel j).map Announcement.call

theorem RunsOnly.refl (s : State) : RunsOnly s s := ⟨fun _ => rfl, fun _ => rfl⟩

theorem RunsOnly.trans {s t u : State} (h : RunsOnly s t) (k : RunsOnly t u) : RunsOnly s u where
  sources m := by
    rw [← h.sources m, ← k.sources m]
  channels j := (k.channels j).trans (h.channels j)

theorem putRun_runsOnly (s : State) (h : HighwayChannel) (r : Run) : RunsOnly s (s.putRun h r) := by
  unfold State.putRun
  split
  · refine ⟨fun m => ?_, fun j => rfl⟩
    rw [State.putSourceRun, State.setSource_source]
    split
    next same => rw [same]
    next => rfl
  next i _ =>
    refine ⟨fun m => rfl, fun j => ?_⟩
    rw [State.setChannel_channel]
    split
    next same =>
      subst same
      cases s.channel j <;> rfl
    next => rfl

theorem putRun_rest (s : State) (h : HighwayChannel) (r : Run) :
    ∃ sources channels, s.putRun h r = { s with sources := sources, channels := channels } := by
  unfold State.putRun
  split <;> exact ⟨_, _, rfl⟩

/-! ### The words come to, off the runs -/

/-- The state `t` with the sources, channels and highway of `s`: what a frame does beside the runs it plays. -/
def State.offRuns (s t : State) : State := { t with sources := s.sources, channels := s.channels, highway := s.highway }

theorem offRuns_putRun (s t : State) (h : HighwayChannel) (r : Run) : s.offRuns (t.putRun h r) = s.offRuns t := by
  obtain ⟨sources, channels, rest⟩ := putRun_rest t h r
  rw [rest]
  rfl

theorem offRuns_left (s t : State) (o : Option SegmentCode) : s.offRuns (t.left o) = (s.offRuns t).left o := by cases o <;> rfl

theorem SegmentMet.offRuns {t u : State} {o : Option SegmentCode} (s : State) (h : SegmentMet t u o) :
    SegmentMet (s.offRuns t) (s.offRuns u) o := by
  cases o with
  | some k =>
    change u = _ at h
    rw [h]
    rfl
  | none =>
    unfold SegmentMet at h ⊢
    dsimp only at h ⊢
    by_cases quiet : t.device.segmentFault = true ∨ t.device.maskSegmentFault = true
    · rw [if_pos quiet] at h
      rw [h]
      exact (if_pos (show (s.offRuns t).device.segmentFault = true ∨ _ from quiet)).mpr rfl
    · rw [if_neg quiet] at h
      have quiet' : ¬((s.offRuns t).device.segmentFault = true ∨ (s.offRuns t).device.maskSegmentFault = true) := quiet
      rw [if_neg quiet']
      obtain ⟨rest, slots, side, named, owed⟩ := h
      exact ⟨congrArg s.offRuns rest, slots, ⟨side.notices, side.owed, side.raised, side.device⟩, named, owed⟩

/-! ### A frame of all runs -/

/-- The word that the run of highway channel `h` comes to at a frame, with the segment that it leaves. -/
def State.comes (s : State) (h : HighwayChannel) : Option (Option SegmentCode × VocabNo) :=
  (s.runOf h).bind fun r => (s.nextWord r).map fun w => (r.segment, w)

/-- What a frame of the runs of the channels in `l` makes of `s`. -/
structure Framed (s t : State) (l : List HighwayChannel) : Prop where
  runs : ∀ h, t.runOf h = if h ∈ l then (s.runOf h).map s.framed else s.runOf h
  only : RunsOnly s t
  words : WordsMet (l.filterMap s.comes) s (s.offRuns t)
  rest : ∃ sources channels segments port d,
    t = { s with sources := sources, channels := channels, segments := segments, portS := port, device := d }

theorem WordsMet.append {a b : List (Option SegmentCode × VocabNo)} {s t u : State} (h : WordsMet a s t) (k : WordsMet b t u) :
    WordsMet (a ++ b) s u := by
  induction h with
  | nil => exact k
  | cons o v l s w t met _ ih => exact .cons o v _ s w u met (ih k)

theorem WordsMet.offRuns {l : List (Option SegmentCode × VocabNo)} {t u : State} (s : State) (h : WordsMet l t u) :
    WordsMet l (s.offRuns t) (s.offRuns u) := by
  induction h with
  | nil t => exact .nil _
  | cons o v l t w u met _ ih =>
    refine .cons o v l _ _ _ ?_ ih
    rw [← offRuns_left]
    exact met.offRuns s

theorem filterMap_concat {α β : Type} (f : α → Option β) (l : List α) (x : α) :
    (l ++ [x]).filterMap f = l.filterMap f ++ (f x).toList := by
  rw [List.filterMap_append, List.filterMap_cons]
  cases f x <;> rfl

/-- A frame of one more run. -/
theorem Framed.step {s u : State} {l : List HighwayChannel} (framed : Framed s u l) (off : OffPlayout s u) {h : HighwayChannel}
    (fresh : h ∉ l) : Framed s (u.playFrame h) (l ++ [h]) := by
  have before : u.runOf h = s.runOf h := by rw [framed.runs, if_neg fresh]
  obtain ⟨sources, channels, segments, port, d, rest⟩ := framed.rest
  cases runs : s.runOf h with
  | none =>
    have none : s.comes h = none := by rw [State.comes, runs]; rfl
    rw [playFrame_silent (before.trans runs)]
    refine ⟨fun k => ?_, framed.only, ?_, framed.rest⟩
    · rw [framed.runs]
      by_cases same : k = h
      · subst same
        rw [if_neg fresh, runs]
        split <;> rfl
      · simp [same]
    · rw [filterMap_concat, none]
      simpa using framed.words
  | some r =>
    have runs' := before.trans runs
    have now (w : State) (same : w.runOf h = some r) (others : ∀ k, w.runOf k = u.runOf k) (k : HighwayChannel) :
        (w.putRun h (u.framed r)).runOf k = if k ∈ l ++ [h] then (s.runOf k).map s.framed else s.runOf k := by
      rw [putRun_runOf same, framed_congr off, others, framed.runs]
      by_cases same : k = h
      · subst same
        simp [runs]
      · simp [same]
    cases word : s.nextWord r with
    | none =>
      rw [playFrame_plays runs' ((nextWord_congr off r).trans word)]
      have none : s.comes h = none := by rw [State.comes, runs, Option.bind_some, word]; rfl
      refine ⟨now u runs' fun _ => rfl, framed.only.trans (putRun_runsOnly u h _), ?_, ?_⟩
      · rw [filterMap_concat, none, offRuns_putRun]
        simpa using framed.words
      · obtain ⟨a, b, e⟩ := putRun_rest u h (u.framed r)
        exact ⟨a, b, segments, port, d, by rw [e, rest]⟩
    | some v =>
      rw [playFrame_comes runs' ((nextWord_congr off r).trans word)]
      have comes : s.comes h = some (r.segment, v) := by rw [State.comes, runs, Option.bind_some, word]; rfl
      obtain ⟨segs, port', d', begun⟩ := beginWord_rest (u.left r.segment) v
      obtain ⟨segs', left⟩ := left_rest u r.segment
      have begun' : ((u.left r.segment).beginWord v).2 = { u with segments := segs, portS := port', device := d' } := by
        rw [begun, left]
      refine ⟨now _ (by rw [begun']; exact runs') (fun k => by rw [begun']; rfl), ?_, ?_, ?_⟩
      · refine framed.only.trans (RunsOnly.trans ?_ (putRun_runsOnly _ h _))
        rw [begun']
        exact ⟨fun _ => rfl, fun _ => rfl⟩
      · rw [filterMap_concat, comes, offRuns_putRun]
        refine framed.words.append (.cons _ _ _ _ _ _ ?_ (.nil _))
        rw [← offRuns_left]
        have met := (beginWord_met (u.left r.segment) v).1
        have word' : (s.offRuns u).wordSegment v = (u.left r.segment).wordSegment v := by
          exact (wordSegment_congr (s := u) (by rw [left]) (left_lengths u r.segment) v).symm
        rw [word']
        exact met.offRuns s
      · obtain ⟨a, b, e⟩ := putRun_rest ((u.left r.segment).beginWord v).2 h (u.framed r)
        exact ⟨a, b, segs, port', d', by rw [e, begun', rest]⟩

theorem playFrames_framed (l : List HighwayChannel) (distinct : l.Nodup) (s : State) : Framed s (l.foldl State.playFrame s) l := by
  induction l using List.reverseRecOn with
  | nil => exact ⟨fun _ => rfl, .refl s, .nil s, s.sources, s.channels, s.segments, s.portS, s.device, rfl⟩
  | append_singleton l h ih =>
    have apart := List.nodup_append.mp distinct
    rw [List.foldl_append]
    exact (ih apart.1).step (PlayMoves.foldl (C := fun _ => False) (W := false) l (fun u k _ => playFrame_play u k) s).off
      fun here => apart.2.2 h here h (List.mem_singleton_self h) rfl

/-- Settles O48: channel by channel, the runs and the words that they come to apart. -/
theorem highwayFrameDrivesTheSlotsAndAdvancesTheRuns : Obligations.HighwayFrameDrivesTheSlotsAndAdvancesTheRuns := by
  unfold Obligations.HighwayFrameDrivesTheSlotsAndAdvancesTheRuns
  intro s calm apart idle
  have still (l : List HighwayChannel) : l.foldl State.completeRun s = s := by
    induction l with
    | nil => rfl
    | cons h l ih =>
      rw [List.foldl_cons, State.completeRun, completeStep_idle fun r runs => (idle h r runs).1,
        completeFill_idle fun r runs => (idle h r runs).2]
      exact ih
  let v := s.setHighway s.frameOutput
  have framed : Framed v ((List.finRange 24).foldl State.playFrame v) (List.finRange 24) := playFrames_framed _ (List.nodup_finRange 24) v
  have taken : exec .highwayFrame s = .next ((List.finRange 24).foldl State.playFrame v) := by
    refine congrArg Host.Outcome.next ?_
    rw [settled_calm calm, State.nextFrame, still]
  generalize (List.finRange 24).foldl State.playFrame v = t at framed taken
  obtain ⟨runs, only, words, sources, channels, segments, port, d, rest⟩ := framed
  have run (h : HighwayChannel) : t.runOf h = (s.runOf h).map s.framed := (runs h).trans (if_pos (List.mem_finRange h))
  have highway (x : Timeslot) : t.highway.get x = s.slotOutput x := by rw [rest]; exact frameOutput_get s x
  refine ⟨t, taken, fun m h e => runOf_source ((playerOf_source_iff h m).mpr e), fun j h e => runOf_channel ((playerOf_channel_iff h j).mpr e),
    fun x unmapped => (highway x).trans (slotOutput_unmapped unmapped), fun h x mapped => ?_, fun h silent => by rw [run, silent]; rfl,
    fun h r here => ⟨fun word => ?_, fun w word => ?_⟩, only.sources, only.channels, fun quiet => ?_, ?_, ?_⟩
  · rw [highway, slotOutput_mapped apart mapped, State.channelOutput]
    cases s.runOf h with
    | none => cases s.modeOf h <;> rfl
    | some r => rfl
  · rw [run, here, Option.map_some, State.framed, word]
  · rw [run, here, Option.map_some, State.framed, word]
  · have none : (List.finRange 24).filterMap v.comes = [] := by
      rw [List.filterMap_eq_nil_iff]
      intro h _
      cases here : s.runOf h with
      | none => rw [State.comes, show v.runOf h = none from here]; rfl
      | some r =>
        rw [State.comes, show v.runOf h = some r from here, Option.bind_some, show v.nextWord r = none from quiet h r here]
        rfl
    rw [none] at words
    generalize same : v.offRuns t = w at words
    cases words
    exact ⟨(congrArg State.segments same :), (congrArg State.device same :), (congrArg State.portS same :)⟩
  · exact ⟨s.offRuns (v.offRuns t), words.offRuns s, rfl, rfl, rfl⟩
  · rw [rest]
    rfl

end Sys2Proof.Machine

/-! The Distributor's triggers: who is bound to whom (R78 to R90): O38, O39, O40. -/

namespace Sys2Proof.Machine

/-! ### Eligible agents (R79, R80) -/

theorem skillFor_isSome (r : AgentRec) (g : Group) : (r.skillFor g).isSome = true ↔ ∃ k ∈ r.skills, k.group = g := by
  simp only [AgentRec.skillFor, List.find?_isSome, beq_iff_eq]

theorem levelFor_eq (r : AgentRec) (g : Group) : State.levelFor r g = levelOf r g := by
  rw [State.levelFor, levelOf, AgentRec.skillFor, List.head?_filter]

theorem mem_eligibleAgents (s : State) (r : CallRec) (a : AgentSlot) : a ∈ s.eligibleAgents r ↔ Eligible s r a := by
  have ready_iff : s.agents.get a = s.agent a := rfl
  simp only [State.eligibleAgents, List.mem_filter, mem_findAll, ready_iff, State.agentFits, Bool.and_eq_true, beq_iff_eq,
    bne_iff_ne, skillFor_isSome, State.hasRoom, decide_eq_true_eq]
  exact ⟨fun ⟨_, ⟨⟨ready, skilled⟩, refused⟩, room⟩ => ⟨ready, skilled, refused, room⟩,
    fun ⟨ready, skilled, refused, room⟩ => ⟨⟨ready, skilled⟩, ⟨⟨ready, skilled⟩, refused⟩, room⟩⟩

theorem eligibleAgents_sorted (s : State) (r : CallRec) : (s.eligibleAgents r).Pairwise (· < ·) :=
  (findAll_sorted _ _).filter _

/-- The measures by which a policy orders agents, as one pair: the smaller comes first (R82). -/
def rank (p : Policy) (g : Group) (r : AgentRec) : ℤ ×ₗ ℕ :=
  match p with
  | .longestIdle => toLex (0, r.idleSince)
  | .highestLevel => toLex (-(levelOf r g : ℤ), r.idleSince)
  | .leastCalls => toLex ((r.callsHandled : ℤ), r.idleSince)

theorem before_iff (s : State) (p : Policy) (g : Group) (a b : AgentSlot) :
    Before s p g a b ↔ rank p g (s.agent a) < rank p g (s.agent b) := by
  cases p with
  | longestIdle => simp only [Before, rank, Prod.Lex.toLex_lt_toLex, lt_irrefl, true_and, false_or]
  | highestLevel => simp only [Before, rank, Prod.Lex.toLex_lt_toLex, neg_lt_neg_iff, neg_inj, Nat.cast_lt, Nat.cast_inj]
  | leastCalls => simp only [Before, rank, Prod.Lex.toLex_lt_toLex, Nat.cast_lt, Nat.cast_inj]

theorem prefers_iff (s : State) (p : Policy) (g : Group) (a b : AgentSlot) :
    State.prefers p g (s.agent a) (s.agent b) = true ↔ Before s p g a b := by
  cases p <;> simp only [Before, State.prefers, levelFor_eq, Bool.or_eq_true, Bool.and_eq_true, decide_eq_true_eq, beq_iff_eq]

/-- The agents in first place for a call (R82). -/
def State.first (s : State) (r : CallRec) : List AgentSlot :=
  s.firstPlace (s.group r.group).active.policy r.group (s.eligibleAgents r)

theorem mem_first (s : State) (r : CallRec) (a : AgentSlot) :
    a ∈ s.first r ↔ Eligible s r a ∧ ∀ d, Eligible s r d → ¬Before s (s.group r.group).active.policy r.group d a := by
  simp only [State.first, State.firstPlace, List.mem_filter, mem_eligibleAgents, List.all_eq_true, Bool.not_eq_true', ← Bool.not_eq_true,
    prefers_iff]

theorem first_sorted (s : State) (r : CallRec) : (s.first r).Pairwise (· < ·) := (eligibleAgents_sorted s r).filter _

/-- Some agent comes first among those eligible. -/
theorem first_ne_nil {s : State} {r : CallRec} {a : AgentSlot} (h : Eligible s r a) : s.first r ≠ [] := by
  obtain ⟨b, hb, least⟩ := (s.eligibleAgents r).toFinset.exists_min_image
    (fun b => rank (s.group r.group).active.policy r.group (s.agent b))
    ⟨a, List.mem_toFinset.mpr ((mem_eligibleAgents s r a).mpr h)⟩
  rw [List.mem_toFinset, mem_eligibleAgents] at hb
  refine List.ne_nil_of_mem ((mem_first s r b).mpr ⟨hb, fun d hd before => ?_⟩)
  exact absurd ((before_iff ..).mp before)
    (not_lt.mpr (least d (List.mem_toFinset.mpr ((mem_eligibleAgents s r d).mpr hd))))

theorem selectAgent_none {s : State} {r : CallRec} (none : ∀ a, ¬Eligible s r a) : s.selectAgent r = (.none, s) := by
  have empty : s.first r = [] := List.eq_nil_iff_forall_not_mem.mpr fun a h => none a ((mem_first s r a).mp h).1
  rw [State.selectAgent, ← State.first, empty]
  rfl

/-- Of the agents in first place the one at the generator's index is selected (R83). -/
theorem selectAgent_some {s : State} {r : CallRec} {a : AgentSlot} (h : Eligible s r a) :
    ∃ b v, s.selectAgent r = (some b, v) ∧ Selected s r b v := by
  have some := first_ne_nil h
  have sorted := first_sorted s r
  have mem := mem_first s r
  rw [State.selectAgent, ← State.first]
  generalize s.first r = l at some sorted mem
  unfold State.breakTie
  split
  next => exact absurd rfl some
  next b => exact ⟨b, s, rfl, [b], sorted, mem, by simp [Nat.mod_one], by simp⟩
  next two =>
    have index : s.generator.toNat % l.length < l.length := Nat.mod_lt _ (List.length_pos_iff.mpr some)
    have long : l.length ≠ 1 := fun one => by
      obtain ⟨b, rfl⟩ := List.length_eq_one_iff.mp one
      exact two b rfl
    exact ⟨l[s.generator.toNat % l.length], _, by rw [List.getElem?_eq_getElem index], l, sorted, mem, List.getElem?_eq_getElem index,
      by rw [if_neg long]; rfl⟩

/-! ### Binding (R90) -/

theorem bind_bound {s : State} {c : CallSlot} {r : CallRec} (call : s.call c = some r) (a : AgentSlot) :
    Bound s (s.bind c r a) c r a := by
  unfold State.bind Bound
  dsimp only
  rw [modCall_some call]
  exact ⟨changeAgent_effect _ a _, changeAgent_agentTriggers _ a _⟩

/-- What is selected for the call, and bound to it, by R81 to R83. -/
theorem Selected.eligible {s v : State} {r : CallRec} {a : AgentSlot} (h : Selected s r a v) : Eligible s r a := by
  obtain ⟨l, -, mem, here, -⟩ := h
  exact ((mem a).mp (List.mem_of_getElem? here)).1

theorem Selected.rest {s v : State} {r : CallRec} {a : AgentSlot} (h : Selected s r a v) : ∃ x, v = { s with generator := x } := by
  obtain ⟨l, -, -, -, rfl⟩ := h
  split <;> exact ⟨_, rfl⟩

/-! ### CALL_TRIGGER (R81) -/

theorem exec_callTrigger {s : State} (calm : Calm s) (c : CallSlot) :
    exec (.callTrigger c) s = .next (if c ∈ s.callTriggers then (s.dropCallTrigger c).takeCallTrigger c else s) := by
  simp only [exec, execCallTrigger, settled_calm calm]

theorem callEligible_iff (s : State) (c : CallSlot) :
    s.callEligible c = true ↔ ∃ r, s.call c = some r ∧ r.state = .queued ∧ (s.group r.group).swapPending = false := by
  unfold State.callEligible
  cases s.call c with
  | none => simp
  | some r => simp only [Bool.and_eq_true, beq_iff_eq, Bool.not_eq_true', Option.some.injEq, exists_eq_left']

/-- Settles O38: the selected agent of R81 to R83 is bound to a call that can be offered. -/
theorem callTriggerBindsTheAgentInFirstPlace : Obligations.CallTriggerBindsTheAgentInFirstPlace := by
  unfold Obligations.CallTriggerBindsTheAgentInFirstPlace
  intro s c calm u
  rw [exec_callTrigger calm]
  refine ⟨fun absent => by rw [if_neg absent], fun waits => ?_⟩
  rw [if_pos waits]
  refine ⟨fun not_offered => ?_, fun r call queued pending => ?_⟩
  · have not_eligible : ¬u.callEligible c = true := (callEligible_iff u c).not.mpr not_offered
    exact congrArg Host.Outcome.next (if_neg not_eligible)
  · have eligible : u.callEligible c = true := (callEligible_iff u c).mpr ⟨r, call, queued, pending⟩
    have here : u.call c = some r := call
    have takes : u.takeCallTrigger c = match u.selectAgent r with | (none, s1) => s1 | (some a, s1) => s1.bind c r a := by
      rw [State.takeCallTrigger, if_pos eligible, here] <;> rfl
    refine ⟨fun none => congrArg Host.Outcome.next ?_, fun ⟨a, ha⟩ => ?_⟩
    · have nobody : ∀ a, ¬Eligible u r a := fun a h => none a ⟨h.ready, h.skilled, h.notRefused, h.room⟩
      exact takes.trans (by rw [selectAgent_none nobody])
    · obtain ⟨b, v, selects, selected⟩ := selectAgent_some (s := u) ⟨ha.ready, ha.skilled, ha.notRefused, ha.room⟩
      obtain ⟨x, rest⟩ := selected.rest
      exact ⟨b, v, _, selected, congrArg Host.Outcome.next (takes.trans (by rw [selects])), bind_bound (by rw [rest]; exact here) b⟩

/-! ### The most urgent call (R84, R85) -/

theorem moreUrgent_iff (s : State) (q r : CallRec) : s.moreUrgent q r = true ↔ MoreUrgent s q r := by
  have urgency (r : CallRec) : urgencyOf s r = (s.urgency r : ℤ) := by
    rw [urgencyOf, State.urgency, Nat.cast_mul, Int.toNat_of_nonneg (le_max_left _ _)]
  simp only [State.moreUrgent, MoreUrgent, urgency, Bool.or_eq_true, Bool.and_eq_true, decide_eq_true_eq, beq_iff_eq, Nat.cast_lt,
    Nat.cast_inj]

/-- Of two calls none is more urgent than itself, and a call that none of the two is more urgent than stays so. -/
theorem MoreUrgent.trans {s : State} {p q r : CallRec} (h : MoreUrgent s p q) (k : MoreUrgent s q r) : MoreUrgent s p r := by
  unfold MoreUrgent at *
  omega

theorem MoreUrgent.total {s : State} {p q r : CallRec} (h : MoreUrgent s p r) (k : ¬MoreUrgent s q r) : MoreUrgent s p q := by
  unfold MoreUrgent at *
  omega

theorem mostUrgent_none {s : State} {l : List (CallSlot × CallRec)} (h : s.mostUrgent l = none) : l = [] := by
  cases l with
  | nil => rfl
  | cons e l =>
    unfold State.mostUrgent at h
    split at h
    · cases h
    · split at h <;> cases h

theorem mostUrgent_some {s : State} {l : List (CallSlot × CallRec)} {e : CallSlot × CallRec} (h : s.mostUrgent l = some e) :
    e ∈ l ∧ ∀ f ∈ l, ¬MoreUrgent s f.2 e.2 := by
  have irrefl (r : CallRec) : ¬MoreUrgent s r r := by
    unfold MoreUrgent
    omega
  induction l generalizing e with
  | nil => cases h
  | cons d l ih =>
    unfold State.mostUrgent at h
    split at h
    next none =>
      cases h
      rw [mostUrgent_none none]
      exact ⟨List.mem_cons_self, fun f hf => by rw [List.mem_singleton.mp hf]; exact irrefl _⟩
    next f some =>
      obtain ⟨mem, best⟩ := ih some
      split at h
      next more =>
        cases h
        have more := (moreUrgent_iff s e.2 d.2).mp more
        refine ⟨List.mem_cons_of_mem d mem, fun g hg => ?_⟩
        rcases List.mem_cons.mp hg with rfl | hg
        · exact fun less => irrefl _ (more.trans less)
        · exact best g hg
      next not_more =>
        cases h
        have not_more := (moreUrgent_iff s f.2 d.2).not.mp not_more
        refine ⟨List.mem_cons_self, fun g hg => ?_⟩
        rcases List.mem_cons.mp hg with rfl | hg
        · exact irrefl _
        · exact fun more => best g hg (more.total not_more)

/-! ### The candidates of a group (R84, R86) -/

/-- The first member of a queue that fits is the one that stands behind none that fits. -/
theorem firstMember_iff (s : State) (fits : CallRec → Bool) (l : List CallSlot) (c : CallSlot) (r : CallRec) :
    (l.filterMap fun c => (s.call c).map fun r => (c, r)).find? (fun e => fits e.2) = some (c, r) ↔
      s.call c = some r ∧ fits r = true ∧ ∃ a b, l = a ++ c :: b ∧ ∀ d ∈ a, ∀ q, s.call d = some q → ¬fits q = true := by
  induction l with
  | nil => simp
  | cons x l ih =>
    rw [List.filterMap_cons]
    have later (blocked : ∀ q, s.call x = some q → ¬fits q = true) :
        (s.call c = some r ∧ fits r = true ∧ ∃ a b, l = a ++ c :: b ∧ ∀ d ∈ a, ∀ q, s.call d = some q → ¬fits q = true)
          ↔ (s.call c = some r ∧ fits r = true ∧ ∃ a b, x :: l = a ++ c :: b ∧ ∀ d ∈ a, ∀ q, s.call d = some q → ¬fits q = true) := by
      refine and_congr_right fun call => and_congr_right fun fit => ⟨fun ⟨a, b, split, before⟩ => ?_, fun ⟨a, b, split, before⟩ => ?_⟩
      · refine ⟨x :: a, b, by rw [split]; rfl, fun d hd => ?_⟩
        rcases List.mem_cons.mp hd with rfl | hd
        · exact blocked
        · exact before d hd
      · cases a with
        | nil =>
          cases split
          exact absurd fit (blocked r call)
        | cons y a =>
          cases split
          exact ⟨a, b, rfl, fun d hd => before d (List.mem_cons_of_mem _ hd)⟩
    cases here : s.call x with
    | none =>
      exact ih.trans (later fun q hq => by rw [here] at hq; cases hq)
    | some k =>
      rw [Option.map_some]
      dsimp only
      rw [List.find?_cons]
      by_cases fit : fits k = true
      · simp only [fit]
        constructor
        · intro e
          cases e
          exact ⟨here, fit, [], l, rfl, nofun⟩
        · rintro ⟨call, fit', a, b, split, before⟩
          cases a with
          | nil =>
            cases split
            rw [here] at call
            cases call
            rfl
          | cons y a =>
            cases split
            exact absurd fit (before x List.mem_cons_self k here)
      · simp only [Bool.eq_false_of_not_eq_true fit]
        exact ih.trans (later fun q hq => by rw [here] at hq; cases hq; exact fit)

theorem candidateFor_iff (s : State) (a : AgentSlot) (g : Group) (c : CallSlot) (r : CallRec) :
    s.candidateFor a g = some (c, r) ↔ Candidate s a g c r := by
  have fits (q : CallRec) : (q.state == .queued && q.lastRefused != some a) = true ↔ q.state = .queued ∧ q.lastRefused ≠ some a := by
    simp only [Bool.and_eq_true, beq_iff_eq, bne_iff_ne]
  unfold State.candidateFor Candidate
  by_cases pending : (s.group g).swapPending = true
  · simp [pending]
  · rw [if_neg pending]
    refine (firstMember_iff s (fun q => q.state == .queued && q.lastRefused != some a) _ c r).trans ?_
    simp only [fits, Bool.eq_false_of_not_eq_true pending, true_and]

theorem sweepCandidate_iff (s : State) (g : Group) (c : CallSlot) (r : CallRec) :
    s.sweepCandidate g = some (c, r) ↔ SweepCandidate s g c r := by
  have some_eligible (q : CallRec) : s.eligibleAgents q ≠ [] ↔ ∃ a, Eligible s q a := by
    simp only [← mem_eligibleAgents]
    exact ⟨List.exists_mem_of_ne_nil _, fun ⟨a, ha⟩ => List.ne_nil_of_mem ha⟩
  have fits (q : CallRec) : (q.state == .queued && !(s.eligibleAgents q).isEmpty) = true ↔ q.state = .queued ∧ ∃ a, Eligible s q a := by
    rw [Bool.and_eq_true, beq_iff_eq, Bool.not_eq_true', ← Bool.not_eq_true, List.isEmpty_iff, ← some_eligible]
  unfold State.sweepCandidate SweepCandidate
  by_cases pending : (s.group g).swapPending = true
  · simp [pending]
  · rw [if_neg pending]
    refine (firstMember_iff s (fun q => q.state == .queued && !(s.eligibleAgents q).isEmpty) _ c r).trans ?_
    simp only [fits, Bool.eq_false_of_not_eq_true pending, true_and]


/-! ### AGENT_TRIGGER (R84) -/

theorem exec_agentTrigger {s : State} (calm : Calm s) (a : AgentSlot) :
    exec (.agentTrigger a) s = .next (if a ∈ s.agentTriggers then (s.dropAgentTrigger a).takeAgentTrigger a else s) := by
  simp only [exec, execAgentTrigger, settled_calm calm]

theorem mem_candidates (s : State) (a : AgentSlot) (c : CallSlot) (r : CallRec) :
    (c, r) ∈ (s.agent a).skills.filterMap (fun k => s.candidateFor a k.group)
      ↔ ∃ k ∈ (s.agent a).skills, Candidate s a k.group c r := by
  simp only [List.mem_filterMap, candidateFor_iff]

/-- Settles O39: the most urgent of the candidates of the agent's groups is bound to it. -/
theorem agentTriggerBindsTheMostUrgentCandidate : Obligations.AgentTriggerBindsTheMostUrgentCandidate := by
  unfold Obligations.AgentTriggerBindsTheMostUrgentCandidate
  intro s a calm u free candidate
  rw [exec_agentTrigger calm]
  have free_iff : ((u.agent a).state = .ready ∧ u.hasRoom (portOf (u.agent a).home) = true) ↔ free := by
    rw [State.hasRoom, decide_eq_true_eq]
    rfl
  have takes (here : free) : u.takeAgentTrigger a =
      match u.mostUrgent ((u.agent a).skills.filterMap fun k => u.candidateFor a k.group) with
      | none => u
      | some (c, r) => u.bind c r a := by
    rw [State.takeAgentTrigger, if_pos (free_iff.mpr here)] <;> rfl
  refine ⟨fun absent => by rw [if_neg absent], fun waits busy => ?_, fun waits here none => ?_, fun waits here ⟨c, r, hc⟩ => ?_⟩
  all_goals rw [if_pos waits]
  · exact congrArg Host.Outcome.next (if_neg (free_iff.not.mpr busy))
  · refine congrArg Host.Outcome.next ((takes here).trans ?_)
    have empty : (u.agent a).skills.filterMap (fun k => u.candidateFor a k.group) = [] :=
      List.eq_nil_iff_forall_not_mem.mpr fun ⟨c, r⟩ mem => none c r ((mem_candidates u a c r).mp mem)
    rw [empty] <;> rfl
  · have mem := mem_candidates u a
    have bound := takes here
    generalize (u.agent a).skills.filterMap (fun k => u.candidateFor a k.group) = l at mem bound
    cases found : u.mostUrgent l with
    | none =>
      have := (mem c r).mpr hc
      rw [mostUrgent_none found] at this
      cases this
    | some e =>
      obtain ⟨d, q⟩ := e
      obtain ⟨here, best⟩ := mostUrgent_some found
      obtain ⟨k, hk, chosen⟩ := (mem d q).mp here
      rw [found] at bound
      refine ⟨d, q, _, ⟨k, hk, chosen⟩, fun f p hf => ?_, congrArg Host.Outcome.next bound, bind_bound chosen.2.1 a⟩
      exact best (f, p) ((mem f p).mpr hf)

/-! ### SWEEP (R86) -/

theorem exec_sweep {s : State} (calm : Calm s) :
    exec .sweep s = .next (if s.sweepWaiting then s.dropSweep.takeSweep else s) := by
  simp only [exec, execSweep, settled_calm calm]

theorem mem_sweepCandidates (s : State) (c : CallSlot) (r : CallRec) :
    (c, r) ∈ (List.finRange 64).filterMap s.sweepCandidate ↔ ∃ g, SweepCandidate s g c r := by
  simp only [List.mem_filterMap, List.mem_finRange, true_and, sweepCandidate_iff]

theorem sweepBest_none {s : State} (h : s.sweepBest = none) (g : Group) (c : CallSlot) (r : CallRec) : ¬SweepCandidate s g c r := by
  unfold State.sweepBest at h
  intro here
  have := (mem_sweepCandidates s c r).mpr ⟨g, here⟩
  rw [mostUrgent_none h] at this
  cases this

theorem sweepBest_some {s : State} {c : CallSlot} {r : CallRec} (h : s.sweepBest = some (c, r)) :
    (∃ g, SweepCandidate s g c r) ∧ ∀ f d q, SweepCandidate s f d q → ¬MoreUrgent s q r := by
  unfold State.sweepBest at h
  obtain ⟨here, best⟩ := mostUrgent_some h
  exact ⟨(mem_sweepCandidates s c r).mp here, fun f d q hq => best (d, q) ((mem_sweepCandidates s d q).mpr ⟨f, hq⟩)⟩

/-- The agents that are READY. -/
def State.readyAgents (s : State) : Finset AgentSlot := Finset.univ.filter fun a => (s.agent a).state = .ready

/-- A binding makes a READY agent OFFERED and leaves the others. -/
theorem bind_readyAgents {s : State} {c : CallSlot} {r : CallRec} {a : AgentSlot} (ready : (s.agent a).state = .ready) :
    (s.bind c r a).readyAgents.card < s.readyAgents.card := by
  obtain ⟨record, others, -⟩ := changeAgent_effect
    ((s.modCall c fun k =>
        { k with state := .offered, boundAgent := some a, ring := some (s.clock + (s.group r.group).active.ringTimeout) }).modGroup
      r.group fun q => { q with offers := q.offers + 1 })
    a { s.agent a with state := .offered, boundCall := some c }
  change (s.bind c r a).agent a = _ at record
  change ∀ b, b ≠ a → (s.bind c r a).agent b = s.agent b at others
  refine Finset.card_lt_card ⟨fun b hb => ?_, fun all => ?_⟩
  · simp only [State.readyAgents, Finset.mem_filter, Finset.mem_univ, true_and] at hb ⊢
    by_cases same : b = a
    · rw [same]; exact ready
    · rwa [others b same] at hb
  · have mem : a ∈ s.readyAgents := by simp only [State.readyAgents, Finset.mem_filter, Finset.mem_univ, true_and, ready]
    have still := all mem
    simp only [State.readyAgents, Finset.mem_filter, Finset.mem_univ, true_and, record] at still
    cases still

/-- Rounds of a sweep, as many at least as there are READY agents. -/
theorem sweepRounds_sweeps (n : Nat) (s : State) (enough : s.readyAgents.card ≤ n) :
    Sweeps s (State.sweepRounds n s) ∧ ∀ g c r, ¬SweepCandidate (State.sweepRounds n s) g c r := by
  induction n generalizing s with
  | zero =>
    have none (g : Group) (c : CallSlot) (r : CallRec) : ¬SweepCandidate s g c r := by
      rintro ⟨-, -, ⟨-, a, eligible⟩, -⟩
      have : a ∈ s.readyAgents := by simp only [State.readyAgents, Finset.mem_filter, Finset.mem_univ, true_and, eligible.ready]
      rw [Finset.card_eq_zero.mp (Nat.le_zero.mp enough)] at this
      exact absurd this (Finset.notMem_empty a)
    exact ⟨.done s none, none⟩
  | succ n ih =>
    unfold State.sweepRounds
    split
    next none => exact ⟨.done s (sweepBest_none none), sweepBest_none none⟩
    next c r some =>
      obtain ⟨⟨g, here⟩, best⟩ := sweepBest_some some
      obtain ⟨-, call, ⟨-, a, eligible⟩, -⟩ := id here
      obtain ⟨b, v, selects, selected⟩ := selectAgent_some eligible
      obtain ⟨x, rest⟩ := selected.rest
      have ready : (v.agent b).state = .ready := by rw [rest]; exact selected.eligible.ready
      have fewer := bind_readyAgents (c := c) (r := r) ready
      have same : v.readyAgents = s.readyAgents := by rw [rest]; rfl
      obtain ⟨sweeps, none⟩ := ih (v.bind c r b) (by rw [same] at fewer; omega)
      rw [selects]
      exact ⟨.round s v _ _ g c r b here best selected (bind_bound (by rw [rest]; exact call) b) sweeps, none⟩

/-- A member of a queue that could be offered is a candidate, or another stands before it. -/
theorem exists_sweepCandidate {s : State} {g : Group} {c : CallSlot} {r : CallRec} {a : AgentSlot}
    (pending : (s.group g).swapPending = false) (member : c ∈ (s.group g).queue) (call : s.call c = some r)
    (queued : r.state = .queued) (eligible : Eligible s r a) : ∃ d q, SweepCandidate s g d q := by
  cases found : s.sweepCandidate g with
  | some e => exact ⟨e.1, e.2, (sweepCandidate_iff s g e.1 e.2).mp found⟩
  | none =>
    rw [State.sweepCandidate, pending, if_neg Bool.false_ne_true, List.find?_eq_none] at found
    have here : (c, r) ∈ s.members g := List.mem_filterMap.mpr ⟨c, member, by rw [call]; rfl⟩
    have some : s.eligibleAgents r ≠ [] := List.ne_nil_of_mem ((mem_eligibleAgents s r a).mpr eligible)
    exact absurd (by simp [queued, some]) (found (c, r) here)

/-- Settles O40: each round leaves a READY agent less, so that the rounds of a sweep end with no pair remaining. -/
theorem sweepBindsUntilNoPairRemains : Obligations.SweepBindsUntilNoPairRemains := by
  unfold Obligations.SweepBindsUntilNoPairRemains
  intro s calm
  rw [exec_sweep calm]
  refine ⟨fun quiet => by rw [quiet]; rfl, fun waits => ?_⟩
  obtain ⟨sweeps, none⟩ := sweepRounds_sweeps 512 s.dropSweep ((Finset.card_le_univ _).trans (by rw [Fintype.card_fin]))
  rw [if_pos waits]
  refine ⟨_, rfl, sweeps, fun g c r a pending member call queued eligible => ?_⟩
  obtain ⟨d, q, candidate⟩ := exists_sweepCandidate pending member call queued eligible
  exact none g d q candidate

end Sys2Proof.Machine

/-! AGENT_HANGUP (R18, R104, R113 to R115): O25. -/

namespace Sys2Proof.Machine

/-! ### Notices of calls (R97, R106, R187) -/

/-- The outcomes of handing a notice of a call that R189 does not drop: placed, owed already, or owed from now. -/
theorem handCall_cases {s : State} {c : CallSlot} {r : CallRec} {k : CallNotice} {n : Notice} (call : s.call c = some r)
    (notice : s.callNotice c k = some n) :
    let p := portOf r.owner
    (s.hasRoom p = true ∧ s.handCall c k = s.pushNotice p n)
      ∨ (s.hasRoom p = false ∧ r.owes k = true ∧ s.handCall c k = s)
      ∨ (s.hasRoom p = false ∧ r.owes k = false
        ∧ s.handCall c k = (s.putCall c (some (r.setOwed k true))).appendOwed p (.call c k)) := by
  intro p
  unfold State.handCall
  simp only [call, notice]
  by_cases room : s.hasRoom p = true
  · exact .inl ⟨room, if_pos room⟩
  · have full : s.hasRoom p = false := Bool.eq_false_of_not_eq_true room
    refine .inr ?_
    by_cases owed : r.owes k = true
    · exact .inl ⟨full, owed, (if_neg room).trans (if_pos owed)⟩
    · refine .inr ⟨full, Bool.eq_false_of_not_eq_true owed, (if_neg room).trans ((if_neg owed).trans ?_)⟩
      rw [modCall_some call]

theorem handCall_rest (s : State) (c : CallSlot) (k : CallNotice) :
    ∃ calls a b, s.handCall c k = { s with calls := calls, portA := a, portB := b } := by
  unfold State.handCall
  split
  · exact ⟨_, _, _, rfl⟩
  next r _ =>
    dsimp only
    split
    · split
      · exact ⟨_, _, _, rfl⟩
      · cases r.owner <;> exact ⟨_, _, _, rfl⟩
    · split
      · exact ⟨_, _, _, rfl⟩
      · cases r.owner <;> exact ⟨_, _, _, rfl⟩

theorem setOwed_same (r : CallRec) (k : CallNotice) {b : Bool} (h : r.owes k = b) : r.setOwed k b = r := by
  subst h
  cases k <;> rfl

/-- Of the calls, the one handed to may owe the notice from now. -/
theorem handCall_call {s : State} {c : CallSlot} {r : CallRec} {k : CallNotice} {n : Notice} (call : s.call c = some r)
    (notice : s.callNotice c k = some n) (d : CallSlot) :
    (s.handCall c k).call d =
      if d = c then some (r.setOwed k (r.owes k || !s.hasRoom (portOf r.owner))) else s.call d := by
  have same (u : State) (h : ∀ d, u.call d = s.call d) (b : Bool) (hb : r.owes k = b) :
      u.call d = if d = c then some (r.setOwed k b) else s.call d := by
    rw [h]
    split
    next e => rw [e, call, setOwed_same r k hb]
    next => rfl
  rcases handCall_cases call notice with ⟨room, e⟩ | ⟨full, owed, e⟩ | ⟨full, owed, e⟩
  · rw [e, room]
    exact same _ (fun d => by cases r.owner <;> rfl) _ (Bool.or_false _).symm
  · rw [e, full, owed]
    exact same s (fun _ => rfl) _ owed
  · rw [e, full, owed, Bool.false_or, Bool.not_false]
    have kept : ((s.putCall c (some (r.setOwed k true))).appendOwed (portOf r.owner) (.call c k)).call d
        = (s.putCall c (some (r.setOwed k true))).call d := by cases r.owner <;> rfl
    rw [kept, State.putCall_call]

theorem handCall_notices {s : State} {c : CallSlot} {r : CallRec} {k : CallNotice} {n : Notice} (call : s.call c = some r)
    (notice : s.callNotice c k = some n) (y : Shelf) :
    ((s.handCall c k).port (portOf y)).notices = placed (s.port (portOf y)).notices (if y = r.owner then [n] else []) := by
  have room_iff : s.hasRoom (portOf r.owner) = decide ((s.port (portOf r.owner)).notices.length < Config.noticeCapacity) := rfl
  by_cases own : y = r.owner
  · subst own
    rw [if_pos rfl, placed_singleton]
    rcases handCall_cases call notice with ⟨room, e⟩ | ⟨full, owed, e⟩ | ⟨full, owed, e⟩
    · rw [e, pushNotice_port, if_pos rfl, if_pos (of_decide_eq_true (room_iff ▸ room))]
    · rw [e, if_neg (of_decide_eq_false (room_iff ▸ full))]
    · rw [e, appendOwed_port, if_pos rfl, if_neg (of_decide_eq_false (room_iff ▸ full))]
      rfl
  · rw [if_neg own, placed_nil]
    have other : portOf y ≠ portOf r.owner := fun e => own (portOf_injective e)
    rcases handCall_cases call notice with ⟨room, e⟩ | ⟨full, owed, e⟩ | ⟨full, owed, e⟩
    · rw [e, pushNotice_port, if_neg other]
    · rw [e]
    · rw [e, appendOwed_port, if_neg other]
      rfl

/-! ### The agent named, and the call bound to it (R17, R18) -/

theorem namedCall_some {ps : List Byte} {x : Shelf} {tag : Tag} (shelf : shelfOfByte (u8 ps 2) = some x) (named : u16 ps 3 = tag.toNat) :
    namedCall ps = some (x, tag) := by
  rw [namedCall, shelf, named, Option.map_some, BitVec.ofNat_toNat, BitVec.setWidth_eq]

theorem boundAs_eq {s : State} {a : AgentSlot} {st : AgentState} {c : CallSlot} {r : CallRec} (state : (s.agent a).state = st)
    (bound : (s.agent a).boundCall = some c) (call : s.call c = some r) : s.boundAs a st (r.owner, r.tag) = some (c, r) := by
  simp only [State.boundAs, state, if_true, bound, call, and_self]

/-- An AGENT_STATE notice handed with a change of an agent's record, as its port and the other shelf's get it (R23, R187). -/
theorem AgentEffect.notices {s t : State} {a : AgentSlot} {new : AgentRec} (h : AgentEffect s t a new) (x : Shelf) :
    (t.port (portOf x)).notices =
      placed (s.port (portOf x)).notices (if x = new.home then [s.stateNotice a new] else []) := by
  by_cases home : x = new.home
  · subst home
    rw [if_pos rfl, placed_singleton]
    refine h.notice.trans ?_
    simp only [State.hasRoom, decide_eq_true_eq]
  · rw [if_neg home, placed_nil]
    exact (h.queues _ (fun e => home (portOf_injective e)) (portOf_ne_s x)).1

/-! ### The end of a connected call for its agent (R113 to R115) -/

theorem withCallSample_agent (s : State) (a b : AgentSlot) (g : Group) (mark : SampleMark) :
    (s.withCallSample a g mark).agent b = s.agent b := by
  unfold State.withCallSample
  dsimp only
  split <;> rfl

theorem withCallSample_rest (s : State) (a : AgentSlot) (g : Group) (mark : SampleMark) :
    ∃ groups, s.withCallSample a g mark = { s with groups := groups } := by
  unfold State.withCallSample
  dsimp only
  split <;> exact ⟨_, rfl⟩

/-- The sample touches the average alone. -/
theorem withCallSample_group (s : State) (a : AgentSlot) (f g : Group) (mark : SampleMark) :
    (s.withCallSample a f mark).group g = { s.group g with average := ((s.withCallSample a f mark).group g).average } := by
  unfold State.withCallSample
  dsimp only
  split
  · rw [State.setGroup_group]
    split
    next same => rw [same]
    next => rfl
  · rfl

theorem taken_withCallSample (s : State) (p : Port) (body : List Byte) (a : AgentSlot) (g : Group) (mark : SampleMark) :
    (s.taken p body).withCallSample a g mark = (s.withCallSample a g mark).taken p body := by
  simp only [State.withCallSample, taken_agent, taken_group, taken_clock]
  split
  · cases p <;> rfl
  · rfl

theorem endConnected_eq (s : State) (a : AgentSlot) (g : Group) (mark : SampleMark) :
    s.endConnected a g mark = (s.withCallSample a g mark).moveAgent a ((s.agent a).afterCall s g mark) := by
  unfold State.endConnected State.withCallSample AgentRec.afterCall
  dsimp only
  by_cases purged : (s.agent a).pending = .signOutPurge
  · simp only [purged, if_true, ne_eq, not_true_eq_false, false_and, if_false]
    rfl
  · by_cases zero : (s.group g).active.wrapTime = 0
    · by_cases keep : mark = .keep
      · simp only [purged, zero, keep, if_false, if_true, ne_eq, not_false_eq_true, and_self, takeSample_eq, freed_eq]
        rfl
      · simp only [purged, zero, keep, if_false, if_true, ne_eq, not_false_eq_true, and_false, freed_eq]
        rfl
    · simp only [purged, zero, if_false, false_and, and_false]
      rfl

/-! ### AGENT_HANGUP (R104) -/

theorem afterCall_boundCall (r : AgentRec) (s : State) (g : Group) (mark : SampleMark) : (r.afterCall s g mark).boundCall = none := by
  unfold AgentRec.afterCall AgentRec.afterPending
  dsimp only
  split
  · rfl
  · split
    · split <;> rfl
    · rfl

/-- Calls, agents, groups, agent triggers, the device record and the ports may differ, and nothing else. -/
def SameRest (s t : State) : Prop :=
  ∃ agents groups calls triggers pa pb ps device,
    t = { s with
      agents := agents, groups := groups, calls := calls, agentTriggers := triggers, portA := pa, portB := pb, portS := ps,
      device := device }

namespace SameRest

variable {s t u : State}

theorem trans (h : SameRest s t) (k : SameRest t u) : SameRest s u := by
  obtain ⟨_, _, _, _, _, _, _, _, rfl⟩ := h
  obtain ⟨_, _, _, _, _, _, _, _, rfl⟩ := k
  exact ⟨_, _, _, _, _, _, _, _, rfl⟩

theorem ofRoster (h : t = s.withRosterOf t) : SameRest s t := ⟨_, _, _, _, _, _, _, _, h⟩

theorem putCall (s : State) (c : CallSlot) (o : Option CallRec) : SameRest s (s.putCall c o) := ⟨_, _, _, _, _, _, _, _, rfl⟩

theorem handCall (s : State) (c : CallSlot) (k : CallNotice) : SameRest s (s.handCall c k) := by
  obtain ⟨_, _, _, e⟩ := handCall_rest s c k
  exact ⟨_, _, _, _, _, _, _, _, e⟩

theorem withCallSample (s : State) (a : AgentSlot) (g : Group) (mark : SampleMark) : SameRest s (s.withCallSample a g mark) := by
  obtain ⟨_, e⟩ := withCallSample_rest s a g mark
  exact ⟨_, _, _, _, _, _, _, _, e⟩

theorem callTriggers (h : SameRest s t) : t.callTriggers = s.callTriggers := by
  obtain ⟨_, _, _, _, _, _, _, _, rfl⟩ := h
  rfl

theorem sweepWaiting (h : SameRest s t) : t.sweepWaiting = s.sweepWaiting := by
  obtain ⟨_, _, _, _, _, _, _, _, rfl⟩ := h
  rfl

theorem playout (h : SameRest s t) : SamePlayout s t := by
  obtain ⟨_, _, _, _, _, _, _, _, rfl⟩ := h
  exact ⟨rfl, rfl, rfl, rfl⟩

theorem base (h : SameRest s t) : SameBase s t := by
  obtain ⟨_, _, _, _, _, _, _, _, rfl⟩ := h
  constructor <;> rfl

theorem answered (p : Port) (body : List Byte) (result : Result) (content : List Byte) (h : SameRest (s.taken p body) t) :
    SameRest s (State.answer p { state := t, result := result, content := content }) := by
  obtain ⟨_, _, _, _, _, _, _, _, rfl⟩ := h
  cases p <;> exact ⟨_, _, _, _, _, _, _, _, rfl⟩

end SameRest

/-! ### The hang-up, step by step -/

section
variable (s : State) (a : AgentSlot) (c : CallSlot) (r : CallRec)

/-- The state as a hang-up is about to move the agent: the call is unbound and the sample of a wrap of zero length is taken. -/
def State.unboundForHangUp : State := (s.putCall c (some { r with boundAgent := none })).withCallSample a r.group .keep

/-- The state in which a hang-up hands CLEARED: the agent has moved, and the call is CLEARING. -/
def State.cleared : State :=
  ((s.unboundForHangUp a c r).moveAgent a ((s.agent a).afterCall s r.group .keep)).putCall c
    (some { r with boundAgent := none, state := .clearing })

variable {s a c r}

theorem unboundForHangUp_agent (b : AgentSlot) : (s.unboundForHangUp a c r).agent b = s.agent b := withCallSample_agent ..

theorem unboundForHangUp_rest : ∃ groups, s.unboundForHangUp a c r =
    { s.putCall c (some { r with boundAgent := none }) with groups := groups } := withCallSample_rest ..

theorem unboundForHangUp_group (g : Group) :
    (s.unboundForHangUp a c r).group g = { s.group g with average := ((s.withCallSample a r.group .keep).group g).average } := by
  have same : (s.unboundForHangUp a c r).group g = (s.withCallSample a r.group .keep).group g := by
    unfold State.unboundForHangUp State.withCallSample
    dsimp only
    have agent : (s.putCall c (some { r with boundAgent := none })).agent a = s.agent a := rfl
    have group (f : Group) : (s.putCall c (some { r with boundAgent := none })).group f = s.group f := rfl
    rw [agent, group]
    split <;> rfl
  rw [same]
  exact withCallSample_group ..

theorem unboundForHangUp_port (q : Port) : (s.unboundForHangUp a c r).port q = s.port q := by
  obtain ⟨_, e⟩ := unboundForHangUp_rest (s := s) (a := a) (c := c) (r := r)
  rw [e]
  rfl

theorem hangUp_eq (here : s.call c = some r) : s.hangUp a c r = (s.cleared a c r).handCall c .cleared := by
  have moved := moveAgent_change (s.unboundForHangUp a c r) a ((s.agent a).afterCall s r.group .keep)
  obtain ⟨_, unbound⟩ := unboundForHangUp_rest (s := s) (a := a) (c := c) (r := r)
  have called : ((s.unboundForHangUp a c r).moveAgent a ((s.agent a).afterCall s r.group .keep)).call c
      = some { r with boundAgent := none } := by
    rw [moved.rest, unbound]
    exact State.putCall_call_self ..
  rw [State.hangUp, modCall_some here, endConnected_eq]
  exact congrArg (fun y : State => y.handCall c .cleared) (modCall_some called _)

theorem cleared_change : ∃ v, AgentChange (s.unboundForHangUp a c r) v a ((s.agent a).afterCall s r.group .keep)
    ∧ s.cleared a c r = v.putCall c (some { r with boundAgent := none, state := .clearing }) :=
  ⟨_, moveAgent_change .., rfl⟩

end

/-- A change of an agent's record behind a sample that touches averages alone restaffs the groups. -/
theorem AgentEffect.restaffs {s w v : State} {a : AgentSlot} {new : AgentRec} (h : AgentEffect w v a new)
    (agent : w.agent a = s.agent a) (group : ∀ g, ∃ x, w.group g = { s.group g with average := x }) :
    (∀ g, (v.group g).average = (w.group g).average) ∧ GroupsRestaffed s v (s.agent a) new := by
  have average (g : Group) : (v.group g).average = (w.group g).average := by
    by_cases same : (w.agent a).staffs g = new.staffs g
    · rw [h.kept g same]
    · rw [h.noStaff g same]
  refine ⟨average, fun g => ?_⟩
  obtain ⟨x, sampled⟩ := group g
  have staffed := h.staffed g
  rw [average]
  by_cases same : (w.agent a).staffs g = new.staffs g
  · rw [if_pos (by rwa [agent] at same), h.kept g same, sampled]
  · rw [if_neg (by rwa [agent] at same), h.noStaff g same, staffed, sampled, agent]

/-- Settles O25: the change of the agent, then the call's, whose CLEARED stands behind the AGENT_STATE. -/
theorem hangupClearsTheCall : Obligations.HangupClearsTheCall := by
  unfold Obligations.HangupClearsTheCall
  intro s p ps a c r h names connected bound call shelf tag new
  have act : actOf .agentHangup p ps (s.taken p (frame ps)) = .ok ((s.taken p (frame ps)).hangUp a c r) (slotField (some c)) := by
    rw [show actOf .agentHangup p ps = actAgentHangup p ps from rfl, actAgentHangup, actsOn_asAgent names nofun nofun]
    simp only [namedCall_some shelf tag, taken_boundAs, boundAs_eq connected bound call]
  rw [hangUp_eq ((taken_call ..).trans call)] at act
  obtain ⟨v, change, cleared⟩ := cleared_change (s := s.taken p (frame ps)) (a := a) (c := c) (r := r)
  have follows : ((s.taken p (frame ps)).agent a).afterCall (s.taken p (frame ps)) r.group .keep = new := by
    simp only [AgentRec.afterCall, taken_agent, taken_clock, taken_group]
    rfl
  rw [follows] at change
  generalize unbound : (s.taken p (frame ps)).unboundForHangUp a c r = w at change
  have agent (b : AgentSlot) : w.agent b = s.agent b := by rw [← unbound, unboundForHangUp_agent, taken_agent]
  have notices (q : Port) : (w.port q).notices = (s.port q).notices := by rw [← unbound, unboundForHangUp_port, taken_notices]
  have group (g : Group) : w.group g = { s.group g with average := ((s.withCallSample a r.group .keep).group g).average } := by
    rw [← unbound, unboundForHangUp_group, taken_group, taken_withCallSample, taken_group]
  have before : SameRest (s.taken p (frame ps)) w := unbound ▸ (SameRest.putCall ..).trans (.withCallSample ..)
  have calls (d : CallSlot) (hd : d ≠ c) : v.call d = s.call d := by
    obtain ⟨_, e⟩ := unboundForHangUp_rest (s := s.taken p (frame ps)) (a := a) (c := c) (r := r)
    rw [change.rest, ← unbound, e]
    exact (State.putCall_call ..).trans ((if_neg hd).trans (taken_call ..))
  have rest : SameRest (s.taken p (frame ps)) (((s.taken p (frame ps)).cleared a c r).handCall c .cleared) := by
    rw [cleared]
    exact ((before.trans (.ofRoster change.rest)).trans (.putCall ..)).trans (.handCall ..)
  have room : w.hasRoom (portOf new.home) = s.hasRoom (portOf new.home) := hasRoom_congr (notices _)
  have stands : ((s.taken p (frame ps)).cleared a c r).call c = some { r with boundAgent := none, state := .clearing } :=
    State.putCall_call_self ..
  have notice : ((s.taken p (frame ps)).cleared a c r).callNotice c .cleared = some (.cleared r.tag) := by
    simp only [State.callNotice, stands]
  obtain ⟨taken, answered, others⟩ := exec_answers h
  rw [act] at taken answered others
  obtain ⟨_, _, _, handed⟩ := handCall_rest ((s.taken p (frame ps)).cleared a c r) c .cleared
  obtain ⟨average, restaffed⟩ := change.toAgentEffect.restaffs (agent a) fun g => ⟨_, group g⟩
  have answered_group (g : Group) : (State.answer p (.ok (((s.taken p (frame ps)).cleared a c r).handCall c .cleared)
      (slotField (some c)))).group g = v.group g := by
    rw [answer_group, handed, cleared]
    rfl
  have still := rest.answered p (frame ps) .ok (slotField (some c))
  refine ⟨_, slotField (some c), taken, answered, by simp [slotField_eq], ?_, others, ?_, fun b hb => ?_, ?_, fun d hd => ?_, fun y => ?_,
    fun g => ?_, fun g => ?_, still.callTriggers, still.sweepWaiting, ?_, still.playout, still.base⟩
  · exact fieldsAt_only (c := slotField (some c)) [(2, c.val)] (by simp [pack, slotField_eq, slotNumber]) (0, 2, c.val) List.mem_cons_self
  · rw [answer_agent, handed, cleared]
    exact change.record.trans (by rw [room])
  · rw [answer_agent, handed, cleared]
    exact (change.others b hb).trans (agent b)
  · refine ⟨_, (answer_call ..).trans ((handCall_call stands notice c).trans (if_pos rfl)), ?_⟩
    rfl
  · rw [answer_call]
    refine (handCall_call stands notice d).trans ((if_neg hd).trans ?_)
    rw [cleared, State.putCall_call, if_neg hd, calls d hd]
  · have moved := change.toAgentEffect.notices y
    rw [notices] at moved
    rw [answer_notices]
    refine (handCall_notices stands notice y).trans ?_
    rw [cleared]
    refine (congrArg (fun q => placed q _) moved).trans ((placed_placed ..).trans ?_)
    have clock : w.clock = s.clock := by
      rw [before.base.clock]
      exact taken_clock ..
    have unbinds : new.boundCall = none := afterCall_boundCall ..
    simp only [State.stateNotice, clock, unbinds, Option.bind_none, Option.map_none]
  · have staffed := change.staffed g
    rw [agent, group] at staffed
    have averaged := average g
    rw [answered_group, averaged, group]
    refine ⟨?_, ?_, ?_, ?_, staffed, rfl⟩
    all_goals
      rw [restaffed g]
      split <;> rfl
  · refine (answered_group g).trans ((restaffed g).trans ?_)
    simp only [State.noStaffHolds, answered_group g]
  · rw [answer_agentTriggers, handed, cleared]
    have triggers : w.agentTriggers = s.agentTriggers := by
      obtain ⟨_, e⟩ := unboundForHangUp_rest (s := s.taken p (frame ps)) (a := a) (c := c) (r := r)
      rw [← unbound, e]
      exact taken_agentTriggers ..
    exact change.trigger.trans (by rw [triggers])

end Sys2Proof.Machine

/-! The queue's operations: the evaluation of the three conditions at a change of a queue (R45 to R49), leaving a queue (R55, R69, R96)
and joining one (R57 to R59). -/

namespace Sys2Proof.Machine

/-! ### What the conditions of a group are made of -/

theorem depthHolds_congr {s t : State} {g : Group} (active : (t.group g).active = (s.group g).active)
    (queue : (t.group g).queue = (s.group g).queue) : t.depthHolds g = s.depthHolds g := by
  simp only [State.depthHolds, active, queue]

theorem noStaffHolds_congr {s t : State} {g : Group} (queue : (t.group g).queue = (s.group g).queue)
    (staffed : (t.group g).staffed = (s.group g).staffed) : t.noStaffHolds g = s.noStaffHolds g := by
  simp only [State.noStaffHolds, queue, staffed]

/-- Of the calls, the longest wait reads the entry seconds of the queue's members. -/
theorem longestWait_eq (s : State) (g : Group) : s.longestWait g =
    ((s.group g).queue.filterMap fun c => (s.call c).map CallRec.entry).foldl (fun m e => max m (s.clock - e)) 0 := by
  have entries : ((s.group g).queue.filterMap fun c => (s.call c).map CallRec.entry)
      = ((s.group g).queue.filterMap s.call).map CallRec.entry := List.map_filterMap.symm
  rw [entries, List.foldl_map, State.longestWait]

theorem waitHolds_congr {s t : State} {g : Group} (active : (t.group g).active = (s.group g).active)
    (queue : (t.group g).queue = (s.group g).queue) (clock : t.clock = s.clock)
    (entries : ∀ c ∈ (s.group g).queue, (t.call c).map CallRec.entry = (s.call c).map CallRec.entry) :
    t.waitHolds g = s.waitHolds g := by
  have members : ((s.group g).queue.filterMap fun c => (t.call c).map CallRec.entry)
      = (s.group g).queue.filterMap fun c => (s.call c).map CallRec.entry := List.filterMap_congr entries
  simp only [State.waitHolds, longestWait_eq, active, queue, clock, members]

/-! ### The evaluation of a group's three conditions -/

/-- Group `g`'s record once its three conditions have been evaluated. -/
def State.queueEvaluated (s : State) (g : Group) : GroupRec :=
  { s.group g with
    conditions := { depth := s.depthHolds g, wait := s.waitHolds g, noStaff := s.noStaffHolds g }
    flags :=
      { depth := (s.group g).flags.depth || (s.depthHolds g && !(s.group g).conditions.depth)
        wait := (s.group g).flags.wait || (s.waitHolds g && !(s.group g).conditions.wait)
        noStaff := (s.group g).flags.noStaff || (s.noStaffHolds g && !(s.group g).conditions.noStaff) } }

theorem evalQueue_rest (s : State) (g : Group) :
    ∃ groups q d, s.evalQueue g = { s with groups := groups, portS := q, device := d } := by
  obtain ⟨_, _, _, depth⟩ := evalCondition_rest s g .depth (s.depthCondition g)
  obtain ⟨_, _, _, wait⟩ := evalCondition_rest (s.evalDepth g) g .wait ((s.evalDepth g).waitCondition g)
  obtain ⟨groups, q, d, noStaff⟩ :=
    evalCondition_rest ((s.evalDepth g).evalWait g) g .noStaff (((s.evalDepth g).evalWait g).noStaffCondition g)
  refine ⟨groups, q, d, ?_⟩
  rw [State.evalQueue, State.evalNoStaff, noStaff, State.evalWait, wait, State.evalDepth, depth]

theorem evalQueue_side (s : State) (g : Group) : WatchSide s (s.evalQueue g) :=
  ((evalCondition_side s g _ _).trans (evalCondition_side _ g _ _)).trans (evalCondition_side _ g _ _)

theorem evalDepth_group (s : State) (g h : Group) : (s.evalDepth g).group h =
    if h = g then
      { s.group g with
        conditions := { (s.group g).conditions with depth := s.depthHolds g }
        flags := { (s.group g).flags with
          depth := (s.group g).flags.depth || (s.depthHolds g && !(s.group g).conditions.depth) } }
    else s.group h :=
  evalCondition_group s g h .depth _

theorem evalNoStaff_group (s : State) (g h : Group) : (s.evalNoStaff g).group h =
    if h = g then
      { s.group g with
        conditions := { (s.group g).conditions with noStaff := s.noStaffHolds g }
        flags := { (s.group g).flags with
          noStaff := (s.group g).flags.noStaff || (s.noStaffHolds g && !(s.group g).conditions.noStaff) } }
    else s.group h :=
  evalCondition_group s g h .noStaff _

/-- Group `g`'s record once DEPTH and WAIT have been evaluated, as at a swap (R36). -/
def State.depthWaitEvaluated (s : State) (g : Group) : GroupRec :=
  { s.group g with
    conditions := { (s.group g).conditions with depth := s.depthHolds g, wait := s.waitHolds g }
    flags :=
      { (s.group g).flags with
        depth := (s.group g).flags.depth || (s.depthHolds g && !(s.group g).conditions.depth)
        wait := (s.group g).flags.wait || (s.waitHolds g && !(s.group g).conditions.wait) } }

theorem evalDepthWait_group (s : State) (g h : Group) : ((s.evalDepth g).evalWait g).group h =
    if h = g then s.depthWaitEvaluated g else s.group h := by
  rw [evalWait_group]
  have here := evalDepth_group s g g
  rw [if_pos rfl] at here
  have watch : WatchOnly s (s.evalDepth g) := evalDepth_watch s g
  have wait : (s.evalDepth g).waitCondition g = s.waitHolds g :=
    waitHolds_congr (watch.active g) (watch.queue g) watch.base.clock fun c _ => by rw [watch.call]
  split
  · rw [State.waitEvaluated, here, wait]
    rfl
  next other => rw [evalDepth_group, if_neg other]

theorem evalQueue_group (s : State) (g h : Group) : (s.evalQueue g).group h = if h = g then s.queueEvaluated g else s.group h := by
  have watch : WatchOnly s ((s.evalDepth g).evalWait g) := (evalDepth_watch s g).trans (evalWait_watch _ g)
  have here := evalDepthWait_group s g g
  rw [if_pos rfl] at here
  have noStaff : ((s.evalDepth g).evalWait g).noStaffHolds g = s.noStaffHolds g :=
    noStaffHolds_congr (watch.queue g) (watch.staffed g)
  rw [State.evalQueue, evalNoStaff_group]
  split
  · rw [here, noStaff]
    rfl
  next other => rw [evalDepthWait_group, if_neg other]


/-! ### The state of a group between two evaluations -/

/-- On the way from `s` to `t` nothing that the conditions of group `g` are made of has changed. -/
structure SameQueueing (s t : State) (g : Group) : Prop where
  active : (t.group g).active = (s.group g).active
  queue : (t.group g).queue = (s.group g).queue
  staffed : (t.group g).staffed = (s.group g).staffed
  clock : t.clock = s.clock
  entries : ∀ c ∈ (s.group g).queue, (t.call c).map CallRec.entry = (s.call c).map CallRec.entry

namespace SameQueueing

variable {s t : State} {g : Group}

theorem depthHolds (h : SameQueueing s t g) : t.depthHolds g = s.depthHolds g := depthHolds_congr h.active h.queue

theorem waitHolds (h : SameQueueing s t g) : t.waitHolds g = s.waitHolds g := waitHolds_congr h.active h.queue h.clock h.entries

theorem noStaffHolds (h : SameQueueing s t g) : t.noStaffHolds g = s.noStaffHolds g := noStaffHolds_congr h.queue h.staffed

end SameQueueing

theorem WatchOnly.queueing {s t : State} (h : WatchOnly s t) (g : Group) : SameQueueing s t g :=
  ⟨h.active g, h.queue g, h.staffed g, h.base.clock, fun c _ => by rw [h.call]⟩

/-- The evaluation of the conditions is one from any state with the group's flags and conditions, and it holds where nothing has changed
since that the conditions are made of. -/
theorem QueueEvaluated.congr {s s' t t' : State} {g : Group} (h : QueueEvaluated s t g)
    (flags : (s'.group g).flags = (s.group g).flags) (conditions : (s'.group g).conditions = (s.group g).conditions)
    (same : SameQueueing t t' g) (flags' : (t'.group g).flags = (t.group g).flags)
    (conditions' : (t'.group g).conditions = (t.group g).conditions) : QueueEvaluated s' t' g where
  conditions := by rw [conditions', h.conditions, same.depthHolds, same.waitHolds, same.noStaffHolds]
  flags := by rw [flags', h.flags, same.depthHolds, same.waitHolds, same.noStaffHolds, flags, conditions]

theorem evalQueue_evaluated (s : State) (g : Group) : QueueEvaluated s (s.evalQueue g) g := by
  have same : SameQueueing s (s.evalQueue g) g := (evalQueue_watch s g).queueing g
  have here := evalQueue_group s g g
  rw [if_pos rfl] at here
  constructor
  · rw [here, same.depthHolds, same.waitHolds, same.noStaffHolds]
    rfl
  · rw [here, same.depthHolds, same.waitHolds, same.noStaffHolds]
    rfl

/-! ### A queue written, and its conditions evaluated -/

/-- Group `g`'s queue is `l`. -/
def State.withQueue (s : State) (g : Group) (l : List CallSlot) : State := s.setGroup g { s.group g with queue := l }

section
variable (s : State) (g : Group) (l : List CallSlot)

theorem withQueue_group_self : (s.withQueue g l).group g = { s.group g with queue := l } := State.setGroup_group_self ..

theorem withQueue_other {h : Group} (ne : h ≠ g) : (s.withQueue g l).group h = s.group h := State.setGroup_group_of_ne _ _ ne

theorem withQueue_eval_rest : ∃ groups q d, (s.withQueue g l).evalQueue g = { s with groups := groups, portS := q, device := d } := by
  obtain ⟨groups, q, d, e⟩ := evalQueue_rest (s.withQueue g l) g
  exact ⟨groups, q, d, e⟩

theorem withQueue_eval_side : WatchSide s ((s.withQueue g l).evalQueue g) := by
  have side := evalQueue_side (s.withQueue g l) g
  generalize (s.withQueue g l).evalQueue g = t at side
  exact side.congr ⟨rfl, rfl⟩ rfl ⟨rfl, rfl⟩ rfl

theorem withQueue_eval_other {h : Group} (ne : h ≠ g) : ((s.withQueue g l).evalQueue g).group h = s.group h := by
  rw [evalQueue_group, if_neg ne, withQueue_other s g l ne]

/-- A group whose queue has been written keeps all else but its flags and its conditions. -/
theorem withQueue_eval_group : ((s.withQueue g l).evalQueue g).group g =
    { s.group g with
      queue := l
      conditions := (((s.withQueue g l).evalQueue g).group g).conditions, flags := (((s.withQueue g l).evalQueue g).group g).flags } := by
  rw [evalQueue_group, if_pos rfl, State.queueEvaluated, withQueue_group_self]

theorem withQueue_eval_evaluated : QueueEvaluated s ((s.withQueue g l).evalQueue g) g := by
  have evaluated := evalQueue_evaluated (s.withQueue g l) g
  generalize (s.withQueue g l).evalQueue g = t at evaluated
  exact evaluated.congr (by rw [withQueue_group_self]) (by rw [withQueue_group_self]) ⟨rfl, rfl, rfl, rfl, fun _ _ => rfl⟩ rfl rfl

end

/-! ### Leaving a queue (R55, R69, R96) -/

section
variable (s : State) (c : CallSlot) (g : Group)

theorem leaveQueue_rest : ∃ groups q d, s.leaveQueue c g = { s with groups := groups, portS := q, device := d } :=
  withQueue_eval_rest ..

theorem leaveQueue_side : WatchSide s (s.leaveQueue c g) := withQueue_eval_side ..

theorem leaveQueue_other {h : Group} (ne : h ≠ g) : (s.leaveQueue c g).group h = s.group h := withQueue_eval_other _ _ _ ne

/-- The group that a call leaves keeps all but its queue, its flags and its conditions. -/
theorem leaveQueue_group : (s.leaveQueue c g).group g =
    { s.group g with
      queue := (s.group g).queue.filter (· != c)
      conditions := ((s.leaveQueue c g).group g).conditions, flags := ((s.leaveQueue c g).group g).flags } :=
  withQueue_eval_group ..

theorem leaveQueue_evaluated : QueueEvaluated s (s.leaveQueue c g) g := withQueue_eval_evaluated ..

end

/-! ### Joining a queue (R57 to R59) -/

theorem standsBefore_iff {s : State} {d : CallSlot} {r : CallRec} (call : s.call d = some r) (key : Int) (seq : Nat) :
    s.standsBefore key seq d = true ↔ key < r.key ∨ (key = r.key ∧ seq < r.seq) := by
  simp only [State.standsBefore, call, Bool.or_eq_true, Bool.and_eq_true, decide_eq_true_eq]

theorem standsBefore_used {s : State} {d : CallSlot} {key : Int} {seq : Nat} (h : s.standsBefore key seq d = true) :
    ∃ r, s.call d = some r := by
  unfold State.standsBefore at h
  split at h
  · cases h
  next r call => exact ⟨r, call⟩

/-- A call put into a queue stands behind all those before its place, and before the one there. -/
theorem insertCall_split (s : State) (key : Int) (seq : Nat) (c : CallSlot) (l : List CallSlot) :
    ∃ a b, l = a ++ b ∧ s.insertCall key seq c l = a ++ c :: b ∧ (∀ d ∈ a, s.standsBefore key seq d = false)
      ∧ ∀ d ∈ b.head?, s.standsBefore key seq d = true := by
  induction l with
  | nil => exact ⟨[], [], rfl, rfl, nofun, nofun⟩
  | cons d l ih =>
    by_cases before : s.standsBefore key seq d = true
    · refine ⟨[], d :: l, rfl, if_pos before, nofun, fun e he => ?_⟩
      cases he
      exact before
    · obtain ⟨a, b, split, inserted, behind, ahead⟩ := ih
      refine ⟨d :: a, b, by rw [split]; rfl, (if_neg before).trans (by rw [inserted]; rfl), fun e he => ?_, ahead⟩
      rcases List.mem_cons.mp he with rfl | he
      · exact Bool.eq_false_of_not_eq_true before
      · exact behind e he

theorem mem_insertCall (s : State) (key : Int) (seq : Nat) (c : CallSlot) (l : List CallSlot) : c ∈ s.insertCall key seq c l := by
  obtain ⟨a, b, -, inserted, -⟩ := insertCall_split s key seq c l
  rw [inserted]
  exact List.mem_append_right a List.mem_cons_self

theorem raiseCallTrigger_eq (s : State) (c : CallSlot) : s.raiseCallTrigger c =
    { s with callTriggers := if c ∈ s.callTriggers then s.callTriggers else s.callTriggers ++ [c] } := by
  unfold State.raiseCallTrigger
  split <;> rfl

/-- The state in which call `c`, of record `r`, stands in the queue of group `g`, whose conditions are about to be evaluated (R59). -/
def State.joinQueue (s : State) (c : CallSlot) (r : CallRec) (g : Group) : List CallSlot :=
  (s.putCall c (some (r.joined s g))).insertCall (r.joined s g).key r.seq c (s.group g).queue

theorem raiseCallTrigger_group (s : State) (c : CallSlot) (g : Group) : (s.raiseCallTrigger c).group g = s.group g := by
  rw [raiseCallTrigger_eq]
  rfl

theorem raiseCallTrigger_sameQueue (s : State) (c : CallSlot) (p : Port) : SameQueue s (s.raiseCallTrigger c) p := by
  rw [raiseCallTrigger_eq]
  exact ⟨rfl, rfl⟩

theorem raiseCallTrigger_queueing (s : State) (c : CallSlot) (g : Group) : SameQueueing s (s.raiseCallTrigger c) g := by
  rw [raiseCallTrigger_eq]
  exact ⟨rfl, rfl, rfl, rfl, fun _ _ => rfl⟩

section
variable {s : State} {c : CallSlot} {r : CallRec} (call : s.call c = some r) (g : Group)
include call

/-- A call joins a queue: its record is that of R59, it is put in at its place, the conditions are evaluated, and its trigger rises. -/
theorem join_eq : s.join c g =
    (((s.putCall c (some (r.joined s g))).withQueue g (s.joinQueue c r g)).evalQueue g).raiseCallTrigger c := by
  have key : ((s.clock : Int) - (r.priority * (s.group g).active.priorityStep : Nat)) = (r.joined s g).key := by
    rw [Nat.cast_mul]
    rfl
  rw [State.join, call]
  dsimp only
  rw [key]
  rfl

theorem join_rest : ∃ groups q d, s.join c g =
    { s with
      calls := (s.putCall c (some (r.joined s g))).calls, groups := groups, portS := q, device := d
      callTriggers := if c ∈ s.callTriggers then s.callTriggers else s.callTriggers ++ [c] } := by
  obtain ⟨groups, q, d, evaluated⟩ := withQueue_eval_rest (s.putCall c (some (r.joined s g))) g (s.joinQueue c r g)
  refine ⟨groups, q, d, ?_⟩
  rw [join_eq call g, evaluated, raiseCallTrigger_eq]
  rfl

theorem join_call (d : CallSlot) : (s.join c g).call d = if d = c then some (r.joined s g) else s.call d := by
  obtain ⟨_, _, _, rest⟩ := join_rest call g
  rw [rest]
  exact State.putCall_call ..

theorem join_side : WatchSide s (s.join c g) := by
  rw [join_eq call g]
  have side := withQueue_eval_side (s.putCall c (some (r.joined s g))) g (s.joinQueue c r g)
  generalize State.evalQueue _ g = t at side
  exact side.congr ⟨rfl, rfl⟩ rfl (raiseCallTrigger_sameQueue t c .s) (by rw [raiseCallTrigger_eq])

theorem join_other {h : Group} (other : h ≠ g) : (s.join c g).group h = s.group h := by
  rw [join_eq call g, raiseCallTrigger_group, withQueue_eval_other _ _ _ other]
  rfl

/-- The group that a call joins keeps all but its queue, its flags and its conditions. -/
theorem join_group : (s.join c g).group g =
    { s.group g with
      queue := s.joinQueue c r g
      conditions := ((s.join c g).group g).conditions, flags := ((s.join c g).group g).flags } := by
  rw [join_eq call g, raiseCallTrigger_group]
  have group := withQueue_eval_group (s.putCall c (some (r.joined s g))) g (s.joinQueue c r g)
  generalize State.evalQueue _ g = t at group
  exact group

theorem join_evaluated : QueueEvaluated s (s.join c g) g := by
  rw [join_eq call g]
  have evaluated := withQueue_eval_evaluated (s.putCall c (some (r.joined s g))) g (s.joinQueue c r g)
  generalize State.evalQueue _ g = t at evaluated
  exact evaluated.congr rfl rfl (raiseCallTrigger_queueing t c g) (by rw [raiseCallTrigger_group]) (by rw [raiseCallTrigger_group])

theorem mem_join : c ∈ ((s.join c g).group g).queue := by
  rw [join_group call g]
  exact mem_insertCall ..

/-- The place of a call that joins a queue (R57): behind the members that it does not stand before, and before the one there. -/
theorem join_split :
    ∃ l m, (s.group g).queue = l ++ m ∧ ((s.join c g).group g).queue = l ++ c :: m
      ∧ (∀ d ∈ l, d ≠ c → ∀ k, s.call d = some k →
        ¬((r.joined s g).key < k.key ∨ ((r.joined s g).key = k.key ∧ (r.joined s g).seq < k.seq)))
      ∧ ∀ d ∈ m.head?, d ≠ c ∧ ∃ k, s.call d = some k ∧
        ((r.joined s g).key < k.key ∨ ((r.joined s g).key = k.key ∧ (r.joined s g).seq < k.seq)) := by
  obtain ⟨l, m, split, inserted, behind, ahead⟩ :=
    insertCall_split (s.putCall c (some (r.joined s g))) (r.joined s g).key (r.joined s g).seq c (s.group g).queue
  have other (d : CallSlot) (ne : d ≠ c) : (s.putCall c (some (r.joined s g))).call d = s.call d :=
    (State.putCall_call ..).trans (if_neg ne)
  refine ⟨l, m, split, by rw [join_group call g]; exact inserted, fun d hd ne k hk before => ?_, fun d hd => ?_⟩
  · have := (standsBefore_iff ((other d ne).trans hk) _ _).mpr before
    rw [behind d hd] at this
    cases this
  · obtain ⟨k, hk⟩ := standsBefore_used (ahead d hd)
    have before := (standsBefore_iff hk _ _).mp (ahead d hd)
    have ne : d ≠ c := fun same => by
      subst same
      cases (State.putCall_call_self ..).symm.trans hk
      omega
    exact ⟨ne, k, (other d ne).symm.trans hk, before⟩

end


/-! ### The statistics of a move (R43) -/

theorem modStats_group (s : State) (g h : Group) (f : Stats → Stats) : (s.modStats g f).group h =
    { s.group h with stats := if h = g then f (s.group h).stats else (s.group h).stats } := by
  refine (State.setGroup_group ..).trans ?_
  split
  next same => rw [same]
  next => rfl

/-- A move of a call from group `f` to group `g` is counted at both. -/
def State.countMove (s : State) (f g : Group) : State :=
  (s.modStats f fun q => { q with overflowedOut := bump q.overflowedOut }).modStats g fun q =>
    { q with overflowedIn := bump q.overflowedIn }

theorem countMove_group (s : State) (f g h : Group) :
    (s.countMove f g).group h = { s.group h with stats := (s.group h).stats.afterMove f h (some g) } := by
  have bumps (n : Nat) : bump n = min 65535 (n + 1) := rfl
  rw [State.countMove, modStats_group, modStats_group]
  by_cases out : h = f
  · by_cases into : h = g
    · simp [out, ← into, Stats.afterMove, bumps]
    · have into' : ¬f = g := out ▸ into
      simp [out, into', Ne.symm into', Stats.afterMove, bumps]
  · by_cases into : h = g
    · have out' : ¬g = f := into ▸ out
      simp [out', into, Stats.afterMove, bumps]
    · simp [out, into, Ne.symm into, Stats.afterMove]

theorem countHop_eq (s : State) (named taken : Group) (hops : Nat) :
    s.countHop named taken hops = if hops = 0 then s else s.countMove named taken := rfl

theorem countHop_group (s : State) (named taken h : Group) (hops : Nat) : (s.countHop named taken hops).group h =
    { s.group h with stats := (s.group h).stats.afterMove named h (if hops = 0 then none else some taken) } := by
  rw [countHop_eq]
  split
  · simp [Stats.afterMove]
  · exact countMove_group ..


end Sys2Proof.Machine

/-! A call moved to a group's music, and the swap, which moves every listening call of the queue (R36, R69, R166). -/

namespace Sys2Proof.Machine

/-! ### A call moved to music (R69, R166) -/

/-- What a call of record `k` that is to hear `l` hears: an announcement it is on goes on. -/
def CallRec.tuned (k : CallRec) (l : Listen) : Listen :=
  match k.listen with
  | .announce j => .announce j
  | _ => l

/-- The listen source that a music source in a parameter set gives. -/
def listenTo (o : Option SourceNo) : Listen :=
  match o with
  | none => .silent
  | some m => .music m

theorem groupMusic_eq (s : State) (g : Group) : s.groupMusic g = listenTo (s.group g).active.music := rfl

theorem listenTo_music {o : Option SourceNo} {m : SourceNo} : listenTo o = .music m ↔ o = some m := by
  cases o <;> simp [listenTo]

theorem tuned_announce {k : CallRec} {j : ChannelNo} (h : k.listen = .announce j) (l : Listen) : k.tuned l = k.listen := by
  rw [CallRec.tuned, h]

theorem tuned_free {k : CallRec} (h : ∀ j, k.listen ≠ .announce j) (l : Listen) : k.tuned l = l := by
  unfold CallRec.tuned
  split
  next j e => exact absurd e (h j)
  next => rfl

theorem retunes_iff (k : CallRec) (o : Option SourceNo) : k.retunes o = true ↔ k.tuned (listenTo o) ≠ k.listen := by
  unfold CallRec.retunes CallRec.tuned listenTo
  cases k.listen with
  | announce j => exact ⟨nofun, fun h => absurd rfl h⟩
  | silent =>
    cases o with
    | none => exact ⟨nofun, fun h => absurd rfl h⟩
    | some m => exact ⟨nofun, fun _ => rfl⟩
  | music n =>
    cases o with
    | none => exact ⟨nofun, fun _ => rfl⟩
    | some m => simp only [bne_iff_ne, ne_eq, Option.some.injEq, Listen.music.injEq]

theorem retunes_free {k : CallRec} {o : Option SourceNo} (h : k.retunes o = true) : k.tuned (listenTo o) = listenTo o := by
  refine tuned_free (fun j e => ?_) _
  exact (retunes_iff k o).mp h (tuned_announce e _)

/-- Call `c`, of record `k`, hears `l` from now; a LISTEN goes to its port when the timeslot heard has changed. -/
def State.tunes (s : State) (c : CallSlot) (k : CallRec) (l : Listen) : State :=
  if s.heard l = s.heard k.listen then s.setListen c l else s.tells c l

theorem setListen_same {s : State} {c : CallSlot} {k : CallRec} (call : s.call c = some k) : s.setListen c k.listen = s := by
  unfold State.setListen State.countListener
  rw [call]
  dsimp only
  rw [if_pos rfl, modCall_some call]
  exact putCall_same call

theorem tunes_same {s : State} {c : CallSlot} {k : CallRec} (call : s.call c = some k) : s.tunes c k k.listen = s := by
  rw [State.tunes, if_pos rfl, setListen_same call]

theorem heard_congr {s t : State} (slots : t.slotMap = s.slotMap) (l : Listen) : t.heard l = s.heard l := by
  have slot (h : HighwayChannel) : t.slotOf h = s.slotOf h := congrArg (Vector.get · h) slots
  cases l with
  | silent => rfl
  | music m => exact slot _
  | announce j => exact slot _

theorem moveMusic_eq {s : State} {c : CallSlot} {k : CallRec} (call : s.call c = some k) (g : Group) :
    s.moveMusic g c = s.tunes c k (k.tuned (s.groupMusic g)) := by
  have moves (free : ∀ j, k.listen ≠ .announce j) : s.moveMusic g c = s.tunes c k (s.groupMusic g) := by
    obtain ⟨_, _, _, _, _, rest⟩ := setListen_rest s c (s.groupMusic g)
    have heard : (s.setListen c (s.groupMusic g)).heard (s.groupMusic g) = s.heard (s.groupMusic g) :=
      heard_congr (by rw [rest]) _
    unfold State.moveMusic
    rw [call, musicOf_eq]
    dsimp only
    split
    next j e => exact absurd e (free j)
    next => rw [heard, State.tunes, State.tells]
  cases e : k.listen with
  | announce j =>
    rw [tuned_announce e, tunes_same call, State.moveMusic, call]
    dsimp only
    rw [e]
  | silent =>
    rw [tuned_free (by rw [e]; nofun)]
    exact moves (by rw [e]; nofun)
  | music m =>
    rw [tuned_free (by rw [e]; nofun)]
    exact moves (by rw [e]; nofun)

theorem moveMusic_absent {s : State} {c : CallSlot} (absent : s.call c = none) (g : Group) : s.moveMusic g c = s := by
  rw [State.moveMusic, absent]

theorem tunes_source_eq (s : State) (c : CallSlot) (k : CallRec) (l : Listen) (m : SourceNo) : (s.tunes c k l).source m = (s.setListen c l).source m := by
  unfold State.tunes
  split
  · rfl
  · exact tells_source ..

theorem tunes_segments (s : State) (c : CallSlot) (k : CallRec) (l : Listen) : (s.tunes c k l).segments = (s.setListen c l).segments ∧ (s.tunes c k l).device = (s.setListen c l).device
    ∧ (s.tunes c k l).portS = (s.setListen c l).portS := by
  unfold State.tunes
  split
  · exact ⟨rfl, rfl, rfl⟩
  · obtain ⟨_, _, _, told⟩ := handListen_rest (s.setListen c l) c
    rw [State.tells, told]
    exact ⟨rfl, rfl, rfl⟩

section
variable {s : State} {c : CallSlot} {k : CallRec} (call : s.call c = some k) (l : Listen)
include call

/-- The call's record, and the LISTEN, when it hears `l` from now. -/
theorem tunes_handed : ∃ q, (s.tunes c k l).call c = some q ∧ { q with owedListen := k.owedListen } = { k with listen := l }
    ∧ (s.heard l ≠ s.heard k.listen → ListenHanded s (s.tunes c k l) c (s.heard l) k q)
    ∧ (s.heard l = s.heard k.listen →
      q.owedListen = k.owedListen ∧ ∀ y : Shelf, SameQueue s (s.tunes c k l) (portOf y)) := by
  by_cases same : s.heard l = s.heard k.listen
  · rw [State.tunes, if_pos same]
    obtain ⟨_, _, _, _, _, rest⟩ := setListen_rest s c l
    refine ⟨{ k with listen := l }, by rw [setListen_call, if_pos rfl, call]; rfl, rfl, absurd same, fun _ => ⟨rfl, fun y => ?_⟩⟩
    rw [rest]
    cases y <;> exact ⟨rfl, rfl⟩
  · rw [State.tunes, if_neg same]
    obtain ⟨q, now, fields, handed⟩ := tells_handed call l
    exact ⟨q, now, fields, fun _ => handed, fun e => absurd e same⟩

/-- A music source that the call comes to gains it. -/
theorem tunes_gains {m : SourceNo} (tuned : l = .music m) (comes : k.listen ≠ .music m) : SourceGains s (s.tunes c k l) m 1 := by
  subst tuned
  obtain ⟨segments, device, -⟩ := tunes_segments s c k (.music m)
  exact (setListen_gains call comes).congr rfl rfl rfl rfl (tunes_source_eq ..) segments (by rw [device])

theorem tunes_source {m : SourceNo} (elsewhere : ¬(l = .music m ∧ k.listen ≠ .music m)) :
    (s.tunes c k l).source m =
      { s.source m with
        listeners := if k.listen = .music m ∧ l ≠ .music m then (s.source m).listeners - 1 else (s.source m).listeners } :=
  (tunes_source_eq ..).trans (setListen_source call elsewhere)

/-- Where no source starts, segments, the device record and port S stay as they are. -/
theorem tunes_quiet (quiet : ∀ m, l = .music m → k.listen ≠ .music m → (s.source m).run ≠ none ∨ (s.source m).current = none) :
    (s.tunes c k l).segments = s.segments ∧ (s.tunes c k l).device = s.device ∧ (s.tunes c k l).portS = s.portS := by
  obtain ⟨segments, device, port⟩ := tunes_segments s c k l
  obtain ⟨_, _, rest⟩ := setListen_quiet_rest call quiet
  rw [segments, device, port, rest]
  exact ⟨rfl, rfl, rfl⟩

/-- The LISTENs that the ports of the shelves are handed. -/
theorem tunes_notices (y : Shelf) : ((s.tunes c k l).port (portOf y)).notices = placed (s.port (portOf y)).notices
    (if k.owner = y ∧ s.heard l ≠ s.heard k.listen then [.listen k.tag (s.heard l)] else []) := by
  obtain ⟨q, -, -, changes, stays⟩ := tunes_handed call l
  by_cases same : s.heard l = s.heard k.listen
  · rw [if_neg fun h => h.2 same, placed_nil]
    exact ((stays same).2 y).1
  · obtain ⟨notices, -, -, otherPort⟩ := changes same
    by_cases own : k.owner = y
    · subst own
      rw [if_pos ⟨rfl, same⟩]
      exact notices
    · rw [if_neg fun h => own h.1, placed_nil]
      have y_other : other k.owner = y := by cases y <;> cases hx : k.owner <;> simp_all [other]
      exact y_other ▸ otherPort.1

end

theorem tunes_play {C : CallSlot → Prop} {W : Bool} (s : State) {c : CallSlot} (k : CallRec) (l : Listen) (hc : C c) : PlayMoves C W s (s.tunes c k l) := by
  unfold State.tunes
  split
  · exact setListen_play s l hc
  · exact tells_play s l hc

theorem tunes_rest (s : State) (c : CallSlot) (k : CallRec) (l : Listen) : ∃ calls sources segments a b port d, s.tunes c k l =
    { s with calls := calls, sources := sources, segments := segments, portA := a, portB := b, portS := port, device := d } := by
  unfold State.tunes
  split
  · obtain ⟨_, _, _, _, _, rest⟩ := setListen_rest s c l
    exact ⟨_, _, _, _, _, _, _, rest⟩
  · exact tells_rest s c l

/-! ### The calls of a queue moved to music (R166) -/

/-- Call `c` is moved to the music `o`. -/
def State.tuneTo (s : State) (o : Option SourceNo) (c : CallSlot) : State :=
  match s.call c with
  | none => s
  | some k => s.tunes c k (k.tuned (listenTo o))

theorem tuneTo_eq (s : State) (g : Group) (c : CallSlot) : s.moveMusic g c = s.tuneTo (s.group g).active.music c := by
  unfold State.tuneTo
  split
  next absent => exact moveMusic_absent absent g
  next k call => exact moveMusic_eq call g

theorem tuneTo_rest (s : State) (o : Option SourceNo) (c : CallSlot) : ∃ calls sources segments a b port d, s.tuneTo o c =
    { s with calls := calls, sources := sources, segments := segments, portA := a, portB := b, portS := port, device := d } := by
  unfold State.tuneTo
  split
  · exact ⟨_, _, _, _, _, _, _, rfl⟩
  · exact tunes_rest ..

/-- The calls of a queue are moved to the group's music one after another. -/
theorem moveListeners_eq (s : State) (g : Group) :
    s.moveListeners g = (s.group g).queue.foldl (fun s c => s.tuneTo (s.group g).active.music c) s := by
  simp only [State.moveListeners, tuneTo_eq]

theorem tuneAll_fixed (g : Group) (o : Option SourceNo) (l : List CallSlot) (s : State) (music : (s.group g).active.music = o) :
    l.foldl (fun s c => s.tuneTo (s.group g).active.music c) s = l.foldl (fun s c => s.tuneTo o c) s := by
  induction l generalizing s with
  | nil => rfl
  | cons c l ih =>
    rw [List.foldl_cons, List.foldl_cons, music]
    refine ih _ ?_
    obtain ⟨_, _, _, _, _, _, _, rest⟩ := tuneTo_rest s o c
    rw [rest]
    exact music

/-- Call `c` changes its listen source when it is moved to the music `o`. -/
def State.moves (s : State) (o : Option SourceNo) (c : CallSlot) : Bool := (s.call c).any fun k => k.retunes o

/-- The calls among those of a list that change their listen source when they are moved to the music `o`. -/
def State.movers (s : State) (o : Option SourceNo) (l : List CallSlot) : List CallSlot :=
  (List.finRange 1024).filter fun c => decide (c ∈ l) && s.moves o c

/-- A call that changes nothing when it is moved leaves the state as it is. -/
theorem tuneTo_stays {s : State} {o : Option SourceNo} {c : CallSlot} (h : s.moves o c = false) : s.tuneTo o c = s := by
  unfold State.tuneTo
  split
  next => rfl
  next k call =>
    have same : k.tuned (listenTo o) = k.listen := by
      by_contra differs
      rw [State.moves, call, Option.any_some, (retunes_iff k o).mpr differs] at h
      cases h
    rw [same, tunes_same call]

/-- A list counts one more than another where it holds one element more. -/
theorem length_filter_succ {α : Type} {l : List α} (distinct : l.Nodup) {x : α} (member : x ∈ l) {p q : α → Bool} (new : p x = true)
    (old : q x = false) (rest : ∀ y, y ≠ x → p y = q y) : (l.filter p).length = (l.filter q).length + 1 := by
  induction l with
  | nil => cases member
  | cons y l ih =>
    obtain ⟨absent, distinct⟩ := List.nodup_cons.mp distinct
    rcases List.mem_cons.mp member with rfl | member
    · have tail : l.filter p = l.filter q := List.filter_congr fun z hz => rest z fun e => absent (e ▸ hz)
      simp [new, old, tail]
    · have other : p y = q y := rest y fun e => absent (e ▸ member)
      rw [List.filter_cons, List.filter_cons, other]
      split
      · simp [ih distinct member]
      · exact ih distinct member

/-- A music source that has gained a listener and then gains more, with no source started by these. -/
theorem SourceGains.succ {s u t : State} {m : SourceNo} {n : Nat} (h : SourceGains s u m 1) (k : SourceGains u t m n)
    (segments : t.segments = u.segments) (fault : t.device.segmentFault = u.device.segmentFault) : SourceGains s t m (n + 1) := by
  have current : (u.source m).current = (s.source m).current := by rw [← h.rest]
  have idle : (u.source m).idlePasses = 0 := h.idlePasses.trans (if_neg Nat.one_ne_zero)
  constructor
  · rw [k.listeners, h.listeners]
    omega
  · rw [k.idlePasses, idle, ite_self]
    rfl
  · intro stays
    have stays := stays.resolve_left (Nat.succ_ne_zero n)
    have before : (u.source m).run = (s.source m).run := h.goesOn (.inr stays)
    rw [k.goesOn (.inr (by rwa [before, current])), before]
  · intro p _ stopped holds
    obtain ⟨q, run, begun⟩ := h.starts p Nat.one_ne_zero stopped holds
    refine ⟨q, (k.goesOn (.inr (.inl (by rw [run]; exact Option.some_ne_none q)))).trans run, fun short => ?_⟩
    obtain ⟨v, w, b1, b2, b3, carries, b4, b5⟩ := begun short
    exact ⟨v, w, b1, b2, b3, carries, segments.trans b4, fault.trans b5⟩
  · have first := h.rest
    have later := k.rest
    rw [SourceRec.mk.injEq] at first later ⊢
    obtain ⟨current, staged, -, -, -, limit⟩ := first
    obtain ⟨current', staged', -, -, -, limit'⟩ := later
    exact ⟨current'.trans current, staged'.trans staged, rfl, rfl, rfl, limit'.trans limit⟩


/-- The LISTENs that shelf `y`'s port is handed when the calls of a list are moved to the music `o`. -/
def State.tuneListens (s : State) (o : Option SourceNo) (l : List CallSlot) (y : Shelf) : List Notice :=
  l.filterMap fun c =>
    ((s.call c).filter fun k => k.retunes o && k.owner == y && s.heard k.listen != s.heard (listenTo o)).map fun k =>
      Notice.listen k.tag (s.heard (listenTo o))

/-- The calls of the list `l` have been moved to the music `o`. -/
structure Tuned (s t : State) (o : Option SourceNo) (l : List CallSlot) : Prop where
  listens : ∀ c ∈ l, ∀ k, s.call c = some k → ∃ q, t.call c = some q ∧ q.listen = k.tuned (listenTo o)
  others : ∀ c, c ∉ l → t.call c = s.call c
  gains : ∀ m, o = some m → SourceGains s t m (s.movers o l).length
  quiet : (∀ m, o = some m → s.movers o l = [] ∨ (s.source m).run ≠ none ∨ (s.source m).current = none) →
    t.segments = s.segments ∧ t.device = s.device ∧ t.portS = s.portS
  loses : ∀ m, o ≠ some m → t.source m =
    { s.source m with
      listeners := (s.source m).listeners - ((s.movers o l).filter fun c => (s.call c).any fun k => k.listen == .music m).length }
  notices : l.Nodup → ∀ y : Shelf, (t.port (portOf y)).notices = placed (s.port (portOf y)).notices (s.tuneListens o l y)
  play : PlayMoves (· ∈ l) false s t
  rest : ∃ calls sources segments a b port d,
    t = { s with calls := calls, sources := sources, segments := segments, portA := a, portB := b, portS := port, device := d }

/-- A list with a call in front that changes nothing. -/
theorem Tuned.cons_stays {s t : State} {o : Option SourceNo} {c : CallSlot} {l : List CallSlot} (h : Tuned s t o l)
    (stays : s.moves o c = false) : Tuned s t o (c :: l) := by
  have movers : s.movers o (c :: l) = s.movers o l := by
    refine List.filter_congr fun d _ => ?_
    by_cases same : d = c
    · subst same
      rw [stays, Bool.and_false, Bool.and_false]
    · simp [same]
  constructor
  · intro d hd k call
    by_cases later : d ∈ l
    · exact h.listens d later k call
    · have same : d = c := (List.mem_cons.mp hd).resolve_right later
      subst same
      refine ⟨k, (h.others d later).trans call, ?_⟩
      by_contra differs
      rw [State.moves, call, Option.any_some, (retunes_iff k o).mpr (Ne.symm differs)] at stays
      cases stays
  · exact fun d hd => h.others d fun hl => hd (List.mem_cons_of_mem c hl)
  · rw [movers]
    exact h.gains
  · rw [movers]
    exact h.quiet
  · rw [movers]
    exact h.loses
  · intro distinct y
    rw [h.notices (List.nodup_cons.mp distinct).2 y]
    refine congrArg (placed _) (List.filterMap_cons_none ?_).symm
    cases call : s.call c with
    | none => rfl
    | some k =>
      rw [State.moves, call, Option.any_some] at stays
      simp [stays]
  · exact h.play.mono (fun d hd => List.mem_cons_of_mem c hd) id
  · exact h.rest

/-- A list with a call in front that is moved. -/
theorem Tuned.cons_moves {s t : State} {o : Option SourceNo} {c : CallSlot} {k : CallRec} {l : List CallSlot} (call : s.call c = some k)
    (moves : k.retunes o = true) (h : Tuned (s.tunes c k (listenTo o)) t o l) : Tuned s t o (c :: l) := by
  obtain ⟨q, now, fields, -, -⟩ := tunes_handed call (listenTo o)
  obtain ⟨_, _, _, _, _, _, _, rest⟩ := tunes_rest s c k (listenTo o)
  have others (d : CallSlot) (ne : d ≠ c) : (s.tunes c k (listenTo o)).call d = s.call d :=
    (tunes_play (C := (· = c)) (W := false) s k (listenTo o) rfl).other ne
  have slots : (s.tunes c k (listenTo o)).slotMap = s.slotMap := by rw [rest]
  have source (m : SourceNo) := tunes_source (m := m) call (listenTo o)
  have gains (m : SourceNo) := tunes_gains (m := m) call (listenTo o)
  have quiet := tunes_quiet call (listenTo o)
  have notices := tunes_notices call (listenTo o)
  have play := tunes_play (C := (· ∈ c :: l)) (W := false) s k (listenTo o) List.mem_cons_self
  have free : k.tuned (listenTo o) = listenTo o := retunes_free moves
  have left : k.listen ≠ listenTo o := fun e => (retunes_iff k o).mp moves (free.trans e.symm)
  have listens : q.listen = listenTo o := congrArg CallRec.listen fields
  generalize s.tunes c k (listenTo o) = u at *
  have settled : u.moves o c = false := by
    have still : q.tuned (listenTo o) = q.listen := by
      rw [tuned_free (fun j e => ?_), listens]
      rw [listens] at e
      cases o <;> cases e
    rw [State.moves, now, Option.any_some]
    exact Bool.eq_false_of_not_eq_true fun again => (retunes_iff q o).mp again still
  have moves_other (d : CallSlot) (ne : d ≠ c) : u.moves o d = s.moves o d := by rw [State.moves, State.moves, others d ne]
  have here : s.moves o c = true := by rw [State.moves, call]; exact moves
  have member (d : CallSlot) (ne : d ≠ c) : decide (d ∈ c :: l) = decide (d ∈ l) := by simp [ne]
  have count : (s.movers o (c :: l)).length = (u.movers o l).length + 1 :=
    length_filter_succ (List.nodup_finRange 1024) (List.mem_finRange c) (by simp [here]) (by simp [settled]) fun d ne => by
      rw [member d ne, moves_other d ne]
  have some_moves : s.movers o (c :: l) ≠ [] := fun e => by
    rw [e] at count
    cases count
  have onward (m : SourceNo) (music : o = some m) : (u.source m).run ≠ none ∨ (u.source m).current = none := by
    have gained := gains m (listenTo_music.mpr music) fun e => left (e.trans (listenTo_music.mpr music).symm)
    have current : (u.source m).current = (s.source m).current := by rw [← gained.rest]
    by_cases stays : (s.source m).run ≠ none ∨ (s.source m).current = none
    · rwa [gained.goesOn (.inr stays), current]
    · obtain ⟨stopped, holds⟩ := not_or.mp stays
      obtain ⟨p, holds⟩ := Option.ne_none_iff_exists'.mp holds
      obtain ⟨r, run, -⟩ := gained.starts p Nat.one_ne_zero (not_not.mp stopped) holds
      exact .inl (by rw [run]; exact Option.some_ne_none r)
  obtain ⟨segments, device, port⟩ := h.quiet fun m music => .inr (onward m music)
  constructor
  · intro d hd k' call'
    by_cases same : d = c
    · subst same
      rw [call] at call'
      cases call'
      rw [free]
      by_cases later : d ∈ l
      · obtain ⟨r, after, hears⟩ := h.listens d later q now
        refine ⟨r, after, hears.trans (tuned_free (fun j e => ?_) _)⟩
        rw [listens] at e
        cases o <;> cases e
      · exact ⟨q, (h.others d later).trans now, listens⟩
    · exact h.listens d ((List.mem_cons.mp hd).resolve_left same) k' ((others d same).trans call')
  · intro d hd
    have ne : d ≠ c := fun e => hd (e ▸ List.mem_cons_self)
    exact (h.others d fun hl => hd (List.mem_cons_of_mem c hl)).trans (others d ne)
  · intro m music
    rw [count]
    refine (gains m (listenTo_music.mpr music) fun e => left (e.trans (listenTo_music.mpr music).symm)).succ (h.gains m music) segments ?_
    rw [device]
  · intro stays
    obtain ⟨segments', device', port'⟩ := quiet fun m music _ => (stays m (listenTo_music.mp music)).resolve_left some_moves
    exact ⟨segments.trans segments', device.trans device', port.trans port'⟩
  · intro m music
    have elsewhere : listenTo o ≠ .music m := fun e => music (listenTo_music.mp e)
    have hears_other (d : CallSlot) (ne : d ≠ c) :
        ((u.call d).any fun k => k.listen == .music m) = (s.call d).any fun k => k.listen == .music m := by rw [others d ne]
    have leavers : ((s.movers o (c :: l)).filter fun d => (s.call d).any fun k => k.listen == .music m).length
        = ((u.movers o l).filter fun d => (u.call d).any fun k => k.listen == .music m).length
          + if k.listen = .music m then 1 else 0 := by
      simp only [State.movers, List.filter_filter]
      split
      next hears =>
        refine length_filter_succ (List.nodup_finRange 1024) (List.mem_finRange c) ?_ ?_ fun d ne => ?_
        · rw [call, here, Option.any_some, hears]
          simp
        · rw [settled, Bool.and_false, Bool.and_false]
        · rw [hears_other d ne, member d ne, moves_other d ne]
      next away =>
        rw [Nat.add_zero]
        refine congrArg List.length (List.filter_congr fun d _ => ?_)
        by_cases same : d = c
        · subst same
          rw [settled, Bool.and_false, Bool.and_false, call, Option.any_some, beq_false_of_ne away, Bool.false_and]
        · rw [hears_other d same, member d same, moves_other d same]
    rw [h.loses m music, source m fun e => elsewhere e.1, leavers]
    generalize List.length _ = n
    by_cases hears : k.listen = .music m
    · simp only [hears, elsewhere, ne_eq, not_false_eq_true, and_self, if_true, Nat.sub_sub, Nat.add_comm]
    · simp only [hears, false_and, if_false, Nat.add_zero]
  · intro distinct y
    obtain ⟨absent, distinct⟩ := List.nodup_cons.mp distinct
    rw [h.notices distinct y, notices y, placed_placed]
    refine congrArg (placed _) ?_
    have tail : u.tuneListens o l y = s.tuneListens o l y := by
      refine List.filterMap_congr fun d hd => ?_
      rw [others d fun e => absent (e ▸ hd)]
      simp only [heard_congr slots]
    have head : s.tuneListens o (c :: l) y =
        (if k.owner = y ∧ s.heard (listenTo o) ≠ s.heard k.listen then [.listen k.tag (s.heard (listenTo o))] else [])
          ++ s.tuneListens o l y := by
      unfold State.tuneListens
      rw [List.filterMap_cons, call, Option.filter_some, moves]
      by_cases told : k.owner = y ∧ s.heard (listenTo o) ≠ s.heard k.listen
      · simp [told, Ne.symm told.2]
      · have stays : (true && k.owner == y && s.heard k.listen != s.heard (listenTo o)) = false := by
          refine Bool.eq_false_of_not_eq_true fun tells => told ?_
          simp only [Bool.true_and, Bool.and_eq_true, beq_iff_eq, bne_iff_ne] at tells
          exact ⟨tells.1, Ne.symm tells.2⟩
        rw [if_neg told, stays]
        rfl
    rw [tail, head]
  · exact play.trans (h.play.mono (fun d hd => List.mem_cons_of_mem c hd) id)
  · obtain ⟨_, _, _, _, _, _, _, later⟩ := h.rest
    exact ⟨_, _, _, _, _, _, _, by rw [later, rest]⟩

theorem tuneAll_tuned (o : Option SourceNo) (l : List CallSlot) (s : State) : Tuned s (l.foldl (fun s c => s.tuneTo o c) s) o l := by
  induction l generalizing s with
  | nil =>
    have none_move : s.movers o [] = [] := List.filter_eq_nil_iff.mpr fun c _ => by simp
    refine ⟨nofun, fun _ _ => rfl, fun m _ => ?_, fun _ => ⟨rfl, rfl, rfl⟩, fun m _ => ?_, fun _ y => (placed_nil _).symm, .refl _ _ s,
      ⟨_, _, _, _, _, _, _, rfl⟩⟩
    · rw [none_move]
      exact .none rfl
    · rw [none_move]
      rfl
  | cons c l ih =>
    rw [List.foldl_cons]
    by_cases stays : s.moves o c = false
    · rw [tuneTo_stays stays]
      exact (ih s).cons_stays stays
    · rw [State.moves, Bool.not_eq_false, Option.any_eq_true] at stays
      obtain ⟨k, call, moves⟩ := stays
      have first : s.tuneTo o c = s.tunes c k (listenTo o) := by
        rw [State.tuneTo, call]
        exact congrArg (s.tunes c k) (retunes_free moves)
      rw [first]
      exact .cons_moves call moves (ih _)


end Sys2Proof.Machine

/-! The swap of a group's parameter sets (R35, R36): O29. -/

namespace Sys2Proof.Machine

/-! ### A request's taking and answer -/

/-- Nothing differs but the transaction sides of the ports. -/
structure SameData (s t : State) : Prop where
  rest : t = { s with portA := t.portA, portB := t.portB, portS := t.portS }
  queues : ∀ p, SameQueue s t p

namespace SameData

variable {s t : State}

theorem agents (h : SameData s t) : t.agents = s.agents := by rw [h.rest]
theorem groups (h : SameData s t) : t.groups = s.groups := by rw [h.rest]
theorem calls (h : SameData s t) : t.calls = s.calls := by rw [h.rest]
theorem sources (h : SameData s t) : t.sources = s.sources := by rw [h.rest]
theorem channels (h : SameData s t) : t.channels = s.channels := by rw [h.rest]
theorem segments (h : SameData s t) : t.segments = s.segments := by rw [h.rest]
theorem waitList (h : SameData s t) : t.waitList = s.waitList := by rw [h.rest]
theorem device (h : SameData s t) : t.device = s.device := by rw [h.rest]
theorem callTriggers (h : SameData s t) : t.callTriggers = s.callTriggers := by rw [h.rest]
theorem agentTriggers (h : SameData s t) : t.agentTriggers = s.agentTriggers := by rw [h.rest]
theorem sweepWaiting (h : SameData s t) : t.sweepWaiting = s.sweepWaiting := by rw [h.rest]
theorem agent (h : SameData s t) (a : AgentSlot) : t.agent a = s.agent a := congrArg (Vector.get · a) h.agents
theorem group (h : SameData s t) (g : Group) : t.group g = s.group g := congrArg (Vector.get · g) h.groups
theorem call (h : SameData s t) (c : CallSlot) : t.call c = s.call c := congrArg (Vector.get · c) h.calls
theorem source (h : SameData s t) (m : SourceNo) : t.source m = s.source m := congrArg (Vector.get · m) h.sources
theorem notices (h : SameData s t) (p : Port) : (t.port p).notices = (s.port p).notices := (h.queues p).1

theorem base (h : SameData s t) : SameBase s t := by
  rw [h.rest]
  constructor <;> rfl

theorem symm (h : SameData s t) : SameData t s where
  rest := by rw [h.rest]
  queues p := ⟨(h.queues p).1.symm, (h.queues p).2.symm⟩

end SameData

theorem taken_data (s : State) (p : Port) (body : List Byte) : SameData s (s.taken p body) :=
  ⟨by cases p <;> rfl, fun _ => ⟨taken_notices .., taken_owed ..⟩⟩

theorem answer_data (p : Port) (r : Reply) : SameData r.state (State.answer p r) :=
  ⟨by cases p <;> rfl, fun _ => ⟨answer_notices .., answer_owed ..⟩⟩

theorem SameBase.refl (s : State) : SameBase s s := by constructor <;> rfl

theorem SameBase.trans {s t u : State} (h : SameBase s t) (k : SameBase t u) : SameBase s u where
  clock := k.clock.trans h.clock
  seqCounter := k.seqCounter.trans h.seqCounter
  lines := k.lines.trans h.lines
  seed := k.seed.trans h.seed
  taps := k.taps.trans h.taps
  generator := k.generator.trans h.generator
  ram := k.ram.trans h.ram
  programs := k.programs.trans h.programs
  vocab := k.vocab.trans h.vocab
  slotMap := k.slotMap.trans h.slotMap
  idleModes := k.idleModes.trans h.idleModes
  idleByte := k.idleByte.trans h.idleByte
  highway := k.highway.trans h.highway
  free := k.free.trans h.free
  pending := k.pending.trans h.pending

theorem SourceGains.request {s u v t : State} {m : SourceNo} {n : Nat} (h : SourceGains u v m n) (before : SameData s u)
    (after : SameData v t) : SourceGains s t m n :=
  h.congr (before.source m).symm before.base.programs.symm before.segments.symm (by rw [before.device]) (after.source m) after.segments
    (by rw [after.device])

theorem WatchSide.request {s u v t : State} (h : WatchSide u v) (before : SameData s u) (after : SameData v t) : WatchSide s t :=
  h.congr (before.queues .s) before.device (after.queues .s) after.device

theorem StartsNone.request {s u v t : State} (h : StartsNone u v) (before : SameData s u) (after : SameData v t) : StartsNone s t :=
  ⟨after.segments.trans (h.1.trans before.segments), h.2.request before after⟩

theorem SameQueue.trans {s t u : State} {p : Port} (h : SameQueue s t p) (k : SameQueue t u p) : SameQueue s u p :=
  ⟨k.1.trans h.1, k.2.trans h.2⟩

/-! ### The swap, step by step (R36) -/

section
variable (s : State) (g : Group)

/-- Group `g`'s staged set has become its active set. -/
def State.swapped : State := s.setGroup g { s.group g with active := (s.group g).staged, swapPending := false }

/-- DEPTH and WAIT have been evaluated under the set that a swap has made active. -/
def State.swapEvaluated : State := ((s.swapped g).evalDepth g).evalWait g

/-- Where a swap brings other music, the calls of the queue have been moved to it. -/
def State.swapTuned : State :=
  if (s.group g).active.music = (s.group g).staged.music then s.swapEvaluated g
  else (s.group g).queue.foldl (fun s c => s.tuneTo (s.group g).active.music c) (s.swapEvaluated g)

theorem swapped_group : (s.swapped g).group g = { s.group g with active := (s.group g).staged, swapPending := false } :=
  State.setGroup_group_self ..

theorem swapped_other {h : Group} (ne : h ≠ g) : (s.swapped g).group h = s.group h := State.setGroup_group_of_ne _ _ ne

theorem swapEvaluated_rest : ∃ groups q d, s.swapEvaluated g = { s with groups := groups, portS := q, device := d } := by
  obtain ⟨_, _, _, depth⟩ := evalCondition_rest (s.swapped g) g .depth ((s.swapped g).depthCondition g)
  obtain ⟨groups, q, d, wait⟩ := evalCondition_rest ((s.swapped g).evalDepth g) g .wait (((s.swapped g).evalDepth g).waitCondition g)
  refine ⟨groups, q, d, ?_⟩
  rw [State.swapEvaluated, State.evalWait, wait, State.evalDepth, depth, State.swapped]
  rfl

theorem swapEvaluated_side : WatchSide s (s.swapEvaluated g) := by
  have side := (evalCondition_side (s.swapped g) g .depth ((s.swapped g).depthCondition g)).trans
    (evalCondition_side ((s.swapped g).evalDepth g) g .wait (((s.swapped g).evalDepth g).waitCondition g))
  exact side.congr ⟨rfl, rfl⟩ rfl ⟨rfl, rfl⟩ rfl

/-- Group `g`'s record after a swap. -/
theorem swapEvaluated_group : (s.swapEvaluated g).group g = (s.swapped g).depthWaitEvaluated g := by
  rw [State.swapEvaluated, evalDepthWait_group, if_pos rfl]

theorem swapEvaluated_other {h : Group} (ne : h ≠ g) : (s.swapEvaluated g).group h = s.group h := by
  rw [State.swapEvaluated, evalDepthWait_group, if_neg ne, swapped_other s g ne]

theorem performSwap_eq : s.performSwap g = (s.swapTuned g).raiseSweep := by
  have queue : (s.swapEvaluated g).moveListeners g
      = (s.group g).queue.foldl (fun s c => s.tuneTo (s.group g).active.music c) (s.swapEvaluated g) := by
    rw [moveListeners_eq, swapEvaluated_group, State.depthWaitEvaluated, swapped_group]
  rw [State.swapTuned, ← queue]
  rfl

/-- The music that a swap brings: what it leaves alone where the music stays, and the calls that it moves where it changes. -/
theorem swapTuned_tuned (changes : (s.group g).active.music ≠ (s.group g).staged.music) :
    Tuned (s.swapEvaluated g) (s.swapTuned g) (s.group g).staged.music (s.group g).queue := by
  have music : ((s.swapEvaluated g).group g).active.music = (s.group g).staged.music := by
    rw [swapEvaluated_group, State.depthWaitEvaluated, swapped_group]
  rw [State.swapTuned, if_neg changes, tuneAll_fixed g _ _ _ music]
  exact tuneAll_tuned ..

theorem swapTuned_same (stays : (s.group g).active.music = (s.group g).staged.music) : s.swapTuned g = s.swapEvaluated g :=
  if_pos stays

/-- A swap touches groups, what calls hear, the sources, segments, the ports' queues and the device record. -/
theorem swapTuned_rest : ∃ groups calls sources segments a b port d, s.swapTuned g =
    { s with
      groups := groups, calls := calls, sources := sources, segments := segments, portA := a, portB := b, portS := port,
      device := d } := by
  obtain ⟨_, _, _, rest⟩ := swapEvaluated_rest s g
  by_cases stays : (s.group g).active.music = (s.group g).staged.music
  · rw [swapTuned_same s g stays, rest]
    exact ⟨_, _, _, _, _, _, _, _, rfl⟩
  · obtain ⟨_, _, _, _, _, _, _, later⟩ := (swapTuned_tuned s g stays).rest
    rw [later, rest]
    exact ⟨_, _, _, _, _, _, _, _, rfl⟩

theorem swapTuned_play {C : CallSlot → Prop} (members : ∀ c ∈ (s.group g).queue, C c) :
    PlayMoves C false (s.swapEvaluated g) (s.swapTuned g) := by
  by_cases stays : (s.group g).active.music = (s.group g).staged.music
  · rw [swapTuned_same s g stays]
  · exact (swapTuned_tuned s g stays).play.mono members id

theorem swapTuned_group (h : Group) : (s.swapTuned g).group h =
    if h = g then (s.swapped g).depthWaitEvaluated g else s.group h := by
  have groups := (swapTuned_play s g (C := fun _ => True) fun _ _ => trivial).off.groups
  refine (congrArg (Vector.get · h) groups).trans ?_
  split
  next same =>
    subst same
    exact swapEvaluated_group s h
  next ne => exact swapEvaluated_other s g ne

end


/-! ### GROUP_SWAP (R35) -/

theorem movers_congr {s t : State} (calls : t.calls = s.calls) (o : Option SourceNo) (l : List CallSlot) : t.movers o l = s.movers o l := by
  have call (c : CallSlot) : t.call c = s.call c := congrArg (Vector.get · c) calls
  simp only [State.movers, State.moves, call]

theorem tuneListens_congr {s t : State} (calls : t.calls = s.calls) (slots : t.slotMap = s.slotMap) (o : Option SourceNo)
    (l : List CallSlot) (y : Shelf) : t.tuneListens o l y = s.tuneListens o l y := by
  have call (c : CallSlot) : t.call c = s.call c := congrArg (Vector.get · c) calls
  simp only [State.tuneListens, call, heard_congr slots]

theorem swapListens_eq (s : State) (g : Group) (y : Shelf) : s.swapListens g y =
    if (s.group g).active.music = (s.group g).staged.music then []
    else s.tuneListens (s.group g).staged.music (s.group g).queue y := rfl

/-- The swap of a group's set: every record and notice that follows from it. -/
structure SwapFollows (s t : State) (g : Group) : Prop where
  stays : (s.group g).active.music = (s.group g).staged.music →
    t.calls = s.calls ∧ t.sources = s.sources ∧ StartsNone s t ∧ ∀ y : Shelf, SameQueue s t (portOf y)
  listens : (s.group g).active.music ≠ (s.group g).staged.music → ∀ c ∈ (s.group g).queue, ∀ k, s.call c = some k →
    ∃ q, t.call c = some q ∧ q.listen = k.tuned (listenTo (s.group g).staged.music)
  others : ∀ c, c ∉ (s.group g).queue → t.call c = s.call c
  off : ∀ c, (t.call c).map CallRec.offPlayout = (s.call c).map CallRec.offPlayout
  gains : (s.group g).active.music ≠ (s.group g).staged.music → ∀ m, (s.group g).staged.music = some m →
    SourceGains s t m (s.movers (s.group g).staged.music (s.group g).queue).length
  quiet : (s.group g).active.music ≠ (s.group g).staged.music →
    (∀ m, (s.group g).staged.music = some m →
      s.movers (s.group g).staged.music (s.group g).queue = [] ∨ (s.source m).run ≠ none ∨ (s.source m).current = none) →
    StartsNone s t
  loses : (s.group g).active.music ≠ (s.group g).staged.music → ∀ m, (s.group g).staged.music ≠ some m → t.source m =
    { s.source m with
      listeners := (s.source m).listeners
        - ((s.movers (s.group g).staged.music (s.group g).queue).filter fun c =>
            (s.call c).any fun k => k.listen == .music m).length }
  notices : (s.group g).queue.Nodup → ∀ y : Shelf,
    (t.port (portOf y)).notices = placed (s.port (portOf y)).notices (s.swapListens g y)

theorem swapTuned_follows (s : State) (g : Group) : SwapFollows s (s.swapTuned g) g := by
  obtain ⟨_, _, _, rest⟩ := swapEvaluated_rest s g
  have side := swapEvaluated_side s g
  have off := (swapTuned_play s g (C := fun _ => True) fun _ _ => trivial).off.calls
  have tuned := swapTuned_tuned s g
  have same := swapTuned_same s g
  generalize s.swapEvaluated g = v at *
  generalize s.swapTuned g = t at *
  have calls : v.calls = s.calls := by rw [rest]
  have call (c : CallSlot) : v.call c = s.call c := congrArg (Vector.get · c) calls
  have sources (m : SourceNo) : v.source m = s.source m := by rw [rest]; rfl
  have queues (y : Shelf) : SameQueue s v (portOf y) := by
    rw [rest]
    cases y <;> exact ⟨rfl, rfl⟩
  have movers := movers_congr (t := v) calls (s.group g).staged.music (s.group g).queue
  constructor
  · intro stays
    rw [same stays]
    exact ⟨calls, by rw [rest], ⟨by rw [rest], side⟩, queues⟩
  · intro changes c hc k call'
    exact (tuned changes).listens c hc k ((call c).trans call')
  · intro c hc
    by_cases stays : (s.group g).active.music = (s.group g).staged.music
    · rw [same stays, call]
    · rw [(tuned stays).others c hc, call]
  · intro c
    rw [off, call]
  · intro changes m music
    have gained := (tuned changes).gains m music
    have fault : v.device.segmentFault = s.device.segmentFault := (congrArg DeviceRec.segmentFault side.device :)
    rw [movers] at gained
    exact gained.congr (sources m).symm (by rw [rest]) (by rw [rest]) fault.symm rfl rfl rfl
  · intro changes quiet
    obtain ⟨segments, device, port⟩ := (tuned changes).quiet (by simpa only [movers, sources] using quiet)
    have portS : SameQueue v t .s := by
      rw [SameQueue, show t.port .s = v.port .s from port]
      exact ⟨rfl, rfl⟩
    exact ⟨segments.trans (by rw [rest]), side.congr ⟨rfl, rfl⟩ rfl portS device⟩
  · intro changes m music
    have lost := (tuned changes).loses m music
    simp only [movers, call, sources] at lost
    exact lost
  · intro distinct y
    rw [swapListens_eq]
    by_cases stays : (s.group g).active.music = (s.group g).staged.music
    · rw [if_pos stays, same stays, placed_nil]
      exact (queues y).1
    · rw [if_neg stays, (tuned stays).notices distinct y, (queues y).1, tuneListens_congr calls (by rw [rest])]


theorem swapListens_congr {s t : State} (groups : t.groups = s.groups) (calls : t.calls = s.calls) (slots : t.slotMap = s.slotMap)
    (g : Group) (y : Shelf) : t.swapListens g y = s.swapListens g y := by
  have group : t.group g = s.group g := congrArg (Vector.get · g) groups
  rw [swapListens_eq, swapListens_eq, group, tuneListens_congr calls slots]

/-- A sweep raised changes none of what follows from a swap. -/
theorem SwapFollows.raiseSweep {s t : State} {g : Group} (h : SwapFollows s t g) : SwapFollows s t.raiseSweep g where
  stays same := by
    obtain ⟨calls, sources, ⟨segments, side⟩, queues⟩ := h.stays same
    exact ⟨calls, sources, ⟨segments, side.congr ⟨rfl, rfl⟩ rfl ⟨rfl, rfl⟩ rfl⟩, queues⟩
  listens := h.listens
  others := h.others
  off := h.off
  gains changes m music := (h.gains changes m music).congr rfl rfl rfl rfl rfl rfl rfl
  quiet changes stays := by
    obtain ⟨segments, side⟩ := h.quiet changes stays
    exact ⟨segments, side.congr ⟨rfl, rfl⟩ rfl ⟨rfl, rfl⟩ rfl⟩
  loses := h.loses
  notices := h.notices

theorem SwapFollows.request {s u v t : State} {g : Group} (h : SwapFollows u v g) (before : SameData s u) (after : SameData v t) :
    SwapFollows s t g := by
  have movers := movers_congr before.calls (s.group g).staged.music (s.group g).queue
  obtain ⟨stays, listens, others, off, gains, quiet, loses, notices⟩ := h
  simp only [before.group, before.call, before.source, before.notices, movers,
    swapListens_congr before.groups before.calls before.base.slotMap] at *
  constructor
  · intro same
    obtain ⟨calls, sources, starts, queues⟩ := stays same
    exact ⟨after.calls.trans (calls.trans before.calls), after.sources.trans (sources.trans before.sources),
      starts.request before after, fun y => ((before.queues _).trans (queues y)).trans (after.queues _)⟩
  · simpa only [after.call] using listens
  · simpa only [after.call] using others
  · simpa only [after.call] using off
  · exact fun changes m music => (gains changes m music).request before after
  · exact fun changes stays => (quiet changes stays).request before after
  · simpa only [after.source] using loses
  · simpa only [after.notices] using notices

/-- A group neither swap-pending nor with an offer in progress swaps at once. -/
theorem groupSwap_swaps {s : State} {ps : List Byte} {g : Group} (named : u8 ps 0 = g.val) (waits : (s.group g).swapPending = false)
    (quiet : (s.group g).offers = 0) : actGroupSwap ps s = .ok (s.swapTuned g).raiseSweep := by
  rw [actGroupSwap, asGroup_val named, ← performSwap_eq]
  simp only [waits, quiet, Bool.false_eq_true, if_false, if_true]

/-- What a swap leaves alone. -/
theorem swapTuned_frame (s : State) (g : Group) :
    (s.swapTuned g).agents = s.agents ∧ (s.swapTuned g).callTriggers = s.callTriggers
      ∧ (s.swapTuned g).agentTriggers = s.agentTriggers ∧ (s.swapTuned g).waitList = s.waitList
      ∧ (s.swapTuned g).channels = s.channels ∧ SameBase s (s.swapTuned g).raiseSweep := by
  obtain ⟨_, _, _, _, _, _, _, _, rest⟩ := swapTuned_rest s g
  rw [rest]
  refine ⟨rfl, rfl, rfl, rfl, rfl, ?_⟩
  constructor <;> rfl

/-- Group `g`'s record after a swap. -/
def State.swappedGroup (s : State) (g : Group) : GroupRec :=
  let r := s.group g
  let depth := r.staged.depthThreshold != 0 && decide (r.staged.depthThreshold ≤ r.queue.length)
  let wait := r.staged.waitObjective != 0 && !r.queue.isEmpty && decide (r.staged.waitObjective ≤ s.longestWait g)
  { r with
    active := r.staged
    swapPending := false
    conditions := { r.conditions with depth := depth, wait := wait }
    flags :=
      { r.flags with
        depth := r.flags.depth || (depth && !r.conditions.depth)
        wait := r.flags.wait || (wait && !r.conditions.wait) } }

theorem swapTuned_record (s : State) (g h : Group) : (s.swapTuned g).group h = if h = g then s.swappedGroup g else s.group h := by
  have longest : (s.swapped g).longestWait g = s.longestWait g := by
    rw [longestWait_eq, longestWait_eq, swapped_group]
    rfl
  rw [swapTuned_group, State.depthWaitEvaluated, State.depthHolds, State.waitHolds, longest, swapped_group]
  rfl

theorem swappedGroup_congr {s t : State} (same : SameData s t) (g : Group) : t.swappedGroup g = s.swappedGroup g := by
  have longest : t.longestWait g = s.longestWait g := by
    rw [longestWait_eq, longestWait_eq, same.group, same.base.clock]
    simp only [same.call]
  rw [State.swappedGroup, State.swappedGroup, same.group, longest]

/-- Settles O29: the swap is the set made active and the two conditions evaluated, then the calls of the queue moved one after another. -/
theorem groupSwapWaitsForTheQuietPoint : Obligations.GroupSwapWaitsForTheQuietPoint := by
  unfold Obligations.GroupSwapWaitsForTheQuietPoint
  intro s ps h
  refine ⟨fun out => exec_refused h (asGroup_of_le out _ _), fun g named => ?_⟩
  intro r depth wait
  have act (v : State) : actOf .groupSwap .s ps v = actGroupSwap ps v := rfl
  refine ⟨fun pending => ?_, fun idle offers => ?_, fun idle quiet => ?_⟩
  · refine exec_refused h ?_
    rw [act, actGroupSwap, asGroup_val named, taken_group]
    exact if_pos pending
  · change exec (Kind.groupSwap.command .s (frame ps)) s = _
    rw [exec_taken h, act, actGroupSwap, asGroup_val named]
    simp only [taken_group, show (s.group g).swapPending = false from idle, Bool.false_eq_true, if_false,
      show ¬(s.group g).offers = 0 from offers]
    exact congrArg _ (answer_setGroup ..)
  · have before := taken_data s .s (frame ps)
    have acts := (act _).trans (groupSwap_swaps (s := s.taken .s (frame ps)) named (by rw [before.group]; exact idle)
      (by rw [before.group]; exact quiet))
    obtain ⟨taken, answered, others⟩ := exec_answers h
    have after := answer_data .s (.ok ((s.taken .s (frame ps)).swapTuned g).raiseSweep)
    rw [acts] at taken answered others
    have follows := (swapTuned_follows (s.taken .s (frame ps)) g).raiseSweep.request before after
    obtain ⟨agents, callTriggers, agentTriggers, waitList, channels, base⟩ := swapTuned_frame (s.taken .s (frame ps)) g
    have group (h : Group) : (State.answer .s (.ok ((s.taken .s (frame ps)).swapTuned g).raiseSweep)).group h
        = if h = g then s.swappedGroup g else s.group h := by
      rw [← before.group h, ← swappedGroup_congr before]
      exact (after.group h).trans (swapTuned_record ..)
    have base := (before.base.trans base).trans after.base
    refine ⟨_, taken, answered, others, (group g).trans (if_pos rfl), fun h ne => (group h).trans (if_neg ne), follows.off,
      fun same => (follows.stays same).1, fun changes c hc k call => ?_, follows.others, fun same => (follows.stays same).2,
      fun changes => ⟨follows.gains changes, follows.quiet changes, follows.loses changes, follows.notices⟩, ?_, ?_, ?_, ?_, ?_, ?_, base⟩
    · obtain ⟨q, now, listens⟩ := follows.listens changes c hc k call
      refine ⟨q, now, listens.trans ?_⟩
      unfold CallRec.tuned listenTo
      cases k.listen <;> rfl
    · exact after.agents.trans (agents.trans before.agents)
    · exact after.callTriggers.trans (callTriggers.trans before.callTriggers)
    · exact after.agentTriggers.trans (agentTriggers.trans before.agentTriggers)
    · exact after.sweepWaiting
    · exact after.waitList.trans (waitList.trans before.waitList)
    · exact after.channels.trans (channels.trans before.channels)

end Sys2Proof.Machine

/-! The overflow move (R69) and the overflow-wait expiry (R68): O37. -/

namespace Sys2Proof.Machine

/-! ### The flags of the watch conditions (R46) -/

theorem FlagsFollow.refl (s : State) : FlagsFollow s s := by
  intro g
  simp only [Bool.or_eq_true, Bool.and_eq_true, Bool.not_eq_true']
  refine ⟨?_, ?_, ?_⟩ <;>
  · rintro (h | ⟨h, k⟩)
    · exact h
    · rw [k] at h
      cases h

/-- A rise from `a` to `c` has come with one from `a` to `b` or from `b` to `c`. -/
theorem rises_trans {a b c f g h : Bool} (first : (f || (b && !a)) = true → g = true) (later : (g || (c && !b)) = true → h = true) :
    (f || (c && !a)) = true → h = true := by
  cases a <;> cases b <;> cases c <;> cases f <;> cases g <;> cases h <;> simp at first later ⊢

theorem FlagsFollow.trans {s t u : State} (h : FlagsFollow s t) (k : FlagsFollow t u) : FlagsFollow s u := by
  intro g
  obtain ⟨depth, wait, noStaff⟩ := h g
  obtain ⟨depth', wait', noStaff'⟩ := k g
  exact ⟨rises_trans depth depth', rises_trans wait wait', rises_trans noStaff noStaff'⟩

/-- Flags follow where each group has been left alone or its three conditions have been evaluated. -/
theorem FlagsFollow.of_evaluated {s t : State}
    (h : ∀ g, ((t.group g).flags = (s.group g).flags ∧ (t.group g).conditions = (s.group g).conditions) ∨ QueueEvaluated s t g) :
    FlagsFollow s t := by
  intro g
  rcases h g with ⟨flags, conditions⟩ | ⟨conditions, flags⟩
  · have := FlagsFollow.refl s g
    rwa [flags, conditions]
  · rw [flags, conditions]
    exact ⟨id, id, id⟩

/-! ### The move, step by step -/

theorem overflowGroup_eq {s : State} {r : CallRec} (queued : r.state = .queued) : s.overflowGroup r = s.overflowTo r := by
  unfold State.overflowGroup State.overflowTo
  rw [queued]
  cases (s.group r.group).active.overflowTarget with
  | none => rfl
  | some g =>
    rw [Option.filter_some]
    rfl

theorem tryOverflow_stays {s : State} {c : CallSlot} {r : CallRec} (call : s.call c = some r) (queued : r.state = .queued)
    (none : s.overflowTo r = none) : s.tryOverflow c = s := by
  unfold State.tryOverflow
  rw [call]
  dsimp only
  rw [overflowGroup_eq queued, none]

/-- A moving call's record between its queues. -/
def CallRec.hopped (r : CallRec) : CallRec := { r with hops := r.hops + 1, noAnswers := 0, pendingOverflow := false }

/-- Call `c`, of record `r`, has left its queue for group `g`'s: the hop is counted in its record and at both groups. -/
def State.hopped (s : State) (c : CallSlot) (r : CallRec) (g : Group) : State :=
  ((s.leaveQueue c r.group).putCall c (some r.hopped)).countMove r.group g

/-- Call `c`, of record `r`, has moved to group `g`'s queue; what it hears is to follow. -/
def State.overflows (s : State) (c : CallSlot) (r : CallRec) (g : Group) : State := (s.hopped c r g).join c g

theorem tryOverflow_moves_to {s : State} {c : CallSlot} {r : CallRec} {g : Group} (call : s.call c = some r) (queued : r.state = .queued)
    (target : s.overflowTo r = some g) : s.tryOverflow c = (s.overflows c r g).moveMusic g c := by
  have left : (s.leaveQueue c r.group).call c = some r := (leaveQueue_call ..).trans call
  unfold State.tryOverflow
  rw [call]
  dsimp only
  rw [overflowGroup_eq queued, target]
  dsimp only
  rw [modCall_some left]
  rfl

theorem joined_congr {s t : State} {g : Group} (active : (t.group g).active = (s.group g).active) (clock : t.clock = s.clock)
    (r : CallRec) : r.joined t g = r.joined s g := by
  simp only [CallRec.joined, active, clock]

theorem afterMove_other {q : Stats} {f h : Group} {o : Option Group} (leaves : h ≠ f) (joins : o ≠ some h) : q.afterMove f h o = q := by
  have leaves' : (h == f) = false := beq_false_of_ne leaves
  have joins' : (o == some h) = false := beq_false_of_ne joins
  simp only [Stats.afterMove, leaves', joins', Bool.and_false, Bool.false_eq_true, if_false]

section
variable (s : State) (c : CallSlot) (r : CallRec) (g : Group)

theorem hopped_rest : ∃ groups q d, s.hopped c r g =
    { s with calls := (s.putCall c (some r.hopped)).calls, groups := groups, portS := q, device := d } := by
  obtain ⟨groups, q, d, left⟩ := leaveQueue_rest s c r.group
  rw [State.hopped, left]
  exact ⟨_, q, d, rfl⟩

theorem hopped_call (d : CallSlot) : (s.hopped c r g).call d = if d = c then some r.hopped else s.call d := by
  obtain ⟨_, _, _, rest⟩ := hopped_rest s c r g
  rw [rest]
  exact State.putCall_call ..

theorem hopped_side : WatchSide s (s.hopped c r g) := by
  have side := leaveQueue_side s c r.group
  unfold State.hopped
  generalize s.leaveQueue c r.group = v at side ⊢
  exact side.congr ⟨rfl, rfl⟩ rfl ⟨rfl, rfl⟩ rfl

/-- Every group's statistics are those after the move, and of the group left the queue, the flags and the conditions differ too. -/
theorem hopped_group (h : Group) : (s.hopped c r g).group h =
    { (s.leaveQueue c r.group).group h with stats := (s.group h).stats.afterMove r.group h (some g) } := by
  have stats : ((s.leaveQueue c r.group).group h).stats = (s.group h).stats := by
    by_cases same : h = r.group
    · rw [same, leaveQueue_group]
    · rw [leaveQueue_other s c r.group same]
  refine (countMove_group ..).trans ?_
  rw [← stats]
  rfl

theorem hopped_active (h : Group) : ((s.hopped c r g).group h).active = (s.group h).active := by
  rw [hopped_group]
  by_cases same : h = r.group
  · rw [same, leaveQueue_group]
  · rw [leaveQueue_other s c r.group same]

theorem hopped_queue_other {h : Group} (ne : h ≠ r.group) : ((s.hopped c r g).group h).queue = (s.group h).queue := by
  rw [hopped_group, leaveQueue_other s c r.group ne]

end

/-- Call `c`, of record `r`, has moved from its group to group `g` and stands in its queue. -/
structure Overflows (s t : State) (c : CallSlot) (r : CallRec) (g : Group) : Prop where
  call : t.call c = some (r.overflowed s (some g))
  others : ∀ d, d ≠ c → t.call d = s.call d
  stats : ∀ h, (t.group h).stats = (s.group h).stats.afterMove r.group h (some g)
  elsewhere : ∀ h, h ≠ g → h ≠ r.group → t.group h = s.group h
  kept : ∀ h,
    { t.group h with
      stats := (s.group h).stats, queue := (s.group h).queue, conditions := (s.group h).conditions,
      flags := (s.group h).flags } = s.group h
  joins : c ∈ (t.group g).queue
  leaves : g ≠ r.group → (t.group r.group).queue = (s.group r.group).queue.filter (· != c)
  evaluated : QueueEvaluated s t g ∨ g = r.group
  evaluated_left : g ≠ r.group → QueueEvaluated s t r.group
  evaluated_last : (t.group g).conditions = { depth := t.depthHolds g, wait := t.waitHolds g, noStaff := t.noStaffHolds g }
  flags : FlagsFollow s t
  place : g ≠ r.group → c ∉ (s.group g).queue →
    ∃ l m, (s.group g).queue = l ++ m ∧ (t.group g).queue = l ++ c :: m
      ∧ (∀ d ∈ l, ∀ k, s.call d = some k →
        ¬((r.overflowed s (some g)).key < k.key ∨ ((r.overflowed s (some g)).key = k.key ∧ (r.overflowed s (some g)).seq < k.seq)))
      ∧ ∀ d ∈ m.head?, ∃ k, s.call d = some k ∧
        ((r.overflowed s (some g)).key < k.key ∨ ((r.overflowed s (some g)).key = k.key ∧ (r.overflowed s (some g)).seq < k.seq))
  side : WatchSide s t
  rest : ∃ calls groups q d, t = { s with
    calls := calls, groups := groups, portS := q, device := d
    callTriggers := if c ∈ s.callTriggers then s.callTriggers else s.callTriggers ++ [c] }

theorem overflows_follows (s : State) (c : CallSlot) (r : CallRec) (g : Group) : Overflows s (s.overflows c r g) c r g := by
  have call := (hopped_call s c r g c).trans (if_pos rfl)
  have hopped_other (d : CallSlot) (ne : d ≠ c) : (s.hopped c r g).call d = s.call d := (hopped_call s c r g d).trans (if_neg ne)
  obtain ⟨_, _, _, rest⟩ := hopped_rest s c r g
  have record : r.hopped.joined (s.hopped c r g) g = r.overflowed s (some g) :=
    joined_congr (hopped_active s c r g g) (by rw [rest]) r.hopped
  have group := hopped_group s c r g
  have left_group := leaveQueue_group s c r.group
  have left_other (h : Group) (ne : h ≠ r.group) := leaveQueue_other s c r.group ne
  have left_evaluated := leaveQueue_evaluated s c r.group
  obtain ⟨_, _, _, left_rest⟩ := leaveQueue_rest s c r.group
  have side := (hopped_side s c r g).trans (join_side call g)
  obtain ⟨_, _, _, join_rest⟩ := join_rest call g
  have join_call := join_call call g
  have join_group := join_group call g
  have join_other (h : Group) (ne : h ≠ g) := join_other call g ne
  have join_evaluated := join_evaluated call g
  have member := mem_join call g
  have split := join_split call g
  unfold State.overflows
  rw [record] at *
  generalize s.leaveQueue c r.group = v at *
  generalize s.hopped c r g = u at *
  generalize u.join c g = t at *
  have left_follows : FlagsFollow s v := .of_evaluated fun h => by
    by_cases same : h = r.group
    · exact .inr (same ▸ left_evaluated)
    · exact .inl (by rw [left_other h same]; exact ⟨rfl, rfl⟩)
  have hop_follows : FlagsFollow v u := .of_evaluated fun h => .inl (by rw [group h]; exact ⟨rfl, rfl⟩)
  have join_follows : FlagsFollow u t := .of_evaluated fun h => by
    by_cases same : h = g
    · exact .inr (same ▸ join_evaluated)
    · exact .inl (by rw [join_other h same]; exact ⟨rfl, rfl⟩)
  have kept (h : Group) : { t.group h with
      stats := (s.group h).stats, queue := (s.group h).queue, conditions := (s.group h).conditions,
      flags := (s.group h).flags } = s.group h := by
    have last : ∃ q conditions flags, t.group h = { u.group h with queue := q, conditions := conditions, flags := flags } := by
      by_cases same : h = g
      · exact ⟨_, _, _, same ▸ join_group⟩
      · exact ⟨_, _, _, join_other h same⟩
    have first : ∃ q conditions flags, v.group h = { s.group h with queue := q, conditions := conditions, flags := flags } := by
      by_cases same : h = r.group
      · exact ⟨_, _, _, same ▸ left_group⟩
      · exact ⟨_, _, _, left_other h same⟩
    obtain ⟨_, _, _, last⟩ := last
    obtain ⟨_, _, _, first⟩ := first
    rw [last, group, first]
  constructor
  · exact (join_call c).trans (if_pos rfl)
  · exact fun d ne => (join_call d).trans ((if_neg ne).trans (hopped_other d ne))
  · intro h
    by_cases same : h = g
    · subst same
      rw [join_group, group]
    · rw [join_other h same, group]
  · intro h joins leaves
    rw [join_other h joins, group, left_other h leaves, afterMove_other leaves fun e => joins (Option.some.inj e).symm]
  · exact kept
  · exact member
  · intro moves
    rw [join_other _ (Ne.symm moves), group, left_group]
  · by_cases moves : g = r.group
    · exact .inr moves
    · exact .inl (join_evaluated.congr (by rw [group, left_other g moves]) (by rw [group, left_other g moves]) ⟨rfl, rfl, rfl, rfl, fun _ _ => rfl⟩ rfl rfl)
  · intro moves
    have away : t.group r.group = { v.group r.group with stats := (s.group r.group).stats.afterMove r.group r.group (some g) } :=
      (join_other _ (Ne.symm moves)).trans (group _)
    refine left_evaluated.congr rfl rfl ⟨by rw [away], by rw [away], by rw [away], by rw [join_rest, rest, left_rest], fun d hd => ?_⟩
      (by rw [away]) (by rw [away])
    rw [left_group] at hd
    have ne : d ≠ c := by simpa using (List.mem_filter.mp hd).2
    rw [join_call d, if_neg ne, hopped_other d ne, left_rest]
    rfl
  · exact join_evaluated.conditions
  · exact (left_follows.trans hop_follows).trans join_follows
  · intro moves absent
    have queue : (u.group g).queue = (s.group g).queue := by rw [group, left_other g moves]
    obtain ⟨l, m, at_, joined, behind, ahead⟩ := split
    rw [queue] at at_
    refine ⟨l, m, at_, joined, fun d hd k hk => ?_, fun d hd => ?_⟩
    · have ne : d ≠ c := fun e => absent (at_ ▸ List.mem_append_left m (e ▸ hd))
      exact behind d hd ne k (by rw [hopped_other d ne, hk])
    · obtain ⟨ne, k, hk, before⟩ := ahead d hd
      rw [hopped_other d ne] at hk
      exact ⟨k, hk, before⟩
  · exact side
  · rw [join_rest, rest]
    exact ⟨_, _, _, _, rfl⟩


/-! ### What the moved call hears (R69, step 6) -/

theorem tryOverflow_tunes {s : State} {c : CallSlot} {r : CallRec} {g : Group} (call : s.call c = some r) (queued : r.state = .queued)
    (target : s.overflowTo r = some g) : s.tryOverflow c =
      (s.overflows c r g).tunes c (r.overflowed s (some g)) (r.tuned (s.groupMusic g)) := by
  have follows := overflows_follows s c r g
  have active : ((s.overflows c r g).group g).active = (s.group g).active := by
    rw [← follows.kept g]
  rw [tryOverflow_moves_to call queued target, moveMusic_eq follows.call, groupMusic_eq, active]
  rfl

/-- The LISTEN of a move, as the ports of the shelves get it. -/
theorem moveListens_eq (s : State) (r : CallRec) (g : Group) (y : Shelf) : s.moveListens r g y =
    if r.owner = y ∧ s.heard (r.tuned (s.groupMusic g)) ≠ s.heard r.listen then
      [.listen r.tag (s.heard (r.tuned (s.groupMusic g)))] else [] := by
  unfold State.moveListens
  dsimp only
  rw [groupMusic_eq]
  by_cases moves : r.retunes (s.group g).active.music = true
  · rw [moves, retunes_free moves]
    simp only [Bool.true_and, Bool.and_eq_true, beq_iff_eq, bne_iff_ne, ne_comm (a := s.heard r.listen)]
  · have same : r.tuned (listenTo (s.group g).active.music) = r.listen := by
      by_contra differs
      exact moves ((retunes_iff r _).mpr differs)
    rw [Bool.eq_false_of_not_eq_true moves, same]
    simp


/-- What playout does leaves the groups, the clock and the entry seconds alone. -/
theorem PlayMoves.queueing {C : CallSlot → Prop} {W : Bool} {s t : State} (h : PlayMoves C W s t) (g : Group) : SameQueueing s t g := by
  have group : t.group g = s.group g := congrArg (Vector.get · g) h.off.groups
  refine ⟨by rw [group], by rw [group], by rw [group], h.off.base.clock, fun c _ => ?_⟩
  have entry (o : Option CallRec) : o.map CallRec.entry = (o.map CallRec.offPlayout).map CallRec.entry := by cases o <;> rfl
  rw [entry, h.off.calls, ← entry]

/-! ### The overflow-wait expiry (R68) -/

theorem exec_overflowWaitExpiry {s : State} (calm : Calm s) (c : CallSlot) :
    exec (.overflowWaitExpiry c) s = .next (s.expireOverflow c) :=
  congrArg (fun u : State => Host.Outcome.next (u.expireOverflow c)) (settled_calm calm)

/-- What call `c` hears once it has moved from group `r.group` to group `g`, its LISTEN and the sources (R69, step 6). -/
structure MoveHeard (s t : State) (c : CallSlot) (r q : CallRec) (l : Listen) : Prop where
  changes : s.heard l ≠ s.heard r.listen → ListenHanded s t c (s.heard l) r q
  stays : s.heard l = s.heard r.listen → q.owedListen = r.owedListen ∧ ∀ y : Shelf, SameQueue s t (portOf y)
  gains : ∀ m, l = .music m → r.listen ≠ .music m → SourceGains s t m 1
  quiet : (∀ m, l = .music m → r.listen ≠ .music m → (s.source m).run ≠ none ∨ (s.source m).current = none) → StartsNone s t
  loses : ∀ m, ¬(l = .music m ∧ r.listen ≠ .music m) → t.source m =
    { s.source m with
      listeners := if r.listen = .music m ∧ l ≠ .music m then (s.source m).listeners - 1 else (s.source m).listeners }

/-- A call that stands in its new queue comes to the group's music. -/
theorem overflows_heard {s v : State} {c : CallSlot} {r : CallRec} {g : Group} (h : Overflows s v c r g) (l : Listen) :
    ∃ q, (v.tunes c (r.overflowed s (some g)) l).call c = some q
      ∧ { q with owedListen := r.owedListen } = { r.overflowed s (some g) with listen := l }
      ∧ MoveHeard s (v.tunes c (r.overflowed s (some g)) l) c r q l := by
  obtain ⟨q, now, fields, changes, stays⟩ := tunes_handed h.call l
  have gains (m : SourceNo) := tunes_gains (m := m) h.call l
  have source (m : SourceNo) := tunes_source (m := m) h.call l
  have quiet := tunes_quiet h.call l
  have side := h.side
  obtain ⟨_, _, _, _, rest⟩ := h.rest
  generalize v.tunes c (r.overflowed s (some g)) l = t at *
  have heard (l : Listen) : v.heard l = s.heard l := heard_congr (by rw [rest]) l
  have queues (y : Shelf) : SameQueue s v (portOf y) := by
    rw [rest]
    cases y <;> exact ⟨rfl, rfl⟩
  have sources (m : SourceNo) : v.source m = s.source m := by rw [rest]; rfl
  have listen : (r.overflowed s (some g)).listen = r.listen := rfl
  rw [listen, heard, heard] at changes stays
  rw [listen] at quiet
  refine ⟨q, now, fields, ?_, ?_, ?_, ?_, ?_⟩
  · exact fun differs => (changes differs).congr queues (fun _ => ⟨rfl, rfl⟩) rfl rfl rfl rfl
  · intro same
    obtain ⟨owed, later⟩ := stays same
    exact ⟨owed, fun y => (queues y).trans (later y)⟩
  · intro m music comes
    have fault : v.device.segmentFault = s.device.segmentFault := (congrArg DeviceRec.segmentFault side.device :)
    exact (gains m music comes).congr (sources m).symm (by rw [rest]) (by rw [rest]) fault.symm rfl rfl rfl
  · intro still
    obtain ⟨segments, device, port⟩ := quiet (by simpa only [sources] using still)
    have portS : SameQueue v t .s := by
      rw [SameQueue, show t.port .s = v.port .s from port]
      exact ⟨rfl, rfl⟩
    exact ⟨segments.trans (by rw [rest]), side.congr ⟨rfl, rfl⟩ rfl portS device⟩
  · intro m elsewhere
    rw [source m elsewhere, sources]
    rfl

/-- A move that finds a group: the call stands in its queue and hears its music. -/
theorem tryOverflow_follows {s : State} {c : CallSlot} {r : CallRec} {g : Group} (call : s.call c = some r) (queued : r.state = .queued)
    (target : s.overflowTo r = some g) :
    ∃ v q, Overflows s v c r g ∧ (s.tryOverflow c).call c = some q
      ∧ { q with owedListen := r.owedListen } = { r.overflowed s (some g) with listen := r.tuned (s.groupMusic g) }
      ∧ MoveHeard s (s.tryOverflow c) c r q (r.tuned (s.groupMusic g))
      ∧ PlayMoves (· = c) false v (s.tryOverflow c)
      ∧ ∃ calls sources segments a b port d, s.tryOverflow c =
        { v with calls := calls, sources := sources, segments := segments, portA := a, portB := b, portS := port, device := d } := by
  have follows := overflows_follows s c r g
  rw [tryOverflow_tunes call queued target]
  obtain ⟨q, now, fields, hears⟩ := overflows_heard follows (r.tuned (s.groupMusic g))
  exact ⟨_, q, follows, now, fields, hears, tunes_play _ _ _ rfl, tunes_rest ..⟩

theorem expireOverflow_queued {s : State} {c : CallSlot} {r : CallRec} {due : Nat} (call : s.call c = some r)
    (waits : r.overflowDue = some due) (reached : due ≤ s.clock) (queued : r.state = .queued) :
    s.expireOverflow c = (s.putCall c (some { r with overflowDue := none })).tryOverflow c := by
  refine Eq.trans (b := (s.modCall c fun k => { k with overflowDue := none }).tryOverflow c) ?_
    (congrArg (fun u : State => u.tryOverflow c) (modCall_some call _))
  rw [State.expireOverflow, call]
  dsimp only
  rw [waits]
  dsimp only
  rw [if_pos reached, queued]

theorem expireOverflow_offered {s : State} {c : CallSlot} {r : CallRec} {due : Nat} (call : s.call c = some r)
    (waits : r.overflowDue = some due) (reached : due ≤ s.clock) (offered : r.state = .offered) :
    s.expireOverflow c = s.putCall c (some { r with overflowDue := none, pendingOverflow := true }) := by
  refine Eq.trans (b := s.modCall c fun k => { k with overflowDue := none, pendingOverflow := true }) ?_ (modCall_some call _)
  rw [State.expireOverflow, call]
  dsimp only
  rw [waits]
  dsimp only
  rw [if_pos reached, offered]

theorem expireOverflow_early {s : State} {c : CallSlot} {r : CallRec} {due : Nat} (call : s.call c = some r)
    (waits : r.overflowDue = some due) (early : s.clock < due) : s.expireOverflow c = s := by
  rw [State.expireOverflow, call]
  dsimp only
  rw [waits]
  exact if_neg (Nat.not_le.mpr early)

/-- Settles O37: the move leaves the queue, joins the other and comes to its music. -/
theorem overflowWaitExpiryMovesAQueuedCall : Obligations.OverflowWaitExpiryMovesAQueuedCall := by
  unfold Obligations.OverflowWaitExpiryMovesAQueuedCall
  intro s c r due calm call waits
  rw [exec_overflowWaitExpiry calm]
  refine ⟨fun early => ?_, fun reached offered => ?_, fun reached queued stuck => ?_, fun g reached queued target => ?_⟩
  · rw [expireOverflow_early call waits early]
  · rw [expireOverflow_offered call waits reached offered]
  all_goals
    rw [expireOverflow_queued call waits reached queued]
    have here : (s.putCall c (some { r with overflowDue := none })).call c = some { r with overflowDue := none } :=
      State.putCall_call_self ..
  · rw [tryOverflow_stays here queued stuck]
  · obtain ⟨v, q, moves, now, fields, hears, play, _, _, _, _, _, _, _, after⟩ := tryOverflow_follows (g := g) here queued target
    obtain ⟨_, _, _, _, before⟩ := moves.rest
    have slots := (tryOverflow_moves (ties := false) (s.putCall c (some { r with overflowDue := none })) c).slots.same
    generalize (s.putCall c (some { r with overflowDue := none })).tryOverflow c = t at *
    have listen : q.listen = r.tuned (s.groupMusic g) := congrArg CallRec.listen fields
    have group (h : Group) : t.group h = v.group h := by rw [after]; rfl
    have tuned : r.tuned (s.groupMusic g) = match r.listen with
        | .announce j => .announce j
        | _ => match (s.group g).active.music with
          | none => .silent
          | some m => .music m := by
      unfold CallRec.tuned
      cases r.listen <;> rfl
    have off := congrArg CallRec.offPlayout fields
    have due := congrArg CallRec.nextDue fields
    have listed := congrArg CallRec.onWaitList fields
    have heard : s.heard (r.tuned (s.groupMusic g)) ≠ s.heard r.listen ↔
        (∀ j, r.listen ≠ .announce j) ∧ s.heard (s.groupMusic g) ≠ s.heard r.listen := by
      by_cases free : ∀ j, r.listen ≠ .announce j
      · rw [tuned_free free]
        exact ⟨fun h => ⟨free, h⟩, fun h => h.2⟩
      · obtain ⟨j, announces⟩ := not_forall.mp free
        rw [tuned_announce (not_not.mp announces)]
        exact ⟨fun h => absurd rfl h, fun h => absurd h.1 free⟩
    have evaluated (h : Group) : SameQueueing v t h := play.queueing h
    refine ⟨t, q, rfl, now, off, listen.trans tuned, due, listed, ⟨fun changes => ?_, fun stays => ?_⟩,
      slots, fun m music comes => ?_, fun quiet => ?_, fun m elsewhere => ?_, fun d ne => ?_, ?_, fun leaves => ?_,
      fun h joins leaves => ?_, fun h => ?_, fun leaves => ⟨?_, ?_⟩, fun leaves absent => ?_, fun leaves h => ?_, ?_, ?_, ?_, ?_, ?_, ?_, ?_⟩
    · have told : ListenHanded s t c (s.heard (r.tuned (s.groupMusic g))) r q := hears.changes (heard.mpr changes)
      rw [tuned_free changes.1] at told
      exact told
    · exact hears.stays (by_contra fun differs => stays (heard.mp differs))
    · exact (hears.gains m (listen ▸ music) comes).congr rfl rfl rfl rfl rfl rfl rfl
    · obtain ⟨segments, side⟩ := hears.quiet (listen ▸ quiet)
      exact ⟨segments, side.congr ⟨rfl, rfl⟩ rfl ⟨rfl, rfl⟩ rfl⟩
    · rw [listen] at elsewhere ⊢
      exact hears.loses m elsewhere
    · exact (play.other ne).trans ((moves.others d ne).trans ((State.putCall_call ..).trans (if_neg ne)))
    · rw [group]
      exact moves.joins
    · rw [group]
      exact moves.leaves leaves
    · exact (group h).trans (moves.elsewhere h joins leaves)
    · rw [group]
      exact moves.stats h
    · exact (moves.evaluated.resolve_right leaves).congr rfl rfl (evaluated g) (by rw [group]) (by rw [group])
    · exact (moves.evaluated_left leaves).congr rfl rfl (evaluated _) (by rw [group]) (by rw [group])
    · obtain ⟨l, m, split, joined, behind, ahead⟩ := moves.place leaves absent
      have key := congrArg CallRec.key fields
      have seq := congrArg CallRec.seq fields
      dsimp only at key seq
      have member (d : CallSlot) (hd : d ∈ (s.group g).queue) : (s.putCall c (some { r with overflowDue := none })).call d = s.call d :=
        (State.putCall_call ..).trans (if_neg fun (e : d = c) => absent (e ▸ hd))
      rw [← key, ← seq] at behind ahead
      refine ⟨l, m, split, by rw [group]; exact joined, fun d hd k hk => behind d hd k ?_, fun d hd => ?_⟩
      · rw [member d (split ▸ List.mem_append_left m hd), hk]
      · obtain ⟨k, hk, before⟩ := ahead d hd
        rw [member d (split ▸ List.mem_append_right l (List.mem_of_mem_head? hd))] at hk
        exact ⟨k, hk, before⟩
    · rw [group]
      exact moves.kept h
    all_goals rw [after, before]
    · rfl
    · rfl
    · rfl
    · rfl
    · rfl
    · rfl
    · constructor <;> rfl

end Sys2Proof.Machine

/-! CALL_ARRIVE accepted (R56, R59, R61, R62): O35. -/

namespace Sys2Proof.Machine

/-! ### The lowest free slot (R60) -/

theorem freeSlot_eq {s : State} {c : CallSlot} (free : s.call c = none) (lowest : ∀ d, d < c → s.call d ≠ none) : s.freeSlot = some c := by
  obtain ⟨d, found⟩ := freeSlot_some ⟨c, free⟩
  have first : d ≤ c := (head_findAll _ _ found).2 c (Option.isNone_iff_eq_none.mpr free)
  rcases lt_or_eq_of_le first with before | rfl
  · exact absurd (freeSlot_free found) (lowest d before)
  · exact found

/-! ### The sequence counter (R56) -/

theorem seqHeld_iff (s : State) (n : Nat) : s.seqHeld n = true ↔ ∃ c r, s.call c = some r ∧ r.seq = n := by
  simp only [State.seqHeld, List.any_eq_true, Option.any_eq_true, beq_iff_eq]
  constructor
  · rintro ⟨o, member, r, rfl, seq⟩
    obtain ⟨c, hc, get⟩ := List.getElem_of_mem member
    refine ⟨⟨c, by simpa using hc⟩, r, ?_, seq⟩
    simpa [State.call, Vector.get] using get
  · rintro ⟨c, r, call, seq⟩
    refine ⟨some r, ?_, r, rfl, seq⟩
    rw [← call]
    simp [State.call, Vector.get]

/-- The counter passes over numbers that are held, and, unless it gives up, stands at one that is not. -/
theorem advanceSeq_passes (s : State) (fuel n : Nat) (range : n < 4294967296) :
    ∃ k ≤ fuel, s.advanceSeq fuel n = (n + k) % 4294967296 ∧ (∀ j, j < k → s.seqHeld ((n + j) % 4294967296) = true)
      ∧ (k < fuel → s.seqHeld ((n + k) % 4294967296) = false) := by
  induction fuel generalizing n with
  | zero => exact ⟨0, Nat.le_refl 0, (Nat.mod_eq_of_lt range).symm, nofun, nofun⟩
  | succ fuel ih =>
    unfold State.advanceSeq
    by_cases held : s.seqHeld n = true
    · rw [if_pos held]
      obtain ⟨k, bound, value, passed, free⟩ := ih ((n + 1) % Config.wrap32) (Nat.mod_lt _ (by decide))
      have shift (j : Nat) : ((n + 1) % Config.wrap32 + j) % 4294967296 = (n + (j + 1)) % 4294967296 := by
        rw [show Config.wrap32 = 4294967296 from rfl, Nat.mod_add_mod]
        congr 1
        omega
      refine ⟨k + 1, Nat.succ_le_succ bound, value.trans (shift k), fun j hj => ?_, fun hk => ?_⟩
      · cases j with
        | zero => rwa [Nat.add_zero, Nat.mod_eq_of_lt range]
        | succ j =>
          rw [← shift]
          exact passed j (Nat.lt_of_succ_lt_succ hj)
      · rw [← shift]
        exact free (Nat.lt_of_succ_lt_succ hk)
    · rw [if_neg held]
      refine ⟨0, Nat.zero_le _, (Nat.mod_eq_of_lt range).symm, nofun, fun _ => ?_⟩
      rw [Nat.add_zero, Nat.mod_eq_of_lt range]
      exact Bool.eq_false_of_not_eq_true held

/-- Of 1025 numbers in a row one is not held, since there are 1024 slots. -/
theorem advanceSeq_free (s : State) {n : Nat} (passed : ∀ j, j < 1024 → s.seqHeld ((n + j) % 4294967296) = true) :
    s.seqHeld ((n + 1024) % 4294967296) = false := by
  by_contra held
  have all (j : Fin 1025) : ∃ c r, s.call c = some r ∧ r.seq = (n + j.val) % 4294967296 := by
    refine (seqHeld_iff ..).mp ?_
    rcases Nat.lt_succ_iff_lt_or_eq.mp j.isLt with less | same
    · exact passed j.val less
    · rw [same]
      exact Bool.eq_true_of_not_eq_false held
  choose slot record call seq using all
  obtain ⟨i, j, differ, same⟩ := Fintype.exists_ne_map_eq_of_card_lt slot (by simp)
  have records : record i = record j := Option.some.inj ((call i).symm.trans ((congrArg s.call same).trans (call j)))
  have numbers := (seq i).symm.trans ((congrArg CallRec.seq records).trans (seq j))
  refine differ (Fin.ext ?_)
  omega

theorem advanceSeq_next (s : State) {n : Nat} (range : n < 4294967296) :
    (∃ k, s.advanceSeq 1024 n = (n + k) % 4294967296 ∧ ∀ j, j < k → s.seqHeld ((n + j) % 4294967296) = true)
      ∧ s.seqHeld (s.advanceSeq 1024 n) = false := by
  obtain ⟨k, bound, value, passed, free⟩ := advanceSeq_passes s 1024 n range
  refine ⟨⟨k, value, passed⟩, ?_⟩
  rw [value]
  rcases Nat.lt_or_eq_of_le bound with less | rfl
  · exact free less
  · exact advanceSeq_free s passed


/-! ### A call that enters (R59, R61, R62) -/

/-- The state in which a call of record `e` holds slot `c` and the counter stands at `n`; the hops of its placing are counted. -/
def State.entered (s : State) (c : CallSlot) (e : CallRec) (n : Nat) (named g : Group) (hops : Nat) : State :=
  ((s.putCall c (some e)).setSeqCounter n).countHop named g hops

section
variable (s : State) (c : CallSlot) (e : CallRec) (n : Nat) (named g : Group) (hops : Nat)

theorem entered_rest : ∃ groups, s.entered c e n named g hops =
    { s with calls := (s.putCall c (some e)).calls, seqCounter := n, groups := groups } := by
  rw [State.entered, countHop_eq]
  split
  · exact ⟨_, rfl⟩
  · exact ⟨_, rfl⟩

theorem entered_call (d : CallSlot) : (s.entered c e n named g hops).call d = if d = c then some e else s.call d := by
  obtain ⟨_, rest⟩ := entered_rest s c e n named g hops
  rw [rest]
  exact State.putCall_call ..

theorem entered_group (h : Group) : (s.entered c e n named g hops).group h =
    { s.group h with stats := (s.group h).stats.afterMove named h (if hops = 0 then none else some g) } := countHop_group ..

end

/-- The call of slot `c` has come to hear its group's music, whose LISTEN it is handed, and is due its first announcement (R62). -/
theorem startListening_eq {s : State} {c : CallSlot} {k : CallRec} (call : s.call c = some k) (silent : k.listen = .silent) (g : Group) :
    s.startListening c g =
      ((if s.groupMusic g = .silent then s else s.tells c (s.groupMusic g)).modCall c fun r =>
        { r with nextDue := if (s.group g).active.program.isSome then some (s.clock + (s.group g).active.firstDelay) else none }) := by
  rw [State.startListening, musicOf_eq]
  split
  next none =>
    have same : s.setListen c (s.groupMusic g) = s := by rw [none, ← silent, setListen_same call]
    rw [same]
  next => rfl

/-- A port that is neither a shelf's nor port S is the other shelf's. -/
theorem portOf_other {p : Port} {x : Shelf} (away : p ≠ portOf x) (shelf : p ≠ .s) : p = portOf (other x) := by
  cases p <;> cases x <;> first | rfl | exact absurd rfl away | exact absurd rfl shelf

/-- What a call that has entered hears from its arrival, and what its port is handed. -/
structure StartsListening (s t : State) (c : CallSlot) (k : CallRec) (g : Group) : Prop where
  call : t.call c = some
    { k with
      listen := s.groupMusic g
      owedListen := k.owedListen || ((s.group g).active.music.isSome && !s.hasRoom (portOf k.owner))
      nextDue := if (s.group g).active.program = none then none else some (s.clock + (s.group g).active.firstDelay) }
  others : ∀ d, d ≠ c → t.call d = s.call d
  notices : (t.port (portOf k.owner)).notices = placed (s.port (portOf k.owner)).notices
    (match (s.group g).active.music with
      | none => []
      | some m => [.listen k.tag (s.slotOf (highwayOfSource m))])
  queues : ∀ q, q ≠ portOf k.owner → q ≠ .s → SameQueue s t q
  gains : ∀ m, SourceGains s t m (if (s.group g).active.music = some m then 1 else 0)
  quiet : (∀ m, (s.group g).active.music = some m → (s.source m).run ≠ none ∨ (s.source m).current = none) → StartsNone s t
  rest : ∃ calls sources segments a b port d,
    t = { s with calls := calls, sources := sources, segments := segments, portA := a, portB := b, portS := port, device := d }

theorem startListening_starts {s : State} {c : CallSlot} {k : CallRec} (call : s.call c = some k) (silent : k.listen = .silent)
    (g : Group) : StartsListening s (s.startListening c g) c k g := by
  rw [startListening_eq call silent]
  have due : (if (s.group g).active.program.isSome then some (s.clock + (s.group g).active.firstDelay) else none)
      = if (s.group g).active.program = none then none else some (s.clock + (s.group g).active.firstDelay) := by
    cases (s.group g).active.program <;> rfl
  rw [due]
  cases music : (s.group g).active.music with
  | none =>
    have hears : s.groupMusic g = .silent := by rw [groupMusic_eq, music]; rfl
    rw [if_pos hears, modCall_some call]
    refine ⟨(State.putCall_call_self ..).trans ?_, fun d ne => (State.putCall_call ..).trans (if_neg ne), ?_, fun _ _ _ => ⟨rfl, rfl⟩,
      fun m => ?_, fun _ => ⟨rfl, .congr (.refl s) ⟨rfl, rfl⟩ rfl ⟨rfl, rfl⟩ rfl⟩, _, _, _, _, _, _, _, rfl⟩
    · rw [hears, ← silent, music, Option.isSome_none, Bool.false_and, Bool.or_false]
    · rw [music]
      exact (placed_nil _).symm
    · rw [music]
      exact .none rfl
  | some m =>
    have hears : s.groupMusic g = .music m := by rw [groupMusic_eq, music]; rfl
    have away (n : SourceNo) : k.listen ≠ .music n := by rw [silent]; nofun
    rw [hears, if_neg (by nofun)]
    obtain ⟨q, now, fields, notices, -, owed, otherPort⟩ := tells_handed call (.music m)
    have source (n : SourceNo) := tells_source s c (.music m) n
    have others (d : CallSlot) (ne : d ≠ c) : (s.tells c (.music m)).call d = s.call d :=
      (tells_play (C := (· = c)) (W := false) s (.music m) rfl).other ne
    obtain ⟨_, _, _, told⟩ := handListen_rest (s.setListen c (.music m)) c
    have segments : (s.tells c (.music m)).segments = (s.setListen c (.music m)).segments := by rw [State.tells, told]
    have device : (s.tells c (.music m)).device = (s.setListen c (.music m)).device := by rw [State.tells, told]
    have portS : (s.tells c (.music m)).portS = (s.setListen c (.music m)).portS := by rw [State.tells, told]
    obtain ⟨_, _, _, _, _, _, _, rest⟩ := tells_rest s c (.music m)
    rw [modCall_some now]
    generalize s.tells c (.music m) = t at *
    refine ⟨(State.putCall_call_self ..).trans ?_, fun d ne => (State.putCall_call ..).trans ((if_neg ne).trans (others d ne)), ?_,
      fun p away shelf => ?_, fun n => ?_, fun quiet => ?_, ?_⟩
    · have record : q = { k with listen := .music m, owedListen := q.owedListen } :=
        congrArg (fun r : CallRec => { r with owedListen := q.owedListen }) fields
      rw [record, owed, hears, music, Option.isSome_some, Bool.true_and]
    · rw [music]
      exact notices
    · rw [portOf_other away shelf]
      exact otherPort
    · rw [music]
      by_cases same : m = n
      · subst same
        rw [if_pos rfl]
        exact (setListen_gains call (away m)).congr rfl rfl rfl rfl (source m) segments (congrArg DeviceRec.segmentFault device)
      · rw [if_neg fun e => same (Option.some.inj e)]
        refine .none ((source n).trans ((setListen_source call fun tuned => same (Listen.music.inj tuned.1)).trans ?_))
        rw [if_neg fun left => away n left.1]
    · obtain ⟨_, _, still⟩ := setListen_quiet_rest call (l := .music m) fun n tuned _ => quiet n (by rw [music, Listen.music.inj tuned])
      rw [still] at segments device portS
      exact ⟨segments, .congr (.refl s) ⟨rfl, rfl⟩ rfl ⟨congrArg PortRec.notices portS, congrArg PortRec.owed portS⟩ device⟩
    · rw [rest]
      exact ⟨_, _, _, _, _, _, _, rfl⟩


/-! ### The arrival, step by step (R62) -/

/-- The record of an accepted arrival once it has joined its group's queue and hears its music. -/
def State.arrived (s : State) (x : Shelf) (tag : Tag) (g : Group) (priority hops : Nat) : CallRec :=
  { (s.arrivalRecord x tag g priority hops).joined s g with
    listen := s.groupMusic g
    owedListen := (s.group g).active.music.isSome && !s.hasRoom (portOf x)
    nextDue := if (s.group g).active.program = none then none else some (s.clock + (s.group g).active.firstDelay) }

/-- A call that has entered slot `c` with record `new`, in group `g` after `hops` hops from the group `named`. -/
structure Arrives (s t : State) (c : CallSlot) (new : CallRec) (named g : Group) (hops : Nat) : Prop where
  call : t.call c = some new
  others : ∀ d, d ≠ c → t.call d = s.call d
  place : ∃ l m, (s.group g).queue = l ++ m ∧ (t.group g).queue = l ++ c :: m
    ∧ (∀ d ∈ l, ∀ r, s.call d = some r → ¬(new.key < r.key ∨ (new.key = r.key ∧ new.seq < r.seq)))
    ∧ ∀ d ∈ m.head?, ∃ r, s.call d = some r ∧ (new.key < r.key ∨ (new.key = r.key ∧ new.seq < r.seq))
  stats : ∀ h, (t.group h).stats = (s.group h).stats.afterMove named h (if hops = 0 then none else some g)
  elsewhere : ∀ h, h ≠ g → { t.group h with stats := (s.group h).stats } = s.group h
  group : { t.group g with
    stats := (s.group g).stats, queue := (s.group g).queue, conditions := (s.group g).conditions,
    flags := (s.group g).flags } = s.group g
  evaluated : QueueEvaluated s t g
  notices : (t.port (portOf new.owner)).notices = placed (s.port (portOf new.owner)).notices
    (match (s.group g).active.music with
      | none => []
      | some m => [.listen new.tag (s.slotOf (highwayOfSource m))])
  queues : ∀ q, q ≠ portOf new.owner → q ≠ .s → SameQueue s t q
  gains : ∀ m, SourceGains s t m (if (s.group g).active.music = some m then 1 else 0)
  quiet : (∀ m, (s.group g).active.music = some m → (s.source m).run ≠ none ∨ (s.source m).current = none) → StartsNone s t
  counter : (∃ k, t.seqCounter = (s.seqCounter + 1 + k) % 4294967296
      ∧ ∀ j, j < k → ∃ d r, t.call d = some r ∧ r.seq = (s.seqCounter + 1 + j) % 4294967296)
    ∧ ∀ d r, t.call d = some r → r.seq ≠ t.seqCounter
  rest : ∃ calls groups sources segments a b port d n, t = { s with
    calls := calls, groups := groups, sources := sources, segments := segments, portA := a, portB := b, portS := port, device := d
    seqCounter := n, callTriggers := if c ∈ s.callTriggers then s.callTriggers else s.callTriggers ++ [c] }

theorem arrive_arrives {s : State} {c : CallSlot} (free : s.call c = none) (x : Shelf) (tag : Tag) (named g : Group)
    (priority hops : Nat) :
    Arrives s (s.arrive c x tag named g priority hops) c (s.arrived x tag g priority hops) named g hops := by
  let e := s.arrivalRecord x tag g priority hops
  let n := (s.putCall c (some e)).advanceSeq 1024 ((s.seqCounter + 1) % Config.wrap32)
  have numbered := advanceSeq_next (s.putCall c (some e)) (n := (s.seqCounter + 1) % Config.wrap32) (Nat.mod_lt _ (by decide))
  change (∃ k, n = _ ∧ _) ∧ State.seqHeld _ n = false at numbered
  have group := entered_group s c e n named g hops
  have entered_other (d : CallSlot) (ne : d ≠ c) : (s.entered c e n named g hops).call d = s.call d :=
    (entered_call ..).trans (if_neg ne)
  have entered : (s.entered c e n named g hops).call c = some e := (entered_call ..).trans (if_pos rfl)
  obtain ⟨_, entered_rest⟩ := entered_rest s c e n named g hops
  have record : e.joined (s.entered c e n named g hops) g = e.joined s g :=
    joined_congr (by rw [group]) (by rw [entered_rest]) e
  have joined := (join_call entered g c).trans (if_pos rfl)
  have join_others (d : CallSlot) (ne : d ≠ c) := (join_call entered g d).trans (if_neg ne)
  have join_group := join_group entered g
  have join_other (h : Group) (ne : h ≠ g) := join_other entered g ne
  have join_evaluated := join_evaluated entered g
  have join_side := join_side entered g
  obtain ⟨_, _, _, join_rest⟩ := join_rest entered g
  have starts := startListening_starts joined rfl g
  rw [record] at joined starts
  have split := join_split entered g
  rw [record] at split
  change Arrives s (((s.entered c e n named g hops).join c g).startListening c g) c _ named g hops
  generalize s.entered c e n named g hops = u at *
  generalize u.join c g = v at *
  generalize v.startListening c g = t at *
  have active : (v.group g).active = (s.group g).active := by rw [join_group, group]
  have owner : (e.joined s g).owner = x := rfl
  have ports (q : Port) (shelf : q ≠ .s) : v.port q = s.port q := by
    rw [join_rest, entered_rest]
    cases q <;> first | rfl | exact absurd rfl shelf
  have room : v.hasRoom (portOf x) = s.hasRoom (portOf x) := hasRoom_congr (by rw [ports _ (portOf_ne_s x)])
  have clock : v.clock = s.clock := by rw [join_rest, entered_rest]
  have side : WatchSide s v := join_side.congr (by rw [entered_rest]; exact ⟨rfl, rfl⟩) (by rw [entered_rest]) ⟨rfl, rfl⟩ rfl
  obtain ⟨_, _, _, _, _, _, _, start_rest⟩ := starts.rest
  have after (h : Group) : t.group h = v.group h := by rw [start_rest]; rfl
  have call : t.call c = some (s.arrived x tag g priority hops) := by
    rw [starts.call, groupMusic_eq, active, clock, owner, room]
    rfl
  have others (d : CallSlot) (ne : d ≠ c) : t.call d = s.call d :=
    (starts.others d ne).trans ((join_others d ne).trans (entered_other d ne))
  have queueing : SameQueueing v t g := by
    refine ⟨by rw [after], by rw [after], by rw [after], by rw [start_rest], fun d _ => ?_⟩
    by_cases same : d = c
    · rw [same, call, joined]
      rfl
    · rw [starts.others d same]
  have held (k : Nat) : (s.putCall c (some e)).seqHeld k = true ↔ ∃ d r, t.call d = some r ∧ r.seq = k := by
    rw [seqHeld_iff]
    refine exists_congr fun d => ?_
    by_cases same : d = c
    · subst same
      rw [call, State.putCall_call_self]
      simp only [Option.some.injEq, exists_eq_left']
      rfl
    · rw [others d same, State.putCall_call, if_neg same]
  have counter : t.seqCounter = n := by rw [start_rest, join_rest, entered_rest]
  have slots (h : HighwayChannel) : v.slotOf h = s.slotOf h := by rw [join_rest, entered_rest]; rfl
  have sources (m : SourceNo) : v.source m = s.source m := by rw [join_rest, entered_rest]; rfl
  have fault : v.device.segmentFault = s.device.segmentFault := (congrArg DeviceRec.segmentFault side.device :)
  constructor
  · exact call
  · exact others
  · obtain ⟨l, m, at_, joined, behind, ahead⟩ := split
    rw [group] at at_
    refine ⟨l, m, at_, (congrArg GroupRec.queue (after g)).trans joined, fun d hd r hr => ?_, fun d hd => ?_⟩
    · have ne : d ≠ c := by
        rintro rfl
        rw [free] at hr
        cases hr
      exact behind d hd ne r ((entered_other d ne).trans hr)
    · obtain ⟨ne, r, hr, before⟩ := ahead d hd
      exact ⟨r, (entered_other d ne).symm.trans hr, before⟩
  · intro h
    rw [after]
    by_cases same : h = g
    · rw [same, join_group, group]
    · rw [join_other h same, group]
  · intro h ne
    rw [after, join_other h ne, group]
  · rw [after, join_group, group]
  · exact (join_evaluated.congr (by rw [group]) (by rw [group]) queueing (by rw [after]) (by rw [after]))
  · have told := starts.notices
    rw [owner, active, ports _ (portOf_ne_s x)] at told
    simp only [slots] at told
    exact told
  · intro q away shelf
    have told := starts.queues q away shelf
    rw [SameQueue, ports q shelf] at told
    exact told
  · intro m
    have gained := starts.gains m
    rw [active] at gained
    exact gained.congr (sources m).symm (by rw [join_rest, entered_rest]) (by rw [join_rest, entered_rest]) fault.symm rfl rfl rfl
  · intro quiet
    obtain ⟨segments, later⟩ := starts.quiet (by simpa only [active, sources] using quiet)
    exact ⟨segments.trans (by rw [join_rest, entered_rest]), side.trans later⟩
  · obtain ⟨⟨k, value, passed⟩, new⟩ := numbered
    have modulo (j : Nat) : ((s.seqCounter + 1) % Config.wrap32 + j) % 4294967296 = (s.seqCounter + 1 + j) % 4294967296 :=
      Nat.mod_add_mod ..
    refine ⟨⟨k, (counter.trans value).trans (modulo k), fun j hj => ?_⟩, fun d r hr same => ?_⟩
    · rw [← modulo]
      exact (held _).mp (passed j hj)
    · have again := (held n).mpr ⟨d, r, hr, same.trans counter⟩
      rw [new] at again
      cases again
  · rw [start_rest, join_rest, entered_rest]
    exact ⟨_, _, _, _, _, _, _, _, _, rfl⟩


/-! ### CALL_ARRIVE (R60 to R62) -/

/-- An arrival that every check of R60 passes. -/
theorem actCallArrive_accepted {s : State} {p : Port} {ps : List Byte} {x : Shelf} {tag : Tag} {named g : Group} {hops : Nat}
    {c : CallSlot} (shelf : shelfOf p = some x) (tagged : tag.toNat = u16 ps 0)
    (new : ∀ d r, s.call d = some r → ¬(r.owner = x ∧ r.tag = tag)) (group : u8 ps 2 = named.val) (opened : s.closed named = false)
    (place : s.arrivalPlace named = some (g, hops)) (free : s.call c = none) (lowest : ∀ d, d < c → s.call d ≠ none) :
    actCallArrive p ps s =
      { state := s.arrive c x tag named g (min 7 (u8 ps 3)) hops
        result := if 7 < u8 ps 3 then .okClamped else .ok
        content := slotField (some c) ++ field 1 g.val ++ field 1 hops
          ++ keyField ((((s.arrive c x tag named g (min 7 (u8 ps 3)) hops).call c).map CallRec.key).getD 0)
          ++ field 2 ((s.arrive c x tag named g (min 7 (u8 ps 3)) hops).position c) } := by
  have tag_eq : tagAt ps 0 = tag := by rw [tagAt, ← tagged, BitVec.ofNat_toNat, BitVec.setWidth_eq]
  have absent : s.findCall x tag = none := (findCall_none_iff s x tag).mpr new
  simp only [actCallArrive, shelf, tag_eq, absent, Option.isSome_none, Bool.false_eq_true, if_false, below_val named group, opened,
    freeSlot_eq free lowest, (placeArrival_eq s named).trans place]

theorem shelfOf_eq {p : Port} {x : Shelf} (h : shelfOf p = some x) : p = portOf x := by
  cases p <;> cases h <;> rfl

theorem SameData.arrived {s t : State} (h : SameData s t) (x : Shelf) (tag : Tag) (g : Group) (priority hops : Nat) :
    t.arrived x tag g priority hops = s.arrived x tag g priority hops := by
  have room : t.hasRoom (portOf x) = s.hasRoom (portOf x) := hasRoom_congr (h.notices _)
  simp only [State.arrived, CallRec.joined, State.arrivalRecord, groupMusic_eq, h.group, h.base.clock, h.base.seqCounter, room]

theorem QueueEvaluated.request {s u v t : State} {g : Group} (h : QueueEvaluated u v g) (before : SameData s u) (after : SameData v t) :
    QueueEvaluated s t g :=
  h.congr (by rw [before.group]) (by rw [before.group])
    ⟨by rw [after.group], by rw [after.group], by rw [after.group], after.base.clock, fun _ _ => by rw [after.call]⟩ (by rw [after.group])
    (by rw [after.group])

/-- Settles O35: the call enters its slot, joins the queue and hears the group's music. -/
theorem acceptedArrivalsJoinTheirGroup : Obligations.AcceptedArrivalsJoinTheirGroup := by
  unfold Obligations.AcceptedArrivalsJoinTheirGroup
  intro s p ps x tag named g hops c h shelf tagged new group opened place free lowest
  intro par record
  have before := taken_data s p (frame ps)
  have act := (congrFun (show actOf .callArrive p ps = actCallArrive p ps from rfl) _).trans
    (actCallArrive_accepted (s := s.taken p (frame ps)) (c := c) shelf tagged (by simpa only [before.call] using new) group
      ((taken_closed ..).trans opened) (by rw [← placeArrival_eq, taken_placeArrival, placeArrival_eq, place]) ((before.call c).trans free)
      (by simpa only [before.call] using lowest))
  have arrives := arrive_arrives (s := s.taken p (frame ps)) ((before.call c).trans free) x tag named g (min 7 (u8 ps 3)) hops
  rw [before.arrived] at arrives
  generalize (s.taken p (frame ps)).arrive c x tag named g (min 7 (u8 ps 3)) hops = v at *
  obtain ⟨taken, answered, others⟩ := exec_answers h
  rw [act] at taken answered others
  have after := answer_data p (actOf .callArrive p ps (s.taken p (frame ps)))
  rw [act] at after
  have port : p = portOf x := shelfOf_eq shelf
  have same : s.arrived x tag g (min 7 (u8 ps 3)) hops = record := by
    subst port
    rfl
  rw [same] at arrives
  have call := (after.call c).trans arrives.call
  have place := arrives.place
  have stats := arrives.stats
  have elsewhere := arrives.elsewhere
  have here := arrives.group
  have notices := arrives.notices
  have gains (m : SourceNo) := (arrives.gains m).request before after
  have queues (q : Port) (away : q ≠ p) (shelf : q ≠ .s) :=
    ((before.queues q).trans (arrives.queues q (port ▸ away) shelf)).trans (after.queues q)
  have slots (h : HighwayChannel) : (s.taken p (frame ps)).slotOf h = s.slotOf h := congrArg (Vector.get · h) before.base.slotMap
  rw [show portOf record.owner = p from port.symm] at notices
  simp only [before.group, before.call, before.notices, slots] at place stats elsewhere here notices gains
  obtain ⟨⟨k, counted, passed⟩, new⟩ := arrives.counter
  obtain ⟨_, _, _, _, _, _, _, _, _, rest⟩ := arrives.rest
  refine ⟨_, _, taken, answered, others, ?_, ?_, call, fun d ne => ?_, ?_, fun i => ?_, fun i ne => ?_, ?_,
    arrives.evaluated.request before after, ?_, queues, gains, fun quiet => ?_, ⟨k, ?_, fun j hj => ?_⟩, fun d r hr => ?_, ?_, ?_, ?_, ?_, ?_, ?_, ?_⟩
  · simp [slotField_eq, keyField]
  · rw [after.group, arrives.call, position_eq arrives.call]
    exact fieldsAt_only [(2, c.val), (1, g.val), (1, hops), (8, (BitVec.ofInt 64 record.key).toNat),
      (2, (v.group g).queue.idxOf c + 1)] (by simp [pack, slotField_eq, slotNumber, keyField]; rfl)
  · exact (after.call d).trans ((arrives.others d ne).trans (before.call d))
  · rw [after.group]
    exact place
  · rw [after.group]
    exact stats i
  · rw [after.group]
    exact elsewhere i ne
  · rw [after.group]
    exact here
  · exact (after.notices p).trans notices
  · exact (arrives.quiet (by simpa only [before.group, before.source] using quiet)).request before after
  · exact after.base.seqCounter.trans (counted.trans (by rw [before.base.seqCounter]))
  · obtain ⟨d, r, hr, seq⟩ := passed j hj
    exact ⟨d, r, (after.call d).trans hr, seq.trans (by rw [before.base.seqCounter])⟩
  · rw [after.base.seqCounter]
    exact new d r ((after.call d).symm.trans hr)
  · exact after.callTriggers.trans ((congrArg State.callTriggers rest).trans (by rw [before.callTriggers]))
  · exact after.agents.trans ((congrArg State.agents rest).trans before.agents)
  · exact after.agentTriggers.trans ((congrArg State.agentTriggers rest).trans before.agentTriggers)
  · exact after.sweepWaiting.trans ((congrArg State.sweepWaiting rest).trans before.sweepWaiting)
  · exact after.channels.trans ((congrArg State.channels rest).trans before.channels)
  · exact after.waitList.trans ((congrArg State.waitList rest).trans before.waitList)
  · rw [after.rest]
    dsimp only
    rw [rest, taken_eq]
    cases p <;> constructor <;> rfl

end Sys2Proof.Machine

/-! The end of an offer with the call back in a queue (R70, R98, R101). -/

namespace Sys2Proof.Machine

/-! ### What an overflow rests on -/

theorem overflowTo_congr {s t : State} {q r : CallRec} (active : ∀ h, (t.group h).active = (s.group h).active)
    (queue : ∀ h, (t.group h).queue = (s.group h).queue)
    (closed : ∀ h, (t.group h).supervisorClosed = (s.group h).supervisorClosed) (lines : t.lines = s.lines)
    (group : q.group = r.group) (hops : q.hops = r.hops) : t.overflowTo q = s.overflowTo r := by
  have line (l : LineNo) : t.line l = s.line l := congrArg (Vector.get · l) lines
  have same (h : Group) : t.closed h = s.closed h := by
    rw [State.closed, State.closed, closed, heldByLine_congr (by rw [active]) line]
  simp only [State.overflowTo, active, queue, same, group, hops]

/-! ### Notices that stand behind others -/

/-- The ports of the shelves have been handed LISTENs and nothing else. -/
def ListensOnly (s t : State) : Prop := ∀ y : Shelf, ∃ l : List Notice, (∀ n ∈ l, ∃ tag slot, n = .listen tag slot) ∧
  (t.port (portOf y)).notices = (s.port (portOf y)).notices ++ l

theorem ListensOnly.of_same {s t : State} (h : ∀ y : Shelf, (t.port (portOf y)).notices = (s.port (portOf y)).notices) : ListensOnly s t :=
  fun y => ⟨[], nofun, by rw [h, List.append_nil]⟩

theorem ListensOnly.trans {s t u : State} (h : ListensOnly s t) (k : ListensOnly t u) : ListensOnly s u := by
  intro y
  obtain ⟨l, listens, notices⟩ := h y
  obtain ⟨m, listens', notices'⟩ := k y
  refine ⟨l ++ m, fun n hn => ?_, by rw [notices', notices, List.append_assoc]⟩
  rcases List.mem_append.mp hn with hn | hn
  · exact listens n hn
  · exact listens' n hn

theorem PlayMoves.listensOnly {C : CallSlot → Prop} {W : Bool} {s t : State} (h : PlayMoves C W s t) : ListensOnly s t := by
  intro y
  obtain ⟨l, listens, notices⟩ := h.off.notices (portOf y)
  refine ⟨l, fun n hn => ?_, notices⟩
  have told := listens n hn
  rwa [PlayNotice, if_neg (portOf_ne_s y)] at told


/-! ### A swap that an offer's end allows (R34, R36) -/

theorem swapIfQuiet_swaps {s : State} {g : Group} (pending : (s.group g).swapPending = true) (quiet : (s.group g).offers = 0) :
    s.swapIfQuiet g = (s.swapTuned g).raiseSweep := by
  rw [State.swapIfQuiet, pending, quiet, performSwap_eq]
  rfl

/-- What of a call's record its LISTEN is made of. -/
def CallRec.heardAs (k : CallRec) : Shelf × Tag × Listen := (k.owner, k.tag, k.listen)

/-- The LISTENs of calls moved to music are made of their owners, tags and listen sources. -/
theorem tuneListens_of {s t : State} {l : List CallSlot} (slots : t.slotMap = s.slotMap)
    (calls : ∀ c ∈ l, (t.call c).map CallRec.heardAs = (s.call c).map CallRec.heardAs) (o : Option SourceNo) (y : Shelf) :
    t.tuneListens o l y = s.tuneListens o l y := by
  refine List.filterMap_congr fun c hc => ?_
  have same := calls c hc
  simp only [heard_congr slots]
  cases hs : s.call c with
  | none =>
    rw [hs, Option.map_none, Option.map_eq_none_iff] at same
    rw [same]
  | some r =>
    rw [hs, Option.map_some, Option.map_eq_some_iff] at same
    obtain ⟨q, hq, core⟩ := same
    simp only [CallRec.heardAs, Prod.mk.injEq] at core
    obtain ⟨owner, tag, listen⟩ := core
    have retunes : q.retunes o = r.retunes o := by
      unfold CallRec.retunes
      rw [listen]
    rw [hq, Option.filter_some, Option.filter_some, retunes, owner, listen]
    split
    · rw [Option.map_some, Option.map_some, tag]
    · rfl

theorem swapListens_of {s t : State} {g : Group} (active : (t.group g).active.music = (s.group g).active.music)
    (staged : (t.group g).staged.music = (s.group g).staged.music) (queue : (t.group g).queue = (s.group g).queue)
    (slots : t.slotMap = s.slotMap)
    (calls : ∀ c ∈ (s.group g).queue, (t.call c).map CallRec.heardAs = (s.call c).map CallRec.heardAs) (y : Shelf) :
    t.swapListens g y = s.swapListens g y := by
  rw [swapListens_eq, swapListens_eq, active, staged, queue, tuneListens_of slots calls]

/-- The group's swap follows where it is due, and else nothing does. -/
structure SwapSettled (s t : State) (g : Group) : Prop where
  calls : ∀ c, (t.call c).map CallRec.offPlayout = (s.call c).map CallRec.offPlayout
  group : ∀ h, t.group h =
    if h = g ∧ (s.group g).swapPending = true ∧ (s.group g).offers = 0 then s.swappedGroup g else s.group h
  sweep : t.sweepWaiting = (s.sweepWaiting || ((s.group g).swapPending && (s.group g).offers == 0))
  listens : ListensOnly s t
  notices : (s.group g).queue.Nodup → ∀ y : Shelf, (t.port (portOf y)).notices = placed (s.port (portOf y)).notices
    (if (s.group g).swapPending && (s.group g).offers == 0 then s.swapListens g y else [])
  quiet : ((s.group g).swapPending && (s.group g).offers == 0) = false → t = s
  base : SameBase s t
  rest : t.agents = s.agents ∧ t.agentTriggers = s.agentTriggers ∧ t.callTriggers = s.callTriggers ∧ t.waitList = s.waitList
    ∧ t.channels = s.channels

theorem swapIfQuiet_settled (s : State) (g : Group) : SwapSettled s (s.swapIfQuiet g) g := by
  by_cases due : (s.group g).swapPending = true ∧ (s.group g).offers = 0
  · obtain ⟨pending, offers⟩ := due
    obtain ⟨agents, callTriggers, agentTriggers, waitList, channels, base⟩ := swapTuned_frame s g
    have follows := swapTuned_follows s g
    have record := swapTuned_record s g
    have play := (swapTuned_play s g (C := fun _ => True) fun _ _ => trivial).listensOnly
    obtain ⟨_, _, _, rest⟩ := swapEvaluated_rest s g
    have due : ((s.group g).swapPending && (s.group g).offers == 0) = true := by rw [pending, offers]; rfl
    have before : ListensOnly s (s.swapEvaluated g) := .of_same fun y => by
      rw [rest]
      cases y <;> rfl
    rw [swapIfQuiet_swaps pending offers]
    refine ⟨follows.off, fun h => ?_, ?_, before.trans play, fun distinct y => ?_, fun idle => ?_, base,
      agents, agentTriggers, callTriggers, waitList, channels⟩
    · simp only [pending, offers, and_self, and_true]
      exact record h
    · rw [due, Bool.or_true]
      rfl
    · rw [due, if_pos rfl]
      exact follows.notices distinct y
    · rw [due] at idle
      cases idle
  · have idle : ((s.group g).swapPending && (s.group g).offers == 0) = false := by
      refine Bool.eq_false_of_not_eq_true fun both => due ?_
      simpa only [Bool.and_eq_true, beq_iff_eq] using both
    have same : s.swapIfQuiet g = s := if_neg fun both => due (by simpa only [Bool.and_eq_true, beq_iff_eq] using both)
    rw [same]
    refine ⟨fun _ => rfl, fun h => (if_neg fun both => due both.2).symm, ?_, .of_same fun _ => rfl, fun _ y => ?_, fun _ => rfl, .refl s,
      rfl, rfl, rfl, rfl, rfl⟩
    · rw [idle, Bool.or_false]
    · rw [idle, if_neg Bool.false_ne_true, placed_nil]



/-- The LISTEN of a move, as the ports of the shelves get it. -/
theorem MoveHeard.notices {s t : State} {c : CallSlot} {r q : CallRec} {g : Group}
    (h : MoveHeard s t c r q (r.tuned (s.groupMusic g))) (y : Shelf) :
    (t.port (portOf y)).notices = placed (s.port (portOf y)).notices (s.moveListens r g y) := by
  rw [moveListens_eq]
  by_cases same : s.heard (r.tuned (s.groupMusic g)) = s.heard r.listen
  · rw [if_neg fun both => both.2 same, placed_nil]
    exact ((h.stays same).2 y).1
  · obtain ⟨notices, -, -, otherPort⟩ := h.changes same
    by_cases own : r.owner = y
    · subst own
      rw [if_pos ⟨rfl, same⟩]
      exact notices
    · rw [if_neg fun both => own both.1, placed_nil]
      have y_other : other r.owner = y := by cases y <;> cases hx : r.owner <;> simp_all [other]
      exact y_other ▸ otherPort.1

/-! ### The requeue and its overflow attempt (R70) -/

/-- Call `c` has the record `q` and its offer in its group has ended. -/
def State.requeued (s : State) (c : CallSlot) (q : CallRec) : State := (s.putCall c (some q)).endOffer q.group

theorem requeued_group (s : State) (c : CallSlot) (q : CallRec) (h : Group) : (s.requeued c q).group h =
    { s.group h with offers := if h = q.group then (s.group h).offers - 1 else (s.group h).offers } := by
  refine (State.setGroup_group ..).trans ?_
  split
  next same => rw [same]; rfl
  next => rfl

theorem requeued_call (s : State) (c d : CallSlot) (q : CallRec) : (s.requeued c q).call d = if d = c then some q else s.call d :=
  State.putCall_call ..

theorem requeued_queueing (s : State) (c : CallSlot) (q : CallRec) (h : Group)
    (entry : (s.call c).map CallRec.entry = some q.entry) : SameQueueing s (s.requeued c q) h := by
  have group := requeued_group s c q h
  refine ⟨by rw [group], by rw [group], by rw [group], rfl, fun d _ => ?_⟩
  rw [requeued_call]
  split
  next same => rw [same, entry]; rfl
  next => rfl

/-- The LISTEN that shelf `y`'s port is handed when an overflow attempt finds the group `o`. -/
def State.attemptListens (s : State) (q : CallRec) (o : Option Group) (y : Shelf) : List Notice :=
  match o with
  | none => []
  | some g => s.moveListens q g y

/-- The overflow attempt at the requeue of call `c` with record `q` has found the group `o`, or there was none. -/
structure Attempted (s t : State) (c : CallSlot) (q : CallRec) (o : Option Group) : Prop where
  call : ∃ k, t.call c = some k ∧ k.offPlayout = (q.overflowed s o).offPlayout
  others : ∀ d, d ≠ c → t.call d = s.call d
  unmoved : o = none → t.call c = some { q with pendingOverflow := false }
  stays : o = none → ∀ h, (t.group h).queue = (s.group h).queue
  leaves : ∀ g, o = some g → c ∈ (t.group g).queue ∧ (g ≠ q.group → (t.group q.group).queue = (s.group q.group).queue.filter (· != c))
  stats : ∀ h, (t.group h).stats = (s.group h).stats.afterMove q.group h o
  offers : ∀ h, (t.group h).offers = if h = q.group then (s.group h).offers - 1 else (s.group h).offers
  kept : ∀ h,
    { t.group h with
      queue := (s.group h).queue, stats := (s.group h).stats, offers := (s.group h).offers,
      conditions := (s.group h).conditions, flags := (s.group h).flags } = s.group h
  moved : ∀ g, o = some g → g ≠ q.group → ∀ h, h = g ∨ h = q.group →
    (t.group h).conditions = { depth := t.depthHolds h, wait := t.waitHolds h, noStaff := t.noStaffHolds h }
  noStaff : ∀ h, (s.group h).conditions.noStaff = s.noStaffHolds h → (t.group h).conditions.noStaff = t.noStaffHolds h
  flags : FlagsFollow s t
  listens : ListensOnly s t
  notices : ∀ y : Shelf, (t.port (portOf y)).notices = placed (s.port (portOf y)).notices (s.attemptListens q o y)
  quiet : o = none → ∀ y : Shelf, SameQueue s t (portOf y)
  triggers : ∀ d ∈ s.callTriggers, d ∈ t.callTriggers
  base : SameBase s t
  rest : t.agents = s.agents ∧ t.agentTriggers = s.agentTriggers ∧ t.sweepWaiting = s.sweepWaiting

theorem requeued_attempted {s : State} {c : CallSlot} {q : CallRec} (entry : (s.call c).map CallRec.entry = some q.entry) :
    Attempted s (s.requeued c { q with pendingOverflow := false }) c q none := by
  have group (h : Group) := requeued_group s c { q with pendingOverflow := false } h
  have queueing (h : Group) := requeued_queueing s c { q with pendingOverflow := false } h entry
  have call (d : CallSlot) := requeued_call s c d { q with pendingOverflow := false }
  have now := (call c).trans (if_pos rfl)
  have ports (y : Shelf) : SameQueue s (s.requeued c { q with pendingOverflow := false }) (portOf y) := ⟨rfl, rfl⟩
  refine ⟨⟨_, now, rfl⟩, fun d ne => (call d).trans (if_neg ne), fun _ => now, fun _ h => (queueing h).queue, nofun, fun h => ?_,
    fun h => by rw [group], fun h => by rw [group], nofun, fun h agrees => ?_, .of_evaluated fun h => .inl ?_, .of_same fun y => (ports y).1,
    fun y => ?_, fun _ => ports, fun _ hd => hd, ?_, rfl, rfl, rfl⟩
  · rw [group]
    simp [Stats.afterMove]
  · rw [group, (queueing h).noStaffHolds]
    exact agrees
  · rw [group]
    exact ⟨rfl, rfl⟩
  · exact (ports y).1.trans (placed_nil _).symm
  · constructor <;> rfl

/-- The requeue itself takes no group from the overflow's reach. -/
theorem requeued_overflowTo (s : State) (c : CallSlot) (q : CallRec) :
    (s.requeued c { q with pendingOverflow := false }).overflowTo { q with pendingOverflow := false } = s.overflowTo q := by
  have group (h : Group) := requeued_group s c { q with pendingOverflow := false } h
  exact overflowTo_congr (fun h => by rw [group]) (fun h => by rw [group]) (fun h => by rw [group]) rfl rfl rfl

theorem overflow_attempted {s : State} {c : CallSlot} {q : CallRec} {g : Group} (entry : (s.call c).map CallRec.entry = some q.entry)
    (queued : q.state = .queued) (target : s.overflowTo q = some g) :
    Attempted s ((s.requeued c { q with pendingOverflow := false }).tryOverflow c) c q (some g) := by
  have group (h : Group) := requeued_group s c { q with pendingOverflow := false } h
  have queueing (h : Group) := requeued_queueing s c { q with pendingOverflow := false } h entry
  have call (d : CallSlot) := requeued_call s c d { q with pendingOverflow := false }
  have first := requeued_attempted entry
  have now := (call c).trans (if_pos rfl)
  have same := (requeued_overflowTo s c q).trans target
  obtain ⟨v, k, moves, here, fields, hears, play, _, _, _, _, _, _, _, after⟩ := tryOverflow_follows now queued same
  obtain ⟨_, _, _, _, rest⟩ := moves.rest
  have active (h : Group) : ((s.requeued c { q with pendingOverflow := false }).group h).active = (s.group h).active := by rw [group]
  have music : (s.requeued c { q with pendingOverflow := false }).groupMusic g = s.groupMusic g := by
    rw [groupMusic_eq, groupMusic_eq, active]
  have told (y : Shelf) := hears.notices y
  have told_of (y : Shelf) : (s.requeued c { q with pendingOverflow := false }).moveListens { q with pendingOverflow := false } g y
      = s.moveListens q g y := by
    rw [moveListens_eq, moveListens_eq, music]
    rfl
  have record : { q with pendingOverflow := false }.overflowed (s.requeued c { q with pendingOverflow := false }) (some g)
      = q.overflowed s (some g) := joined_congr (active g) rfl _
  have base : SameBase s ((s.requeued c { q with pendingOverflow := false }).tryOverflow c) := by
    rw [after, rest]
    constructor <;> rfl
  have ports (y : Shelf) : (v.port (portOf y)).notices = ((s.requeued c { q with pendingOverflow := false }).port (portOf y)).notices := by
    rw [rest]
    cases y <;> rfl
  have off := congrArg CallRec.offPlayout fields
  rw [record] at off
  have kept (h : Group) := moves.kept h
  generalize s.requeued c { q with pendingOverflow := false } = u at *
  generalize u.tryOverflow c = t at *
  have group_after (h : Group) : t.group h = v.group h := by rw [after]; rfl
  have evaluated_last : (t.group g).conditions = { depth := t.depthHolds g, wait := t.waitHolds g, noStaff := t.noStaffHolds g } := by
    rw [group_after, moves.evaluated_last, (play.queueing g).depthHolds, (play.queueing g).waitHolds, (play.queueing g).noStaffHolds]
  have evaluated_left (ne : g ≠ q.group) : (t.group q.group).conditions =
      { depth := t.depthHolds q.group, wait := t.waitHolds q.group, noStaff := t.noStaffHolds q.group } := by
    rw [group_after, (play.queueing _).depthHolds, (play.queueing _).waitHolds, (play.queueing _).noStaffHolds]
    exact (moves.evaluated_left ne).conditions
  refine ⟨⟨k, here, off⟩, fun d ne => ?_, nofun, nofun, ?_, fun h => ?_, fun h => ?_, fun h => ?_, ?_, fun h agrees => ?_, ?_, ?_, fun y => ?_,
    nofun, fun d hd => ?_, base, ?_⟩
  · exact (play.other ne).trans ((moves.others d ne).trans (first.others d ne))
  · rintro f ⟨⟩
    rw [group_after, group_after]
    exact ⟨moves.joins, fun ne => (moves.leaves ne).trans (by rw [group])⟩
  · rw [group_after, moves.stats, group]
  · rw [group_after]
    exact (congrArg GroupRec.offers (moves.kept h)).trans (first.offers h)
  · have outer := moves.kept h
    rw [group] at outer
    rw [group_after]
    exact congrArg (fun r : GroupRec => { r with offers := (s.group h).offers }) outer
  · rintro f ⟨⟩ ne h (rfl | rfl)
    · exact evaluated_last
    · exact evaluated_left ne
  · by_cases joins : h = g
    · rw [joins, evaluated_last]
    · by_cases leaves : h = q.group
      · rw [leaves, evaluated_left fun e => joins (leaves.trans e.symm)]
      · have still : t.group h = u.group h := (group_after h).trans (moves.elsewhere h joins leaves)
        rw [noStaffHolds_congr (s := u) (by rw [still]) (by rw [still]), still]
        exact first.noStaff h agrees
  · exact (first.flags.trans moves.flags).trans (.of_evaluated fun h => .inl (by rw [group_after]; exact ⟨rfl, rfl⟩))
  · exact (first.listens.trans (.of_same ports)).trans play.listensOnly
  · rw [told, told_of]
    have start := first.notices y
    rw [State.attemptListens, placed_nil] at start
    rw [start]
    rfl
  · rw [after, rest]
    dsimp only
    split
    · exact first.triggers d hd
    · exact List.mem_append_left _ (first.triggers d hd)
  · obtain ⟨agents, triggers, sweep⟩ := first.rest
    rw [after, rest]
    exact ⟨agents, triggers, sweep⟩


/-! ### A call back in a queue (R98, R101) -/

/-- The record with which call `c`, of record `r`, returns to QUEUED at the end of its offer to agent `a`. -/
def CallRec.returned (r : CallRec) (a : AgentSlot) (counted : Bool) : CallRec :=
  { r with
    state := .queued, boundAgent := none, ring := none, lastRefused := some a
    noAnswers := if counted then min 7 (r.noAnswers + 1) else r.noAnswers }

/-- An overflow move is attempted at a requeue (R70). -/
def State.attempts (s : State) (r : CallRec) (a : AgentSlot) (counted : Bool) : Bool :=
  (counted && (r.returned a counted).noAnswers == (s.group r.group).active.noAnswerLimit) || r.pendingOverflow

/-- The state in which the requeue of call `c` and its attempt are over, and the group's swap may follow. -/
def State.attempted (s : State) (c : CallSlot) (r : CallRec) (a : AgentSlot) (counted : Bool) : State :=
  let u := s.requeued c { r.returned a counted with pendingOverflow := false }
  if s.attempts r a counted then u.tryOverflow c else u

/-- The group that a requeue's attempt finds. -/
def State.attemptTo (s : State) (r : CallRec) (a : AgentSlot) (counted : Bool) : Option Group :=
  if s.attempts r a counted then s.overflowTo r else none

theorem returnCall_eq {s : State} {c : CallSlot} {r : CallRec} (call : s.call c = some r) (a : AgentSlot) (counted : Bool) :
    s.returnCall c r.group a counted = ((s.attempted c r a counted).swapIfQuiet r.group).raiseCallTrigger c := by
  have requeue : s.requeue c a counted = s.putCall c (some (r.returned a counted)) := modCall_some call _
  have here : ((s.putCall c (some (r.returned a counted))).endOffer r.group).call c = some (r.returned a counted) :=
    State.putCall_call_self ..
  have limit : (((s.putCall c (some (r.returned a counted))).endOffer r.group).group r.group).active = (s.group r.group).active :=
    (congrArg GroupRec.active (requeued_group s c (r.returned a counted) r.group) :)
  have cleared : (((s.putCall c (some (r.returned a counted))).endOffer r.group).modCall c fun k => { k with pendingOverflow := false })
      = s.requeued c { r.returned a counted with pendingOverflow := false } :=
    (modCall_some here _).trans (congrArg (fun u : State => u.endOffer r.group) (putCall_putCall s c _ _))
  have attempt : (((s.putCall c (some (r.returned a counted))).endOffer r.group).overflowAtRequeue c counted) = s.attempted c r a counted := by
    rw [State.overflowAtRequeue, here]
    dsimp only
    rw [cleared, show (r.returned a counted).group = r.group from rfl, limit]
    rfl
  rw [State.returnCall, requeue, attempt]

theorem attempted_attempted {s : State} {c : CallSlot} {r : CallRec} (call : s.call c = some r) (a : AgentSlot) (counted : Bool) :
    Attempted s (s.attempted c r a counted) c (r.returned a counted) (s.attemptTo r a counted) := by
  have entry : (s.call c).map CallRec.entry = some (r.returned a counted).entry := by rw [call]; rfl
  have queued : (r.returned a counted).state = .queued := rfl
  have target : s.overflowTo (r.returned a counted) = s.overflowTo r := rfl
  unfold State.attempted State.attemptTo
  dsimp only
  by_cases attempts : s.attempts r a counted = true
  · rw [if_pos attempts, if_pos attempts]
    cases found : s.overflowTo r with
    | some g => exact overflow_attempted entry queued (target.trans found)
    | none =>
      have stuck := (requeued_overflowTo s c (r.returned a counted)).trans (target.trans found)
      have now := (requeued_call s c c { r.returned a counted with pendingOverflow := false }).trans (if_pos rfl)
      rw [tryOverflow_stays now queued stuck]
      exact requeued_attempted entry
  · rw [if_neg attempts, if_neg attempts]
    exact requeued_attempted entry



/-! ### What a settled swap leaves to the conditions -/

namespace SwapSettled

variable {s t : State} {g : Group} (h : SwapSettled s t g)
include h

theorem entry (c : CallSlot) : (t.call c).map CallRec.entry = (s.call c).map CallRec.entry := by
  have entry (o : Option CallRec) : o.map CallRec.entry = (o.map CallRec.offPlayout).map CallRec.entry := by cases o <;> rfl
  rw [entry, h.calls, ← entry]

theorem queue (i : Group) : (t.group i).queue = (s.group i).queue := by
  rw [h.group]
  split
  next both => rw [both.1]; rfl
  next => rfl

theorem staffed (i : Group) : (t.group i).staffed = (s.group i).staffed := by
  rw [h.group]
  split
  next both => rw [both.1]; rfl
  next => rfl

/-- DEPTH and WAIT hold as evaluated: under the new set where it has come, and as before elsewhere. -/
theorem swapped_holds (due : (s.group g).swapPending = true ∧ (s.group g).offers = 0) :
    (t.group g).conditions.depth = t.depthHolds g ∧ (t.group g).conditions.wait = t.waitHolds g := by
  have record := (h.group g).trans (if_pos ⟨rfl, due⟩)
  have longest : t.longestWait g = s.longestWait g := by
    rw [longestWait_eq, longestWait_eq, h.queue, h.base.clock]
    simp only [h.entry]
  rw [State.depthHolds, State.waitHolds, longest, record]
  exact ⟨rfl, rfl⟩

theorem unswapped {i : Group} (away : ¬(i = g ∧ (s.group g).swapPending = true ∧ (s.group g).offers = 0)) : SameQueueing s t i := by
  have record := (h.group i).trans (if_neg away)
  exact ⟨by rw [record], by rw [record], by rw [record], h.base.clock, fun c _ => h.entry c⟩

theorem noStaff (i : Group) : t.noStaffHolds i = s.noStaffHolds i ∧ (t.group i).conditions.noStaff = (s.group i).conditions.noStaff := by
  refine ⟨noStaffHolds_congr (h.queue i) (h.staffed i), ?_⟩
  rw [h.group]
  split
  next both => rw [both.1]; rfl
  next => rfl

/-- A group whose three conditions have been evaluated is so after the swap. -/
theorem evaluated {i : Group}
    (holds : (s.group i).conditions = { depth := s.depthHolds i, wait := s.waitHolds i, noStaff := s.noStaffHolds i }) :
    (t.group i).conditions = { depth := t.depthHolds i, wait := t.waitHolds i, noStaff := t.noStaffHolds i } := by
  by_cases swapped : i = g ∧ (s.group g).swapPending = true ∧ (s.group g).offers = 0
  · obtain ⟨rfl, due⟩ := swapped
    obtain ⟨depth, wait⟩ := h.swapped_holds due
    obtain ⟨same, noStaff⟩ := h.noStaff i
    have held : (s.group i).conditions.noStaff = s.noStaffHolds i := by rw [holds]
    rw [← depth, ← wait, same, ← held, ← noStaff]
  · have still := h.unswapped swapped
    rw [still.depthHolds, still.waitHolds, still.noStaffHolds, (h.group i).trans (if_neg swapped), holds]

theorem flags : FlagsFollow s t := by
  intro i
  by_cases swapped : i = g ∧ (s.group g).swapPending = true ∧ (s.group g).offers = 0
  · obtain ⟨rfl, due⟩ := swapped
    rw [(h.group i).trans (if_pos ⟨rfl, due⟩)]
    exact ⟨id, id, (FlagsFollow.refl s i).2.2⟩
  · rw [(h.group i).trans (if_neg swapped)]
    exact FlagsFollow.refl s i

end SwapSettled

theorem overflowed_congr {s t : State} (active : ∀ h, (t.group h).active = (s.group h).active) (clock : t.clock = s.clock) (q : CallRec)
    (o : Option Group) : q.overflowed t o = q.overflowed s o := by
  cases o with
  | none => rfl
  | some g => exact joined_congr (active g) clock _



/-! ### The offer's end as a whole: the agent, then the call -/

/-- An offer of call `c`, of record `r`, to agent `a` ends from `s`: in `u` the agent has the record `new`, bound to no call, and the call
waits to be requeued. -/
structure OfferEnds (s u : State) (c : CallSlot) (r : CallRec) (a : AgentSlot) (new : AgentRec) : Prop where
  call : s.call c = some r
  waits : ∃ ring, AgentEffect (s.putCall c (some { r with boundAgent := none, ring := ring })) u a new
    ∧ u.call c = some { r with boundAgent := none, ring := ring }
  unbound : new.boundCall = none
  home : new.home = (s.agent a).home
  owed : new.owed = (s.agent a).owed

namespace OfferEnds

variable {s u : State} {c : CallSlot} {r : CallRec} {a : AgentSlot} {new : AgentRec} (h : OfferEnds s u c r a new)
include h

theorem others (d : CallSlot) (ne : d ≠ c) : u.call d = s.call d := by
  obtain ⟨ring, effect, -⟩ := h.waits
  rw [effect.rest]
  exact (State.putCall_call ..).trans (if_neg ne)

theorem kept (g : Group) : ∃ staffed conditions flags, u.group g =
    { s.group g with
      staffed := staffed, flags := { (s.group g).flags with noStaff := flags },
      conditions := { (s.group g).conditions with noStaff := conditions } } := by
  obtain ⟨ring, effect, -⟩ := h.waits
  by_cases same : (s.agent a).staffs g = new.staffs g
  · exact ⟨_, _, _, effect.kept g same⟩
  · exact ⟨_, _, _, effect.noStaff g same⟩

theorem staffed (g : Group) : (u.group g).staffed = staffedAfter (s.agent a) new g (s.group g).staffed := by
  obtain ⟨ring, effect, -⟩ := h.waits
  exact effect.staffed g

theorem flags : FlagsFollow s u := by
  obtain ⟨ring, effect, -⟩ := h.waits
  intro g
  by_cases same : (s.agent a).staffs g = new.staffs g
  · have record : u.group g = s.group g := effect.kept g same
    rw [record]
    exact FlagsFollow.refl s g
  · have record := effect.noStaff g same
    rw [record]
    exact ⟨(FlagsFollow.refl s g).1, (FlagsFollow.refl s g).2.1, id⟩

theorem base : SameBase s u := by
  obtain ⟨ring, effect, -⟩ := h.waits
  rw [effect.rest]
  constructor <;> rfl

theorem plain : u.callTriggers = s.callTriggers ∧ u.sweepWaiting = s.sweepWaiting := by
  obtain ⟨ring, effect, -⟩ := h.waits
  rw [effect.rest]
  exact ⟨rfl, rfl⟩

/-- The AGENT_STATE notice, as the ports of the shelves get it. -/
theorem notices (y : Shelf) : (u.port (portOf y)).notices =
    placed (s.port (portOf y)).notices (if y = (s.agent a).home then [s.stateNotice a new] else []) := by
  obtain ⟨ring, effect, -⟩ := h.waits
  have told := effect.notices y
  have notice : (s.putCall c (some { r with boundAgent := none, ring := ring })).stateNotice a new = s.stateNotice a new := by
    simp only [State.stateNotice, h.unbound, Option.bind_none]
    rfl
  rw [h.home, notice] at told
  exact told

theorem owedList (y : Shelf) : (u.port (portOf y)).owed =
    if y = (s.agent a).home ∧ s.hasRoom (portOf y) = false ∧ (s.agent a).owed = false then
      (s.port (portOf y)).owed ++ [.agentState a] else (s.port (portOf y)).owed := by
  obtain ⟨ring, effect, -⟩ := h.waits
  by_cases here : y = (s.agent a).home
  · have owes := effect.owed
    rw [h.home, h.owed, ← here] at owes
    refine owes.trans ?_
    change (if (s.hasRoom (portOf y) || (s.agent a).owed) = true then _ else _) = _
    cases s.hasRoom (portOf y) <;> cases (s.agent a).owed <;> simp [here] <;> rfl
  · rw [if_neg fun both => here both.1]
    exact (effect.queues _ (fun e => here (by rw [h.home] at e; exact portOf_injective e)) (portOf_ne_s y)).2

end OfferEnds


theorem attemptTo_eq {s u : State} {r r' : CallRec} (active : ∀ h, (u.group h).active = (s.group h).active)
    (queue : ∀ h, (u.group h).queue = (s.group h).queue)
    (closed : ∀ h, (u.group h).supervisorClosed = (s.group h).supervisorClosed) (lines : u.lines = s.lines) (a : AgentSlot) (counted : Bool)
    (group : r'.group = r.group) (hops : r'.hops = r.hops) (noAnswers : r'.noAnswers = r.noAnswers)
    (pending : r'.pendingOverflow = r.pendingOverflow) :
    u.attemptTo r' a counted = if s.attempts r a counted then s.overflowTo r else none := by
  have attempts : u.attempts r' a counted = s.attempts r a counted := by
    simp only [State.attempts, CallRec.returned, noAnswers, group, active, pending]
  rw [State.attemptTo, attempts, overflowTo_congr active queue closed lines group hops]

/-- At the end of an offer the call is back in a queue, behind the agent's change. -/
theorem offer_returned {s u : State} {c : CallSlot} {r : CallRec} {a : AgentSlot} {new : AgentRec} (ends : OfferEnds s u c r a new)
    (counted : Bool) :
    OfferReturned s (u.returnCall c r.group a counted) c r a (r.returned a counted).noAnswers (s.attempts r a counted)
      ∧ (u.agentTriggers = (if new.state = .ready ∧ a ∉ s.agentTriggers then s.agentTriggers ++ [a] else s.agentTriggers) →
        AgentSide s (u.returnCall c r.group a counted) a new) := by
  obtain ⟨ring, effect, waits⟩ := ends.waits
  have kept (h : Group) := ends.kept h
  have active (h : Group) : (u.group h).active = (s.group h).active := by obtain ⟨_, _, _, e⟩ := kept h; rw [e]
  have staged (h : Group) : (u.group h).staged = (s.group h).staged := by obtain ⟨_, _, _, e⟩ := kept h; rw [e]
  have queue (h : Group) : (u.group h).queue = (s.group h).queue := by obtain ⟨_, _, _, e⟩ := kept h; rw [e]
  have stats (h : Group) : (u.group h).stats = (s.group h).stats := by obtain ⟨_, _, _, e⟩ := kept h; rw [e]
  have offers (h : Group) : (u.group h).offers = (s.group h).offers := by obtain ⟨_, _, _, e⟩ := kept h; rw [e]
  have pending (h : Group) : (u.group h).swapPending = (s.group h).swapPending := by obtain ⟨_, _, _, e⟩ := kept h; rw [e]
  have closed (h : Group) : (u.group h).supervisorClosed = (s.group h).supervisorClosed := by obtain ⟨_, _, _, e⟩ := kept h; rw [e]
  have target := attemptTo_eq (r := r) active queue closed ends.base.lines a counted
    (r' := { r with boundAgent := none, ring := ring }) rfl rfl rfl rfl
  have attempted := attempted_attempted waits a counted
  have settled := swapIfQuiet_settled (u.attempted c { r with boundAgent := none, ring := ring } a counted) r.group
  rw [target] at attempted
  have flow : u.returnCall c r.group a counted = _ := returnCall_eq waits a counted
  rw [flow]
  change Attempted u _ c (r.returned a counted) _ at attempted
  generalize u.attempted c { r with boundAgent := none, ring := ring } a counted = v at *
  change OfferReturned s ((v.swapIfQuiet r.group).raiseCallTrigger c) c r a _ _ ∧ (_ → AgentSide s ((v.swapIfQuiet r.group).raiseCallTrigger c) a new)
  generalize v.swapIfQuiet r.group = w at *
  have raised := raiseCallTrigger_eq w c
  generalize w.raiseCallTrigger c = t at *
  generalize found : (if s.attempts r a counted = true then s.overflowTo r else none) = o at attempted
  have v_kept (h : Group) : ∃ q st of conditions flags staffed, v.group h =
      { s.group h with queue := q, stats := st, offers := of, conditions := conditions, flags := flags, staffed := staffed } := by
    obtain ⟨_, _, _, e⟩ := kept h
    have inner := attempted.kept h
    rw [e] at inner
    refine ⟨(v.group h).queue, (v.group h).stats, (v.group h).offers, (v.group h).conditions, (v.group h).flags, (v.group h).staffed, ?_⟩
    exact (congrArg (fun k : GroupRec => { k with
      queue := (v.group h).queue, stats := (v.group h).stats, offers := (v.group h).offers, conditions := (v.group h).conditions,
      flags := (v.group h).flags, staffed := (v.group h).staffed }) inner :)
  have v_staffed (h : Group) : (v.group h).staffed = (u.group h).staffed := (congrArg GroupRec.staffed (attempted.kept h) :)
  have v_pending : (v.group r.group).swapPending = (s.group r.group).swapPending := by
    obtain ⟨_, _, _, _, _, _, e⟩ := v_kept r.group
    rw [e]
  have v_offers : (v.group r.group).offers = (s.group r.group).offers - 1 := by
    rw [attempted.offers, offers]
    exact if_pos rfl
  have due : ((v.group r.group).swapPending && (v.group r.group).offers == 0) = s.swapDue r.group := by
    rw [v_pending, v_offers, State.swapDue]
    congr 1
    rw [Bool.eq_iff_iff, beq_iff_eq, decide_eq_true_eq]
    omega
  have due_iff : ((v.group r.group).swapPending = true ∧ (v.group r.group).offers = 0) ↔ s.swapDue r.group = true := by
    rw [← due, Bool.and_eq_true, beq_iff_eq]
  have group (h : Group) : t.group h = if h = r.group ∧ s.swapDue r.group = true then v.swappedGroup r.group else v.group h := by
    have swapped := settled.group h
    simp only [due_iff] at swapped
    rw [raised]
    exact swapped
  have w_group (h : Group) : t.group h = w.group h := by rw [raised]; rfl
  have w_call (d : CallSlot) : t.call d = w.call d := by rw [raised]; rfl
  have w_port (y : Shelf) : t.port (portOf y) = w.port (portOf y) := by rw [raised]; cases y <;> rfl
  have holds (h : Group) : SameQueueing w t h := by
    rw [raised]
    exact ⟨rfl, rfl, rfl, rfl, fun _ _ => rfl⟩
  have t_queue (h : Group) : (t.group h).queue = (v.group h).queue := (congrArg GroupRec.queue (w_group h)).trans (settled.queue h)
  have t_staffed (h : Group) : (t.group h).staffed = (v.group h).staffed := (congrArg GroupRec.staffed (w_group h)).trans (settled.staffed h)
  have base : SameBase v t := by
    have := settled.base
    rw [raised]
    exact ⟨this.clock, this.seqCounter, this.lines, this.seed, this.taps, this.generator, this.ram, this.programs, this.vocab,
      this.slotMap, this.idleModes, this.idleByte, this.highway, this.free, this.pending⟩
  have listens : ListensOnly u t := (attempted.listens.trans settled.listens).trans (.of_same fun y => by rw [w_port])
  have flags : FlagsFollow s t :=
    ((ends.flags.trans attempted.flags).trans settled.flags).trans (.of_evaluated fun h => .inl (by rw [w_group]; exact ⟨rfl, rfl⟩))
  have agents : t.agents = u.agents := by
    rw [raised]
    exact settled.rest.1.trans attempted.rest.1
  have agent (b : AgentSlot) : t.agent b = u.agent b := congrArg (Vector.get · b) agents
  have calls (d : CallSlot) : (t.call d).map CallRec.offPlayout = (v.call d).map CallRec.offPlayout := by
    rw [w_call]
    exact settled.calls d
  have fields (h : Group) : ∃ active pending conditions flags, t.group h =
      { v.group h with active := active, swapPending := pending, conditions := conditions, flags := flags } := by
    rw [group]
    split
    next both => rw [both.1]; exact ⟨_, _, _, _, rfl⟩
    next => exact ⟨_, _, _, _, rfl⟩
  constructor
  · constructor
    · obtain ⟨k, here, off⟩ := attempted.call
      have now := calls c
      rw [here, Option.map_some, Option.map_eq_some_iff] at now
      obtain ⟨q, at_, same⟩ := now
      refine ⟨q, at_, same.trans (off.trans ?_)⟩
      rw [found, overflowed_congr active ends.base.clock]
      rfl
    · intro d ne
      rw [calls, attempted.others d ne, ends.others d ne]
    · rw [found]
      intro idle h
      rw [t_queue, attempted.stays idle, queue]
    · rw [found]
      intro g moves
      obtain ⟨joins, leaves⟩ := attempted.leaves g moves
      rw [t_queue, t_queue]
      refine ⟨joins, fun ne => ?_⟩
      have left : (v.group r.group).queue = (u.group r.group).queue.filter (· != c) := leaves ne
      rw [left]
      simp
    · intro h
      obtain ⟨_, _, _, _, e⟩ := fields h
      rw [found, e, ← stats]
      exact attempted.stats h
    · intro h
      obtain ⟨_, _, _, _, e⟩ := fields h
      rw [e, ← offers]
      exact attempted.offers h
    · intro h
      obtain ⟨_, _, _, _, _, _, e⟩ := v_kept h
      by_cases swaps : h = r.group ∧ s.swapDue h = true
      · have here : h = r.group ∧ s.swapDue r.group = true := ⟨swaps.1, swaps.1 ▸ swaps.2⟩
        rw [if_pos swaps, if_pos swaps, group, if_pos here, ← here.1, State.swappedGroup, e]
        exact ⟨rfl, rfl⟩
      · have away : ¬(h = r.group ∧ s.swapDue r.group = true) := fun both => swaps ⟨both.1, both.1.symm ▸ both.2⟩
        rw [if_neg swaps, if_neg swaps, group, if_neg away, e]
        exact ⟨rfl, rfl⟩
    · have sweep := settled.sweep
      rw [due, attempted.rest.2.2, ends.plain.2] at sweep
      rw [raised]
      exact sweep
    · have triggers : w.callTriggers = v.callTriggers := settled.rest.2.2.1
      have risen : t.callTriggers = if c ∈ v.callTriggers then v.callTriggers else v.callTriggers ++ [c] := by rw [raised, ← triggers]
      rw [risen, ← ends.plain.1]
      split
      next waits => exact ⟨waits, attempted.triggers⟩
      next => exact ⟨by simp, fun d hd => List.mem_append_left _ (attempted.triggers d hd)⟩
    · rw [found]
      intro g moves ne h either
      have evaluated := settled.evaluated (attempted.moved g moves ne h either)
      rw [(holds h).depthHolds, (holds h).waitHolds, (holds h).noStaffHolds, w_group]
      exact evaluated
    · intro swaps
      have evaluated := settled.swapped_holds (due_iff.mpr swaps)
      rw [(holds _).depthHolds, (holds _).waitHolds, w_group]
      exact evaluated
    · exact flags
    · intro h
      obtain ⟨_, _, _, _, e⟩ := fields h
      obtain ⟨_, _, _, _, _, _, inner⟩ := v_kept h
      rw [e, inner]
    · rw [found]
      intro away distinct y
      have notice : s.stateNotice a (t.agent a) = s.stateNotice a new := by rw [agent, effect.record]; rfl
      have move (g : Group) : u.moveListens (r.returned a counted) g y = s.moveListens r g y := by
        rw [moveListens_eq, moveListens_eq, groupMusic_eq, groupMusic_eq, active]
        simp only [heard_congr ends.base.slotMap]
        rfl
      have music : (v.group r.group).active.music = (s.group r.group).active.music
          ∧ (v.group r.group).staged.music = (s.group r.group).staged.music := by
        obtain ⟨_, _, _, _, _, _, e⟩ := v_kept r.group
        rw [e]
        exact ⟨rfl, rfl⟩
      have slots : v.slotMap = s.slotMap := attempted.base.slotMap.trans ends.base.slotMap
      have other (d : CallSlot) (ne : d ≠ c) : v.call d = s.call d := (attempted.others d ne).trans (ends.others d ne)
      rw [w_port, notice]
      cases o with
      | none =>
        have members : (v.group r.group).queue = (s.group r.group).queue := (attempted.stays rfl _).trans (queue _)
        have swap : v.swapListens r.group y = s.swapListens r.group y := by
          refine swapListens_of music.1 music.2 members slots (fun d _ => ?_) y
          by_cases same : d = c
          · rw [same, attempted.unmoved rfl, ends.call]
            rfl
          · rw [other d same]
        rw [settled.notices (by rw [members]; exact distinct) y, attempted.notices, ends.notices, placed_placed, placed_placed, due, swap]
        rfl
      | some g =>
        have ne : g ≠ r.group := fun e => away (by rw [e])
        have members : (v.group r.group).queue = (s.group r.group).queue.filter (· != c) :=
          ((attempted.leaves g rfl).2 ne).trans (by rw [queue]; rfl)
        have swap : v.swapListens r.group y = (s.setGroup r.group { s.group r.group with
            queue := (s.group r.group).queue.filter (· != c) }).swapListens r.group y := by
          have self : (s.setGroup r.group { s.group r.group with queue := (s.group r.group).queue.filter (· != c) }).group r.group = _ :=
            State.setGroup_group_self ..
          refine swapListens_of (s := s.setGroup r.group { s.group r.group with
            queue := (s.group r.group).queue.filter (· != c) }) (by rw [self]; exact music.1) (by rw [self]; exact music.2) (by rw [self]; exact members) slots
            (fun d hd => ?_) y
          rw [self] at hd
          have ne : d ≠ c := by simpa using (List.mem_filter.mp hd).2
          rw [other d ne]
          rfl
        rw [settled.notices (by rw [members]; exact distinct.filter _) y, attempted.notices, ends.notices, placed_placed, placed_placed, due,
          swap, State.attemptListens, move]
    · rw [found]
      intro idle still y
      have same : w = v := settled.quiet (due.trans still)
      rw [w_port, same, (attempted.quiet idle y).2]
      exact ends.owedList y
    · exact (ends.base.trans attempted.base).trans base
  · intro trigger
    constructor
    · rw [agent]
      exact effect.record
    · intro b ne
      rw [agent]
      exact effect.others b ne
    · obtain ⟨l, listens, notices⟩ := listens new.home
      refine ⟨l, listens, notices.trans (congrArg (· ++ l) ?_)⟩
      rw [ends.notices, if_pos ends.home, placed_singleton]
      simp only [State.hasRoom, decide_eq_true_eq]
    · intro h
      rw [t_staffed, v_staffed]
      exact effect.staffed h
    · intro h differs
      have evaluated : (u.group h).conditions.noStaff = u.noStaffHolds h := congrArg (fun k : GroupRec => k.conditions.noStaff) (effect.noStaff h differs)
      obtain ⟨same, still⟩ := settled.noStaff h
      rw [w_group, (holds h).noStaffHolds, same, still]
      exact attempted.noStaff h evaluated
    · have triggers : t.agentTriggers = u.agentTriggers := by
        rw [raised]
        exact settled.rest.2.1.trans attempted.rest.2.1
      rw [triggers, trigger]

end Sys2Proof.Machine

/-! Ring-no-answer (R98, R99) and the withdrawal of an offer by AUX and SIGN_OUT (R12 to R15, R101): O23, O18, O19. -/

namespace Sys2Proof.Machine

/-! ### The end of an offer by a request -/

namespace SameData

variable {s t : State} (h : SameData s t)
include h

theorem overflowTo (r : CallRec) : t.overflowTo r = s.overflowTo r :=
  overflowTo_congr (fun _ => by rw [h.group]) (fun _ => by rw [h.group]) (fun _ => by rw [h.group]) h.base.lines rfl rfl

theorem swapDue (g : Group) : t.swapDue g = s.swapDue g := by rw [State.swapDue, State.swapDue, h.group]

theorem hasRoom (p : Port) : t.hasRoom p = s.hasRoom p := hasRoom_congr (h.notices p)

theorem owed (p : Port) : (t.port p).owed = (s.port p).owed := (h.queues p).2

theorem stateNotice (a : AgentSlot) (r : AgentRec) : t.stateNotice a r = s.stateNotice a r := stateNotice_congr h.calls h.base.clock a r

theorem swapListens (g : Group) (y : Shelf) : t.swapListens g y = s.swapListens g y :=
  swapListens_congr h.groups h.calls h.base.slotMap g y

theorem moveListens (r : CallRec) (g : Group) (y : Shelf) : t.moveListens r g y = s.moveListens r g y := by
  rw [moveListens_eq, moveListens_eq, groupMusic_eq, groupMusic_eq, h.group]
  simp only [heard_congr h.base.slotMap]

theorem depthHolds (g : Group) : t.depthHolds g = s.depthHolds g := by rw [State.depthHolds, State.depthHolds, h.group]

theorem noStaffHolds (g : Group) : t.noStaffHolds g = s.noStaffHolds g := by rw [State.noStaffHolds, State.noStaffHolds, h.group]

theorem waitHolds (g : Group) : t.waitHolds g = s.waitHolds g :=
  waitHolds_congr (by rw [h.group]) (by rw [h.group]) h.base.clock fun _ _ => by rw [h.call]

theorem setGroup (g : Group) (r : GroupRec) : SameData (s.setGroup g r) (t.setGroup g r) where
  rest := by rw [h.rest]; rfl
  queues p := h.queues p

end SameData

theorem FlagsFollow.request {s u v t : State} (h : FlagsFollow u v) (before : SameData s u) (after : SameData v t) : FlagsFollow s t := by
  intro g
  have follows := h g
  rw [before.group, ← after.group] at follows
  exact follows

theorem AgentSide.request {s u v t : State} {a : AgentSlot} {new : AgentRec} (h : AgentSide u v a new) (before : SameData s u)
    (after : SameData v t) : AgentSide s t a new := by
  obtain ⟨record, others, notice, staffed, noStaff, trigger⟩ := h
  simp only [before.agent, before.group, before.notices, before.hasRoom, before.stateNotice, before.agentTriggers] at *
  constructor
  · rwa [after.agent]
  · simpa only [after.agent] using others
  · simpa only [after.notices] using notice
  · simpa only [after.group] using staffed
  · simpa only [after.group, after.noStaffHolds] using noStaff
  · rwa [after.agentTriggers]

theorem OfferReturned.request {s u v t : State} {c : CallSlot} {r : CallRec} {a : AgentSlot} {count : Nat} {attempt : Bool}
    (h : OfferReturned u v c r a count attempt) (before : SameData s u) (after : SameData v t) :
    OfferReturned s t c r a count attempt := by
  have record (q : CallRec) (o : Option Group) : q.overflowed u o = q.overflowed s o :=
    overflowed_congr (fun _ => by rw [before.group]) before.base.clock q o
  have swap (g : Group) (k : GroupRec) (y : Shelf) : (u.setGroup g k).swapListens g y = (s.setGroup g k).swapListens g y :=
    (before.setGroup g k).swapListens g y
  obtain ⟨call, others, stays, leaves, stats, offers, swaps, sweep, trigger, moved, swapped, flags, kept, notices, quiet, base⟩ := h
  simp only [before.agent, before.group, before.notices, before.owed, before.hasRoom, before.stateNotice, before.overflowTo, before.swapDue,
    before.swapListens, before.moveListens, before.call, before.sweepWaiting, before.callTriggers, record, swap] at *
  constructor
  · simpa only [after.call] using call
  · simpa only [after.call] using others
  · simpa only [after.group] using stays
  · simpa only [after.group] using leaves
  · simpa only [after.group] using stats
  · simpa only [after.group] using offers
  · simpa only [after.group] using swaps
  · rwa [after.sweepWaiting]
  · rwa [after.callTriggers]
  · simpa only [after.group, after.depthHolds, after.waitHolds, after.noStaffHolds] using moved
  · simpa only [after.group, after.depthHolds, after.waitHolds] using swapped
  · exact flags.request before after
  · simpa only [after.group] using kept
  · simpa only [after.notices, after.agent] using notices
  · simpa only [after.owed] using quiet
  · exact (before.base.trans base).trans after.base


/-! ### Ring-no-answer and withdrawal (R98, R101) -/

/-- The agent's change at the end of an offer, as the first step towards the call's return. -/
theorem OfferEnds.of_change {s u : State} {c : CallSlot} {r : CallRec} {a : AgentSlot} {st : AgentState} {reason idle : Nat}
    {ring : Option Nat} (call : s.call c = some r)
    (effect : AgentEffect (s.putCall c (some { r with boundAgent := none, ring := ring })) u a ((s.agent a).unbound st reason idle)) :
    OfferEnds s u c r a ((s.agent a).unbound st reason idle) where
  call := call
  waits := by
    refine ⟨ring, effect, ?_⟩
    rw [effect.rest]
    exact State.putCall_call_self ..
  unbound := rfl
  home := rfl
  owed := rfl

/-- The record that the no-answer action of a group gives an agent (R98). -/
def State.noAnswerRecord (s : State) (a : AgentSlot) (g : Group) : AgentRec :=
  match (s.group g).active.noAnswerAction with
  | .aux => (s.agent a).unbound .aux 15 0
  | .ready => (s.agent a).unbound .ready 0 s.clock

theorem noAnswerRecord_unbound (s : State) (a : AgentSlot) (g : Group) :
    ∃ st reason idle, s.noAnswerRecord a g = (s.agent a).unbound st reason idle := by
  unfold State.noAnswerRecord
  split
  · exact ⟨_, _, _, rfl⟩
  · exact ⟨_, _, _, rfl⟩

theorem ringNoAnswer_returns {s : State} {c : CallSlot} {r : CallRec} (call : s.call c = some r) (a : AgentSlot) :
    AgentSide s (s.ringNoAnswer c r a) a (s.noAnswerRecord a r.group)
      ∧ OfferReturned s (s.ringNoAnswer c r a) c r a (min 7 (r.noAnswers + 1))
          (decide (min 7 (r.noAnswers + 1) = (s.group r.group).active.noAnswerLimit) || r.pendingOverflow) := by
  have returns (new : AgentRec)
      (ends : OfferEnds s ((s.putCall c (some { r with boundAgent := none, ring := none })).moveAgent a new) c r a new) :
      AgentSide s (((s.putCall c (some { r with boundAgent := none, ring := none })).moveAgent a new).returnCall c r.group a true) a new
        ∧ OfferReturned s (((s.putCall c (some { r with boundAgent := none, ring := none })).moveAgent a new).returnCall c r.group a true) c r a
          (min 7 (r.noAnswers + 1)) (decide (min 7 (r.noAnswers + 1) = (s.group r.group).active.noAnswerLimit) || r.pendingOverflow) := by
    obtain ⟨returned, side⟩ := offer_returned ends true
    have attempts : s.attempts r a true
        = (decide (min 7 (r.noAnswers + 1) = (s.group r.group).active.noAnswerLimit) || r.pendingOverflow) := by
      rw [State.attempts, Bool.true_and]
      congr 1
    rw [attempts] at returned
    exact ⟨side (moveAgent_change ..).trigger, returned⟩
  have move : s.ringNoAnswer c r a = ((s.putCall c (some { r with boundAgent := none, ring := none })).moveAgent a
      (s.noAnswerRecord a r.group)).returnCall c r.group a true := by
    rw [State.ringNoAnswer, modCall_some call]
    rfl
  rw [move]
  obtain ⟨st, reason, idle, record⟩ := noAnswerRecord_unbound s a r.group
  rw [record]
  exact returns _ (.of_change call (moveAgent_change ..).toAgentEffect)

theorem withdraw_returns {s : State} {c : CallSlot} {r : CallRec} {a : AgentSlot} (bound : (s.agent a).boundCall = some c)
    (call : s.call c = some r) {st : AgentState} (reason idle : Nat) (away : st ≠ .ready) :
    AgentSide s (s.withdraw a ((s.agent a).unbound st reason idle)) a ((s.agent a).unbound st reason idle)
      ∧ OfferReturned s (s.withdraw a ((s.agent a).unbound st reason idle)) c r a r.noAnswers r.pendingOverflow := by
  have withdraws : s.withdraw a ((s.agent a).unbound st reason idle) =
      ((s.putCall c (some { r with boundAgent := none })).changeAgent a ((s.agent a).unbound st reason idle) false).returnCall c r.group a
        false := by
    rw [State.withdraw, bound]
    dsimp only
    rw [call]
    dsimp only
    rw [modCall_some call]
  have ends := OfferEnds.of_change (ring := r.ring) call
    (changeAgent_effect (s.putCall c (some { r with boundAgent := none })) a ((s.agent a).unbound st reason idle))
  obtain ⟨returned, side⟩ := offer_returned ends false
  rw [withdraws]
  have attempts : s.attempts r a false = r.pendingOverflow := Bool.false_or _
  rw [attempts] at returned
  refine ⟨side ?_, returned⟩
  rw [changeAgent_agentTriggers, if_neg fun both => away both.1]
  rfl

/-! ### The ring timer and AGENT_NO_ANSWER (R95, R98, R99) -/

theorem exec_ringTimerExpiry {s : State} (calm : Calm s) (c : CallSlot) : exec (.ringTimerExpiry c) s = .next (s.expireRing c) :=
  congrArg (fun u : State => Host.Outcome.next (u.expireRing c)) (settled_calm calm)

theorem expireRing_eq {s : State} {c : CallSlot} {r : CallRec} {a : AgentSlot} {due : Nat} (call : s.call c = some r)
    (offered : r.state = .offered) (bound : r.boundAgent = some a) (rings : r.ring = some due) :
    s.expireRing c = if due ≤ s.clock then s.ringNoAnswer c r a else s := by
  rw [State.expireRing, call]
  dsimp only
  rw [offered, bound, rings]

/-- Settles O23. -/
theorem ringNoAnswerRequeuesTheCall : Obligations.RingNoAnswerRequeuesTheCall := by
  unfold Obligations.RingNoAnswerRequeuesTheCall
  intro s a c r calm call offered bound new count attempt
  obtain ⟨side, returned⟩ := ringNoAnswer_returns call a
  refine ⟨fun due rings reached => ?_, fun due rings early => ?_, fun p ps h names state boundCall shelf tag => ?_⟩
  · rw [exec_ringTimerExpiry calm, expireRing_eq call offered bound rings, if_pos reached]
    exact ⟨_, rfl, side, returned⟩
  · rw [exec_ringTimerExpiry calm, expireRing_eq call offered bound rings, if_neg (Nat.not_le.mpr early)]
  · have before := taken_data s p (frame ps)
    have act : actOf .agentNoAnswer p ps (s.taken p (frame ps)) =
        .ok ((s.taken p (frame ps)).ringNoAnswer c r a) (slotField (some c)) := by
      rw [show actOf .agentNoAnswer p ps = actAgentNoAnswer p ps from rfl, actAgentNoAnswer, actsOn_asAgent names nofun nofun]
      simp only [namedCall_some shelf tag, taken_boundAs, boundAs_eq state boundCall call]
    obtain ⟨taken, answered, others⟩ := exec_answers h
    have after := answer_data p (actOf .agentNoAnswer p ps (s.taken p (frame ps)))
    rw [act] at taken answered others after
    obtain ⟨side, returned⟩ := ringNoAnswer_returns ((before.call c).trans call) a
    have record : (s.taken p (frame ps)).noAnswerRecord a r.group = s.noAnswerRecord a r.group := by
      simp only [State.noAnswerRecord, before.group, before.agent, before.base.clock]
    rw [record] at side
    rw [before.group] at returned
    exact ⟨_, slotField (some c), taken, answered, by simp [slotField_eq],
      fieldsAt_only (c := slotField (some c)) [(2, c.val)] (by simp [pack, slotField_eq, slotNumber]) (0, 2, c.val) List.mem_cons_self,
      others, side.request before after, returned.request before after⟩



/-! ### AUX and SIGN_OUT (R11 to R15, R19, R101, R122) -/

/-- A request that withdraws the offer to the agent it names. -/
theorem withdraw_answered {s : State} {k : Kind} {p : Port} {ps : List Byte} {a : AgentSlot} {c : CallSlot} {r : CallRec}
    (h : Takes s k p ps) (bound : (s.agent a).boundCall = some c) (call : s.call c = some r) {st : AgentState} {reason idle : Nat}
    (away : st ≠ .ready)
    (act : actOf k p ps (s.taken p (frame ps)) = .ok ((s.taken p (frame ps)).withdraw a ((s.agent a).unbound st reason idle))) :
    ∃ t, exec (k.command p (frame ps)) s = .next t ∧ Answered t p .ok [] ∧ OtherSlots s t p
      ∧ AgentSide s t a ((s.agent a).unbound st reason idle) ∧ OfferReturned s t c r a r.noAnswers r.pendingOverflow := by
  have before := taken_data s p (frame ps)
  obtain ⟨taken, answered, others⟩ := exec_answers h
  have after := answer_data p (actOf k p ps (s.taken p (frame ps)))
  obtain ⟨side, returned⟩ := withdraw_returns (s := s.taken p (frame ps)) (a := a) (by rw [before.agent]; exact bound)
    ((before.call c).trans call) reason idle away
  rw [before.agent] at side returned
  rw [act] at taken answered others after
  exact ⟨_, taken, answered, others, side.request before after, returned.request before after⟩

theorem actOf_aux {s : State} {k : Kind} {p : Port} {ps : List Byte} {a : AgentSlot} (names : ActsOn s k p ps a)
    (kind : k = .aux ∨ k = .forceAux) (reason : reasonOk (u8 ps 2) = true) (body : List Byte) :
    actOf k p ps (s.taken p body) = (s.taken p body).goAux a (u8 ps 2) := by
  rcases kind with rfl | rfl
  · simp only [actOf, actAux, actsOn_asAgent names nofun nofun, reason, if_true]
  · simp only [actOf, actForceAux, asAgent_taken false body _ names.toNames nofun, reason, if_true]

/-- Settles O18. -/
theorem auxAndForceAuxByState : Obligations.AuxAndForceAuxByState := by
  unfold Obligations.AuxAndForceAuxByState
  intro s k p ps a kind h names low high
  have reason : reasonOk (u8 ps 2) = true := by simp [reasonOk, low, high]
  have act := actOf_aux names kind reason (frame ps)
  rw [State.goAux, taken_agent] at act
  refine ⟨fun state => exec_refused h ?_, fun state same => ?_, fun state => ?_, fun c r state bound call => ?_, fun state => ?_⟩
  · rw [act, state]
  · rw [state] at act
    dsimp only at act
    rw [if_pos same] at act
    rw [exec_taken h, act]
    exact congrArg Host.Outcome.next (answer_unchanged ..)
  · refine exec_moved h ⟨rfl, rfl, rfl⟩ (act.trans ?_)
    rcases state with state | ⟨state, other⟩
    · rw [state]
      rfl
    · rw [state]
      exact if_neg other
  · rw [state] at act
    exact withdraw_answered h bound call (by nofun) act
  · have engaged : actOf k p ps (s.taken p (frame ps)) =
        if (s.agent a).pending = .signOutPurge then .refuse (s.taken p (frame ps)) .badState
        else { state := (s.taken p (frame ps)).recordPending a (.aux (u8 ps 2)), result := .pending } := by
      rcases state with state | state <;> rw [act, state]
    by_cases purged : (s.agent a).pending = .signOutPurge
    · rw [if_pos purged] at engaged ⊢
      exact exec_refused h engaged
    · rw [if_neg purged] at engaged ⊢
      exact exec_recorded h engaged


/-- The answer of a sign-out by an agent in a call or in WRAP. -/
def State.signOutEngaged (s : State) (k : Kind) (a : AgentSlot) : Reply :=
  if k = .forceSignOut ∧ (s.agent a).state = .wrap then .ok (s.endWrap a true)
  else if (s.agent a).pending = .signOutPurge then { state := s, result := if k = .signOut then .badState else .pending }
  else { state := s.recordPending a .signOut, result := .pending }

theorem actOf_signOut {s : State} {k : Kind} {p : Port} {ps : List Byte} {a : AgentSlot} (names : ActsOn s k p ps a)
    (kind : k = .signOut ∨ k = .forceSignOut) (body : List Byte) :
    actOf k p ps (s.taken p body) = (s.taken p body).goOut a ((s.taken p body).signOutEngaged k a) := by
  rcases kind with rfl | rfl
  · rw [show actOf .signOut p ps = actSignOut p ps from rfl, actSignOut, actsOn_asAgent names nofun nofun]
    rfl
  · rw [show actOf .forceSignOut p ps = actForceSignOut p ps from rfl, actForceSignOut, asAgent_taken false body _ names.toNames nofun]
    dsimp only
    rw [State.signOutEngaged]
    by_cases wrap : ((s.taken p body).agent a).state = .wrap
    · rw [if_pos wrap, if_pos ⟨rfl, wrap⟩]
    · have calm : ¬(Kind.forceSignOut = .forceSignOut ∧ ((s.taken p body).agent a).state = .wrap) := fun both => wrap both.2
      rw [if_neg wrap, if_neg calm]
      rfl

/-- The forced end of a wrap is the sample, then the sign-out (R122). -/
theorem endWrap_forced (s : State) (a : AgentSlot) :
    s.endWrap a true = (s.withWrapSample a).moveAgent a ((s.agent a).unbound .signedOut 0 0) := by
  simp only [State.endWrap, State.withWrapSample, takeSample_eq, if_true]
  rfl

/-- Settles O19. -/
theorem signOutAndForceSignOutByState : Obligations.SignOutAndForceSignOutByState := by
  unfold Obligations.SignOutAndForceSignOutByState
  intro s k p ps a kind h names
  have act := actOf_signOut names kind (frame ps)
  rw [State.goOut, taken_agent] at act
  refine ⟨fun state => exec_refused h ?_, fun state => ?_, fun c r state bound call => ?_, fun state => ?_, fun state force => ?_⟩
  · rw [act, state]
  · refine exec_moved h ⟨rfl, rfl, rfl⟩ (act.trans ?_)
    rcases state with state | state
    · rw [state]
      rfl
    · rw [state]
      rfl
  · rw [state] at act
    exact withdraw_answered h bound call (by nofun) act
  · have engaged : actOf k p ps (s.taken p (frame ps)) =
        if (s.agent a).pending = .signOutPurge then
          { state := s.taken p (frame ps), result := if k = .signOut then .badState else .pending }
        else { state := (s.taken p (frame ps)).recordPending a .signOut, result := .pending } := by
      rcases state with state | ⟨state, rfl⟩
      · rw [act, state]
        dsimp only
        rw [State.signOutEngaged, taken_agent, state, if_neg (by nofun)]
      · rw [act, state]
        dsimp only
        rw [State.signOutEngaged, taken_agent, if_neg (by nofun)]
    by_cases purged : (s.agent a).pending = .signOutPurge
    · rw [if_pos purged] at engaged ⊢
      rw [exec_taken h, engaged]
      exact congrArg Host.Outcome.next (answer_unchanged ..)
    · rw [if_neg purged] at engaged ⊢
      exact exec_recorded h engaged
  · have ends : actOf k p ps (s.taken p (frame ps)) = .ok ((s.taken p (frame ps)).endWrap a true) := by
      rw [act, state]
      dsimp only
      rw [State.signOutEngaged, taken_agent, if_pos ⟨force, state⟩]
    rw [endWrap_forced, taken_withWrapSample, taken_agent] at ends
    refine ⟨_, ?_, moveAgent_answered (body := frame ps) .ok [] (by rw [withWrapSample_agent]; exact ⟨rfl, rfl, rfl⟩)⟩
    rw [exec_taken h, ends]
    rfl


end Sys2Proof.Machine

/-! The answer of a call (R96): O24. -/

namespace Sys2Proof.Machine

/-! ### A call that stops hearing and waiting (R168, R172) -/

theorem leaveWaitList_rest (s : State) (c : CallSlot) : ∃ calls list q d,
    s.leaveWaitList c = { s with calls := calls, waitList := list, portS := q, device := d } := by
  unfold State.leaveWaitList
  split
  · obtain ⟨_, _, e⟩ := evalStarved_rest ((s.modCall c fun r => { r with onWaitList := false }).setWaitList (s.waitList.filter (·.call != c)))
    rw [e]
    exact ⟨_, _, _, _, rfl⟩
  · exact ⟨_, _, _, _, rfl⟩

theorem abortChannel_rest (s : State) (j : ChannelNo) : ∃ segments channels,
    s.abortChannel j = { s with segments := segments, channels := channels } := by
  unfold State.abortChannel State.leaveSegment
  split
  · exact ⟨_, _, rfl⟩
  · split
    · exact ⟨_, _, rfl⟩
    · exact ⟨_, _, rfl⟩

/-- Call `c`, of record `r`, hears nothing, is due nothing and is off the wait list; its notice is not handed. -/
structure Detached (s t : State) (c : CallSlot) (r : CallRec) : Prop where
  call : t.call c = some { r with
    listen := .silent, nextDue := none, onWaitList := if s.waitList.any (·.call == c) = true then false else r.onWaitList }
  others : ∀ d, d ≠ c → t.call d = s.call d
  waitList : t.waitList = s.waitList.filter (·.call != c)
  rest : ∃ calls segments sources channels list q d, t = { s with
    calls := calls, segments := segments, sources := sources, channels := channels, waitList := list, portS := q, device := d }

theorem hear_leave_detached {s : State} {c : CallSlot} {r : CallRec} (call : s.call c = some r) :
    Detached s (((s.hear c .silent).modCall c fun r => { r with nextDue := none }).leaveWaitList c) c r := by
  have heard := hear_rest s c .silent
  have told (d : CallSlot) := hear_call s c d .silent
  generalize s.hear c .silent = u at *
  have list : u.waitList = s.waitList := by rw [heard]
  obtain ⟨_, _, _, _, rest⟩ := leaveWaitList_rest (u.modCall c fun r => { r with nextDue := none }) c
  have calls (d : CallSlot) := leaveWaitList_call (u.modCall c fun r => { r with nextDue := none }) c d
  have left := leaveWaitList_waitList (u.modCall c fun r => { r with nextDue := none }) c
  simp only [modCall_call, told, call, show (u.modCall c fun r => { r with nextDue := none }).waitList = s.waitList from list] at calls left
  refine ⟨?_, fun d ne => ?_, left, ?_⟩
  · rw [calls]
    by_cases waits : s.waitList.any (·.call == c) = true
    · simp [waits]
    · simp [waits]
  · rw [calls, if_neg fun both => ne both.1, if_neg ne, if_neg ne]
  · rw [rest, heard]
    exact ⟨_, _, _, _, _, _, _, rfl⟩

theorem detach_detached {s : State} {c : CallSlot} {r : CallRec} (call : s.call c = some r) : Detached s (s.detach c) c r := by
  rw [detach_eq s call]
  dsimp only
  split
  next j listens =>
    obtain ⟨_, _, e⟩ := abortChannel_rest s j
    have inner : (s.abortChannel j).call c = some r := by rw [e]; exact call
    have detached := hear_leave_detached inner
    rw [e] at detached ⊢
    obtain ⟨here, others, list, _, _, _, _, _, _, _, rest⟩ := detached
    exact ⟨here, others, list, by rw [rest]; exact ⟨_, _, _, _, _, _, _, rfl⟩⟩
  next => exact hear_leave_detached call

namespace Detached

variable {s t : State} {c : CallSlot} {r : CallRec} (h : Detached s t c r)
include h

theorem frame : t.groups = s.groups ∧ t.agents = s.agents ∧ t.callTriggers = s.callTriggers ∧ t.agentTriggers = s.agentTriggers
    ∧ t.sweepWaiting = s.sweepWaiting ∧ ∀ y : Shelf, t.port (portOf y) = s.port (portOf y) := by
  obtain ⟨_, _, _, _, _, _, _, rest⟩ := h.rest
  rw [rest]
  exact ⟨rfl, rfl, rfl, rfl, rfl, fun y => by cases y <;> rfl⟩

theorem base : SameBase s t := by
  obtain ⟨_, _, _, _, _, _, _, rest⟩ := h.rest
  rw [rest]
  constructor <;> rfl

theorem group (g : Group) : t.group g = s.group g := congrArg (Vector.get · g) h.frame.1

theorem entry (d : CallSlot) : (t.call d).map CallRec.entry = ((s.putCall c (some r)).call d).map CallRec.entry := by
  rw [State.putCall_call]
  split
  next same => rw [same, h.call]; rfl
  next ne => rw [h.others d ne]

end Detached

/-! ### A group that a call has left, with the swap due thereupon (R36, R46 to R49) -/

theorem QueueEvaluated.left {s t : State} {g : Group} (h : QueueEvaluated s t g) (active : (t.group g).active = (s.group g).active) :
    QueueLeft s t g where
  conditions := h.conditions
  flags := by
    have same : SameQueueing t (t.setGroup g { t.group g with active := (s.group g).active }) g := by
      have here : (t.setGroup g { t.group g with active := (s.group g).active }).group g = _ := State.setGroup_group_self ..
      exact ⟨by rw [here, active], by rw [here], by rw [here], rfl, fun _ _ => rfl⟩
    have flags := h.flags
    dsimp only
    rw [same.depthHolds, same.waitHolds, flags, Bool.and_not_self, Bool.and_not_self, Bool.or_false, Bool.or_false]

theorem QueueEvaluated.left_settled {s v t : State} {g : Group} (h : QueueEvaluated s v g)
    (active : (v.group g).active = (s.group g).active) (settled : SwapSettled v t g) : QueueLeft s t g where
  conditions := settled.evaluated h.conditions
  flags := by
    have here : (t.setGroup g { t.group g with active := (s.group g).active }).group g = _ := State.setGroup_group_self ..
    have same : SameQueueing v (t.setGroup g { t.group g with active := (s.group g).active }) g :=
      ⟨by rw [here, active], by rw [here]; exact settled.queue g, by rw [here]; exact settled.staffed g, settled.base.clock,
        fun c _ => settled.entry c⟩
    obtain ⟨noStaff, -⟩ := settled.noStaff g
    have flags := h.flags
    have conditions := h.conditions
    dsimp only
    rw [same.depthHolds, same.waitHolds, noStaff]
    by_cases due : (v.group g).swapPending = true ∧ (v.group g).offers = 0
    · obtain ⟨depth, wait⟩ := settled.swapped_holds due
      have record := (settled.group g).trans (if_pos ⟨rfl, due⟩)
      rw [← depth, ← wait, record]
      simp only [State.swappedGroup, flags, conditions]
    · have away : ¬(g = g ∧ (v.group g).swapPending = true ∧ (v.group g).offers = 0) := fun both => due both.2
      have still := settled.unswapped away
      rw [(settled.group g).trans (if_neg away), still.depthHolds, still.waitHolds, flags, Bool.and_not_self, Bool.and_not_self,
        Bool.or_false, Bool.or_false]

theorem QueueLeft.congr {s s' t t' : State} {g : Group} (h : QueueLeft s t g) (before : s'.group g = s.group g)
    (after : t'.group g = t.group g) (clock : t'.clock = t.clock)
    (entries : ∀ c ∈ (t.group g).queue, (t'.call c).map CallRec.entry = (t.call c).map CallRec.entry) : QueueLeft s' t' g := by
  have same : SameQueueing t t' g := ⟨by rw [after], by rw [after], by rw [after], clock, entries⟩
  have here (u : State) : (u.setGroup g { u.group g with active := (s.group g).active }).group g = _ := State.setGroup_group_self ..
  have old : SameQueueing (t.setGroup g { t.group g with active := (s.group g).active })
      (t'.setGroup g { t'.group g with active := (s.group g).active }) g :=
    ⟨by rw [here, here], by rw [here, here, after], by rw [here, here, after], clock, fun c member => entries c (by rwa [here] at member)⟩
  obtain ⟨conditions, flags⟩ := h
  dsimp only at flags
  refine ⟨?_, ?_⟩
  · rw [after, conditions, same.depthHolds, same.waitHolds, same.noStaffHolds]
  · dsimp only
    rw [before, old.depthHolds, old.waitHolds, same.depthHolds, same.waitHolds, same.noStaffHolds, after]
    exact flags

theorem QueueLeft.request {s u v t : State} {g : Group} (h : QueueLeft u v g) (before : SameData s u) (after : SameData v t) :
    QueueLeft s t g :=
  h.congr (before.group g).symm (after.group g) after.base.clock fun c _ => by rw [after.call]

/-! ### The answer, step by step (R96) -/

/-- A call's record as it is answered, before it stops hearing. -/
def CallRec.connectedAt (r : CallRec) (clock : Nat) : CallRec :=
  { r with state := .connected, ring := none, talkStart := clock, overflowDue := none, pendingOverflow := false }

/-- An agent's record as it answers. -/
def AgentRec.connectedAt (r : AgentRec) (clock : Nat) : AgentRec := { r with state := .connected, idleSince := 0, answerStart := clock }

/-- An agent whose staffing stays is written without a change of a staffed count (R134). -/
theorem writeAgent_of_counts {s : State} {a : AgentSlot} {new : AgentRec} (same : ∀ g, (s.agent a).counts g = new.counts g) :
    s.writeAgent a new = s.setAgent a new := by
  unfold State.writeAgent
  generalize s.setAgent a new = u
  induction List.finRange 64 generalizing u with
  | nil => rfl
  | cons g l ih => rw [List.foldl_cons, State.restaff, if_pos (same g), ih]

/-- Both records are written and the call's offer is over. -/
def State.answering (s : State) (a : AgentSlot) (c : CallSlot) (r : CallRec) : State :=
  ((s.putCall c (some (r.connectedAt s.clock))).setAgent a ((s.agent a).connectedAt s.clock)).endOffer r.group

/-- The call has left its queue, counted as answered. -/
def State.pickedUp (s : State) (a : AgentSlot) (c : CallSlot) (r : CallRec) : State :=
  ((s.answering a c r).leaveQueue c r.group).modStats r.group fun q => { q with answered := bump q.answered }

section
variable (s : State) (a : AgentSlot) (c : CallSlot) (r : CallRec)

theorem connect_eq {s : State} {a : AgentSlot} {c : CallSlot} {r : CallRec} (call : s.call c = some r) (offered : (s.agent a).state = .offered) :
    s.connect a c r = (((((((s.pickedUp a c r).detach c).handAgentState a).handCall c .connect).handCall c .listen).swapIfQuiet r.group).arbitrate) := by
  have counts (g : Group) : ((s.putCall c (some (r.connectedAt s.clock))).agent a).counts g = ((s.agent a).connectedAt s.clock).counts g := by
    change (s.agent a).counts g = _
    simp [AgentRec.counts, AgentRec.connectedAt, AgentRec.skillFor, offered, AgentState.counted]
  have written := writeAgent_of_counts counts
  rw [State.connect, modCall_some call]
  change ((((((((((s.putCall c (some (r.connectedAt s.clock))).writeAgent a ((s.agent a).connectedAt s.clock)).endOffer r.group).leaveQueue
    c r.group).modStats r.group _).detach c).handAgentState a).handCall c .connect).handCall c .listen).swapIfQuiet r.group).arbitrate = _
  rw [written]
  rfl

theorem answering_group (h : Group) : (s.answering a c r).group h =
    { s.group h with offers := if h = r.group then (s.group h).offers - 1 else (s.group h).offers } := by
  refine (State.setGroup_group ..).trans ?_
  split
  next same => rw [same]; rfl
  next => rfl

theorem pickedUp_rest : ∃ groups q d, s.pickedUp a c r =
    { (s.putCall c (some (r.connectedAt s.clock))).setAgent a ((s.agent a).connectedAt s.clock) with
      groups := groups, portS := q, device := d } := by
  obtain ⟨_, _, _, e⟩ := leaveQueue_rest (s.answering a c r) c r.group
  rw [State.pickedUp, e]
  exact ⟨_, _, _, rfl⟩

theorem pickedUp_call (d : CallSlot) : (s.pickedUp a c r).call d = if d = c then some (r.connectedAt s.clock) else s.call d := by
  obtain ⟨_, _, _, e⟩ := pickedUp_rest s a c r
  rw [e]
  exact State.putCall_call ..

theorem pickedUp_agent (b : AgentSlot) : (s.pickedUp a c r).agent b = if b = a then (s.agent a).connectedAt s.clock else s.agent b := by
  obtain ⟨_, _, _, e⟩ := pickedUp_rest s a c r
  rw [e]
  exact State.setAgent_agent ..

theorem pickedUp_group : (s.pickedUp a c r).group r.group =
    { s.group r.group with
      queue := (s.group r.group).queue.filter (· != c), offers := (s.group r.group).offers - 1,
      stats := { (s.group r.group).stats with answered := min 65535 ((s.group r.group).stats.answered + 1) }
      conditions := ((s.pickedUp a c r).group r.group).conditions, flags := ((s.pickedUp a c r).group r.group).flags } := by
  have left := leaveQueue_group (s.answering a c r) c r.group
  rw [answering_group, if_pos rfl] at left
  have counted : (s.pickedUp a c r).group r.group = _ := modStats_group ..
  rw [if_pos rfl] at counted
  generalize (s.pickedUp a c r).group r.group = k at *
  rw [left] at counted
  rw [counted]
  rfl

theorem pickedUp_other {h : Group} (ne : h ≠ r.group) : (s.pickedUp a c r).group h = s.group h := by
  have counted : (s.pickedUp a c r).group h = _ := modStats_group ..
  rw [counted, leaveQueue_other _ _ _ ne, if_neg ne, answering_group, if_neg ne]

theorem pickedUp_evaluated : QueueEvaluated s (s.pickedUp a c r) r.group := by
  have here := answering_group s a c r r.group
  have left := leaveQueue_evaluated (s.answering a c r) c r.group
  unfold State.pickedUp
  generalize (s.answering a c r).leaveQueue c r.group = v at left
  have counted := modStats_group v r.group r.group fun q => { q with answered := bump q.answered }
  exact left.congr (by rw [here]) (by rw [here]) ⟨by rw [counted], by rw [counted], by rw [counted], rfl, fun _ _ => rfl⟩
    (by rw [counted]) (by rw [counted])

end


/-- The notices of an answer are handed: AGENT_STATE, CONNECT, LISTEN. -/
def State.toldAnswer (s : State) (a : AgentSlot) (c : CallSlot) : State :=
  ((s.handAgentState a).handCall c .connect).handCall c .listen

section
variable {s : State} {a : AgentSlot} {c : CallSlot} {q : CallRec}

theorem toldAnswer_rest : ∃ agents calls pa pb, s.toldAnswer a c = { s with agents := agents, calls := calls, portA := pa, portB := pb } := by
  have first := handAgentState_rest s a
  obtain ⟨_, _, _, second⟩ := handCall_rest (s.handAgentState a) c .connect
  obtain ⟨_, _, _, third⟩ := handCall_rest ((s.handAgentState a).handCall c .connect) c .listen
  rw [State.toldAnswer, third, second, first]
  exact ⟨_, _, _, _, rfl⟩

theorem toldAnswer_agent (b : AgentSlot) : (s.toldAnswer a c).agent b =
    if b = a then { s.agent a with owed := (s.agent a).owed || !s.hasRoom (portOf (s.agent a).home) } else s.agent b := by
  have first := handAgentState_agent s a b
  obtain ⟨_, _, _, second⟩ := handCall_rest (s.handAgentState a) c .connect
  obtain ⟨_, _, _, third⟩ := handCall_rest ((s.handAgentState a).handCall c .connect) c .listen
  rw [State.toldAnswer, third, second]
  exact first

/-- The AGENT_STATE notice as its port gets it. -/
theorem handAgentState_notices (y : Shelf) : ((s.handAgentState a).port (portOf y)).notices =
    placed (s.port (portOf y)).notices (if y = (s.agent a).home then [s.agentNotice a] else []) := by
  rw [handAgentState_port]
  by_cases home : y = (s.agent a).home
  · rw [if_pos (congrArg portOf home), if_pos home, placed_singleton]
    simp only [State.hasRoom, decide_eq_true_eq]
  · rw [if_neg fun e => home (portOf_injective e), if_neg home, placed_nil]

/-- What the three notices of an answer leave, of a connected call that hears nothing. -/
theorem toldAnswer_told (call : s.call c = some q) (connected : q.state = .connected) (bound : q.boundAgent = some a)
    (silent : q.listen = .silent) :
    (∃ k, (s.toldAnswer a c).call c = some k ∧ { k with owedListen := q.owedListen, owedConnect := q.owedConnect } = q)
      ∧ (∀ d, d ≠ c → (s.toldAnswer a c).call d = s.call d)
      ∧ ∀ y : Shelf, ((s.toldAnswer a c).port (portOf y)).notices = placed (s.port (portOf y)).notices
        ((if y = (s.agent a).home then [s.agentNotice a] else [])
          ++ if y = q.owner then [.connect q.tag a (s.agent a).home, .listen q.tag none] else []) := by
  have handed := handAgentState_rest s a
  have here : (s.handAgentState a).call c = some q := by rw [handed]; exact call
  have home : ((s.handAgentState a).agent a).home = (s.agent a).home := by rw [handAgentState_agent, if_pos rfl]
  have connect : (s.handAgentState a).callNotice c .connect = some (.connect q.tag a (s.agent a).home) := by
    simp only [State.callNotice, here, connected, bound, if_true, Option.map_some, home]
  have calls (d : CallSlot) := handCall_call here connect d
  have told (y : Shelf) := handCall_notices here connect y
  have listen : ((s.handAgentState a).handCall c .connect).callNotice c .listen = some (.listen q.tag none) := by
    have now := calls c
    rw [if_pos rfl] at now
    rw [State.callNotice, now]
    change some (Notice.listen q.tag (((s.handAgentState a).handCall c .connect).heard q.listen)) = _
    rw [silent]
    rfl
  have now := calls c
  rw [if_pos rfl] at now
  have last (d : CallSlot) := handCall_call now listen d
  refine ⟨⟨_, (last c).trans (if_pos rfl), rfl⟩, fun d ne => ?_, fun y => ?_⟩
  · rw [State.toldAnswer, last, if_neg ne, calls, if_neg ne, handed]
    rfl
  · rw [State.toldAnswer, handCall_notices now listen, told, handAgentState_notices, placed_placed, placed_placed]
    congr 2
    by_cases own : y = q.owner
    · rw [if_pos own, if_pos own]
      exact congrArg _ (if_pos own)
    · rw [if_neg own, if_neg own]
      exact congrArg _ (if_neg own)

end


/-! ### The answer as a whole -/

/-- Agent `a` has answered call `c`, of record `r` (R96). -/
structure Connects (s t : State) (a : AgentSlot) (c : CallSlot) (r : CallRec) : Prop where
  agent : t.agent a = { (s.agent a).connectedAt s.clock with owed := (s.agent a).owed || !s.hasRoom (portOf (s.agent a).home) }
  agents : ∀ b, b ≠ a → t.agent b = s.agent b
  call : ∃ q, t.call c = some q ∧ { q with owedListen := r.owedListen, owedConnect := r.owedConnect } =
    { r.connectedAt s.clock with listen := .silent, nextDue := none, onWaitList := false }
  others : ∀ d, d ≠ c → (t.call d).map CallRec.offPlayout = (s.call d).map CallRec.offPlayout
  waitList : ∀ e ∈ t.waitList, e.call ≠ c
  notices : ∀ x : Shelf, ∃ l, (∀ n ∈ l, ∃ tag slot, n = Notice.listen tag slot) ∧
    (t.port (portOf x)).notices = placed (s.port (portOf x)).notices
      ((if x = (s.agent a).home then [.agentState a .connected (s.agent a).auxReason 0 (some (r.owner, r.tag))] else [])
        ++ if x = r.owner then [.connect r.tag a (s.agent a).home, .listen r.tag none] else []) ++ l
  group : t.group r.group =
    { s.group r.group with
      queue := (s.group r.group).queue.filter (· != c), offers := (s.group r.group).offers - 1,
      stats := { (s.group r.group).stats with answered := min 65535 ((s.group r.group).stats.answered + 1) }
      active := if s.swapDue r.group = true then (s.group r.group).staged else (s.group r.group).active
      swapPending := if s.swapDue r.group = true then false else (s.group r.group).swapPending
      conditions := (t.group r.group).conditions, flags := (t.group r.group).flags }
  otherGroups : ∀ g, g ≠ r.group → t.group g = s.group g
  left : QueueLeft s t r.group
  triggers : t.callTriggers = s.callTriggers ∧ t.agentTriggers = s.agentTriggers
  sweep : t.sweepWaiting = (s.sweepWaiting || s.swapDue r.group)
  base : SameBase s t

/-- The swap that was due when the last offer of a group ends is due of the record without that offer. -/
theorem swapDue_iff {s v : State} {g : Group} (pending : (v.group g).swapPending = (s.group g).swapPending)
    (offers : (v.group g).offers = (s.group g).offers - 1) :
    ((v.group g).swapPending && (v.group g).offers == 0) = s.swapDue g := by
  rw [pending, offers, State.swapDue]
  congr 1
  rw [Bool.eq_iff_iff, beq_iff_eq, decide_eq_true_eq]
  omega

/-- The state of an answer before the swap and the arbiter. -/
def State.answeredCall (s : State) (a : AgentSlot) (c : CallSlot) (r : CallRec) : State := ((s.pickedUp a c r).detach c).toldAnswer a c

theorem answeredCall_frame {s : State} {a : AgentSlot} {c : CallSlot} {r : CallRec} :
    (s.answeredCall a c r).groups = (s.pickedUp a c r).groups
      ∧ (s.answeredCall a c r).waitList = s.waitList.filter (·.call != c)
      ∧ (s.answeredCall a c r).callTriggers = s.callTriggers ∧ (s.answeredCall a c r).agentTriggers = s.agentTriggers
      ∧ (s.answeredCall a c r).sweepWaiting = s.sweepWaiting ∧ SameBase s (s.answeredCall a c r) := by
  have here : (s.pickedUp a c r).call c = _ := (pickedUp_call ..).trans (if_pos rfl)
  obtain ⟨waitList, calls, agents, sweep, base⟩ : (s.pickedUp a c r).waitList = s.waitList ∧ (s.pickedUp a c r).callTriggers = s.callTriggers
      ∧ (s.pickedUp a c r).agentTriggers = s.agentTriggers ∧ (s.pickedUp a c r).sweepWaiting = s.sweepWaiting
      ∧ SameBase s (s.pickedUp a c r) := by
    obtain ⟨_, _, _, picked⟩ := pickedUp_rest s a c r
    rw [picked]
    exact ⟨rfl, rfl, rfl, rfl, by constructor <;> rfl⟩
  rw [State.answeredCall]
  generalize s.pickedUp a c r = u at *
  have detached := detach_detached here
  obtain ⟨groups', _, calls', agents', sweep', _⟩ := detached.frame
  have list := detached.waitList
  have base' := detached.base
  generalize u.detach c = v at *
  obtain ⟨_, _, _, _, told⟩ := toldAnswer_rest (s := v) (a := a) (c := c)
  rw [told]
  exact ⟨groups', list.trans (by rw [waitList]), calls'.trans calls, agents'.trans agents, sweep'.trans sweep,
    (base.trans base').trans (by constructor <;> rfl)⟩

theorem answeredCall_agent (s : State) (a b : AgentSlot) (c : CallSlot) (r : CallRec) : (s.answeredCall a c r).agent b =
    if b = a then { (s.agent a).connectedAt s.clock with owed := (s.agent a).owed || !s.hasRoom (portOf (s.agent a).home) }
    else s.agent b := by
  have here : (s.pickedUp a c r).call c = _ := (pickedUp_call ..).trans (if_pos rfl)
  have agents (b : AgentSlot) := pickedUp_agent s a c r b
  have ports (y : Shelf) : (s.pickedUp a c r).port (portOf y) = s.port (portOf y) := by
    obtain ⟨_, _, _, picked⟩ := pickedUp_rest s a c r
    rw [picked]
    cases y <;> rfl
  rw [State.answeredCall]
  generalize s.pickedUp a c r = u at *
  obtain ⟨_, same, _, _, _, ports'⟩ := (detach_detached here).frame
  have agent (b : AgentSlot) : (u.detach c).agent b = u.agent b := congrArg (Vector.get · b) same
  rw [toldAnswer_agent, agent, agent, agents, agents, if_pos rfl, hasRoom_congr (congrArg PortRec.notices ((ports' _).trans (ports _)))]
  split
  next => rfl
  next => rfl

theorem answeredCall_told {s : State} {a : AgentSlot} {c : CallSlot} {r : CallRec} (boundCall : (s.agent a).boundCall = some c)
    (bound : r.boundAgent = some a) (waits : r.onWaitList = true → ∃ e ∈ s.waitList, e.call = c) :
    (∃ k, (s.answeredCall a c r).call c = some k ∧ { k with owedListen := r.owedListen, owedConnect := r.owedConnect } =
        { r.connectedAt s.clock with listen := .silent, nextDue := none, onWaitList := false })
      ∧ (∀ d, d ≠ c → (s.answeredCall a c r).call d = s.call d)
      ∧ ∀ y : Shelf, ((s.answeredCall a c r).port (portOf y)).notices = placed (s.port (portOf y)).notices
        ((if y = (s.agent a).home then [.agentState a .connected (s.agent a).auxReason 0 (some (r.owner, r.tag))] else [])
          ++ if y = r.owner then [.connect r.tag a (s.agent a).home, .listen r.tag none] else []) := by
  have here : (s.pickedUp a c r).call c = _ := (pickedUp_call ..).trans (if_pos rfl)
  have others (d : CallSlot) (ne : d ≠ c) : (s.pickedUp a c r).call d = s.call d := (pickedUp_call ..).trans (if_neg ne)
  have agent : (s.pickedUp a c r).agent a = _ := (pickedUp_agent ..).trans (if_pos rfl)
  obtain ⟨ports, list⟩ : (∀ y : Shelf, (s.pickedUp a c r).port (portOf y) = s.port (portOf y)) ∧ (s.pickedUp a c r).waitList = s.waitList := by
    obtain ⟨_, _, _, picked⟩ := pickedUp_rest s a c r
    rw [picked]
    exact ⟨fun y => by cases y <;> rfl, rfl⟩
  rw [State.answeredCall]
  generalize s.pickedUp a c r = u at *
  have detached := detach_detached here
  obtain ⟨_, same, _, _, _, ports'⟩ := detached.frame
  have agent' : (u.detach c).agent a = (s.agent a).connectedAt s.clock := (congrArg (Vector.get · a) same).trans agent
  have off : (if u.waitList.any (·.call == c) = true then false else r.onWaitList) = false := by
    rw [list]
    by_cases on : r.onWaitList = true
    · obtain ⟨e, member, named⟩ := waits on
      exact if_pos (List.any_eq_true.mpr ⟨e, member, by rw [named, beq_self_eq_true]⟩)
    · rw [Bool.eq_false_of_not_eq_true on, ite_self]
  have notice : (u.detach c).agentNotice a = .agentState a .connected (s.agent a).auxReason 0 (some (r.owner, r.tag)) := by
    have name : (u.detach c).boundName ((s.agent a).connectedAt s.clock) = some (r.owner, r.tag) := by
      change ((s.agent a).boundCall.bind (u.detach c).call).map _ = _
      rw [boundCall, Option.bind_some, detached.call]
      rfl
    rw [State.agentNotice, agent', name]
    rfl
  obtain ⟨⟨k, now, record⟩, others', notices⟩ := toldAnswer_told detached.call rfl bound rfl
  refine ⟨⟨k, now, ?_⟩, fun d ne => ?_, fun y => ?_⟩
  · refine Eq.trans record ?_
    change { r.connectedAt s.clock with
      listen := .silent, nextDue := none, onWaitList := if u.waitList.any (·.call == c) = true then false else r.onWaitList } = _
    rw [off]
  · rw [others' d ne, detached.others d ne, others d ne]
  · rw [notices, notice, agent', ports', ports]
    rfl


/-- The arbiter puts no call on the wait list. -/
theorem arbitrateUpTo_waitList (n : Nat) (s : State) : ∀ e ∈ (State.arbitrateUpTo n s).waitList, e ∈ s.waitList := by
  induction n generalizing s with
  | zero => exact fun _ => id
  | succ n ih =>
    have left (c : CallSlot) : ∀ e ∈ (s.leaveWaitList c).waitList, e ∈ s.waitList := fun e member => by
      rw [leaveWaitList_waitList] at member
      exact (List.mem_filter.mp member).1
    unfold State.arbitrateUpTo
    split
    · next head _ j _ _ =>
      dsimp only
      split
      · exact fun e member => left _ e (ih _ e member)
      · split
        · exact fun e member => left _ e (ih _ e member)
        · next p _ =>
          intro e member
          have granted := ih _ e member
          rw [(grant_play (C := fun c => c = head.call) (W := false) (s.leaveWaitList head.call) j p rfl).waitList] at granted
          exact left _ e granted
    · exact fun _ => id

theorem connect_connects {s : State} {a : AgentSlot} {c : CallSlot} {r : CallRec} (call : s.call c = some r)
    (offered : (s.agent a).state = .offered) (boundCall : (s.agent a).boundCall = some c) (bound : r.boundAgent = some a)
    (waits : r.onWaitList = true → ∃ e ∈ s.waitList, e.call = c) : Connects s (s.connect a c r) a c r := by
  obtain ⟨now, others, notices⟩ := answeredCall_told boundCall bound waits
  obtain ⟨groups, list, calls, agents, sweep, base⟩ := answeredCall_frame (s := s) (a := a) (c := c) (r := r)
  have agent (b : AgentSlot) := answeredCall_agent s a b c r
  have group (g : Group) : (s.answeredCall a c r).group g = (s.pickedUp a c r).group g := congrArg (Vector.get · g) groups
  have here := pickedUp_group s a c r
  have other (g : Group) (ne : g ≠ r.group) : (s.answeredCall a c r).group g = s.group g := (group g).trans (pickedUp_other s a c r ne)
  have picked := pickedUp_evaluated s a c r
  have entry (d : CallSlot) : ((s.answeredCall a c r).call d).map CallRec.entry = ((s.pickedUp a c r).call d).map CallRec.entry := by
    rw [pickedUp_call]
    split
    next same =>
      obtain ⟨k, k_call, record⟩ := now
      rw [same, k_call]
      exact congrArg some (congrArg CallRec.entry record :)
    next ne => rw [others d ne]
  have clock : (s.answeredCall a c r).clock = (s.pickedUp a c r).clock := by
    obtain ⟨_, _, _, e⟩ := pickedUp_rest s a c r
    rw [base.clock, e]
    rfl
  rw [connect_eq call offered]
  change Connects s (((s.answeredCall a c r).swapIfQuiet r.group).arbitrate) a c r
  have settled := swapIfQuiet_settled (s.answeredCall a c r) r.group
  generalize s.pickedUp a c r = u at *
  generalize s.answeredCall a c r = v at *
  have evaluated : QueueEvaluated s v r.group := picked.congr rfl rfl
    ⟨by rw [group], by rw [group], by rw [group], clock, fun d _ => entry d⟩ (by rw [group]) (by rw [group])
  have record := (group r.group).trans here
  have active : (v.group r.group).active = (s.group r.group).active := (congrArg GroupRec.active record :)
  have due : ((v.group r.group).swapPending && (v.group r.group).offers == 0) = s.swapDue r.group :=
    swapDue_iff (congrArg GroupRec.swapPending record :) (congrArg GroupRec.offers record :)
  have untouched : (v.swapIfQuiet r.group).call c = v.call c := by
    by_cases quiet : ((v.group r.group).swapPending && (v.group r.group).offers == 0) = true
    · obtain ⟨pending, offers⟩ := Bool.and_eq_true_iff.mp quiet
      rw [swapIfQuiet_swaps pending (beq_iff_eq.mp offers)]
      refine (swapTuned_follows v r.group).others c ?_
      rw [record]
      simp
    · rw [settled.quiet (Bool.eq_false_of_not_eq_true quiet)]
  have left := evaluated.left_settled active settled
  generalize v.swapIfQuiet r.group = w at *
  obtain ⟨sameAgents, sameAgentTriggers, sameCallTriggers, sameList, _⟩ := settled.rest
  have off (e : WaitEntry) (member : e ∈ w.waitList) : e.call ≠ c := by
    rw [sameList, list] at member
    simpa using (List.mem_filter.mp member).2
  have play := arbitrate_play w (C := fun d => d ≠ c) (W := true) off rfl
  have remains (e : WaitEntry) (member : e ∈ w.arbitrate.waitList) : e.call ≠ c := off e (arbitrateUpTo_waitList _ _ _ member)
  generalize w.arbitrate = t at *
  have same (g : Group) : t.group g = w.group g := congrArg (Vector.get · g) play.off.groups
  have sameAgent (b : AgentSlot) : t.agent b = v.agent b := (congrArg (Vector.get · b) (play.off.agents.trans sameAgents) :)
  have kept (d : CallSlot) : (t.call d).map CallRec.offPlayout = (v.call d).map CallRec.offPlayout :=
    (play.off.calls d).trans (settled.calls d)
  have tBase : SameBase w t := play.off.base.same play.off.generator
  constructor
  · rw [sameAgent, agent, if_pos rfl]
  · intro b ne
    rw [sameAgent, agent, if_neg ne]
  · rw [play.other (c := c) (fun ne => ne rfl), untouched]
    exact now
  · intro d ne
    rw [kept, others d ne]
  · exact remains
  · intro x
    obtain ⟨l, listens, appended⟩ := settled.listens.trans play.listensOnly x
    exact ⟨l, listens, by rw [appended, notices]⟩
  · rw [same]
    have swapped := settled.group r.group
    by_cases swaps : s.swapDue r.group = true
    · rw [← due, Bool.and_eq_true, beq_iff_eq] at swaps
      rw [if_pos ⟨rfl, swaps⟩] at swapped
      rw [← due, swaps.1, swaps.2, swapped, State.swappedGroup, record]
      rfl
    · have stays := swaps
      rw [← due, Bool.and_eq_true, beq_iff_eq] at stays
      rw [if_neg fun both => stays both.2] at swapped
      rw [if_neg swaps, if_neg swaps, swapped]
      exact (congrArg (fun k : GroupRec =>
        { k with conditions := (v.group r.group).conditions, flags := (v.group r.group).flags }) record :)
  · intro g ne
    rw [same, settled.group, if_neg fun both => ne both.1, other g ne]
  · exact left.congr rfl (same r.group) tBase.clock (play.queueing r.group).entries
  · exact ⟨play.off.callTriggers.trans (sameCallTriggers.trans calls), play.off.agentTriggers.trans (sameAgentTriggers.trans agents)⟩
  · rw [play.off.sweepWaiting, settled.sweep, sweep, due]
  · exact (base.trans settled.base).trans tBase


theorem Connects.request {s u v t : State} {a : AgentSlot} {c : CallSlot} {r : CallRec} (h : Connects u v a c r) (before : SameData s u)
    (after : SameData v t) : Connects s t a c r := by
  obtain ⟨agent, agents, call, others, waitList, notices, group, otherGroups, left, triggers, sweep, base⟩ := h
  have list : t.waitList = v.waitList := by rw [after.rest]
  simp only [before.agent, before.group, before.notices, before.hasRoom, before.swapDue, before.call, before.sweepWaiting,
    before.callTriggers, before.agentTriggers, before.base.clock] at *
  constructor
  · rwa [after.agent]
  · simpa only [after.agent] using agents
  · simpa only [after.call] using call
  · simpa only [after.call] using others
  · rwa [list]
  · simpa only [after.notices] using notices
  · rwa [after.group]
  · simpa only [after.group] using otherGroups
  · exact left.request before after
  · rwa [after.callTriggers, after.agentTriggers]
  · rwa [after.sweepWaiting]
  · exact (before.base.trans base).trans after.base

/-- A taken answer connects and returns the call's slot. -/
theorem exec_connects {s : State} {p : Port} {ps : List Byte} {a : AgentSlot} {c : CallSlot} {r : CallRec} (h : Takes s .agentAnswer p ps)
    (names : ActsOn s .agentAnswer p ps a) (offered : (s.agent a).state = .offered) (boundCall : (s.agent a).boundCall = some c)
    (call : s.call c = some r) (bound : r.boundAgent = some a) (shelf : shelfOfByte (u8 ps 2) = some r.owner)
    (tag : u16 ps 3 = r.tag.toNat) (waits : r.onWaitList = true → ∃ e ∈ s.waitList, e.call = c) :
    ∃ t, exec (.agentAnswer p (frame ps)) s = .next t ∧ Answered t p .ok (slotField (some c)) ∧ OtherSlots s t p ∧ Connects s t a c r := by
  have before := taken_data s p (frame ps)
  have act : actOf .agentAnswer p ps (s.taken p (frame ps)) = .ok ((s.taken p (frame ps)).connect a c r) (slotField (some c)) := by
    rw [show actOf .agentAnswer p ps = actAgentAnswer p ps from rfl, actAgentAnswer, actsOn_asAgent names nofun nofun]
    simp only [namedCall_some shelf tag, taken_boundAs, boundAs_eq offered boundCall call]
  obtain ⟨taken, answered, others⟩ := exec_answers h
  have after := answer_data p (actOf .agentAnswer p ps (s.taken p (frame ps)))
  rw [act] at taken answered others after
  have list : (s.taken p (frame ps)).waitList = s.waitList := by rw [before.rest]
  generalize s.taken p (frame ps) = u at *
  rw [← before.call c] at call
  rw [← before.agent a] at offered boundCall
  rw [← list] at waits
  have connects := connect_connects call offered boundCall bound waits
  generalize u.connect a c r = v at *
  exact ⟨_, taken, answered, others, connects.request before after⟩

/-- Settles O24. -/
theorem answerConnectsCallAndAgent : Obligations.AnswerConnectsCallAndAgent := by
  unfold Obligations.AnswerConnectsCallAndAgent
  intro s p ps a c r h names offered boundCall call bound shelf tag waits new
  obtain ⟨t, taken, answered, otherSlots, agent, agents, record, others, waitList, notices, group, otherGroups, left,
    ⟨callTriggers, agentTriggers⟩, sweep, base⟩ := exec_connects h names offered boundCall call bound shelf tag waits
  refine ⟨t, slotField (some c), taken, answered, by simp [slotField_eq],
    fieldsAt_only (c := slotField (some c)) [(2, c.val)] (by simp [pack, slotField_eq, slotNumber]) (0, 2, c.val) List.mem_cons_self,
    otherSlots, agent, agents, record, others, waitList, notices, fun g => ?_, left, otherGroups, ?_, callTriggers, agentTriggers, sweep, base⟩
  · by_cases same : g = r.group
    · subst same
      rw [group]
      simp
    · rw [otherGroups g same]
      simp [same]
  · rw [group]

end Sys2Proof.Machine

/-! The release of a call (R55, R64 to R67): O36. -/

namespace Sys2Proof.Machine

/-! ### Pairs that are owed for a call that is there -/

/-- A pair of call `c` is owed on port `q` only while the call is there, and is `q`'s. -/
def State.owesFor (s : State) (c : CallSlot) (q : Port) : Prop :=
  ∀ k, OwedPair.call c k ∈ (s.port q).owed → ∃ r, s.call c = some r ∧ portOf r.owner = q

/-- `t` owes no more for call `c` on port `q` than it may, if `s` did. -/
def KeepsOwesFor (c : CallSlot) (q : Port) (s t : State) : Prop := s.owesFor c q → t.owesFor c q

theorem KeepsOwesFor.of_lists {c : CallSlot} {q : Port} {s t : State} (lists : (t.port q).owed = (s.port q).owed)
    (owner : ∀ r, s.call c = some r → ∃ r', t.call c = some r' ∧ r'.owner = r.owner) : KeepsOwesFor c q s t := by
  intro h k member
  rw [lists] at member
  obtain ⟨r, call, port⟩ := h k member
  obtain ⟨r', call', same⟩ := owner r call
  exact ⟨r', call', by rw [same, port]⟩

theorem KeepsOwesFor.of_calls {c : CallSlot} {q : Port} {s t : State} (lists : (t.port q).owed = (s.port q).owed)
    (calls : t.call c = s.call c) : KeepsOwesFor c q s t :=
  .of_lists lists fun r call => ⟨r, calls.trans call, rfl⟩

/-- A pair of another kind at the tail of a list is no pair of the call. -/
theorem KeepsOwesFor.of_appended {c : CallSlot} {q : Port} {s t : State} {o : OwedPair}
    (lists : (t.port q).owed = (s.port q).owed ∨ (t.port q).owed = (s.port q).owed ++ [o]) (other : ∀ k, o ≠ .call c k)
    (calls : t.call c = s.call c) : KeepsOwesFor c q s t := by
  intro h k member
  rw [calls]
  refine h k ?_
  rcases lists with same | more
  · rwa [same] at member
  · rw [more, List.mem_append, List.mem_singleton] at member
    exact member.resolve_right fun e => other k e.symm

theorem putCall_owesFor {s : State} (c d : CallSlot) (q : Port) {r k : CallRec} (call : s.call d = some k) (same : k.SameOwed r) :
    KeepsOwesFor c q s (s.putCall d (some r)) := by
  refine .of_lists (by cases q <;> rfl) fun k' call' => ?_
  by_cases here : c = d
  · subst here
    rw [call] at call'
    obtain rfl := Option.some.inj call'
    exact ⟨r, State.putCall_call_self .., same.owner⟩
  · exact ⟨k', (State.putCall_call_of_ne s _ here).trans call', rfl⟩

theorem pushNotice_owesFor (c : CallSlot) (q p : Port) (s : State) (n : Notice) : KeepsOwesFor c q s (s.pushNotice p n) := by
  refine .of_calls ?_ (by cases p <;> rfl)
  rw [pushNotice_port]
  split
  next same => rw [same]
  next => rfl

theorem appendOwed_owesFor (c : CallSlot) (q p : Port) (s : State) {o : OwedPair} (other : ∀ k, o ≠ .call c k) :
    KeepsOwesFor c q s (s.appendOwed p o) := by
  refine .of_appended (o := o) ?_ other (by cases p <;> rfl)
  rw [appendOwed_port]
  split
  next same => exact .inr (by rw [same])
  next => exact .inl rfl

theorem handWatch_owesFor (c : CallSlot) (q : Port) (s : State) : KeepsOwesFor c q s s.handWatch := by
  unfold State.handWatch
  split
  · split
    · exact id
    · exact pushNotice_owesFor _ _ _ _ _
  · split
    · exact id
    · exact fun h => appendOwed_owesFor c q .s _ nofun (KeepsOwesFor.of_calls (by cases q <;> rfl) rfl h)

theorem handAgentState_owesFor (c : CallSlot) (q : Port) (s : State) (a : AgentSlot) : KeepsOwesFor c q s (s.handAgentState a) := by
  unfold State.handAgentState
  dsimp only
  split
  · exact pushNotice_owesFor _ _ _ _ _
  · split
    · exact id
    · exact fun h => appendOwed_owesFor c q _ _ nofun (KeepsOwesFor.of_calls (by cases q <;> rfl) rfl h)

theorem handCall_owesFor (c d : CallSlot) (q : Port) (s : State) (k : CallNotice) : KeepsOwesFor c q s (s.handCall d k) := by
  unfold State.handCall
  split
  · exact id
  next r call =>
    dsimp only
    split
    · split
      · exact id
      · exact pushNotice_owesFor _ _ _ _ _
    · split
      · exact id
      · rw [modCall_some call]
        intro h k' member
        rw [appendOwed_port] at member
        have calls (e : CallSlot) : (((s.putCall d (some (r.setOwed k true))).appendOwed (portOf r.owner) (.call d k)).call e)
            = if e = d then some (r.setOwed k true) else s.call e := by
          rw [← State.putCall_call]
          cases r.owner <;> rfl
        have owner : (r.setOwed k true).owner = r.owner := by cases k <;> rfl
        have ports : (s.putCall d (some (r.setOwed k true))).port q = s.port q := by cases q <;> rfl
        have kept (old : OwedPair.call c k' ∈ (s.port q).owed) :
            ∃ r', (if c = d then some (r.setOwed k true) else s.call c) = some r' ∧ portOf r'.owner = q := by
          obtain ⟨r', call', port⟩ := h k' old
          by_cases here : c = d
          · rw [here, call] at call'
            obtain rfl := Option.some.inj call'
            exact ⟨_, if_pos here, by rw [owner, port]⟩
          · exact ⟨r', (if_neg here).trans call', port⟩
        rw [calls]
        by_cases here : q = portOf r.owner
        · rw [if_pos here, ← here, ports, List.mem_append, List.mem_singleton] at member
          rcases member with old | new
          · exact kept old
          · obtain ⟨rfl, rfl⟩ := OwedPair.call.inj new
            exact ⟨_, if_pos rfl, by rw [owner, here]⟩
        · rw [if_neg here, ports] at member
          exact kept member

/-- The freeing of a call takes its pairs with it (R55). -/
theorem free_owesFor (c d : CallSlot) (q : Port) (s : State) (r : CallRec) (call : s.call d = some r) :
    KeepsOwesFor c q s ((((s.removeOwed (portOf r.owner) (.call d .listen)).removeOwed (portOf r.owner) (.call d .connect)).removeOwed
      (portOf r.owner) (.call d .cleared)).putCall d none) := by
  intro h k member
  rw [show ∀ u : State, ((u.putCall d none).port q).owed = (u.port q).owed from fun u => by cases q <;> rfl,
    removeOwed_lists, removeOwed_lists, removeOwed_lists, List.mem_filter, List.mem_filter, List.mem_filter] at member
  obtain ⟨⟨⟨old, notListen⟩, notConnect⟩, notCleared⟩ := member
  obtain ⟨r', call', port⟩ := h k old
  by_cases here : c = d
  · subst here
    rw [call] at call'
    obtain rfl := Option.some.inj call'
    subst port
    cases k <;> simp at notListen notConnect notCleared
  · refine ⟨r', (State.putCall_call_of_ne _ _ here).trans ?_, port⟩
    rw [← call']
    simp [State.removeOwed, State.modPort]

theorem keepsOwesFor_full (c : CallSlot) (q : Port) : Full (KeepsOwesFor c q) where
  refl _ := id
  trans h k := k ∘ h
  plain h := .of_calls (by rw [State.same_ports h.portA h.portB h.portS q]) (congrArg (Vector.get · c) h.calls)
  agent _ _ _ _ := .of_calls (by cases q <;> rfl) rfl
  call s d k r e h := putCall_owesFor c d q e h
  enter s d r e _ _ _ := .of_lists (by cases q <;> rfl) fun k call => by
    refine ⟨k, (State.putCall_call_of_ne s _ ?_).trans call, rfl⟩
    rintro rfl
    rw [e] at call
    cases call
  device _ _ _ := .of_calls (by cases q <;> rfl) rfl
  port s p r _ h := .of_calls (by
    rw [State.setPort_port]
    split
    next e => exact e ▸ h
    next => rfl) (by cases p <;> rfl)
  handWatch s := handWatch_owesFor c q s
  handAgent s a := handAgentState_owesFor c q s a
  handCall s d k := handCall_owesFor c d q s k
  waitList _ _ := .of_calls (by cases q <;> rfl) rfl
  channel _ _ _ := .of_calls (by cases q <;> rfl) rfl
  free s d r e := free_owesFor c d q s r e

/-! ### Freeing a call (R55) -/

/-- The queue of its group has been left, if the call stood in it. -/
def State.unqueued (s : State) (c : CallSlot) (g : Group) : State := if c ∈ (s.group g).queue then s.leaveQueue c g else s

theorem unqueued_rest (s : State) (c : CallSlot) (g : Group) : ∃ groups q d,
    s.unqueued c g = { s with groups := groups, portS := q, device := d } := by
  unfold State.unqueued
  split
  · exact leaveQueue_rest s c g
  · exact ⟨_, _, _, rfl⟩

theorem unqueued_other (s : State) (c : CallSlot) {g h : Group} (ne : h ≠ g) : (s.unqueued c g).group h = s.group h := by
  unfold State.unqueued
  split
  · exact leaveQueue_other s c g ne
  · rfl

theorem unqueued_group (s : State) (c : CallSlot) (g : Group) : (s.unqueued c g).group g =
    { s.group g with
      queue := (s.group g).queue.filter (· != c)
      conditions := ((s.unqueued c g).group g).conditions, flags := ((s.unqueued c g).group g).flags } := by
  unfold State.unqueued
  split
  next => exact leaveQueue_group s c g
  next out =>
    have same : (s.group g).queue.filter (· != c) = (s.group g).queue :=
      List.filter_eq_self.mpr fun d member => bne_iff_ne.mpr fun e => out (e ▸ member)
    rw [same]

/-- Call `c`, of record `r`, is freed: its slot is empty, and it is out of its queue, off the wait list and owed nothing. -/
structure Freed (s t : State) (c : CallSlot) (r : CallRec) : Prop where
  free : t.call c = none
  others : ∀ d, d ≠ c → t.call d = s.call d
  agents : t.agents = s.agents
  group : t.group r.group =
    { s.group r.group with
      queue := (s.group r.group).queue.filter (· != c)
      conditions := (t.group r.group).conditions, flags := (t.group r.group).flags }
  otherGroups : ∀ g, g ≠ r.group → t.group g = s.group g
  evaluated : c ∈ (s.group r.group).queue → QueueEvaluated s t r.group
  stays : c ∉ (s.group r.group).queue → t.groups = s.groups
  waitList : t.waitList = s.waitList.filter (·.call != c)
  notices : ∀ y : Shelf, (t.port (portOf y)).notices = (s.port (portOf y)).notices
  unowed : ∀ k, OwedPair.call c k ∉ (t.port (portOf r.owner)).owed
  triggers : t.callTriggers = s.callTriggers ∧ t.agentTriggers = s.agentTriggers ∧ t.sweepWaiting = s.sweepWaiting
  base : SameBase s t

/-- The pairs of a call have left the list of a port. -/
def State.unowed (s : State) (c : CallSlot) (p : Port) : State :=
  ((s.removeOwed p (.call c .listen)).removeOwed p (.call c .connect)).removeOwed p (.call c .cleared)

theorem unowed_rest (s : State) (c : CallSlot) (y : Shelf) : ∃ a b, s.unowed c (portOf y) = { s with portA := a, portB := b } := by
  cases y <;> exact ⟨_, _, rfl⟩

theorem unowed_notices (s : State) (c : CallSlot) (y : Shelf) (q : Port) : ((s.unowed c (portOf y)).port q).notices = (s.port q).notices := by
  cases y <;> cases q <;> rfl

theorem unowed_owed (s : State) (c : CallSlot) (p : Port) (k : CallNotice) : OwedPair.call c k ∉ ((s.unowed c p).port p).owed := by
  rw [State.unowed, removeOwed_lists, removeOwed_lists, removeOwed_lists]
  cases k <;> simp

theorem freeCall_freed {s : State} {c : CallSlot} {r : CallRec} (call : s.call c = some r) : Freed s (s.freeCall c) c r := by
  have flow : s.freeCall c = (((s.unqueued c r.group).detach c).unowed c (portOf r.owner)).putCall c none := by
    rw [State.freeCall, call]
    rfl
  rw [flow]
  obtain ⟨_, _, _, left⟩ := unqueued_rest s c r.group
  have other (h : Group) (ne : h ≠ r.group) := unqueued_other s c ne
  have group := unqueued_group s c r.group
  have evaluated (member : c ∈ (s.group r.group).queue) : QueueEvaluated s (s.unqueued c r.group) r.group := by
    rw [State.unqueued, if_pos member]
    exact leaveQueue_evaluated s c r.group
  have stays (out : c ∉ (s.group r.group).queue) : s.unqueued c r.group = s := if_neg out
  generalize s.unqueued c r.group = u at *
  have calls (d : CallSlot) : u.call d = s.call d := by rw [left]; rfl
  have detached := detach_detached ((calls c).trans call)
  have frame := detached.frame
  have same := detached.group
  have detachBase := detached.base
  have list := detached.waitList
  have remain := detached.others
  generalize u.detach c = v at *
  obtain ⟨groups, agents, callTriggers, agentTriggers, sweep, ports⟩ := frame
  obtain ⟨_, _, rest⟩ := unowed_rest v c r.owner
  have notices (y : Shelf) := unowed_notices v c r.owner (portOf y)
  have unowed (k : CallNotice) := unowed_owed v c (portOf r.owner) k
  generalize v.unowed c (portOf r.owner) = w at *
  have sameGroups : (w.putCall c none).groups = u.groups := by rw [← groups, rest]; rfl
  have sameGroup (g : Group) : (w.putCall c none).group g = u.group g := congrArg (Vector.get · g) sameGroups
  have kept (d : CallSlot) (ne : d ≠ c) : (w.putCall c none).call d = s.call d := by
    rw [State.putCall_call_of_ne _ _ ne, rest]
    exact (remain d ne).trans (calls d)
  have base : SameBase s (w.putCall c none) := by
    have first : SameBase s u := by rw [left]; constructor <;> rfl
    refine (first.trans detachBase).trans ?_
    rw [rest]
    constructor <;> rfl
  have clock : (w.putCall c none).clock = u.clock := by rw [base.clock, left]
  refine ⟨State.putCall_call_self .., kept, ?_, ?_, fun g ne => (sameGroup g).trans (other g ne), fun member => ?_, fun out => ?_, ?_,
    fun y => ?_, fun k => ?_, ⟨?_, ?_, ?_⟩, base⟩
  · rw [rest]
    refine agents.trans ?_
    rw [left]
  · rw [sameGroup]
    exact group
  · refine (evaluated member).congr rfl rfl ⟨by rw [sameGroup], by rw [sameGroup], by rw [sameGroup], clock, fun d queued => ?_⟩
      (by rw [sameGroup]) (by rw [sameGroup])
    rw [group] at queued
    have ne : d ≠ c := by simpa using (List.mem_filter.mp queued).2
    rw [kept d ne, calls]
  · rw [sameGroups, stays out]
  · rw [rest]
    refine list.trans ?_
    rw [left]
  · have now := notices y
    rw [ports] at now
    refine Eq.trans (by cases y <;> rfl) (now.trans ?_)
    rw [left]
    cases y <;> rfl
  · have gone := unowed k
    cases hx : r.owner <;> rw [hx] at gone <;> exact gone
  · rw [rest]
    refine callTriggers.trans ?_
    rw [left]
  · rw [rest]
    refine agentTriggers.trans ?_
    rw [left]
  · rw [rest]
    refine sweep.trans ?_
    rw [left]


/-! ### What may follow a freeing: a swap and the arbiter -/

/-- What the rest of a request leaves of a freed call and of the queues. -/
structure Trails (s t : State) (c : CallSlot) : Prop where
  calls : ∀ d, (t.call d).map CallRec.offPlayout = (s.call d).map CallRec.offPlayout
  queue : ∀ g, (t.group g).queue = (s.group g).queue
  waitList : ∀ e ∈ t.waitList, e ∈ s.waitList
  owes : ∀ q, KeepsOwesFor c q s t
  triggers : t.callTriggers = s.callTriggers
  base : SameBase s t

theorem Trails.trans {s t u : State} {c : CallSlot} (h : Trails s t c) (k : Trails t u c) : Trails s u c where
  calls d := (k.calls d).trans (h.calls d)
  queue g := (k.queue g).trans (h.queue g)
  waitList e member := h.waitList e (k.waitList e member)
  owes q := k.owes q ∘ h.owes q
  triggers := k.triggers.trans h.triggers
  base := h.base.trans k.base

theorem arbitrate_trails (s : State) (c : CallSlot) : Trails s s.arbitrate c where
  calls := (arbitrate_play s (C := fun _ => True) (W := true) (fun _ _ => trivial) rfl).off.calls
  queue g := congrArg GroupRec.queue (congrArg (Vector.get · g)
    (arbitrate_play s (C := fun _ => True) (W := true) (fun _ _ => trivial) rfl).off.groups : _ = s.group g)
  waitList := arbitrateUpTo_waitList _ s
  owes q := (keepsOwesFor_full c q).arbitrate s
  triggers := (arbitrate_play s (C := fun _ => True) (W := true) (fun _ _ => trivial) rfl).off.callTriggers
  base :=
    let off := (arbitrate_play s (C := fun _ => True) (W := true) (fun _ _ => trivial) rfl).off
    off.base.same off.generator

theorem endOffer_group (s : State) (g h : Group) : (s.endOffer g).group h =
    { s.group h with offers := if h = g then (s.group h).offers - 1 else (s.group h).offers } := by
  refine (State.setGroup_group ..).trans ?_
  split
  next same => rw [same]
  next => rfl

theorem endOffer_trails (s : State) (c : CallSlot) (g : Group) : Trails s (s.endOffer g) c where
  calls _ := rfl
  queue h := by rw [endOffer_group]
  waitList _ := id
  owes q := .of_calls (by cases q <;> rfl) rfl
  triggers := rfl
  base := by constructor <;> rfl

theorem swapIfQuiet_trails (s : State) (c : CallSlot) (g : Group) : Trails s (s.swapIfQuiet g) c where
  calls := (swapIfQuiet_settled s g).calls
  queue := (swapIfQuiet_settled s g).queue
  waitList e := by
    obtain ⟨_, _, _, list, _⟩ := (swapIfQuiet_settled s g).rest
    rw [list]
    exact id
  owes q := (keepsOwesFor_full c q).swapIfQuiet s g
  triggers := (swapIfQuiet_settled s g).rest.2.2.1
  base := (swapIfQuiet_settled s g).base

/-- A freeing in the midst of a release frees the call. -/
theorem Freed.callFreed {s u v t : State} {c : CallSlot} {r k : CallRec} (h : Freed u v c k) (group : k.group = r.group)
    (owner : k.owner = r.owner) (calls : ∀ d, d ≠ c → u.call d = s.call d) (queue : ∀ g, (u.group g).queue = (s.group g).queue)
    (triggers : u.callTriggers = s.callTriggers) (base : SameBase s u) (after : Trails v t c) : CallFreed s t c r where
  free := by
    have gone := after.calls c
    rwa [h.free, Option.map_none, Option.map_eq_none_iff] at gone
  others d ne := by rw [after.calls, h.others d ne, calls d ne]
  queues g := by
    rw [after.queue, ← queue]
    split
    next same =>
      rw [same, ← group, h.group]
    next ne => rw [h.otherGroups g (by rwa [group])]
  waitList e member := by
    have kept := after.waitList e member
    rw [h.waitList] at kept
    simpa using (List.mem_filter.mp kept).2
  owed k' member := by
    have gone := h.unowed
    rw [owner] at gone
    obtain ⟨_, call, -⟩ := after.owes (portOf r.owner) (fun k' member => absurd member (gone k')) k' member
    have free := after.calls c
    rw [h.free, call] at free
    cases free
  triggers := after.triggers.trans (h.triggers.1.trans triggers)
  base := (base.trans h.base).trans after.base

/-! ### The counting of a release (R43) -/

/-- The call's group counts it as abandoned, where `b` says so. -/
def State.abandons (s : State) (b : Bool) (g : Group) : State := if b then s.countAbandoned g else s

theorem abandons_rest (s : State) (b : Bool) (g : Group) : ∃ groups, s.abandons b g = { s with groups := groups } := by
  cases b
  · exact ⟨_, rfl⟩
  · exact ⟨_, rfl⟩

theorem abandons_group (s : State) (b : Bool) (g h : Group) : (s.abandons b g).group h =
    { s.group h with
      stats := if b = true ∧ h = g then { (s.group h).stats with abandoned := min 65535 ((s.group h).stats.abandoned + 1) }
        else (s.group h).stats } := by
  cases b with
  | false =>
    simp only [Bool.false_eq_true, false_and, if_false]
    rfl
  | true =>
    have counted : (s.countAbandoned g).group h = _ := modStats_group ..
    refine Eq.trans counted ?_
    by_cases same : h = g
    · rw [if_pos same, if_pos ⟨rfl, same⟩]
      rfl
    · rw [if_neg same, if_neg fun both => same both.2]

end Sys2Proof.Machine

/-! The release of a call by its state (R64 to R67): O36. -/

namespace Sys2Proof.Machine

/-! ### The end of a release: the call is freed, and a swap and the arbiter may follow -/

/-- Call `c`, of record `r`, is released where no agent is left bound to it. -/
structure ReleaseEnds (s t : State) (c : CallSlot) (r : CallRec) (abandoned offer : Bool) : Prop where
  freed : CallFreed s t c r
  agents : t.agents = s.agents
  counted : CountedAtFreeing s t r abandoned offer
  left : c ∈ (s.group r.group).queue → QueueLeft s t r.group
  otherGroups : ∀ g, g ≠ r.group → t.group g = s.group g
  stays : abandoned = false → offer = false → c ∉ (s.group r.group).queue → t.groups = s.groups
  agentTriggers : t.agentTriggers = s.agentTriggers
  sweep : t.sweepWaiting = (s.sweepWaiting || (offer && s.swapDue r.group))
  listens : ListensOnly s t
  staffed : ∀ g, (t.group g).staffed = (s.group g).staffed
  average : ∀ g, (t.group g).average = (s.group g).average
  noStaff : ∀ g, (s.group g).conditions.noStaff = s.noStaffHolds g → (t.group g).conditions.noStaff = t.noStaffHolds g

section
variable {s : State} {c : CallSlot} {r : CallRec}

/-- The call is counted and freed, before a swap and the arbiter. -/
def State.countedFree (s : State) (c : CallSlot) (b : Bool) (g : Group) : State := (s.abandons b g).freeCall c

theorem countedFree_freed (call : s.call c = some r) (b : Bool) : Freed (s.abandons b r.group) (s.countedFree c b r.group) c r := by
  refine freeCall_freed ?_
  obtain ⟨_, e⟩ := abandons_rest s b r.group
  rw [e]
  exact call

/-- What the counting and the freeing leave of a group's record. -/
theorem countedFree_group (call : s.call c = some r) (b : Bool) (g : Group) : (s.countedFree c b r.group).group g =
    { s.group g with
      queue := if g = r.group then (s.group g).queue.filter (· != c) else (s.group g).queue
      stats := if b = true ∧ g = r.group then { (s.group g).stats with abandoned := min 65535 ((s.group g).stats.abandoned + 1) }
        else (s.group g).stats
      conditions := ((s.countedFree c b r.group).group g).conditions, flags := ((s.countedFree c b r.group).group g).flags } := by
  have freed := countedFree_freed call b
  have counted := abandons_group s b r.group
  generalize s.countedFree c b r.group = v at *
  generalize s.abandons b r.group = u at *
  by_cases same : g = r.group
  · subst same
    have record := freed.group
    rw [counted] at record
    rw [record]
    simp
  · have record := freed.otherGroups g same
    rw [counted, if_neg fun both => same both.2] at record
    rw [record, if_neg same, if_neg fun both => same both.2]

theorem countedFree_evaluated (call : s.call c = some r) (b : Bool) (member : c ∈ (s.group r.group).queue) :
    QueueEvaluated s (s.countedFree c b r.group) r.group := by
  have freed := countedFree_freed call b
  have counted := abandons_group s b r.group
  have evaluated := freed.evaluated (by rw [counted]; exact member)
  exact evaluated.congr (by rw [counted]) (by rw [counted]) ⟨rfl, rfl, rfl, rfl, fun _ _ => rfl⟩ rfl rfl

theorem countedFree_other (call : s.call c = some r) (b : Bool) {g : Group} (ne : g ≠ r.group) :
    (s.countedFree c b r.group).group g = s.group g := by
  rw [(countedFree_freed call b).otherGroups g ne, abandons_group, if_neg fun both => ne both.2]

/-- NO_STAFF stays as evaluated. -/
theorem countedFree_noStaff (call : s.call c = some r) (b : Bool) (g : Group)
    (agrees : (s.group g).conditions.noStaff = s.noStaffHolds g) :
    ((s.countedFree c b r.group).group g).conditions.noStaff = (s.countedFree c b r.group).noStaffHolds g := by
  by_cases same : g = r.group
  · subst same
    by_cases member : c ∈ (s.group r.group).queue
    · rw [(countedFree_evaluated call b member).conditions]
    · have freed := countedFree_freed call b
      have counted := abandons_group s b r.group
      have groups := freed.stays (by rw [counted]; exact member)
      have group : (s.countedFree c b r.group).group r.group = _ := congrArg (Vector.get · r.group) groups
      have record := group.trans (counted r.group)
      rw [noStaffHolds_congr (s := s) (by rw [record]) (by rw [record]), record]
      exact agrees
  · have record := countedFree_other call b same
    rw [noStaffHolds_congr (s := s) (by rw [record]) (by rw [record]), record]
    exact agrees

theorem countedFree_plain (call : s.call c = some r) (b : Bool) :
    (s.countedFree c b r.group).agents = s.agents ∧ (s.countedFree c b r.group).callTriggers = s.callTriggers
      ∧ (s.countedFree c b r.group).agentTriggers = s.agentTriggers ∧ (s.countedFree c b r.group).sweepWaiting = s.sweepWaiting
      ∧ ListensOnly s (s.countedFree c b r.group) := by
  have freed := countedFree_freed call b
  obtain ⟨calls, agents, sweep⟩ := freed.triggers
  obtain ⟨_, e⟩ := abandons_rest s b r.group
  refine ⟨freed.agents.trans (by rw [e]), calls.trans (by rw [e]), agents.trans (by rw [e]), sweep.trans (by rw [e]), .of_same fun y => ?_⟩
  rw [freed.notices, e]
  cases y <;> rfl

theorem countedFree_callFreed (call : s.call c = some r) (b : Bool) {t : State} (after : Trails (s.countedFree c b r.group) t c) :
    CallFreed s t c r := by
  obtain ⟨_, e⟩ := abandons_rest s b r.group
  refine (countedFree_freed call b).callFreed rfl rfl (fun d _ => by rw [e]; rfl) (fun g => by rw [abandons_group]) (by rw [e])
    (by rw [e]; constructor <;> rfl) after

theorem free_releaseEnds (call : s.call c = some r) (b : Bool) :
    ReleaseEnds s (s.countedFree c b r.group).arbitrate c r b false := by
  have group := countedFree_group call b
  have evaluated := countedFree_evaluated call b
  have other (g : Group) (ne : g ≠ r.group) := countedFree_other call b ne
  have noStaff := countedFree_noStaff call b
  have freed (t : State) (after : Trails (s.countedFree c b r.group) t c) := countedFree_callFreed call b after
  have stays := (countedFree_freed call b).stays
  obtain ⟨agents, callTriggers, agentTriggers, sweep, listens⟩ := countedFree_plain call b
  generalize s.countedFree c b r.group = v at *
  have play := arbitrate_play v (C := fun _ => True) (W := true) (fun _ _ => trivial) rfl
  have trails := arbitrate_trails v c
  generalize v.arbitrate = t at *
  have same (g : Group) : t.group g = v.group g := congrArg (Vector.get · g) play.off.groups
  have fields (g : Group) := (same g).trans (group g)
  refine ⟨freed t trails, play.off.agents.trans agents, ⟨fun g => by rw [fields], fun g => ?_, fun g => ?_⟩, fun member => ?_,
    fun g ne => (same g).trans (other g ne), fun plain _ out => ?_, play.off.agentTriggers.trans agentTriggers,
    (play.off.sweepWaiting.trans sweep).trans (by rw [Bool.false_and, Bool.or_false]), listens.trans play.listensOnly,
    fun g => by rw [fields], fun g => by rw [fields], fun g agrees => ?_⟩
  · simp only [fields, Bool.false_eq_true, false_and, if_false]
  · simp only [fields, Bool.false_eq_true, false_and, if_false, and_self]
  · have active : (v.group r.group).active = (s.group r.group).active := by rw [group]
    exact ((evaluated member).left active).congr rfl (same r.group) play.off.base.clock (play.queueing r.group).entries
  · subst plain
    exact play.off.groups.trans (stays out)
  · rw [same, (play.queueing g).noStaffHolds]
    exact noStaff g agrees

theorem offer_releaseEnds (call : s.call c = some r) :
    ReleaseEnds s (((s.countedFree c true r.group).endOffer r.group).swapIfQuiet r.group).arbitrate c r true true := by
  have group := countedFree_group call true
  have evaluated := countedFree_evaluated call true
  have other (g : Group) (ne : g ≠ r.group) := countedFree_other call true ne
  have noStaff := countedFree_noStaff call true
  have freed (t : State) (after : Trails (s.countedFree c true r.group) t c) := countedFree_callFreed call true after
  obtain ⟨agents, callTriggers, agentTriggers, sweep, listens⟩ := countedFree_plain call true
  generalize s.countedFree c true r.group = v at *
  have ended := endOffer_group v r.group
  have endTrails := endOffer_trails v c r.group
  have endQueueing (g : Group) : SameQueueing v (v.endOffer r.group) g :=
    ⟨by rw [ended], by rw [ended], by rw [ended], rfl, fun _ _ => rfl⟩
  have endListens : ListensOnly v (v.endOffer r.group) := .of_same fun y => by cases y <;> rfl
  obtain ⟨endAgents, endTriggers, endSweep⟩ : (v.endOffer r.group).agents = v.agents
    ∧ (v.endOffer r.group).agentTriggers = v.agentTriggers ∧ (v.endOffer r.group).sweepWaiting = v.sweepWaiting := ⟨rfl, rfl, rfl⟩
  have u_group (g : Group) : ∃ conditions flags, (v.endOffer r.group).group g =
      { s.group g with
        queue := if g = r.group then (s.group g).queue.filter (· != c) else (s.group g).queue
        stats := if true = true ∧ g = r.group then { (s.group g).stats with abandoned := min 65535 ((s.group g).stats.abandoned + 1) }
          else (s.group g).stats
        offers := if g = r.group then (s.group g).offers - 1 else (s.group g).offers
        conditions := conditions, flags := flags } :=
    ⟨(v.group g).conditions, (v.group g).flags, by rw [ended, group]⟩
  generalize v.endOffer r.group = u at *
  have settled := swapIfQuiet_settled u r.group
  have swapTrails := swapIfQuiet_trails u c r.group
  have due : ((u.group r.group).swapPending && (u.group r.group).offers == 0) = s.swapDue r.group :=
    swapDue_iff (by rw [ended, group]) (by rw [ended, if_pos rfl, group])
  generalize u.swapIfQuiet r.group = w at *
  obtain ⟨swapAgents, swapTriggers, -, -, -⟩ := settled.rest
  have play := arbitrate_play w (C := fun _ => True) (W := true) (fun _ _ => trivial) rfl
  have trails := arbitrate_trails w c
  generalize w.arbitrate = t at *
  have same (g : Group) : t.group g = w.group g := congrArg (Vector.get · g) play.off.groups
  have due_iff (g : Group) : (g = r.group ∧ (u.group r.group).swapPending = true ∧ (u.group r.group).offers = 0)
      ↔ g = r.group ∧ s.swapDue g = true := by
    rw [← beq_iff_eq (a := (u.group r.group).offers), ← Bool.and_eq_true, due]
    constructor
    · rintro ⟨rfl, both⟩
      exact ⟨rfl, both⟩
    · rintro ⟨rfl, both⟩
      exact ⟨rfl, both⟩
  have fields (g : Group) : ∃ conditions flags, t.group g =
      { s.group g with
        queue := if g = r.group then (s.group g).queue.filter (· != c) else (s.group g).queue
        stats := if true = true ∧ g = r.group then { (s.group g).stats with abandoned := min 65535 ((s.group g).stats.abandoned + 1) }
          else (s.group g).stats
        offers := if g = r.group then (s.group g).offers - 1 else (s.group g).offers
        active := if g = r.group ∧ s.swapDue g = true then (s.group g).staged else (s.group g).active
        swapPending := if g = r.group ∧ s.swapDue g = true then false else (s.group g).swapPending
        conditions := conditions, flags := flags } := by
    obtain ⟨conditions, flags, u_record⟩ := u_group g
    have swapped := settled.group g
    by_cases swaps : g = r.group ∧ s.swapDue g = true
    · rw [if_pos ((due_iff g).mpr swaps), ← swaps.1, State.swappedGroup, u_record] at swapped
      rw [same, swapped, if_pos swaps, if_pos swaps]
      exact ⟨_, _, rfl⟩
    · rw [if_neg fun both => swaps ((due_iff g).mp both), u_record] at swapped
      rw [same, swapped, if_neg swaps, if_neg swaps]
      exact ⟨_, _, rfl⟩
  refine ⟨freed t (((endTrails.trans swapTrails).trans trails)), ?_, ⟨fun g => ?_, fun g => ?_, fun g => ?_⟩, fun member => ?_,
    fun g ne => ?_, nofun, ?_, ?_, ?_, fun g => ?_, fun g => ?_, fun g agrees => ?_⟩
  · rw [play.off.agents, swapAgents, endAgents, agents]
  · obtain ⟨_, _, e⟩ := fields g
    rw [e]
  · obtain ⟨_, _, e⟩ := fields g
    rw [e]
    simp
  · obtain ⟨_, _, e⟩ := fields g
    rw [e]
    simp
  · have ready : QueueEvaluated s u r.group := (evaluated member).congr rfl rfl (endQueueing _) (by rw [ended]) (by rw [ended])
    have active : (u.group r.group).active = (s.group r.group).active := by
      obtain ⟨_, _, e⟩ := u_group r.group
      rw [e]
    exact (ready.left_settled active settled).congr rfl (same r.group) play.off.base.clock (play.queueing r.group).entries
  · rw [same, settled.group, if_neg fun both => ne both.1, ended, if_neg ne, other g ne]
  · rw [play.off.agentTriggers, swapTriggers, endTriggers, agentTriggers]
  · rw [play.off.sweepWaiting, settled.sweep, endSweep, sweep, due, Bool.true_and]
  · exact ((listens.trans endListens).trans settled.listens).trans play.listensOnly
  · obtain ⟨_, _, e⟩ := fields g
    rw [e]
  · obtain ⟨_, _, e⟩ := fields g
    rw [e]
  · obtain ⟨holds, still⟩ := settled.noStaff g
    have old := noStaff g agrees
    rw [same, (play.queueing g).noStaffHolds, still, holds, (endQueueing g).noStaffHolds, ended]
    exact old

end

/-! ### The agent of a released call -/

/-- Call `c`, of record `r`, is unbound, its record now `k`; no more than averages differ. -/
structure Unbinds (s w : State) (c : CallSlot) (r k : CallRec) : Prop where
  call : w.call c = some k
  identity : k.group = r.group ∧ k.owner = r.owner
  others : ∀ d, d ≠ c → w.call d = s.call d
  agent : ∀ b, w.agent b = s.agent b
  group : ∀ g, ∃ x, w.group g = { s.group g with average := x }
  notices : ∀ y : Shelf, (w.port (portOf y)).notices = (s.port (portOf y)).notices
  plain : w.callTriggers = s.callTriggers ∧ w.agentTriggers = s.agentTriggers ∧ w.sweepWaiting = s.sweepWaiting
  base : SameBase s w

namespace Unbinds

variable {s w u t : State} {c : CallSlot} {r k : CallRec} {a : AgentSlot} {new : AgentRec} {b o : Bool}

theorem kept (h : Unbinds s w c r k) (change : AgentChange w u a new) (g : Group) : ∃ x n flag holds, u.group g =
    { s.group g with
      average := x, staffed := n, flags := { (s.group g).flags with noStaff := flag }
      conditions := { (s.group g).conditions with noStaff := holds } } := by
  obtain ⟨x, before⟩ := h.group g
  by_cases same : (w.agent a).staffs g = new.staffs g
  · rw [change.kept g same, before]
    exact ⟨_, _, _, _, rfl⟩
  · rw [change.noStaff g same, before]
    exact ⟨_, _, _, _, rfl⟩

theorem moved_call (h : Unbinds s w c r k) (change : AgentChange w u a new) (d : CallSlot) :
    u.call d = w.call d ∧ u.callTriggers = s.callTriggers ∧ u.sweepWaiting = s.sweepWaiting ∧ SameBase s u := by
  obtain ⟨calls, -, sweep⟩ := h.plain
  have base := h.base
  rw [change.rest]
  exact ⟨rfl, calls, sweep, base.trans (by constructor <;> rfl)⟩

theorem swapDue (h : Unbinds s w c r k) (change : AgentChange w u a new) (g : Group) : u.swapDue g = s.swapDue g := by
  obtain ⟨_, _, _, _, e⟩ := h.kept change g
  rw [State.swapDue, State.swapDue, e]

theorem freed (h : Unbinds s w c r k) (change : AgentChange w u a new) (ends : ReleaseEnds u t c k b o) : CallFreed s t c r where
  free := ends.freed.free
  others d ne := by rw [ends.freed.others d ne, (h.moved_call change d).1, h.others d ne]
  queues g := by
    obtain ⟨_, _, _, _, e⟩ := h.kept change g
    rw [ends.freed.queues, h.identity.1, e]
  waitList := ends.freed.waitList
  owed := by
    have owed := ends.freed.owed
    rwa [h.identity.2] at owed
  triggers := ends.freed.triggers.trans (h.moved_call change c).2.1
  base := (h.moved_call change c).2.2.2.trans ends.freed.base

theorem counted (h : Unbinds s w c r k) (change : AgentChange w u a new) (ends : ReleaseEnds u t c k b o) : CountedAtFreeing s t r b o where
  stats g := by
    obtain ⟨_, _, _, _, e⟩ := h.kept change g
    rw [ends.counted.stats, h.identity.1, e]
  offers g := by
    obtain ⟨_, _, _, _, e⟩ := h.kept change g
    rw [ends.counted.offers, h.identity.1, e]
  swap g := by
    obtain ⟨_, _, _, _, e⟩ := h.kept change g
    obtain ⟨active, pending⟩ := ends.counted.swap g
    rw [active, pending, h.identity.1, h.swapDue change, e]
    exact ⟨rfl, rfl⟩

theorem sweep (h : Unbinds s w c r k) (change : AgentChange w u a new) (ends : ReleaseEnds u t c k b o) :
    t.sweepWaiting = (s.sweepWaiting || (o && s.swapDue r.group)) := by
  rw [ends.sweep, (h.moved_call change c).2.2.1, h.swapDue change, h.identity.1]

theorem agentSide (h : Unbinds s w c r k) (change : AgentChange w u a new) (ends : ReleaseEnds u t c k b o)
    (unbound : new.boundCall = none) : AgentSide s t a new where
  record := by
    refine (congrArg (Vector.get · a) ends.agents :).trans (change.record.trans ?_)
    rw [hasRoom_congr (h.notices _)]
  others b ne := ((congrArg (Vector.get · b) ends.agents :).trans (change.others b ne)).trans (h.agent b)
  notice := by
    obtain ⟨l, listens, notices⟩ := ends.listens new.home
    refine ⟨l, listens, notices.trans (congrArg (· ++ l) ?_)⟩
    have notice : w.stateNotice a new = s.stateNotice a new := by
      simp only [State.stateNotice, unbound, Option.bind_none, h.base.clock, Option.map_none]
    have handed := change.toAgentEffect.notices new.home
    rw [if_pos rfl, h.notices, notice, placed_singleton] at handed
    rw [handed]
    simp only [State.hasRoom, decide_eq_true_eq]
  staffed g := by
    obtain ⟨_, before⟩ := h.group g
    rw [ends.staffed, change.staffed, h.agent, before]
  noStaff g differs := by
    refine ends.noStaff g ?_
    have evaluated := change.noStaff g (by rwa [h.agent])
    exact (congrArg (fun r : GroupRec => r.conditions.noStaff) evaluated :)
  trigger := by
    rw [ends.agentTriggers, change.trigger, h.plain.2.1]

/-- An agent that comes to READY leaves a group no unstaffed, so that NO_STAFF has not risen. -/
theorem left (h : Unbinds s w c r k) (same : ∀ g, w.group g = s.group g) {idle : Nat}
    (change : AgentChange w u a ((s.agent a).unbound .ready 0 idle)) (ends : ReleaseEnds u t c k b o)
    (member : c ∈ (s.group r.group).queue) : QueueLeft s t r.group := by
  obtain ⟨_, _, _, _, e⟩ := h.kept change r.group
  have left := ends.left (by rw [h.identity.1, e]; exact member)
  rw [h.identity.1] at left
  by_cases staffs : (w.agent a).staffs r.group = ((s.agent a).unbound .ready 0 idle).staffs r.group
  · exact left.congr ((same _).symm.trans (change.kept _ staffs).symm) rfl rfl fun _ _ => rfl
  · have skilled : ((s.agent a).unbound .ready 0 idle).staffs r.group = true := by
      refine Bool.eq_true_of_not_eq_false fun none => staffs ?_
      rw [none]
      have unskilled : ((s.agent a).skills.any fun k => k.group == r.group) = false := none
      rw [h.agent, AgentRec.staffs, unskilled, Bool.and_false]
    have staffed : (u.group r.group).staffed ≠ 0 := by
      rw [change.staffed, staffedAfter, if_neg staffs, if_pos skilled]
      exact Nat.succ_ne_zero _
    have manned (v : State) (more : (v.group r.group).staffed = (u.group r.group).staffed) : v.noStaffHolds r.group = false := by
      rw [State.noStaffHolds, more]
      simp [staffed]
    have record := change.noStaff _ staffs
    rw [manned u rfl, same] at record
    have now := manned t (ends.staffed _)
    rw [Bool.false_and, Bool.or_false] at record
    have active : (u.group r.group).active = (s.group r.group).active := (congrArg GroupRec.active record :)
    have flagged : (u.group r.group).flags = (s.group r.group).flags := (congrArg GroupRec.flags record :)
    have depth : (u.group r.group).conditions.depth = (s.group r.group).conditions.depth :=
      (congrArg (fun r : GroupRec => r.conditions.depth) record :)
    have wait : (u.group r.group).conditions.wait = (s.group r.group).conditions.wait :=
      (congrArg (fun r : GroupRec => r.conditions.wait) record :)
    obtain ⟨conditions, flags⟩ := left
    refine ⟨conditions, flags.trans ?_⟩
    simp only [active, flagged, depth, wait, now, Bool.false_and]

end Unbinds


/-! ### CALL_RELEASE (R64 to R67) -/

theorem CallFreed.request {s u v t : State} {c : CallSlot} {r : CallRec} (h : CallFreed u v c r) (before : SameData s u)
    (after : SameData v t) : CallFreed s t c r := by
  obtain ⟨free, others, queues, waitList, owed, triggers, base⟩ := h
  have list : t.waitList = v.waitList := by rw [after.rest]
  simp only [before.call, before.group, before.callTriggers] at *
  exact ⟨by rwa [after.call], by simpa only [after.call] using others, by simpa only [after.group] using queues, by rwa [list],
    by simpa only [after.owed] using owed, by rwa [after.callTriggers], (before.base.trans base).trans after.base⟩

theorem CountedAtFreeing.request {s u v t : State} {r : CallRec} {b o : Bool} (h : CountedAtFreeing u v r b o) (before : SameData s u)
    (after : SameData v t) : CountedAtFreeing s t r b o := by
  obtain ⟨stats, offers, swap⟩ := h
  simp only [before.group, before.swapDue] at *
  exact ⟨by simpa only [after.group] using stats, by simpa only [after.group] using offers, by simpa only [after.group] using swap⟩

theorem GroupsRestaffed.request {s u v t : State} {old new : AgentRec} (h : GroupsRestaffed u v old new) (before : SameData s u)
    (after : SameData v t) : GroupsRestaffed s t old new := by
  intro g
  have restaffed := h g
  rw [before.group] at restaffed
  rw [after.group, after.noStaffHolds]
  exact restaffed

theorem SameData.withCallSample_average {s t : State} (h : SameData s t) (a : AgentSlot) (g i : Group) (mark : SampleMark) :
    ((t.withCallSample a g mark).group i).average = ((s.withCallSample a g mark).group i).average := by
  simp only [State.withCallSample, h.agent, h.group, h.base.clock]
  split
  · rw [State.setGroup_group, State.setGroup_group, h.group]
  · rw [h.group]

/-- A taken release of a call that the shelf holds. -/
theorem exec_releases {s : State} {p : Port} {ps : List Byte} {x : Shelf} {tag : Tag} (h : Takes s .callRelease p ps)
    (shelf : shelfOf p = some x) (tagged : tag.toNat = u16 ps 0) {c : CallSlot} {r : CallRec} (call : s.call c = some r)
    (owner : r.owner = x) (named : r.tag = tag) (only : ∀ d q, s.call d = some q → q.owner = x → q.tag = tag → d = c) :
    ∃ u t, u.call c = some r ∧ SameData s u ∧ SameData (u.release c r).arbitrate t
      ∧ exec (.callRelease p (frame ps)) s = .next t ∧ Answered t p .ok (field 1 r.state.code) ∧ OtherSlots s t p := by
  have before := taken_data s p (frame ps)
  have byte : tagAt ps 0 = tag := by rw [tagAt, ← tagged, BitVec.ofNat_toNat, BitVec.setWidth_eq]
  have found := findCall_eq call owner named only
  have act : actOf .callRelease p ps (s.taken p (frame ps)) =
      .ok ((s.taken p (frame ps)).release c r).arbitrate (field 1 r.state.code) := by
    rw [show actOf .callRelease p ps = actCallRelease p ps from rfl, actCallRelease, shelf, byte]
    exact asCall_some (by rw [taken_findCall]; exact found) ((before.call c).trans call) _
  obtain ⟨taken, answered, others⟩ := exec_answers h
  have after := answer_data p (actOf .callRelease p ps (s.taken p (frame ps)))
  rw [act] at taken answered others after
  have called := (before.call c).trans call
  generalize s.taken p (frame ps) = u at *
  generalize released : (u.release c r).arbitrate = v at *
  refine ⟨u, _, called, before, ?_, taken, answered, others⟩
  rw [released]
  exact after


section
variable {s : State} {c : CallSlot} {r : CallRec} {a : AgentSlot}

theorem release_queued (queued : r.state = .queued) : s.release c r = s.countedFree c true r.group := by
  rw [State.release, queued]
  rfl

theorem release_clearing (clearing : r.state = .clearing) : s.release c r = s.countedFree c false r.group := by
  rw [State.release, clearing]
  rfl

/-- The call of an offer that is released, unbound. -/
theorem unbinds_putCall (call : s.call c = some r) (ring : Option Nat) :
    Unbinds s (s.putCall c (some { r with boundAgent := none, ring := ring })) c r { r with boundAgent := none, ring := ring } where
  call := State.putCall_call_self ..
  identity := ⟨rfl, rfl⟩
  others _ ne := State.putCall_call_of_ne _ _ ne
  agent _ := rfl
  group g := ⟨(s.group g).average, rfl⟩
  notices y := by cases y <;> rfl
  plain := ⟨rfl, rfl, rfl⟩
  base := by constructor <;> rfl

theorem release_offered (call : s.call c = some r) (offered : r.state = .offered) (bound : r.boundAgent = some a) :
    ∃ w u, Unbinds s w c r { r with boundAgent := none, ring := none } ∧ (∀ g, w.group g = s.group g)
      ∧ AgentChange w u a ((s.agent a).unbound .ready 0 (s.agent a).idleSince)
      ∧ s.release c r = ((u.countedFree c true r.group).endOffer r.group).swapIfQuiet r.group := by
  have free : (s.putCall c (some { r with boundAgent := none, ring := none })).freeAgent a =
      (s.putCall c (some { r with boundAgent := none, ring := none })).moveAgent a
        ((s.agent a).unbound .ready 0 (s.agent a).idleSince) := rfl
  have change := moveAgent_change (s.putCall c (some { r with boundAgent := none, ring := none })) a
    ((s.agent a).unbound .ready 0 (s.agent a).idleSince)
  have unbinds : (s.modCall c fun k => { k with boundAgent := none, ring := none }) =
    s.putCall c (some { r with boundAgent := none, ring := none }) := modCall_some call _
  have flow : s.release c r = (((((s.modCall c fun k => { k with boundAgent := none, ring := none }).freeAgent a).countAbandoned
      r.group).freeCall c).endOffer r.group).swapIfQuiet r.group := by
    rw [State.release, offered, bound]
  rw [unbinds, free] at flow
  generalize State.moveAgent _ a _ = u at change flow
  exact ⟨_, u, unbinds_putCall call none, fun _ => rfl, change, flow⟩

theorem release_connected (call : s.call c = some r) (connected : r.state = .connected) (bound : r.boundAgent = some a) :
    ∃ w u, Unbinds s w c r { r with boundAgent := none } ∧ AgentChange w u a ((s.agent a).afterCall s r.group .keep)
      ∧ (∀ g, (w.group g).average = ((s.withCallSample a r.group .keep).group g).average)
      ∧ s.release c r = u.countedFree c false r.group := by
  obtain ⟨_, rest⟩ := unboundForHangUp_rest (s := s) (a := a) (c := c) (r := r)
  refine ⟨s.unboundForHangUp a c r, _, ?_, moveAgent_change .., fun g => by rw [unboundForHangUp_group], ?_⟩
  · refine ⟨?_, ⟨rfl, rfl⟩, fun d ne => ?_, fun b => unboundForHangUp_agent b, fun g => ⟨_, unboundForHangUp_group g⟩, fun y => ?_, ?_, ?_⟩
    · rw [rest]
      exact State.putCall_call_self ..
    · rw [rest]
      exact State.putCall_call_of_ne _ _ ne
    · rw [unboundForHangUp_port]
    · rw [rest]
      exact ⟨rfl, rfl, rfl⟩
    · rw [rest]
      constructor <;> rfl
  · rw [State.release, connected, bound]
    dsimp only
    rw [modCall_some call, endConnected_eq]
    rfl

end

/-- Settles O36: the call's agent, if it has one, then the freeing, the swap and the arbiter. -/
theorem releaseFreesTheCallByState : Obligations.ReleaseFreesTheCallByState := by
  unfold Obligations.ReleaseFreesTheCallByState
  intro s p ps x tag h shelf tagged
  refine ⟨fun absent => ?_, fun c r call owner named only => ?_⟩
  · have byte : tagAt ps 0 = tag := by rw [tagAt, ← tagged, BitVec.ofNat_toNat, BitVec.setWidth_eq]
    refine exec_refused h ?_
    rw [show actOf .callRelease p ps = actCallRelease p ps from rfl, actCallRelease, shelf, byte]
    exact asCall_none (by rw [taken_findCall]; exact (findCall_none_iff s x tag).mpr absent) _
  obtain ⟨u, t, call, before, after, taken, answered, others⟩ := exec_releases h shelf tagged call owner named only
  have plain (b : Bool) (released : u.release c r = u.countedFree c b r.group) :
      CallFreed s t c r ∧ t.agents = s.agents ∧ CountedAtFreeing s t r b false
        ∧ (c ∈ (s.group r.group).queue → QueueLeft s t r.group) ∧ (∀ g, g ≠ r.group → t.group g = s.group g)
        ∧ (b = false → c ∉ (s.group r.group).queue → t.groups = s.groups)
        ∧ t.agentTriggers = s.agentTriggers ∧ t.sweepWaiting = s.sweepWaiting := by
    have ends := free_releaseEnds call b
    rw [released] at after
    generalize (u.countedFree c b r.group).arbitrate = v at *
    refine ⟨ends.freed.request before after, by rw [after.agents, ends.agents, before.agents], ends.counted.request before after,
      fun member => ?_, fun g ne => ?_, fun plain out => ?_, ?_, ?_⟩
    · exact (ends.left (by rwa [before.group])).request before after
    · rw [after.group, ends.otherGroups g ne, before.group]
    · rw [after.groups, ends.stays plain rfl (by rwa [before.group]), before.groups]
    · rw [after.agentTriggers, ends.agentTriggers, before.agentTriggers]
    · rw [after.sweepWaiting, ends.sweep, before.sweepWaiting, Bool.false_and, Bool.or_false]
  refine ⟨fun queued => ?_, fun a offered bound => ?_, fun a connected bound => ?_, fun clearing => ?_⟩
  · rw [queued] at answered
    obtain ⟨freed, agents, counted, left, otherGroups, -, triggers, sweep⟩ := plain true (release_queued queued)
    exact ⟨t, taken, answered, others, freed, agents, counted, left, otherGroups, triggers, sweep⟩
  · rw [offered] at answered
    obtain ⟨w, v, unbinds, same, change, released⟩ := release_offered call offered bound
    have ends := offer_releaseEnds ((unbinds.moved_call change c).1.trans unbinds.call)
    rw [released] at after
    generalize (((v.countedFree c true r.group).endOffer r.group).swapIfQuiet r.group).arbitrate = z at *
    have side := unbinds.agentSide change ends rfl
    have sweep := unbinds.sweep change ends
    rw [before.agent] at side
    refine ⟨t, taken, answered, others, (unbinds.freed change ends).request before after, side.request before after,
      (unbinds.counted change ends).request before after, fun member => ?_, fun engaged g ne => ?_, ?_⟩
    · exact (unbinds.left same change ends (by rwa [before.group])).request before after
    · have staffs : (w.agent a).staffs g = ((u.agent a).unbound .ready 0 (u.agent a).idleSince).staffs g := by
        rw [unbinds.agent, AgentRec.staffs, AgentRec.staffs, before.agent, engaged]
        rfl
      rw [after.group, ends.otherGroups g ne, change.kept g staffs, same, before.group]
    · rw [after.sweepWaiting, sweep, before.sweepWaiting, before.swapDue, Bool.true_and]
  · rw [connected] at answered
    obtain ⟨w, v, unbinds, change, averages, released⟩ := release_connected call connected bound
    have ends := free_releaseEnds ((unbinds.moved_call change c).1.trans unbinds.call) false
    rw [released] at after
    generalize (v.countedFree c false r.group).arbitrate = z at *
    have side := unbinds.agentSide change ends (afterCall_boundCall ..)
    have sweep := unbinds.sweep change ends
    obtain ⟨average, restaffed⟩ := change.toAgentEffect.restaffs (unbinds.agent a) unbinds.group
    have follows : (u.agent a).afterCall u r.group .keep = (s.agent a).afterCall s r.group .keep := by
      simp only [AgentRec.afterCall, before.agent, before.group, before.base.clock]
    have sampled (g : Group) : ((u.withCallSample a r.group .keep).group g).average = ((s.withCallSample a r.group .keep).group g).average := by
      rw [before.withCallSample_average]
    rw [follows, before.agent] at restaffed
    rw [follows] at side
    refine ⟨t, taken, answered, others, (unbinds.freed change ends).request before after, side.request before after,
      (unbinds.counted change ends).request before after, fun g => ?_, fun out => ?_, ?_⟩
    · rw [after.group, ends.average, average, averages, sampled]
    · obtain ⟨_, _, _, _, kept⟩ := unbinds.kept change r.group
      have groups : z.groups = v.groups := ends.stays rfl rfl (by rw [kept, before.group]; exact out)
      have group (g : Group) : z.group g = v.group g := congrArg (Vector.get · g) groups
      have restaffs : GroupsRestaffed u z (s.agent a) ((s.agent a).afterCall s r.group .keep) := fun g => by
        rw [group, noStaffHolds_congr (s := v) (by rw [group]) (by rw [group])]
        exact restaffed g
      exact restaffs.request before after
    · rw [after.sweepWaiting, sweep, before.sweepWaiting, Bool.false_and, Bool.or_false]
  · rw [clearing] at answered
    obtain ⟨freed, agents, counted, -, -, stays, triggers, sweep⟩ := plain false (release_clearing clearing)
    exact ⟨t, taken, answered, others, freed, agents, counted, stays rfl, triggers, sweep⟩


end Sys2Proof.Machine

/-! Calls, agents and the counts they make (R4, R34, R133), with room for one agent and one call that are being tied or untied. -/

namespace Sys2Proof.Machine

/-! ### Counts that follow one change -/

/-- How many entries of a table satisfy `p`. -/
@[irreducible] def countOf {n : Nat} (p : Fin n → Bool) : Nat := ((List.finRange n).filter p).length

theorem countOf_eq {n : Nat} (p : Fin n → Bool) : countOf p = ((List.finRange n).filter p).length := by
  unfold countOf
  rfl

theorem countOf_congr {n : Nat} {p q : Fin n → Bool} (same : ∀ i, p i = q i) : countOf p = countOf q := congrArg countOf (funext same)

/-- One entry alone differs: the count follows it. -/
theorem countOf_update {n : Nat} {p q : Fin n → Bool} (i : Fin n) (same : ∀ j, j ≠ i → q j = p j) :
    countOf q + (if p i = true then 1 else 0) = countOf p + (if q i = true then 1 else 0) := by
  unfold countOf
  have distinct := List.nodup_finRange n
  have member := List.mem_finRange i
  cases hp : p i <;> cases hq : q i
  · have all : ∀ j ∈ List.finRange n, q j = p j := fun j _ => by
      by_cases here : j = i
      · rw [here, hp, hq]
      · exact same j here
    rw [List.filter_congr all]
  · simp [length_filter_succ distinct member hq hp same]
  · simp [length_filter_succ distinct member hp hq fun j ne => (same j ne).symm]
  · have all : ∀ j ∈ List.finRange n, q j = p j := fun j _ => by
      by_cases here : j = i
      · rw [here, hp, hq]
      · exact same j here
    rw [List.filter_congr all]

/-! ### What ties a call and an agent -/

/-- The call is OFFERED in group `g`. -/
def CallRec.offeredIn (r : CallRec) (g : Group) : Bool := r.group == g && r.state == .offered

/-- An agent is bound exactly in OFFERED and CONNECTED (R4). -/
def AgentRec.tied (r : AgentRec) : Prop := r.boundCall ≠ none ↔ r.state = .offered ∨ r.state = .connected

/-- A call is bound exactly in OFFERED and CONNECTED, and its ring timer runs exactly in OFFERED (R4, R94). -/
structure CallRec.Tied (r : CallRec) : Prop where
  bound : r.boundAgent ≠ none ↔ r.state = .offered ∨ r.state = .connected
  ring : r.ring ≠ none ↔ r.state = .offered

/-- Agents, calls and counts agree, but for the agent `oa` and the call `oc`, to which no other is tied, and the offers in progress `k`. -/
structure TiesBut (oa : Option AgentSlot) (oc : Option CallSlot) (k : Group → Nat) (s : State) : Prop where
  both : ∀ a c, oa ≠ some a → oc ≠ some c → ((s.agent a).boundCall = some c ↔ ∃ r, s.call c = some r ∧ r.boundAgent = some a)
  agents : ∀ a c, oa ≠ some a → oc = some c → (s.agent a).boundCall ≠ some c
  calls : ∀ c r a, oc ≠ some c → oa = some a → s.call c = some r → r.boundAgent ≠ some a
  tiedAgent : ∀ a, oa ≠ some a → (s.agent a).tied
  tiedCall : ∀ c r, oc ≠ some c → s.call c = some r → r.Tied
  states : ∀ c r a, oc ≠ some c → s.call c = some r → r.boundAgent = some a → (r.state = .offered ↔ (s.agent a).state = .offered)
  offers : ∀ g, (s.group g).offers =
    countOf (fun c => oc != some c && (s.call c).any fun r => r.offeredIn g) + k g
  staffed : ∀ g, (s.group g).staffed = countOf fun a => (s.agent a).staffs g

/-- Agents, calls and the counts that they make agree. -/
abbrev TiesLegal (s : State) : Prop := TiesBut none none (fun _ => 0) s

theorem tiesLegal_iff (s : State) : TiesLegal s ↔ BindingsLegal s
    ∧ (∀ g, (s.group g).offers = ((List.finRange 1024).filter fun c => (s.call c).any fun r => r.group == g && r.state == .offered).length)
    ∧ ∀ g, (s.group g).staffed = ((List.finRange 512).filter fun a => (s.agent a).staffs g).length := by
  have count (g : Group) : countOf (fun c => none != some c && (s.call c).any fun r => r.offeredIn g)
      = ((List.finRange 1024).filter fun c => (s.call c).any fun r => r.group == g && r.state == .offered).length := by
    rw [countOf_eq]
    exact congrArg List.length (List.filter_congr fun c _ => Bool.true_and _)
  constructor
  · intro h
    exact ⟨⟨fun a c => h.both a c nofun nofun, fun a => h.tiedAgent a nofun, fun c r call => (h.tiedCall c r nofun call).bound,
      fun c r a call => h.states c r a nofun call, fun c r call => (h.tiedCall c r nofun call).ring⟩, fun g => (h.offers g).trans ((Nat.add_zero _).trans (count g)),
      fun g => (h.staffed g).trans (countOf_eq _)⟩
  · rintro ⟨⟨both, agents, calls, states, ring⟩, offers, staffed⟩
    exact ⟨fun a c _ _ => both a c, (fun _ _ _ e => by cases e), (fun _ _ _ _ e => by cases e), fun a _ => agents a, fun c r _ call => ⟨calls c r call, ring c r call⟩,
      fun c r a _ call => states c r a call, fun g => (offers g).trans ((count g).symm.trans (Nat.add_zero _).symm), fun g => (staffed g).trans (countOf_eq _).symm⟩

/-! ### Steps between such states -/

/-- What ties are read from, but for one call. -/
structure SameTies (oc : Option CallSlot) (s t : State) : Prop where
  agents : ∀ a, (t.agent a).state = (s.agent a).state ∧ (t.agent a).boundCall = (s.agent a).boundCall
    ∧ (t.agent a).skills = (s.agent a).skills
  calls : ∀ c, oc ≠ some c → (t.call c).map (fun r => (r.state, r.boundAgent, r.ring, fun g => r.offeredIn g)) =
    (s.call c).map fun r => (r.state, r.boundAgent, r.ring, fun g => r.offeredIn g)
  groups : ∀ g, (t.group g).offers = (s.group g).offers ∧ (t.group g).staffed = (s.group g).staffed

theorem SameTies.call {oc : Option CallSlot} {s t : State} (h : SameTies oc s t) {c : CallSlot} (ne : oc ≠ some c) {q : CallRec}
    (call : t.call c = some q) : ∃ r, s.call c = some r ∧ q.state = r.state ∧ q.boundAgent = r.boundAgent ∧ q.ring = r.ring
      ∧ ∀ g, q.offeredIn g = r.offeredIn g := by
  have same := h.calls c ne
  rw [call, Option.map_some, eq_comm, Option.map_eq_some_iff] at same
  obtain ⟨r, here, fields⟩ := same
  simp only [Prod.mk.injEq] at fields
  obtain ⟨state, bound, ring, offered⟩ := fields
  exact ⟨r, here, state.symm, bound.symm, ring.symm, fun g => (congrFun offered g).symm⟩

theorem SameTies.symm {oc : Option CallSlot} {s t : State} (h : SameTies oc s t) : SameTies oc t s where
  agents a := ⟨(h.agents a).1.symm, (h.agents a).2.1.symm, (h.agents a).2.2.symm⟩
  calls c ne := (h.calls c ne).symm
  groups g := ⟨(h.groups g).1.symm, (h.groups g).2.symm⟩

theorem SameTies.any {oc : Option CallSlot} {s t : State} (h : SameTies oc s t) {c : CallSlot} (ne : oc ≠ some c) (g : Group) :
    ((t.call c).any fun r => r.offeredIn g) = (s.call c).any fun r => r.offeredIn g := by
  have same := congrArg (fun o => o.any fun x => x.2.2.2 g) (h.calls c ne)
  simpa only [Option.any_map] using same

theorem TiesBut.congr {oa : Option AgentSlot} {oc : Option CallSlot} {k : Group → Nat} {s t : State} (h : TiesBut oa oc k s)
    (same : SameTies oc s t) : TiesBut oa oc k t where
  both a c ha hc := by
    rw [(same.agents a).2.1, h.both a c ha hc]
    constructor
    · rintro ⟨r, call, bound⟩
      obtain ⟨q, here, -, agent, -⟩ := same.symm.call hc call
      exact ⟨q, here, agent.symm.trans bound⟩
    · rintro ⟨r, call, bound⟩
      obtain ⟨q, here, -, agent, -⟩ := same.call hc call
      exact ⟨q, here, agent.symm.trans bound⟩
  agents a c ha hc := by
    rw [(same.agents a).2.1]
    exact h.agents a c ha hc
  calls c r a hc ha call := by
    obtain ⟨q, here, -, agent, -⟩ := same.call hc call
    rw [agent]
    exact h.calls c q a hc ha here
  tiedAgent a ha := by
    have tied := h.tiedAgent a ha
    unfold AgentRec.tied at tied ⊢
    rw [(same.agents a).1, (same.agents a).2.1]
    exact tied
  tiedCall c r hc call := by
    obtain ⟨q, here, state, agent, ring, -⟩ := same.call hc call
    obtain ⟨bound, rings⟩ := h.tiedCall c q hc here
    exact ⟨by rw [agent, state]; exact bound, by rw [ring, state]; exact rings⟩
  states c r a hc call bound := by
    obtain ⟨q, here, state, agent, -⟩ := same.call hc call
    rw [state, (same.agents a).1]
    exact h.states c q a hc here (agent.symm.trans bound)
  offers g := by
    rw [(same.groups g).1, h.offers]
    refine congrArg (· + k g) (countOf_congr fun c => ?_)
    by_cases hc : oc = some c
    · rw [hc]
      simp
    · rw [same.any hc]
  staffed g := by
    rw [(same.groups g).2, h.staffed]
    refine countOf_congr fun a => ?_
    rw [AgentRec.staffs, AgentRec.staffs, (same.agents a).1, (same.agents a).2.2]

/-! ### Setting an agent and a call apart -/

theorem exists_of_any {α : Type} {o : Option α} {p : α → Bool} (h : o.any p = true) : ∃ x, o = some x ∧ p x = true := by
  cases o with
  | none => cases h
  | some x => exact ⟨x, rfl, h⟩

section
variable {oa : Option AgentSlot} {oc : Option CallSlot} {k : Group → Nat} {s t : State}

/-- The offers that the call set apart counts for. -/
def State.offersOf (s : State) (oc : Option CallSlot) (g : Group) : Nat := if ((oc.bind s.call).any fun r => r.offeredIn g) = true then 1 else 0

theorem offersOf_split (oc : Option CallSlot) (s : State) (g : Group) :
    countOf (fun c => (s.call c).any fun r => r.offeredIn g)
      = countOf (fun c => oc != some c && (s.call c).any fun r => r.offeredIn g) + s.offersOf oc g := by
  cases oc with
  | none => exact (congrArg countOf (funext fun c => (Bool.true_and _).symm)).trans (Nat.add_zero _).symm
  | some c =>
    have split := countOf_update (p := fun d => some c != some d && (s.call d).any fun r => r.offeredIn g)
      (q := fun d => (s.call d).any fun r => r.offeredIn g) c fun d ne => by simp [ne.symm]
    simpa [State.offersOf] using split

/-- A call and its agent are set apart, or an agent or a call that is tied to none. -/
theorem TiesBut.open (h : TiesLegal s) (agent : ∀ a c, oa = some a → (s.agent a).boundCall = some c → oc = some c)
    (call : ∀ c r a, oc = some c → s.call c = some r → r.boundAgent = some a → oa = some a) : TiesBut oa oc (s.offersOf oc) s where
  both a c _ _ := h.both a c nofun nofun
  agents a c ha hc bound := by
    obtain ⟨r, here, tied⟩ := (h.both a c nofun nofun).mp bound
    exact ha (call c r a hc here tied)
  calls c r a hc ha here bound := hc (agent a c ha ((h.both a c nofun nofun).mpr ⟨r, here, bound⟩))
  tiedAgent a _ := h.tiedAgent a nofun
  tiedCall c r _ := h.tiedCall c r nofun
  states c r a _ := h.states c r a nofun
  offers g := by
    refine (h.offers g).trans ((Nat.add_zero _).trans (Eq.trans ?_ (offersOf_split oc s g)))
    exact congrArg countOf (funext fun c => Bool.true_and _)
  staffed := h.staffed

/-- A call that no agent is tied to. -/
theorem TiesBut.open_call (h : TiesLegal s) {c : CallSlot} (unbound : ∀ r, s.call c = some r → r.boundAgent = none) :
    TiesBut none (some c) (fun _ => 0) s := by
  have opened : TiesBut none (some c) (s.offersOf (some c)) s := .open h (fun _ _ e => by cases e) fun d r a e here bound => by
    obtain rfl := Option.some.inj e
    rw [unbound r here] at bound
    cases bound
  have none_offered : s.offersOf (some c) = fun _ => 0 := funext fun g => by
    refine if_neg fun offered => ?_
    obtain ⟨r, here, offered⟩ := exists_of_any offered
    obtain ⟨tied, -⟩ := h.tiedCall c r nofun here
    simp only [CallRec.offeredIn, Bool.and_eq_true, beq_iff_eq] at offered
    exact tied.mpr (.inl offered.2) (unbound r here)
  rwa [none_offered] at opened

theorem TiesBut.open_agent (h : TiesLegal s) {a : AgentSlot} (unbound : (s.agent a).boundCall = none) :
    TiesBut (some a) none (fun _ => 0) s :=
  .open (oc := none) h (fun b c e bound => by
    obtain rfl := Option.some.inj e
    rw [unbound] at bound
    cases bound) fun _ _ _ e => by cases e

/-- A call and the agent it is tied to. -/
theorem TiesBut.open_pair (h : TiesLegal s) {a : AgentSlot} {c : CallSlot} {r : CallRec} (call : s.call c = some r)
    (bound : r.boundAgent = some a) : TiesBut (some a) (some c) (fun g => if r.offeredIn g = true then 1 else 0) s := by
  have tied := (h.both a c nofun nofun).mpr ⟨r, call, bound⟩
  have opened : TiesBut (some a) (some c) (s.offersOf (some c)) s := .open h (fun b d e other => by
    obtain rfl := Option.some.inj e
    exact tied.symm.trans other) fun d q b e here other => by
    obtain rfl := Option.some.inj e
    obtain rfl := Option.some.inj (call.symm.trans here)
    exact bound.symm.trans other
  have same : s.offersOf (some c) = fun g => if r.offeredIn g = true then 1 else 0 := funext fun g => by
    rw [State.offersOf, Option.bind_some, call, Option.any_some]
  rwa [same] at opened

/-- An agent and a call that are tied to none. -/
theorem TiesBut.open_both (h : TiesLegal s) {a : AgentSlot} {c : CallSlot} (agent : (s.agent a).boundCall = none)
    (call : ∀ r, s.call c = some r → r.boundAgent = none) : TiesBut (some a) (some c) (fun _ => 0) s := by
  have apart := TiesBut.open_call h call
  refine ⟨fun b d _ => apart.both b d nofun, fun b d _ => apart.agents b d nofun, fun d r b hc e here bound => ?_,
    fun b _ => apart.tiedAgent b nofun, apart.tiedCall, apart.states, apart.offers, apart.staffed⟩
  obtain rfl := Option.some.inj e
  rw [(h.both a d nofun nofun).mpr ⟨r, here, bound⟩] at agent
  cases agent

/-! ### Writing what is set apart -/

/-- The agent set apart has another record, and the staffed counts have followed. -/
theorem TiesBut.agent {a : AgentSlot} (h : TiesBut (some a) oc k s) (others : ∀ b, b ≠ a → t.agent b = s.agent b)
    (calls : ∀ c, t.call c = s.call c) (offers : ∀ g, (t.group g).offers = (s.group g).offers)
    (staffed : ∀ g, (t.group g).staffed = staffedAfter (s.agent a) (t.agent a) g (s.group g).staffed) : TiesBut (some a) oc k t where
  both b c ha hc := by
    rw [others b fun e => ha (by rw [e]), calls]
    exact h.both b c ha hc
  agents b c ha hc := by
    rw [others b fun e => ha (by rw [e])]
    exact h.agents b c ha hc
  calls c r b hc ha call := h.calls c r b hc ha (by rwa [← calls])
  tiedAgent b ha := by
    rw [others b fun e => ha (by rw [e])]
    exact h.tiedAgent b ha
  tiedCall c r hc call := h.tiedCall c r hc (by rwa [← calls])
  states c r b hc call bound := by
    have here : s.call c = some r := by rwa [← calls]
    rw [others b fun e => h.calls c r b hc (by rw [e]) here bound]
    exact h.states c r b hc here bound
  offers g := by
    rw [offers, h.offers]
    simp only [calls]
  staffed g := by
    have count := countOf_update (p := fun b => (s.agent b).staffs g) (q := fun b => (t.agent b).staffs g) a fun b ne => by rw [others b ne]
    rw [← h.staffed] at count
    rw [staffed, staffedAfter]
    cases old : (s.agent a).staffs g <;> cases new : (t.agent a).staffs g <;> simp [old, new] at count ⊢ <;> omega

theorem TiesBut.counted (h : TiesBut oa oc k s) {k' : Group → Nat} (agents : ∀ a, t.agent a = s.agent a) (calls : ∀ c, t.call c = s.call c)
    (offers : ∀ g, (t.group g).offers + k g = (s.group g).offers + k' g) (staffed : ∀ g, (t.group g).staffed = (s.group g).staffed) :
    TiesBut oa oc k' t where
  both a c ha hc := by
    rw [agents, calls]
    exact h.both a c ha hc
  agents a c ha hc := by
    rw [agents]
    exact h.agents a c ha hc
  calls c r a hc ha call := h.calls c r a hc ha (by rwa [← calls])
  tiedAgent a ha := by
    rw [agents]
    exact h.tiedAgent a ha
  tiedCall c r hc call := h.tiedCall c r hc (by rwa [← calls])
  states c r a hc call := by
    rw [agents]
    exact h.states c r a hc (by rwa [← calls])
  offers g := by
    have moved := offers g
    rw [h.offers] at moved
    simp only [calls]
    omega
  staffed g := by
    rw [staffed, h.staffed]
    simp only [agents]

/-! ### Putting them back -/

/-- Nothing set apart is tied. -/
theorem TiesBut.close (h : TiesBut oa oc (fun _ => 0) s)
    (agent : ∀ a, oa = some a → (s.agent a).boundCall = none ∧ (s.agent a).state ≠ .offered ∧ (s.agent a).state ≠ .connected)
    (call : ∀ c r, oc = some c → s.call c = some r →
      r.boundAgent = none ∧ r.ring = none ∧ r.state ≠ .offered ∧ r.state ≠ .connected) : TiesLegal s where
  both a c _ _ := by
    by_cases ha : oa = some a
    · rw [(agent a ha).1]
      refine ⟨nofun, fun ⟨r, here, bound⟩ => ?_⟩
      by_cases hc : oc = some c
      · rw [(call c r hc here).1] at bound
        cases bound
      · exact absurd bound (h.calls c r a hc ha here)
    · by_cases hc : oc = some c
      · refine ⟨fun bound => absurd bound (h.agents a c ha hc), fun ⟨r, here, bound⟩ => ?_⟩
        rw [(call c r hc here).1] at bound
        cases bound
      · exact h.both a c ha hc
  agents _ _ _ e := by cases e
  calls _ _ _ _ e := by cases e
  tiedAgent a _ := by
    by_cases ha : oa = some a
    · obtain ⟨unbound, offered, connected⟩ := agent a ha
      exact ⟨fun tied => absurd unbound tied, fun either => (either.elim offered connected).elim⟩
    · exact h.tiedAgent a ha
  tiedCall c r _ here := by
    by_cases hc : oc = some c
    · obtain ⟨unbound, ring, offered, connected⟩ := call c r hc here
      exact ⟨⟨fun tied => absurd unbound tied, fun either => (either.elim offered connected).elim⟩,
        ⟨fun rings => absurd ring rings, fun e => absurd e offered⟩⟩
    · exact h.tiedCall c r hc here
  states c r a _ here bound := by
    by_cases hc : oc = some c
    · rw [(call c r hc here).1] at bound
      cases bound
    · exact h.states c r a hc here bound
  offers g := by
    have none_offered : s.offersOf oc g = 0 := by
      refine if_neg fun offered => ?_
      obtain ⟨r, present, offered⟩ := exists_of_any offered
      obtain ⟨c, hc, here⟩ := Option.bind_eq_some_iff.mp present
      simp only [CallRec.offeredIn, Bool.and_eq_true, beq_iff_eq] at offered
      exact (call c _ hc here).2.2.1 offered.2
    have split := offersOf_split oc s g
    rw [none_offered] at split
    refine (h.offers g).trans (split.symm.trans ((Nat.add_zero _).symm.trans (congrArg (· + 0) ?_)))
    exact congrArg countOf (funext fun c => (Bool.true_and _).symm)
  staffed := h.staffed

/-- What is set apart is a call and the agent it is tied to. -/
theorem TiesBut.close_pair {a : AgentSlot} {c : CallSlot} {r : CallRec} (h : TiesBut (some a) (some c) k s) (call : s.call c = some r)
    (count : ∀ g, k g = if r.offeredIn g = true then 1 else 0) (both : (s.agent a).boundCall = some c ∧ r.boundAgent = some a)
    (agent : (s.agent a).tied) (tied : r.Tied) (states : r.state = .offered ↔ (s.agent a).state = .offered) : TiesLegal s where
  both b d _ _ := by
    by_cases ha : b = a
    · subst ha
      by_cases hc : d = c
      · subst hc
        exact ⟨fun _ => ⟨r, call, both.2⟩, fun _ => both.1⟩
      · have ne : some c ≠ some d := fun e => hc (Option.some.inj e).symm
        refine ⟨fun bound => absurd (both.1.symm.trans bound) ne, fun ⟨q, here, bound⟩ => absurd bound (h.calls d q b ne rfl here)⟩
    · have ne : some a ≠ some b := fun e => ha (Option.some.inj e).symm
      by_cases hc : d = c
      · subst hc
        refine ⟨fun bound => absurd bound (h.agents b d ne rfl), fun ⟨q, here, bound⟩ => ?_⟩
        obtain rfl := Option.some.inj (call.symm.trans here)
        exact absurd (both.2.symm.trans bound) ne
      · exact h.both b d ne fun e => hc (Option.some.inj e).symm
  agents _ _ _ e := by cases e
  calls _ _ _ _ e := by cases e
  tiedAgent b _ := by
    by_cases ha : b = a
    · rw [ha]
      exact agent
    · exact h.tiedAgent b fun e => ha (Option.some.inj e).symm
  tiedCall d q _ here := by
    by_cases hc : d = c
    · subst hc
      obtain rfl := Option.some.inj (call.symm.trans here)
      exact tied
    · exact h.tiedCall d q (fun e => hc (Option.some.inj e).symm) here
  states d q b _ here bound := by
    by_cases hc : d = c
    · subst hc
      obtain rfl := Option.some.inj (call.symm.trans here)
      obtain rfl := Option.some.inj (both.2.symm.trans bound)
      exact states
    · exact h.states d q b (fun e => hc (Option.some.inj e).symm) here bound
  offers g := by
    have split := offersOf_split (some c) s g
    rw [State.offersOf, Option.bind_some, call, Option.any_some, ← count] at split
    refine (h.offers g).trans (split.symm.trans ((Nat.add_zero _).symm.trans (congrArg (· + 0) ?_)))
    exact congrArg countOf (funext fun c => (Bool.true_and _).symm)
  staffed := h.staffed

end


end Sys2Proof.Machine

/-! The queues and the arrival sequence numbers (R56, R57), with room for a call that enters or leaves a queue. -/

namespace Sys2Proof.Machine

/-! ### The order of a queue -/

/-- Call `c` stands before call `d` in queue order (R57). -/
def State.ahead (s : State) (c d : CallSlot) : Prop :=
  ∀ r q, s.call c = some r → s.call d = some q → r.key < q.key ∨ (r.key = q.key ∧ r.seq < q.seq)

/-- Every queue holds the calls of its group that satisfy `W`, each once and in order; the sequence numbers are apart. -/
structure QueuesFor (W : CallSlot → Prop) (s : State) : Prop where
  members : ∀ g c, c ∈ (s.group g).queue ↔ W c ∧ ∃ r, s.call c = some r ∧ r.group = g
  once : ∀ g, (s.group g).queue.Nodup
  order : ∀ g, (s.group g).queue.Pairwise s.ahead
  numbers : ∀ c d r q, s.call c = some r → s.call d = some q → r.seq = q.seq → c = d
  counter : ∀ c r, s.call c = some r → r.seq ≠ s.seqCounter

/-- Call `c` is QUEUED or OFFERED. -/
def State.waits (s : State) (c : CallSlot) : Prop := ∃ r, s.call c = some r ∧ r.waits

theorem queuesLegal_iff (s : State) : QueuesLegal s ↔ QueuesFor s.waits s := by
  have member (g : Group) (c : CallSlot) :
      (s.waits c ∧ ∃ r, s.call c = some r ∧ r.group = g) ↔ ∃ r, s.call c = some r ∧ r.group = g ∧ r.waits := by
    constructor
    · rintro ⟨⟨r, call, waits⟩, q, here, group⟩
      obtain rfl := Option.some.inj (call.symm.trans here)
      exact ⟨r, call, group, waits⟩
    · rintro ⟨r, call, group, waits⟩
      exact ⟨⟨r, call, waits⟩, r, call, group⟩
  constructor
  · rintro ⟨members, once, order, numbers, counter⟩
    exact ⟨fun g c => (members g c).trans (member g c).symm, once, order, numbers, counter⟩
  · rintro ⟨members, once, order, numbers, counter⟩
    exact ⟨fun g c => (members g c).trans (member g c), once, order, numbers, counter⟩

theorem QueuesFor.congr_set {W V : CallSlot → Prop} {s : State} (h : QueuesFor W s)
    (same : ∀ c r, s.call c = some r → (V c ↔ W c)) : QueuesFor V s where
  members g c := by
    rw [h.members]
    constructor
    · rintro ⟨waits, r, call, group⟩
      exact ⟨(same c r call).mpr waits, r, call, group⟩
    · rintro ⟨waits, r, call, group⟩
      exact ⟨(same c r call).mp waits, r, call, group⟩
  once := h.once
  order := h.order
  numbers := h.numbers
  counter := h.counter

/-- A member is in one queue alone, that of its group. -/
theorem QueuesFor.member {W : CallSlot → Prop} {s : State} (h : QueuesFor W s) {g : Group} {c : CallSlot} {r : CallRec}
    (call : s.call c = some r) : c ∈ (s.group g).queue ↔ W c ∧ r.group = g := by
  rw [h.members]
  constructor
  · rintro ⟨waits, q, here, group⟩
    obtain rfl := Option.some.inj (call.symm.trans here)
    exact ⟨waits, group⟩
  · rintro ⟨waits, group⟩
    exact ⟨waits, r, call, group⟩

/-! ### What leaves the queues as they are -/

/-- What of a record the queues are read from. -/
def CallRec.place (r : CallRec) : Group × Int × Nat := (r.group, r.key, r.seq)

structure SameQueues (s t : State) : Prop where
  queue : ∀ g, (t.group g).queue = (s.group g).queue
  calls : ∀ c, (t.call c).map CallRec.place = (s.call c).map CallRec.place
  counter : t.seqCounter = s.seqCounter

theorem SameQueues.trans {s t u : State} (h : SameQueues s t) (k : SameQueues t u) : SameQueues s u :=
  ⟨fun g => (k.queue g).trans (h.queue g), fun c => (k.calls c).trans (h.calls c), k.counter.trans h.counter⟩

/-- A record of which the place is known. -/
theorem place_of_map {o p : Option CallRec} (same : p.map CallRec.place = o.map CallRec.place) {q : CallRec} (h : p = some q) :
    ∃ r, o = some r ∧ q.group = r.group ∧ q.key = r.key ∧ q.seq = r.seq := by
  rw [h, Option.map_some, eq_comm, Option.map_eq_some_iff] at same
  obtain ⟨r, here, fields⟩ := same
  simp only [CallRec.place, Prod.mk.injEq] at fields
  exact ⟨r, here, fields.1.symm, fields.2.1.symm, fields.2.2.symm⟩

theorem ahead_congr {s t : State} {c d : CallSlot} (first : (t.call c).map CallRec.place = (s.call c).map CallRec.place)
    (second : (t.call d).map CallRec.place = (s.call d).map CallRec.place) (h : s.ahead c d) : t.ahead c d := by
  intro r q hr hq
  obtain ⟨r', here, -, key, seq⟩ := place_of_map first hr
  obtain ⟨q', there, -, key', seq'⟩ := place_of_map second hq
  rw [key, seq, key', seq']
  exact h r' q' here there

theorem QueuesFor.congr {W : CallSlot → Prop} {s t : State} (h : QueuesFor W s) (same : SameQueues s t) : QueuesFor W t where
  members g c := by
    rw [same.queue, h.members]
    refine and_congr_right fun _ => ⟨fun ⟨r, call, group⟩ => ?_, fun ⟨r, call, group⟩ => ?_⟩
    · obtain ⟨q, here, place, -⟩ := place_of_map (same.calls c).symm call
      exact ⟨q, here, place ▸ group⟩
    · obtain ⟨q, here, place, -⟩ := place_of_map (same.calls c) call
      exact ⟨q, here, place ▸ group⟩
  once g := by
    rw [same.queue]
    exact h.once g
  order g := by
    rw [same.queue]
    exact (h.order g).imp fun before => ahead_congr (same.calls _) (same.calls _) before
  numbers c d r q hr hq e := by
    obtain ⟨r', here, -, -, seq⟩ := place_of_map (same.calls c) hr
    obtain ⟨q', there, -, -, seq'⟩ := place_of_map (same.calls d) hq
    exact h.numbers c d r' q' here there (by rw [← seq, ← seq', e])
  counter c r hr := by
    obtain ⟨r', here, -, -, seq⟩ := place_of_map (same.calls c) hr
    rw [seq, same.counter]
    exact h.counter c r' here

/-! ### A call that is in no queue -/

/-- The record of a call that stands in no queue may change, but for its number, and may go. -/
theorem QueuesFor.write {W : CallSlot → Prop} {s t : State} {c : CallSlot} (h : QueuesFor W s) (out : ¬W c)
    (queue : ∀ g, (t.group g).queue = (s.group g).queue)
    (others : ∀ d, d ≠ c → (t.call d).map CallRec.place = (s.call d).map CallRec.place)
    (call : ∀ r, t.call c = some r → ∃ q, s.call c = some q ∧ r.seq = q.seq) (counter : t.seqCounter = s.seqCounter) : QueuesFor W t := by
  have apart (g : Group) (d : CallSlot) (member : d ∈ (s.group g).queue) : d ≠ c := fun e => out (e ▸ ((h.members g d).mp member).1)
  have number (d : CallSlot) (r : CallRec) (hr : t.call d = some r) : ∃ q, s.call d = some q ∧ r.seq = q.seq := by
    by_cases same : d = c
    · subst same
      exact call r hr
    · obtain ⟨q, here, -, -, seq⟩ := place_of_map (others d same) hr
      exact ⟨q, here, seq⟩
  refine ⟨fun g d => ?_, fun g => ?_, fun g => ?_, fun d e r q hr hq same => ?_, fun d r hr => ?_⟩
  · rw [queue, h.members]
    refine and_congr_right fun waits => ?_
    have ne : d ≠ c := fun e => out (e ▸ waits)
    refine ⟨fun ⟨r, call, group⟩ => ?_, fun ⟨r, call, group⟩ => ?_⟩
    · obtain ⟨q, here, place, -⟩ := place_of_map (others d ne).symm call
      exact ⟨q, here, place ▸ group⟩
    · obtain ⟨q, here, place, -⟩ := place_of_map (others d ne) call
      exact ⟨q, here, place ▸ group⟩
  · rw [queue]
    exact h.once g
  · rw [queue]
    exact (h.order g).imp_of_mem fun {d e} hd he before => ahead_congr (others d (apart g d hd)) (others e (apart g e he)) before
  · obtain ⟨r', here, seq⟩ := number d r hr
    obtain ⟨q', there, seq'⟩ := number e q hq
    exact h.numbers d e r' q' here there (by rw [← seq, ← seq', same])
  · obtain ⟨r', here, seq⟩ := number d r hr
    rw [seq, counter]
    exact h.counter d r' here

/-- A call leaves the queue it stands in. -/
theorem QueuesFor.leave {W : CallSlot → Prop} {s t : State} {c : CallSlot} {r : CallRec} (h : QueuesFor W s) (call : s.call c = some r)
    (queue : (t.group r.group).queue = (s.group r.group).queue.filter (· != c))
    (others : ∀ g, g ≠ r.group → (t.group g).queue = (s.group g).queue)
    (calls : ∀ d, (t.call d).map CallRec.place = (s.call d).map CallRec.place) (counter : t.seqCounter = s.seqCounter) :
    QueuesFor (fun d => d ≠ c ∧ W d) t := by
  have left (g : Group) : (t.group g).queue = (s.group g).queue.filter (· != c) := by
    by_cases same : g = r.group
    · rw [same, queue]
    · rw [others g same, List.filter_eq_self.mpr]
      intro d member
      rw [bne_iff_ne]
      rintro rfl
      exact same ((h.member call).mp member).2.symm
  refine ⟨fun g d => ?_, fun g => ?_, fun g => ?_, fun d e r q hr hq same => ?_, fun d r hr => ?_⟩
  · rw [left, List.mem_filter, bne_iff_ne, h.members, and_comm, and_assoc]
    refine and_congr_right fun _ => and_congr_right fun _ => ⟨fun ⟨r, call, group⟩ => ?_, fun ⟨r, call, group⟩ => ?_⟩
    · obtain ⟨q, here, place, -⟩ := place_of_map (calls d).symm call
      exact ⟨q, here, place ▸ group⟩
    · obtain ⟨q, here, place, -⟩ := place_of_map (calls d) call
      exact ⟨q, here, place ▸ group⟩
  · rw [left]
    exact (h.once g).filter _
  · rw [left]
    exact ((h.order g).filter _).imp fun before => ahead_congr (calls _) (calls _) before
  · obtain ⟨r', here, -, -, seq⟩ := place_of_map (calls d) hr
    obtain ⟨q', there, -, -, seq'⟩ := place_of_map (calls e) hq
    exact h.numbers d e r' q' here there (by rw [← seq, ← seq', same])
  · obtain ⟨r', here, -, -, seq⟩ := place_of_map (calls d) hr
    rw [seq, counter]
    exact h.counter d r' here

/-- A call that stands in no queue joins that of group `g`. -/
theorem QueuesFor.join {W : CallSlot → Prop} {s : State} {c : CallSlot} {r : CallRec} (h : QueuesFor W s) (out : ¬W c)
    (call : s.call c = some r) (g : Group) : QueuesFor (fun d => d = c ∨ W d) (s.join c g) := by
  obtain ⟨_, _, _, rest⟩ := join_rest call g
  have calls := join_call call g
  have now := (calls c).trans (if_pos rfl)
  have kept (d : CallSlot) (ne : d ≠ c) := (calls d).trans (if_neg ne)
  have counter : (s.join c g).seqCounter = s.seqCounter := by rw [rest]
  have number (d : CallSlot) (q : CallRec) (hq : (s.join c g).call d = some q) : ∃ q', s.call d = some q' ∧ q.seq = q'.seq := by
    by_cases same : d = c
    · subst same
      obtain rfl := Option.some.inj (now.symm.trans hq)
      exact ⟨r, call, rfl⟩
    · exact ⟨q, (kept d same).symm.trans hq, rfl⟩
  have apart (i : Group) (d : CallSlot) (member : d ∈ (s.group i).queue) : d ≠ c := fun e => out (e ▸ ((h.members i d).mp member).1)
  have still (i : Group) : (s.group i).queue.Pairwise (s.join c g).ahead :=
    (h.order i).imp_of_mem fun {d e} hd he before =>
      ahead_congr (by rw [kept d (apart i d hd)]) (by rw [kept e (apart i e he)]) before
  have other (i : Group) (ne : i ≠ g) : ((s.join c g).group i).queue = (s.group i).queue := by rw [join_other call g ne]
  obtain ⟨l, m, split, joined, behind, before⟩ := join_split call g
  refine ⟨fun i d => ?_, fun i => ?_, fun i => ?_, fun d e r q hr hq same => ?_, fun d r hr => ?_⟩
  · by_cases same : d = c
    · subst same
      refine ⟨fun member => ⟨.inl rfl, _, now, ?_⟩, fun ⟨_, q, here, group⟩ => ?_⟩
      · by_contra ne
        rw [other i fun e => ne (by rw [e]; rfl)] at member
        exact apart i d member rfl
      · obtain rfl := Option.some.inj (now.symm.trans here)
        obtain rfl : g = i := group
        exact mem_join call g
    · have member : d ∈ ((s.join c g).group i).queue ↔ d ∈ (s.group i).queue := by
        by_cases here : i = g
        · subst here
          rw [joined, split]
          simp [same]
        · rw [other i here]
      rw [member, h.members, kept d same]
      simp [same]
  · by_cases here : i = g
    · subst here
      have once := h.once i
      rw [joined]
      rw [split] at once
      refine List.nodup_middle.mpr (List.nodup_cons.mpr ⟨fun member => ?_, once⟩)
      rw [← split] at member
      exact apart i c member rfl
    · rw [other i here]
      exact h.once i
  · by_cases here : i = g
    · subst here
      have order := still i
      have members (d : CallSlot) (hd : d ∈ l ++ m) : d ≠ c ∧ ∃ k, s.call d = some k := by
        rw [← split] at hd
        obtain ⟨-, k, hk, -⟩ := (h.members i d).mp hd
        exact ⟨apart i d hd, k, hk⟩
      rw [split] at order
      rw [joined, List.pairwise_append]
      obtain ⟨first, second, across⟩ := List.pairwise_append.mp order
      have after (d : CallSlot) (hd : d ∈ m) : (s.join c i).ahead c d := by
        cases m with
        | nil => cases hd
        | cons e m =>
          obtain ⟨ne, k, hk, place⟩ := before e rfl
          intro r' q hr hq
          obtain rfl := Option.some.inj (now.symm.trans hr)
          rcases List.mem_cons.mp hd with rfl | tail
          · obtain rfl := Option.some.inj (((kept d ne).trans hk).symm.trans hq)
            exact place
          · have next := (List.pairwise_cons.mp second).1 d tail k q ((kept e ne).trans hk) hq
            omega
      refine ⟨first, List.pairwise_cons.mpr ⟨after, second⟩, fun d hd e he => ?_⟩
      rcases List.mem_cons.mp he with rfl | tail
      · obtain ⟨ne, k, hk⟩ := members d (List.mem_append_left _ hd)
        have late := behind d hd ne k hk
        intro r' q hr hq
        obtain rfl := Option.some.inj (((kept d ne).trans hk).symm.trans hr)
        obtain rfl := Option.some.inj (now.symm.trans hq)
        have apart_numbers : k.seq ≠ r.seq := fun e => ne (h.numbers d _ k r hk call e)
        have seq : (r.joined s i).seq = r.seq := rfl
        omega
      · exact across d hd e tail
    · rw [other i here]
      exact still i
  · obtain ⟨r', here, seq⟩ := number d r hr
    obtain ⟨q', there, seq'⟩ := number e q hq
    exact h.numbers d e r' q' here there (by rw [← seq, ← seq', same])
  · obtain ⟨r', here, seq⟩ := number d r hr
    rw [seq, counter]
    exact h.counter d r' here

/-- A call enters a free slot with the counter's number, and the counter moves to a number that no call holds. -/
theorem QueuesFor.enter {W : CallSlot → Prop} {s t : State} {c : CallSlot} {r : CallRec} (h : QueuesFor W s) (free : s.call c = none)
    (queue : ∀ g, (t.group g).queue = (s.group g).queue) (call : t.call c = some r) (others : ∀ d, d ≠ c → t.call d = s.call d)
    (number : r.seq = s.seqCounter) (counter : ∀ d q, t.call d = some q → q.seq ≠ t.seqCounter) :
    QueuesFor (fun d => d ≠ c ∧ W d) t := by
  have apart (g : Group) (d : CallSlot) (member : d ∈ (s.group g).queue) : d ≠ c := fun e => by
    obtain ⟨-, q, here, -⟩ := (h.members g d).mp member
    rw [e, free] at here
    cases here
  refine ⟨fun g d => ?_, fun g => ?_, fun g => ?_, fun d e q k hq hk same => ?_, counter⟩
  · rw [queue, h.members]
    refine ⟨fun ⟨waits, q, here, group⟩ => ?_, fun ⟨⟨ne, waits⟩, q, here, group⟩ => ⟨waits, q, (others d ne).symm.trans here, group⟩⟩
    have ne : d ≠ c := fun e => by
      rw [e, free] at here
      cases here
    exact ⟨⟨ne, waits⟩, q, (others d ne).trans here, group⟩
  · rw [queue]
    exact h.once g
  · rw [queue]
    exact (h.order g).imp_of_mem fun {d e} hd he before =>
      ahead_congr (by rw [others d (apart g d hd)]) (by rw [others e (apart g e he)]) before
  · by_cases hd : d = c
    · subst hd
      obtain rfl := Option.some.inj (call.symm.trans hq)
      by_contra ne
      exact h.counter e k ((others e fun e => ne e.symm).symm.trans hk) (same.symm.trans number)
    · by_cases he : e = c
      · subst he
        obtain rfl := Option.some.inj (call.symm.trans hk)
        exact absurd (same.trans number) (h.counter d q ((others d hd).symm.trans hq))
      · exact h.numbers d e q k ((others d hd).symm.trans hq) ((others e he).symm.trans hk) same

end Sys2Proof.Machine

/-! The runs of the highway channels and the in-use counts of the segments they play (R143, R150, R156), with room for a run that is
being carried on and is not yet put back. -/

namespace Sys2Proof.Machine

/-! ### Runs and segments in use -/

/-- The segments' in-use counts are those of the runs `ρ`, none of which plays a segment in a fill. -/
structure RunsFor (ρ : HighwayChannel → Option Run) (s : State) : Prop where
  segments : ∀ k, (s.segment k).inUse = countOf fun h => (ρ h).any fun r => r.segment == some k
  fills : ∀ h r, ρ h = some r → r.fill ≠ none → r.segment = none

abbrev RunsLegal (s : State) : Prop := RunsFor s.runOf s

/-- A run that has come to no segment and no fill yet. -/
structure Run.Fresh (r : Run) : Prop where
  segment : r.segment = none
  fill : r.fill = none

section
variable {ρ : HighwayChannel → Option Run} {s t : State} {h : HighwayChannel}

theorem RunsFor.congr (legal : RunsFor ρ s) (same : ∀ k, (t.segment k).inUse = (s.segment k).inUse) : RunsFor ρ t :=
  ⟨fun k => (same k).trans (legal.segments k), legal.fills⟩

/-- The run of one highway channel is another, and the counts follow. -/
theorem RunsFor.update (legal : RunsFor ρ s) (o : Option Run)
    (counts : ∀ k, (t.segment k).inUse + (if ((ρ h).any fun r => r.segment == some k) = true then 1 else 0)
      = (s.segment k).inUse + (if (o.any fun r => r.segment == some k) = true then 1 else 0))
    (fill : ∀ r, o = some r → r.fill ≠ none → r.segment = none) : RunsFor (Function.update ρ h o) t where
  segments k := by
    have count := countOf_update (p := fun i => (ρ i).any fun r => r.segment == some k)
      (q := fun i => ((Function.update ρ h o) i).any fun r => r.segment == some k) h fun i ne => by rw [Function.update_of_ne ne]
    rw [Function.update_self, ← legal.segments] at count
    have moved := counts k
    omega
  fills i r run := by
    by_cases here : i = h
    · subst here
      rw [Function.update_self] at run
      exact fill r run
    · rw [Function.update_of_ne here] at run
      exact legal.fills i r run

/-- One run gives way to another, neither having a segment. -/
theorem RunsFor.replace (legal : RunsFor ρ s) (before : ∀ r, ρ h = some r → r.segment = none) (o : Option Run)
    (after : ∀ r, o = some r → r.segment = none) : RunsFor (Function.update ρ h o) s := by
  have idle (o : Option Run) (free : ∀ r, o = some r → r.segment = none) (k : SegmentCode) :
      (if (o.any fun r => r.segment == some k) = true then 1 else 0) = 0 := by
    refine if_neg fun plays => ?_
    obtain ⟨r, here, segment⟩ := exists_of_any plays
    rw [free r here] at segment
    cases segment
  exact legal.update o (fun k => by rw [idle _ before, idle _ after]) fun r here _ => after r here

theorem leaveSegment_rest (s : State) (o : Option SegmentCode) : ∃ segments, s.leaveSegment o = { s with segments := segments } := by
  cases o with
  | none => exact ⟨_, rfl⟩
  | some k => exact ⟨_, rfl⟩

/-- A channel leaves the segment of its run. -/
theorem RunsFor.left (legal : RunsFor ρ s) {r : Run} (run : ρ h = some r) (o : Option Run)
    (after : ∀ q, o = some q → q.segment = none) : RunsFor (Function.update ρ h o) (s.leaveSegment r.segment) := by
  refine legal.update o (fun k => ?_) fun q here _ => after q here
  have gone : (if (o.any fun r => r.segment == some k) = true then 1 else 0) = 0 := by
    refine if_neg fun plays => ?_
    obtain ⟨q, here, segment⟩ := exists_of_any plays
    rw [after q here] at segment
    cases segment
  rw [gone, run, Option.any_some]
  cases playing : r.segment with
  | none => rfl
  | some i =>
    have count := (legal.segments k).symm
    rw [State.leaveSegment, State.setSegment_segment]
    by_cases here : k = i
    · subst here
      have held := countOf_update (p := fun j => (ρ j).any fun r => r.segment == some k)
        (q := fun j => ((Function.update ρ h none) j).any fun r => r.segment == some k) h fun j ne => by rw [Function.update_of_ne ne]
      rw [Function.update_self, run, Option.any_some, playing, count] at held
      simp at held ⊢
      omega
    · have ne : (some i == some k) = false := by simpa using fun e => here e.symm
      rw [if_neg here, ne]
      rfl

/-- A channel whose run has no segment begins one. -/
theorem RunsFor.begun (legal : RunsFor ρ s) (before : ∀ r, ρ h = some r → r.segment = none) (code : Nat) {r : Run}
    (segment : r.segment = (s.beginSegment code).1) (fill : r.fill = none) :
    RunsFor (Function.update ρ h (some r)) (s.beginSegment code).2 := by
  refine legal.update (some r) (fun k => ?_) fun q here filled => ?_
  · have gone : (if ((ρ h).any fun r => r.segment == some k) = true then 1 else 0) = 0 := by
      refine if_neg fun plays => ?_
      obtain ⟨q, here, segment⟩ := exists_of_any plays
      rw [before q here] at segment
      cases segment
    rw [gone, Option.any_some]
    rcases present_cases s code with ⟨-, e⟩ | ⟨i, -, e⟩
    · obtain ⟨_, _, rest⟩ := raiseSegmentFault_rest s
      rw [e] at segment
      rw [segment, e, rest]
      rfl
    · rw [e] at segment
      rw [segment, e]
      refine (congrArg (fun e : SegmentRec => e.inUse + 0) (State.setSegment_segment ..)).trans ?_
      by_cases here : k = i
      · subst here
        simp
      · have ne : (some i == some k) = false := by simpa using fun e => here e.symm
        rw [if_neg here, ne]
        rfl
  · obtain rfl := Option.some.inj here
    exact absurd fill filled

theorem RunsFor.begunWord (legal : RunsFor ρ s) (before : ∀ r, ρ h = some r → r.segment = none) (v : VocabNo) {r : Run}
    (segment : r.segment = (s.beginWord v).1) (fill : r.fill = none) : RunsFor (Function.update ρ h (some r)) (s.beginWord v).2 := by
  cases there : s.vocabEntry v with
  | none =>
    have missing : s.beginWord v = (none, s.raiseSegmentFault) := by rw [State.beginWord, there]
    obtain ⟨_, _, rest⟩ := raiseSegmentFault_rest s
    rw [missing] at segment ⊢
    exact (legal.replace before (some r) fun q here => by
      obtain rfl := Option.some.inj here
      exact segment).congr fun k => by rw [rest]; rfl
  | some b =>
    have present : s.beginWord v = s.beginSegment b.toNat := by rw [State.beginWord, there]
    rw [present] at segment ⊢
    exact legal.begun before b.toNat segment fill

/-! ### Steps carried out (R150) -/

/-- A step carried out leaves the run fresh, unless it takes time, and the counts follow it. -/
theorem carryStep_runs (caller : Option CallSlot) {r : Run} (legal : RunsFor (Function.update ρ h (some r)) s) (fresh : r.Fresh) :
    RunsFor (Function.update ρ h (some (s.carryStep caller r).2.1)) (s.carryStep caller r).2.2
      ∧ (s.carryStep caller r).2.1.fill = none ∧ ((s.carryStep caller r).1 ≠ .timed → (s.carryStep caller r).2.1.Fresh) := by
  have before (q : Run) (here : Function.update ρ h (some r) h = some q) : q.segment = none := by
    rw [Function.update_self] at here
    obtain rfl := Option.some.inj here
    exact fresh.segment
  have renewed (q : Run) (silent : q.segment = none) : RunsFor (Function.update ρ h (some q)) s := by
    have put := legal.replace before (some q) fun q' here => by
      obtain rfl := Option.some.inj here
      exact silent
    rwa [Function.update_idem] at put
  have begun (code : Nat) (q : Run) (segment : q.segment = (s.beginSegment code).1) (fill : q.fill = none) :
      RunsFor (Function.update ρ h (some q)) (s.beginSegment code).2 := by
    have put := legal.begun before code segment fill
    rwa [Function.update_idem] at put
  have begunWord (v : VocabNo) (q : Run) (segment : q.segment = (s.beginWord v).1) (fill : q.fill = none) :
      RunsFor (Function.update ρ h (some q)) (s.beginWord v).2 := by
    have put := legal.begunWord before v segment fill
    rwa [Function.update_idem] at put
  unfold State.carryStep
  dsimp only
  split
  · exact ⟨renewed _ fresh.segment, fresh.fill, fun _ => ⟨fresh.segment, fresh.fill⟩⟩
  · exact ⟨begun _ _ rfl fresh.fill, fresh.fill, fun timed => absurd rfl timed⟩
  · exact ⟨renewed _ rfl, fresh.fill, fun timed => absurd rfl timed⟩
  case h_4 | h_5 =>
    split
    · exact ⟨legal, fresh.fill, fun _ => fresh⟩
    · split
      · exact ⟨legal, fresh.fill, fun _ => fresh⟩
      · exact ⟨begunWord _ _ rfl fresh.fill, fresh.fill, fun timed => absurd rfl timed⟩
  · exact ⟨legal, fresh.fill, fun _ => fresh⟩
  · split
    · exact ⟨legal, fresh.fill, fun _ => fresh⟩
    · split
      · exact ⟨renewed _ fresh.segment, fresh.fill, fun _ => ⟨fresh.segment, fresh.fill⟩⟩
      · exact ⟨renewed _ fresh.segment, fresh.fill, fun _ => ⟨fresh.segment, fresh.fill⟩⟩
  · exact ⟨legal, fresh.fill, fun _ => fresh⟩

end

/-! ### Music sources (R162, R163) -/

/-- What the records of the calls and the wait list see of a change of the runs: nothing. -/
structure RunsMove (s t : State) : Prop where
  calls : t.calls = s.calls
  waitList : t.waitList = s.waitList
  served : ∀ j, (t.channel j).map Announcement.call = (s.channel j).map Announcement.call
  listeners : ∀ m, (t.source m).listeners = (s.source m).listeners

theorem RunsMove.refl (s : State) : RunsMove s s := ⟨rfl, rfl, fun _ => rfl, fun _ => rfl⟩

theorem RunsMove.trans {s t u : State} (h : RunsMove s t) (k : RunsMove t u) : RunsMove s u :=
  ⟨k.calls.trans h.calls, k.waitList.trans h.waitList, fun j => (k.served j).trans (h.served j),
    fun m => (k.listeners m).trans (h.listeners m)⟩

theorem playerOf_highwayOfSource (m : SourceNo) : playerOf (highwayOfSource m) = .source m := (playerOf_source_iff _ m).mpr rfl

theorem playerOf_highwayOfChannel (j : ChannelNo) : playerOf (highwayOfChannel j) = .channel j := (playerOf_channel_iff _ j).mpr rfl

/-- The runs after one source's record has been written. -/
theorem setSource_runOf (s : State) (m : SourceNo) (q : SourceRec) :
    (s.setSource m q).runOf = Function.update s.runOf (highwayOfSource m) q.run := by
  funext k
  by_cases here : k = highwayOfSource m
  · subst here
    rw [Function.update_self, runOf_source (playerOf_highwayOfSource m), State.setSource_source_self]
  · rw [Function.update_of_ne here]
    cases p : playerOf k with
    | source n =>
      have ne : n ≠ m := fun e => here (playerOf_injective (p.trans (by rw [e, playerOf_highwayOfSource])))
      rw [runOf_source p, runOf_source p, State.setSource_source_of_ne _ _ ne]
    | channel j => rw [runOf_channel p, runOf_channel p]; rfl

/-- The runs after one channel has been written. -/
theorem setChannel_runOf (s : State) (j : ChannelNo) (b : Option Announcement) :
    (s.setChannel j b).runOf = Function.update s.runOf (highwayOfChannel j) (b.map Announcement.run) := by
  funext k
  by_cases here : k = highwayOfChannel j
  · subst here
    rw [Function.update_self, runOf_channel (playerOf_highwayOfChannel j), State.setChannel_channel_self]
  · rw [Function.update_of_ne here]
    cases p : playerOf k with
    | source n => rw [runOf_source p, runOf_source p]; rfl
    | channel i =>
      have ne : i ≠ j := fun e => here (playerOf_injective (p.trans (by rw [e, playerOf_highwayOfChannel])))
      rw [runOf_channel p, runOf_channel p, State.setChannel_channel_of_ne _ _ ne]

theorem runOf_congr {s t : State} (sources : t.sources = s.sources) (channels : t.channels = s.channels) : t.runOf = s.runOf := by
  funext k
  cases p : playerOf k with
  | source m => rw [runOf_source p, runOf_source p]; exact congrArg SourceRec.run (congrArg (Vector.get · m) sources :)
  | channel j => rw [runOf_channel p, runOf_channel p]; exact congrArg (Option.map _) (congrArg (Vector.get · j) channels :)

theorem setSource_runsMove (s : State) (m : SourceNo) (q : SourceRec) (same : q.listeners = (s.source m).listeners) :
    RunsMove s (s.setSource m q) := by
  refine ⟨rfl, rfl, fun _ => rfl, fun n => ?_⟩
  rw [State.setSource_source]
  split
  next here => rw [here]; exact same
  next => rfl

theorem takeReturn_fresh (s : State) (ret : Return) {r : Run} (silent : r.segment = none) : (s.takeReturn ret r).Fresh := by
  cases ret with
  | jump => exact ⟨silent, rfl⟩
  | restart => exact ⟨rfl, rfl⟩

section
variable {ρ : HighwayChannel → Option Run} {s : State} {m : SourceNo}

/-- A source that takes a return goes on with a fresh run, or stops and holds none. -/
theorem sourceReturn_runs (ret : Return) {r : Run} (silent : r.segment = none)
    (legal : RunsFor (Function.update s.runOf (highwayOfSource m) (some r)) s) :
    (∀ q, (s.sourceReturn m ret r).1 = some q → q.Fresh
        ∧ RunsFor (Function.update (s.sourceReturn m ret r).2.runOf (highwayOfSource m) (some q)) (s.sourceReturn m ret r).2)
      ∧ ((s.sourceReturn m ret r).1 = none → RunsLegal (s.sourceReturn m ret r).2)
      ∧ RunsMove s (s.sourceReturn m ret r).2 := by
  have before (q : Run) (here : Function.update s.runOf (highwayOfSource m) (some r) (highwayOfSource m) = some q) : q.segment = none := by
    rw [Function.update_self] at here
    obtain rfl := Option.some.inj here
    exact silent
  have goes (q : Run) (fresh : q.Fresh) (t : State) (segments : t.segments = s.segments) (x : Option Run)
      (runs : t.runOf = Function.update s.runOf (highwayOfSource m) x) :
      RunsFor (Function.update t.runOf (highwayOfSource m) (some q)) t := by
    have put := legal.replace before (some q) fun q' here => by
      obtain rfl := Option.some.inj here
      exact fresh.segment
    rw [runs, Function.update_idem]
    rw [Function.update_idem] at put
    exact put.congr fun k => congrArg SegmentRec.inUse (congrArg (Vector.get · k) segments :)
  have stops (q : SourceRec) (idle : q.run = none) : RunsLegal (s.setSource m q) := by
    have put := legal.replace before none nofun
    rw [Function.update_idem] at put
    rw [RunsLegal, setSource_runOf, idle]
    exact put.congr fun k => rfl
  have next := takeReturn_fresh s ret silent
  unfold State.sourceReturn
  split
  · dsimp only
    generalize (if (s.source m).listeners = 0 then (s.source m).idlePasses + 1 else (s.source m).idlePasses) = passes
    split
    · exact ⟨nofun, fun _ => stops _ rfl, setSource_runsMove _ _ _ rfl⟩
    · by_cases limit : (s.source m).listeners = 0 ∧ (s.source m).idleLimit ≤ passes
      · rw [if_pos limit]
        exact ⟨nofun, fun _ => stops _ rfl, setSource_runsMove _ _ _ rfl⟩
      · rw [if_neg limit]
        refine ⟨fun q here => ?_, nofun, setSource_runsMove _ _ _ rfl⟩
        have fresh : q.Fresh := by
          obtain rfl := Option.some.inj here
          split
          · exact next
          · exact ⟨rfl, rfl⟩
        exact ⟨fresh, goes _ fresh _ rfl _ (setSource_runOf ..)⟩
  · refine ⟨fun q here => ?_, nofun, .refl s⟩
    obtain rfl := Option.some.inj here
    exact ⟨next, goes _ next s rfl _ (Function.update_eq_self ..).symm⟩

/-- A source's run that is carried on is put back, or the source stops. -/
theorem carrySource_runs (n : Nat) {r : Run} (fresh : r.Fresh)
    (legal : RunsFor (Function.update s.runOf (highwayOfSource m) (some r)) s) :
    RunsLegal (State.carrySource n m r s) ∧ RunsMove s (State.carrySource n m r s) := by
  have put (t : State) (r : Run) (legal : RunsFor (Function.update t.runOf (highwayOfSource m) (some r)) t) :
      RunsLegal (t.putSourceRun m r) ∧ RunsMove t (t.putSourceRun m r) := by
    refine ⟨?_, setSource_runsMove _ _ _ rfl⟩
    rw [RunsLegal, State.putSourceRun, setSource_runOf]
    exact legal.congr fun _ => rfl
  induction n generalizing r s with
  | zero => exact put s r legal
  | succ n ih =>
    have carried := carryStep_runs none legal fresh
    obtain ⟨⟨_, _, _, rest⟩, -⟩ := carryStep_rest s none r
    have move : RunsMove s (s.carryStep none r).2.2 := by
      rw [rest]
      exact ⟨rfl, rfl, fun _ => rfl, fun _ => rfl⟩
    have runs : (s.carryStep none r).2.2.runOf = s.runOf := by
      rw [rest]
      exact runOf_congr rfl rfl
    unfold State.carrySource
    split
    next r1 s1 e =>
      rw [e] at carried move runs
      dsimp only at carried move runs
      obtain ⟨legal', -, -⟩ := carried
      rw [← runs] at legal'
      obtain ⟨done, on⟩ := put s1 r1 legal'
      exact ⟨done, move.trans on⟩
    next r1 s1 e =>
      rw [e] at carried move runs
      dsimp only at carried move runs
      obtain ⟨legal', -, fresh'⟩ := carried
      have next := fresh' nofun
      have stepped : RunsFor (Function.update s1.runOf (highwayOfSource m) (some { r1 with step := r1.step + 1 })) s1 := by
        have put := legal'.replace (h := highwayOfSource m) (fun q here => by
          rw [Function.update_self] at here
          obtain rfl := Option.some.inj here
          exact next.segment) (some { r1 with step := r1.step + 1 }) fun q here => by
            obtain rfl := Option.some.inj here
            exact next.segment
        rwa [Function.update_idem, ← runs] at put
      obtain ⟨done, on⟩ := ih (r := { r1 with step := r1.step + 1 }) ⟨next.segment, next.fill⟩ stepped
      exact ⟨done, move.trans on⟩
    next ret r1 s1 e =>
      rw [e] at carried move runs
      dsimp only at carried move runs
      obtain ⟨legal', -, fresh'⟩ := carried
      have next := fresh' nofun
      rw [← runs] at legal'
      split
      · obtain ⟨on, off, moved⟩ := sourceReturn_runs ret next.segment legal'
        split
        next s2 e2 =>
          rw [e2] at off moved
          exact ⟨off rfl, move.trans moved⟩
        next r2 s2 e2 =>
          rw [e2] at on moved
          obtain ⟨fresh2, legal2⟩ := on r2 rfl
          obtain ⟨done, further⟩ := ih fresh2 legal2
          exact ⟨done, (move.trans moved).trans further⟩
      · have filled : RunsFor (Function.update s1.runOf (highwayOfSource m) (some { r1 with fill := some ret, position := 0 })) s1 := by
          have put := legal'.replace (h := highwayOfSource m) (fun q here => by
            rw [Function.update_self] at here
            obtain rfl := Option.some.inj here
            exact next.segment) (some { r1 with fill := some ret, position := 0 }) fun q here => by
              obtain rfl := Option.some.inj here
              exact next.segment
          rwa [Function.update_idem] at put
        obtain ⟨done, on⟩ := put s1 _ filled
        exact ⟨done, move.trans on⟩

theorem startSource_runs (legal : RunsLegal s) (m : SourceNo) : RunsLegal (s.startSource m) ∧ RunsMove s (s.startSource m) := by
  unfold State.startSource
  dsimp only
  split
  next p stopped _ =>
    have idle : s.runOf (highwayOfSource m) = none := by rw [runOf_source (playerOf_highwayOfSource m), stopped]
    have begun : RunsFor (Function.update s.runOf (highwayOfSource m) (some (Run.begin p))) s :=
      legal.replace (fun q here => by rw [idle] at here; cases here) _ fun q here => by
        obtain rfl := Option.some.inj here
        rfl
    obtain ⟨done, on⟩ := carrySource_runs (s := s.setSource m { s.source m with run := some (Run.begin p), idlePasses := 0 }) (m := m)
      State.carryFuel (r := Run.begin p) ⟨rfl, rfl⟩ (by
        rw [setSource_runOf, Function.update_idem]
        exact begun.congr fun _ => rfl)
    exact ⟨done, (setSource_runsMove s m { s.source m with run := some (Run.begin p), idlePasses := 0 } rfl).trans on⟩
  · exact ⟨legal, .refl s⟩

end


end Sys2Proof.Machine

/-! What the callers hear (R160, R167 to R170), with `V` for the calls that may hear and be due: those that wait, or those that a
command has not yet taken off the stage. -/

namespace Sys2Proof.Machine

/-! ### One record -/

/-- The call has an entry in the wait list. -/
def State.listed (s : State) (c : CallSlot) : Prop := ∃ e ∈ s.waitList, e.call = c

/-- The call that a channel is BUSY for. -/
def State.serves (s : State) (j : ChannelNo) : Option CallSlot := (s.channel j).map Announcement.call

/-- What of a record the callers' hearing is read from. -/
def CallRec.hearing (r : CallRec) : Listen × Option Nat × Bool × Nat := (r.listen, r.nextDue, r.onWaitList, r.seq)

/-- The record of a call that may hear (`v`), has an entry (`listed`) and is served by the channels `served` says. -/
structure CallRec.Hears (r : CallRec) (v listed : Prop) (served : ChannelNo → Prop) : Prop where
  flag : r.onWaitList = true ↔ listed
  waits : listed → v ∧ r.nextDue = none ∧ ∀ j, r.listen ≠ .announce j
  channel : ∀ j, r.listen = .announce j ↔ served j
  due : ∀ j, r.listen = .announce j → r.nextDue = none
  away : ¬v → r.listen = .silent ∧ r.nextDue = none

theorem CallRec.Hears.congr {r q : CallRec} {v v' listed listed' : Prop} {served served' : ChannelNo → Prop}
    (h : r.Hears v listed served) (same : q.hearing = r.hearing) (hv : v' ↔ v) (hl : listed' ↔ listed)
    (hs : ∀ j, served' j ↔ served j) : q.Hears v' listed' served' := by
  simp only [CallRec.hearing, Prod.mk.injEq] at same
  obtain ⟨listen, due, flag, -⟩ := same
  refine ⟨?_, ?_, ?_, ?_, ?_⟩
  · rw [flag, hl]
    exact h.flag
  · rw [hl, hv, due, listen]
    exact h.waits
  · intro j
    rw [listen, hs]
    exact h.channel j
  · rw [listen, due]
    exact h.due
  · rw [hv, listen, due]
    exact h.away

/-- Entry `e` stands before entry `f` in the wait list's order (R168). -/
def State.dueAhead (s : State) (e f : WaitEntry) : Prop :=
  e.due < f.due ∨ (e.due = f.due ∧ ∀ r q, s.call e.call = some r → s.call f.call = some q → r.seq < q.seq)

/-- The source's listeners count those that hear it, and records, wait list and channels agree. -/
structure HearFor (V : CallSlot → Prop) (s : State) : Prop where
  listeners : ∀ m, (s.source m).listeners = countOf fun c => (s.call c).any fun r => r.listen == .music m
  records : ∀ c r, s.call c = some r → r.Hears (V c) (s.listed c) fun j => s.serves j = some c
  entries : ∀ c, s.listed c → s.call c ≠ none
  once : (s.waitList.map WaitEntry.call).Nodup
  order : s.waitList.Pairwise s.dueAhead
  served : ∀ j c, s.serves j = some c → s.call c ≠ none

theorem serves_iff {s : State} {j : ChannelNo} {c : CallSlot} : s.serves j = some c ↔ ∃ b, s.channel j = some b ∧ b.call = c :=
  Option.map_eq_some_iff

theorem hearFor_iff (s : State) : HearFor s.waits s ↔
    (∀ m, (s.source m).listeners = ((List.finRange 1024).filter fun c => (s.call c).any fun r => r.listen == .music m).length)
      ∧ HearingLegal s := by
  have stage {c : CallSlot} {r : CallRec} (call : s.call c = some r) : s.waits c ↔ r.waits :=
    ⟨fun ⟨q, here, waits⟩ => Option.some.inj (call.symm.trans here) ▸ waits, fun waits => ⟨r, call, waits⟩⟩
  constructor
  · rintro ⟨listeners, records, entries, once, order, served⟩
    refine ⟨fun m => (listeners m).trans (countOf_eq _), fun c r call => (records c r call).flag, fun e he => ?_, once, order,
      fun c r j call => ((records c r call).channel j).trans serves_iff, fun j b busy => ?_, fun c r j call => (records c r call).due j,
      fun c r call away => (records c r call).away fun waits => away ((stage call).mp waits)⟩
    · have listed : s.listed e.call := ⟨e, he, rfl⟩
      obtain ⟨r, call⟩ := Option.ne_none_iff_exists'.mp (entries e.call listed)
      obtain ⟨waits, due, silent⟩ := (records e.call r call).waits listed
      exact ⟨r, call, (stage call).mp waits, due, silent⟩
    · exact served j b.call (serves_iff.mpr ⟨b, busy, rfl⟩)
  · rintro ⟨listeners, flags, entries, once, order, channels, served, dues, away⟩
    refine ⟨fun m => (listeners m).trans (countOf_eq _).symm, fun c r call => ⟨flags c r call, ?_, ?_, fun j => dues c r j call,
      fun gone => away c r call fun waits => gone ((stage call).mpr waits)⟩, ?_, once, order, ?_⟩
    · rintro ⟨e, he, rfl⟩
      obtain ⟨q, here, waits, due, silent⟩ := entries e he
      obtain rfl := Option.some.inj (call.symm.trans here)
      exact ⟨(stage call).mpr waits, due, silent⟩
    · exact fun j => (channels c r j call).trans serves_iff.symm
    · rintro c ⟨e, he, rfl⟩ free
      obtain ⟨q, here, -⟩ := entries e he
      rw [free] at here
      cases here
    · intro j c busy
      obtain ⟨b, channel, rfl⟩ := serves_iff.mp busy
      exact served j b channel

/-! ### What leaves it as it is -/

/-- What hearing is read from is the same. -/
structure SameHearing (s t : State) : Prop where
  calls : ∀ c, (t.call c).map CallRec.hearing = (s.call c).map CallRec.hearing
  waitList : t.waitList = s.waitList
  serves : ∀ j, t.serves j = s.serves j
  listeners : ∀ m, (t.source m).listeners = (s.source m).listeners

theorem hearing_of_map {o p : Option CallRec} (same : p.map CallRec.hearing = o.map CallRec.hearing) {q : CallRec} (h : p = some q) :
    ∃ r, o = some r ∧ q.hearing = r.hearing := by
  rw [h, Option.map_some, eq_comm, Option.map_eq_some_iff] at same
  obtain ⟨r, here, fields⟩ := same
  exact ⟨r, here, fields.symm⟩

theorem hearing_seq {o p : Option CallRec} (same : p.map CallRec.hearing = o.map CallRec.hearing) :
    p.map CallRec.seq = o.map CallRec.seq := by
  have seqs := congrArg (Option.map fun x => x.2.2.2) same
  rw [Option.map_map, Option.map_map] at seqs
  exact seqs

theorem hearing_music {o p : Option CallRec} (same : p.map CallRec.hearing = o.map CallRec.hearing) (m : SourceNo) :
    (p.any fun r => r.listen == .music m) = o.any fun r => r.listen == .music m := by
  have music := congrArg (Option.any fun x => x.1 == .music m) same
  rw [Option.any_map, Option.any_map] at music
  exact music

theorem dueAhead_congr {s t : State} {e f : WaitEntry} (first : (t.call e.call).map CallRec.seq = (s.call e.call).map CallRec.seq)
    (second : (t.call f.call).map CallRec.seq = (s.call f.call).map CallRec.seq) (h : s.dueAhead e f) : t.dueAhead e f := by
  refine h.imp_right fun ⟨due, before⟩ => ⟨due, fun r q hr hq => ?_⟩
  rw [hr, Option.map_some, eq_comm, Option.map_eq_some_iff] at first
  rw [hq, Option.map_some, eq_comm, Option.map_eq_some_iff] at second
  obtain ⟨r', here, seq⟩ := first
  obtain ⟨q', there, seq'⟩ := second
  rw [← seq, ← seq']
  exact before r' q' here there

/-- The calls that hear source `m` among one slot. -/
def hearsMusic (o : Option CallRec) (m : SourceNo) : Nat := if (o.any fun r => r.listen == .music m) = true then 1 else 0

section
variable {V V' : CallSlot → Prop} {s t : State} {c : CallSlot}

/-- One call alone hears, waits or is served otherwise, or comes or goes: the counts follow it. -/
theorem HearFor.update (h : HearFor V s) (c : CallSlot)
    (others : ∀ d, d ≠ c → (t.call d).map CallRec.hearing = (s.call d).map CallRec.hearing)
    (listeners : ∀ m, (t.source m).listeners + hearsMusic (s.call c) m = (s.source m).listeners + hearsMusic (t.call c) m)
    (list : t.waitList.Sublist s.waitList) (kept : ∀ e ∈ s.waitList, e.call ≠ c → e ∈ t.waitList)
    (serves : ∀ j d, d ≠ c → (t.serves j = some d ↔ s.serves j = some d)) (stage : ∀ d, d ≠ c → (V' d ↔ V d))
    (record : ∀ r, t.call c = some r → r.Hears (V' c) (t.listed c) fun j => t.serves j = some c)
    (number : t.listed c → (t.call c).map CallRec.seq = (s.call c).map CallRec.seq)
    (present : t.listed c ∨ (∃ j, t.serves j = some c) → t.call c ≠ none) : HearFor V' t := by
  have listed (d : CallSlot) (ne : d ≠ c) : t.listed d ↔ s.listed d := by
    constructor
    · rintro ⟨e, he, rfl⟩
      exact ⟨e, list.subset he, rfl⟩
    · rintro ⟨e, he, rfl⟩
      exact ⟨e, kept e he ne, rfl⟩
  have seqs (e : WaitEntry) (he : e ∈ t.waitList) : (t.call e.call).map CallRec.seq = (s.call e.call).map CallRec.seq := by
    by_cases here : e.call = c
    · rw [here]
      exact number ⟨e, he, here⟩
    · exact hearing_seq (others e.call here)
  have none_iff (d : CallSlot) (ne : d ≠ c) : t.call d = none ↔ s.call d = none := by
    rw [← Option.map_eq_none_iff (f := CallRec.hearing), others d ne, Option.map_eq_none_iff]
  refine ⟨fun m => ?_, fun d r call => ?_, fun d there => ?_, ?_, ?_, fun j d there => ?_⟩
  · have count := countOf_update (p := fun d => (s.call d).any fun r => r.listen == .music m)
      (q := fun d => (t.call d).any fun r => r.listen == .music m) c fun d ne => hearing_music (others d ne) m
    rw [← h.listeners] at count
    have moved := listeners m
    unfold hearsMusic at moved
    omega
  · by_cases here : d = c
    · subst here
      exact record r call
    · obtain ⟨q, call', same⟩ := hearing_of_map (others d here) call
      exact (h.records d q call').congr same (stage d here) (listed d here) fun j => serves j d here
  · by_cases here : d = c
    · subst here
      exact present (.inl there)
    · rw [ne_eq, none_iff d here]
      exact h.entries d ((listed d here).mp there)
  · exact h.once.sublist (list.map _)
  · exact (h.order.sublist list).imp_of_mem fun {e f} he hf before => dueAhead_congr (seqs e he) (seqs f hf) before
  · by_cases here : d = c
    · subst here
      exact present (.inr ⟨j, there⟩)
    · rw [ne_eq, none_iff d here]
      exact h.served j d ((serves j d here).mp there)

theorem HearFor.congr (h : HearFor V s) (same : SameHearing s t) : HearFor V t := by
  have listed (d : CallSlot) : t.listed d ↔ s.listed d := by rw [State.listed, State.listed, same.waitList]
  have none_iff (d : CallSlot) : t.call d = none ↔ s.call d = none := by
    rw [← Option.map_eq_none_iff (f := CallRec.hearing), same.calls d, Option.map_eq_none_iff]
  refine ⟨fun m => ?_, fun d r call => ?_, fun d there => ?_, ?_, ?_, fun j d there => ?_⟩
  · rw [same.listeners, h.listeners]
    exact countOf_congr fun d => (hearing_music (same.calls d) m).symm
  · obtain ⟨q, call', fields⟩ := hearing_of_map (same.calls d) call
    exact (h.records d q call').congr fields .rfl (listed d) fun j => by rw [same.serves]
  · rw [ne_eq, none_iff]
    exact h.entries d ((listed d).mp there)
  · rw [same.waitList]
    exact h.once
  · rw [same.waitList]
    exact h.order.imp fun before => dueAhead_congr (hearing_seq (same.calls _)) (hearing_seq (same.calls _)) before
  · rw [ne_eq, none_iff]
    exact h.served j d ((same.serves j).symm.trans there)

theorem HearFor.congr_set (h : HearFor V s) (same : ∀ d r, s.call d = some r → (V' d ↔ V d)) : HearFor V' s :=
  ⟨h.listeners, fun d r call => (h.records d r call).congr rfl (same d r call) .rfl fun _ => .rfl, h.entries, h.once, h.order, h.served⟩

/-- A call that hears and is due nothing, and does not wait, may leave the stage. -/
theorem HearFor.retire (h : HearFor V s) (silent : ∀ r, s.call c = some r → r.listen = .silent ∧ r.nextDue = none)
    (unlisted : ¬s.listed c) : HearFor (fun d => d ≠ c ∧ V d) s := by
  refine ⟨h.listeners, fun d r call => ?_, h.entries, h.once, h.order, h.served⟩
  have hears := h.records d r call
  by_cases here : d = c
  · subst here
    exact ⟨hears.flag, fun listed => absurd listed unlisted, hears.channel, hears.due, fun _ => silent r call⟩
  · exact hears.congr rfl (and_iff_right here) .rfl fun _ => .rfl

/-- A free slot may be said to be on the stage or not. -/
theorem HearFor.other (h : HearFor V s) (call : s.call c = none) : HearFor (fun d => d = c ∨ V d) s :=
  h.congr_set fun d r here => by
    have ne : d ≠ c := fun e => by rw [e, call] at here; cases here
    simp [ne]

theorem HearFor.unlisted (h : HearFor V s) (free : s.call c = none) : ¬s.listed c := fun listed => h.entries c listed free

theorem HearFor.unserved (h : HearFor V s) (free : s.call c = none) (j : ChannelNo) : s.serves j ≠ some c :=
  fun served => h.served j c served free

/-- A record comes into a free slot. -/
theorem HearFor.enter (h : HearFor V s) {r : CallRec} (free : s.call c = none) (call : t.call c = some r)
    (others : ∀ d, d ≠ c → t.call d = s.call d) (waitList : t.waitList = s.waitList) (channels : ∀ j, t.serves j = s.serves j)
    (listeners : ∀ m, (t.source m).listeners = (s.source m).listeners)
    (silent : r.listen = .silent) (due : r.nextDue = none) (flag : r.onWaitList = false) : HearFor V t := by
  have unlisted : ¬t.listed c := by
    rw [State.listed, waitList]
    exact h.unlisted free
  have unserved (j : ChannelNo) : t.serves j ≠ some c := by
    rw [channels]
    exact h.unserved free j
  refine h.update c (fun d ne => by rw [others d ne]) (fun m => ?_) (by rw [waitList]) (fun e he _ => waitList ▸ he)
    (fun j d _ => by rw [channels]) (fun _ _ => .rfl) (fun q here => ?_) (fun listed => absurd listed unlisted) fun either => ?_
  · rw [listeners, free, call, hearsMusic, hearsMusic, Option.any_some, silent]
    rfl
  · obtain rfl := Option.some.inj (call.symm.trans here)
    exact ⟨by simp [flag, unlisted], fun listed => absurd listed unlisted, fun j => by simp [silent, unserved j], fun _ _ => due,
      fun _ => ⟨silent, due⟩⟩
  · rcases either with listed | ⟨j, served⟩
    · exact absurd listed unlisted
    · exact absurd served (unserved j)

/-- A call that hears nothing and does not wait goes. -/
theorem HearFor.gone (h : HearFor V s) {r : CallRec} (call : s.call c = some r) (free : t.call c = none)
    (others : ∀ d, d ≠ c → t.call d = s.call d) (waitList : t.waitList = s.waitList) (channels : ∀ j, t.serves j = s.serves j)
    (listeners : ∀ m, (t.source m).listeners = (s.source m).listeners) (silent : r.listen = .silent) (unlisted : ¬s.listed c) :
    HearFor V t := by
  have unlisted : ¬t.listed c := by rwa [State.listed, waitList]
  have unserved (j : ChannelNo) : t.serves j ≠ some c := by
    rw [channels]
    intro served
    rw [((h.records c r call).channel j).mpr served] at silent
    cases silent
  refine h.update c (fun d ne => by rw [others d ne]) (fun m => ?_) (by rw [waitList]) (fun e he _ => waitList ▸ he)
    (fun j d _ => by rw [channels]) (fun _ _ => .rfl) (fun q here => ?_) (fun listed => absurd listed unlisted) fun either => ?_
  · rw [listeners, free, call, hearsMusic, hearsMusic, Option.any_some, silent]
    rfl
  · rw [free] at here
    cases here
  · rcases either with listed | ⟨j, served⟩
    · exact absurd listed unlisted
    · exact absurd served (unserved j)

/-! ### One record written -/

/-- What a call hears or is due is written, and the listener counts and the channels follow. -/
theorem HearFor.write (h : HearFor V s) {r q : CallRec} (call : s.call c = some r) (call' : t.call c = some q)
    (others : ∀ d, d ≠ c → (t.call d).map CallRec.hearing = (s.call d).map CallRec.hearing)
    (listeners : ∀ m, (t.source m).listeners = listenersAfter r q.listen m (s.source m).listeners)
    (waitList : t.waitList = s.waitList) (serves : ∀ j d, d ≠ c → (t.serves j = some d ↔ s.serves j = some d))
    (seq : q.seq = r.seq) (record : q.Hears (V c) (s.listed c) fun j => t.serves j = some c) : HearFor V t := by
  refine h.update c others (fun m => ?_) (by rw [waitList]) (fun e he _ => waitList ▸ he) serves (fun _ _ => .rfl)
    (fun q' here => ?_) (fun _ => by rw [call, call', Option.map_some, Option.map_some, seq]) fun _ => by rw [call']; nofun
  · have held : r.listen = .music m → (s.source m).listeners ≠ 0 := fun hears none => by
      have count := countOf_update (p := fun d => (s.call d).any fun r => r.listen == .music m)
        (q := fun d => d != c && (s.call d).any fun r => r.listen == .music m) c fun d ne => by simp [ne]
      rw [← h.listeners, none, call, Option.any_some, hears] at count
      simp at count
    rw [listeners, listenersAfter, call, call', hearsMusic, hearsMusic, Option.any_some, Option.any_some]
    by_cases stays : r.listen = q.listen
    · rw [if_pos stays, stays]
    · rw [if_neg stays]
      by_cases before : r.listen = .music m
      · have after : q.listen ≠ .music m := fun e => stays (before.trans e.symm)
        have some := held before
        simp only [before, after, if_true, if_false, beq_self_eq_true, beq_eq_false_iff_ne.mpr after, Bool.false_eq_true]
        omega
      · by_cases after : q.listen = .music m
        · simp [before, after]
        · simp [before, after]
  · obtain rfl := Option.some.inj (call'.symm.trans here)
    rw [State.listed, waitList]
    exact record

end

end Sys2Proof.Machine

/-! What leaves alone all that ties the records together: notices and owed flags, watch conditions, statistics, triggers, ports. -/

namespace Sys2Proof.Machine

/-! ### What the records are tied together by -/

def AgentRec.links (r : AgentRec) : AgentState × Option CallSlot × List Skill := (r.state, r.boundCall, r.skills)

def CallRec.links (r : CallRec) :
    CallState × Option AgentSlot × Option Nat × (Group × Int × Nat) × Listen × Option Nat × Bool × Nat :=
  (r.state, r.boundAgent, r.ring, r.place, r.hearing)

def GroupRec.links (r : GroupRec) : List CallSlot × Nat × Nat × Bool := (r.queue, r.offers, r.staffed, r.swapPending)

/-- Nothing that ties the records together has changed. -/
structure SameLinks (s t : State) : Prop where
  agents : ∀ a, (t.agent a).links = (s.agent a).links
  calls : ∀ c, (t.call c).map CallRec.links = (s.call c).map CallRec.links
  groups : ∀ g, (t.group g).links = (s.group g).links
  counter : t.seqCounter = s.seqCounter
  waitList : t.waitList = s.waitList
  channels : t.channels = s.channels
  sources : t.sources = s.sources
  segments : ∀ k, (t.segment k).inUse = (s.segment k).inUse

namespace SameLinks
variable {s t u : State}

theorem refl (s : State) : SameLinks s s := ⟨fun _ => rfl, fun _ => rfl, fun _ => rfl, rfl, rfl, rfl, rfl, fun _ => rfl⟩

theorem trans (h : SameLinks s t) (k : SameLinks t u) : SameLinks s u :=
  ⟨fun a => (k.agents a).trans (h.agents a), fun c => (k.calls c).trans (h.calls c), fun g => (k.groups g).trans (h.groups g),
    k.counter.trans h.counter, k.waitList.trans h.waitList, k.channels.trans h.channels, k.sources.trans h.sources,
    fun i => (k.segments i).trans (h.segments i)⟩

theorem ite {p : Prop} [Decidable p] (h : SameLinks s t) (k : SameLinks s u) : SameLinks s (if p then t else u) := by
  split
  · exact h
  · exact k

theorem foldl {α : Type} {f : State → α → State} (h : ∀ s x, SameLinks s (f s x)) (l : List α) (s : State) :
    SameLinks s (l.foldl f s) := by
  induction l generalizing s with
  | nil => exact .refl s
  | cons x l ih => exact (h s x).trans (ih _)

/-- Records of groups, of which the links are the same, and whatever no link is read from. -/
theorem of_groups (groups : ∀ g, (t.group g).links = (s.group g).links) (agents : t.agents = s.agents := by rfl)
    (calls : t.calls = s.calls := by rfl) (counter : t.seqCounter = s.seqCounter := by rfl)
    (waitList : t.waitList = s.waitList := by rfl) (channels : t.channels = s.channels := by rfl)
    (sources : t.sources = s.sources := by rfl) (segments : t.segments = s.segments := by rfl) : SameLinks s t :=
  ⟨fun a => congrArg (fun v : Vector AgentRec 512 => (v.get a).links) agents,
    fun c => congrArg (fun v : Vector (Option CallRec) 1024 => (v.get c).map CallRec.links) calls, groups, counter, waitList, channels,
    sources, fun k => congrArg (fun v : Vector SegmentRec 240 => (v.get k).inUse) segments⟩

/-- Records of calls, of which the links are the same. -/
theorem of_calls (calls : ∀ c, (t.call c).map CallRec.links = (s.call c).map CallRec.links) (agents : t.agents = s.agents := by rfl)
    (groups : t.groups = s.groups := by rfl) (counter : t.seqCounter = s.seqCounter := by rfl)
    (waitList : t.waitList = s.waitList := by rfl) (channels : t.channels = s.channels := by rfl)
    (sources : t.sources = s.sources := by rfl) (segments : t.segments = s.segments := by rfl) : SameLinks s t :=
  ⟨fun a => congrArg (fun v : Vector AgentRec 512 => (v.get a).links) agents, calls,
    fun g => congrArg (fun v : Vector GroupRec 64 => (v.get g).links) groups, counter, waitList, channels,
    sources, fun k => congrArg (fun v : Vector SegmentRec 240 => (v.get k).inUse) segments⟩

/-- Records of agents, of which the links are the same. -/
theorem of_agents (agents : ∀ a, (t.agent a).links = (s.agent a).links) (calls : t.calls = s.calls := by rfl)
    (groups : t.groups = s.groups := by rfl) (counter : t.seqCounter = s.seqCounter := by rfl)
    (waitList : t.waitList = s.waitList := by rfl) (channels : t.channels = s.channels := by rfl)
    (sources : t.sources = s.sources := by rfl) (segments : t.segments = s.segments := by rfl) : SameLinks s t :=
  ⟨agents, fun c => congrArg (fun v : Vector (Option CallRec) 1024 => (v.get c).map CallRec.links) calls,
    fun g => congrArg (fun v : Vector GroupRec 64 => (v.get g).links) groups, counter, waitList, channels,
    sources, fun k => congrArg (fun v : Vector SegmentRec 240 => (v.get k).inUse) segments⟩

/-- Nothing of the records. -/
theorem plain (groups : t.groups = s.groups := by rfl) (agents : t.agents = s.agents := by rfl)
    (calls : t.calls = s.calls := by rfl) (counter : t.seqCounter = s.seqCounter := by rfl)
    (waitList : t.waitList = s.waitList := by rfl) (channels : t.channels = s.channels := by rfl)
    (sources : t.sources = s.sources := by rfl) (segments : t.segments = s.segments := by rfl) : SameLinks s t :=
  of_groups (fun g => congrArg (fun v : Vector GroupRec 64 => (v.get g).links) groups) agents calls counter waitList channels sources
    segments

/-! ### Single writes -/

theorem setGroup (s : State) (g : Group) (r : GroupRec) (same : r.links = (s.group g).links) : SameLinks s (s.setGroup g r) :=
  of_groups fun h => by
    rw [State.setGroup_group]
    split
    next here => rw [here, same]
    next => rfl

theorem setAgent (s : State) (a : AgentSlot) (r : AgentRec) (same : r.links = (s.agent a).links) : SameLinks s (s.setAgent a r) :=
  of_agents fun b => by
    rw [State.setAgent_agent]
    split
    next here => rw [here, same]
    next => rfl

theorem modCall (s : State) (c : CallSlot) (f : CallRec → CallRec) (same : ∀ r, (f r).links = r.links) : SameLinks s (s.modCall c f) :=
  of_calls fun d => by
    rw [modCall_call]
    split
    next here =>
      subst here
      rw [Option.map_map]
      exact congrArg (Option.map · (s.call d)) (funext same)
    next => rfl

theorem modPort (s : State) (p : Port) (f : PortRec → PortRec) : SameLinks s (s.modPort p f) := by
  cases p <;> exact plain

theorem pushNotice (s : State) (p : Port) (n : Notice) : SameLinks s (s.pushNotice p n) := modPort s p _
theorem appendOwed (s : State) (p : Port) (o : OwedPair) : SameLinks s (s.appendOwed p o) := modPort s p _
theorem removeOwed (s : State) (p : Port) (o : OwedPair) : SameLinks s (s.removeOwed p o) := modPort s p _
theorem setDevice (s : State) (d : DeviceRec) : SameLinks s (s.setDevice d) := plain

theorem modStats (s : State) (g : Group) (f : Stats → Stats) : SameLinks s (s.modStats g f) := setGroup s g _ rfl
theorem takeSample (s : State) (g : Group) (n : Nat) : SameLinks s (s.takeSample g n) := setGroup s g _ rfl

theorem raiseCallTrigger (s : State) (c : CallSlot) : SameLinks s (s.raiseCallTrigger c) := ite (.refl s) plain
theorem raiseAgentTrigger (s : State) (a : AgentSlot) : SameLinks s (s.raiseAgentTrigger a) := ite (.refl s) plain
theorem raiseSweep (s : State) : SameLinks s s.raiseSweep := plain

theorem sweepIfOpened (s before : State) : SameLinks s (s.sweepIfOpened before) := ite (raiseSweep s) (.refl s)

/-! ### Notices and watch conditions -/

theorem handWatch (s : State) : SameLinks s s.handWatch := by
  rw [(handWatch_rest s).1]
  exact plain

theorem handAgentState (s : State) (a : AgentSlot) : SameLinks s (s.handAgentState a) := by
  refine ite (pushNotice s _ _) (ite (.refl s) ((setAgent s a _ ?_).trans (appendOwed _ _ _)))
  rfl

theorem handCall (s : State) (c : CallSlot) (k : CallNotice) : SameLinks s (s.handCall c k) := by
  unfold State.handCall
  split
  · exact .refl s
  · refine ite ?_ (ite (.refl s) ((modCall s c _ fun r => ?_).trans (appendOwed _ _ _)))
    · split
      · exact .refl s
      · exact pushNotice s _ _
    · cases k <;> rfl

theorem evalCondition (s : State) (g : Group) (k : GroupKind) (v : Bool) : SameLinks s (s.evalCondition g k v) := by
  have group (h : Group) : ((s.evalCondition g k v).group h).links = (s.group h).links := by
    rw [evalCondition_group]
    split
    next here => rw [here]; rfl
    next => rfl
  obtain ⟨_, _, _, rest⟩ := evalCondition_rest s g k v
  rw [rest] at group ⊢
  exact of_groups group

theorem evalDepth (s : State) (g : Group) : SameLinks s (s.evalDepth g) := evalCondition s g _ _
theorem evalWait (s : State) (g : Group) : SameLinks s (s.evalWait g) := evalCondition s g _ _
theorem evalNoStaff (s : State) (g : Group) : SameLinks s (s.evalNoStaff g) := evalCondition s g _ _
theorem evalQueue (s : State) (g : Group) : SameLinks s (s.evalQueue g) :=
  ((evalDepth s g).trans (evalWait _ g)).trans (evalNoStaff _ g)

theorem evalStarved (s : State) : SameLinks s s.evalStarved := by
  obtain ⟨_, _, rest⟩ := evalStarved_rest s
  rw [rest]
  exact plain

theorem raisePurgeDone (s : State) : SameLinks s s.raisePurgeDone := ite (.refl s) ((setDevice s _).trans (handWatch _))

theorem watchIf (b : Bool) (s : State) : SameLinks s (State.watchIf b s) := ite (handWatch s) (.refl s)

/-! ### What the links are read for -/

section
variable (h : SameLinks s t)
include h

theorem agent (a : AgentSlot) : (t.agent a).state = (s.agent a).state ∧ (t.agent a).boundCall = (s.agent a).boundCall
    ∧ (t.agent a).skills = (s.agent a).skills := by
  simpa only [AgentRec.links, Prod.mk.injEq] using h.agents a

theorem group (g : Group) : (t.group g).queue = (s.group g).queue ∧ (t.group g).offers = (s.group g).offers
    ∧ (t.group g).staffed = (s.group g).staffed ∧ (t.group g).swapPending = (s.group g).swapPending := by
  simpa only [GroupRec.links, Prod.mk.injEq] using h.groups g

theorem call_part {α : Type} (f : CallState × Option AgentSlot × Option Nat × (Group × Int × Nat) × Listen × Option Nat × Bool × Nat → α)
    (c : CallSlot) : (t.call c).map (fun r => f r.links) = (s.call c).map fun r => f r.links := by
  have same := congrArg (Option.map f) (h.calls c)
  rw [Option.map_map, Option.map_map] at same
  exact same

theorem ties (oc : Option CallSlot) : SameTies oc s t where
  agents := h.agent
  calls c _ := h.call_part (fun l => (l.1, l.2.1, l.2.2.1, fun g => l.2.2.2.1.1 == g && l.1 == .offered)) c
  groups g := by
    obtain ⟨-, offers, staffed, -⟩ := h.group g
    exact ⟨offers, staffed⟩

theorem queues : SameQueues s t where
  queue g := (h.group g).1
  calls c := h.call_part (fun l => l.2.2.2.1) c
  counter := h.counter

theorem serves (j : ChannelNo) : t.serves j = s.serves j :=
  congrArg (Option.map Announcement.call) (congrArg (Vector.get · j) h.channels :)

theorem source (m : SourceNo) : t.source m = s.source m := congrArg (Vector.get · m) h.sources

theorem hearing : SameHearing s t where
  calls c := h.call_part (fun l => l.2.2.2.2) c
  waitList := h.waitList
  serves := h.serves
  listeners m := congrArg SourceRec.listeners (h.source m)

theorem runs (legal : RunsLegal s) : RunsLegal t := by
  rw [RunsLegal, runOf_congr h.sources h.channels]
  exact legal.congr h.segments

theorem waits (c : CallSlot) : t.waits c ↔ s.waits c := by
  have states := h.call_part (fun l => l.1) c
  have one {s t : State} (same : (t.call c).map (fun r => r.links.1) = (s.call c).map fun r => r.links.1) (w : t.waits c) : s.waits c := by
    obtain ⟨r, call, waits⟩ := w
    rw [call, Option.map_some, eq_comm, Option.map_eq_some_iff] at same
    obtain ⟨q, here, state⟩ := same
    have state : q.state = r.state := state
    exact ⟨q, here, by rw [CallRec.waits, state]; exact waits⟩
  exact ⟨one states, one states.symm⟩

end
end SameLinks

end Sys2Proof.Machine

/-! The stage (R143, R150, R160, R167 to R173): what callers hear, who waits for an announcement and what the channels play stay in
agreement through every operation of the Playout Engine. -/

namespace Sys2Proof.Machine

/-- Callers, wait list, channels, sources and segments agree. -/
structure StageFor (V : CallSlot → Prop) (s : State) : Prop where
  hear : HearFor V s
  runs : RunsLegal s

theorem RunsMove.hearing {s t : State} (h : RunsMove s t) : SameHearing s t :=
  ⟨fun c => congrArg (fun v : Vector (Option CallRec) 1024 => (v.get c).map CallRec.hearing) h.calls, h.waitList, h.served, h.listeners⟩

theorem StageFor.links {V : CallSlot → Prop} {s t : State} (h : StageFor V s) (same : SameLinks s t) : StageFor V t :=
  ⟨h.hear.congr same.hearing, same.runs h.runs⟩

theorem StageFor.congr_set {V V' : CallSlot → Prop} {s : State} (h : StageFor V s)
    (same : ∀ d r, s.call d = some r → (V' d ↔ V d)) : StageFor V' s := ⟨h.hear.congr_set same, h.runs⟩

/-! ### What a call listens to (R159, R160) -/

/-- The run of no channel changes with what a call listens to, but for a source that starts. -/
theorem hear_runs {s : State} (legal : RunsLegal s) (c : CallSlot) (l : Listen) : RunsLegal (s.hear c l) := by
  have runs : (s.hear c l).runOf = s.runOf := by
    funext k
    cases p : playerOf k with
    | channel j =>
      rw [runOf_channel p, runOf_channel p, hear_rest]
      rfl
    | source m =>
      rw [runOf_source p, runOf_source p]
      cases call : s.call c with
      | none => rw [State.hear, call]
      | some r =>
        rw [hear_source call, SourceRec.retuned]
        split <;> rfl
  rw [RunsLegal, runs]
  exact legal.congr fun k => by rw [hear_rest]; rfl

/-- Call `c`, of record `r`, listens to `l`. -/
structure ListensTo (s t : State) (c : CallSlot) (r : CallRec) (l : Listen) : Prop where
  call : t.call c = some { r with listen := l }
  others : ∀ d, d ≠ c → t.call d = s.call d
  listeners : ∀ m, (t.source m).listeners = listenersAfter r l m (s.source m).listeners
  waitList : t.waitList = s.waitList
  serves : ∀ j, t.serves j = s.serves j

theorem hear_listens {s : State} {c : CallSlot} {r : CallRec} (call : s.call c = some r) (l : Listen) :
    ListensTo s (s.hear c l) c r l where
  call := by rw [hear_call, if_pos rfl, call]; rfl
  others d ne := by rw [hear_call, if_neg ne]
  listeners m := by rw [hear_listeners, call]
  waitList := by rw [hear_rest]
  serves j := by rw [hear_rest]; rfl

theorem setListen_listens {s : State} {c : CallSlot} {r : CallRec} (legal : RunsLegal s) (call : s.call c = some r) (l : Listen) :
    RunsLegal (s.setListen c l) ∧ ListensTo s (s.setListen c l) c r l := by
  have heard := hear_listens call l
  have legal := hear_runs legal c l
  rw [setListen_eq, call]
  split
  next q m _ here =>
    obtain rfl := Option.some.inj here
    split
    · exact ⟨legal, heard⟩
    · obtain ⟨legal, move⟩ := startSource_runs legal _
      refine ⟨legal, ⟨?_, fun d ne => ?_, fun k => (move.listeners k).trans (heard.listeners k), move.waitList.trans heard.waitList,
        fun j => (move.served j).trans (heard.serves j)⟩⟩
      · exact (congrArg (Vector.get · c) move.calls :).trans heard.call
      · exact (congrArg (Vector.get · d) move.calls :).trans (heard.others d ne)
  next => exact ⟨legal, heard⟩

theorem CallRec.Hears.tune {r : CallRec} {v listed : Prop} {served : ChannelNo → Prop} (h : r.Hears v listed served) (hv : v)
    (off : ∀ j, r.listen ≠ .announce j) {l : Listen} (on : ∀ j, l ≠ .announce j) : ({ r with listen := l } : CallRec).Hears v listed served where
  flag := h.flag
  waits there := ⟨hv, (h.waits there).2.1, on⟩
  channel j := ⟨fun e => absurd e (on j), fun served => absurd ((h.channel j).mpr served) (off j)⟩
  due j e := absurd e (on j)
  away gone := absurd hv gone

section
variable {V : CallSlot → Prop} {s : State} {c : CallSlot} {r : CallRec}

theorem StageFor.listen (h : StageFor V s) (call : s.call c = some r) (hv : V c) (off : ∀ j, r.listen ≠ .announce j) {l : Listen}
    (on : ∀ j, l ≠ .announce j) : StageFor V (s.setListen c l) := by
  obtain ⟨runs, set⟩ := setListen_listens h.runs call l
  refine ⟨h.hear.write call set.call (fun d ne => by rw [set.others d ne]) set.listeners set.waitList (fun j d _ => by rw [set.serves])
    rfl ?_, runs⟩
  refine ((h.hear.records c r call).tune hv off on).congr rfl .rfl .rfl fun j => ?_
  rw [set.serves]

theorem musicOf_ne_announce (s : State) (g : Group) (j : ChannelNo) : s.musicOf g ≠ .announce j := by
  unfold State.musicOf
  split <;> nofun

theorem StageFor.moveMusic (h : StageFor V s) (hv : V c) (g : Group) : StageFor V (s.moveMusic g c) := by
  unfold State.moveMusic
  split
  · exact h
  next r call =>
    split
    · exact h
    next off =>
      have tuned := h.listen (c := c) call hv off (musicOf_ne_announce s g)
      dsimp only
      split
      · exact tuned
      · exact tuned.links (.handCall _ c _)

/-! ### The wait list (R168) -/

theorem leaveWaitList_sources (s : State) (c : CallSlot) : (s.leaveWaitList c).sources = s.sources
    ∧ (s.leaveWaitList c).channels = s.channels ∧ (s.leaveWaitList c).segments = s.segments := by
  obtain ⟨_, _, _, _, rest⟩ := leaveWaitList_rest s c
  rw [rest]
  exact ⟨rfl, rfl, rfl⟩

theorem leaveWaitList_unlisted (s : State) (c : CallSlot) : ¬(s.leaveWaitList c).listed c := by
  rintro ⟨e, he, rfl⟩
  rw [leaveWaitList_waitList, List.mem_filter] at he
  simpa using he.2

theorem leaveWaitList_runs (legal : RunsLegal s) (c : CallSlot) : RunsLegal (s.leaveWaitList c) := by
  obtain ⟨sources, channels, segments⟩ := leaveWaitList_sources s c
  rw [RunsLegal, runOf_congr sources channels]
  exact legal.congr fun k => congrArg (fun v : Vector SegmentRec 240 => (v.get k).inUse) segments

theorem any_listed (s : State) (c : CallSlot) : s.waitList.any (·.call == c) = true ↔ s.listed c := by
  rw [List.any_eq_true]
  exact exists_congr fun e => and_congr_right fun _ => beq_iff_eq

/-- The record of a call that has left the wait list. -/
theorem leaveWaitList_record (call : s.call c = some r) :
    (s.leaveWaitList c).call c = some { r with onWaitList := if s.waitList.any (·.call == c) = true then false else r.onWaitList } := by
  rw [leaveWaitList_call]
  by_cases waits : s.waitList.any (·.call == c) = true
  · simp [waits, call]
  · simp [waits, call]

theorem StageFor.leaveWaitList (h : StageFor V s) (c : CallSlot) : StageFor V (s.leaveWaitList c) := by
  refine ⟨?_, leaveWaitList_runs h.runs c⟩
  obtain ⟨sources, channels, -⟩ := leaveWaitList_sources s c
  have serves (j : ChannelNo) : (s.leaveWaitList c).serves j = s.serves j :=
    congrArg (fun v : Vector (Option Announcement) 16 => (v.get j).map Announcement.call) channels
  have source (m : SourceNo) : (s.leaveWaitList c).source m = s.source m := congrArg (Vector.get · m) sources
  have list := leaveWaitList_waitList s c
  have gone := leaveWaitList_unlisted s c
  cases call : s.call c with
  | none =>
    have same : s.leaveWaitList c = s := if_neg fun any => h.hear.unlisted call ((any_listed s c).mp any)
    rw [same]
    exact h.hear
  | some r =>
    have now := leaveWaitList_record call
    have hears := h.hear.records c r call
    refine h.hear.update c (fun d ne => ?_) (fun m => ?_) (by rw [list]; exact List.filter_sublist) (fun e he ne => ?_)
      (fun j d _ => by rw [serves]) (fun _ _ => .rfl) (fun q here => ?_) (fun listed => absurd listed gone) fun _ => by rw [now]; nofun
    · rw [leaveWaitList_call, if_neg fun both => ne both.1]
    · rw [source, now, call]
      rfl
    · rw [list]
      exact List.mem_filter.mpr ⟨he, bne_iff_ne.mpr ne⟩
    · obtain rfl := Option.some.inj (now.symm.trans here)
      refine ⟨⟨fun flag => ?_, fun listed => absurd listed gone⟩, fun listed => absurd listed gone, fun j => ?_, hears.due, hears.away⟩
      · by_cases waits : s.waitList.any (·.call == c) = true
        · simp [waits] at flag
        · simp only [waits] at flag
          exact absurd ((any_listed s c).mpr (hears.flag.mp flag)) waits
      · rw [serves]
        exact hears.channel j

theorem dueAhead_trans {t : State} {e f g : WaitEntry} (first : t.dueAhead e f) (second : t.dueAhead f g) {q : CallRec}
    (between : t.call f.call = some q) : t.dueAhead e g := by
  rcases first with first | ⟨same, before⟩ <;> rcases second with second | ⟨same', before'⟩
  · exact .inl (by omega)
  · exact .inl (by omega)
  · exact .inl (by omega)
  · exact .inr ⟨by omega, fun r k hr hk => (before r q hr between).trans (before' q k between hk)⟩

/-- An entry put behind those of `a` and ahead of the first of `b`. -/
theorem dueAhead_insert {t : State} {a b : List WaitEntry} {new : WaitEntry} (order : (a ++ b).Pairwise t.dueAhead)
    (behind : ∀ e ∈ a, t.dueAhead e new) (ahead : ∀ e ∈ b.head?, t.dueAhead new e) (records : ∀ e ∈ b, t.call e.call ≠ none) :
    (a ++ new :: b).Pairwise t.dueAhead := by
  obtain ⟨first, second, across⟩ := List.pairwise_append.mp order
  have after (e : WaitEntry) (he : e ∈ b) : t.dueAhead new e := by
    cases b with
    | nil => cases he
    | cons f b =>
      rcases List.mem_cons.mp he with rfl | tail
      · exact ahead e rfl
      · obtain ⟨q, between⟩ := Option.ne_none_iff_exists'.mp (records f List.mem_cons_self)
        exact dueAhead_trans (ahead f rfl) ((List.pairwise_cons.mp second).1 e tail) between
  refine List.pairwise_append.mpr ⟨first, List.pairwise_cons.mpr ⟨after, second⟩, fun e he f hf => ?_⟩
  rcases List.mem_cons.mp hf with rfl | tail
  · exact behind e he
  · exact across e he f tail

/-- A call that may wait, hears no announcement and is due none joins the wait list. -/
theorem StageFor.joinWaitList (h : StageFor V s) (call : s.call c = some r) (hv : V c) (due : r.nextDue = none)
    (off : ∀ j, r.listen ≠ .announce j) (apart : ∀ d q, s.call d = some q → q.seq = r.seq → d = c) (second : Nat) :
    StageFor V (s.joinWaitList c second) := by
  by_cases listed : s.listed c
  · rw [joinWaitList_listed listed]
    exact h
  rw [joinWaitList_new listed]
  refine StageFor.links ?_ (.evalStarved _)
  obtain ⟨a, b, split, joined, behind, ahead⟩ := insertWait_split s ⟨c, second⟩ s.waitList
  have calls (d : CallSlot) : ((s.modCall c fun r => { r with onWaitList := true }).setWaitList (s.insertWait ⟨c, second⟩ s.waitList)).call d
      = if d = c then some { r with onWaitList := true } else s.call d := by
    refine (modCall_call s c d _).trans ?_
    rw [call]
    rfl
  have seqs (d : CallSlot) : (((s.modCall c fun r => { r with onWaitList := true }).setWaitList
      (s.insertWait ⟨c, second⟩ s.waitList)).call d).map CallRec.seq = (s.call d).map CallRec.seq := by
    rw [calls]
    split
    next here => rw [here, call]; rfl
    next => rfl
  generalize named : (s.modCall c fun r => { r with onWaitList := true }).setWaitList (s.insertWait ⟨c, second⟩ s.waitList) = t at calls seqs
  have list : t.waitList = a ++ ⟨c, second⟩ :: b := by rw [← joined, ← named]; rfl
  have sources : t.sources = s.sources := by rw [← named]; rfl
  have channels : t.channels = s.channels := by rw [← named]; rfl
  have segments : t.segments = s.segments := by rw [← named]; rfl
  have source (m : SourceNo) : t.source m = s.source m := congrArg (Vector.get · m) sources
  have serves (j : ChannelNo) : t.serves j = s.serves j :=
    congrArg (fun v : Vector (Option Announcement) 16 => (v.get j).map Announcement.call) channels
  have members (d : CallSlot) : t.listed d ↔ d = c ∨ s.listed d := by
    rw [State.listed, State.listed, list, split]
    constructor
    · rintro ⟨e, he, rfl⟩
      rcases List.mem_append.mp he with left | right
      · exact .inr ⟨e, List.mem_append_left _ left, rfl⟩
      · rcases List.mem_cons.mp right with rfl | right
        · exact .inl rfl
        · exact .inr ⟨e, List.mem_append_right _ right, rfl⟩
    · rintro (rfl | ⟨e, he, rfl⟩)
      · exact ⟨_, List.mem_append_right _ List.mem_cons_self, rfl⟩
      · refine ⟨e, ?_, rfl⟩
        rcases List.mem_append.mp he with left | right
        · exact List.mem_append_left _ left
        · exact List.mem_append_right _ (List.mem_cons_of_mem _ right)
  have hears := h.hear.records c r call
  refine ⟨⟨fun m => ?_, fun d q here => ?_, fun d there => ?_, ?_, ?_, fun j d there => ?_⟩, ?_⟩
  · rw [source, h.hear.listeners]
    refine countOf_congr fun d => ?_
    rw [calls]
    split
    next here => rw [here, call]; rfl
    next => rfl
  · rw [calls] at here
    split at here
    next same =>
      subst same
      obtain rfl := Option.some.inj here
      refine ⟨⟨fun _ => (members d).mpr (.inl rfl), fun _ => rfl⟩, fun _ => ⟨hv, due, off⟩, fun j => ?_, fun j e => absurd e (off j),
        fun gone => absurd hv gone⟩
      rw [serves]
      exact hears.channel j
    next ne =>
      refine (h.hear.records d q here).congr rfl .rfl ((members d).trans (or_iff_right ne)) fun j => ?_
      rw [serves]
  · rw [calls]
    split
    next => nofun
    next ne => exact h.hear.entries d (((members d).trans (or_iff_right ne)).mp there)
  · have once := h.hear.once
    rw [list]
    rw [split] at once
    rw [List.map_append, List.map_cons, List.nodup_middle, ← List.map_append, ← split]
    refine List.nodup_cons.mpr ⟨fun member => listed ?_, split ▸ once⟩
    obtain ⟨e, he, same⟩ := List.mem_map.mp member
    exact ⟨e, he, same⟩
  · have order : s.waitList.Pairwise t.dueAhead := h.hear.order.imp fun before => dueAhead_congr (seqs _) (seqs _) before
    have record (e : WaitEntry) (he : e ∈ s.waitList) : ∃ q, s.call e.call = some q ∧ t.call e.call = some q := by
      obtain ⟨q, here⟩ := Option.ne_none_iff_exists'.mp (h.hear.entries e.call ⟨e, he, rfl⟩)
      exact ⟨q, here, (calls e.call).trans ((if_neg fun e' => listed ⟨e, he, e'⟩).trans here)⟩
    have now := (calls c).trans (if_pos rfl)
    rw [list]
    refine dueAhead_insert (split ▸ order) (fun e he => ?_) (fun e he => ?_) fun e he => ?_
    · have member : e ∈ s.waitList := split ▸ List.mem_append_left _ he
      obtain ⟨q, here, there⟩ := record e member
      have late := behind e he
      rw [Bool.eq_false_iff, ne_eq, waitsBefore_iff call here] at late
      have other : q.seq ≠ r.seq := fun same => listed ⟨e, member, apart e.call q here same⟩
      by_cases first : e.due < second
      · exact .inl first
      · refine .inr ⟨by dsimp only at late ⊢; omega, fun k k' hk hk' => ?_⟩
        obtain rfl := Option.some.inj (there.symm.trans hk)
        obtain rfl := Option.some.inj (now.symm.trans hk')
        dsimp only at late ⊢
        omega
    · have member : e ∈ s.waitList := split ▸ List.mem_append_right _ (List.mem_of_mem_head? he)
      obtain ⟨q, here, there⟩ := record e member
      refine ((waitsBefore_iff call here).mp (ahead e he)).imp_right fun ⟨same, before⟩ => ⟨same, fun k k' hk hk' => ?_⟩
      obtain rfl := Option.some.inj (now.symm.trans hk)
      obtain rfl := Option.some.inj (there.symm.trans hk')
      exact before
    · obtain ⟨q, -, there⟩ := record e (split ▸ List.mem_append_right _ he)
      rw [there]
      nofun
  · rw [calls]
    split
    next => nofun
    next => exact h.hear.served j d ((serves j).symm.trans there)
  · rw [RunsLegal, runOf_congr sources channels]
    exact h.runs.congr fun k => congrArg (fun v : Vector SegmentRec 240 => (v.get k).inUse) segments

end

end Sys2Proof.Machine

/-! The stage through the announcement channels, the arbiter and the runs (R150 to R156, R167 to R173). -/

namespace Sys2Proof.Machine

/-! ### Channels that carry their runs on (R150, R171) -/

section
variable {ρ : HighwayChannel → Option Run} {h : HighwayChannel} {s : State}

/-- The run of a channel is another that plays no segment. -/
theorem RunsFor.fresh {o : Option Run} (legal : RunsFor (Function.update ρ h o) s) (before : ∀ r, o = some r → r.segment = none)
    (p : Option Run) (after : ∀ r, p = some r → r.segment = none) : RunsFor (Function.update ρ h p) s := by
  have put := legal.replace (h := h) (fun r here => before r (by rwa [Function.update_self] at here)) p after
  rwa [Function.update_idem] at put

theorem carryChannel_runs (n : Nat) (c : CallSlot) {r : Run} (legal : RunsFor (Function.update ρ h (some r)) s) (fresh : r.Fresh) :
    RunsFor (Function.update ρ h (State.carryChannel n c r s).1) (State.carryChannel n c r s).2 := by
  have silent {r q : Run} (fresh : r.Fresh) (here : some r = some q) : q.segment = none := Option.some.inj here ▸ fresh.segment
  induction n generalizing r s with
  | zero => exact legal
  | succ n ih =>
    have carried := carryStep_runs (some c) legal fresh
    unfold State.carryChannel
    split
    next e =>
      rw [e] at carried
      exact carried.1
    next r1 s1 e =>
      rw [e] at carried
      obtain ⟨legal, -, next⟩ := carried
      have next := next nofun
      refine ih (r := { r1 with step := r1.step + 1 }) (legal.fresh (fun q => silent next) _ fun q here => ?_) ⟨next.segment, next.fill⟩
      obtain rfl := Option.some.inj here
      exact next.segment
    next e =>
      rw [e] at carried
      obtain ⟨legal, -, next⟩ := carried
      exact legal.fresh (fun q => silent (next nofun)) none nofun
    next r1 s1 e =>
      rw [e] at carried
      obtain ⟨legal, -, next⟩ := carried
      have next := next nofun
      split
      · have jumped := takeReturn_fresh s1 .jump next.segment
        exact ih (legal.fresh (fun q => silent next) _ fun q => silent jumped) jumped
      · refine legal.fresh (fun q => silent next) _ fun q here => ?_
        obtain rfl := Option.some.inj here
        exact next.segment

end

section
variable {V : CallSlot → Prop} {s : State} {c : CallSlot} {r : CallRec} {j : ChannelNo}

theorem setChannel_serves (s : State) (j : ChannelNo) (b : Option Announcement) (i : ChannelNo) :
    (s.setChannel j b).serves i = if i = j then b.map Announcement.call else s.serves i := by
  by_cases same : i = j
  · subst same
    rw [if_pos rfl, State.serves, State.setChannel_channel_self]
  · rw [if_neg same, State.serves, State.setChannel_channel_of_ne _ _ same, State.serves]

/-- What a call that hears no announcement is due is written. -/
theorem StageFor.due (h : StageFor V s) (d : Option Nat)
    (may : ∀ r, s.call c = some r → (∀ j, r.listen ≠ .announce j) ∧ (d = none ∨ V c ∧ ¬s.listed c)) :
    StageFor V (s.modCall c fun r => { r with nextDue := d }) := by
  refine ⟨?_, h.runs.congr fun _ => rfl⟩
  cases call : s.call c with
  | none =>
    have same : (s.modCall c fun r => { r with nextDue := d }) = s := by rw [State.modCall, call]; exact putCall_none s call
    rw [same]
    exact h.hear
  | some r =>
    obtain ⟨off, either⟩ := may r call
    have hears := h.hear.records c r call
    refine h.hear.write (q := { r with nextDue := d }) call (by rw [modCall_call, if_pos rfl, call]; rfl)
      (fun e ne => by rw [modCall_call, if_neg ne]) (fun m => ?_) rfl (fun _ _ _ => .rfl) rfl ⟨hears.flag, fun listed => ?_,
        hears.channel, fun j e => absurd e (off j), fun gone => ?_⟩
    · rw [listenersAfter, if_pos rfl]
      rfl
    · obtain ⟨on, -, -⟩ := hears.waits listed
      rcases either with rfl | ⟨-, unlisted⟩
      · exact ⟨on, rfl, off⟩
      · exact absurd listed unlisted
    · obtain ⟨silent, -⟩ := hears.away gone
      rcases either with rfl | ⟨on, -⟩
      · exact ⟨silent, rfl⟩
      · exact absurd on gone

/-- The call that a channel serves. -/
theorem HearFor.onChannel (h : HearFor V s) (busy : s.serves j = some c) :
    ∃ r, s.call c = some r ∧ r.listen = .announce j ∧ r.nextDue = none ∧ V c ∧ ¬s.listed c := by
  obtain ⟨r, call⟩ := Option.ne_none_iff_exists'.mp (h.served j c busy)
  have hears := h.records c r call
  have listens := (hears.channel j).mpr busy
  refine ⟨r, call, listens, hears.due j listens, ?_, fun listed => (hears.waits listed).2.2 j listens⟩
  by_contra gone
  rw [(hears.away gone).1] at listens
  cases listens

/-- The announcement of a channel whose run is over ends. -/
theorem HearFor.announcementEnds (h : HearFor V s) (busy : s.serves j = some c)
    (runs : RunsFor (Function.update s.runOf (highwayOfChannel j) none) s) : StageFor V (s.endAnnouncement j c) := by
  obtain ⟨r, call, listens, due, on, unlisted⟩ := h.onChannel busy
  have freed : RunsLegal (s.setChannel j none) := by
    rw [RunsLegal, setChannel_runOf]
    exact runs.congr fun _ => rfl
  have here : (s.setChannel j none).call c = some r := call
  unfold State.endAnnouncement
  dsimp only
  rw [here]
  dsimp only
  generalize music : (s.setChannel j none).musicOf r.group = l
  have silent (i : ChannelNo) : l ≠ .announce i := music ▸ musicOf_ne_announce _ _ i
  obtain ⟨legal, set⟩ := setListen_listens freed here l
  generalize (s.setChannel j none).setListen c l = u at legal set
  have hears := h.records c r call
  have free (i : ChannelNo) : u.serves i ≠ some c := fun served => by
    rw [set.serves, setChannel_serves] at served
    split at served
    next => cases served
    next ne => exact ne (Listen.announce.inj (listens.symm.trans ((hears.channel i).mpr served))).symm
  have tuned : StageFor V u := by
    refine ⟨h.write call set.call (fun d ne => by rw [set.others d ne]; rfl) set.listeners set.waitList (fun i d ne => ?_) rfl ?_, legal⟩
    · rw [set.serves, setChannel_serves]
      split
      next same =>
        subst same
        rw [busy]
        exact ⟨nofun, fun e => absurd (Option.some.inj e).symm ne⟩
      next => exact .rfl
    · exact ⟨hears.flag, fun listed => absurd listed unlisted, fun i => ⟨fun e => absurd e (silent i), fun served => absurd served (free i)⟩,
        fun i e => absurd e (silent i), fun gone => absurd on gone⟩
  have told := SameLinks.handCall u c .listen
  refine (tuned.links told).due _ fun q now => ⟨fun i e => ?_, .inr ⟨on, ?_⟩⟩
  · obtain ⟨q', before, same⟩ := hearing_of_map (told.hearing.calls c) now
    obtain rfl := Option.some.inj (set.call.symm.trans before)
    exact silent i ((congrArg Prod.fst same :).symm.trans e)
  · rw [State.listed, told.waitList, set.waitList]
    exact unlisted

/-- A channel that is BUSY for a call goes on with a fresh run. -/
theorem HearFor.runChannel (h : HearFor V s) (busy : s.serves j = some c) {q : Run} (fresh : q.Fresh)
    (runs : RunsFor (Function.update s.runOf (highwayOfChannel j) (some q)) s) : StageFor V (s.runChannel j c q) := by
  have carried := carryChannel_runs State.carryFuel c runs fresh
  obtain ⟨_, _, _, rest⟩ := carryChannel_rest State.carryFuel c q s
  unfold State.runChannel
  generalize State.carryChannel State.carryFuel c q s = x at carried rest
  have same : SameHearing s x.2 := by
    rw [rest]
    exact ⟨fun _ => rfl, rfl, fun _ => rfl, fun _ => rfl⟩
  have runOf : x.2.runOf = s.runOf := by
    rw [rest]
    exact runOf_congr rfl rfl
  have busy := (same.serves j).trans busy
  obtain ⟨o, u⟩ := x
  dsimp only at carried same runOf busy
  cases o with
  | some q' =>
    refine ⟨(h.congr same).congr ⟨fun _ => rfl, rfl, fun i => ?_, fun _ => rfl⟩, ?_⟩
    · refine (setChannel_serves ..).trans ?_
      split
      next here => rw [here, busy]; rfl
      next => rfl
    · show RunsLegal (u.setChannel j (some ⟨c, q'⟩))
      rw [RunsLegal, setChannel_runOf, runOf]
      exact carried.congr fun _ => rfl
  | none => exact (h.congr same).announcementEnds busy (by rw [runOf]; exact carried)

/-! ### The arbiter (R170) -/

/-- A FREE channel is granted to a call that may hear it. -/
theorem StageFor.grant (h : StageFor V s) (free : s.channel j = none) (call : s.call c = some r) (on : V c) (unlisted : ¬s.listed c)
    (off : ∀ i, r.listen ≠ .announce i) (due : r.nextDue = none) (p : ProgramNo) : StageFor V (s.grant j c p) := by
  have idle : s.runOf (highwayOfChannel j) = none := by
    rw [runOf_channel (playerOf_highwayOfChannel j), free]
    rfl
  have begun : RunsLegal (s.putChannelRun j c (Run.begin p)) := by
    rw [RunsLegal, State.putChannelRun, setChannel_runOf]
    refine (h.runs.replace (fun q here => ?_) (some (Run.begin p)) fun q here => ?_).congr fun _ => rfl
    · rw [idle] at here
      cases here
    · obtain rfl := Option.some.inj here
      rfl
  have here : (s.putChannelRun j c (Run.begin p)).call c = some r := call
  have serves (i : ChannelNo) : (s.putChannelRun j c (Run.begin p)).serves i = if i = j then some c else s.serves i :=
    setChannel_serves ..
  have served (i : ChannelNo) : s.serves i ≠ some c := fun e => off i (((h.hear.records c r call).channel i).mpr e)
  have mine : (s.putChannelRun j c (Run.begin p)).runOf (highwayOfChannel j) = some (Run.begin p) := by
    rw [runOf_channel (playerOf_highwayOfChannel j), State.putChannelRun, State.setChannel_channel_self]
    rfl
  unfold State.grant
  dsimp only
  obtain ⟨legal, set⟩ := setListen_listens begun here (.announce j)
  have kept : ((s.putChannelRun j c (Run.begin p)).setListen c (.announce j)).channel j = some ⟨c, Run.begin p⟩ := by
    obtain ⟨_, _, _, _, _, rest⟩ := setListen_rest (s.putChannelRun j c (Run.begin p)) c (.announce j)
    rw [rest]
    exact State.setChannel_channel_self ..
  have heard : HearFor V ((s.putChannelRun j c (Run.begin p)).setListen c (.announce j)) := by
    refine h.hear.write call set.call (fun d ne => by rw [set.others d ne]; rfl) set.listeners set.waitList (fun i d ne => ?_) rfl
      ⟨(h.hear.records c r call).flag, fun listed => absurd listed unlisted, fun i => ?_, fun _ _ => due, fun gone => absurd on gone⟩
    · rw [set.serves, serves]
      split
      next same =>
        have none : s.serves i = none := by rw [same, State.serves, free]; rfl
        rw [none]
        exact ⟨fun e => absurd (Option.some.inj e).symm ne, nofun⟩
      next => exact .rfl
    · rw [set.serves, serves]
      split
      next same => exact ⟨fun _ => rfl, fun _ => by rw [same]⟩
      next ne => exact ⟨fun e => absurd (Listen.announce.inj e).symm ne, fun e => absurd e (served i)⟩
  generalize (s.putChannelRun j c (Run.begin p)).setListen c (.announce j) = u at legal kept heard
  have told := SameLinks.handCall u c .listen
  have channel : (u.handCall c .listen).channel j = some ⟨c, Run.begin p⟩ := (congrArg (Vector.get · j) told.channels :).trans kept
  refine (heard.congr told.hearing).runChannel ?_ (q := Run.begin p) ⟨rfl, rfl⟩ ?_
  · rw [State.serves, channel]
    rfl
  · have runs : (u.handCall c .listen).runOf (highwayOfChannel j) = some (Run.begin p) := by
      rw [runOf_channel (playerOf_highwayOfChannel j), channel]
      rfl
    rw [← runs, Function.update_eq_self]
    exact told.runs legal

theorem StageFor.arbitrateUpTo (h : StageFor V s) (n : Nat) : StageFor V (State.arbitrateUpTo n s) := by
  induction n generalizing s with
  | zero => exact h
  | succ n ih =>
    unfold State.arbitrateUpTo
    split
    next e l j list found =>
      have left := h.leaveWaitList e.call
      have listed : s.listed e.call := ⟨e, by rw [list]; exact List.mem_cons_self, rfl⟩
      obtain ⟨r, call⟩ := Option.ne_none_iff_exists'.mp (h.hear.entries e.call listed)
      obtain ⟨on, due, off⟩ := (h.hear.records e.call r call).waits listed
      have now := leaveWaitList_record call
      dsimp only
      rw [now]
      dsimp only
      split
      · exact ih left
      · have free : (s.leaveWaitList e.call).channel j = none :=
          (congrArg (Vector.get · j) (leaveWaitList_sources s e.call).2.1 :).trans (freeChannel_some found).1
        exact ih (left.grant free now on (leaveWaitList_unlisted s e.call) off due _)
    next => exact h

theorem StageFor.arbitrate (h : StageFor V s) : StageFor V s.arbitrate := h.arbitrateUpTo _

/-- An announcement that has fallen due puts its call on the wait list. -/
theorem StageFor.announce (h : StageFor V s) (on : ∀ r, s.call c = some r → r.waits → V c)
    (apart : ∀ d e r q, s.call d = some r → s.call e = some q → r.seq = q.seq → d = e) : StageFor V (s.announce c) := by
  unfold State.announce
  split
  · exact h
  next r call =>
    split
    · exact h
    next d due =>
      split
      next =>
        have off (i : ChannelNo) : r.listen ≠ .announce i := fun e => by
          rw [(h.hear.records c r call).due i e] at due
          cases due
        have cleared : StageFor V (s.modCall c fun k => { k with nextDue := none }) := h.due none fun q here => by
          obtain rfl := Option.some.inj (call.symm.trans here)
          exact ⟨off, .inl rfl⟩
        have now : (s.modCall c fun k => { k with nextDue := none }).call c = some { r with nextDue := none } := by
          rw [modCall_call, if_pos rfl, call]
          rfl
        have alone (e : CallSlot) (q : CallRec) (there : (s.modCall c fun k => { k with nextDue := none }).call e = some q)
            (same : q.seq = r.seq) : e = c := by
          rw [modCall_call] at there
          split at there
          next here => exact here
          next => exact apart e c q r there call same
        have joins (waits : r.waits) : StageFor V (((s.modCall c fun k => { k with nextDue := none }).joinWaitList c d).arbitrate) :=
          (cleared.joinWaitList now (on r call waits) rfl off alone d).arbitrate
        dsimp only
        split
        next state => exact joins (.inl state)
        next state => exact joins (.inr state)
        · exact cleared
        · exact cleared
      next => exact h

/-! ### A call that leaves the stage (R55, R96, R172) -/

theorem abortChannel_frees (s : State) (j : ChannelNo) : s.abortChannel j = match s.channel j with
    | none => s
    | some b => (s.leaveSegment b.run.segment).setChannel j none := rfl

/-- A call that hears nothing more. -/
theorem CallRec.Hears.silence {v listed : Prop} {served served' : ChannelNo → Prop} (h : r.Hears v listed served)
    (free : ∀ j, ¬served' j) : ({ r with listen := .silent } : CallRec).Hears v listed served' where
  flag := h.flag
  waits there := ⟨(h.waits there).1, (h.waits there).2.1, nofun⟩
  channel j := ⟨nofun, fun served => absurd served (free j)⟩
  due _ e := by cases e
  away gone := ⟨rfl, (h.away gone).2⟩

/-- A call that hears nothing is due nothing more and leaves the wait list. -/
theorem StageFor.leaves (h : StageFor V s) (call : s.call c = some r) (silent : r.listen = .silent) :
    StageFor (fun d => d ≠ c ∧ V d) ((s.modCall c fun r => { r with nextDue := none }).leaveWaitList c) := by
  have off (q : CallRec) (here : s.call c = some q) : (∀ j, q.listen ≠ .announce j) ∧ ((none : Option Nat) = none ∨ V c ∧ ¬s.listed c) := by
    obtain rfl := Option.some.inj (call.symm.trans here)
    exact ⟨fun j e => (by rw [silent] at e; cases e), .inl rfl⟩
  have left := (h.due none off).leaveWaitList c
  have now : (s.modCall c fun r => { r with nextDue := none }).call c = some { r with nextDue := none } := by
    rw [modCall_call, if_pos rfl, call]
    rfl
  refine ⟨left.hear.retire (fun q here => ?_) (leaveWaitList_unlisted _ c), left.runs⟩
  obtain rfl := Option.some.inj ((leaveWaitList_record now).symm.trans here)
  exact ⟨silent, rfl⟩

theorem StageFor.detach (h : StageFor V s) (call : s.call c = some r) : StageFor (fun d => d ≠ c ∧ V d) (s.detach c) := by
  have hears := h.hear.records c r call
  rw [detach_eq s call]
  dsimp only
  split
  next j listens =>
    obtain ⟨b, busy, mine⟩ := serves_iff.mp ((hears.channel j).mp listens)
    have runs : s.runOf (highwayOfChannel j) = some b.run := by
      rw [runOf_channel (playerOf_highwayOfChannel j), busy]
      rfl
    have aborted : s.abortChannel j = (s.leaveSegment b.run.segment).setChannel j none := by rw [abortChannel_frees, busy]
    obtain ⟨_, rest⟩ := leaveSegment_rest s b.run.segment
    have gone := h.runs.left runs none nofun
    have here : (s.abortChannel j).call c = some r := by rw [aborted, rest]; exact call
    have serves (i : ChannelNo) : (s.abortChannel j).serves i = if i = j then none else s.serves i := by
      rw [aborted, setChannel_serves, rest]
      rfl
    have free (i : ChannelNo) : (s.abortChannel j).serves i ≠ some c := fun served => by
      rw [serves] at served
      split at served
      next => cases served
      next ne => exact ne (Listen.announce.inj (listens.symm.trans ((hears.channel i).mpr served))).symm
    have legal : RunsLegal (s.abortChannel j) := by
      rw [aborted, RunsLegal, setChannel_runOf, rest]
      rw [rest] at gone
      exact gone.congr fun _ => rfl
    have kept : (s.abortChannel j).calls = s.calls ∧ (s.abortChannel j).waitList = s.waitList
        ∧ (s.abortChannel j).sources = s.sources := by
      rw [aborted, rest]
      exact ⟨rfl, rfl, rfl⟩
    generalize s.abortChannel j = u at here serves free legal kept
    obtain ⟨calls, list, sources⟩ := kept
    have heard := hear_listens here .silent
    refine StageFor.leaves ⟨h.hear.write call heard.call (fun d ne => ?_) (fun m => ?_) (heard.waitList.trans list) (fun i d ne => ?_) rfl
      (hears.silence fun i served => free i ((heard.serves i).symm.trans served)), hear_runs legal c .silent⟩ heard.call rfl
    · rw [heard.others d ne]
      exact congrArg (fun v : Vector (Option CallRec) 1024 => (v.get d).map CallRec.hearing) calls
    · refine (heard.listeners m).trans (congrArg (listenersAfter r .silent m) ?_)
      exact congrArg (fun v : Vector SourceRec 8 => (v.get m).listeners) sources
    · rw [heard.serves, serves]
      split
      next same =>
        rw [same, (hears.channel j).mp listens]
        exact ⟨nofun, fun e => absurd (Option.some.inj e).symm ne⟩
      next => exact .rfl
  next off =>
    have heard := hear_listens call .silent
    have free (i : ChannelNo) : s.serves i ≠ some c := fun served => off i ((hears.channel i).mpr served)
    exact StageFor.leaves ⟨h.hear.write call heard.call (fun d ne => by rw [heard.others d ne]) heard.listeners heard.waitList
      (fun i d _ => by rw [heard.serves]) rfl (hears.silence fun i served => free i ((heard.serves i).symm.trans served)),
      hear_runs h.runs c .silent⟩ heard.call rfl

end

end Sys2Proof.Machine

/-! The stage through the runs of the highway channels (R150 to R156, R164), and all the links together through the commands of the
Playout Engine. -/

namespace Sys2Proof.Machine

/-! ### Runs of highway channels -/

theorem highwayOfSource_eq {h : HighwayChannel} {m : SourceNo} (p : playerOf h = .source m) : highwayOfSource m = h :=
  playerOf_injective ((playerOf_highwayOfSource m).trans p.symm)

theorem highwayOfChannel_eq {h : HighwayChannel} {j : ChannelNo} (p : playerOf h = .channel j) : highwayOfChannel j = h :=
  playerOf_injective ((playerOf_highwayOfChannel j).trans p.symm)

theorem StageFor.moved {V : CallSlot → Prop} {s t : State} (h : HearFor V s) (runs : RunsLegal t ∧ RunsMove s t) : StageFor V t :=
  ⟨h.congr runs.2.hearing, runs.1⟩

section
variable {V : CallSlot → Prop} {s : State} {h : HighwayChannel} {r : Run}

/-- A run that has a step to come to goes on. -/
theorem HearFor.continueRun (hear : HearFor V s) (busy : s.runOf h ≠ none) (fresh : r.Fresh)
    (runs : RunsFor (Function.update s.runOf h (some r)) s) : StageFor V (s.continueRun h r) := by
  unfold State.continueRun
  split
  next m p =>
    rw [← highwayOfSource_eq p] at runs
    exact .moved hear (carrySource_runs State.carryFuel fresh runs)
  next j p =>
    rw [← highwayOfChannel_eq p] at runs
    split
    next free =>
      rw [runOf_channel p, free] at busy
      exact absurd rfl busy
    next b here => exact hear.runChannel (serves_iff.mpr ⟨b, here, rfl⟩) fresh runs

theorem StageFor.completeStep (hs : StageFor V s) (h : HighwayChannel) : StageFor V (s.completeStep h) := by
  unfold State.completeStep
  split
  · exact hs
  next r here =>
    split
    next done =>
      have unfilled : r.fill = none := by
        simp only [State.stepDone, Bool.and_eq_true, Option.isNone_iff_eq_none] at done
        exact done.1.1
      obtain ⟨_, rest⟩ := leaveSegment_rest s r.segment
      have runOf : (s.leaveSegment r.segment).runOf = s.runOf := by rw [rest]; exact runOf_congr rfl rfl
      have same : SameHearing s (s.leaveSegment r.segment) := by
        rw [rest]
        exact ⟨fun _ => rfl, rfl, fun _ => rfl, fun _ => rfl⟩
      refine ((hs.hear.congr same).continueRun ?_ ?_ ?_).arbitrate
      · rw [runOf, here]
        nofun
      · exact ⟨rfl, unfilled⟩
      · rw [runOf]
        refine hs.runs.left here _ fun q e => ?_
        obtain rfl := Option.some.inj e
        rfl
    next => exact hs

theorem StageFor.completeFill (hs : StageFor V s) (h : HighwayChannel) : StageFor V (s.completeFill h) := by
  unfold State.completeFill
  split
  · exact hs
  next r here =>
    split
    next done =>
      split
      next ret m fill p =>
        have silent := hs.runs.fills h r here (by rw [fill]; nofun)
        have legal : RunsFor (Function.update s.runOf (highwayOfSource m) (some r)) s := by
          rw [highwayOfSource_eq p, ← here, Function.update_eq_self]
          exact hs.runs
        obtain ⟨goes, stops, move⟩ := sourceReturn_runs ret silent legal
        split
        next e =>
          rw [e] at stops move
          exact .moved hs.hear ⟨stops rfl, move⟩
        next e =>
          rw [e] at goes move
          obtain ⟨fresh, legal⟩ := goes _ rfl
          exact .moved (hs.hear.congr move.hearing) (carrySource_runs State.carryFuel fresh legal)
      next ret j fill p =>
        have silent := hs.runs.fills h r here (by rw [fill]; nofun)
        have next := takeReturn_fresh s ret silent
        refine (hs.hear.continueRun (h := h) (by rw [here]; nofun) next ?_).arbitrate
        refine hs.runs.replace (fun q e => ?_) _ fun q e => ?_
        · obtain rfl := Option.some.inj (here.symm.trans e)
          exact silent
        · obtain rfl := Option.some.inj e
          exact next.segment
      next => exact hs
    next => exact hs

theorem putRun_runsMove (s : State) (h : HighwayChannel) (r : Run) : RunsMove s (s.putRun h r) := by
  unfold State.putRun
  split
  · exact setSource_runsMove _ _ _ rfl
  next j _ =>
    refine ⟨rfl, rfl, fun i => ?_, fun _ => rfl⟩
    by_cases same : i = j
    · subst same
      rw [State.setChannel_channel_self, Option.map_map]
      rfl
    · rw [State.setChannel_channel_of_ne _ _ same]

/-- A run is put back with its segment counted. -/
theorem putRun_legal {u : State} {q : Run} (busy : u.runOf h = some q) (legal : RunsFor (Function.update u.runOf h (some r)) u) :
    RunsLegal (u.putRun h r) := by
  have runs : (u.putRun h r).runOf = Function.update u.runOf h (some r) := by
    funext k
    rw [putRun_runOf busy]
    by_cases same : k = h
    · rw [if_pos same, same, Function.update_self]
    · rw [if_neg same, Function.update_of_ne same]
  obtain ⟨_, _, rest⟩ := putRun_rest u h r
  rw [RunsLegal, runs]
  exact legal.congr fun k => by rw [rest]; rfl

theorem StageFor.playFrame (hs : StageFor V s) (h : HighwayChannel) : StageFor V (s.playFrame h) := by
  unfold State.playFrame
  split
  · exact hs
  next r here =>
    have plays (q : Run) (segment : q.segment = r.segment) (fill : q.fill = r.fill) : StageFor V (s.putRun h q) := by
      refine .moved hs.hear ⟨putRun_legal here (hs.runs.update _ (fun k => ?_) fun q' e filled => ?_), putRun_runsMove s h q⟩
      · rw [here, Option.any_some, Option.any_some, segment]
      · obtain rfl := Option.some.inj e
        rw [segment]
        exact hs.runs.fills h r here (fill ▸ filled)
    dsimp only
    split
    next comes =>
      split
      · exact plays _ rfl rfl
      next w _ =>
        have unfilled : r.fill = none := by
          simp only [Bool.and_eq_true, Option.isNone_iff_eq_none] at comes
          exact comes.1.1
        obtain ⟨_, rest⟩ := leaveSegment_rest s r.segment
        have left := hs.runs.left here none nofun
        have runOf : (s.leaveSegment r.segment).runOf = s.runOf := by rw [rest]; exact runOf_congr rfl rfl
        have begun (q : Run) (segment : q.segment = ((s.leaveSegment r.segment).beginWord w).1) (fill : q.fill = none) :=
          left.begunWord (h := h) (fun q e => by rw [Function.update_self] at e; cases e) w segment fill
        have word := beginWord_rest (s.leaveSegment r.segment) w
        generalize (s.leaveSegment r.segment).beginWord w = x at begun word
        obtain ⟨_, _, _, word⟩ := word
        have move : RunsMove s x.2 := by
          rw [word, rest]
          exact ⟨rfl, rfl, fun _ => rfl, fun _ => rfl⟩
        have runs : x.2.runOf = s.runOf := by
          rw [word]
          exact (runOf_congr rfl rfl).trans runOf
        refine .moved (hs.hear.congr move.hearing) ⟨putRun_legal (q := r) (by rw [runs, here]) ?_, putRun_runsMove x.2 h _⟩
        have put := begun { r with position := 0, played := true, word := r.word + 1, segment := x.1 } rfl unfilled
        rw [Function.update_idem, ← runs] at put
        exact put
    next => exact plays _ rfl rfl

/-- A source's record is written but for its run and its listeners. -/
theorem StageFor.setSource (hs : StageFor V s) (m : SourceNo) (q : SourceRec) (run : q.run = (s.source m).run)
    (listeners : q.listeners = (s.source m).listeners) : StageFor V (s.setSource m q) := by
  refine .moved hs.hear ⟨?_, setSource_runsMove s m q listeners⟩
  rw [RunsLegal, setSource_runOf, run, ← runOf_source (playerOf_highwayOfSource m), Function.update_eq_self]
  exact hs.runs.congr fun _ => rfl

theorem StageFor.startSource (hs : StageFor V s) (m : SourceNo) : StageFor V (s.startSource m) :=
  .moved hs.hear (startSource_runs hs.runs m)

end

/-! ### All the links -/

/-- A group that waits for its quiet point has offers in progress (R35). -/
def SwapsLegal (s : State) : Prop := ∀ g, (s.group g).swapPending = true → (s.group g).offers ≠ 0

/-- The links of the records, by the parts of which each keeps to itself. -/
structure Linked (s : State) : Prop where
  ties : TiesLegal s
  queues : QueuesFor s.waits s
  stage : StageFor s.waits s
  swaps : SwapsLegal s

theorem linksLegal_iff (s : State) : LinksLegal s ↔ Linked s := by
  have segments (k : SegmentCode) : countOf (fun h => (s.runOf h).any fun r => r.segment == some k)
      = ((List.finRange 24).filter fun h => (s.runOf h).any fun r => r.segment == some k).length := countOf_eq _
  constructor
  · rintro ⟨bindings, queues, ⟨offers, swap, staffed, segs, fills, listeners⟩, hearing⟩
    exact ⟨(tiesLegal_iff s).mpr ⟨bindings, offers, staffed⟩, (queuesLegal_iff s).mp queues,
      ⟨(hearFor_iff s).mpr ⟨listeners, hearing⟩, ⟨fun k => (segs k).trans (segments k).symm, fills⟩⟩, swap⟩
  · rintro ⟨ties, queues, ⟨hear, runs⟩, swap⟩
    obtain ⟨bindings, offers, staffed⟩ := (tiesLegal_iff s).mp ties
    obtain ⟨listeners, hearing⟩ := (hearFor_iff s).mp hear
    exact ⟨bindings, (queuesLegal_iff s).mpr queues,
      ⟨offers, swap, staffed, fun k => (runs.segments k).trans (segments k), runs.fills, listeners⟩, hearing⟩

namespace Linked
variable {s t : State} (h : Linked s)
include h

theorem congr (same : SameLinks s t) : Linked t where
  ties := h.ties.congr (same.ties none)
  queues := (h.queues.congr same.queues).congr_set fun c _ _ => same.waits c
  stage := (h.stage.links same).congr_set fun c _ _ => same.waits c
  swaps g pending := by
    obtain ⟨-, offers, -, swap⟩ := same.group g
    rw [offers]
    exact h.swaps g (swap ▸ pending)

theorem numbers (d e : CallSlot) (r q : CallRec) (hd : s.call d = some r) (he : s.call e = some q) (same : r.seq = q.seq) : d = e :=
  h.queues.numbers d e r q hd he same

/-- Work of playout alone keeps the links if it keeps the stage. -/
theorem offPlayout (off : OffPlayout s t) (stage : StageFor s.waits t) : Linked t := by
  have calls (c : CallSlot) : (t.call c).map CallRec.offPlayout = (s.call c).map CallRec.offPlayout := off.calls c
  have part {α : Type} (f : CallRec → α) (of : ∀ r : CallRec, f r.offPlayout = f r) (c : CallSlot) : (t.call c).map f = (s.call c).map f := by
    have same := congrArg (Option.map f) (calls c)
    rw [Option.map_map, Option.map_map, show f ∘ CallRec.offPlayout = f from funext of] at same
    exact same
  have waits (c : CallSlot) : t.waits c ↔ s.waits c := by
    have one {s t : State} (same : (t.call c).map CallRec.state = (s.call c).map CallRec.state) (w : t.waits c) : s.waits c := by
      obtain ⟨r, call, waits⟩ := w
      rw [call, Option.map_some, eq_comm, Option.map_eq_some_iff] at same
      obtain ⟨q, here, state⟩ := same
      exact ⟨q, here, by rw [CallRec.waits, state]; exact waits⟩
    have same := part CallRec.state (fun _ => rfl) c
    exact ⟨one same, one same.symm⟩
  refine ⟨h.ties.congr ⟨fun a => ?_, fun c _ => part _ (fun _ => rfl) c, fun g => ?_⟩,
    (h.queues.congr ⟨fun g => ?_, part _ fun _ => rfl, off.base.seqCounter⟩).congr_set fun c _ _ => waits c,
    stage.congr_set fun c _ _ => waits c, fun g => ?_⟩
  · rw [off.agent]
    exact ⟨rfl, rfl, rfl⟩
  · rw [off.group]
    exact ⟨rfl, rfl⟩
  · rw [off.group]
  · rw [off.group]
    exact h.swaps g

theorem arbitrate : Linked s.arbitrate :=
  h.offPlayout (arbitrate_play (C := fun _ => True) (W := true) s (fun _ _ => trivial) rfl).off h.stage.arbitrate

theorem completeStep (k : HighwayChannel) : Linked (s.completeStep k) :=
  h.offPlayout (completeStep_play (C := fun _ => True) (W := true) s k (fun _ _ _ => trivial) (fun _ _ => trivial) rfl).off
    (h.stage.completeStep k)

theorem completeFill (k : HighwayChannel) : Linked (s.completeFill k) :=
  h.offPlayout (completeFill_play (C := fun _ => True) (W := true) s k (fun _ _ _ => trivial) (fun _ _ => trivial) rfl).off
    (h.stage.completeFill k)

theorem playFrame (k : HighwayChannel) : Linked (s.playFrame k) :=
  h.offPlayout (playFrame_play (C := fun _ => True) (W := true) s k).off (h.stage.playFrame k)

theorem moveMusic (g : Group) {c : CallSlot} (waits : s.waits c) : Linked (s.moveMusic g c) :=
  h.offPlayout (moveMusic_play (C := fun _ => True) (W := true) s g trivial).off (h.stage.moveMusic waits g)

theorem announce (c : CallSlot) : Linked (s.announce c) := by
  refine h.offPlayout ?_ (h.stage.announce (fun r call waits => ⟨r, call, waits⟩) h.numbers)
  exact (announce_play s c).off

theorem setSource (m : SourceNo) (q : SourceRec) (run : q.run = (s.source m).run) (listeners : q.listeners = (s.source m).listeners) :
    Linked (s.setSource m q) := by
  obtain ⟨ties, queues, stage, swaps⟩ := h
  exact ⟨ties.congr ⟨fun _ => ⟨rfl, rfl, rfl⟩, fun _ _ => rfl, fun _ => ⟨rfl, rfl⟩⟩, queues.congr ⟨fun _ => rfl, fun _ => rfl, rfl⟩,
    stage.setSource m q run listeners, swaps⟩

theorem startSource (m : SourceNo) : Linked (s.startSource m) :=
  h.offPlayout (startSource_play (C := fun _ => True) (W := true) s m).off (h.stage.startSource m)

end Linked

end Sys2Proof.Machine

/-! The links of the records in the midst of a command: what the command has set apart, the calls that are in their queues and the calls
that are on the stage. One rule for each operation. -/

namespace Sys2Proof.Machine

/-- What a command has set apart: an agent, a call, the offers that no call counts for, a group whose swap may be due. -/
structure Apart where
  agent : Option AgentSlot := none
  call : Option CallSlot := none
  offers : Group → Nat := fun _ => 0
  swap : Option Group := none

/-- The records agree but for what is set apart; `W` are the calls in their queues, `V` those on the stage. -/
structure LinksBut (x : Apart) (W V : CallSlot → Prop) (s : State) : Prop where
  ties : TiesBut x.agent x.call x.offers s
  queues : QueuesFor W s
  stage : StageFor V s
  swaps : ∀ g, x.swap ≠ some g → (s.group g).swapPending = true → (s.group g).offers ≠ 0
  staged : ∀ d q, x.call ≠ some d → s.call d = some q → (V d ↔ q.waits)

theorem waits_iff {s : State} {c : CallSlot} {r : CallRec} (call : s.call c = some r) : s.waits c ↔ r.waits :=
  ⟨fun ⟨_, here, waits⟩ => Option.some.inj (call.symm.trans here) ▸ waits, fun waits => ⟨r, call, waits⟩⟩

theorem Linked.but {s : State} (h : Linked s) : LinksBut {} s.waits s.waits s :=
  ⟨h.ties, h.queues, h.stage, fun g _ => h.swaps g, fun _ _ _ => waits_iff⟩

/-- The states of the calls that are not set apart. -/
theorem LinksBut.staged_of {x : Apart} {W V : CallSlot → Prop} {s t : State} (h : LinksBut x W V s)
    (states : ∀ d, x.call ≠ some d → (t.call d).map CallRec.state = (s.call d).map CallRec.state) (d : CallSlot) (q : CallRec)
    (other : x.call ≠ some d) (call : t.call d = some q) : V d ↔ q.waits := by
  have same := states d other
  rw [call, Option.map_some, eq_comm, Option.map_eq_some_iff] at same
  obtain ⟨r, here, state⟩ := same
  rw [h.staged d r other here, CallRec.waits, CallRec.waits, state]

theorem StageFor.of_same {V : CallSlot → Prop} {s t : State} (h : StageFor V s)
    (calls : ∀ c, (t.call c).map CallRec.hearing = (s.call c).map CallRec.hearing) (waitList : t.waitList = s.waitList)
    (channels : t.channels = s.channels) (sources : t.sources = s.sources) (segments : t.segments = s.segments) : StageFor V t where
  hear := h.hear.congr ⟨calls, waitList, fun j => congrArg (fun v : Vector (Option Announcement) 16 => (v.get j).map Announcement.call) channels,
    fun m => congrArg (fun v : Vector SourceRec 8 => (v.get m).listeners) sources⟩
  runs := by
    rw [RunsLegal, runOf_congr sources channels]
    exact h.runs.congr fun k => congrArg (fun v : Vector SegmentRec 240 => (v.get k).inUse) segments

namespace LinksBut
variable {x : Apart} {W V : CallSlot → Prop} {s t : State} {a : AgentSlot} {c : CallSlot} {r : CallRec} {g : Group}

section
variable (h : LinksBut x W V s)
include h

theorem links (same : SameLinks s t) : LinksBut x W V t where
  ties := h.ties.congr (same.ties x.call)
  queues := h.queues.congr same.queues
  stage := h.stage.links same
  swaps g other pending := by
    obtain ⟨-, offers, -, swap⟩ := same.group g
    rw [offers]
    exact h.swaps g other (swap ▸ pending)
  staged := h.staged_of fun d _ => same.call_part (fun l => l.1) d

theorem congr_set {W' V' : CallSlot → Prop} (queued : ∀ d q, s.call d = some q → (W' d ↔ W d))
    (staged : ∀ d q, s.call d = some q → (V' d ↔ V d)) : LinksBut x W' V' s :=
  ⟨h.ties, h.queues.congr_set queued, h.stage.congr_set staged, h.swaps,
    fun d q other call => (staged d q call).trans (h.staged d q other call)⟩

/-! ### Agents -/

theorem writeAgent (mine : x.agent = some a) (new : AgentRec) : LinksBut x W V (s.writeAgent a new) := by
  have agent (b : AgentSlot) := writeAgent_agent s a b new
  have group (g : Group) := writeAgent_group s a new g
  have staffed (g : Group) : ((s.writeAgent a new).group g).staffed = staffedAfter (s.agent a) new g (s.group g).staffed := by
    rw [group, GroupRec.restaffed]
    split
    next same =>
      rw [staffedAfter, if_pos]
      rw [staffs_eq, staffs_eq]
      exact same
    next => rfl
  have kept (g : Group) : ((s.writeAgent a new).group g).offers = (s.group g).offers
      ∧ ((s.writeAgent a new).group g).queue = (s.group g).queue
      ∧ ((s.writeAgent a new).group g).swapPending = (s.group g).swapPending := by
    rw [group, GroupRec.restaffed]
    split
    next => exact ⟨rfl, rfl, rfl⟩
    next => exact ⟨rfl, rfl, rfl⟩
  have rest : s.writeAgent a new = { s.setAgent a new with
      groups := (s.writeAgent a new).groups, portS := (s.writeAgent a new).portS, device := (s.writeAgent a new).device } :=
    (writeAgent_staff s a new).rest
  generalize s.writeAgent a new = u at agent group staffed kept rest
  have calls (d : CallSlot) : u.call d = s.call d := by rw [rest]; rfl
  have staged := h.staged_of (t := u) fun d _ => by rw [calls]
  obtain ⟨ties, queues, stage, swaps, -⟩ := h
  rw [mine] at ties
  refine ⟨?_, queues.congr ⟨fun g => (kept g).2.1, fun d => by rw [calls], by rw [rest]; rfl⟩,
    stage.of_same (fun d => by rw [calls]) (by rw [rest]; rfl) (by rw [rest]; rfl) (by rw [rest]; rfl) (by rw [rest]; rfl), fun g other => ?_, staged⟩
  · rw [mine]
    refine ties.agent (fun b ne => by rw [agent, if_neg ne]) calls (fun g => (kept g).1) fun g => ?_
    rw [agent, if_pos rfl]
    exact staffed g
  · rw [(kept g).1, (kept g).2.2]
    exact swaps g other

theorem changeAgent (mine : x.agent = some a) (new : AgentRec) (quiet : Bool) : LinksBut x W V (s.changeAgent a new quiet) := by
  have written := h.writeAgent mine new
  unfold State.changeAgent
  dsimp only
  split
  · exact written
  · exact written.links (.handAgentState _ a)

theorem moveAgent (mine : x.agent = some a) (new : AgentRec) : LinksBut x W V (s.moveAgent a new) := by
  have changed := h.changeAgent mine new false
  unfold State.moveAgent
  dsimp only
  split
  · exact changed.links (.raiseAgentTrigger _ a)
  · exact changed

/-! ### The call set apart -/

/-- The record of the call set apart is written, but for its place and what it hears. -/
theorem modCall (mine : x.call = some c) (f : CallRec → CallRec) (place : ∀ r, (f r).place = r.place)
    (hearing : ∀ r, (f r).hearing = r.hearing) : LinksBut x W V (s.modCall c f) := by
  have part {α : Type} (p : CallRec → α) (same : ∀ r, p (f r) = p r) (d : CallSlot) :
      ((s.modCall c f).call d).map p = (s.call d).map p := by
    rw [modCall_call]
    split
    next here =>
      subst here
      rw [Option.map_map]
      exact congrArg (Option.map · (s.call d)) (funext same)
    next => rfl
  refine ⟨h.ties.congr ⟨fun _ => ⟨rfl, rfl, rfl⟩, fun d ne => ?_, fun _ => ⟨rfl, rfl⟩⟩,
    h.queues.congr ⟨fun _ => rfl, part _ place, rfl⟩, h.stage.of_same (part _ hearing) rfl rfl rfl rfl, h.swaps,
    h.staged_of fun d ne => ?_⟩
  all_goals
    rw [modCall_call, if_neg]
    rintro rfl
    exact ne mine

/-! ### Offers in progress (R34) -/

/-- An offer more: that of the call set apart. -/
theorem raiseOffer (other : ∀ i, x.offers i = 0) :
    LinksBut { x with offers := fun i => if g = i then 1 else 0 } W V (s.modGroup g fun q => { q with offers := q.offers + 1 }) := by
  have group (i : Group) : (s.modGroup g fun q => { q with offers := q.offers + 1 }).group i
      = if i = g then { s.group g with offers := (s.group g).offers + 1 } else s.group i := State.setGroup_group ..
  have part {α : Type} (p : GroupRec → α) (same : ∀ q : GroupRec, p { q with offers := q.offers + 1 } = p q) (i : Group) :
      p ((s.modGroup g fun q => { q with offers := q.offers + 1 }).group i) = p (s.group i) := by
    rw [group]
    split
    next here => rw [here, same]
    next => rfl
  have staged := h.staged
  obtain ⟨ties, queues, stage, swaps, -⟩ := h
  refine ⟨ties.counted (fun _ => rfl) (fun _ => rfl) (fun i => ?_) (part GroupRec.staffed fun _ => rfl),
    queues.congr ⟨part GroupRec.queue fun _ => rfl, fun _ => rfl, rfl⟩, stage.of_same (fun _ => rfl) rfl rfl rfl rfl, fun i ne => ?_,
    staged⟩
  · rw [other, group]
    by_cases here : i = g
    · simp [here]
    · simp [here, Ne.symm here]
  · rw [part GroupRec.swapPending fun _ => rfl, group]
    split
    · exact fun _ => Nat.succ_ne_zero _
    · exact swaps i ne

/-- The offer of the call set apart is over; the group's swap may be due. -/
theorem endOffer (mine : ∀ i, x.offers i = if g = i then 1 else 0) (calm : x.swap = none) :
    LinksBut { x with offers := fun _ => 0, swap := some g } W V (s.endOffer g) := by
  have group (i : Group) : (s.endOffer g).group i
      = if i = g then { s.group g with offers := (s.group g).offers - 1 } else s.group i := State.setGroup_group ..
  have part {α : Type} (p : GroupRec → α) (same : ∀ q : GroupRec, p { q with offers := q.offers - 1 } = p q) (i : Group) :
      p ((s.endOffer g).group i) = p (s.group i) := by
    rw [group]
    split
    next here => rw [here, same]
    next => rfl
  have staged := h.staged
  obtain ⟨ties, queues, stage, swaps, -⟩ := h
  refine ⟨ties.counted (fun _ => rfl) (fun _ => rfl) (fun i => ?_) (part GroupRec.staffed fun _ => rfl),
    queues.congr ⟨part GroupRec.queue fun _ => rfl, fun _ => rfl, rfl⟩, stage.of_same (fun _ => rfl) rfl rfl rfl rfl, fun i ne => ?_,
    staged⟩
  · have count := ties.offers i
    rw [mine] at count ⊢
    rw [group]
    by_cases here : i = g
    · subst here
      simp only [if_true] at count ⊢
      omega
    · simp [here, Ne.symm here]
  · have ne : i ≠ g := fun e => ne (by rw [e])
    rw [group, if_neg ne]
    exact swaps i (by rw [calm]; nofun)

/-! ### Queues -/

theorem leaveQueue (call : s.call c = some r) : LinksBut x (fun d => d ≠ c ∧ W d) V (s.leaveQueue c r.group) := by
  obtain ⟨_, _, _, rest⟩ := leaveQueue_rest s c r.group
  have here := leaveQueue_group s c r.group
  have away (i : Group) (ne : i ≠ r.group) := leaveQueue_other s c r.group ne
  have part {α : Type} (p : GroupRec → α) (same : ∀ (q : GroupRec) l b f, p { q with queue := l, conditions := b, flags := f } = p q) (i : Group) :
      p ((s.leaveQueue c r.group).group i) = p (s.group i) := by
    by_cases e : i = r.group
    · rw [e, here]
      exact same ..
    · rw [away i e]
  refine ⟨h.ties.congr ⟨fun a => by rw [rest]; exact ⟨rfl, rfl, rfl⟩, fun d _ => by rw [rest]; rfl, fun i =>
    ⟨part GroupRec.offers (fun _ _ _ _ => rfl) i, part GroupRec.staffed (fun _ _ _ _ => rfl) i⟩⟩,
    h.queues.leave call (by rw [here]) (fun i ne => by rw [away i ne]) (fun d => by rw [rest]; rfl) (by rw [rest]),
    h.stage.of_same (fun d => by rw [rest]; rfl) (by rw [rest]) (by rw [rest]) (by rw [rest]) (by rw [rest]), fun i other => ?_,
    h.staged_of fun d _ => by rw [rest]; rfl⟩
  rw [part GroupRec.swapPending (fun _ _ _ _ => rfl), part GroupRec.offers fun _ _ _ _ => rfl]
  exact h.swaps i other

/-- A call that is not OFFERED, or is set apart, joins a queue. -/
theorem join (out : ¬W c) (call : s.call c = some r) (state : r.state ≠ .offered) (g : Group) :
    LinksBut x (fun d => d = c ∨ W d) V (s.join c g) := by
  obtain ⟨_, _, _, rest⟩ := join_rest call g
  have here := join_group call g
  have calls := join_call call g
  have queues := h.queues.join out call g
  have away (i : Group) (ne : i ≠ g) := join_other call g ne
  have part {α : Type} (p : GroupRec → α) (same : ∀ (q : GroupRec) l b f, p { q with queue := l, conditions := b, flags := f } = p q) (i : Group) :
      p ((s.join c g).group i) = p (s.group i) := by
    by_cases e : i = g
    · rw [e, here]
      exact same ..
    · rw [away i e]
  have record {α : Type} (p : CallRec → α) (same : p (r.joined s g) = p r) (d : CallSlot) : ((s.join c g).call d).map p = (s.call d).map p := by
    rw [calls]
    split
    next here => rw [here, call, Option.map_some, same]; rfl
    next => rfl
  refine ⟨h.ties.congr ⟨fun a => by rw [rest]; exact ⟨rfl, rfl, rfl⟩, fun d _ => record _ ?_ d, fun i =>
    ⟨part GroupRec.offers (fun _ _ _ _ => rfl) i, part GroupRec.staffed (fun _ _ _ _ => rfl) i⟩⟩, queues,
    h.stage.of_same (record _ rfl) (by rw [rest]) (by rw [rest]) (by rw [rest]) (by rw [rest]), fun i other => ?_,
    h.staged_of fun d _ => record _ rfl d⟩
  · have none_offered (q : CallRec) (same : q.state = r.state) : q.offeredIn = fun _ => false := funext fun i => by
      simp [CallRec.offeredIn, same, state]
    show (r.state, r.boundAgent, r.ring, (r.joined s g).offeredIn) = (r.state, r.boundAgent, r.ring, r.offeredIn)
    rw [none_offered (r.joined s g) rfl]
    exact (congrArg (fun f => (r.state, r.boundAgent, r.ring, f)) (none_offered r rfl)).symm
  · rw [part GroupRec.swapPending (fun _ _ _ _ => rfl), part GroupRec.offers fun _ _ _ _ => rfl]
    exact h.swaps i other

/-! ### The stage -/

theorem offPlayout (off : OffPlayout s t) {V' : CallSlot → Prop} (stage : StageFor V' t) (others : ∀ d, x.call ≠ some d → (V' d ↔ V d)) :
    LinksBut x W V' t := by
  have part {α : Type} (f : CallRec → α) (of : ∀ r : CallRec, f r.offPlayout = f r) (c : CallSlot) : (t.call c).map f = (s.call c).map f := by
    have same := congrArg (Option.map f) (off.calls c)
    rw [Option.map_map, Option.map_map, show f ∘ CallRec.offPlayout = f from funext of] at same
    exact same
  refine ⟨h.ties.congr ⟨fun a => ?_, fun c _ => part _ (fun _ => rfl) c, fun g => ?_⟩,
    h.queues.congr ⟨fun g => ?_, part _ fun _ => rfl, off.base.seqCounter⟩, stage, fun g => ?_,
    fun d q other call => (others d other).trans (h.staged_of (fun d _ => part _ (fun _ => rfl) d) d q other call)⟩
  · rw [off.agent]
    exact ⟨rfl, rfl, rfl⟩
  · rw [off.group]
    exact ⟨rfl, rfl⟩
  · rw [off.group]
  · rw [off.group]
    exact h.swaps g

theorem detach (mine : x.call = some c) (call : s.call c = some r) : LinksBut x W (fun d => d ≠ c ∧ V d) (s.detach c) :=
  h.offPlayout (detach_play (C := fun _ => True) (W := true) s trivial rfl).off (h.stage.detach call)
    fun d other => and_iff_right fun e => other (by rw [mine, e])

theorem moveMusic (on : V c) (g : Group) : LinksBut x W V (s.moveMusic g c) :=
  h.offPlayout (moveMusic_play (C := fun _ => True) (W := true) s g trivial).off (h.stage.moveMusic on g) fun _ _ => .rfl

/-- The call set apart goes; it has left its queue and the stage. -/
theorem gone (mine : x.call = some c) (call : s.call c = some r) (out : ¬W c) (silent : r.listen = .silent) (unlisted : ¬s.listed c) :
    LinksBut x W V (s.putCall c none) := by
  have others (d : CallSlot) (ne : d ≠ c) : (s.putCall c none).call d = s.call d := by rw [State.putCall_call, if_neg ne]
  have free : (s.putCall c none).call c = none := by rw [State.putCall_call, if_pos rfl]
  refine ⟨h.ties.congr ⟨fun _ => ⟨rfl, rfl, rfl⟩, fun d ne => ?_, fun _ => ⟨rfl, rfl⟩⟩,
    h.queues.write out (fun _ => rfl) (fun d ne => by rw [others d ne]) (fun q here => ?_) rfl,
    ⟨h.stage.hear.gone call free others rfl (fun _ => rfl) (fun _ => rfl) silent unlisted, h.stage.runs.congr fun _ => rfl⟩, h.swaps,
    h.staged_of fun d ne => ?_⟩
  · rw [others d fun e => ne (by rw [mine, e])]
  · rw [free] at here
    cases here
  · rw [others d fun e => ne (by rw [mine, e])]

end
end LinksBut

end Sys2Proof.Machine

/-! The swap, the overflow move and the freeing of a call in the midst of a command, and how a command sets apart and puts back. -/

namespace Sys2Proof.Machine

namespace LinksBut
variable {x : Apart} {W V : CallSlot → Prop} {s t : State} {a : AgentSlot} {c : CallSlot} {r : CallRec} {g : Group}

/-! ### The swap (R34, R36, R166) -/

/-- The group that might wait for its quiet point does not. -/
theorem swapped (h : LinksBut x W V s) (none_else : ∀ i, x.swap ≠ some i → i ≠ g → (s.group i).swapPending = true → (s.group i).offers ≠ 0)
    (own : x.swap = none ∨ x.swap = some g) (done : (s.group g).swapPending = true → (s.group g).offers ≠ 0) :
    LinksBut { x with swap := none } W V s := by
  refine ⟨h.ties, h.queues, h.stage, fun i _ => ?_, h.staged⟩
  by_cases here : i = g
  · rw [here]
    exact done
  · refine none_else i (fun e => ?_) here
    rcases own with none | some
    · rw [none] at e
      cases e
    · exact here (Option.some.inj (e.symm.trans some))

theorem performSwap (h : LinksBut x W V s) (own : x.swap = none ∨ x.swap = some g) (on : ∀ d, W d → V d) :
    LinksBut { x with swap := none } W V (s.performSwap g) := by
  have group (i : Group) : (s.setGroup g { s.group g with active := (s.group g).staged, swapPending := false }).group i
      = if i = g then { s.group g with active := (s.group g).staged, swapPending := false } else s.group i := State.setGroup_group ..
  have part {α : Type} (p : GroupRec → α) (same : ∀ (q : GroupRec) k, p { q with active := k, swapPending := false } = p q) (i : Group) :
      p ((s.setGroup g { s.group g with active := (s.group g).staged, swapPending := false }).group i) = p (s.group i) := by
    rw [group]
    split
    next here => rw [here, same]
    next => rfl
  have written : LinksBut { x with swap := none } W V
      (s.setGroup g { s.group g with active := (s.group g).staged, swapPending := false }) := by
    refine ⟨h.ties.congr ⟨fun _ => ⟨rfl, rfl, rfl⟩, fun _ _ => rfl, fun i =>
      ⟨part GroupRec.offers (fun _ _ => rfl) i, part GroupRec.staffed (fun _ _ => rfl) i⟩⟩,
      h.queues.congr ⟨part GroupRec.queue fun _ _ => rfl, fun _ => rfl, rfl⟩, h.stage.of_same (fun _ => rfl) rfl rfl rfl rfl,
      fun i _ => ?_, h.staged⟩
    rw [group]
    split
    next => nofun
    next ne =>
      refine h.swaps i fun e => ?_
      rcases own with none | some
      · rw [none] at e
        cases e
      · exact ne (Option.some.inj (e.symm.trans some))
  unfold State.performSwap
  dsimp only
  generalize s.setGroup g { s.group g with active := (s.group g).staged, swapPending := false } = u at written
  have evaluated := (written.links (.evalDepth u g)).links (.evalWait _ g)
  refine LinksBut.links ?_ (.raiseSweep _)
  split
  · exact evaluated
  · generalize (u.evalDepth g).evalWait g = v at evaluated
    have members (d : CallSlot) (member : d ∈ (v.group g).queue) : V d := on d ((evaluated.queues.members g d).mp member).1
    unfold State.moveListeners
    generalize (v.group g).queue = l at members
    induction l generalizing v with
    | nil => exact evaluated
    | cons d l ih =>
      exact ih _ (evaluated.moveMusic (members d List.mem_cons_self) g) fun e member => members e (List.mem_cons_of_mem _ member)

theorem swapIfQuiet (h : LinksBut x W V s) (own : x.swap = some g) (on : ∀ d, W d → V d) :
    LinksBut { x with swap := none } W V (s.swapIfQuiet g) := by
  unfold State.swapIfQuiet
  split
  · exact h.performSwap (.inr own) on
  next quiet =>
    refine h.swapped (fun i other _ => h.swaps i other) (.inr own) fun pending none => quiet ?_
    rw [pending, none]
    rfl

/-! ### The overflow move (R69) -/

theorem tryOverflow (h : LinksBut x W W s) (waits : W c) : LinksBut x W W (s.tryOverflow c) := by
  unfold State.tryOverflow
  split
  · exact h
  next r call =>
    split
    · exact h
    next g target =>
      have queued : r.state ≠ .offered := by
        unfold State.overflowGroup at target
        split at target
        next state _ => rw [state]; nofun
        next => cases target
      obtain ⟨_, _, _, rest⟩ := leaveQueue_rest s c r.group
      have still : (s.leaveQueue c r.group).call c = some r := by rw [rest]; exact call
      have left := h.leaveQueue call
      dsimp only
      generalize s.leaveQueue c r.group = u at left still
      have changed := left.links (.modCall u c (fun k => { k with hops := k.hops + 1, noAnswers := 0, pendingOverflow := false })
        fun _ => by exact rfl)
      have now : (u.modCall c fun k => { k with hops := k.hops + 1, noAnswers := 0, pendingOverflow := false }).call c
          = some { r with hops := r.hops + 1, noAnswers := 0, pendingOverflow := false } := by
        rw [modCall_call, if_pos rfl, still]
        rfl
      generalize u.modCall c (fun k => { k with hops := k.hops + 1, noAnswers := 0, pendingOverflow := false }) = v at changed now
      have counted := (changed.links (.modStats v r.group fun q => { q with overflowedOut := bump q.overflowedOut })).links
        (.modStats _ g fun q => { q with overflowedIn := bump q.overflowedIn })
      have joined := counted.join (fun out => out.1 rfl) now queued g
      refine LinksBut.moveMusic (joined.congr_set (fun d _ _ => ?_) fun _ _ _ => .rfl) waits g
      by_cases here : d = c
      · simp [here, waits]
      · simp [here]

/-! ### Freeing a call (R55) -/

theorem freeCall (h : LinksBut x W V s) (mine : x.call = some c) (call : s.call c = some r) :
    LinksBut x (fun d => d ≠ c ∧ W d) (fun d => d ≠ c ∧ V d) (s.freeCall c) := by
  unfold State.freeCall
  rw [call]
  dsimp only
  have left : LinksBut x (fun d => d ≠ c ∧ W d) V (if c ∈ (s.group r.group).queue then s.leaveQueue c r.group else s)
      ∧ (if c ∈ (s.group r.group).queue then s.leaveQueue c r.group else s).call c = some r := by
    split
    next =>
      obtain ⟨_, _, _, rest⟩ := leaveQueue_rest s c r.group
      exact ⟨h.leaveQueue call, by rw [rest]; exact call⟩
    next absent =>
      refine ⟨h.congr_set (fun d q here => and_iff_right_of_imp fun waits e => absent ?_) fun _ _ _ => .rfl, call⟩
      subst e
      exact (h.queues.member call).mpr ⟨waits, rfl⟩
  generalize (if c ∈ (s.group r.group).queue then s.leaveQueue c r.group else s) = u at left
  obtain ⟨left, call⟩ := left
  have detached := detach_detached call
  have off := left.detach mine call
  generalize u.detach c = v at detached off
  have unlisted : ¬v.listed c := by
    rintro ⟨e, he, same⟩
    rw [detached.waitList, List.mem_filter, bne_iff_ne] at he
    exact he.2 same
  obtain ⟨calls, list, cleared⟩ : ((((v.removeOwed (portOf r.owner) (.call c .listen)).removeOwed (portOf r.owner) (.call c .connect)).removeOwed
      (portOf r.owner) (.call c .cleared)).calls = v.calls) ∧ (((v.removeOwed (portOf r.owner) (.call c .listen)).removeOwed
      (portOf r.owner) (.call c .connect)).removeOwed (portOf r.owner) (.call c .cleared)).waitList = v.waitList
      ∧ LinksBut x (fun d => d ≠ c ∧ W d) (fun d => d ≠ c ∧ V d) (((v.removeOwed (portOf r.owner) (.call c .listen)).removeOwed
      (portOf r.owner) (.call c .connect)).removeOwed (portOf r.owner) (.call c .cleared)) := by
    refine ⟨?_, ?_, ((off.links (.removeOwed v _ _)).links (.removeOwed _ _ _)).links (.removeOwed _ _ _)⟩
    · cases r.owner <;> rfl
    · cases r.owner <;> rfl
  generalize ((v.removeOwed (portOf r.owner) (.call c .listen)).removeOwed (portOf r.owner) (.call c .connect)).removeOwed
    (portOf r.owner) (.call c .cleared) = w at calls list cleared
  exact cleared.gone mine ((congrArg (Vector.get · c) calls :).trans detached.call) (fun out => out.1 rfl) rfl (by
    rwa [State.listed, list])

/-! ### Putting back -/

/-- Nothing that was set apart is tied. -/
theorem close (h : LinksBut x W V s) (offers : ∀ g, x.offers g = 0)
    (agent : ∀ a, x.agent = some a → (s.agent a).boundCall = none ∧ (s.agent a).state ≠ .offered ∧ (s.agent a).state ≠ .connected)
    (call : ∀ c r, x.call = some c → s.call c = some r →
      r.boundAgent = none ∧ r.ring = none ∧ r.state ≠ .offered ∧ r.state ≠ .connected ∧ (V c ↔ r.waits)) :
    LinksBut { swap := x.swap } W V s := by
  have none_left : x.offers = fun _ => 0 := funext offers
  have ties := h.ties
  rw [none_left] at ties
  refine ⟨ties.close agent fun c r e here => ?_, h.queues, h.stage, h.swaps, fun d q _ here => ?_⟩
  · obtain ⟨unbound, ring, offered, connected, -⟩ := call c r e here
    exact ⟨unbound, ring, offered, connected⟩
  · by_cases apart : x.call = some d
    · exact (call d q apart here).2.2.2.2
    · exact h.staged d q apart here

/-- A call and an agent set apart are tied to one another. -/
theorem close_pair (h : LinksBut x W V s) (agent : x.agent = some a) (mine : x.call = some c) (call : s.call c = some r)
    (count : ∀ g, x.offers g = if r.offeredIn g = true then 1 else 0) (bound : (s.agent a).boundCall = some c)
    (bound' : r.boundAgent = some a) (tiedAgent : (s.agent a).tied) (tiedCall : r.Tied)
    (states : r.state = .offered ↔ (s.agent a).state = .offered) (stage : V c ↔ r.waits) : LinksBut { swap := x.swap } W V s := by
  have ties := h.ties
  rw [agent, mine] at ties
  refine ⟨ties.close_pair call count ⟨bound, bound'⟩ tiedAgent tiedCall states, h.queues, h.stage, h.swaps, fun d q _ here => ?_⟩
  by_cases apart : x.call = some d
  · obtain rfl := Option.some.inj (mine.symm.trans apart)
    obtain rfl := Option.some.inj (call.symm.trans here)
    exact stage
  · exact h.staged d q apart here

/-- Nothing is set apart any more. -/
theorem linked (h : LinksBut {} V V s) : Linked s where
  ties := h.ties
  queues := h.queues.congr_set fun d q here => (waits_iff here).trans (h.staged d q nofun here).symm
  stage := h.stage.congr_set fun d q here => (waits_iff here).trans (h.staged d q nofun here).symm
  swaps g := h.swaps g nofun

end LinksBut

/-! ### Setting apart -/

namespace Linked
variable {s : State} {a : AgentSlot} {c : CallSlot} {r : CallRec} (h : Linked s)
include h

theorem agentBound {b : AgentSlot} {d : CallSlot} : (s.agent b).boundCall = some d ↔ ∃ q, s.call d = some q ∧ q.boundAgent = some b :=
  h.ties.both b d nofun nofun

theorem apartAgent (unbound : (s.agent a).boundCall = none) : LinksBut { agent := some a } s.waits s.waits s :=
  ⟨h.ties.open_agent unbound, h.queues, h.stage, fun g _ => h.swaps g, fun _ _ _ => waits_iff⟩

theorem apartCall (call : s.call c = some r) (unbound : r.boundAgent = none) : LinksBut { call := some c } s.waits s.waits s :=
  ⟨h.ties.open_call fun _ here => Option.some.inj (call.symm.trans here) ▸ unbound, h.queues, h.stage, fun g _ => h.swaps g,
    fun _ _ _ => waits_iff⟩

theorem apartPair (call : s.call c = some r) (bound : r.boundAgent = some a) :
    LinksBut { agent := some a, call := some c, offers := fun g => if r.offeredIn g = true then 1 else 0 } s.waits s.waits s :=
  ⟨h.ties.open_pair call bound, h.queues, h.stage, fun g _ => h.swaps g, fun _ _ _ => waits_iff⟩

theorem apartBoth (unbound : (s.agent a).boundCall = none) (call : s.call c = some r) (free : r.boundAgent = none) :
    LinksBut { agent := some a, call := some c } s.waits s.waits s :=
  ⟨h.ties.open_both unbound fun _ here => Option.some.inj (call.symm.trans here) ▸ free, h.queues, h.stage, fun g _ => h.swaps g,
    fun _ _ _ => waits_iff⟩

/-- An agent that is neither OFFERED nor CONNECTED is bound to no call. -/
theorem unboundAgent (state : (s.agent a).state ≠ .offered ∧ (s.agent a).state ≠ .connected) : (s.agent a).boundCall = none := by
  by_contra bound
  exact ((h.ties.tiedAgent a nofun).mp bound).elim state.1 state.2

theorem unboundCall (call : s.call c = some r) (state : r.state ≠ .offered ∧ r.state ≠ .connected) : r.boundAgent = none := by
  by_contra bound
  exact ((h.ties.tiedCall c r nofun call).bound.mp bound).elim state.1 state.2

end Linked

end Sys2Proof.Machine

/-! The links of the records through the changes of agents and the ends of offers (R9 to R28, R95 to R104, R115 to R122). -/

namespace Sys2Proof.Machine

/-! ### Agents bound to no call -/

/-- The agent is bound to no call, and neither OFFERED nor CONNECTED. -/
def AgentRec.atLarge (r : AgentRec) : Prop := r.boundCall = none ∧ r.state ≠ .offered ∧ r.state ≠ .connected

theorem toAux_atLarge (r : AgentRec) (n : Nat) : (r.toAux n).atLarge := ⟨rfl, nofun, nofun⟩
theorem toReady_atLarge (r : AgentRec) (n : Nat) : (r.toReady n).atLarge := ⟨rfl, nofun, nofun⟩
theorem toSignedOut_atLarge (r : AgentRec) : r.toSignedOut.atLarge := ⟨rfl, nofun, nofun⟩

theorem freed_atLarge (r : AgentRec) (n : Nat) : (r.freed n).atLarge := by
  unfold AgentRec.freed
  split
  · exact toReady_atLarge r n
  · exact toAux_atLarge r _
  · exact toSignedOut_atLarge r
  · exact toSignedOut_atLarge r

theorem atLarge_congr {q r : AgentRec} (same : q.links = r.links) (h : r.atLarge) : q.atLarge := by
  simp only [AgentRec.links, Prod.mk.injEq] at same
  obtain ⟨state, bound, -⟩ := same
  rw [AgentRec.atLarge, state, bound]
  exact h

/-! ### What a change of an agent leaves -/

/-- Agent `a` has come to the links of the record `new`; the calls and all other agents are as they were. -/
structure AgentWritten (s t : State) (a : AgentSlot) (new : AgentRec) : Prop where
  agent : (t.agent a).links = new.links
  others : ∀ b, b ≠ a → t.agent b = s.agent b
  calls : t.calls = s.calls
  clock : t.clock = s.clock

theorem AgentWritten.call {s t : State} {a : AgentSlot} {new : AgentRec} (h : AgentWritten s t a new) (d : CallSlot) :
    t.call d = s.call d := congrArg (Vector.get · d) h.calls

theorem changeAgent_written (s : State) (a : AgentSlot) (new : AgentRec) (quiet : Bool) :
    AgentWritten s (s.changeAgent a new quiet) a new := by
  have rest := (writeAgent_staff s a new).rest
  have agent (b : AgentSlot) := writeAgent_agent s a b new
  unfold State.changeAgent
  dsimp only
  generalize s.writeAgent a new = u at rest agent
  have calls : u.calls = s.calls ∧ u.clock = s.clock := by rw [rest]; exact ⟨rfl, rfl⟩
  split
  · exact ⟨by rw [agent, if_pos rfl], fun b ne => by rw [agent, if_neg ne], calls.1, calls.2⟩
  · have handed := handAgentState_rest u a
    have told (b : AgentSlot) := handAgentState_agent u a b
    refine ⟨?_, fun b ne => ?_, ?_, ?_⟩
    · rw [told, if_pos rfl, agent, if_pos rfl]
      rfl
    · rw [told, if_neg ne, agent, if_neg ne]
    · rw [handed]
      exact calls.1
    · rw [handed]
      exact calls.2

theorem moveAgent_written (s : State) (a : AgentSlot) (new : AgentRec) : AgentWritten s (s.moveAgent a new) a new := by
  have changed := changeAgent_written s a new false
  unfold State.moveAgent State.raiseAgentTrigger
  dsimp only
  generalize s.changeAgent a new = u at changed
  obtain ⟨agent, others, calls, clock⟩ := changed
  repeat' split
  all_goals exact ⟨agent, others, calls, clock⟩

theorem endConnected_written (s : State) (a : AgentSlot) (g : Group) (mark : SampleMark) :
    ∃ new, AgentWritten s (s.endConnected a g mark) a new ∧ new.atLarge := by
  have sampled (u : State) (same : u.agents = s.agents ∧ u.calls = s.calls ∧ u.clock = s.clock) (new : AgentRec) :
      AgentWritten s (u.moveAgent a new) a new := by
    obtain ⟨agent, others, calls, clock⟩ := moveAgent_written u a new
    exact ⟨agent, fun b ne => (others b ne).trans (congrArg (Vector.get · b) same.1), calls.trans same.2.1, clock.trans same.2.2⟩
  unfold State.endConnected
  dsimp only
  split
  · exact ⟨_, changeAgent_written s a _ false, toSignedOut_atLarge _⟩
  · split
    · split
      · exact ⟨_, sampled (s.takeSample g _) ⟨rfl, rfl, rfl⟩ _, freed_atLarge _ _⟩
      · exact ⟨_, moveAgent_written s a _, freed_atLarge _ _⟩
    · exact ⟨_, changeAgent_written s a _ false, rfl, nofun, nofun⟩

namespace LinksBut
variable {x : Apart} {W V : CallSlot → Prop} {s : State} {a : AgentSlot} {c : CallSlot} {r : CallRec} {g : Group}

theorem endConnected (h : LinksBut x W V s) (mine : x.agent = some a) (g : Group) (mark : SampleMark) :
    LinksBut x W V (s.endConnected a g mark) := by
  unfold State.endConnected
  dsimp only
  split
  · exact h.changeAgent mine _ false
  · split
    · split
      · exact (h.links (.takeSample s g _)).moveAgent mine _
      · exact h.moveAgent mine _
    · exact h.changeAgent mine _ false

/-- An agent set apart that has come to be at large is put back. -/
theorem close_agent (h : LinksBut { agent := some a } V V s) (free : (s.agent a).atLarge) : Linked s := by
  refine (h.close (fun _ => rfl) (fun b e => ?_) fun _ _ e => by cases e).linked
  obtain rfl := Option.some.inj e
  exact free

end LinksBut

/-! ### Changes of agents at large -/

namespace Linked
variable {s : State} (h : Linked s)
include h

theorem changeAgent {a : AgentSlot} (before : (s.agent a).boundCall = none) {new : AgentRec} (after : new.atLarge) (quiet : Bool) :
    Linked (s.changeAgent a new quiet) :=
  ((h.apartAgent before).changeAgent rfl new quiet).close_agent (atLarge_congr (changeAgent_written s a new quiet).agent after)

theorem moveAgent {a : AgentSlot} (before : (s.agent a).boundCall = none) {new : AgentRec} (after : new.atLarge) :
    Linked (s.moveAgent a new) :=
  ((h.apartAgent before).moveAgent rfl new).close_agent (atLarge_congr (moveAgent_written s a new).agent after)

theorem endWrap {a : AgentSlot} (wrap : (s.agent a).state = .wrap) (forced : Bool) : Linked (s.endWrap a forced) := by
  have free : (s.agent a).boundCall = none := h.unboundAgent (by rw [wrap]; exact ⟨nofun, nofun⟩)
  have after : AgentRec.atLarge (if forced = true then (s.agent a).toSignedOut else (s.agent a).freed s.clock) := by
    split
    · exact toSignedOut_atLarge _
    · exact freed_atLarge _ _
  unfold State.endWrap
  dsimp only
  split
  · exact (h.congr (.takeSample s _ _)).moveAgent free after
  · exact h.moveAgent free after

theorem expireWrap (a : AgentSlot) : Linked (s.expireWrap a) := by
  unfold State.expireWrap
  split
  next due =>
    simp only [State.wrapDue, Bool.and_eq_true, beq_iff_eq] at due
    exact h.endWrap due.1 false
  next => exact h

theorem recordPending (a : AgentSlot) (p : Pending) : Linked (s.recordPending a p) := h.congr (.setAgent s a _ rfl)

end Linked

/-! ### Ends of offers (R98, R101) -/

/-- The call and the agent of an offer that has been taken from the agent go back: the call to its queue. -/
theorem LinksBut.returnCall {V : CallSlot → Prop} {s : State} {a : AgentSlot} {c : CallSlot} {r : CallRec} {g : Group}
    (h : LinksBut { agent := some a, call := some c, offers := fun i => if g = i then 1 else 0 } V V s) (free : (s.agent a).atLarge)
    (call : s.call c = some r) (on : V c) (b : AgentSlot) (counted : Bool) : Linked (s.returnCall c g b counted) := by
  have requeued : LinksBut { agent := some a, call := some c, offers := fun i => if g = i then 1 else 0 } V V (s.requeue c b counted) :=
    h.modCall rfl _ (fun _ => by rfl) fun _ => by rfl
  obtain ⟨q, now, state, unbound, ring⟩ : ∃ q, (s.requeue c b counted).call c = some q ∧ q.state = .queued ∧ q.boundAgent = none
      ∧ q.ring = none := by
    refine ⟨_, (modCall_call s c c _).trans ((if_pos rfl).trans (congrArg _ call)), rfl, rfl, rfl⟩
  have agent : (s.requeue c b counted).agent a = s.agent a := rfl
  unfold State.returnCall
  generalize s.requeue c b counted = u at requeued now agent
  have ended := requeued.endOffer (fun _ => rfl) rfl
  have closed : LinksBut { swap := some g } V V (u.endOffer g) := by
    refine ended.close (fun _ => rfl) (fun a' e => ?_) fun d k e here => ?_
    · obtain rfl := Option.some.inj e
      exact agent ▸ free
    · obtain rfl := Option.some.inj e
      obtain rfl := Option.some.inj (now.symm.trans here)
      refine ⟨unbound, ring, ?_, ?_, iff_of_true on (.inl state)⟩
      · rw [state]
        nofun
      · rw [state]
        nofun
  generalize u.endOffer g = v at closed
  have moved : LinksBut { swap := some g } V V (v.overflowAtRequeue c counted) := by
    unfold State.overflowAtRequeue
    split
    · exact closed
    · have cleared := closed.links (.modCall v c (fun k => { k with pendingOverflow := false }) fun _ => by exact rfl)
      dsimp only
      split
      · exact cleared.tryOverflow on
      · exact cleared
  exact ((moved.swapIfQuiet rfl fun _ => id).links (.raiseCallTrigger _ c)).linked

namespace Linked
variable {s : State} {a : AgentSlot} {c : CallSlot} {r : CallRec} (h : Linked s)
include h

/-- The call that an OFFERED agent is bound to. -/
theorem offeredCall (offered : (s.agent a).state = .offered) :
    ∃ c r, (s.agent a).boundCall = some c ∧ s.call c = some r ∧ r.boundAgent = some a ∧ r.state = .offered := by
  obtain ⟨c, bound⟩ := Option.ne_none_iff_exists'.mp ((h.ties.tiedAgent a nofun).mpr (.inl offered))
  obtain ⟨r, call, mine⟩ := h.agentBound.mp bound
  exact ⟨c, r, bound, call, mine, (h.ties.states c r a nofun call mine).mpr offered⟩

/-- The call bound to the agent is CONNECTED exactly where the agent is. -/
theorem connectedAgent (call : s.call c = some r) (mine : r.boundAgent = some a) : r.state = .connected ↔ (s.agent a).state = .connected := by
  have offers := h.ties.states c r a nofun call mine
  have bound := (h.ties.tiedCall c r nofun call).bound.mp (by rw [mine]; nofun)
  have bound' := (h.ties.tiedAgent a nofun).mp (by rw [h.agentBound.mpr ⟨r, call, mine⟩]; nofun)
  constructor
  · intro connected
    refine bound'.resolve_left fun offered => ?_
    rw [offers.mpr offered] at connected
    cases connected
  · intro connected
    refine bound.resolve_left fun offered => ?_
    rw [offers.mp offered] at connected
    cases connected

/-- An OFFERED call and its agent, the agent side of the offer ended by the change that `move` makes. -/
theorem returned (call : s.call c = some r) (mine : r.boundAgent = some a) (offered : r.state = .offered) {f : CallRec → CallRec}
    (place : ∀ r, (f r).place = r.place) (hearing : ∀ r, (f r).hearing = r.hearing) {t : State} {new : AgentRec}
    (written : AgentWritten (s.modCall c f) t a new) (free : new.atLarge)
    (moved : ∀ x V, x.agent = some a → LinksBut x V V (s.modCall c f) → LinksBut x V V t) (counted : Bool) :
    Linked (t.returnCall c r.group a counted) := by
  have apart := h.apartPair call mine
  have offers : (fun g => if r.offeredIn g = true then 1 else 0) = fun i => if r.group = i then 1 else 0 := funext fun i => by
    simp [CallRec.offeredIn, offered]
  rw [offers] at apart
  have here : t.call c = some (f r) := by
    rw [written.call, modCall_call, if_pos rfl, call]
    rfl
  exact (moved _ _ rfl (apart.modCall rfl f place hearing)).returnCall (atLarge_congr written.agent free) here ⟨r, call, .inr offered⟩ a counted

theorem ringNoAnswer (call : s.call c = some r) (mine : r.boundAgent = some a) (offered : r.state = .offered) :
    Linked (s.ringNoAnswer c r a) := by
  refine h.returned call mine offered (fun _ => by rfl) (fun _ => by rfl) (moveAgent_written _ a _) ?_
    (fun x V e apart => apart.moveAgent e _) true
  split
  · exact toAux_atLarge _ _
  · exact toReady_atLarge _ _

theorem withdraw (offered : (s.agent a).state = .offered) {new : AgentRec} (free : new.atLarge) (quiet : Bool) :
    Linked (s.withdraw a new quiet) := by
  obtain ⟨c, r, bound, call, mine, state⟩ := h.offeredCall offered
  unfold State.withdraw
  rw [bound]
  dsimp only
  rw [call]
  exact h.returned call mine state (fun _ => by rfl) (fun _ => by rfl) (changeAgent_written _ a new quiet) free
    (fun x V e apart => apart.changeAgent e new quiet) false

theorem expireRing (c : CallSlot) : Linked (s.expireRing c) := by
  unfold State.expireRing
  split
  · exact h
  next r call =>
    split
    next a e offered mine _ =>
      split
      · exact h.ringNoAnswer call mine offered
      · exact h
    next => exact h

theorem tryOverflow (call : s.call c = some r) (waits : r.waits) : Linked (s.tryOverflow c) :=
  (h.but.tryOverflow (c := c) ⟨r, call, waits⟩).linked

theorem expireOverflow (c : CallSlot) : Linked (s.expireOverflow c) := by
  unfold State.expireOverflow
  split
  · exact h
  next r call =>
    split
    · exact h
    · split
      next =>
        have written (f : CallRec → CallRec) (same : ∀ r, (f r).links = r.links) : Linked (s.modCall c f) := h.congr (.modCall s c f same)
        split
        next state =>
          refine (written _ fun _ => by rfl).tryOverflow (r := { r with overflowDue := none }) ?_ (.inl state)
          rw [modCall_call, if_pos rfl, call]
          rfl
        · exact written _ fun _ => by rfl
        · exact written _ fun _ => by rfl
        · exact written _ fun _ => by rfl
      next => exact h

end Linked

end Sys2Proof.Machine

/-! The links of the records through the Distributor, the answer, the hang-up and the freeing of calls (R55, R64 to R67, R81 to R96,
R104 to R107). -/

namespace Sys2Proof.Machine

namespace Linked
variable {s : State} {a : AgentSlot} {c : CallSlot} {r : CallRec} (h : Linked s)
include h

/-! ### Binding (R90) -/

theorem bind (call : s.call c = some r) (queued : r.state = .queued) (ready : (s.agent a).state = .ready) : Linked (s.bind c r a) := by
  have free := h.unboundAgent (a := a) (by rw [ready]; exact ⟨nofun, nofun⟩)
  have unbound := h.unboundCall call (by rw [queued]; exact ⟨nofun, nofun⟩)
  unfold State.bind
  dsimp only
  generalize s.clock + (s.group r.group).active.ringTimeout = second
  have offered := (h.apartBoth free call unbound).modCall rfl
    (fun k => { k with state := .offered, boundAgent := some a, ring := some second }) (fun _ => by rfl) fun _ => by rfl
  have now : (s.modCall c fun k => { k with state := .offered, boundAgent := some a, ring := some second }).call c
      = some { r with state := .offered, boundAgent := some a, ring := some second } := by
    rw [modCall_call, if_pos rfl, call]
    rfl
  generalize (s.modCall c fun k => { k with state := .offered, boundAgent := some a, ring := some second }) = u at offered now
  have counted := offered.raiseOffer (g := r.group) fun _ => rfl
  have now : (u.modGroup r.group fun q => { q with offers := q.offers + 1 }).call c = _ := now
  generalize (u.modGroup r.group fun q => { q with offers := q.offers + 1 }) = v at counted now
  generalize new : ({ s.agent a with state := .offered, boundCall := some c } : AgentRec) = q
  have state : q.state = .offered ∧ q.boundCall = some c := by rw [← new]; exact ⟨rfl, rfl⟩
  have changed := counted.changeAgent (a := a) rfl q false
  have written := changeAgent_written v a q false
  have links := written.agent
  simp only [AgentRec.links, Prod.mk.injEq] at links
  obtain ⟨agentState, bound, -⟩ := links
  refine LinksBut.linked (changed.close_pair rfl rfl ((written.call c).trans now) (fun i => ?_) (bound.trans state.2) rfl ?_ ?_ ?_ ?_)
  · simp [CallRec.offeredIn]
  · rw [AgentRec.tied, bound, agentState, state.1, state.2]
    simp
  · exact ⟨by simp, by simp⟩
  · rw [agentState, state.1]
    exact iff_of_true rfl rfl
  · exact iff_of_true ⟨r, call, .inl queued⟩ (.inr rfl)

theorem generator (x : Word16) : Linked (s.setGenerator x) := h.congr .plain

/-- The agent selected for a call is READY. -/
theorem selected {v : State} (chosen : s.selectAgent r = (some a, v)) : Linked v ∧ v.calls = s.calls ∧ (v.agent a).state = .ready := by
  have eligible : ∃ b, Eligible s r b := by
    by_contra none
    rw [selectAgent_none fun b hb => none ⟨b, hb⟩] at chosen
    cases chosen
  obtain ⟨b, eligible⟩ := eligible
  obtain ⟨a', v', chosen', selected⟩ := selectAgent_some eligible
  rw [chosen] at chosen'
  cases chosen'
  obtain ⟨x, rest⟩ := selected.rest
  rw [rest]
  exact ⟨h.generator x, rfl, selected.eligible.ready⟩

theorem unselected {v : State} (chosen : s.selectAgent r = (none, v)) : Linked v := by
  by_cases eligible : ∃ b, Eligible s r b
  · obtain ⟨b, eligible⟩ := eligible
    obtain ⟨a', v', chosen', -⟩ := selectAgent_some eligible
    rw [chosen] at chosen'
    cases chosen'
  · rw [selectAgent_none fun b hb => eligible ⟨b, hb⟩] at chosen
    cases chosen
    exact h

theorem takeCallTrigger (c : CallSlot) : Linked (s.takeCallTrigger c) := by
  unfold State.takeCallTrigger
  split
  next due =>
    split
    · exact h
    next r call =>
      have queued : r.state = .queued := by
        simp only [State.callEligible, call, Bool.and_eq_true, beq_iff_eq] at due
        exact due.1
      split
      next e => exact h.unselected e
      next e =>
        obtain ⟨linked, calls, ready⟩ := h.selected e
        exact linked.bind ((congrArg (Vector.get · c) calls :).trans call) queued ready
  next => exact h

theorem takeAgentTrigger (a : AgentSlot) : Linked (s.takeAgentTrigger a) := by
  unfold State.takeAgentTrigger
  dsimp only
  split
  next due =>
    split
    · exact h
    next c r best =>
      obtain ⟨-, -, -, call, ⟨queued, -⟩, -⟩ := (mem_candidates s a c r).mp (mostUrgent_some best).1
      exact h.bind call queued due.1
  next => exact h

theorem sweepRounds (n : Nat) : Linked (State.sweepRounds n s) := by
  induction n generalizing s with
  | zero => exact h
  | succ n ih =>
    unfold State.sweepRounds
    split
    · exact h
    next c r best =>
      obtain ⟨⟨g, -, call, ⟨queued, -⟩, -⟩, -⟩ := sweepBest_some best
      split
      next e => exact h.unselected e
      next e =>
        obtain ⟨linked, calls, ready⟩ := h.selected e
        exact ih (linked.bind ((congrArg (Vector.get · c) calls :).trans call) queued ready)

/-! ### Answer and hang-up (R96, R104) -/

theorem connect (call : s.call c = some r) (mine : r.boundAgent = some a) (offered : r.state = .offered) : Linked (s.connect a c r) := by
  have apart := h.apartPair call mine
  have offers : (fun g => if r.offeredIn g = true then 1 else 0) = fun i => if r.group = i then 1 else 0 := funext fun i => by
    simp [CallRec.offeredIn, offered]
  rw [offers] at apart
  unfold State.connect
  dsimp only
  have bound : (s.agent a).boundCall = some c := h.agentBound.mpr ⟨r, call, mine⟩
  have first := apart.modCall rfl
    (fun k => { k with state := .connected, ring := none, talkStart := s.clock, overflowDue := none, pendingOverflow := false })
    (fun _ => by rfl) fun _ => by rfl
  have now : (s.modCall c fun k => { k with state := .connected, ring := none, talkStart := s.clock, overflowDue := none, pendingOverflow := false }).call c
      = some { r with state := .connected, ring := none, talkStart := s.clock, overflowDue := none, pendingOverflow := false } := by
    rw [modCall_call, if_pos rfl, call]
    rfl
  generalize (s.modCall c fun k => { k with state := .connected, ring := none, talkStart := s.clock, overflowDue := none, pendingOverflow := false }) = u at first now
  generalize new : ({ s.agent a with state := .connected, idleSince := 0, answerStart := s.clock } : AgentRec) = q
  have state : q.state = .connected ∧ q.boundCall = some c := by rw [← new]; exact ⟨rfl, bound⟩
  have second := first.writeAgent (a := a) rfl q
  have written := changeAgent_written u a q true
  have calm : u.changeAgent a q true = u.writeAgent a q := rfl
  rw [calm] at written
  have now := (written.call c).trans now
  have links := written.agent
  generalize u.writeAgent a q = v at second now links
  have third := second.endOffer (fun _ => rfl) rfl
  have now : (v.endOffer r.group).call c = _ := now
  have links : ((v.endOffer r.group).agent a).links = _ := links
  generalize v.endOffer r.group = w at third now links
  have fourth := (third.leaveQueue now).links (.modStats _ r.group fun q => { q with answered := bump q.answered })
  obtain ⟨_, _, _, rest⟩ := leaveQueue_rest w c r.group
  have now : ((w.leaveQueue c r.group).modStats r.group fun q => { q with answered := bump q.answered }).call c = _ :=
    (by rw [rest]; rfl : ((w.leaveQueue c r.group).modStats r.group fun q => { q with answered := bump q.answered }).call c = w.call c).trans now
  have links : (((w.leaveQueue c r.group).modStats r.group fun q => { q with answered := bump q.answered }).agent a).links = _ :=
    (by rw [rest]; rfl : (((w.leaveQueue c r.group).modStats r.group fun q => { q with answered := bump q.answered }).agent a).links
      = (w.agent a).links).trans links
  dsimp only at fourth
  generalize (w.leaveQueue c r.group).modStats r.group (fun q => { q with answered := bump q.answered }) = y at fourth now links
  have fifth := fourth.detach rfl now
  have detached := detach_detached now
  generalize y.detach c = z at fifth detached
  have links : (z.agent a).links = _ := (congrArg (fun v : Vector AgentRec 512 => (v.get a).links) detached.frame.2.1 :).trans links
  simp only [AgentRec.links, Prod.mk.injEq] at links
  obtain ⟨agentState, agentBound, -⟩ := links
  have closed := fifth.close_pair rfl rfl detached.call (fun i => ?_) (agentBound.trans state.2) mine ?_ ?_ ?_ ?_
  · have told := ((closed.links (.handAgentState z a)).links (.handCall _ c .connect)).links (.handCall _ c .listen)
    exact (told.swapIfQuiet rfl fun _ => id).linked.arbitrate
  · simp [CallRec.offeredIn]
  · rw [AgentRec.tied, agentBound, agentState, state.1, state.2]
    simp
  · exact ⟨by simp [mine], by simp⟩
  · rw [agentState, state.1]
    exact iff_of_false nofun nofun
  · refine iff_of_false (fun on => on.1 rfl) fun waits => ?_
    rcases waits with e | e
    · cases e
    · cases e

/-- A CONNECTED call and its agent, set apart with the call's side of the tie undone. -/
theorem hangsUp (call : s.call c = some r) (mine : r.boundAgent = some a) (connected : r.state = .connected) (g : Group) (mark : SampleMark) :
    LinksBut { agent := some a, call := some c } s.waits s.waits ((s.modCall c fun k => { k with boundAgent := none }).endConnected a g mark) := by
  have apart := h.apartPair call mine
  have offers : (fun g => if r.offeredIn g = true then 1 else 0) = fun _ => 0 := funext fun i => by
    simp [CallRec.offeredIn, connected]
  rw [offers] at apart
  exact (apart.modCall rfl (fun k => { k with boundAgent := none }) (fun _ => by rfl) fun _ => by rfl).endConnected rfl g mark

theorem hangUp (call : s.call c = some r) (mine : r.boundAgent = some a) (connected : r.state = .connected) : Linked (s.hangUp a c r) := by
  have ended := h.hangsUp call mine connected r.group .keep
  obtain ⟨new, written, free⟩ := endConnected_written (s.modCall c fun k => { k with boundAgent := none }) a r.group .keep
  have now : ((s.modCall c fun k => { k with boundAgent := none }).endConnected a r.group .keep).call c = some { r with boundAgent := none } := by
    rw [written.call, modCall_call, if_pos rfl, call]
    rfl
  have free := atLarge_congr written.agent free
  have ring : r.ring = none := by
    by_contra rings
    rw [(h.ties.tiedCall c r nofun call).ring.mp rings] at connected
    cases connected
  unfold State.hangUp
  dsimp only
  generalize (s.modCall c fun k => { k with boundAgent := none }).endConnected a r.group .keep = u at ended now free
  have cleared := ended.modCall rfl (fun k => { k with state := .clearing }) (fun _ => by rfl) fun _ => by rfl
  have now : (u.modCall c fun k => { k with state := .clearing }).call c = some { r with boundAgent := none, state := .clearing } := by
    rw [modCall_call, if_pos rfl, now]
    rfl
  refine ((cleared.close (fun _ => rfl) (fun b e => ?_) fun d k e here => ?_).links (.handCall _ c .cleared)).linked
  · obtain rfl := Option.some.inj e
    exact free
  · obtain rfl := Option.some.inj e
    obtain rfl := Option.some.inj (now.symm.trans here)
    refine ⟨rfl, ring, nofun, nofun, iff_of_false (fun on => ?_) fun waits => ?_⟩
    · have waits := (waits_iff call).mp on
      rw [CallRec.waits, connected] at waits
      rcases waits with e | e
      · cases e
      · cases e
    · rcases waits with e | e
      · cases e
      · cases e

end Linked

/-! ### Freeing (R55, R64 to R67, R107) -/

theorem freeCall_free (s : State) (c : CallSlot) : (s.freeCall c).call c = none := by
  unfold State.freeCall
  split
  next free => exact free
  next => exact (State.putCall_call ..).trans (if_pos rfl)

/-- A call that has been freed leaves nothing of itself. -/
theorem LinksBut.freed {x : Apart} {W V : CallSlot → Prop} {s : State} {c : CallSlot} {r : CallRec} (h : LinksBut x W V s)
    (mine : x.call = some c) (call : s.call c = some r) (offers : ∀ g, x.offers g = 0)
    (agent : ∀ a, x.agent = some a → ((s.freeCall c).agent a).atLarge) :
    LinksBut { swap := x.swap } (fun d => d ≠ c ∧ W d) (fun d => d ≠ c ∧ V d) (s.freeCall c) :=
  (h.freeCall mine call).close offers agent fun d q e here => by
    obtain rfl := Option.some.inj (mine.symm.trans e)
    rw [freeCall_free] at here
    cases here

end Sys2Proof.Machine

/-! The links of the records through releases, purges, arrivals, definitions of agents and restarts (R5, R26, R55 to R67, R72, R107,
R178, R194, R195). -/

namespace Sys2Proof.Machine

/-! ### Calls freed -/

/-- The call of an offer has been freed and its agent is at large: the offer ends. -/
theorem LinksBut.offerFreed {V : CallSlot → Prop} {s : State} {a : AgentSlot} {c : CallSlot} {g : Group}
    (h : LinksBut { agent := some a, call := some c, offers := fun i => if g = i then 1 else 0 } V V s) (free : s.call c = none)
    (agent : (s.agent a).atLarge) : Linked ((s.endOffer g).swapIfQuiet g) := by
  have ended := h.endOffer (fun _ => rfl) rfl
  refine (LinksBut.swapIfQuiet (x := { swap := some g }) (ended.close (fun _ => rfl) (fun b e => ?_) fun d q e here => ?_) rfl
    fun _ => id).linked
  · obtain rfl := Option.some.inj e
    exact agent
  · obtain rfl := Option.some.inj e
    exact absurd (free.symm.trans here) nofun

namespace Linked
variable {s : State} {a : AgentSlot} {c : CallSlot} {r : CallRec} (h : Linked s)
include h

/-- A call that no agent is bound to. -/
theorem freeUnbound (call : s.call c = some r) (unbound : r.boundAgent = none) : Linked (s.freeCall c) :=
  ((h.apartCall call unbound).freed rfl call (fun _ => rfl) fun _ e => by cases e).linked

/-- An OFFERED call and its agent, set apart with the call's side of the tie undone. -/
theorem offerApart (call : s.call c = some r) (mine : r.boundAgent = some a) (offered : r.state = .offered) :
    LinksBut { agent := some a, call := some c, offers := fun i => if r.group = i then 1 else 0 } s.waits s.waits
      (s.modCall c fun k => { k with boundAgent := none, ring := none }) := by
  have apart := h.apartPair call mine
  have offers : (fun g => if r.offeredIn g = true then 1 else 0) = fun i => if r.group = i then 1 else 0 := funext fun i => by
    simp [CallRec.offeredIn, offered]
  rw [offers] at apart
  exact apart.modCall rfl _ (fun _ => by rfl) fun _ => by rfl

/-- The CONNECTED call of an agent that has been hung up on is freed. -/
theorem freeEnded (call : s.call c = some r) (mine : r.boundAgent = some a) (connected : r.state = .connected) (g : Group) (mark : SampleMark) :
    Linked (((s.modCall c fun k => { k with boundAgent := none }).endConnected a g mark).freeCall c) := by
  obtain ⟨new, written, free⟩ := endConnected_written (s.modCall c fun k => { k with boundAgent := none }) a g mark
  have now : ((s.modCall c fun k => { k with boundAgent := none }).endConnected a g mark).call c = some { r with boundAgent := none } := by
    rw [written.call, modCall_call, if_pos rfl, call]
    rfl
  refine ((h.hangsUp call mine connected g mark).freed rfl now (fun _ => rfl) fun b e => ?_).linked
  obtain rfl := Option.some.inj e
  rw [State.agent, freeCall_agents]
  exact atLarge_congr written.agent free

theorem countAbandoned (g : Group) : Linked (s.countAbandoned g) := h.congr (.modStats s g _)

/-- Neither OFFERED to an agent nor CONNECTED to one, a call is bound to none. -/
theorem unboundElse (call : s.call c = some r) (offered : ∀ a, r.state = .offered → r.boundAgent = some a → False)
    (connected : ∀ a, r.state = .connected → r.boundAgent = some a → False) : r.boundAgent = none := by
  by_contra bound
  obtain ⟨a, mine⟩ := Option.ne_none_iff_exists'.mp bound
  rcases (h.ties.tiedCall c r nofun call).bound.mp bound with state | state
  · exact offered a state mine
  · exact connected a state mine

theorem release (call : s.call c = some r) : Linked (s.release c r) := by
  unfold State.release
  split
  next queued =>
    exact (h.countAbandoned r.group).freeUnbound call (h.unboundCall call (by rw [queued]; exact ⟨nofun, nofun⟩))
  next a offered mine =>
    dsimp only
    have apart := h.offerApart call mine offered
    have now : (s.modCall c fun k => { k with boundAgent := none, ring := none }).call c = some { r with boundAgent := none, ring := none } := by
      rw [modCall_call, if_pos rfl, call]
      rfl
    generalize (s.modCall c fun k => { k with boundAgent := none, ring := none }) = u at apart now
    have written := moveAgent_written u a ((u.agent a).toReady (u.agent a).idleSince)
    have moved := apart.moveAgent rfl ((u.agent a).toReady (u.agent a).idleSince)
    change LinksBut _ _ _ (u.freeAgent a) at moved
    change AgentWritten _ (u.freeAgent a) _ _ at written
    have now := (written.call c).trans now
    have free := atLarge_congr written.agent (toReady_atLarge _ _)
    generalize u.freeAgent a = v at moved now free
    have counted : LinksBut _ _ _ (v.countAbandoned r.group) := moved.links (.modStats v r.group _)
    refine LinksBut.offerFreed (counted.freeCall rfl (r := { r with boundAgent := none, ring := none }) now) (freeCall_free _ c) ?_
    rw [State.agent, freeCall_agents]
    exact free
  next a connected mine => exact h.freeEnded call mine connected r.group .keep
  next queued offered connected =>
    exact h.freeUnbound call (h.unboundElse call (fun a => offered a) fun a => connected a)

/-! ### Purges (R72, R107, R108, R194) -/

theorem purgeOffer (x : Shelf) (call : s.call c = some r) (mine : r.boundAgent = some a) (offered : r.state = .offered) :
    Linked (s.purgeOffer x c r a) := by
  unfold State.purgeOffer
  dsimp only
  have apart := (h.offerApart call mine offered).links (.modStats _ r.group fun q => { q with purged := bump q.purged })
  have now : ((s.modCall c fun k => { k with boundAgent := none, ring := none }).modStats r.group fun q => { q with purged := bump q.purged }).call c
      = some { r with boundAgent := none, ring := none } := by
    refine (modCall_call s c c _).trans ?_
    rw [if_pos rfl, call]
    rfl
  generalize (s.modCall c fun k => { k with boundAgent := none, ring := none }).modStats r.group (fun q => { q with purged := bump q.purged }) = u
    at apart now
  split
  · have written := changeAgent_written (u.freeCall c) a (s.agent a).toSignedOut true
    refine LinksBut.offerFreed ((apart.freeCall rfl now).changeAgent rfl _ true) ?_ (atLarge_congr written.agent (toSignedOut_atLarge _))
    rw [written.call]
    exact freeCall_free u c
  · have written := moveAgent_written u a ((u.agent a).toReady (u.agent a).idleSince)
    have moved := apart.moveAgent rfl ((u.agent a).toReady (u.agent a).idleSince)
    change LinksBut _ _ _ (u.freeAgent a) at moved
    change AgentWritten _ (u.freeAgent a) _ _ at written
    refine LinksBut.offerFreed (moved.freeCall rfl ((written.call c).trans now)) (freeCall_free _ c) ?_
    rw [State.agent, freeCall_agents]
    exact atLarge_congr written.agent (toReady_atLarge _ _)

theorem purgeConnected (x : Shelf) (call : s.call c = some r) (mine : r.boundAgent = some a) (connected : r.state = .connected) :
    Linked (s.purgeConnected x c r a) := by
  unfold State.purgeConnected
  dsimp only
  split
  · have apart := h.apartPair call mine
    have offers : (fun g => if r.offeredIn g = true then 1 else 0) = fun _ => 0 := funext fun i => by
      simp [CallRec.offeredIn, connected]
    rw [offers] at apart
    have changed := (apart.modCall rfl (fun k => { k with boundAgent := none }) (fun _ => by rfl) fun _ => by rfl).changeAgent rfl
      { (s.agent a).toSignedOut with callsHandled := bump (s.agent a).callsHandled } true
    have written := changeAgent_written (s.modCall c fun k => { k with boundAgent := none }) a
      { (s.agent a).toSignedOut with callsHandled := bump (s.agent a).callsHandled } true
    refine (changed.freed rfl (r := { r with boundAgent := none }) ?_ (fun _ => rfl) fun b e => ?_).linked
    · rw [written.call, modCall_call, if_pos rfl, call]
      rfl
    · obtain rfl := Option.some.inj e
      rw [State.agent, freeCall_agents]
      exact atLarge_congr written.agent (toSignedOut_atLarge (s.agent a))
  · exact h.freeEnded call mine connected r.group .drop

theorem purgeCall (x : Shelf) (c : CallSlot) : Linked (State.purgeCall x s c) := by
  unfold State.purgeCall
  split
  · exact h
  next r call =>
    split
    next queued =>
      exact (h.congr (.modStats s r.group fun q => { q with purged := bump q.purged })).freeUnbound call
        (h.unboundCall call (by rw [queued]; exact ⟨nofun, nofun⟩))
    next a offered mine => exact h.purgeOffer x call mine offered
    next a connected mine => exact h.purgeConnected x call mine connected
    next queued offered connected =>
      exact h.freeUnbound call (h.unboundElse call (fun a => offered a) fun a => connected a)

theorem purgeAgent (a : AgentSlot) : Linked (s.purgeAgent a) := by
  have away (state : (s.agent a).state ≠ .offered ∧ (s.agent a).state ≠ .connected) :
      Linked (s.changeAgent a (s.agent a).toSignedOut true) := h.changeAgent (h.unboundAgent state) (toSignedOut_atLarge _) true
  unfold State.purgeAgent
  dsimp only
  split
  · exact h
  next state => exact away (by rw [state]; exact ⟨nofun, nofun⟩)
  next state => exact away (by rw [state]; exact ⟨nofun, nofun⟩)
  next state => exact away (by rw [state]; exact ⟨nofun, nofun⟩)
  next offered => exact h.withdraw offered (toSignedOut_atLarge _) true
  · exact h.recordPending a _

omit h in
theorem foldl {α : Type} {f : State → α → State} (step : ∀ {s : State}, Linked s → ∀ x, Linked (f s x)) {s : State} (h : Linked s)
    (l : List α) : Linked (l.foldl f s) := by
  induction l generalizing s with
  | nil => exact h
  | cons x l ih => exact ih (step h x)

theorem clearPort (x : Shelf) : Linked (s.clearPort x) := by
  unfold State.clearPort
  dsimp only
  refine (h.congr (.modPort s (portOf x) fun r => { r with notices := [], owed := [] })).congr (.of_agents fun a => ?_)
  refine (congrArg AgentRec.links (mapTable_get ..)).trans ?_
  split <;> rfl

theorem purgeShelf (x : Shelf) : Linked (s.purgeShelf x) := by
  have calls : Linked ((s.callsOf x).foldl (State.purgeCall x) s) := foldl (fun h c => h.purgeCall x c) h _
  have agents : Linked ((((s.callsOf x).foldl (State.purgeCall x) s).agentsOf x).foldl State.purgeAgent
    ((s.callsOf x).foldl (State.purgeCall x) s)) := foldl (fun h a => h.purgeAgent a) calls _
  exact ((agents.clearPort x).congr (.raisePurgeDone _)).arbitrate

/-! ### Definitions of agents (R5, R6) -/

/-- An agent's record is written, but for its state and its call. -/
theorem rewriteAgent {new : AgentRec} (state : new.state = (s.agent a).state) (bound : new.boundCall = (s.agent a).boundCall) :
    Linked (s.writeAgent a new) := by
  have written := changeAgent_written s a new true
  change AgentWritten s (s.writeAgent a new) a new at written
  have links := written.agent
  simp only [AgentRec.links, Prod.mk.injEq] at links
  obtain ⟨state', bound', -⟩ := links
  have tied := h.ties.tiedAgent a nofun
  rw [AgentRec.tied, ← bound, ← state, ← bound', ← state'] at tied
  cases mine : (s.agent a).boundCall with
  | none =>
    refine ((h.apartAgent mine).writeAgent rfl new).close_agent ⟨bound'.trans (bound.trans mine), fun e => ?_, fun e => ?_⟩
    · exact tied.mpr (.inl e) (bound'.trans (bound.trans mine))
    · exact tied.mpr (.inr e) (bound'.trans (bound.trans mine))
  | some c =>
    obtain ⟨r, call, theirs⟩ := h.agentBound.mp mine
    refine LinksBut.linked (((h.apartPair call theirs).writeAgent rfl new).close_pair rfl rfl ((written.call c).trans call) (fun _ => rfl)
      (bound'.trans (bound.trans mine)) theirs tied (h.ties.tiedCall c r nofun call) ?_ (waits_iff call))
    rw [state', state]
    exact h.ties.states c r a nofun call theirs

theorem define (ps : List Byte) : Linked (actAgentDefine ps s).state := by
  refine actAgentDefine_lift s ps h (fun a out => ?_) fun a x ks _ _ _ => ?_
  · have removed := h.congr (.removeOwed s (portOf (s.agent a).home) (.agentState a))
    have same : (s.removeOwed (portOf (s.agent a).home) (.agentState a)).agent a = s.agent a := by
      cases (s.agent a).home <;> rfl
    unfold State.undefine
    generalize s.removeOwed (portOf (s.agent a).home) (.agentState a) = u at removed same
    exact removed.changeAgent (new := {}) (removed.unboundAgent (by rw [same, out]; exact ⟨nofun, nofun⟩)) ⟨rfl, by decide, by decide⟩ true
  · have defined : Linked (s.redefine a x ks) := by
      unfold State.redefine
      split
      · exact h.rewriteAgent rfl rfl
      · have removed := h.congr (.removeOwed s (portOf (s.agent a).home) (.agentState a))
        have same : (s.removeOwed (portOf (s.agent a).home) (.agentState a)).agent a = s.agent a := by
          cases (s.agent a).home <;> rfl
        exact removed.rewriteAgent (by rw [same]) (by rw [same])
    exact ⟨defined, fun _ => defined.congr (.raiseAgentTrigger _ a)⟩

/-! ### Arrivals (R56, R59 to R62) -/

/-- What an arriving call hears and is due. -/
theorem startListening (call : s.call c = some r) (queued : r.state = .queued) (silent : r.listen = .silent) (flag : r.onWaitList = false)
    (g : Group) : Linked (s.startListening c g) := by
  have on : s.waits c := ⟨r, call, .inl queued⟩
  have off (j : ChannelNo) : r.listen ≠ .announce j := by rw [silent]; nofun
  have unlisted : ¬s.listed c := fun listed => by
    rw [(h.stage.hear.records c r call).flag.mpr listed] at flag
    cases flag
  have tuned := h.stage.listen (c := c) call on off (musicOf_ne_announce s g)
  obtain ⟨-, set⟩ := setListen_listens h.stage.runs call (s.musicOf g)
  have heard := setListen_play (C := fun _ => True) (W := true) s (c := c) (s.musicOf g) trivial
  unfold State.startListening
  dsimp only
  have now : (s.setListen c (s.musicOf g)).call c = some { r with listen := s.musicOf g } := set.call
  have list : (s.setListen c (s.musicOf g)).waitList = s.waitList := set.waitList
  generalize s.setListen c (s.musicOf g) = u at tuned heard now list
  have told : SameLinks u (if s.musicOf g = .silent then u else u.handCall c .listen) := .ite (.refl u) (.handCall u c .listen)
  have play : PlayMoves (fun _ => True) true s (if s.musicOf g = .silent then u else u.handCall c .listen) := by
    split
    · exact heard
    · exact heard.trans (handListen_play u trivial)
  generalize (if s.musicOf g = .silent then u else u.handCall c .listen) = v at told play
  refine h.offPlayout (play.trans (modCall_play v _ trivial (by exact fun _ => rfl) (by exact fun _ => rfl))).off ?_
  refine (tuned.links told).due _ fun q here => ⟨fun j e => ?_, .inr ⟨on, ?_⟩⟩
  · obtain ⟨k, before, same⟩ := hearing_of_map (told.hearing.calls c) here
    obtain rfl := Option.some.inj (now.symm.trans before)
    exact musicOf_ne_announce s g j ((congrArg Prod.fst same :).symm.trans e)
  · rw [State.listed, told.waitList, list]
    exact unlisted

/-- A fresh record enters a free slot, and the sequence counter moves to a number that no call holds. -/
theorem entered {e : CallRec} (free : s.call c = none) (number : e.seq = s.seqCounter) (queued : e.state = .queued)
    (unbound : e.boundAgent = none) (ring : e.ring = none) (silent : e.listen = .silent) (due : e.nextDue = none)
    (flag : e.onWaitList = false) (n : Nat) (fresh : (s.putCall c (some e)).seqHeld n = false) (named g : Group) (hops : Nat) :
    LinksBut {} (fun d => d ≠ c ∧ s.waits d) (fun d => d = c ∨ s.waits d) (s.entered c e n named g hops) := by
  have calls (d : CallSlot) := entered_call s c e n named g hops d
  have now := (calls c).trans (if_pos rfl)
  have others (d : CallSlot) (ne : d ≠ c) := (calls d).trans (if_neg ne)
  have group (i : Group) := entered_group s c e n named g hops i
  obtain ⟨_, rest⟩ := entered_rest s c e n named g hops
  generalize named' : s.entered c e n named g hops = t at calls now others group rest
  have apart : TiesBut none (some c) (fun _ => 0) t :=
    (h.ties.open_call (c := c) fun r here => by rw [free] at here; cases here).congr ⟨fun a => by rw [rest]; exact ⟨rfl, rfl, rfl⟩,
      fun d ne => by rw [others d fun e => ne (by rw [e])], fun i => by rw [group]; exact ⟨rfl, rfl⟩⟩
  refine ⟨apart.close (fun _ e => by cases e) fun d q same here => ?_,
    h.queues.enter free (fun i => by rw [group]) now others number fun d q here => ?_,
    ⟨(h.stage.hear.other free).enter free now others (by rw [rest]) (fun j => by rw [rest]; rfl) (fun m => by rw [rest]; rfl) silent due flag, ?_⟩,
    fun i _ => by rw [group]; exact h.swaps i, fun d q _ here => ?_⟩
  · obtain rfl := Option.some.inj same
    obtain rfl := Option.some.inj (now.symm.trans here)
    rw [queued]
    exact ⟨unbound, ring, nofun, nofun⟩
  · rw [rest]
    rintro rfl
    have held : (s.putCall c (some e)).seqHeld q.seq = true :=
      (seqHeld_iff _ _).mpr ⟨d, q, (State.putCall_call ..).trans ((calls d).symm.trans here), rfl⟩
    rw [held] at fresh
    cases fresh
  · rw [RunsLegal, runOf_congr (s := s) (by rw [rest]) (by rw [rest])]
    exact h.stage.runs.congr fun k => by rw [rest]; rfl
  · by_cases same : d = c
    · subst same
      obtain rfl := Option.some.inj (now.symm.trans here)
      exact iff_of_true (.inl rfl) (.inl queued)
    · rw [or_iff_right same]
      exact waits_iff ((others d same).symm.trans here)

theorem arrive (free : s.call c = none) (x : Shelf) (tag : Tag) (named g : Group) (priority hops : Nat) :
    Linked (s.arrive c x tag named g priority hops) := by
  unfold State.arrive
  dsimp only
  have numbered := (advanceSeq_next (s.putCall c (some (s.arrivalRecord x tag g priority hops)))
    (n := (s.seqCounter + 1) % Config.wrap32) (Nat.mod_lt _ (by decide))).2
  generalize (s.putCall c (some (s.arrivalRecord x tag g priority hops))).advanceSeq 1024 ((s.seqCounter + 1) % Config.wrap32) = n at numbered
  have entered := h.entered (e := s.arrivalRecord x tag g priority hops) free rfl rfl rfl rfl rfl rfl rfl n numbered named g hops
  have now : (s.entered c (s.arrivalRecord x tag g priority hops) n named g hops).call c = _ := (entered_call ..).trans (if_pos rfl)
  change Linked (State.startListening (State.join (s.entered c (s.arrivalRecord x tag g priority hops) n named g hops) c g) c g)
  generalize s.entered c (s.arrivalRecord x tag g priority hops) n named g hops = u at entered now
  have joined := entered.join (fun out => out.1 rfl) now nofun g
  have linked : Linked (u.join c g) := LinksBut.linked (V := fun d => d = c ∨ s.waits d) (joined.congr_set (fun d _ _ => by
    by_cases same : d = c
    · simp [same]
    · simp [same]) fun _ _ _ => .rfl)
  exact linked.startListening ((join_call now g c).trans (if_pos rfl)) rfl rfl rfl g

end Linked

/-! ### Restart and power-on (R26, R51, R73, R93, R143, R178, R195) -/

theorem restarted_linksLegal (s : State) : LinksLegal s.restarted := by
  have agent (a : AgentSlot) : s.restarted.agent a = (s.agent a).restarted := restarted_agent s a
  have call (c : CallSlot) : s.restarted.call c = none := restarted_call s c
  have group (g : Group) : s.restarted.group g = (s.group g).restarted := restarted_group s g
  have channel (j : ChannelNo) : s.restarted.channel j = none := get_replicate ..
  have source (m : SourceNo) : s.restarted.source m = (s.source m).restarted := mapTable_get ..
  have segment (k : SegmentCode) : s.restarted.segment k = { s.segment k with inUse := 0 } := mapTable_get ..
  have runOf (k : HighwayChannel) : s.restarted.runOf k = none := by
    unfold State.runOf
    split
    · rw [source]
      rfl
    · rw [channel]
      rfl
  have waitList : s.restarted.waitList = [] := rfl
  have staffs (a : AgentSlot) (g : Group) : (s.agent a).restarted.staffs g = false := rfl
  refine ⟨?_, ?_, ?_, ?_⟩
  · constructor <;> simp [agent, call, AgentRec.restarted]
  · constructor <;> simp [group, call, GroupRec.restarted]
  · constructor <;> simp [group, call, agent, segment, source, runOf, staffs, GroupRec.restarted, SourceRec.restarted]
  · constructor <;> simp [call, channel, waitList]

theorem poweredOn_linksLegal (s : State) : LinksLegal s.poweredOn :=
  have h := powerOnValues_poweredOn s
  ⟨h.bindingsLegal, h.queuesLegal, h.countsLegal, h.hearingLegal⟩

end Sys2Proof.Machine

/-! The links of the records through every command: O59. -/

namespace Sys2Proof.Machine

/-! ### FETCH (R188) -/

theorem SameLinks.clearOwed (s : State) (o : OwedPair) : SameLinks s (s.clearOwed o) := by
  cases o with
  | agentState a => exact .setAgent s a _ rfl
  | call c k => exact .modCall s c _ fun r => by cases k <;> rfl
  | watch => exact .setDevice s _

theorem SameLinks.drain (p : Port) (l : List OwedPair) (s : State) : SameLinks s (State.drain p l s) := by
  induction l generalizing s with
  | nil => exact .refl s
  | cons o rest ih =>
    have cleared := (SameLinks.modPort s p fun r => { r with owed := rest }).trans (.clearOwed _ o)
    unfold State.drain
    dsimp only
    split
    · exact cleared.trans (ih _)
    · exact cleared.trans (.pushNotice _ p _)

namespace SameLinks
variable (s : State) (p : Port)

theorem shiftOut (l : List Byte) : SameLinks s (s.shiftOut p l) := modPort s p _
theorem shiftWrite (n : Nat) : SameLinks s (s.shiftWrite p n) := shiftOut s p _
theorem takeSlot : SameLinks s (s.takeSlot p) := modPort s p _
theorem respond (r : Result) (content : List Byte) : SameLinks s (s.respond p r content) := modPort s p _
theorem reject : SameLinks s (s.reject p) := modPort s p _
theorem setLine (l : LineNo) (r : LineRec) : SameLinks s (s.setLine l r) := plain
theorem setClock (n : Nat) : SameLinks s (s.setClock n) := plain
theorem setHighway (v : Vector (Option Byte) 32) : SameLinks s (s.setHighway v) := plain
theorem draw (n : Nat) : SameLinks s (s.draw n) := plain

theorem tick : SameLinks s s.tick := ite (setClock s _) ((setClock s _).trans (draw _ 1))

end SameLinks

namespace Linked
variable {s : State} (h : Linked s) (p : Port) (ps : List Byte)
include h

/-! ### Agent requests -/

theorem goAux (a : AgentSlot) (n : Nat) : Linked (s.goAux a n).state := by
  have moved (state : (s.agent a).state ≠ .offered ∧ (s.agent a).state ≠ .connected) : Linked (s.moveAgent a ((s.agent a).toAux n)) :=
    h.moveAgent (h.unboundAgent state) (toAux_atLarge _ n)
  unfold State.goAux
  dsimp only
  split
  · exact h
  next state =>
    split
    · exact h
    · exact moved (by rw [state]; exact ⟨nofun, nofun⟩)
  next state => exact moved (by rw [state]; exact ⟨nofun, nofun⟩)
  next offered => exact h.withdraw offered (toAux_atLarge _ n) false
  all_goals
    split
    · exact h
    · exact h.recordPending a _

theorem goOut (a : AgentSlot) {engaged : Reply} (done : Linked engaged.state) : Linked (s.goOut a engaged).state := by
  have moved (state : (s.agent a).state ≠ .offered ∧ (s.agent a).state ≠ .connected) : Linked (s.moveAgent a (s.agent a).toSignedOut) :=
    h.moveAgent (h.unboundAgent state) (toSignedOut_atLarge _)
  unfold State.goOut
  dsimp only
  split
  · exact h
  next state => exact moved (by rw [state]; exact ⟨nofun, nofun⟩)
  next state => exact moved (by rw [state]; exact ⟨nofun, nofun⟩)
  next offered => exact h.withdraw offered (toSignedOut_atLarge _) false
  · exact done
  · exact done

theorem actSignIn : Linked (actSignIn p ps s).state := by
  refine asAgent_lift (R := Linked) h fun a => ?_
  split
  next out =>
    exact h.moveAgent (new := { (s.agent a).toAux 0 with callsHandled := 0 }) (h.unboundAgent (by rw [out]; exact ⟨nofun, nofun⟩)) (toAux_atLarge (s.agent a) 0)
  next => exact h

theorem actReady : Linked (actReady p ps s).state := by
  refine asAgent_lift (R := Linked) h fun a => ?_
  dsimp only
  split
  · exact h
  next aux => exact h.moveAgent (h.unboundAgent (by rw [aux]; exact ⟨nofun, nofun⟩)) (toReady_atLarge _ _)
  · exact h
  · exact h
  · split
    · exact h
    · exact h.recordPending a _
  next wrap => exact h.endWrap wrap false

theorem actAux : Linked (actAux p ps s).state := by
  refine asAgent_lift (R := Linked) h fun a => ?_
  split
  · exact h.goAux a _
  · exact h

theorem actForceAux : Linked (actForceAux p ps s).state := by
  refine asAgent_lift (R := Linked) h fun a => ?_
  split
  · exact h.goAux a _
  · exact h

theorem actSignOut : Linked (actSignOut p ps s).state := by
  refine asAgent_lift (R := Linked) h fun a => h.goOut a ?_
  split
  · exact h
  · exact h.recordPending a _

theorem actForceSignOut : Linked (actForceSignOut p ps s).state := by
  refine asAgent_lift (R := Linked) h fun a => h.goOut a ?_
  split_ifs with wrap
  · exact h.endWrap wrap true
  · exact h
  · exact h.recordPending a _

theorem actWrapExtend : Linked (actWrapExtend p ps s).state := by
  refine asAgent_lift (R := Linked) h fun a => ?_
  dsimp only
  split
  · exact h
  split
  · exact h
  dsimp only
  split
  · exact h.congr (.setAgent s a _ rfl)
  · refine h.congr (.trans ?_ (.handAgentState _ a))
    exact .setAgent s a _ rfl

theorem actWrapEnd : Linked (actWrapEnd p ps s).state := by
  refine asAgent_lift (R := Linked) h fun a => ?_
  split
  next wrap => exact h.endWrap wrap false
  next => exact h

/-- The call that is bound to the agent named. -/
theorem named {a : AgentSlot} {st : AgentState} {n : Shelf × Tag} {c : CallSlot} {r : CallRec} (found : s.boundAs a st n = some (c, r)) :
    s.call c = some r ∧ r.boundAgent = some a ∧ (s.agent a).state = st := by
  obtain ⟨state, bound, call, -⟩ := boundAs_some found
  obtain ⟨q, here, mine⟩ := h.agentBound.mp bound
  obtain rfl := Option.some.inj (call.symm.trans here)
  exact ⟨call, mine, state⟩

theorem actAgentAnswer : Linked (actAgentAnswer p ps s).state := by
  refine asAgent_lift (R := Linked) h fun a => ?_
  split
  · exact h
  · split
    · exact h
    next found =>
      obtain ⟨call, mine, state⟩ := h.named found
      dsimp only [Reply.ok]
      exact h.connect call mine ((h.ties.states _ _ a nofun call mine).mpr state)

theorem actAgentNoAnswer : Linked (actAgentNoAnswer p ps s).state := by
  refine asAgent_lift (R := Linked) h fun a => ?_
  split
  · exact h
  · split
    · exact h
    next found =>
      obtain ⟨call, mine, state⟩ := h.named found
      dsimp only [Reply.ok]
      exact h.ringNoAnswer call mine ((h.ties.states _ _ a nofun call mine).mpr state)

theorem actAgentHangup : Linked (actAgentHangup p ps s).state := by
  refine asAgent_lift (R := Linked) h fun a => ?_
  split
  · exact h
  · split
    · exact h
    next found =>
      obtain ⟨call, mine, state⟩ := h.named found
      dsimp only [Reply.ok]
      exact h.hangUp call mine ((h.connectedAgent call mine).mpr state)

/-! ### Group and line requests -/

theorem actGroupStage : Linked (actGroupStage ps s).state := by
  refine asGroup_lift (R := Linked) h fun g => ?_
  split
  · exact h
  next p _ =>
    split
    · exact h
    · exact h.congr (.setGroup s g { s.group g with staged := p.inRange } rfl)

theorem performSwap (g : Group) : Linked (s.performSwap g) := (h.but.performSwap (.inl rfl) fun _ => id).linked

theorem actGroupSwap : Linked (actGroupSwap ps s).state := by
  refine asGroup_lift (R := Linked) h fun g => ?_
  dsimp only
  split
  · exact h
  split
  · exact h.performSwap g
  next offers =>
    have group (i : Group) : (s.setGroup g { s.group g with swapPending := true }).group i
        = if i = g then { s.group g with swapPending := true } else s.group i := State.setGroup_group ..
    have part {α : Type} (f : GroupRec → α) (same : ∀ (q : GroupRec), f { q with swapPending := true } = f q) (i : Group) :
        f ((s.setGroup g { s.group g with swapPending := true }).group i) = f (s.group i) := by
      rw [group]
      split
      next here => rw [here, same]
      next => rfl
    refine ⟨h.ties.congr ⟨fun _ => ⟨rfl, rfl, rfl⟩, fun _ _ => rfl, fun i => ⟨part GroupRec.offers (fun _ => rfl) i,
      part GroupRec.staffed (fun _ => rfl) i⟩⟩, h.queues.congr ⟨part GroupRec.queue fun _ => rfl, fun _ => rfl, rfl⟩,
      h.stage.of_same (fun _ => rfl) rfl rfl rfl rfl, fun i => ?_⟩
    dsimp only
    rw [group]
    split
    next => exact fun _ => offers
    next => exact h.swaps i

theorem actGroupOpen : Linked (actGroupOpen ps s).state :=
  asGroup_lift (R := Linked) h fun g =>
    h.congr ((SameLinks.setGroup s g { s.group g with supervisorClosed := false } rfl).trans (.sweepIfOpened _ s))

theorem actGroupClose : Linked (actGroupClose ps s).state :=
  asGroup_lift (R := Linked) h fun g => h.congr (.setGroup s g { s.group g with supervisorClosed := true } rfl)

theorem actGroupStats : Linked (actGroupStats ps s).state :=
  asGroup_lift (R := Linked) h fun g => h.congr (.modStats s g fun _ => {})

theorem actGroupWatchMask : Linked (actGroupWatchMask ps s).state :=
  asGroup_lift (R := Linked) h fun g =>
    h.congr ((SameLinks.setGroup s g { s.group g with masks := watchBitsOf (u8 ps 1) } rfl).trans
      (.foldl (fun u _ => .ite (.handWatch u) (.refl u)) _ _))

theorem actLineMode : Linked (actLineMode ps s).state := by
  refine asLine_lift (R := Linked) h fun l => ?_
  split
  · exact h
  · exact h.congr (.trans (.setLine s l _) (.sweepIfOpened _ s))

/-! ### Calls -/

theorem actCallArrive : Linked (actCallArrive p ps s).state := by
  unfold Sys2Proof.Machine.actCallArrive
  split
  · exact h
  · dsimp only
    split
    · exact h
    · split
      · exact h
      · split
        · exact h
        · split
          · exact h
          · exact h
          next hfree _ => exact h.arrive (freeSlot_free hfree) _ _ _ _ _ _

theorem actCallRelease : Linked (actCallRelease p ps s).state :=
  asCall_lift (R := Linked) h fun _ _ call => (h.release call).arbitrate

/-! ### The stores and the sources -/

theorem actStoreWrite : Linked (actStoreWrite ps s).state := by
  unfold Sys2Proof.Machine.actStoreWrite
  dsimp only
  split
  · exact h
  · split
    · exact h
    · exact h.congr .plain

theorem actSegmentLoad : Linked (actSegmentLoad ps s).state := by
  refine asSegment_lift (R := Linked) h fun k => ?_
  dsimp only
  split
  · exact h
  · split
    · exact h
    · refine h.congr ⟨fun _ => rfl, fun _ => rfl, fun _ => rfl, rfl, rfl, rfl, rfl, fun i => ?_⟩
      refine (congrArg SegmentRec.inUse (State.setSegment_segment ..)).trans ?_
      split
      next here => rw [here]
      next => rfl

theorem actProgramLoad : Linked (actProgramLoad ps s).state := by
  refine asProgram_lift (R := Linked) h fun n => ?_
  split
  · exact h
  · split
    · exact h
    · dsimp only
      split
      · exact h
      · exact h.congr .plain

theorem actVocabLoad : Linked (actVocabLoad ps s).state := by
  refine asVocab_lift (R := Linked) h fun v => ?_
  dsimp only
  split_ifs
  · exact h.congr .plain
  · exact h.congr .plain
  · exact h

theorem giveProgram (m : SourceNo) (o : Option ProgramNo) : Linked (s.giveProgram m o).state := by
  unfold State.giveProgram
  dsimp only
  split
  · have given := h.setSource m { s.source m with current := o } rfl rfl
    dsimp only [Reply.ok]
    split
    · exact given.startSource m
    · exact given
  · split
    · exact h.setSource m _ rfl rfl
    · exact h.setSource m _ rfl rfl

theorem actSourceSet : Linked (actSourceSet ps s).state := by
  refine asSource_lift (R := Linked) h fun m => ?_
  split
  · exact h
  · exact h.giveProgram m _

theorem actSourceLimit : Linked (actSourceLimit ps s).state :=
  asSource_lift (R := Linked) h fun m => h.setSource m _ rfl rfl

theorem actSlotMap : Linked (actSlotMap ps s).state := by
  unfold Sys2Proof.Machine.actSlotMap
  split
  next k t m _ _ _ =>
    split
    · exact h
    · have mapped : Linked (s.setSlot k t m) := h.congr .plain
      dsimp only [Reply.ok]
      split
      · exact mapped
      · exact mapped.congr (.foldl (fun u c => .handCall u c .listen) _ _)
  · exact h

/-! ### Ports and watch flags -/

theorem actFetch : Linked (actFetch p ps s).state := by
  unfold Sys2Proof.Machine.actFetch
  split
  · exact h
  · exact h.congr (((SameLinks.modPort s p _).trans (.drain p _ _)).trans (.ite (.raiseSweep _) (.refl _)))

theorem actWatchClear : Linked (actWatchClear ps s).state := by
  unfold Sys2Proof.Machine.actWatchClear
  split
  · exact h
  · exact h.congr (.trans (.setDevice s _) (.foldl (fun u g => .setGroup u g { u.group g with flags := (u.group g).flags.without _ } rfl) _ _))

theorem actWatchMask : Linked (actWatchMask ps s).state := by
  unfold Sys2Proof.Machine.actWatchMask
  dsimp only
  split
  · exact h
  · exact h.congr (((SameLinks.setDevice s _).trans (.watchIf _ _)).trans (.watchIf _ _))

theorem actPurgeShelf : Linked (actPurgeShelf ps s).state := by
  unfold Sys2Proof.Machine.actPurgeShelf
  split
  · exact h
  · exact h.purgeShelf _

theorem actPurge : Linked (actPurge p ps s).state := by
  unfold Sys2Proof.Machine.actPurge
  split
  · exact h
  · exact h.purgeShelf _

omit h in
theorem restarted (s : State) : Linked s.restarted := (linksLegal_iff _).mp (restarted_linksLegal s)

theorem act (k : Kind) : Linked (actOf k p ps s).state := by
  by_cases hr : readOnly k = true
  · rw [act_readOnly hr]
    exact h
  cases k <;> try cases hr rfl
  case signIn => exact h.actSignIn p ps
  case ready => exact h.actReady p ps
  case aux => exact h.actAux p ps
  case signOut => exact h.actSignOut p ps
  case wrapExtend => exact h.actWrapExtend p ps
  case wrapEnd => exact h.actWrapEnd p ps
  case agentAnswer => exact h.actAgentAnswer p ps
  case agentNoAnswer => exact h.actAgentNoAnswer p ps
  case agentHangup => exact h.actAgentHangup p ps
  case agentDefine => exact h.define ps
  case forceAux => exact h.actForceAux p ps
  case forceSignOut => exact h.actForceSignOut p ps
  case groupStage => exact h.actGroupStage ps
  case groupSwap => exact h.actGroupSwap ps
  case groupOpen => exact h.actGroupOpen ps
  case groupClose => exact h.actGroupClose ps
  case groupStats => exact h.actGroupStats ps
  case groupWatchMask => exact h.actGroupWatchMask ps
  case lineMode => exact h.actLineMode ps
  case callArrive => exact h.actCallArrive p ps
  case callRelease => exact h.actCallRelease p ps
  case tiebreakSet => exact h.congr .plain
  case storeWrite => exact h.actStoreWrite ps
  case segmentLoad => exact h.actSegmentLoad ps
  case programLoad => exact h.actProgramLoad ps
  case vocabLoad => exact h.actVocabLoad ps
  case sourceSet => exact h.actSourceSet ps
  case sourceLimit => exact h.actSourceLimit ps
  case slotMap => exact h.actSlotMap ps
  case idleByteSet => exact h.congr .plain
  case fetch => exact h.actFetch p ps
  case watchClear => exact h.actWatchClear ps
  case watchMask => exact h.actWatchMask ps
  case purgeShelf => exact h.actPurgeShelf ps
  case purge => exact h.actPurge p ps
  case restart => exact restarted s

/-! ### Transactions and events -/

theorem request {k : Kind} {body : List Byte} : Linked (State.request k p body (actOf k p) s) := by
  have shift : Linked (s.shiftWrite p (1 + body.length)) := h.congr (.shiftWrite s p _)
  unfold State.request
  dsimp only
  split
  · have taken := shift.congr (.takeSlot _ p)
    split
    · exact taken.congr (.respond _ p _ _)
    next ps _ => exact (taken.act p ps k).congr (.respond _ p _ _)
  · exact shift.congr (.reject _ p)

theorem readTransaction (sent : List Byte) : Linked (s.readTransaction p sent) := by
  have shift (l : List Byte) : Linked (s.shiftOut p l) := h.congr (.shiftOut s p l)
  unfold State.readTransaction
  split
  · exact h
  · split
    · exact shift _
    · unfold State.readResponse
      dsimp only
      split
      · split
        · exact ((shift _).congr (.modPort _ p fun q => { q with slot := .idle, response := [] })).congr (.draw _ _)
        · exact shift _
      · exact shift _
    · exact h

theorem rejectRecord (record : List Byte) : Linked (s.rejectRecord p record) := by
  unfold State.rejectRecord
  split
  · exact h
  · exact h.congr (.trans (.shiftWrite s p _) (.reject _ p))

theorem refuseUnknown (record : List Byte) : Linked (s.refuseUnknown p record) := by
  have shift := SameLinks.shiftWrite s p record.length
  unfold State.refuseUnknown
  split
  · dsimp only
    split
    · exact h.congr ((shift.trans (.takeSlot _ p)).trans (.respond _ p _ _))
    · exact h.congr (shift.trans (.reject _ p))
  · exact h

theorem settled : Linked s.settled :=
  foldl (fun h c => h.announce c) (foldl (fun h a => h.expireWrap a) h _) _

theorem advance : Linked s.advance := by
  have taken : Linked s.takeExpiries := foldl (fun h c => h.expireOverflow c) (foldl (fun h c => h.expireRing c) h _) _
  exact taken.congr (((SameLinks.tick _).trans (.foldl (fun u g => .evalWait u g) _ _)).trans (.evalStarved _))

theorem nextFrame : Linked s.nextFrame := by
  have completed : Linked ((List.finRange 24).foldl State.completeRun s) := foldl (fun h k => (h.completeStep k).completeFill k) h _
  unfold State.nextFrame
  dsimp only
  exact foldl (fun h k => h.playFrame k) (completed.congr (.setHighway _ _)) _

theorem seeLevel (l : LineNo) : Linked (s.seeLevel l) := by
  unfold State.seeLevel
  dsimp only
  split
  · exact h
  · exact h.congr (.trans (.setLine s l _) (.sweepIfOpened _ s))

omit h in
theorem of_exec {t u : State} {c : Instr} (run : exec c s = .next t) (same : exec c s = .next u) (done : Linked u) : Linked t := by
  rw [same] at run
  cases run
  exact done

theorem event {t : State} {c : Instr} (e : Event c) (run : exec c s = .next t) : Linked t := by
  have settled := h.settled
  cases e
  case powerOnReset => exact of_exec run rfl ((linksLegal_iff _).mp (poweredOn_linksLegal s))
  case stationClockAdvance => exact of_exec run rfl settled.advance
  case ringTimerExpiry c => exact of_exec run rfl (settled.expireRing c)
  case wrapExpiry a => exact of_exec run rfl (h.expireWrap a)
  case overflowWaitExpiry c => exact of_exec run rfl (settled.expireOverflow c)
  case announcementDue c => exact of_exec run rfl ((foldl (fun h a => h.expireWrap a) h _ : Linked s.wrapsEnded).announce c)
  case serviceLineInputChange l high => exact of_exec run rfl (settled.congr .plain)
  case seenLevelEdge l => exact of_exec run rfl (settled.seeLevel l)
  case highwayFrame => exact of_exec run rfl settled.nextFrame
  case stepComplete k => exact of_exec run rfl (settled.completeStep k)
  case fillComplete k => exact of_exec run rfl (settled.completeFill k)
  case callTrigger c =>
    refine of_exec run rfl ?_
    split
    · exact (settled.congr (.plain : SameLinks _ (s.settled.dropCallTrigger c))).takeCallTrigger c
    · exact settled
  case agentTrigger a =>
    refine of_exec run rfl ?_
    split
    · exact (settled.congr (.plain : SameLinks _ (s.settled.dropAgentTrigger a))).takeAgentTrigger a
    · exact settled
  case sweep =>
    refine of_exec run rfl ?_
    split
    · exact (settled.congr (.plain : SameLinks _ s.settled.dropSweep)).sweepRounds 512
    · exact settled
  case responseRead p sent => exact of_exec run rfl (settled.readTransaction p sent)
  case requestRejected p record => exact of_exec run rfl (settled.rejectRecord p record)
  case unknownRequestKind p record => exact of_exec run rfl (settled.refuseUnknown p record)

theorem exec {t : State} {c : Instr} (run : exec c s = .next t) : Linked t := by
  obtain ⟨k, p, body, rfl⟩ | e := request_or_event c
  · exact of_exec run (exec_command k p body s) (h.settled.request p)
  · exact h.event e run

theorem step {t : State} (run : step s = .next t) : Linked t := by
  unfold Sys2Proof.Machine.step at run
  split at run
  · cases run
    exact h
  next c rest _ => exact (h.congr (.plain : SameLinks s { s with pending := rest })).exec run

end Linked

/-- Settles O59: the ranges by the moves and writes that every step is made of, the links by the parts that each operation keeps
(`Linked`), with what a command has set apart (`LinksBut`) in its midst. -/
theorem everyStepKeepsTheRecordsLegal : Obligations.EveryStepKeepsTheRecordsLegal := by
  unfold Obligations.EveryStepKeepsTheRecordsLegal
  refine ⟨fun s t groups records run => step_groupsLegal_recordsLegal groups records run, fun s t _ _ _ links run => ?_⟩
  exact (linksLegal_iff t).mpr (((linksLegal_iff s).mp links).step run)

end Sys2Proof.Machine

/-! The purge of a shelf (R194): what each piece of its work leaves of the groups, their swaps and their watch conditions. -/

namespace Sys2Proof.Machine

/-! ### The groups' settings, offers and swaps (R34, R36) -/

/-- What a purge leaves of a group's record in any case. -/
def GroupRec.settings (r : GroupRec) : Params × Bool × WatchBits × Option Nat × Nat × Nat :=
  (r.staged, r.supervisorClosed, r.masks, r.average, r.stats.answered, r.stats.abandoned)

/-- From `s` to `t` offers may have ended, and swaps that waited for their end have been performed. -/
structure SwapsFollow (s t : State) : Prop where
  settings : ∀ g, (t.group g).settings = (s.group g).settings
  offers : ∀ g, (t.group g).offers ≤ (s.group g).offers
  swap : ∀ g, ((t.group g).swapPending = (s.group g).swapPending ∧ (t.group g).active = (s.group g).active)
    ∨ ((s.group g).swapPending = true ∧ (t.group g).swapPending = false ∧ (t.group g).offers = 0
      ∧ (t.group g).active = (s.group g).staged)
  sweep : t.sweepWaiting = true ↔ s.sweepWaiting = true ∨ ∃ g, (s.group g).swapPending = true ∧ (t.group g).swapPending = false
  base : SameBase s t

/-- No swap is performed, and only parts of the groups that the swaps do not concern differ. -/
theorem SwapsFollow.of_same {s t : State}
    (h : ∀ g, (t.group g).settings = (s.group g).settings ∧ (t.group g).offers ≤ (s.group g).offers
      ∧ (t.group g).swapPending = (s.group g).swapPending ∧ (t.group g).active = (s.group g).active)
    (sweep : t.sweepWaiting = s.sweepWaiting) (base : SameBase s t) : SwapsFollow s t where
  settings g := (h g).1
  offers g := (h g).2.1
  swap g := .inl (h g).2.2
  sweep := by
    rw [sweep]
    refine ⟨.inl, fun h' => h'.resolve_right ?_⟩
    rintro ⟨g, before, after⟩
    rw [(h g).2.2.1, before] at after
    cases after
  base := base

theorem SwapsFollow.of_groups {s t : State} (groups : t.groups = s.groups) (sweep : t.sweepWaiting = s.sweepWaiting)
    (base : SameBase s t) : SwapsFollow s t := by
  have group (g : Group) : t.group g = s.group g := congrArg (Vector.get · g) groups
  exact .of_same (fun g => by rw [group]; exact ⟨rfl, le_rfl, rfl, rfl⟩) sweep base

theorem SwapsFollow.refl (s : State) : SwapsFollow s s := .of_groups rfl rfl (.refl s)

namespace SwapsFollow

variable {s t u : State}

theorem staged (h : SwapsFollow s t) (g : Group) : (t.group g).staged = (s.group g).staged := congrArg Prod.fst (h.settings g)

theorem pending (h : SwapsFollow s t) {g : Group} (waits : (t.group g).swapPending = true) : (s.group g).swapPending = true := by
  rcases h.swap g with ⟨same, -⟩ | ⟨before, -⟩
  · rwa [← same]
  · exact before

theorem trans (h : SwapsFollow s t) (k : SwapsFollow t u) : SwapsFollow s u where
  settings g := (k.settings g).trans (h.settings g)
  offers g := (k.offers g).trans (h.offers g)
  swap g := by
    rcases k.swap g with ⟨still, active⟩ | ⟨before, after, ended, active⟩
    · rcases h.swap g with ⟨same, old⟩ | ⟨was, gone, none, old⟩
      · exact .inl ⟨still.trans same, active.trans old⟩
      · exact .inr ⟨was, still.trans gone, Nat.le_zero.mp ((k.offers g).trans none.le), active.trans old⟩
    · exact .inr ⟨h.pending before, after, ended, active.trans (h.staged g)⟩
  sweep := by
    rw [k.sweep, h.sweep]
    constructor
    · rintro ((old | ⟨g, was, gone⟩) | ⟨g, was, gone⟩)
      · exact .inl old
      · refine .inr ⟨g, was, Bool.eq_false_of_not_eq_true fun waits => ?_⟩
        rw [k.pending waits] at gone
        cases gone
      · exact .inr ⟨g, h.pending was, gone⟩
    · rintro (old | ⟨g, was, gone⟩)
      · exact .inl (.inl old)
      · cases still : (t.group g).swapPending with
        | false => exact .inl (.inr ⟨g, was, still⟩)
        | true => exact .inr ⟨g, still, gone⟩
  base := h.base.trans k.base

/-- Where no swap has been performed in all, none has been on the way. -/
theorem between (h : SwapsFollow s t) (k : SwapsFollow t u) (same : ∀ g, (u.group g).swapPending = (s.group g).swapPending) (g : Group) :
    (t.group g).swapPending = (s.group g).swapPending ∧ (u.group g).swapPending = (t.group g).swapPending := by
  have first : (t.group g).swapPending = (s.group g).swapPending := by
    cases waits : (s.group g).swapPending with
    | true =>
      rw [← same] at waits
      exact k.pending waits
    | false => exact Bool.eq_false_of_not_eq_true fun after => by rw [h.pending after] at waits; cases waits
  exact ⟨first, (same g).trans first.symm⟩

/-- The active set is as it was, or a swap that waited has made it the staged one. -/
theorem active (h : SwapsFollow s t) (g : Group) : (t.group g).active = (s.group g).active
    ∨ ((s.group g).swapPending = true ∧ (t.group g).active = (s.group g).staged) := by
  rcases h.swap g with ⟨-, same⟩ | ⟨was, -, -, same⟩
  · exact .inl same
  · exact .inr ⟨was, same⟩

end SwapsFollow

theorem SwapSettled.swaps {s t : State} {g : Group} (h : SwapSettled s t g) : SwapsFollow s t := by
  have record (i : Group) (away : ¬(i = g ∧ (s.group g).swapPending = true ∧ (s.group g).offers = 0)) :=
    (h.group i).trans (if_neg away)
  by_cases due : (s.group g).swapPending = true ∧ (s.group g).offers = 0
  · have here := (h.group g).trans (if_pos ⟨rfl, due⟩)
    have else_ (i : Group) (ne : i ≠ g) := record i fun both => ne both.1
    refine ⟨fun i => ?_, fun i => ?_, fun i => ?_, ?_, h.base⟩
    · by_cases same : i = g
      · rw [same, here]; rfl
      · rw [else_ i same]
    · by_cases same : i = g
      · rw [same, here]; rfl
      · rw [else_ i same]
    · by_cases same : i = g
      · rw [same, here]; exact .inr ⟨due.1, rfl, due.2, rfl⟩
      · rw [else_ i same]; exact .inl ⟨rfl, rfl⟩
    · rw [h.sweep, due.1, due.2]
      refine ⟨fun _ => .inr ⟨g, due.1, by rw [here]; rfl⟩, fun _ => Bool.or_true _⟩
  · have group (i : Group) : t.group i = s.group i := record i fun both => due both.2
    refine .of_same (fun i => by rw [group]; exact ⟨rfl, le_rfl, rfl, rfl⟩) ?_ h.base
    have idle : ((s.group g).swapPending && (s.group g).offers == 0) = false :=
      Bool.eq_false_of_not_eq_true fun both => due (by simpa only [Bool.and_eq_true, beq_iff_eq] using both)
    rw [h.sweep, idle, Bool.or_false]

theorem Freed.swaps {s t : State} {c : CallSlot} {r : CallRec} (h : Freed s t c r) : SwapsFollow s t := by
  refine .of_same (fun g => ?_) h.triggers.2.2 h.base
  by_cases same : g = r.group
  · rw [same, h.group]
    exact ⟨rfl, le_rfl, rfl, rfl⟩
  · rw [h.otherGroups g same]
    exact ⟨rfl, le_rfl, rfl, rfl⟩

theorem endOffer_swaps (s : State) (g : Group) : SwapsFollow s (s.endOffer g) := by
  refine .of_same (fun h => ?_) rfl (by constructor <;> rfl)
  rw [endOffer_group]
  refine ⟨rfl, ?_, rfl, rfl⟩
  dsimp only
  split <;> omega

theorem modStats_swaps (s : State) (g : Group) : SwapsFollow s (s.modStats g fun q => { q with purged := bump q.purged }) := by
  refine .of_same (fun h => ?_) rfl (by constructor <;> rfl)
  rw [modStats_group]
  refine ⟨?_, le_rfl, rfl, rfl⟩
  unfold GroupRec.settings
  dsimp only
  split <;> rfl

/-- What follows from agent `a`'s record having become `new`, for the groups and whatever no agent's change touches. -/
structure Restaffed (s t : State) (a : AgentSlot) (new : AgentRec) : Prop where
  others : ∀ b, b ≠ a → t.agent b = s.agent b
  staffed : ∀ g, (t.group g).staffed = staffedAfter (s.agent a) new g (s.group g).staffed
  kept : ∀ g, (s.agent a).staffs g = new.staffs g → t.group g = s.group g
  noStaff : ∀ g, (s.agent a).staffs g ≠ new.staffs g →
    t.group g =
      { s.group g with
        staffed := (t.group g).staffed
        flags :=
          { (s.group g).flags with
            noStaff := (s.group g).flags.noStaff || (t.noStaffHolds g && !(s.group g).conditions.noStaff) }
        conditions := { (s.group g).conditions with noStaff := t.noStaffHolds g } }
  rest : t = s.withRosterOf t

theorem AgentEffect.restaffed {s t : State} {a : AgentSlot} {new : AgentRec} (h : AgentEffect s t a new) : Restaffed s t a new :=
  ⟨h.others, h.staffed, h.kept, h.noStaff, h.rest⟩

theorem AgentRewritten.restaffed {s t : State} {a : AgentSlot} {new : AgentRec} (h : AgentRewritten s t a new) : Restaffed s t a new :=
  ⟨h.others, h.staffed, h.kept, h.noStaff, h.rest⟩

namespace Restaffed

variable {s t : State} {a : AgentSlot} {new : AgentRec} (h : Restaffed s t a new)
include h

theorem call (c : CallSlot) : t.call c = s.call c := by rw [h.rest]; rfl
theorem base : SameBase s t := by rw [h.rest]; constructor <;> rfl
theorem callTriggers : t.callTriggers = s.callTriggers := by rw [h.rest]; rfl
theorem sweepWaiting : t.sweepWaiting = s.sweepWaiting := by rw [h.rest]; rfl
theorem waitList : t.waitList = s.waitList := by rw [h.rest]; rfl

/-- What the change leaves of a group. -/
theorem group (g : Group) : ∃ staffed flag holds, t.group g =
    { s.group g with
      staffed := staffed, flags := { (s.group g).flags with noStaff := flag }
      conditions := { (s.group g).conditions with noStaff := holds } } := by
  by_cases same : (s.agent a).staffs g = new.staffs g
  · exact ⟨_, _, _, h.kept g same⟩
  · exact ⟨_, _, _, h.noStaff g same⟩

theorem queue (g : Group) : (t.group g).queue = (s.group g).queue := by
  obtain ⟨_, _, _, e⟩ := h.group g
  rw [e]

theorem swaps : SwapsFollow s t := by
  refine .of_same (fun g => ?_) h.sweepWaiting h.base
  obtain ⟨_, _, _, e⟩ := h.group g
  rw [e]
  exact ⟨rfl, le_rfl, rfl, rfl⟩

end Restaffed

theorem Attempted.swaps {s t : State} {c : CallSlot} {q : CallRec} {o : Option Group} (h : Attempted s t c q o) : SwapsFollow s t := by
  refine .of_same (fun g => ?_) h.rest.2.2 h.base
  have kept := h.kept g
  refine ⟨?_, ?_, (congrArg GroupRec.swapPending kept :), (congrArg GroupRec.active kept :)⟩
  · have settings := (congrArg GroupRec.settings kept :)
    unfold GroupRec.settings at *
    rw [h.stats g]
    exact settings
  · rw [h.offers g]
    split <;> omega

end Sys2Proof.Machine

/-! The watch conditions through a purge: each is as it was evaluated, and is evaluated anew where what it is made of has changed (R45 to
R49). -/

namespace Sys2Proof.Machine

/-! ### Conditions that agree with what they stand for -/

/-- The condition DEPTH of group `g` is as its queue has it. -/
def State.depthAgrees (s : State) (g : Group) : Prop := (s.group g).conditions.depth = s.depthHolds g

/-- The condition WAIT of group `g` is as its queue has it. -/
def State.waitAgrees (s : State) (g : Group) : Prop := (s.group g).conditions.wait = s.waitHolds g

/-- The condition NO_STAFF of group `g` is as its queue and its staffed count have it. -/
def State.noStaffAgrees (s : State) (g : Group) : Prop := (s.group g).conditions.noStaff = s.noStaffHolds g

/-- From `s` to `t` a condition of group `g` that agreed agrees still, and each agrees where what it is made of has changed. -/
structure Conditioned (s t : State) (g : Group) : Prop where
  depth : s.depthAgrees g → t.depthAgrees g
  wait : s.waitAgrees g → t.waitAgrees g
  noStaff : s.noStaffAgrees g → t.noStaffAgrees g
  queue : (t.group g).queue ≠ (s.group g).queue → t.depthAgrees g ∧ t.waitAgrees g ∧ t.noStaffAgrees g
  swapped : (s.group g).swapPending = true → (t.group g).swapPending = false → t.depthAgrees g ∧ t.waitAgrees g
  staffed : (t.group g).staffed ≠ (s.group g).staffed → t.noStaffAgrees g

namespace Conditioned

variable {s t u : State} {g : Group}

theorem trans (h : Conditioned s t g) (k : Conditioned t u g) : Conditioned s u g where
  depth agrees := k.depth (h.depth agrees)
  wait agrees := k.wait (h.wait agrees)
  noStaff agrees := k.noStaff (h.noStaff agrees)
  queue differs := by
    by_cases later : (u.group g).queue = (t.group g).queue
    · obtain ⟨depth, wait, noStaff⟩ := h.queue (later ▸ differs)
      exact ⟨k.depth depth, k.wait wait, k.noStaff noStaff⟩
    · exact k.queue later
  swapped was gone := by
    cases still : (t.group g).swapPending with
    | true => exact k.swapped still gone
    | false =>
      obtain ⟨depth, wait⟩ := h.swapped was still
      exact ⟨k.depth depth, k.wait wait⟩
  staffed differs := by
    by_cases later : (u.group g).staffed = (t.group g).staffed
    · exact k.noStaff (h.staffed (later ▸ differs))
    · exact k.staffed later

/-- Neither the conditions nor what they are made of have changed. -/
theorem of_same (conditions : (t.group g).conditions = (s.group g).conditions)
    (pending : (t.group g).swapPending = (s.group g).swapPending) (same : SameQueueing s t g) : Conditioned s t g where
  depth agrees := by rw [State.depthAgrees, same.depthHolds, conditions]; exact agrees
  wait agrees := by rw [State.waitAgrees, same.waitHolds, conditions]; exact agrees
  noStaff agrees := by rw [State.noStaffAgrees, same.noStaffHolds, conditions]; exact agrees
  queue differs := absurd same.queue differs
  swapped was gone := by rw [pending, was] at gone; cases gone
  staffed differs := absurd same.staffed differs

/-- The groups and the calls' entry seconds are as they were. -/
theorem of_groups (groups : t.groups = s.groups) (clock : t.clock = s.clock)
    (entries : ∀ c ∈ (s.group g).queue, (t.call c).map CallRec.entry = (s.call c).map CallRec.entry) : Conditioned s t g := by
  have group : t.group g = s.group g := congrArg (Vector.get · g) groups
  exact .of_same (by rw [group]) (by rw [group]) ⟨by rw [group], by rw [group], by rw [group], clock, entries⟩

/-- All three conditions have been evaluated. -/
theorem of_evaluated
    (all : (t.group g).conditions = { depth := t.depthHolds g, wait := t.waitHolds g, noStaff := t.noStaffHolds g }) : Conditioned s t g := by
  have depth : t.depthAgrees g := by rw [State.depthAgrees, all]
  have wait : t.waitAgrees g := by rw [State.waitAgrees, all]
  have noStaff : t.noStaffAgrees g := by rw [State.noStaffAgrees, all]
  exact ⟨fun _ => depth, fun _ => wait, fun _ => noStaff, fun _ => ⟨depth, wait, noStaff⟩, fun _ _ => ⟨depth, wait⟩, fun _ => noStaff⟩

end Conditioned

theorem Freed.conditioned {s t : State} {c : CallSlot} {r : CallRec} (h : Freed s t c r) {g : Group}
    (place : c ∈ (s.group g).queue → g = r.group) : Conditioned s t g := by
  by_cases member : c ∈ (s.group g).queue
  · obtain rfl := place member
    exact .of_evaluated (h.evaluated member).conditions
  · have record : (t.group g) = s.group g := by
      by_cases same : g = r.group
      · subst same
        exact congrArg (Vector.get · r.group) (h.stays member)
      · exact h.otherGroups g same
    refine .of_same (by rw [record]) (by rw [record]) ⟨by rw [record], by rw [record], by rw [record], h.base.clock, fun d here => ?_⟩
    rw [h.others d fun e => member (e ▸ here)]

theorem Restaffed.conditioned {s t : State} {a : AgentSlot} {new : AgentRec} (h : Restaffed s t a new) (g : Group) : Conditioned s t g := by
  by_cases same : (s.agent a).staffs g = new.staffs g
  · have record := h.kept g same
    exact .of_same (by rw [record]) (by rw [record])
      ⟨by rw [record], by rw [record], by rw [record], h.base.clock, fun c _ => by rw [h.call]⟩
  · have record := h.noStaff g same
    have depth : t.depthHolds g = s.depthHolds g := depthHolds_congr (by rw [record]) (by rw [record])
    have wait : t.waitHolds g = s.waitHolds g :=
      waitHolds_congr (by rw [record]) (by rw [record]) h.base.clock fun c _ => by rw [h.call]
    have noStaff : t.noStaffAgrees g := (congrArg (fun k : GroupRec => k.conditions.noStaff) record :)
    refine ⟨fun agrees => ?_, fun agrees => ?_, fun _ => noStaff, fun differs => absurd (h.queue g) differs, fun was gone => ?_,
      fun _ => noStaff⟩
    · rw [State.depthAgrees, depth, record]
      exact agrees
    · rw [State.waitAgrees, wait, record]
      exact agrees
    · rw [record] at gone
      rw [show (s.group g).swapPending = false from gone] at was
      cases was

theorem SwapSettled.conditioned {s t : State} {g : Group} (h : SwapSettled s t g) (i : Group) : Conditioned s t i := by
  by_cases swapped : i = g ∧ (s.group g).swapPending = true ∧ (s.group g).offers = 0
  · obtain ⟨rfl, due⟩ := swapped
    obtain ⟨depth, wait⟩ := h.swapped_holds due
    obtain ⟨holds, still⟩ := h.noStaff i
    refine ⟨fun _ => depth, fun _ => wait, fun agrees => ?_, fun differs => absurd (h.queue i) differs, fun _ _ => ⟨depth, wait⟩,
      fun differs => absurd (h.staffed i) differs⟩
    rw [State.noStaffAgrees, still, holds]
    exact agrees
  · have record := (h.group i).trans (if_neg swapped)
    exact .of_same (by rw [record]) (by rw [record]) (h.unswapped swapped)

theorem endOffer_conditioned (s : State) (g i : Group) : Conditioned s (s.endOffer g) i := by
  have group := endOffer_group s g i
  exact .of_same (by rw [group]) (by rw [group]) ⟨by rw [group], by rw [group], by rw [group], rfl, fun _ _ => rfl⟩

theorem modStats_conditioned (s : State) (g i : Group) (f : Stats → Stats) : Conditioned s (s.modStats g f) i := by
  have group := modStats_group s g i f
  exact .of_same (by rw [group]) (by rw [group]) ⟨by rw [group], by rw [group], by rw [group], rfl, fun _ _ => rfl⟩

theorem putCall_conditioned {s : State} {c : CallSlot} {q r : CallRec} (call : s.call c = some q) (entry : r.entry = q.entry) (i : Group) :
    Conditioned s (s.putCall c (some r)) i := by
  refine .of_groups rfl rfl fun d _ => ?_
  rw [State.putCall_call]
  split
  next same => rw [same, call, Option.map_some, Option.map_some, entry]
  next => rfl

theorem requeued_conditioned {s : State} {c : CallSlot} {q : CallRec} (entry : (s.call c).map CallRec.entry = some q.entry) (i : Group) :
    Conditioned s (s.requeued c q) i := by
  have group := requeued_group s c q i
  exact .of_same (by rw [group]) (by rw [group]) (requeued_queueing s c q i entry)

theorem Overflows.conditioned {s t : State} {c : CallSlot} {r : CallRec} {g : Group} (h : Overflows s t c r g) {i : Group}
    (place : c ∈ (s.group i).queue → i = r.group) : Conditioned s t i := by
  by_cases joins : i = g
  · exact .of_evaluated (joins ▸ h.evaluated_last)
  · by_cases leaves : i = r.group
    · subst leaves
      exact .of_evaluated (h.evaluated_left fun e => joins e.symm).conditions
    · have record := h.elsewhere i joins leaves
      obtain ⟨_, _, _, _, rest⟩ := h.rest
      refine .of_same (by rw [record]) (by rw [record])
        ⟨by rw [record], by rw [record], by rw [record], by rw [rest], fun d here => ?_⟩
      rw [h.others d fun e => leaves (place (e ▸ here))]

/-! ### NO_STAFF that is not met (R49) -/

/-- From `s` to `t` the condition NO_STAFF of group `g`, false before, is false still, and its flag has not been touched. -/
def StaysManned (s t : State) (g : Group) : Prop :=
  (s.group g).conditions.noStaff = false →
    (t.group g).conditions.noStaff = false ∧ (t.group g).flags.noStaff = (s.group g).flags.noStaff

namespace StaysManned

variable {s t u : State} {g : Group}

theorem trans (h : StaysManned s t g) (k : StaysManned t u g) : StaysManned s u g := fun before => by
  obtain ⟨during, same⟩ := h before
  obtain ⟨after, still⟩ := k during
  exact ⟨after, still.trans same⟩

theorem of_same (conditions : (t.group g).conditions.noStaff = (s.group g).conditions.noStaff)
    (flags : (t.group g).flags.noStaff = (s.group g).flags.noStaff) : StaysManned s t g :=
  fun before => ⟨conditions.trans before, flags⟩

end StaysManned

theorem QueueEvaluated.manned {s t : State} {g : Group} (h : QueueEvaluated s t g) (out : t.noStaffHolds g = false) : StaysManned s t g :=
  fun _ => by
  have flags := congrArg WatchBits.noStaff h.flags
  rw [out, Bool.false_and, Bool.or_false] at flags
  rw [h.conditions]
  exact ⟨out, flags⟩

theorem Freed.manned {s t : State} {c : CallSlot} {r : CallRec} (h : Freed s t c r)
    {g : Group} (out : g = r.group → c ∈ (s.group g).queue → t.noStaffHolds g = false) : StaysManned s t g := by
  by_cases same : g = r.group
  · subst same
    by_cases member : c ∈ (s.group r.group).queue
    · exact (h.evaluated member).manned (out rfl member)
    · have record : t.group r.group = s.group r.group := congrArg (Vector.get · r.group) (h.stays member)
      exact .of_same (by rw [record]) (by rw [record])
  · have record := h.otherGroups g same
    exact .of_same (by rw [record]) (by rw [record])

theorem Restaffed.manned {s t : State} {a : AgentSlot} {new : AgentRec} (h : Restaffed s t a new) {g : Group}
    (out : (s.agent a).staffs g ≠ new.staffs g → t.noStaffHolds g = false) : StaysManned s t g := by
  by_cases same : (s.agent a).staffs g = new.staffs g
  · have record := h.kept g same
    exact .of_same (by rw [record]) (by rw [record])
  · have record := h.noStaff g same
    intro _
    rw [record, out same, Bool.false_and, Bool.or_false]
    exact ⟨rfl, rfl⟩

theorem SwapSettled.manned {s t : State} {g : Group} (h : SwapSettled s t g) (i : Group) : StaysManned s t i := by
  refine .of_same (h.noStaff i).2 ?_
  rw [h.group]
  split
  next both => rw [both.1]; rfl
  next => rfl

end Sys2Proof.Machine

/-! The pieces of a purge's work (R194): what each leaves of the calls that it does not concern, of the wait list, the flags and the
ports. -/

namespace Sys2Proof.Machine

/-! ### The ports of the shelves are handed notices and owe pairs -/

/-- From `s` to `t` the notices of the shelves' ports have been added to, and the agents' owed pairs have stayed. -/
def PortsGrow (s t : State) : Prop := ∀ y : Shelf,
  (∃ l : List Notice, (t.port (portOf y)).notices = (s.port (portOf y)).notices ++ l)
    ∧ ∀ a, .agentState a ∈ (s.port (portOf y)).owed → .agentState a ∈ (t.port (portOf y)).owed

theorem PortsGrow.of_same {s t : State} (h : ∀ y, SameQueue s t (portOf y)) : PortsGrow s t :=
  fun y => ⟨⟨[], by rw [(h y).1, List.append_nil]⟩, fun a m => by rw [(h y).2]; exact m⟩

theorem PortsGrow.trans {s t u : State} (h : PortsGrow s t) (k : PortsGrow t u) : PortsGrow s u := fun y => by
  obtain ⟨⟨l, first⟩, owed⟩ := h y
  obtain ⟨⟨m, later⟩, still⟩ := k y
  exact ⟨⟨l ++ m, by rw [later, first, List.append_assoc]⟩, fun a member => still a (owed a member)⟩

theorem pushNotice_grows (s : State) (p : Port) (n : Notice) : PortsGrow s (s.pushNotice p n) := fun y => by
  rw [State.pushNotice, State.modPort_eq, State.setPort_port]
  split
  next e => exact ⟨⟨[n], by rw [e]⟩, fun a m => by rw [e] at m; exact m⟩
  next => exact ⟨⟨[], (List.append_nil _).symm⟩, fun _ => id⟩

theorem appendOwed_grows (s : State) (p : Port) (o : OwedPair) : PortsGrow s (s.appendOwed p o) := fun y => by
  rw [State.appendOwed, State.modPort_eq, State.setPort_port]
  split
  next e => exact ⟨⟨[], by rw [e, List.append_nil]⟩, fun a m => by rw [e] at m; exact List.mem_append_left _ m⟩
  next => exact ⟨⟨[], (List.append_nil _).symm⟩, fun _ => id⟩

theorem removeOwed_grows (s : State) (p : Port) (c : CallSlot) (k : CallNotice) : PortsGrow s (s.removeOwed p (.call c k)) := fun y => by
  rw [removeOwed_lists, State.removeOwed, State.modPort_eq, State.setPort_port]
  refine ⟨⟨[], ?_⟩, fun a m => List.mem_filter.mpr ⟨m, by simp⟩⟩
  split
  next e => rw [e, List.append_nil]
  next => rw [List.append_nil]

theorem setDevice_grows (s : State) (d : DeviceRec) : PortsGrow s (s.setDevice d) := .of_same fun y => by cases y <;> exact ⟨rfl, rfl⟩

theorem portsGrow_full : Full PortsGrow where
  refl _ := .of_same fun _ => ⟨rfl, rfl⟩
  trans := .trans
  plain h := .of_same fun y => by
    rw [SameQueue, State.same_ports h.portA h.portB h.portS (portOf y)]
    exact ⟨rfl, rfl⟩
  agent _ _ _ _ := .of_same fun y => by cases y <;> exact ⟨rfl, rfl⟩
  call _ _ _ _ _ _ := .of_same fun y => by cases y <;> exact ⟨rfl, rfl⟩
  enter _ _ _ _ _ _ _ := .of_same fun y => by cases y <;> exact ⟨rfl, rfl⟩
  device s d _ := setDevice_grows s d
  port s p r notices owed := .of_same fun y => by
    rw [SameQueue, State.setPort_port]
    split
    next e => rw [e]; exact ⟨notices, owed⟩
    next => exact ⟨rfl, rfl⟩
  handWatch s := by
    unfold State.handWatch
    split
    · split
      · exact .of_same fun _ => ⟨rfl, rfl⟩
      · exact pushNotice_grows s .s _
    · split
      · exact .of_same fun _ => ⟨rfl, rfl⟩
      · exact (setDevice_grows s _).trans (appendOwed_grows _ .s _)
  handAgent s a := by
    unfold State.handAgentState
    dsimp only
    split
    · exact pushNotice_grows s _ _
    · split
      · exact .of_same fun _ => ⟨rfl, rfl⟩
      · exact PortsGrow.trans (.of_same fun y => by cases y <;> exact ⟨rfl, rfl⟩) (appendOwed_grows _ _ _)
  handCall s c k := by
    unfold State.handCall
    split
    · exact .of_same fun _ => ⟨rfl, rfl⟩
    · dsimp only
      split
      · split
        · exact .of_same fun _ => ⟨rfl, rfl⟩
        · exact pushNotice_grows s _ _
      · split
        · exact .of_same fun _ => ⟨rfl, rfl⟩
        · exact PortsGrow.trans (.of_same fun y => by cases y <;> exact ⟨rfl, rfl⟩) (appendOwed_grows _ _ _)
  waitList _ _ := .of_same fun y => by cases y <;> exact ⟨rfl, rfl⟩
  channel _ _ _ := .of_same fun y => by cases y <;> exact ⟨rfl, rfl⟩
  free s c r _ :=
    (((removeOwed_grows s _ c .listen).trans (removeOwed_grows _ _ c .connect)).trans (removeOwed_grows _ _ c .cleared)).trans
      (.of_same fun y => by cases y <;> exact ⟨rfl, rfl⟩)

/-! ### Flags -/

theorem FlagsFollow.of_same {s t : State}
    (h : ∀ g, (t.group g).flags = (s.group g).flags ∧ (t.group g).conditions = (s.group g).conditions) : FlagsFollow s t :=
  .of_evaluated fun g => .inl (h g)

theorem FlagsFollow.of_groups {s t : State} (groups : t.groups = s.groups) : FlagsFollow s t := .of_same fun g => by
  have group : t.group g = s.group g := congrArg (Vector.get · g) groups
  rw [group]
  exact ⟨rfl, rfl⟩

theorem Freed.flags {s t : State} {c : CallSlot} {r : CallRec} (h : Freed s t c r) : FlagsFollow s t := .of_evaluated fun g => by
  by_cases same : g = r.group
  · subst same
    by_cases member : c ∈ (s.group r.group).queue
    · exact .inr (h.evaluated member)
    · have record : t.group r.group = s.group r.group := congrArg (Vector.get · r.group) (h.stays member)
      exact .inl (by rw [record]; exact ⟨rfl, rfl⟩)
  · exact .inl (by rw [h.otherGroups g same]; exact ⟨rfl, rfl⟩)

theorem Restaffed.flags {s t : State} {a : AgentSlot} {new : AgentRec} (h : Restaffed s t a new) : FlagsFollow s t := fun g => by
  by_cases same : (s.agent a).staffs g = new.staffs g
  · rw [h.kept g same]
    exact FlagsFollow.refl s g
  · rw [h.noStaff g same]
    exact ⟨(FlagsFollow.refl s g).1, (FlagsFollow.refl s g).2.1, id⟩

/-! ### The pieces -/

/-- A piece of a purge's work that concerns the call `c`, or none: every other call is as it was, but for what it hears where a swap has
been performed. -/
structure PurgePiece (c : Option CallSlot) (s t : State) : Prop where
  swaps : SwapsFollow s t
  calls : ∀ d, some d ≠ c → (t.call d).map CallRec.offPlayout = (s.call d).map CallRec.offPlayout
  heard : (∀ g, (t.group g).swapPending = (s.group g).swapPending) → ∀ d, some d ≠ c → t.call d = s.call d
  waitList : s.waitList = [] → t.waitList = []
  flags : FlagsFollow s t

namespace PurgePiece

variable {s t u : State} {c : Option CallSlot}

theorem refl (s : State) : PurgePiece c s s := ⟨.refl s, fun _ _ => rfl, fun _ _ _ => rfl, id, .refl s⟩

theorem trans (h : PurgePiece c s t) (k : PurgePiece c t u) : PurgePiece c s u where
  swaps := h.swaps.trans k.swaps
  calls d other := (k.calls d other).trans (h.calls d other)
  heard same d other := by
    have between (g : Group) := h.swaps.between k.swaps same g
    exact (k.heard (fun g => (between g).2) d other).trans (h.heard (fun g => (between g).1) d other)
  waitList empty := k.waitList (h.waitList empty)
  flags := h.flags.trans k.flags

/-- A piece that concerns no call concerns a call as well. -/
theorem weaken (h : PurgePiece none s t) (c : Option CallSlot) : PurgePiece c s t :=
  ⟨h.swaps, fun d _ => h.calls d nofun, fun same d _ => h.heard same d nofun, h.waitList, h.flags⟩

/-- The calls are left alone. -/
theorem of_calls (calls : ∀ d, t.call d = s.call d) (waitList : t.waitList = s.waitList) (swaps : SwapsFollow s t) (flags : FlagsFollow s t) :
    PurgePiece c s t :=
  ⟨swaps, fun d _ => by rw [calls], fun _ d _ => calls d, fun empty => waitList.trans empty, flags⟩

end PurgePiece

theorem putCall_piece (s : State) (c : CallSlot) (o : Option CallRec) : PurgePiece (some c) s (s.putCall c o) where
  swaps := .of_groups rfl rfl (by constructor <;> rfl)
  calls d other := by rw [State.putCall_call_of_ne s o fun e => other (by rw [e])]
  heard _ d other := State.putCall_call_of_ne s o fun e => other (by rw [e])
  waitList := id
  flags := .of_groups rfl

theorem modStats_piece (s : State) (g : Group) (c : Option CallSlot) :
    PurgePiece c s (s.modStats g fun q => { q with purged := bump q.purged }) :=
  .of_calls (fun _ => rfl) rfl (modStats_swaps s g) (.of_same fun h => by rw [modStats_group]; exact ⟨rfl, rfl⟩)

theorem endOffer_piece (s : State) (g : Group) (c : Option CallSlot) : PurgePiece c s (s.endOffer g) :=
  .of_calls (fun _ => rfl) rfl (endOffer_swaps s g) (.of_same fun h => by rw [endOffer_group]; exact ⟨rfl, rfl⟩)

theorem Freed.piece {s t : State} {c : CallSlot} {r : CallRec} (h : Freed s t c r) : PurgePiece (some c) s t where
  swaps := h.swaps
  calls d other := by rw [h.others d fun e => other (by rw [e])]
  heard _ d other := h.others d fun e => other (by rw [e])
  waitList empty := by rw [h.waitList, empty]; rfl
  flags := h.flags

theorem Restaffed.piece {s t : State} {a : AgentSlot} {new : AgentRec} (h : Restaffed s t a new) (c : Option CallSlot) : PurgePiece c s t :=
  .of_calls h.call h.waitList h.swaps h.flags

theorem SwapSettled.piece {s t : State} {g : Group} (h : SwapSettled s t g) (c : Option CallSlot) : PurgePiece c s t where
  swaps := h.swaps
  calls d _ := h.calls d
  heard same d _ := by
    have idle : ((s.group g).swapPending && (s.group g).offers == 0) = false := Bool.eq_false_of_not_eq_true fun due => by
      obtain ⟨pending, offers⟩ : (s.group g).swapPending = true ∧ (s.group g).offers = 0 := by
        simpa only [Bool.and_eq_true, beq_iff_eq] using due
      have here := (h.group g).trans (if_pos ⟨rfl, pending, offers⟩)
      have still := same g
      rw [here, pending] at still
      cases still
    rw [h.quiet idle]
  waitList empty := h.rest.2.2.2.1.trans empty
  flags := h.flags

end Sys2Proof.Machine

/-! The purge of a call (R72, R107): what it does to the call, its queue, its group's count and its agent. -/

namespace Sys2Proof.Machine

/-! ### Pieces that leave the queues alone -/

/-- A piece of a purge's work that leaves every queue and the calls' triggers alone. -/
structure SteadyPiece (c : Option CallSlot) (s t : State) : Prop extends PurgePiece c s t where
  queue : ∀ g, (t.group g).queue = (s.group g).queue
  callTriggers : t.callTriggers = s.callTriggers
  conditioned : ∀ g, Conditioned s t g

theorem SteadyPiece.trans {c : Option CallSlot} {s t u : State} (h : SteadyPiece c s t) (k : SteadyPiece c t u) : SteadyPiece c s u :=
  ⟨h.toPurgePiece.trans k.toPurgePiece, fun g => (k.queue g).trans (h.queue g), k.callTriggers.trans h.callTriggers,
    fun g => (h.conditioned g).trans (k.conditioned g)⟩

theorem SteadyPiece.refl (c : Option CallSlot) (s : State) : SteadyPiece c s s :=
  ⟨.refl s, fun _ => rfl, rfl, fun _ => .of_groups rfl rfl fun _ _ => rfl⟩

/-- A call's record is written, but not its entry second. -/
theorem putCall_steady {s : State} {c : CallSlot} {q r : CallRec} (call : s.call c = some q) (entry : r.entry = q.entry) :
    SteadyPiece (some c) s (s.putCall c (some r)) :=
  ⟨putCall_piece s c _, fun _ => rfl, rfl, putCall_conditioned call entry⟩

theorem modStats_steady (s : State) (g : Group) (c : Option CallSlot) :
    SteadyPiece c s (s.modStats g fun q => { q with purged := bump q.purged }) :=
  ⟨modStats_piece s g c, fun h => by rw [modStats_group], rfl, fun h => modStats_conditioned s g h _⟩

theorem endOffer_steady (s : State) (g : Group) (c : Option CallSlot) : SteadyPiece c s (s.endOffer g) :=
  ⟨endOffer_piece s g c, fun h => by rw [endOffer_group], rfl, endOffer_conditioned s g⟩

theorem Restaffed.steady {s t : State} {a : AgentSlot} {new : AgentRec} (h : Restaffed s t a new) (c : Option CallSlot) :
    SteadyPiece c s t := ⟨h.piece c, h.queue, h.callTriggers, h.conditioned⟩

theorem SwapSettled.steady {s t : State} {g : Group} (h : SwapSettled s t g) (c : Option CallSlot) : SteadyPiece c s t :=
  ⟨h.piece c, h.queue, h.rest.2.2.1, h.conditioned⟩

/-- A call of the group stood OFFERED: the offer ends, and the group's swap follows if it waits for that. -/
theorem offerOver_steady (s : State) (g : Group) (c : Option CallSlot) : SteadyPiece c s ((s.endOffer g).swapIfQuiet g) :=
  (endOffer_steady s g c).trans ((swapIfQuiet_settled _ g).steady c)

/-! ### Pieces that leave the agents alone -/

/-- A piece of a purge's work that leaves the agents and their triggers alone and hands the shelves' ports LISTENs alone. -/
structure Aside (s t : State) : Prop where
  agents : t.agents = s.agents
  triggers : t.agentTriggers = s.agentTriggers
  listens : ListensOnly s t
  grows : PortsGrow s t

theorem Aside.trans {s t u : State} (h : Aside s t) (k : Aside t u) : Aside s u :=
  ⟨k.agents.trans h.agents, k.triggers.trans h.triggers, h.listens.trans k.listens, h.grows.trans k.grows⟩

theorem Aside.of_ports {s t : State} (agents : t.agents = s.agents) (triggers : t.agentTriggers = s.agentTriggers)
    (ports : ∀ y, t.port (portOf y) = s.port (portOf y)) : Aside s t :=
  ⟨agents, triggers, .of_same fun y => by rw [ports], .of_same fun y => by rw [SameQueue, ports]; exact ⟨rfl, rfl⟩⟩

theorem Aside.agent {s t : State} (h : Aside s t) (a : AgentSlot) : t.agent a = s.agent a := congrArg (Vector.get · a) h.agents

theorem putCall_aside (s : State) (c : CallSlot) (o : Option CallRec) : Aside s (s.putCall c o) :=
  .of_ports rfl rfl fun y => by cases y <;> rfl

theorem modStats_aside (s : State) (g : Group) (f : Stats → Stats) : Aside s (s.modStats g f) :=
  .of_ports rfl rfl fun y => by cases y <;> rfl

theorem offerOver_aside (s : State) (g : Group) : Aside s ((s.endOffer g).swapIfQuiet g) := by
  have ended : Aside s (s.endOffer g) := .of_ports rfl rfl fun y => by cases y <;> rfl
  have settled := swapIfQuiet_settled (s.endOffer g) g
  exact ended.trans ⟨settled.rest.1, settled.rest.2.1, settled.listens, portsGrow_full.swapIfQuiet _ g⟩

theorem freeCall_aside {s : State} {c : CallSlot} {r : CallRec} (call : s.call c = some r) : Aside s (s.freeCall c) := by
  have freed := freeCall_freed call
  exact ⟨freed.agents, freed.triggers.2.1, .of_same freed.notices, portsGrow_full.freeCall s c⟩

theorem writeAgent_ports (s : State) (a : AgentSlot) (new : AgentRec) (y : Shelf) :
    (s.writeAgent a new).port (portOf y) = s.port (portOf y) := (writeAgent_staff s a new).queues _ (portOf_ne_s y)

/-! ### The statistics that a purge counts -/

/-- The statistics of the groups are as they were. -/
def SameStats (s t : State) : Prop := ∀ g, (t.group g).stats = (s.group g).stats

theorem SameStats.trans {s t u : State} (h : SameStats s t) (k : SameStats t u) : SameStats s u := fun g => (k g).trans (h g)

theorem Freed.stats {s t : State} {c : CallSlot} {r : CallRec} (h : Freed s t c r) : SameStats s t := fun g => by
  by_cases same : g = r.group
  · subst same
    rw [h.group]
  · rw [h.otherGroups g same]

theorem Restaffed.stats {s t : State} {a : AgentSlot} {new : AgentRec} (h : Restaffed s t a new) : SameStats s t := fun g => by
  obtain ⟨_, _, _, e⟩ := h.group g
  rw [e]

theorem SwapSettled.stats {s t : State} {g : Group} (h : SwapSettled s t g) : SameStats s t := fun i => by
  rw [h.group]
  split
  next both => rw [both.1]; rfl
  next => rfl

theorem offerOver_stats (s : State) (g : Group) : SameStats s ((s.endOffer g).swapIfQuiet g) := by
  have ended : SameStats s (s.endOffer g) := fun h => by rw [endOffer_group]
  exact ended.trans (swapIfQuiet_settled (s.endOffer g) g).stats

/-! ### The purge of a call -/

/-- The call is OFFERED or CONNECTED to agent `a`. -/
def CallRec.bindsTo (r : CallRec) (a : AgentSlot) : Prop := r.boundAgent = some a ∧ (r.state = .offered ∨ r.state = .connected)

/-- The call counts as purged at its group (R72). -/
def CallRec.countsPurged (r : CallRec) : Bool := r.state == .queued || (r.state == .offered && r.boundAgent.isSome)

/-- The record that the purge of shelf `x` leaves an agent with, whose call `r` it frees (R27, R28, R107). -/
def AgentRec.bereft (ag : AgentRec) (s : State) (x : Shelf) (r : CallRec) : AgentRec :=
  if ag.home = x then
    { ag.unbound .signedOut 0 0 with
      callsHandled := if r.state = .connected then min 65535 (ag.callsHandled + 1) else ag.callsHandled }
  else if r.state = .connected then ag.afterCall s r.group .drop
  else ag.unbound .ready 0 ag.idleSince

/-- Agent `a` has lost its call and its record is now `new`: its AGENT_STATE has been placed or is owed, with only LISTENs behind it, and it
has raised its trigger if it is READY. -/
structure Bereaved (s t : State) (a : AgentSlot) (new : AgentRec) : Prop where
  record : t.agent a = { new with owed := new.owed || !s.hasRoom (portOf new.home) }
  notice : ∃ l : List Notice, (∀ n ∈ l, ∃ tag slot, n = .listen tag slot) ∧
    (t.port (portOf new.home)).notices =
      (if s.hasRoom (portOf new.home) then (s.port (portOf new.home)).notices ++ [s.stateNotice a new]
      else (s.port (portOf new.home)).notices) ++ l
  owed : s.hasRoom (portOf new.home) = false → new.owed = false → .agentState a ∈ (t.port (portOf new.home)).owed
  trigger : t.agentTriggers = if new.state = .ready ∧ a ∉ s.agentTriggers then s.agentTriggers ++ [a] else s.agentTriggers

/-- The call `c`, of record `r`, of the shelf `x` that is purged, has been freed. -/
structure CallPurged (s t : State) (x : Shelf) (c : CallSlot) (r : CallRec) : Prop extends PurgePiece (some c) s t where
  free : t.call c = none
  queue : ∀ g, (t.group g).queue = if g = r.group then (s.group g).queue.filter (· != c) else (s.group g).queue
  purged : ∀ g, (t.group g).stats.purged =
    if g = r.group ∧ r.countsPurged = true then min 65535 ((s.group g).stats.purged + 1) else (s.group g).stats.purged
  callTriggers : t.callTriggers = s.callTriggers
  conditioned : (∀ g, c ∈ (s.group g).queue → g = r.group) → ∀ g, Conditioned s t g
  agents : ∀ b, ¬r.bindsTo b → t.agent b = s.agent b
  homed : ∀ a, r.bindsTo a → (s.agent a).home = x → t.agent a = (s.agent a).bereft s x r
  bereaved : ∀ a, r.bindsTo a → (s.agent a).home ≠ x → Bereaved s t a ((s.agent a).bereft s x r)
  plain : (∀ a, r.bindsTo a → (s.agent a).home = x) → t.agentTriggers = s.agentTriggers ∧ ListensOnly s t

section
variable {s u v t : State} {x : Shelf} {c : CallSlot} {r k : CallRec} {a : AgentSlot}

/-- The call's part of its purge: what comes before the freeing, the freeing, and what follows it. -/
structure PurgeFlow (s t : State) (c : CallSlot) (r : CallRec) : Prop extends PurgePiece (some c) s t where
  free : t.call c = none
  queue : ∀ g, (t.group g).queue = if g = r.group then (s.group g).queue.filter (· != c) else (s.group g).queue
  callTriggers : t.callTriggers = s.callTriggers
  conditioned : (∀ g, c ∈ (s.group g).queue → g = r.group) → ∀ g, Conditioned s t g

theorem PurgeFlow.of_freed (before : SteadyPiece (some c) s u) (freed : Freed u v c k) (group : k.group = r.group)
    (after : SteadyPiece none v t) : PurgeFlow s t c r where
  toPurgePiece := (before.toPurgePiece.trans freed.piece).trans (after.toPurgePiece.weaken _)
  free := by
    have gone := after.calls c nofun
    rwa [freed.free, Option.map_none, Option.map_eq_none_iff] at gone
  queue g := by
    rw [after.queue, ← before.queue g, ← group]
    split
    next same => rw [same, freed.group]
    next ne => rw [freed.otherGroups g ne]
  callTriggers := after.callTriggers.trans (freed.triggers.1.trans before.callTriggers)
  conditioned place g := by
    refine ((before.conditioned g).trans (freed.conditioned fun member => ?_)).trans (after.conditioned g)
    rw [before.queue] at member
    exact (place g member).trans group.symm

/-! ### The agent's part -/

theorem Bereaved.of_change {w : State} {new : AgentRec} (ports : ∀ y, w.port (portOf y) = s.port (portOf y))
    (triggers : w.agentTriggers = s.agentTriggers) (clock : w.clock = s.clock) (unbound : new.boundCall = none)
    (change : AgentChange w u a new) (after : Aside u t) : Bereaved s t a new := by
  have room : w.hasRoom (portOf new.home) = s.hasRoom (portOf new.home) := hasRoom_congr (by rw [ports])
  have notice : w.stateNotice a new = s.stateNotice a new := by
    simp only [State.stateNotice, unbound, Option.bind_none, clock]
  obtain ⟨l, listens, placed⟩ := after.listens new.home
  have handed := change.notice
  have owes := change.owed
  have record := change.record
  rw [Handed, room, notice, ports] at handed
  rw [room, ports] at owes
  rw [room] at record
  refine ⟨(after.agent a).trans record, ⟨l, listens, by rw [placed, handed]⟩, fun full clear => ?_, ?_⟩
  · refine (after.grows new.home).2 a ?_
    rw [owes, full, clear]
    exact List.mem_append_right _ (List.mem_singleton_self _)
  · rw [after.triggers, change.trigger, triggers]

theorem bereft_home (ag : AgentRec) (s : State) (x : Shelf) (r : CallRec) : (ag.bereft s x r).home = ag.home := by
  unfold AgentRec.bereft AgentRec.afterCall AgentRec.afterPending
  dsimp only
  repeat' split
  all_goals rfl

theorem bereft_owed (ag : AgentRec) (s : State) (x : Shelf) (r : CallRec) : (ag.bereft s x r).owed = ag.owed := by
  unfold AgentRec.bereft AgentRec.afterCall AgentRec.afterPending
  dsimp only
  repeat' split
  all_goals rfl

theorem bereft_boundCall (ag : AgentRec) (s : State) (x : Shelf) (r : CallRec) : (ag.bereft s x r).boundCall = none := by
  unfold AgentRec.bereft AgentRec.afterCall AgentRec.afterPending
  dsimp only
  repeat' split
  all_goals rfl

/-- No agent is bound to the call. -/
theorem CallPurged.of_aside (flow : PurgeFlow s t c r)
    (purged : ∀ g, (t.group g).stats.purged =
      if g = r.group ∧ r.countsPurged = true then min 65535 ((s.group g).stats.purged + 1) else (s.group g).stats.purged)
    (aside : Aside s t) (free : ∀ a, ¬r.bindsTo a) : CallPurged s t x c r where
  toPurgePiece := flow.toPurgePiece
  free := flow.free
  queue := flow.queue
  purged := purged
  callTriggers := flow.callTriggers
  conditioned := flow.conditioned
  agents b _ := aside.agent b
  homed a bound := absurd bound (free a)
  bereaved a bound := absurd bound (free a)
  plain _ := ⟨aside.triggers, aside.listens⟩

/-- The call's agent, homed on the purged shelf, has been signed out without a notice. -/
theorem CallPurged.of_homed (flow : PurgeFlow s t c r)
    (purged : ∀ g, (t.group g).stats.purged =
      if g = r.group ∧ r.countsPurged = true then min 65535 ((s.group g).stats.purged + 1) else (s.group g).stats.purged)
    (bound : r.bindsTo a) (home : (s.agent a).home = x) (record : t.agent a = (s.agent a).bereft s x r)
    (others : ∀ b, b ≠ a → t.agent b = s.agent b) (triggers : t.agentTriggers = s.agentTriggers) (listens : ListensOnly s t) :
    CallPurged s t x c r where
  toPurgePiece := flow.toPurgePiece
  free := flow.free
  queue := flow.queue
  purged := purged
  callTriggers := flow.callTriggers
  conditioned := flow.conditioned
  agents b free := others b fun e => free (e ▸ bound)
  homed b also _ := by
    obtain rfl := Option.some.inj (bound.1.symm.trans also.1)
    exact record
  bereaved b also away := by
    obtain rfl := Option.some.inj (bound.1.symm.trans also.1)
    exact absurd home away
  plain _ := ⟨triggers, listens⟩

/-- The call's agent, of the other shelf, has moved on with a notice. -/
theorem CallPurged.of_moved (flow : PurgeFlow s t c r)
    (purged : ∀ g, (t.group g).stats.purged =
      if g = r.group ∧ r.countsPurged = true then min 65535 ((s.group g).stats.purged + 1) else (s.group g).stats.purged)
    (bound : r.bindsTo a) (away : (s.agent a).home ≠ x) (bereaved : Bereaved s t a ((s.agent a).bereft s x r))
    (others : ∀ b, b ≠ a → t.agent b = s.agent b) : CallPurged s t x c r where
  toPurgePiece := flow.toPurgePiece
  free := flow.free
  queue := flow.queue
  purged := purged
  callTriggers := flow.callTriggers
  conditioned := flow.conditioned
  agents b free := others b fun e => free (e ▸ bound)
  homed b also home := by
    obtain rfl := Option.some.inj (bound.1.symm.trans also.1)
    exact absurd home away
  bereaved b also _ := by
    obtain rfl := Option.some.inj (bound.1.symm.trans also.1)
    exact bereaved
  plain homed := absurd (homed a bound) away

end

/-! ### The purge of a call, by its state -/

section
variable {s : State} {x : Shelf} {c : CallSlot} {r : CallRec} {a : AgentSlot}

theorem purgeCall_queued (call : s.call c = some r) (queued : r.state = .queued) : State.purgeCall x s c =
    (s.modStats r.group fun q => { q with purged := bump q.purged }).freeCall c := by
  rw [State.purgeCall, call]
  dsimp only
  rw [queued]

theorem purgeCall_offered (call : s.call c = some r) (offered : r.state = .offered) (bound : r.boundAgent = some a) :
    State.purgeCall x s c = s.purgeOffer x c r a := by
  rw [State.purgeCall, call]
  dsimp only
  rw [offered, bound]

theorem purgeCall_connected (call : s.call c = some r) (connected : r.state = .connected) (bound : r.boundAgent = some a) :
    State.purgeCall x s c = s.purgeConnected x c r a := by
  rw [State.purgeCall, call]
  dsimp only
  rw [connected, bound]

/-- Neither QUEUED nor bound to an agent in an offer or a talk, a call is just freed. -/
theorem purgeCall_else (call : s.call c = some r) (queued : r.state ≠ .queued) (free : ∀ a, ¬r.bindsTo a) :
    State.purgeCall x s c = s.freeCall c := by
  rw [State.purgeCall, call]
  dsimp only
  split
  next now => exact absurd now queued
  next a now bound => exact absurd ⟨bound, .inl now⟩ (free a)
  next a now bound => exact absurd ⟨bound, .inr now⟩ (free a)
  next => rfl

theorem modStats_purged (s : State) (f g : Group) :
    ((s.modStats f fun q => { q with purged := bump q.purged }).group g).stats.purged =
      if g = f then min 65535 ((s.group g).stats.purged + 1) else (s.group g).stats.purged := by
  rw [modStats_group]
  dsimp only
  split
  · rfl
  · rfl

theorem purged_queued (call : s.call c = some r) (queued : r.state = .queued) : CallPurged s (State.purgeCall x s c) x c r := by
  rw [purgeCall_queued call queued]
  have freed : Freed (s.modStats r.group fun q => { q with purged := bump q.purged }) _ c r := freeCall_freed call
  have counts : r.countsPurged = true := by rw [CallRec.countsPurged, queued]; rfl
  refine .of_aside (.of_freed (modStats_steady s r.group _) freed rfl (.refl _ _)) (fun g => ?_)
    ((modStats_aside s r.group _).trans (freeCall_aside call)) fun b bound => ?_
  · rw [freed.stats g, modStats_purged]
    simp only [counts, and_true]
  · have state := bound.2
    rw [queued] at state
    rcases state with state | state <;> cases state

theorem purged_else (call : s.call c = some r) (queued : r.state ≠ .queued) (free : ∀ a, ¬r.bindsTo a) :
    CallPurged s (State.purgeCall x s c) x c r := by
  rw [purgeCall_else call queued free]
  have freed := freeCall_freed call
  have counts : r.countsPurged = false := by
    cases bound : r.boundAgent with
    | none => simp [CallRec.countsPurged, queued, bound]
    | some a =>
      have away : r.state ≠ .offered := fun offered => free a ⟨bound, .inl offered⟩
      simp [CallRec.countsPurged, queued, away]
  refine .of_aside (.of_freed (.refl _ _) freed rfl (.refl _ _)) (fun g => ?_) (freeCall_aside call) free
  rw [freed.stats g, counts, if_neg (fun both => Bool.false_ne_true both.2)]

/-- An offer's call, unbound and counted. -/
def State.purgedOffer (s : State) (c : CallSlot) (r : CallRec) : State :=
  (s.putCall c (some { r with boundAgent := none, ring := none })).modStats r.group fun q => { q with purged := bump q.purged }

theorem purgedOffer_call (s : State) (c : CallSlot) (r : CallRec) :
    (s.purgedOffer c r).call c = some { r with boundAgent := none, ring := none } := State.putCall_call_self ..

theorem purgedOffer_steady (call : s.call c = some r) : SteadyPiece (some c) s (s.purgedOffer c r) :=
  (putCall_steady (r := { r with boundAgent := none, ring := none }) call rfl).trans (modStats_steady _ r.group _)

theorem purgedOffer_aside (s : State) (c : CallSlot) (r : CallRec) : Aside s (s.purgedOffer c r) :=
  (putCall_aside s c _).trans (modStats_aside _ _ _)

theorem purgedOffer_purged (s : State) (c : CallSlot) (r : CallRec) (g : Group) : ((s.purgedOffer c r).group g).stats.purged =
    if g = r.group then min 65535 ((s.group g).stats.purged + 1) else (s.group g).stats.purged := modStats_purged _ r.group g

theorem purgeOffer_homed (call : s.call c = some r) (home : (s.agent a).home = x) : s.purgeOffer x c r a =
    ((((s.purgedOffer c r).freeCall c).writeAgent a ((s.agent a).unbound .signedOut 0 0)).endOffer r.group).swapIfQuiet r.group := by
  rw [State.purgeOffer, modCall_some call]
  rw [if_pos home]
  rfl

theorem purgeOffer_away (call : s.call c = some r) (away : (s.agent a).home ≠ x) : s.purgeOffer x c r a =
    ((((s.purgedOffer c r).moveAgent a ((s.agent a).unbound .ready 0 (s.agent a).idleSince)).freeCall c).endOffer r.group).swapIfQuiet
      r.group := by
  rw [State.purgeOffer, modCall_some call]
  rw [if_neg away]
  rfl

theorem purged_offered (call : s.call c = some r) (offered : r.state = .offered) (bound : r.boundAgent = some a) :
    CallPurged s (State.purgeCall x s c) x c r := by
  have binds : r.bindsTo a := ⟨bound, .inl offered⟩
  have counts : r.countsPurged = true := by simp [CallRec.countsPurged, offered, bound]
  have steady := purgedOffer_steady call
  have aside := purgedOffer_aside s c r
  have here := purgedOffer_call s c r
  have count := purgedOffer_purged s c r
  have ports (y : Shelf) : (s.purgedOffer c r).port (portOf y) = s.port (portOf y) := by cases y <;> rfl
  rw [purgeCall_offered call offered bound]
  by_cases home : (s.agent a).home = x
  · have new : (s.agent a).bereft s x r = (s.agent a).unbound .signedOut 0 0 := by
      rw [AgentRec.bereft, if_pos home, offered]
      rfl
    rw [purgeOffer_homed call home]
    generalize s.purgedOffer c r = u at *
    have freed := freeCall_freed here
    have freeAside := freeCall_aside here
    generalize u.freeCall c = v at *
    have written := writeAgent_rewritten v a ((s.agent a).unbound .signedOut 0 0)
    have triggers := writeAgent_triggers v a ((s.agent a).unbound .signedOut 0 0)
    have still := writeAgent_ports v a ((s.agent a).unbound .signedOut 0 0)
    generalize v.writeAgent a ((s.agent a).unbound .signedOut 0 0) = w at *
    have ends := offerOver_aside w r.group
    have stats := offerOver_stats w r.group
    have last := offerOver_steady w r.group none
    have listens : ListensOnly v w := .of_same fun y => by rw [still]
    refine .of_homed (.of_freed steady freed rfl ((written.restaffed.steady none).trans last)) (fun g => ?_) binds home ?_
      (fun b ne => ?_) ?_ (((aside.listens.trans freeAside.listens).trans listens).trans ends.listens)
    · rw [stats, written.restaffed.stats, freed.stats, count]
      simp only [counts, and_true]
    · rw [ends.agent, written.record, new]
    · rw [ends.agent, written.others b ne, freeAside.agent, aside.agent]
    · rw [ends.triggers, triggers, freeAside.triggers, aside.triggers]
  · have new : (s.agent a).bereft s x r = (s.agent a).unbound .ready 0 (s.agent a).idleSince := by
      rw [AgentRec.bereft, if_neg home, offered]
      rfl
    rw [purgeOffer_away call home]
    have change := moveAgent_change (s.purgedOffer c r) a ((s.agent a).unbound .ready 0 (s.agent a).idleSince)
    have clock := steady.swaps.base.clock
    generalize s.purgedOffer c r = u at *
    generalize u.moveAgent a ((s.agent a).unbound .ready 0 (s.agent a).idleSince) = v at *
    have still := change.toAgentEffect.restaffed
    have there := (still.call c).trans here
    have freed := freeCall_freed there
    have freeAside := freeCall_aside there
    generalize v.freeCall c = w at *
    have ends := offerOver_aside w r.group
    have stats := offerOver_stats w r.group
    have last := offerOver_steady w r.group none
    refine .of_moved (.of_freed (steady.trans (still.steady _)) freed rfl last) (fun g => ?_) binds home ?_ fun b ne => ?_
    · rw [stats, freed.stats, still.stats, count]
      simp only [counts, and_true]
    · rw [new]
      exact .of_change ports aside.triggers clock rfl change (freeAside.trans ends)
    · rw [ends.agent, freeAside.agent, change.others b ne, aside.agent]

theorem purgeConnected_homed (call : s.call c = some r) (home : (s.agent a).home = x) : s.purgeConnected x c r a =
    ((s.putCall c (some { r with boundAgent := none })).writeAgent a
      { (s.agent a).unbound .signedOut 0 0 with callsHandled := min 65535 ((s.agent a).callsHandled + 1) }).freeCall c := by
  rw [State.purgeConnected, modCall_some call]
  dsimp only
  rw [if_pos home]
  rfl

theorem purgeConnected_away (call : s.call c = some r) (away : (s.agent a).home ≠ x) : s.purgeConnected x c r a =
    ((s.putCall c (some { r with boundAgent := none })).moveAgent a ((s.agent a).afterCall s r.group .drop)).freeCall c := by
  have unsampled : (s.putCall c (some { r with boundAgent := none })).withCallSample a r.group .drop =
    s.putCall c (some { r with boundAgent := none }) := if_neg fun all => by cases all.2.2
  rw [State.purgeConnected, modCall_some call]
  dsimp only
  rw [if_neg away, endConnected_eq, unsampled]
  rfl

theorem purged_connected (call : s.call c = some r) (connected : r.state = .connected) (bound : r.boundAgent = some a) :
    CallPurged s (State.purgeCall x s c) x c r := by
  have binds : r.bindsTo a := ⟨bound, .inr connected⟩
  have counts : r.countsPurged = false := by simp [CallRec.countsPurged, connected]
  have steady := putCall_steady (r := { r with boundAgent := none }) call rfl
  have aside := putCall_aside s c (some { r with boundAgent := none })
  have here : (s.putCall c (some { r with boundAgent := none })).call c = _ := State.putCall_call_self ..
  have count : SameStats s (s.putCall c (some { r with boundAgent := none })) := fun _ => rfl
  have ports (y : Shelf) : (s.putCall c (some { r with boundAgent := none })).port (portOf y) = s.port (portOf y) := by cases y <;> rfl
  rw [purgeCall_connected call connected bound]
  by_cases home : (s.agent a).home = x
  · have new : (s.agent a).bereft s x r =
        { (s.agent a).unbound .signedOut 0 0 with callsHandled := min 65535 ((s.agent a).callsHandled + 1) } := by
      rw [AgentRec.bereft, if_pos home, connected]
      rfl
    rw [purgeConnected_homed call home, ← new]
    generalize s.putCall c (some { r with boundAgent := none }) = u at *
    have written := writeAgent_rewritten u a ((s.agent a).bereft s x r)
    have triggers := writeAgent_triggers u a ((s.agent a).bereft s x r)
    have still := writeAgent_ports u a ((s.agent a).bereft s x r)
    generalize u.writeAgent a ((s.agent a).bereft s x r) = v at *
    have there := (written.restaffed.call c).trans here
    have freed := freeCall_freed there
    have freeAside := freeCall_aside there
    generalize v.freeCall c = w at *
    have listens : ListensOnly u v := .of_same fun y => by rw [still]
    refine .of_homed (.of_freed (steady.trans (written.restaffed.steady _)) freed rfl (.refl _ _)) (fun g => ?_) binds home ?_
      (fun b ne => ?_) ?_ ((aside.listens.trans listens).trans freeAside.listens)
    · rw [freed.stats, written.restaffed.stats, count, counts, if_neg (fun both => Bool.false_ne_true both.2)]
    · rw [freeAside.agent, written.record]
    · rw [freeAside.agent, written.others b ne, aside.agent]
    · rw [freeAside.triggers, triggers, aside.triggers]
  · have new : (s.agent a).bereft s x r = (s.agent a).afterCall s r.group .drop := by
      rw [AgentRec.bereft, if_neg home, if_pos connected]
    rw [purgeConnected_away call home, ← new]
    have clock := steady.swaps.base.clock
    have change := moveAgent_change (s.putCall c (some { r with boundAgent := none })) a ((s.agent a).bereft s x r)
    generalize s.putCall c (some { r with boundAgent := none }) = u at *
    generalize u.moveAgent a ((s.agent a).bereft s x r) = v at *
    have still := change.toAgentEffect.restaffed
    have there := (still.call c).trans here
    have freed := freeCall_freed there
    have freeAside := freeCall_aside there
    generalize v.freeCall c = w at *
    refine .of_moved (.of_freed (steady.trans (still.steady _)) freed rfl (.refl _ _)) (fun g => ?_) binds home ?_ fun b ne => ?_
    · rw [freed.stats, still.stats, count, counts, if_neg (fun both => Bool.false_ne_true both.2)]
    · exact .of_change ports aside.triggers clock (bereft_boundCall ..) change freeAside
    · rw [freeAside.agent, change.others b ne, aside.agent]

/-- The purge of a call in use, by its state. -/
theorem purgeCall_purged (x : Shelf) (call : s.call c = some r) : CallPurged s (State.purgeCall x s c) x c r := by
  by_cases queued : r.state = .queued
  · exact purged_queued call queued
  by_cases bound : ∃ a, r.bindsTo a
  · obtain ⟨a, bound, offered | connected⟩ := bound
    · exact purged_offered call offered bound
    · exact purged_connected call connected bound
  · exact purged_else call queued fun a binds => bound ⟨a, binds⟩

end

end Sys2Proof.Machine

/-! The sign-out of an agent of the purged shelf (R27, R108): the agent, and the call whose offer to it is withdrawn. -/

namespace Sys2Proof.Machine

/-! ### A call back in a queue: which one, and where (R57, R69, R70) -/

/-- From `s` to `t` no call but `c` has changed its place in a queue, and `c`'s trigger alone may have risen. -/
structure Replaced (s t : State) (c : CallSlot) : Prop where
  queue : ∀ g, (t.group g).queue.filter (· != c) = (s.group g).queue.filter (· != c)
  callTriggers : t.callTriggers = s.callTriggers
    ∨ t.callTriggers = if c ∈ s.callTriggers then s.callTriggers else s.callTriggers ++ [c]
  waitList : t.waitList = s.waitList

section
variable {s : State} {c : CallSlot} {r q : CallRec}

theorem overflows_queue (g h : Group) :
    ((s.overflows c r g).group h).queue.filter (· != c) = (s.group h).queue.filter (· != c) := by
  have call := (hopped_call s c r g c).trans (if_pos rfl)
  have hopped : ((s.hopped c r g).group h).queue.filter (· != c) = (s.group h).queue.filter (· != c) := by
    by_cases same : h = r.group
    · subst same
      rw [hopped_group, leaveQueue_group, List.filter_filter]
      simp only [Bool.and_self]
    · rw [hopped_queue_other s c r g same]
  rw [← hopped, State.overflows]
  by_cases joins : h = g
  · subst joins
    obtain ⟨l, m, before, after, -⟩ := join_split call h
    rw [before, after, List.filter_append, List.filter_append, List.filter_cons_of_neg (by simp)]
  · rw [join_other call g joins]

theorem requeued_replaced (s : State) (c : CallSlot) (q : CallRec) : Replaced s (s.requeued c q) c :=
  ⟨fun g => by rw [requeued_group], .inl rfl, rfl⟩

/-- The requeue and its attempt to overflow. -/
theorem attempted_replaced (call : s.call c = some r) (a : AgentSlot) (counted : Bool) : Replaced s (s.attempted c r a counted) c
    ∧ ((∀ g, c ∈ (s.group g).queue → g = r.group) → ∀ g, Conditioned s (s.attempted c r a counted) g) := by
  have first := requeued_replaced s c { r.returned a counted with pendingOverflow := false }
  have watched := requeued_conditioned (s := s) (c := c) (q := { r.returned a counted with pendingOverflow := false }) (by rw [call]; rfl)
  have now := (requeued_call s c c { r.returned a counted with pendingOverflow := false }).trans (if_pos rfl)
  have group (g : Group) := requeued_group s c { r.returned a counted with pendingOverflow := false } g
  have plain : (s.requeued c { r.returned a counted with pendingOverflow := false }).callTriggers = s.callTriggers := rfl
  unfold State.attempted
  dsimp only
  generalize s.requeued c { r.returned a counted with pendingOverflow := false } = u at *
  by_cases attempts : s.attempts r a counted = true
  · rw [if_pos attempts]
    cases found : u.overflowTo { r.returned a counted with pendingOverflow := false } with
    | none =>
      rw [tryOverflow_stays now rfl found]
      exact ⟨first, fun _ => watched⟩
    | some g =>
      have moved := tryOverflow_tunes now rfl found
      have follows := overflows_follows u c { r.returned a counted with pendingOverflow := false } g
      have queue (h : Group) := overflows_queue (s := u) (c := c) (r := { r.returned a counted with pendingOverflow := false }) g h
      have rest := tunes_rest (u.overflows c { r.returned a counted with pendingOverflow := false } g) c
        (CallRec.overflowed { r.returned a counted with pendingOverflow := false } u (some g))
        (CallRec.tuned { r.returned a counted with pendingOverflow := false } (u.groupMusic g))
      have play := tunes_play (C := (· = c)) (W := false) (u.overflows c { r.returned a counted with pendingOverflow := false } g)
        (CallRec.overflowed { r.returned a counted with pendingOverflow := false } u (some g))
        (CallRec.tuned { r.returned a counted with pendingOverflow := false } (u.groupMusic g)) rfl
      rw [moved]
      generalize u.overflows c { r.returned a counted with pendingOverflow := false } g = v at *
      generalize State.tunes _ _ _ _ = t at *
      obtain ⟨_, _, _, _, after⟩ := follows.rest
      obtain ⟨_, _, _, _, _, _, _, tuned⟩ := rest
      have list : t.waitList = u.waitList := by rw [tuned, after]
      have triggers : t.callTriggers = if c ∈ u.callTriggers then u.callTriggers else u.callTriggers ++ [c] := by rw [tuned, after]
      have groups : t.groups = v.groups := play.off.groups
      have same (h : Group) : t.group h = v.group h := congrArg (Vector.get · h) groups
      refine ⟨⟨fun h => by rw [same, queue, first.queue], .inr (by rw [triggers, plain]), list.trans first.waitList⟩, fun place h => ?_⟩
      refine ((watched h).trans (follows.conditioned fun member => ?_)).trans
        (.of_groups groups play.off.base.clock (play.queueing h).entries)
      rw [group] at member
      exact place h member
  · rw [if_neg attempts]
    exact ⟨first, fun _ => watched⟩

end

/-! ### The sign-out of an agent -/

/-- The record that the purge of its home shelf gives an agent, once the calls of the shelf are gone (R27). -/
def AgentRec.swept (ag : AgentRec) : AgentRec :=
  match ag.state with
  | .signedOut => ag
  | .connected => { ag with pending := .signOutPurge }
  | _ => ag.unbound .signedOut 0 0

/-- The call in use whose offer to agent `a` its sign-out withdraws. -/
def State.withdraws (s : State) (a : AgentSlot) : Option CallSlot :=
  if (s.agent a).state = .offered then (s.agent a).boundCall.filter fun c => (s.call c).isSome else none

/-- Agent `a` of the purged shelf has been signed out or marked; call `c`, if any, has lost its offer by this. -/
structure AgentPurged (s t : State) (a : AgentSlot) (c : Option CallSlot) : Prop extends PurgePiece c s t where
  record : t.agent a = (s.agent a).swept
  others : ∀ b, b ≠ a → t.agent b = s.agent b
  triggers : t.agentTriggers = s.agentTriggers
  listens : ListensOnly s t
  purged : ∀ g, (t.group g).stats.purged = (s.group g).stats.purged
  still : c = none → SteadyPiece none s t ∧ ∀ g, (s.group g).queue = [] → StaysManned s t g

/-- The offer of call `c`, of record `r`, to agent `a` has been withdrawn (R101, R108). -/
structure CallWithdrawn (s t : State) (a : AgentSlot) (c : CallSlot) (r : CallRec) : Prop where
  call : ∃ q, t.call c = some q ∧ q.offPlayout =
    ((r.returned a false).overflowed s (if r.pendingOverflow then s.overflowTo r else none)).offPlayout
  queue : ∀ g, (t.group g).queue.filter (· != c) = (s.group g).queue.filter (· != c)
  stays : r.pendingOverflow = false → ∀ g, (t.group g).queue = (s.group g).queue
  callTriggers : t.callTriggers = if c ∈ s.callTriggers then s.callTriggers else s.callTriggers ++ [c]
  conditioned : (∀ g, c ∈ (s.group g).queue → g = r.group) → ∀ g, Conditioned s t g
  manned : r.pendingOverflow = false → ∀ g, (s.group g).queue = [] → StaysManned s t g

section
variable {s t : State} {a : AgentSlot} {c : CallSlot} {r : CallRec}

/-- An agent without a call to withdraw. -/
theorem AgentPurged.of_steady (steady : SteadyPiece none s t) (record : t.agent a = (s.agent a).swept)
    (others : ∀ b, b ≠ a → t.agent b = s.agent b) (triggers : t.agentTriggers = s.agentTriggers) (ports : ∀ y, t.port (portOf y) = s.port (portOf y))
    (stats : SameStats s t) (manned : ∀ g, (s.group g).queue = [] → StaysManned s t g) : AgentPurged s t a none :=
  ⟨steady.toPurgePiece, record, others, triggers, .of_same fun y => by rw [ports], fun g => by rw [stats], fun _ => ⟨steady, manned⟩⟩

/-- NO_STAFF is not met where no call waits. -/
theorem Restaffed.unqueued_manned {new : AgentRec} (h : Restaffed s t a new) {g : Group} (empty : (s.group g).queue = []) :
    StaysManned s t g := h.manned fun _ => by
  rw [State.noStaffHolds, h.queue, empty]
  rfl

/-- A quiet change of the agent's record alone. -/
theorem AgentPurged.of_written {new : AgentRec} (swept : (s.agent a).swept = new) : AgentPurged s (s.writeAgent a new) a none := by
  have written := writeAgent_rewritten s a new
  exact .of_steady (written.restaffed.steady none) (written.record.trans swept.symm) written.others (writeAgent_triggers s a new)
    (writeAgent_ports s a new) written.restaffed.stats fun _ => written.restaffed.unqueued_manned

theorem purgeAgent_signedOut (out : (s.agent a).state = .signedOut) : s.purgeAgent a = s := by
  rw [State.purgeAgent, out]

theorem purgeAgent_connected (connected : (s.agent a).state = .connected) : s.purgeAgent a = s.recordPending a .signOutPurge := by
  rw [State.purgeAgent, connected]

theorem purgeAgent_offered (offered : (s.agent a).state = .offered) :
    s.purgeAgent a = s.withdraw a ((s.agent a).unbound .signedOut 0 0) true := by
  rw [State.purgeAgent, offered]
  rfl

theorem purgeAgent_away (away : (s.agent a).state ≠ .signedOut ∧ (s.agent a).state ≠ .offered ∧ (s.agent a).state ≠ .connected) :
    s.purgeAgent a = s.writeAgent a ((s.agent a).unbound .signedOut 0 0) := by
  obtain ⟨out, offered, connected⟩ := away
  rw [State.purgeAgent]
  split
  · contradiction
  · rfl
  · rfl
  · rfl
  · contradiction
  · contradiction

theorem recordPending_steady (s : State) (a : AgentSlot) (p : Pending) : SteadyPiece none s (s.recordPending a p) :=
  ⟨.of_calls (fun _ => rfl) rfl (.of_groups rfl rfl (by constructor <;> rfl)) (.of_groups rfl), fun _ => rfl, rfl,
    fun _ => .of_groups rfl rfl fun _ _ => rfl⟩

/-- The withdrawal, step by step: the call unbound, the agent signed out, and the call back in a queue. -/
theorem withdraw_eq (bound : (s.agent a).boundCall = some c) (call : s.call c = some r) (new : AgentRec) :
    s.withdraw a new true = ((((s.putCall c (some { r with boundAgent := none })).writeAgent a new).attempted c
      { r with boundAgent := none } a false).swapIfQuiet r.group).raiseCallTrigger c := by
  have here : ((s.putCall c (some { r with boundAgent := none })).writeAgent a new).call c = some { r with boundAgent := none } :=
    ((writeAgent_rewritten _ a new).restaffed.call c).trans (State.putCall_call_self ..)
  rw [State.withdraw, bound]
  dsimp only
  rw [call]
  dsimp only
  rw [modCall_some call]
  exact returnCall_eq here a false

theorem Attempted.piece {q : CallRec} {o : Option Group} (h : Attempted s t c q o) (waitList : t.waitList = s.waitList) :
    PurgePiece (some c) s t where
  swaps := h.swaps
  calls d other := by rw [h.others d fun e => other (by rw [e])]
  heard _ d other := h.others d fun e => other (by rw [e])
  waitList empty := waitList.trans empty
  flags := h.flags

theorem attempted_requeued {counted : Bool} (idle : s.attempts r a counted = false) :
    s.attempted c r a counted = s.requeued c { r.returned a counted with pendingOverflow := false } := by
  unfold State.attempted
  dsimp only
  rw [idle]
  rfl

theorem requeued_manned (s : State) (c : CallSlot) (q : CallRec) (g : Group) : StaysManned s (s.requeued c q) g := by
  have group := requeued_group s c q g
  exact .of_same (by rw [group]) (by rw [group])

theorem raiseCallTrigger_piece (s : State) (c : CallSlot) (d : Option CallSlot) : PurgePiece d s (s.raiseCallTrigger c) := by
  rw [raiseCallTrigger_eq]
  exact .of_calls (fun _ => rfl) rfl (.of_groups rfl rfl (by constructor <;> rfl)) (.of_groups rfl)

/-- The sign-out of an agent withdraws its offer. -/
theorem withdrawn_purged (offered : (s.agent a).state = .offered) (bound : (s.agent a).boundCall = some c) (call : s.call c = some r) :
    AgentPurged s (s.purgeAgent a) a (some c) ∧ CallWithdrawn s (s.purgeAgent a) a c r := by
  have swept : (s.agent a).swept = (s.agent a).unbound .signedOut 0 0 := by rw [AgentRec.swept, offered]
  rw [purgeAgent_offered offered, withdraw_eq bound call]
  have unbind := putCall_steady (r := { r with boundAgent := none }) call rfl
  have unbindAside := putCall_aside s c (some { r with boundAgent := none })
  have unbindManned (g : Group) : StaysManned s (s.putCall c (some { r with boundAgent := none })) g := .of_same rfl rfl
  have unbindStats : SameStats s (s.putCall c (some { r with boundAgent := none })) := fun _ => rfl
  have written := writeAgent_rewritten (s.putCall c (some { r with boundAgent := none })) a ((s.agent a).unbound .signedOut 0 0)
  have triggers := writeAgent_triggers (s.putCall c (some { r with boundAgent := none })) a ((s.agent a).unbound .signedOut 0 0)
  have ports := writeAgent_ports (s.putCall c (some { r with boundAgent := none })) a ((s.agent a).unbound .signedOut 0 0)
  have here : (s.putCall c (some { r with boundAgent := none })).call c = some { r with boundAgent := none } := State.putCall_call_self ..
  have same (g : Group) : (s.putCall c (some { r with boundAgent := none })).group g = s.group g := rfl
  generalize s.putCall c (some { r with boundAgent := none }) = p at *
  have steady := unbind.trans (written.restaffed.steady _)
  have there := (written.restaffed.call c).trans here
  have manned (g : Group) (empty : (s.group g).queue = []) : StaysManned s (p.writeAgent a ((s.agent a).unbound .signedOut 0 0)) g := by
    refine (unbindManned g).trans (written.restaffed.unqueued_manned ?_)
    rw [same, empty]
  have stats := unbindStats.trans written.restaffed.stats
  have fields (g : Group) := written.restaffed.group g
  generalize p.writeAgent a ((s.agent a).unbound .signedOut 0 0) = v at *
  have active (g : Group) : (v.group g).active = (s.group g).active := by obtain ⟨_, _, _, e⟩ := fields g; rw [e, same]
  have closed (g : Group) : (v.group g).supervisorClosed = (s.group g).supervisorClosed := by
    obtain ⟨_, _, _, e⟩ := fields g
    rw [e, same]
  have attempted := attempted_attempted there a false
  obtain ⟨replaced, conditioned⟩ := attempted_replaced there a false
  have idle (plain : r.pendingOverflow = false) := attempted_requeued (s := v) (c := c) (r := { r with boundAgent := none }) (a := a)
    (counted := false) plain
  have target : v.attemptTo { r with boundAgent := none } a false = if r.pendingOverflow then s.overflowTo r else none :=
    attemptTo_eq (r := r) active steady.queue closed steady.swaps.base.lines a false rfl rfl rfl rfl
  rw [target] at attempted
  have attemptManned (plain : r.pendingOverflow = false) (g : Group) :
      StaysManned v (v.attempted c { r with boundAgent := none } a false) g := by
    rw [idle plain]
    exact requeued_manned _ _ _ g
  generalize v.attempted c { r with boundAgent := none } a false = w at *
  have settled := swapIfQuiet_settled w r.group
  generalize w.swapIfQuiet r.group = z at *
  have raised := raiseCallTrigger_eq z c
  have raisedPiece := raiseCallTrigger_piece z c (some c)
  generalize z.raiseCallTrigger c = t at *
  have group (g : Group) : t.group g = z.group g := by rw [raised]; rfl
  refine ⟨⟨(((steady.toPurgePiece.trans (attempted.piece replaced.waitList)).trans (settled.piece _)).trans raisedPiece), ?_, fun b ne => ?_,
    ?_, ?_, fun g => ?_, nofun⟩, ⟨?_, fun g => ?_, fun plain g => ?_, ?_, fun place g => ?_, fun plain g empty => ?_⟩⟩
  · have agents : t.agents = v.agents := by
      rw [raised]
      exact settled.rest.1.trans attempted.rest.1
    exact (congrArg (Vector.get · a) agents).trans (written.record.trans swept.symm)
  · have agents : t.agents = v.agents := by
      rw [raised]
      exact settled.rest.1.trans attempted.rest.1
    exact (congrArg (Vector.get · b) agents).trans ((written.others b ne).trans (unbindAside.agent b))
  · rw [raised]
    exact settled.rest.2.1.trans (attempted.rest.2.1.trans (triggers.trans unbindAside.triggers))
  · refine (unbindAside.listens.trans ?_).trans ((attempted.listens.trans settled.listens).trans ?_)
    · exact .of_same fun y => by rw [ports]
    · exact .of_same fun y => by rw [raised]; cases y <;> rfl
  · rw [group, settled.stats, attempted.stats, ← stats]
    rfl
  · obtain ⟨k, at_, off⟩ := attempted.call
    have now := settled.calls c
    rw [at_, Option.map_some, Option.map_eq_some_iff] at now
    obtain ⟨q, back, same⟩ := now
    refine ⟨q, by rw [raised]; exact back, same.trans (off.trans ?_)⟩
    rw [overflowed_congr active steady.swaps.base.clock]
    rfl
  · rw [group, settled.queue, replaced.queue, steady.queue]
  · rw [group, settled.queue, attempted.stays (by rw [plain]; rfl), steady.queue]
  · have final : t.callTriggers = if c ∈ w.callTriggers then w.callTriggers else w.callTriggers ++ [c] := by
      rw [raised, ← settled.rest.2.2.1]
    rw [final, ← steady.callTriggers]
    rcases replaced.callTriggers with same | risen
    · rw [same]
    · have member : c ∈ w.callTriggers := by
        rw [risen]
        split
        next old => exact old
        next => exact List.mem_append_right _ (List.mem_singleton_self c)
      rw [if_pos member, risen]
  · refine (((steady.conditioned g).trans (conditioned (fun h member => ?_) g)).trans (settled.conditioned g)).trans
      (.of_same (by rw [group]) (by rw [group]) ?_)
    · rw [steady.queue] at member
      exact place h member
    · rw [raised]
      exact ⟨rfl, rfl, rfl, rfl, fun _ _ => rfl⟩
  · exact (((manned g empty).trans (attemptManned plain g)).trans (settled.manned g)).trans (.of_same (by rw [group]) (by rw [group]))

/-- The sign-out of an agent of the purged shelf, by its state. -/
theorem purgeAgent_purged (s : State) (a : AgentSlot) : AgentPurged s (s.purgeAgent a) a (s.withdraws a) := by
  by_cases out : (s.agent a).state = .signedOut
  · have none : s.withdraws a = none := if_neg fun offered => by rw [out] at offered; cases offered
    rw [purgeAgent_signedOut out, none]
    exact .of_steady (.refl _ s) (by rw [AgentRec.swept, out]) (fun _ _ => rfl) rfl (fun _ => rfl) (fun _ => rfl) fun _ _ => .of_same rfl rfl
  by_cases connected : (s.agent a).state = .connected
  · have none : s.withdraws a = none := if_neg fun offered => by rw [connected] at offered; cases offered
    rw [purgeAgent_connected connected, none]
    have swept : (s.agent a).swept = { s.agent a with pending := .signOutPurge } := by
      unfold AgentRec.swept
      split
      · contradiction
      · rfl
      · contradiction
    refine .of_steady (recordPending_steady s a _) ?_ (fun b ne => ?_) rfl (fun y => by cases y <;> rfl) (fun _ => rfl) fun _ _ => .of_same rfl rfl
    · rw [swept]
      exact State.setAgent_agent_self ..
    · exact State.setAgent_agent_of_ne _ _ ne
  by_cases offered : (s.agent a).state = .offered
  · have swept : (s.agent a).swept = (s.agent a).unbound .signedOut 0 0 := by rw [AgentRec.swept, offered]
    cases bound : (s.agent a).boundCall with
    | none =>
      have none : s.withdraws a = none := by rw [State.withdraws, if_pos offered, bound]; rfl
      rw [purgeAgent_offered offered, none, State.withdraw, bound]
      exact .of_written swept
    | some c =>
      cases call : s.call c with
      | none =>
        have none : s.withdraws a = none := by
          rw [State.withdraws, if_pos offered, bound, Option.filter_some, call]
          rfl
        rw [purgeAgent_offered offered, none, State.withdraw, bound]
        dsimp only
        rw [call]
        exact .of_written swept
      | some r =>
        have some_ : s.withdraws a = some c := by
          rw [State.withdraws, if_pos offered, bound, Option.filter_some, call]
          rfl
        rw [some_]
        exact (withdrawn_purged offered bound call).1
  · have none : s.withdraws a = none := if_neg offered
    have swept : (s.agent a).swept = (s.agent a).unbound .signedOut 0 0 := by
      unfold AgentRec.swept
      split
      · contradiction
      · contradiction
      · rfl
    rw [purgeAgent_away ⟨out, offered, connected⟩, none]
    exact .of_written swept

end

end Sys2Proof.Machine

/-! The calls of the purged shelf, one after another (R72, R107, R194). -/

namespace Sys2Proof.Machine

/-- A count that rises by `n`, to 65535 at most (R43). -/
def bumped (n k : Nat) : Nat := if n = 0 then k else min 65535 (k + n)

theorem bumped_succ (n k : Nat) : min 65535 (bumped n k + 1) = bumped (n + 1) k := by
  unfold bumped
  rw [if_neg (Nat.succ_ne_zero n)]
  split <;> omega

/-- Call `c` counts as purged at group `g`. -/
def State.purgesAt (s : State) (g : Group) (c : CallSlot) : Bool := (s.call c).any fun r => r.group == g && r.countsPurged

/-- What the purge of a call takes from the call's record. -/
theorem off_fields {q r : CallRec} (h : q.offPlayout = r.offPlayout) : q.state = r.state ∧ q.group = r.group ∧ q.boundAgent = r.boundAgent
    ∧ q.owner = r.owner :=
  ⟨(congrArg CallRec.state h :), (congrArg CallRec.group h :), (congrArg CallRec.boundAgent h :), (congrArg CallRec.owner h :)⟩

theorem bindsTo_congr {q r : CallRec} (h : q.offPlayout = r.offPlayout) (a : AgentSlot) : q.bindsTo a ↔ r.bindsTo a := by
  obtain ⟨state, -, bound, -⟩ := off_fields h
  rw [CallRec.bindsTo, CallRec.bindsTo, state, bound]

theorem countsPurged_congr {q r : CallRec} (h : q.offPlayout = r.offPlayout) : q.countsPurged = r.countsPurged := by
  obtain ⟨state, -, bound, -⟩ := off_fields h
  rw [CallRec.countsPurged, CallRec.countsPurged, state, bound]

theorem bereft_congr {q r : CallRec} (h : q.offPlayout = r.offPlayout) (ag : AgentRec) (s : State) (x : Shelf) :
    ag.bereft s x q = ag.bereft s x r := by
  obtain ⟨state, group, -, -⟩ := off_fields h
  rw [AgentRec.bereft, AgentRec.bereft, state, group]

/-- The calls of the list, each in use in `s`, have been purged. -/
structure CallsPurged (s u : State) (x : Shelf) (l : List CallSlot) : Prop where
  swaps : SwapsFollow s u
  calls : ∀ d, (u.call d).map CallRec.offPlayout = if d ∈ l then none else (s.call d).map CallRec.offPlayout
  heard : (∀ g, (u.group g).swapPending = (s.group g).swapPending) → ∀ d, d ∉ l → u.call d = s.call d
  waitList : s.waitList = [] → u.waitList = []
  flags : FlagsFollow s u
  callTriggers : u.callTriggers = s.callTriggers
  purged : ∀ g, (u.group g).stats.purged = bumped (l.filter (s.purgesAt g)).length (s.group g).stats.purged
  agents : ∀ a, (∀ c ∈ l, ∀ r, s.call c = some r → ¬r.bindsTo a) → u.agent a = s.agent a
  bound : ∀ c ∈ l, ∀ r a, s.call c = some r → r.bindsTo a → (∀ d k, s.call d = some k → k.bindsTo a → d = c) →
    ∃ w, SwapsFollow s w ∧ ∃ o, u.agent a = { (s.agent a).bereft w x r with owed := o } ∧ ((s.agent a).home = x → o = (s.agent a).owed)

theorem CallsPurged.nil (s : State) (x : Shelf) : CallsPurged s s x [] where
  swaps := .refl s
  calls _ := rfl
  heard _ _ _ := rfl
  waitList := id
  flags := .refl s
  callTriggers := rfl
  purged _ := rfl
  agents _ _ := rfl
  bound _ h := nomatch h

section
variable {s u t : State} {x : Shelf} {l : List CallSlot} {c : CallSlot} {k r : CallRec}

/-- A call that is yet to be purged has the record that it had, but for what it hears. -/
theorem CallsPurged.waiting (h : CallsPurged s u x l) (new : c ∉ l) (call : s.call c = some r) :
    ∃ k, u.call c = some k ∧ k.offPlayout = r.offPlayout := by
  have now := h.calls c
  rw [if_neg new, call, Option.map_some, Option.map_eq_some_iff] at now
  exact now

theorem CallsPurged.step (h : CallsPurged s u x l) (new : c ∉ l) (call : s.call c = some r) (here : u.call c = some k)
    (same : k.offPlayout = r.offPlayout) (one : CallPurged u t x c k) : CallsPurged s t x (l ++ [c]) := by
  have apart (d : CallSlot) (out : d ∉ l ++ [c]) : d ∉ l ∧ d ≠ c := by
    simpa only [List.mem_append, List.mem_singleton, not_or] using out
  have whole : PurgePiece (some c) u t := one.toPurgePiece
  refine ⟨h.swaps.trans whole.swaps, fun d => ?_, fun still d out => ?_, fun empty => whole.waitList (h.waitList empty),
    h.flags.trans whole.flags, one.callTriggers.trans h.callTriggers, fun g => ?_, fun a free => ?_, fun d member q a now binds only => ?_⟩
  · by_cases last : d = c
    · subst last
      rw [one.free, if_pos (List.mem_append_right _ (List.mem_singleton_self d))]
      rfl
    · rw [whole.calls d fun e => last (Option.some.inj e), h.calls]
      simp only [List.mem_append, List.mem_singleton, last, or_false]
  · have between (g : Group) := h.swaps.between whole.swaps still g
    obtain ⟨old, ne⟩ := apart d out
    exact (whole.heard (fun g => (between g).2) d fun e => ne (Option.some.inj e)).trans (h.heard (fun g => (between g).1) d old)
  · have counts : s.purgesAt g c = true ↔ g = k.group ∧ k.countsPurged = true := by
      rw [State.purgesAt, call, Option.any_some, Bool.and_eq_true, beq_iff_eq, countsPurged_congr same, (off_fields same).2.1, eq_comm]
    rw [one.purged, h.purged, List.filter_append, List.length_append]
    by_cases at_ : s.purgesAt g c = true
    · rw [if_pos (counts.mp at_), List.filter_cons_of_pos at_, bumped_succ]
      rfl
    · rw [if_neg fun both => at_ (counts.mpr both), List.filter_cons_of_neg at_]
      rfl
  · have free' : ¬k.bindsTo a := fun binds =>
      free c (List.mem_append_right _ (List.mem_singleton_self c)) r call ((bindsTo_congr same a).mp binds)
    rw [one.agents a free', h.agents a fun d hd => free d (List.mem_append_left _ hd)]
  · rcases List.mem_append.mp member with old | last
    · have free' : ¬k.bindsTo a := fun also => new (only c r call ((bindsTo_congr same a).mp also) ▸ old)
      rw [one.agents a free']
      exact h.bound d old q a now binds only
    · obtain rfl := List.mem_singleton.mp last
      obtain rfl := Option.some.inj (call.symm.trans now)
      have before : u.agent a = s.agent a := h.agents a fun e he m used also => new (only e m used also ▸ he)
      have binds' := (bindsTo_congr same a).mpr binds
      refine ⟨u, h.swaps, ?_⟩
      by_cases home : (s.agent a).home = x
      · have record := one.homed a binds' (by rw [before]; exact home)
        rw [bereft_congr same, before] at record
        exact ⟨_, record, fun _ => bereft_owed ..⟩
      · have record := (one.bereaved a binds' (by rw [before]; exact home)).record
        rw [bereft_congr same, before] at record
        exact ⟨_, record, fun at_ => absurd at_ home⟩

end

/-- The purge of the calls of a list, each in use. -/
theorem purgeCalls_purged (s : State) (x : Shelf) (l : List CallSlot) (used : ∀ c ∈ l, s.call c ≠ none) (once : l.Nodup) :
    CallsPurged s (l.foldl (State.purgeCall x) s) x l := by
  induction l using List.reverseRecOn with
  | nil => exact .nil s x
  | append_singleton l c ih =>
    rw [List.nodup_append] at once
    obtain ⟨first, -, apart⟩ := once
    have new : c ∉ l := fun member => apart c member c (List.mem_singleton_self c) rfl
    have before := ih (fun d hd => used d (List.mem_append_left _ hd)) first
    obtain ⟨r, call⟩ := Option.ne_none_iff_exists'.mp (used c (List.mem_append_right _ (List.mem_singleton_self c)))
    rw [List.foldl_append, List.foldl_cons, List.foldl_nil]
    generalize l.foldl (State.purgeCall x) s = u at before ⊢
    obtain ⟨k, here, same⟩ := before.waiting new call
    exact before.step new call here same (purgeCall_purged x here)

end Sys2Proof.Machine

/-! The agents of the purged shelf, one after another, and the end of the purge (R27, R108, R194). -/

namespace Sys2Proof.Machine

/-! ### The sign-outs -/

theorem withdraws_iff {s : State} {a : AgentSlot} {c : CallSlot} :
    s.withdraws a = some c ↔ (s.agent a).state = .offered ∧ (s.agent a).boundCall = some c ∧ ∃ r, s.call c = some r := by
  unfold State.withdraws
  split
  next offered => rw [Option.filter_eq_some_iff, Option.isSome_iff_exists, and_iff_right offered]
  next away => exact ⟨nofun, fun all => absurd all.1 away⟩

/-- The sign-out of an agent takes no call out of use and brings none into it. -/
theorem purgeAgent_used (s : State) (a : AgentSlot) (d : CallSlot) : ((s.purgeAgent a).call d).isSome = (s.call d).isSome := by
  by_cases withdrawn : s.withdraws a = some d
  · obtain ⟨offered, bound, r, call⟩ := withdraws_iff.mp withdrawn
    obtain ⟨q, back, -⟩ := (withdrawn_purged offered bound call).2.call
    rw [back, call]
    rfl
  · have same := (purgeAgent_purged s a).calls d fun e => withdrawn e.symm
    rw [← Option.isSome_map (f := CallRec.offPlayout), same, Option.isSome_map]

/-- The agents of the list have been signed out or marked. -/
structure AgentsPurged (v u : State) (l : List AgentSlot) : Prop where
  swaps : SwapsFollow v u
  agents : ∀ a, u.agent a = if a ∈ l then (v.agent a).swept else v.agent a
  used : ∀ d, (u.call d).isSome = (v.call d).isSome
  calls : ∀ d, (∀ a ∈ l, v.withdraws a ≠ some d) → (u.call d).map CallRec.offPlayout = (v.call d).map CallRec.offPlayout
  heard : (∀ g, (u.group g).swapPending = (v.group g).swapPending) → ∀ d, (∀ a ∈ l, v.withdraws a ≠ some d) → u.call d = v.call d
  waitList : v.waitList = [] → u.waitList = []
  flags : FlagsFollow v u
  triggers : u.agentTriggers = v.agentTriggers
  listens : ListensOnly v u
  purged : ∀ g, (u.group g).stats.purged = (v.group g).stats.purged

theorem AgentsPurged.nil (v : State) : AgentsPurged v v [] where
  swaps := .refl v
  agents _ := rfl
  used _ := rfl
  calls _ _ := rfl
  heard _ _ _ := rfl
  waitList := id
  flags := .refl v
  triggers := rfl
  listens := .of_same fun _ => rfl
  purged _ := rfl

section
variable {v u : State} {l : List AgentSlot} {a : AgentSlot}

/-- An agent that is yet to be signed out withdraws the call that it would have withdrawn at first. -/
theorem AgentsPurged.withdraws (h : AgentsPurged v u l) (new : a ∉ l) : u.withdraws a = v.withdraws a := by
  have agent : u.agent a = v.agent a := (h.agents a).trans (if_neg new)
  simp only [State.withdraws, agent, h.used]

theorem AgentsPurged.step (h : AgentsPurged v u l) (new : a ∉ l) : AgentsPurged v (u.purgeAgent a) (l ++ [a]) := by
  have one := purgeAgent_purged u a
  have used := purgeAgent_used u a
  rw [h.withdraws new] at one
  generalize u.purgeAgent a = t at one used ⊢
  have whole : PurgePiece (v.withdraws a) u t := one.toPurgePiece
  have last : a ∈ l ++ [a] := List.mem_append_right _ (List.mem_singleton_self a)
  have earlier {d : CallSlot} (out : ∀ b ∈ l ++ [a], v.withdraws b ≠ some d) : ∀ b ∈ l, v.withdraws b ≠ some d :=
    fun b member => out b (List.mem_append_left _ member)
  refine ⟨h.swaps.trans whole.swaps, fun b => ?_, fun d => (used d).trans (h.used d), fun d out => ?_, fun still d out => ?_,
    fun empty => whole.waitList (h.waitList empty), h.flags.trans whole.flags, one.triggers.trans h.triggers, h.listens.trans one.listens,
    fun g => (one.purged g).trans (h.purged g)⟩
  · by_cases same : b = a
    · subst same
      rw [one.record, h.agents, if_neg new, if_pos last]
    · rw [one.others b same, h.agents]
      simp only [List.mem_append, List.mem_singleton, same, or_false]
  · exact (whole.calls d fun e => out a last e.symm).trans (h.calls d (earlier out))
  · have between (g : Group) := h.swaps.between whole.swaps still g
    exact (whole.heard (fun g => (between g).2) d fun e => out a last e.symm).trans (h.heard (fun g => (between g).1) d (earlier out))

end

theorem purgeAgents_purged (v : State) (l : List AgentSlot) (once : l.Nodup) : AgentsPurged v (l.foldl State.purgeAgent v) l := by
  induction l using List.reverseRecOn with
  | nil => exact .nil v
  | append_singleton l a ih =>
    rw [List.nodup_append] at once
    obtain ⟨first, -, apart⟩ := once
    have new : a ∉ l := fun member => apart a member a (List.mem_singleton_self a) rfl
    rw [List.foldl_append, List.foldl_cons, List.foldl_nil]
    exact (ih first).step new

/-! ### The end of the purge (R194) -/

/-- The last part of a purge: the port emptied, PURGE_DONE raised, and the arbiter. -/
def State.purgeEnded (u : State) (x : Shelf) : State := ((u.clearPort x).raisePurgeDone).arbitrate

/-- What the last part of a purge leaves of the machine. -/
structure PurgeEnded (u t : State) (x : Shelf) : Prop where
  calls : ∀ d, (t.call d).map CallRec.offPlayout = (u.call d).map CallRec.offPlayout
  heard : u.waitList = [] → t.calls = u.calls
  groups : t.groups = u.groups
  agents : ∀ a, t.agent a = if (u.agent a).home = x then { u.agent a with owed := false } else u.agent a
  callTriggers : t.callTriggers = u.callTriggers
  agentTriggers : t.agentTriggers = u.agentTriggers
  sweep : t.sweepWaiting = u.sweepWaiting
  port : (∀ c r, u.call c = some r → r.owner ≠ x) → (t.port (portOf x)).notices = [] ∧ (t.port (portOf x)).owed = []
  listens : ∃ l : List Notice, (∀ n ∈ l, ∃ tag slot, n = .listen tag slot) ∧
    (t.port (portOf (other x))).notices = (u.port (portOf (other x))).notices ++ l
  owed : ∀ a, .agentState a ∈ (u.port (portOf (other x))).owed → .agentState a ∈ (t.port (portOf (other x))).owed
  done : t.device.purgeDone = true
  base : SameBase u t

end Sys2Proof.Machine

/-! The last part of a purge: the port emptied, PURGE_DONE raised, and the arbiter (R172, R179, R190, R194). -/

namespace Sys2Proof.Machine

/-! ### A port that the arbiter does not reach -/

/-- No call in use is of shelf `x`. -/
def State.foreign (s : State) (x : Shelf) : Prop := ∀ c r, s.call c = some r → r.owner ≠ x

theorem foreign_congr {s t : State} {x : Shelf} (h : s.foreign x)
    (calls : ∀ c, (t.call c).map CallRec.offPlayout = (s.call c).map CallRec.offPlayout) : t.foreign x := by
  intro c q call
  have same := calls c
  rw [call, Option.map_some, eq_comm, Option.map_eq_some_iff] at same
  obtain ⟨r, old, off⟩ := same
  rw [(off_fields off).2.2.2.symm]
  exact h c r old

theorem PlayMoves.foreign {C : CallSlot → Prop} {W : Bool} {s t : State} {x : Shelf} (h : PlayMoves C W s t) (k : s.foreign x) :
    t.foreign x := foreign_congr k h.off.calls

section
variable {x : Shelf}

theorem handCall_shut {s : State} (h : s.foreign x) (c : CallSlot) (k : CallNotice) :
    (s.handCall c k).port (portOf x) = s.port (portOf x) := by
  unfold State.handCall
  split
  · rfl
  next r call =>
    have other : portOf x ≠ portOf r.owner := fun e => h c r call (portOf_injective e).symm
    dsimp only
    split
    · split
      · rfl
      · rw [State.pushNotice, State.modPort_eq, State.setPort_port, if_neg other]
    · split
      · rfl
      · rw [State.appendOwed, State.modPort_eq, State.setPort_port, if_neg other]
        cases x <;> rfl

theorem setListen_shut (s : State) (c : CallSlot) (l : Listen) : (s.setListen c l).port (portOf x) = s.port (portOf x) := by
  obtain ⟨_, _, _, _, _, rest⟩ := setListen_rest s c l
  rw [rest]
  cases x <;> rfl

theorem endAnnouncement_shut {s : State} (h : s.foreign x) (j : ChannelNo) (c : CallSlot) :
    (s.endAnnouncement j c).port (portOf x) = s.port (portOf x) := by
  unfold State.endAnnouncement
  dsimp only
  split
  · cases x <;> rfl
  next r call =>
    have kept (u : State) (f : CallRec → CallRec) : (u.modCall c f).port (portOf x) = u.port (portOf x) := by cases x <;> rfl
    have freed : (s.setChannel j none).foreign x := h
    have heard := (setListen_play (C := fun _ => True) (W := true) (s.setChannel j none) (c := c)
      ((s.setChannel j none).musicOf r.group) trivial).foreign freed
    rw [kept, handCall_shut heard, setListen_shut]
    cases x <;> rfl

theorem runChannel_shut {s : State} (h : s.foreign x) (j : ChannelNo) (c : CallSlot) (r : Run) :
    (s.runChannel j c r).port (portOf x) = s.port (portOf x) := by
  have play := carryChannel_play (C := fun _ => True) (W := true) s State.carryFuel c r
  obtain ⟨_, _, _, rest⟩ := carryChannel_rest State.carryFuel c r s
  have same : (State.carryChannel State.carryFuel c r s).2.port (portOf x) = s.port (portOf x) := by
    rw [rest]
    cases x <;> rfl
  have still := play.foreign h
  unfold State.runChannel
  split
  next r1 u e =>
    rw [e] at same
    rw [← same]
    cases x <;> rfl
  next u e =>
    rw [e] at same still
    rw [endAnnouncement_shut still, same]

theorem grant_shut {s : State} (h : s.foreign x) (j : ChannelNo) (c : CallSlot) (p : ProgramNo) :
    (s.grant j c p).port (portOf x) = s.port (portOf x) := by
  unfold State.grant
  dsimp only
  have put : (s.putChannelRun j c (Run.begin p)).foreign x := h
  have heard := setListen_play (C := fun _ => True) (W := true) (s.putChannelRun j c (Run.begin p)) (c := c) (.announce j) trivial
  have told := heard.foreign put
  have handed := (handListen_play (C := fun _ => True) (W := true) ((s.putChannelRun j c (Run.begin p)).setListen c (.announce j)) (c := c)
    trivial).foreign told
  rw [runChannel_shut handed, handCall_shut told, setListen_shut]
  cases x <;> rfl

/-- The arbiter hands no notice to the port of a shelf without a call. -/
theorem arbitrateUpTo_shut (n : Nat) {s : State} (h : s.foreign x) : (State.arbitrateUpTo n s).port (portOf x) = s.port (portOf x) := by
  induction n generalizing s with
  | zero => rfl
  | succ n ih =>
    unfold State.arbitrateUpTo
    split
    next e rest j _ _ =>
      dsimp only
      obtain ⟨_, _, _, _, left⟩ := leaveWaitList_rest s e.call
      have same : (s.leaveWaitList e.call).port (portOf x) = s.port (portOf x) := by
        rw [left]
        cases x <;> rfl
      have still := (leaveWaitList_play (C := fun _ => True) (W := true) s (c := e.call) trivial rfl).foreign h
      split
      · rw [ih still, same]
      · split
        · rw [ih still, same]
        next r _ p _ =>
          rw [ih ((grant_play (C := fun _ => True) (W := true) _ j (c := e.call) p trivial).foreign still), grant_shut still, same]
    · rfl

end

/-! ### The last part -/

theorem clearPort_rest (u : State) (x : Shelf) : ∃ agents a b, u.clearPort x = { u with agents := agents, portA := a, portB := b } := by
  cases x <;> exact ⟨_, _, _, rfl⟩

theorem clearPort_emptied (u : State) (x : Shelf) :
    ((u.clearPort x).port (portOf x)).notices = [] ∧ ((u.clearPort x).port (portOf x)).owed = [] := by
  cases x <;> exact ⟨rfl, rfl⟩

theorem clearPort_other (u : State) (x : Shelf) : (u.clearPort x).port (portOf (other x)) = u.port (portOf (other x)) := by
  cases x <;> rfl

theorem raisePurgeDone_rest (u : State) : ∃ q d, u.raisePurgeDone = { u with portS := q, device := d } ∧ d.purgeDone = true := by
  have handed (v : State) : ∃ q d, v.handWatch = { v with portS := q, device := d } ∧ d.purgeDone = v.device.purgeDone := by
    unfold State.handWatch
    split
    · split
      · exact ⟨_, _, rfl, rfl⟩
      · exact ⟨_, _, rfl, rfl⟩
    · split
      · exact ⟨_, _, rfl, rfl⟩
      · exact ⟨_, _, rfl, rfl⟩
  unfold State.raisePurgeDone
  split
  next set => exact ⟨_, _, rfl, set⟩
  next =>
    obtain ⟨q, d, e, kept⟩ := handed (u.setDevice { u.device with purgeDone := true })
    exact ⟨q, d, e, kept⟩

theorem purgeEnded_ended (u : State) (x : Shelf) : PurgeEnded u (u.purgeEnded x) x := by
  obtain ⟨_, _, _, cleared⟩ := clearPort_rest u x
  have agent := clearPort_agent u x
  have emptied := clearPort_emptied u x
  have kept := clearPort_other u x
  unfold State.purgeEnded
  generalize u.clearPort x = v at *
  obtain ⟨_, _, raised, done⟩ := raisePurgeDone_rest v
  generalize v.raisePurgeDone = w at *
  have same (y : Shelf) : w.port (portOf y) = v.port (portOf y) := by rw [raised]; cases y <;> rfl
  have call (d : CallSlot) : w.call d = u.call d := by rw [raised, cleared]; rfl
  have list : w.waitList = u.waitList := by rw [raised, cleared]
  have play := arbitrate_play w (C := fun _ => True) (W := true) (fun _ _ => trivial) rfl
  have listens := play.listensOnly (other x)
  have grows := portsGrow_full.arbitrate w (other x)
  have shut (h : w.foreign x) : w.arbitrate.port (portOf x) = w.port (portOf x) := arbitrateUpTo_shut _ h
  refine ⟨fun d => by rw [play.off.calls, call], fun empty => ?_, play.off.groups.trans (by rw [raised, cleared]), fun a => ?_,
    play.off.callTriggers.trans (by rw [raised, cleared]), play.off.agentTriggers.trans (by rw [raised, cleared]),
    play.off.sweepWaiting.trans (by rw [raised, cleared]), fun none => ?_, ?_, fun a member => ?_, ?_, ?_⟩
  · have idle : w.arbitrate = w := by
      rw [State.arbitrate, list, empty]
      rfl
    rw [idle, raised, cleared]
  · rw [← agent]
    refine (congrArg (Vector.get · a) play.off.agents).trans ?_
    rw [raised]
    rfl
  · have stays := shut fun c r used => none c r (by rw [← call]; exact used)
    rw [stays, same]
    exact emptied
  · obtain ⟨l, all, notices⟩ := listens
    exact ⟨l, all, by rw [notices, same, kept]⟩
  · refine grows.2 a ?_
    rw [same, kept]
    exact member
  · rw [play.off.purgeDone, raised]
    exact done
  · have first : SameBase u w := by rw [raised, cleared]; constructor <;> rfl
    exact first.trans (play.off.base.same play.off.generator)

end Sys2Proof.Machine

/-! The purge of a shelf as a whole, in any state: the calls, the agents, the groups' settings and counts, and the port (R27, R28, R52,
R72, R194). -/

namespace Sys2Proof.Machine

/-- The purge of shelf `x` from `s` to `t`, in its three parts: `v` has its calls purged and `u` its agents. -/
structure ShelfPurged (s v u t : State) (x : Shelf) : Prop where
  calls : CallsPurged s v x (s.callsOf x)
  agents : AgentsPurged v u (v.agentsOf x)
  ended : PurgeEnded u t x
  callsFlow : v = (s.callsOf x).foldl (State.purgeCall x) s
  agentsFlow : u = (v.agentsOf x).foldl State.purgeAgent v
  endFlow : t = u.purgeEnded x
  first : Moves false s v
  second : Moves false v u
  whole : Moves false s t

theorem callsOf_nodup (s : State) (x : Shelf) : (s.callsOf x).Nodup := findAll_nodup ..

theorem agentsOf_nodup (s : State) (x : Shelf) : (s.agentsOf x).Nodup := findAll_nodup ..

theorem mem_agentsOf (s : State) (x : Shelf) (a : AgentSlot) : a ∈ s.agentsOf x ↔ (s.agent a).home = x := by
  rw [State.agentsOf, mem_findAll]
  exact beq_iff_eq

theorem callsOf_eq (s : State) (x : Shelf) :
    s.callsOf x = (List.finRange 1024).filter fun c => (s.call c).any fun r => r.owner == x := findAll_eq ..

theorem agentsOf_eq (s : State) (x : Shelf) : s.agentsOf x = (List.finRange 512).filter fun a => (s.agent a).home == x := findAll_eq ..

theorem not_mem_callsOf {s : State} {x : Shelf} {c : CallSlot} {r : CallRec} (call : s.call c = some r) (owner : r.owner ≠ x) : c ∉ s.callsOf x := fun member => by
  obtain ⟨q, also, mine⟩ := (mem_callsOf s x c).mp member
  obtain rfl := Option.some.inj (call.symm.trans also)
  exact owner mine

theorem swept_state (ag : AgentRec) : ag.swept.state = .signedOut ∨ (ag.swept.state = .connected ∧ ag.swept.pending = .signOutPurge) := by
  unfold AgentRec.swept
  split
  next out => exact .inl out
  next connected => exact .inr ⟨connected, rfl⟩
  next => exact .inl rfl

theorem purgeShelf_purged (s : State) (x : Shelf) : ∃ v u, ShelfPurged s v u (s.purgeShelf x) x := by
  have used (c : CallSlot) (member : c ∈ s.callsOf x) : s.call c ≠ none := by
    obtain ⟨r, call, -⟩ := (mem_callsOf s x c).mp member
    rw [call]
    nofun
  refine ⟨(s.callsOf x).foldl (State.purgeCall x) s, _, purgeCalls_purged s x _ used (callsOf_nodup s x),
    purgeAgents_purged _ _ (agentsOf_nodup _ x), purgeEnded_ended _ x, rfl, rfl, rfl, ?_, ?_, purgeShelf_moves s x⟩
  · exact Moves.foldl (fun u c => purgeCall_moves u x c) _ s
  · exact Moves.foldl (fun u a => purgeAgent_moves u a) _ _

namespace ShelfPurged

variable {s v u t : State} {x : Shelf} (h : ShelfPurged s v u t x)
include h

theorem swaps : SwapsFollow s t := by
  have last : SwapsFollow u t := .of_groups h.ended.groups h.ended.sweep h.ended.base
  exact (h.calls.swaps.trans h.agents.swaps).trans last

theorem flags : FlagsFollow s t := (h.calls.flags.trans h.agents.flags).trans (.of_groups h.ended.groups)

theorem home (a : AgentSlot) : (v.agent a).home = (s.agent a).home := (h.first.definition a).home

theorem group (g : Group) : t.group g = u.group g := congrArg (Vector.get · g) h.ended.groups

theorem mem_agents (a : AgentSlot) : a ∈ v.agentsOf x ↔ (s.agent a).home = x := by rw [mem_agentsOf, h.home]

/-- An agent of the purged shelf ends as it is signed out or marked, owed nothing. -/
theorem agent_homed {a : AgentSlot} (home : (s.agent a).home = x) : t.agent a = { (v.agent a).swept with owed := false } := by
  have swept : u.agent a = (v.agent a).swept := (h.agents.agents a).trans (if_pos ((h.mem_agents a).mpr home))
  have still : (u.agent a).home = x := (h.second.definition a).home.trans ((h.home a).trans home)
  rw [h.ended.agents, if_pos still, swept]

/-- An agent of the other shelf ends as the purge of the calls has left it. -/
theorem agent_away {a : AgentSlot} (away : (s.agent a).home ≠ x) : t.agent a = v.agent a := by
  have same : u.agent a = v.agent a := (h.agents.agents a).trans (if_neg fun member => away ((h.mem_agents a).mp member))
  rw [h.ended.agents, same, if_neg]
  rw [h.home]
  exact away

theorem call_freed {c : CallSlot} {r : CallRec} (call : s.call c = some r) (owner : r.owner = x) : u.call c = none := by
  have gone := h.calls.calls c
  rw [if_pos ((mem_callsOf s x c).mpr ⟨r, call, owner⟩), Option.map_eq_none_iff] at gone
  exact Option.not_isSome_iff_eq_none.mp (by rw [h.agents.used, gone]; exact Bool.false_ne_true)

theorem call_kept {c : CallSlot} {r : CallRec} (call : s.call c = some r) (owner : r.owner ≠ x) :
    ∃ k, v.call c = some k ∧ k.offPlayout = r.offPlayout := h.calls.waiting (not_mem_callsOf call owner) call

/-- No call of the shelf is left. -/
theorem foreign : u.foreign x := by
  intro c q call owner
  obtain ⟨r, before, follows⟩ := (h.first.trans h.second).callsFollow c q call
  have same : q.owner = r.owner := congrArg Prod.fst follows.identity
  rw [h.call_freed before (same ▸ owner)] at call
  cases call

theorem purged : Purged s t x where
  freed c r call owner := by
    have gone := h.ended.calls c
    rwa [h.call_freed call owner, Option.map_none, Option.map_eq_none_iff] at gone
  kept c r call owner := by
    obtain ⟨k, still, -⟩ := h.call_kept call owner
    have used : (t.call c).isSome = true := by
      rw [← Option.isSome_map (f := CallRec.offPlayout), h.ended.calls, Option.isSome_map, h.agents.used, still]
      rfl
    obtain ⟨q, last⟩ := Option.isSome_iff_exists.mp used
    obtain ⟨r', before, follows⟩ := h.whole.callsFollow c q last
    obtain rfl := Option.some.inj (call.symm.trans before)
    have same := follows.identity
    simp only [CallRec.identity, Prod.mk.injEq] at same
    obtain ⟨owner, tag, arrival, seq, priority⟩ := same
    exact ⟨q, last, owner, tag, arrival, seq, priority⟩
  unused c none := h.whole.call_none none
  signedOut a home := by
    rw [h.agent_homed home]
    exact swept_state (v.agent a)
  definitions a :=
    have same := h.whole.definition a
    ⟨same.defined, same.home, same.skills⟩
  otherAgents a away free := by
    rw [h.agent_away away]
    refine h.calls.agents a fun c member r call binds => ?_
    obtain ⟨q, also, owner⟩ := (mem_callsOf s x c).mp member
    obtain rfl := Option.some.inj (call.symm.trans also)
    exact free c r call owner binds.1
  averages g := by
    have settings := h.swaps.settings g
    simp only [GroupRec.settings, Prod.mk.injEq] at settings
    exact settings
  port := h.ended.port h.foreign
  owed a home := by rw [h.agent_homed home]
  done := h.ended.done
  base := h.whole.base.same h.whole.generator

/-- The count of the calls purged at each group (R72). -/
theorem purgedStats (g : Group) (bound : ∀ c r, s.call c = some r → r.owner = x → r.state = .offered → r.boundAgent ≠ none) :
    (t.group g).stats.purged =
      bumped ((List.finRange 1024).filter fun c =>
        (s.call c).any fun r => r.owner == x && r.group == g && (r.state == .queued || r.state == .offered)).length
        (s.group g).stats.purged := by
  have lists : (s.callsOf x).filter (s.purgesAt g) = (List.finRange 1024).filter fun c =>
      (s.call c).any fun r => r.owner == x && r.group == g && (r.state == .queued || r.state == .offered) := by
    rw [callsOf_eq, List.filter_filter]
    refine List.filter_congr fun c _ => ?_
    rw [State.purgesAt]
    cases call : s.call c with
    | none => rfl
    | some r =>
      simp only [Option.any_some, CallRec.countsPurged]
      by_cases owner : r.owner = x
      · by_cases offered : r.state = .offered
        · have some_ := Option.isSome_iff_ne_none.mpr (bound c r call owner offered)
          simp [owner, offered, some_]
        · rw [beq_false_of_ne offered, owner, beq_self_eq_true, Bool.false_and, Bool.true_and, Bool.and_true]
      · rw [beq_false_of_ne owner, Bool.false_and, Bool.false_and, Bool.and_false]
  rw [h.group, h.agents.purged, h.calls.purged, lists]

end ShelfPurged

end Sys2Proof.Machine

/-! Where the purge of a shelf leads the agents, calls and agents being bound both ways (R27, R28, R107, R108, R116). -/

namespace Sys2Proof.Machine

namespace BindingsLegal

variable {s : State} (legal : BindingsLegal s) {a : AgentSlot} {c : CallSlot} {r : CallRec}
include legal

/-- The call that an agent is bound to is bound to the agent, and as the agent is. -/
theorem bindsTo (bound : (s.agent a).boundCall = some c) (call : s.call c = some r) : r.bindsTo a := by
  obtain ⟨k, also, mine⟩ := (legal.both a c).mp bound
  obtain rfl := Option.some.inj (call.symm.trans also)
  exact ⟨mine, (legal.calls c r call).mp (by rw [mine]; nofun)⟩

theorem boundCall (call : s.call c = some r) (binds : r.bindsTo a) : (s.agent a).boundCall = some c :=
  (legal.both a c).mpr ⟨r, call, binds.1⟩

/-- No other call is bound to the agent. -/
theorem only (bound : (s.agent a).boundCall = some c) (d : CallSlot) (k : CallRec) (call : s.call d = some k) (binds : k.bindsTo a) : d = c :=
  Option.some.inj ((legal.boundCall call binds).symm.trans bound)

theorem offered_iff (call : s.call c = some r) (binds : r.bindsTo a) : r.state = .offered ↔ (s.agent a).state = .offered :=
  legal.states c r a call binds.1

/-- A call and the agent it is bound to are both CONNECTED or neither. -/
theorem connected_iff (call : s.call c = some r) (binds : r.bindsTo a) : r.state = .connected ↔ (s.agent a).state = .connected := by
  have offered := legal.offered_iff call binds
  have engaged := (legal.agents a).mp (by rw [legal.boundCall call binds]; nofun)
  rcases binds.2 with mine | mine
  · have theirs := offered.mp mine
    rw [mine, theirs]
    exact ⟨nofun, nofun⟩
  · refine iff_of_true mine (engaged.resolve_left fun theirs => ?_)
    rw [offered.mpr theirs] at mine
    cases mine

/-- A CONNECTED agent has a call in use. -/
theorem connected_call (connected : (s.agent a).state = .connected) : ∃ c r, (s.agent a).boundCall = some c ∧ s.call c = some r := by
  obtain ⟨c, bound⟩ := Option.ne_none_iff_exists'.mp ((legal.agents a).mpr (.inr connected))
  obtain ⟨r, call, -⟩ := (legal.both a c).mp bound
  exact ⟨c, r, bound, call⟩

end BindingsLegal

/-- The end of a call reads the group's active set and the clock alone. -/
theorem afterCall_active {s w : State} (base : SameBase s w) (ag : AgentRec) (g : Group) (mark : SampleMark) :
    ag.afterCall w g mark = ag.afterCall (s.setGroup g { s.group g with active := (w.group g).active }) g mark := by
  unfold AgentRec.afterCall
  rw [State.setGroup_group_self]
  dsimp only
  rw [base.clock]
  rfl

theorem bereft_homed {ag : AgentRec} {x : Shelf} (home : ag.home = x) (w : State) (r : CallRec) : ag.bereft w x r =
    { ag.unbound .signedOut 0 0 with
      callsHandled := if r.state = .connected then min 65535 (ag.callsHandled + 1) else ag.callsHandled } := if_pos home

namespace ShelfPurged

variable {s v u t : State} {x : Shelf} (h : ShelfPurged s v u t x)
include h

/-- An agent without a call of the shelf is as it was when its turn comes. -/
theorem agent_spared {a : AgentSlot} (free : ∀ c r, s.call c = some r → r.owner = x → ¬r.bindsTo a) : v.agent a = s.agent a :=
  h.calls.agents a fun c member r call => by
    obtain ⟨q, also, owner⟩ := (mem_callsOf s x c).mp member
    obtain rfl := Option.some.inj (call.symm.trans also)
    exact free c r call owner

/-- An agent whose call of the shelf has been freed. -/
theorem agent_bereft (legal : BindingsLegal s) {a : AgentSlot} {c : CallSlot} {r : CallRec} (bound : (s.agent a).boundCall = some c)
    (call : s.call c = some r) (owner : r.owner = x) : ∃ w, SwapsFollow s w ∧ ∃ o, v.agent a = { (s.agent a).bereft w x r with owed := o } := by
  obtain ⟨w, swaps, o, record, -⟩ := h.calls.bound c ((mem_callsOf s x c).mpr ⟨r, call, owner⟩) r a call (legal.bindsTo bound call)
    (legal.only bound)
  exact ⟨w, swaps, o, record⟩

theorem purgedAgents (legal : BindingsLegal s) : PurgedAgents s t x where
  marked a c r home connected bound call owner := by
    have spared : v.agent a = s.agent a := h.agent_spared fun d k used mine binds => by
      obtain rfl := legal.only bound d k used binds
      obtain rfl := Option.some.inj (call.symm.trans used)
      exact owner mine
    have swept : (s.agent a).swept = { s.agent a with pending := .signOutPurge } := by
      unfold AgentRec.swept
      split
      next out => rw [connected] at out; cases out
      next => rfl
      next away => exact absurd connected away
    rw [h.agent_homed home, spared, swept]
  out a home mine := by
    rw [h.agent_homed home]
    by_cases lost : ∃ c r, s.call c = some r ∧ r.owner = x ∧ r.bindsTo a
    · obtain ⟨c, r, call, owner, binds⟩ := lost
      obtain ⟨w, -, o, record⟩ := h.agent_bereft legal (legal.boundCall call binds) call owner
      have engaged := (legal.agents a).mp (by rw [legal.boundCall call binds]; nofun)
      have signed : (s.agent a).state ≠ .signedOut := fun out => by
        rw [out] at engaged
        rcases engaged with e | e <;> cases e
      have connected : (r.state = .connected) = ((s.agent a).state = .connected) := propext (legal.connected_iff call binds)
      rw [if_neg signed, record, bereft_homed home]
      simp only [connected]
      rfl
    · have spared : v.agent a = s.agent a := h.agent_spared fun c r call owner binds => lost ⟨c, r, call, owner, binds⟩
      have away : (s.agent a).state ≠ .connected := fun connected => by
        obtain ⟨c, r, bound, call⟩ := legal.connected_call connected
        exact lost ⟨c, r, call, mine c r connected bound call, legal.bindsTo bound call⟩
      rw [spared]
      by_cases out : (s.agent a).state = .signedOut
      · rw [if_pos out, AgentRec.swept, out]
      · have swept : (s.agent a).swept = (s.agent a).unbound .signedOut 0 0 := by
          unfold AgentRec.swept
          split
          · contradiction
          · contradiction
          · rfl
        rw [if_neg out, if_neg away, swept]
        rfl
  freed a c r away offered bound call owner := by
    have binds := legal.bindsTo bound call
    have state := (legal.offered_iff call binds).mpr offered
    obtain ⟨w, -, o, record⟩ := h.agent_bereft legal bound call owner
    refine ⟨o, ?_⟩
    rw [h.agent_away away, record, AgentRec.bereft, if_neg away, state]
    rfl
  ended a c r away connected bound call owner := by
    have binds := legal.bindsTo bound call
    have state := (legal.connected_iff call binds).mpr connected
    obtain ⟨w, swaps, o, record⟩ := h.agent_bereft legal bound call owner
    refine ⟨(w.group r.group).active, o, swaps.active r.group, ?_⟩
    rw [h.agent_away away, record, AgentRec.bereft, if_neg away, if_pos state, ← afterCall_active swaps.base]

end ShelfPurged

end Sys2Proof.Machine

/-! The calls of the purged shelf in a state whose records agree: the queues, the watch conditions, and what the agents of the other shelf
hand and raise (R23, R28, R52, R75, R187). -/

namespace Sys2Proof.Machine

/-! ### The notices of agents that lose a call (R23, R187) -/

/-- The notice is an AGENT_STATE. -/
def Notice.isState : Notice → Bool
  | .agentState .. => true
  | _ => false

/-- The notice is an AGENT_STATE or a LISTEN. -/
def Notice.ofPurge : Notice → Prop
  | .agentState .. | .listen .. => True
  | _ => False

theorem listens_quiet {l : List Notice} (listens : ∀ n ∈ l, ∃ tag slot, n = .listen tag slot) :
    l.filter Notice.isState = [] ∧ ∀ n ∈ l, n.ofPurge := by
  refine ⟨List.filter_eq_nil_iff.mpr fun n member => ?_, fun n member => ?_⟩
  · obtain ⟨_, _, rfl⟩ := listens n member
    exact Bool.false_ne_true
  · obtain ⟨_, _, rfl⟩ := listens n member
    trivial

/-- From `s` to `u` port `p` has been handed the AGENT_STATE of each agent of the list, in its order, and LISTENs: the first of these agents
have been told of, as many as there was room for, and the others are owed to the port. -/
structure Tally (s u : State) (p : Port) (l : List AgentSlot) (m : List Notice) (n : Nat) : Prop where
  within : n ≤ l.length
  notices : (u.port p).notices = (s.port p).notices ++ m
  states : m.filter Notice.isState = (l.take n).map fun a => u.stateNotice a (u.agent a)
  kinds : ∀ k ∈ m, k.ofPurge
  room : (u.port p).notices.length < 64 → l.length ≤ n
  owed : ∀ a ∈ l.drop n, (u.agent a).owed = true ∧ ((s.agent a).owed = false → .agentState a ∈ (u.port p).owed)

theorem Tally.nil (s : State) (p : Port) : Tally s s p [] [] 0 where
  within := le_rfl
  notices := (List.append_nil _).symm
  states := rfl
  kinds _ h := nomatch h
  room _ := le_rfl
  owed _ h := nomatch h

section
variable {s u t : State} {y : Shelf} {l : List AgentSlot} {m : List Notice} {n : Nat}

theorem stateNotice_free {a : AgentSlot} {r : AgentRec} (free : r.boundCall = none) (clock : t.clock = u.clock) :
    t.stateNotice a r = u.stateNotice a r := by
  simp only [State.stateNotice, free, Option.bind_none, clock]

/-- LISTENs alone have been handed to the port since. -/
theorem Tally.listens (h : Tally s u (portOf y) l m n) (agents : ∀ a ∈ l, t.agent a = u.agent a) (free : ∀ a ∈ l, (u.agent a).boundCall = none)
    (clock : t.clock = u.clock)
    (told : ∃ k : List Notice, (∀ x ∈ k, ∃ tag slot, x = .listen tag slot) ∧ (t.port (portOf y)).notices = (u.port (portOf y)).notices ++ k)
    (owed : ∀ a, .agentState a ∈ (u.port (portOf y)).owed → .agentState a ∈ (t.port (portOf y)).owed) :
    ∃ m, Tally s t (portOf y) l m n := by
  obtain ⟨k, listens, placed⟩ := told
  obtain ⟨none, kinds⟩ := listens_quiet listens
  have earlier {a : AgentSlot} (member : a ∈ l.take n) : a ∈ l := List.mem_of_mem_take member
  refine ⟨m ++ k, h.within, by rw [placed, h.notices, List.append_assoc], ?_, fun x member => ?_, fun short => h.room ?_, fun a member => ?_⟩
  · rw [List.filter_append, none, List.append_nil, h.states]
    refine List.map_congr_left fun a member => ?_
    rw [agents a (earlier member), stateNotice_free (free a (earlier member)) clock]
  · rcases List.mem_append.mp member with old | new
    · exact h.kinds x old
    · exact kinds x new
  · rw [placed, List.length_append] at short
    omega
  · obtain ⟨flag, pair⟩ := h.owed a member
    rw [agents a (List.mem_of_mem_drop member)]
    exact ⟨flag, fun clear => owed a (pair clear)⟩

/-- One more agent has lost its call. -/
theorem Tally.bereaved {a : AgentSlot} {new : AgentRec} (h : Tally s u (portOf y) l m n) (agents : ∀ b ∈ l, t.agent b = u.agent b)
    (free : ∀ b ∈ l, (u.agent b).boundCall = none) (clock : t.clock = u.clock) (grows : PortsGrow u t) (home : new.home = y)
    (unbound : new.boundCall = none) (same : new.owed = (s.agent a).owed) (lost : Bereaved u t a new) :
    ∃ m n, Tally s t (portOf y) (l ++ [a]) m n := by
  obtain ⟨k, listens, placed⟩ := lost.notice
  have record := lost.record
  have owes := lost.owed
  subst home
  obtain ⟨none, kinds⟩ := listens_quiet listens
  have notice : t.stateNotice a (t.agent a) = u.stateNotice a new := by
    rw [record]
    simp only [State.stateNotice, unbound, Option.bind_none, clock]
  have older (i : Nat) : (l.take i).map (fun b => u.stateNotice b (u.agent b)) = (l.take i).map fun b => t.stateNotice b (t.agent b) :=
    List.map_congr_left fun b member => by
      have earlier := List.mem_of_mem_take member
      rw [agents b earlier, stateNotice_free (free b earlier) clock]
  by_cases room : u.hasRoom (portOf new.home) = true
  · rw [if_pos room] at placed
    have all : l.length ≤ n := h.room (of_decide_eq_true room)
    have full : n = l.length := le_antisymm h.within all
    refine ⟨m ++ ([u.stateNotice a new] ++ k), l.length + 1, by rw [List.length_append]; rfl, ?_, ?_, fun x member => ?_, fun _ => ?_, ?_⟩
    · rw [placed, h.notices]
      simp only [List.append_assoc]
    · have one : [u.stateNotice a new].filter Notice.isState = [u.stateNotice a new] := rfl
      rw [List.filter_append, List.filter_append, none, one, h.states, full, older, List.append_nil, List.take_of_length_le le_rfl,
        List.take_of_length_le (by rw [List.length_append]; exact le_rfl), List.map_append, List.map_singleton, notice]
    · rcases List.mem_append.mp member with old | new
      · exact h.kinds x old
      · rcases List.mem_append.mp new with this | later
        · obtain rfl := List.mem_singleton.mp this
          trivial
        · exact kinds x later
    · rw [List.length_append]
      exact le_rfl
    · rw [List.drop_eq_nil_of_le (by rw [List.length_append]; exact le_rfl)]
      nofun
  · have none_left : u.hasRoom (portOf new.home) = false := Bool.eq_false_of_not_eq_true room
    rw [if_neg room] at placed
    have long : 64 ≤ (u.port (portOf new.home)).notices.length := not_lt.mp (of_decide_eq_false none_left)
    refine ⟨m ++ k, n, h.within.trans (by rw [List.length_append]; omega), by rw [placed, h.notices, List.append_assoc], ?_, fun x member => ?_,
      fun short => ?_, fun b member => ?_⟩
    · rw [List.filter_append, none, List.append_nil, h.states, older, List.take_append_of_le_length h.within]
    · rcases List.mem_append.mp member with old | later
      · exact h.kinds x old
      · exact kinds x later
    · rw [placed, List.length_append] at short
      omega
    · rw [List.drop_append_of_le_length h.within] at member
      rcases List.mem_append.mp member with old | this
      · obtain ⟨flag, pair⟩ := h.owed b old
        rw [agents b (List.mem_of_mem_drop old)]
        exact ⟨flag, fun clear => (grows new.home).2 b (pair clear)⟩
      · obtain rfl := List.mem_singleton.mp this
        rw [record, none_left]
        exact ⟨Bool.or_true _, fun clear => owes none_left (same.trans clear)⟩

end

end Sys2Proof.Machine

/-! The purge of the calls of a shelf in a state whose records agree (R28, R52, R72, R75). -/

namespace Sys2Proof.Machine

theorem eq_other_of_ne {x y : Shelf} (h : y ≠ x) : y = other x := by
  cases x <;> cases y <;> simp_all [other]

/-- The agent of the other shelf that call `c` of the purged shelf `x` is taken from. -/
def State.bereftOf (s : State) (x : Shelf) (c : CallSlot) : Option AgentSlot :=
  (s.call c).bind fun r => if r.owner = x then r.boundAgent.filter fun a => (s.agent a).home != x else none

theorem bereftOf_iff {s : State} {x : Shelf} {c : CallSlot} {a : AgentSlot} {r : CallRec} (call : s.call c = some r) :
    s.bereftOf x c = some a ↔ r.owner = x ∧ r.boundAgent = some a ∧ (s.agent a).home ≠ x := by
  rw [State.bereftOf, call, Option.bind_some]
  split
  next owner => simp only [Option.filter_eq_some_iff, bne_iff_ne, owner, true_and]
  next other => exact ⟨nofun, fun all => absurd all.1 other⟩

theorem bereftOf_none {s : State} {x : Shelf} {c : CallSlot} (call : s.call c = none) : s.bereftOf x c = none := by
  rw [State.bereftOf, call, Option.bind_none]

/-- An agent that has lost its call is of the other shelf. -/
theorem bereft_away {s : State} {x : Shelf} {l : List CallSlot} {a : AgentSlot} (member : a ∈ l.filterMap (s.bereftOf x)) :
    (s.agent a).home ≠ x := by
  obtain ⟨c, -, from_⟩ := List.mem_filterMap.mp member
  cases call : s.call c with
  | none =>
    rw [bereftOf_none call] at from_
    cases from_
  | some r => exact ((bereftOf_iff call).mp from_).2.2

/-- The calls of the list, all of the purged shelf `x`, have been purged in a state whose records agree. -/
structure CallsLeft (s u : State) (x : Shelf) (l : List CallSlot) : Prop where
  linked : LinksLegal u
  queue : ∀ g, (u.group g).queue = (s.group g).queue.filter fun d => decide (d ∉ l)
  conditioned : ∀ g, Conditioned s u g
  raised : ∃ m, u.agentTriggers = s.agentTriggers ++ m
  triggered : ∀ a, a ∈ u.agentTriggers ↔ a ∈ s.agentTriggers ∨ (a ∈ l.filterMap (s.bereftOf x) ∧ (u.agent a).state = .ready)
  tally : ∃ m n, Tally s u (portOf (other x)) (l.filterMap (s.bereftOf x)) m n

theorem CallsLeft.nil {s : State} (legal : LinksLegal s) (x : Shelf) : CallsLeft s s x [] where
  linked := legal
  queue g := by
    rw [eq_comm, List.filter_eq_self]
    exact fun d _ => decide_eq_true List.not_mem_nil
  conditioned _ := .of_groups rfl rfl fun _ _ => rfl
  raised := ⟨[], (List.append_nil _).symm⟩
  triggered a := by simp
  tally := ⟨[], 0, .nil s _⟩

section
variable {s u t : State} {x : Shelf} {l : List CallSlot} {c : CallSlot} {k r : CallRec}

/-- An agent that has lost a call: which one, and as what. -/
theorem CallsPurged.bereft (h : CallsPurged s u x l) (legal : LinksLegal s) {a : AgentSlot} (member : a ∈ l.filterMap (s.bereftOf x)) :
    (u.agent a).boundCall = none ∧ ∃ d ∈ l, ∃ q, s.call d = some q ∧ q.bindsTo a := by
  obtain ⟨d, here, from_⟩ := List.mem_filterMap.mp member
  cases call : s.call d with
  | none =>
    rw [bereftOf_none call] at from_
    cases from_
  | some q =>
    obtain ⟨-, mine, -⟩ := (bereftOf_iff call).mp from_
    have bound : (s.agent a).boundCall = some d := (legal.bindings.both a d).mpr ⟨q, call, mine⟩
    have binds := legal.bindings.bindsTo bound call
    obtain ⟨w, -, o, record, -⟩ := h.bound d here q a call binds (legal.bindings.only bound)
    refine ⟨?_, d, here, q, call, binds⟩
    rw [record]
    exact bereft_boundCall ..

/-- The agents that have lost a call are not touched again. -/
theorem CallsPurged.bereft_still (h : CallsPurged s u x l) (legal : LinksLegal s) (new : c ∉ l) (call : s.call c = some r)
    (same : k.offPlayout = r.offPlayout) (one : CallPurged u t x c k) {a : AgentSlot} (member : a ∈ l.filterMap (s.bereftOf x)) :
    t.agent a = u.agent a := by
  obtain ⟨-, d, here, q, used, binds⟩ := h.bereft legal member
  refine one.agents a fun also => new ?_
  have bound := legal.bindings.boundCall used binds
  rw [legal.bindings.only bound c r call ((bindsTo_congr same a).mp also)]
  exact here

theorem CallsLeft.step (h : CallsPurged s u x l) (left : CallsLeft s u x l) (legal : LinksLegal s) (new : c ∉ l)
    (call : s.call c = some r) (owner : r.owner = x) (here : u.call c = some k) (same : k.offPlayout = r.offPlayout)
    (one : CallPurged u t x c k) (linked : LinksLegal t) (homes : ∀ a, (u.agent a).home = (s.agent a).home) (grows : PortsGrow u t) :
    CallsLeft s t x (l ++ [c]) := by
  have place (g : Group) (member : c ∈ (u.group g).queue) : g = k.group := by
    obtain ⟨q, also, group, -⟩ := (left.linked.queues.members g c).mp member
    obtain rfl := Option.some.inj (here.symm.trans also)
    exact group.symm
  have still {a : AgentSlot} := h.bereft_still (a := a) legal new call same one
  have free (a : AgentSlot) (member : a ∈ l.filterMap (s.bereftOf x)) := (h.bereft legal member).1
  have clock : t.clock = u.clock := one.swaps.base.clock
  obtain ⟨m, n, tally⟩ := left.tally
  obtain ⟨before, raised⟩ := left.raised
  have queue (g : Group) : (t.group g).queue = (s.group g).queue.filter fun d => decide (d ∉ l ++ [c]) := by
    have gone : (t.group g).queue = (u.group g).queue.filter (· != c) := by
      rw [one.queue]
      split
      next => rfl
      next ne =>
        rw [eq_comm, List.filter_eq_self]
        exact fun d member => bne_iff_ne.mpr fun e => ne (place g (e ▸ member))
    rw [gone, left.queue, List.filter_filter]
    refine List.filter_congr fun d _ => ?_
    rw [Bool.eq_iff_iff]
    simp [and_comm]
  have conditioned (g : Group) := (left.conditioned g).trans (one.conditioned place g)
  obtain ⟨state, -, boundAgent, -⟩ := off_fields same
  cases from_ : s.bereftOf x c with
  | none =>
    have homed (a : AgentSlot) (binds : k.bindsTo a) : (u.agent a).home = x := by
      by_contra away
      rw [homes] at away
      have found := (bereftOf_iff call).mpr ⟨owner, boundAgent.symm.trans binds.1, away⟩
      rw [from_] at found
      cases found
    obtain ⟨triggers, listens⟩ := one.plain homed
    have list : (l ++ [c]).filterMap (s.bereftOf x) = l.filterMap (s.bereftOf x) := by
      rw [List.filterMap_append, List.filterMap_cons_none from_, List.filterMap_nil, List.append_nil]
    refine ⟨linked, queue, conditioned, ⟨before, triggers.trans raised⟩, fun a => ?_, ?_⟩
    · rw [triggers, left.triggered, list]
      refine or_congr_right (and_congr_right fun member => ?_)
      rw [still member]
    · obtain ⟨m, tally⟩ := tally.listens (fun a => still) free clock (listens _) (grows _).2
      rw [list]
      exact ⟨m, n, tally⟩
  | some a =>
    obtain ⟨-, mine, away⟩ := (bereftOf_iff call).mp from_
    have bound : (s.agent a).boundCall = some c := (legal.bindings.both a c).mpr ⟨r, call, mine⟩
    have binds : k.bindsTo a := (bindsTo_congr same a).mpr (legal.bindings.bindsTo bound call)
    have untouched : u.agent a = s.agent a := h.agents a fun d member q used also =>
      new (legal.bindings.only bound d q used also ▸ member)
    have lost := one.bereaved a binds (by rw [homes]; exact away)
    have list : (l ++ [c]).filterMap (s.bereftOf x) = l.filterMap (s.bereftOf x) ++ [a] := by
      rw [List.filterMap_append, List.filterMap_cons_some from_, List.filterMap_nil]
    have elsewhere : ((u.agent a).bereft u x k).home = other x := by
      rw [bereft_home, homes]
      exact eq_other_of_ne away
    have now : (t.agent a).state = ((u.agent a).bereft u x k).state := by rw [lost.record]
    have trigger := lost.trigger
    rw [← now] at trigger
    refine ⟨linked, queue, conditioned, ?_, fun b => ?_, ?_⟩
    · rw [trigger, raised]
      split
      · exact ⟨before ++ [a], List.append_assoc ..⟩
      · exact ⟨before, rfl⟩
    · have old : (b ∈ l.filterMap (s.bereftOf x) ∧ (u.agent b).state = .ready) ↔ (b ∈ l.filterMap (s.bereftOf x) ∧ (t.agent b).state = .ready) :=
        and_congr_right fun member => by rw [still member]
      have either : b ∈ t.agentTriggers ↔ b ∈ u.agentTriggers ∨ (b = a ∧ (t.agent a).state = .ready) := by
        rw [trigger]
        split
        next both => rw [List.mem_append, List.mem_singleton, and_iff_left both.1]
        next neither =>
          refine ⟨.inl, fun either => either.elim id fun this => ?_⟩
          obtain ⟨rfl, ready⟩ := this
          exact not_not.mp fun absent => neither ⟨ready, absent⟩
      rw [either, left.triggered, old, list, List.mem_append, List.mem_singleton, or_and_right, or_assoc]
      refine or_congr_right (or_congr_right (and_congr_right fun e => ?_))
      rw [e]
    · rw [list]
      exact tally.bereaved (fun b => still) free clock grows elsewhere (bereft_boundCall ..) (by rw [bereft_owed, untouched]) lost

end

/-- The purge of the calls of a list, all of the shelf. -/
theorem purgeCalls_left {s : State} (legal : LinksLegal s) (x : Shelf) (l : List CallSlot) (owned : ∀ c ∈ l, ∃ r, s.call c = some r ∧ r.owner = x)
    (once : l.Nodup) : CallsLeft s (l.foldl (State.purgeCall x) s) x l := by
  induction l using List.reverseRecOn with
  | nil => exact .nil legal x
  | append_singleton l c ih =>
    rw [List.nodup_append] at once
    obtain ⟨first, -, apart⟩ := once
    have new : c ∉ l := fun member => apart c member c (List.mem_singleton_self c) rfl
    have earlier (d : CallSlot) (member : d ∈ l) := owned d (List.mem_append_left _ member)
    have before := purgeCalls_purged s x l (fun d member => by obtain ⟨q, used, -⟩ := earlier d member; rw [used]; nofun) first
    have left := ih earlier first
    have moves : Moves false s (l.foldl (State.purgeCall x) s) := Moves.foldl (fun u c => purgeCall_moves u x c) _ s
    obtain ⟨r, call, owner⟩ := owned c (List.mem_append_right _ (List.mem_singleton_self c))
    rw [List.foldl_append, List.foldl_cons, List.foldl_nil]
    generalize l.foldl (State.purgeCall x) s = u at *
    obtain ⟨k, here, same⟩ := before.waiting new call
    have linked := (linksLegal_iff _).mpr (((linksLegal_iff u).mp left.linked).purgeCall x c)
    exact left.step before legal new call owner here same (purgeCall_purged x here) linked (fun a => (moves.definition a).home)
      (portsGrow_full.purgeCall u x c)

end Sys2Proof.Machine

/-! NO_STAFF through the purge of the calls (R27, R49; log entry 31): a group whose calls all stand OFFERED to agents that staff it is not
left without staff by the freeing of the calls, each before its agent is signed out. -/

namespace Sys2Proof.Machine

/-- Each call of group `g`'s queue stands OFFERED to an agent that staffs the group. -/
def State.crewed (s : State) (g : Group) : Prop := ∀ d ∈ (s.group g).queue, ∃ q a,
  s.call d = some q ∧ q.state = .offered ∧ q.boundAgent = some a ∧ (s.agent a).staffs g = true

theorem noStaffHolds_of_staffed {s : State} {g : Group} (h : (s.group g).queue ≠ [] → (s.group g).staffed ≠ 0) : s.noStaffHolds g = false := by
  rw [State.noStaffHolds]
  by_cases empty : (s.group g).queue = []
  · rw [empty]
    rfl
  · rw [beq_false_of_ne (h empty), Bool.and_false]

/-- A group keeps its staff through a change of an agent, if another agent staffs it besides wherever a call waits. -/
theorem Restaffed.crewed {s t : State} {a : AgentSlot} {new : AgentRec} (h : Restaffed s t a new) {g : Group}
    (enough : (s.group g).queue ≠ [] → (s.agent a).staffs g = true → 1 < (s.group g).staffed) : StaysManned s t g := by
  refine h.manned fun differs => noStaffHolds_of_staffed fun waits => ?_
  rw [h.queue] at waits
  rw [h.staffed, staffedAfter, if_neg differs]
  split
  · exact Nat.succ_ne_zero _
  next gone =>
    have before : (s.agent a).staffs g = true := by
      cases was : (s.agent a).staffs g with
      | true => rfl
      | false => exact absurd (was.trans (Bool.eq_false_of_not_eq_true gone).symm) differs
    have := enough waits before
    omega

section
variable {s : State} {x : Shelf} {c : CallSlot} {k : CallRec} {g : Group} {a : AgentSlot} (legal : LinksLegal s) (crew : s.crewed g)
include legal crew

/-- Where another call waits, its agent staffs the group. -/
theorem crewed_staffed (waits : ∃ d ∈ (s.group g).queue, d ≠ c) : (s.group g).staffed ≠ 0 := by
  obtain ⟨d, member, -⟩ := waits
  obtain ⟨q, b, -, -, -, staffs⟩ := crew d member
  rw [legal.counts.staffed]
  exact List.length_pos_iff.mpr (List.ne_nil_of_mem (List.mem_filter.mpr ⟨List.mem_finRange b, staffs⟩)) |>.ne'

/-- And it is another than the agent of call `c`. -/
theorem crewed_besides (waits : ∃ d ∈ (s.group g).queue, d ≠ c) (call : s.call c = some k) (bound : k.boundAgent = some a)
    (mine : (s.agent a).staffs g = true) : 1 < (s.group g).staffed := by
  obtain ⟨d, member, other⟩ := waits
  obtain ⟨q, b, used, -, theirs, staffs⟩ := crew d member
  have apart : a ≠ b := fun e => by
    subst e
    have first := (legal.bindings.both a c).mpr ⟨k, call, bound⟩
    have second := (legal.bindings.both a d).mpr ⟨q, used, theirs⟩
    exact other (Option.some.inj (second.symm.trans first))
  rw [legal.counts.staffed]
  have pair : [a, b].Nodup := by simpa using apart
  refine (List.subperm_of_subset pair fun i member => ?_).length_le
  refine List.mem_filter.mpr ⟨List.mem_finRange i, ?_⟩
  rcases List.mem_pair.mp member with rfl | rfl
  · exact mine
  · exact staffs

omit legal in
/-- A call that is not OFFERED is not in the queue. -/
theorem crewed_out (call : s.call c = some k) (state : k.state ≠ .offered) : c ∉ (s.group g).queue := fun member => by
  obtain ⟨q, b, used, offered, -⟩ := crew c member
  obtain rfl := Option.some.inj (call.symm.trans used)
  exact state offered

theorem purgedQueued_manned (call : s.call c = some k) (queued : k.state = .queued) : StaysManned s (State.purgeCall x s c) g := by
  rw [purgeCall_queued call queued]
  have group := modStats_group s k.group g fun q => { q with purged := bump q.purged }
  have counted : StaysManned s (s.modStats k.group fun q => { q with purged := bump q.purged }) g := .of_same (by rw [group]) (by rw [group])
  have freed : Freed (s.modStats k.group fun q => { q with purged := bump q.purged }) _ c k := freeCall_freed call
  refine counted.trans (freed.manned fun _ member => absurd ?_ (crewed_out crew call (by rw [queued]; nofun)))
  rwa [group] at member

theorem purgedElse_manned (call : s.call c = some k) (queued : k.state ≠ .queued) (free : ∀ a, ¬k.bindsTo a) :
    StaysManned s (State.purgeCall x s c) g := by
  rw [purgeCall_else call queued free]
  refine (freeCall_freed call).manned fun _ member => ?_
  obtain ⟨q, b, used, offered, bound, -⟩ := crew c member
  obtain rfl := Option.some.inj (call.symm.trans used)
  exact absurd ⟨bound, .inl offered⟩ (free b)

theorem purgedConnected_manned (call : s.call c = some k) (connected : k.state = .connected) (bound : k.boundAgent = some a) :
    StaysManned s (State.purgeCall x s c) g := by
  have out := crewed_out crew call (by rw [connected]; nofun)
  have waits (some_ : (s.group g).queue ≠ []) : ∃ d ∈ (s.group g).queue, d ≠ c := by
    obtain ⟨d, member⟩ := List.exists_mem_of_ne_nil _ some_
    exact ⟨d, member, fun e => out (e ▸ member)⟩
  have here : (s.putCall c (some { k with boundAgent := none })).call c = _ := State.putCall_call_self ..
  have unbound : StaysManned s (s.putCall c (some { k with boundAgent := none })) g := .of_same rfl rfl
  have after {v : State} {new : AgentRec} (change : Restaffed (s.putCall c (some { k with boundAgent := none })) v a new) :
      StaysManned s (v.freeCall c) g := by
    refine (unbound.trans (change.crewed fun some_ mine =>
      show 1 < (s.group g).staffed from crewed_besides legal crew (waits some_) call bound mine)).trans
      ((freeCall_freed ((change.call c).trans here)).manned fun _ member => absurd ?_ out)
    rwa [change.queue] at member
  rw [purgeCall_connected call connected bound]
  by_cases home : (s.agent a).home = x
  · rw [purgeConnected_homed call home]
    exact after (writeAgent_rewritten ..).restaffed
  · rw [purgeConnected_away call home]
    exact after (moveAgent_change ..).toAgentEffect.restaffed

theorem purgedOffered_manned (call : s.call c = some k) (offered : k.state = .offered) (bound : k.boundAgent = some a) :
    StaysManned s (State.purgeCall x s c) g := by
  have here := purgedOffer_call s c k
  have group : (s.purgedOffer c k).group g = _ := modStats_group (s.putCall c (some { k with boundAgent := none, ring := none })) k.group g _
  have counted : StaysManned s (s.purgedOffer c k) g := .of_same (by rw [group]; rfl) (by rw [group]; rfl)
  have queue : ((s.purgedOffer c k).group g).queue = (s.group g).queue := by rw [group]; rfl
  have staffed : ((s.purgedOffer c k).group g).staffed = (s.group g).staffed := by rw [group]; rfl
  have agent (b : AgentSlot) : (s.purgedOffer c k).agent b = s.agent b := rfl
  have last (u : State) : StaysManned u ((u.endOffer k.group).swapIfQuiet k.group) g := by
    have ended := endOffer_group u k.group g
    have quiet : StaysManned u (u.endOffer k.group) g := .of_same (by rw [ended]) (by rw [ended])
    exact quiet.trans ((swapIfQuiet_settled _ k.group).manned g)
  /- The freeing, and what it leaves in the queue. -/
  have frees {v : State} {q : CallRec} (used : v.call c = some q) (same : (v.group g).queue = (s.group g).queue)
      (crewStill : (v.group g).staffed = (s.group g).staffed) : StaysManned v (v.freeCall c) g := by
    have freed := freeCall_freed used
    refine freed.manned fun mine _ => noStaffHolds_of_staffed fun waits => ?_
    have record := freed.group
    rw [← mine] at record
    rw [record] at waits
    obtain ⟨d, member⟩ := List.exists_mem_of_ne_nil _ waits
    obtain ⟨old, ne⟩ := List.mem_filter.mp member
    rw [show ((v.freeCall c).group g).staffed = (v.group g).staffed from (congrArg GroupRec.staffed record :), crewStill]
    exact crewed_staffed legal crew ⟨d, same ▸ old, bne_iff_ne.mp ne⟩
  rw [purgeCall_offered call offered bound]
  by_cases home : (s.agent a).home = x
  · rw [purgeOffer_homed call home]
    have freed := freeCall_freed here
    have first := counted.trans (frees here queue staffed)
    have change := (writeAgent_rewritten ((s.purgedOffer c k).freeCall c) a ((s.agent a).unbound .signedOut 0 0)).restaffed
    refine (first.trans (change.crewed fun waits mine => ?_)).trans (last _)
    have agents : ((s.purgedOffer c k).freeCall c).agent a = s.agent a := (congrArg (Vector.get · a) freed.agents).trans (agent a)
    rw [agents] at mine
    have left : (((s.purgedOffer c k).freeCall c).group g).staffed = (s.group g).staffed
        ∧ ∀ d ∈ (((s.purgedOffer c k).freeCall c).group g).queue, d ∈ (s.group g).queue ∧ d ≠ c := by
      by_cases mine : g = k.group
      · subst mine
        rw [freed.group]
        refine ⟨staffed, fun d member => ?_⟩
        obtain ⟨old, ne⟩ := List.mem_filter.mp member
        exact ⟨queue ▸ old, bne_iff_ne.mp ne⟩
      · rw [freed.otherGroups g mine, queue]
        refine ⟨staffed, fun d member => ⟨member, fun e => mine ?_⟩⟩
        obtain ⟨q, used, named, -⟩ := (legal.queues.members g d).mp member
        obtain rfl := Option.some.inj (call.symm.trans (e ▸ used))
        exact named.symm
    rw [left.1]
    obtain ⟨d, member⟩ := List.exists_mem_of_ne_nil _ waits
    exact crewed_besides legal crew ⟨d, left.2 d member⟩ call bound mine
  · rw [purgeOffer_away call home]
    have change := (moveAgent_change (s.purgedOffer c k) a ((s.agent a).unbound .ready 0 (s.agent a).idleSince)).toAgentEffect.restaffed
    have still : ((s.purgedOffer c k).agent a).staffs g = ((s.agent a).unbound .ready 0 (s.agent a).idleSince).staffs g := by
      have engaged := (legal.bindings.states c k a call bound).mp offered
      rw [agent, AgentRec.staffs, AgentRec.staffs, engaged]
      rfl
    have moved := change.manned (g := g) fun differs => absurd still differs
    have kept := change.kept g still
    refine (counted.trans moved).trans ((frees ((change.call c).trans here) ?_ ?_).trans (last _))
    · rw [kept, queue]
    · rw [kept, staffed]

/-- The purge of a call leaves no group unstaffed whose calls all stand OFFERED to agents that staff it. -/
theorem purgeCall_manned (x : Shelf) (call : s.call c = some k) : StaysManned s (State.purgeCall x s c) g := by
  by_cases queued : k.state = .queued
  · exact purgedQueued_manned legal crew call queued
  by_cases bound : ∃ a, k.bindsTo a
  · obtain ⟨a, bound, offered | connected⟩ := bound
    · exact purgedOffered_manned legal crew call offered bound
    · exact purgedConnected_manned legal crew call connected bound
  · exact purgedElse_manned legal crew call queued fun a binds => bound ⟨a, binds⟩

end

/-- The purge of a list of calls of the shelf, among them each that group `g`'s queue holds. -/
theorem purgeCalls_manned {s : State} (legal : LinksLegal s) (x : Shelf) {g : Group} (crew : s.crewed g) (l : List CallSlot)
    (owned : ∀ c ∈ l, ∃ r, s.call c = some r ∧ r.owner = x) (once : l.Nodup) : StaysManned s (l.foldl (State.purgeCall x) s) g := by
  induction l using List.reverseRecOn with
  | nil => exact .of_same rfl rfl
  | append_singleton l c ih =>
    rw [List.nodup_append] at once
    obtain ⟨first, -, apart⟩ := once
    have new : c ∉ l := fun member => apart c member c (List.mem_singleton_self c) rfl
    have earlier (d : CallSlot) (member : d ∈ l) := owned d (List.mem_append_left _ member)
    have before := purgeCalls_purged s x l (fun d member => by obtain ⟨q, used, -⟩ := earlier d member; rw [used]; nofun) first
    have left := purgeCalls_left legal x l earlier first
    have manned := ih earlier first
    obtain ⟨r, call, -⟩ := owned c (List.mem_append_right _ (List.mem_singleton_self c))
    rw [List.foldl_append, List.foldl_cons, List.foldl_nil]
    generalize l.foldl (State.purgeCall x) s = u at *
    obtain ⟨k, here, -⟩ := before.waiting new call
    refine manned.trans (purgeCall_manned left.linked (fun d member => ?_) x here)
    rw [left.queue, List.mem_filter, decide_eq_true_eq] at member
    obtain ⟨q, a, used, offered, bound, staffs⟩ := crew d member.1
    obtain ⟨q', now, same⟩ := before.waiting member.2 used
    obtain ⟨state, -, boundAgent, -⟩ := off_fields same
    have mine := (legal.bindings.both a d).mpr ⟨q, used, bound⟩
    have untouched : u.agent a = s.agent a := before.agents a fun e old p also binds =>
      member.2 (legal.bindings.only mine e p also binds ▸ old)
    exact ⟨q', a, now, state.trans offered, boundAgent.trans bound, by rw [untouched]; exact staffs⟩

end Sys2Proof.Machine

/-! The agents of the purged shelf in a state whose records agree: the calls of the other shelf whose offers they take with them (R49,
R69, R72, R93, R101, R108). -/

namespace Sys2Proof.Machine

/-! ### Calls whose offers are withdrawn -/

/-- Call `c`, of record `r` and of the other shelf, stands OFFERED to agent `a` of the purged shelf `x`. -/
structure OffersTo (s : State) (x : Shelf) (a : AgentSlot) (c : CallSlot) (r : CallRec) : Prop where
  call : s.call c = some r
  owner : r.owner ≠ x
  offered : r.state = .offered
  bound : r.boundAgent = some a
  home : (s.agent a).home = x

theorem withdrawn_iff {s : State} {x : Shelf} {c : CallSlot} : Withdrawn s x c ↔ ∃ a r, OffersTo s x a c r := by
  constructor
  · rintro ⟨r, a, call, owner, offered, bound, home⟩
    exact ⟨a, r, call, owner, offered, bound, home⟩
  · rintro ⟨a, r, call, owner, offered, bound, home⟩
    exact ⟨r, a, call, owner, offered, bound, home⟩

namespace OffersTo

variable {s : State} {x : Shelf} {a b : AgentSlot} {c : CallSlot} {q r : CallRec}

theorem withdrawn (h : OffersTo s x a c r) : Withdrawn s x c := withdrawn_iff.mpr ⟨a, r, h⟩

theorem same_agent (h : OffersTo s x a c r) (k : OffersTo s x b c q) : b = a := by
  obtain rfl := Option.some.inj (h.call.symm.trans k.call)
  exact Option.some.inj (k.bound.symm.trans h.bound)

theorem bindsTo (h : OffersTo s x a c r) : r.bindsTo a := ⟨h.bound, .inl h.offered⟩

/-- With an overflow pending it does not keep its place. -/
theorem keepsPlace (h : OffersTo s x a c r) : s.keepsPlace x c = !r.pendingOverflow := by
  have owner : (r.owner != x) = true := bne_iff_ne.mpr h.owner
  have home : ((s.agent a).home == x) = true := beq_iff_eq.mpr h.home
  rw [State.keepsPlace, h.call, Option.any_some, owner, h.offered, h.bound, Option.any_some, home]
  simp

end OffersTo

/-- A call of the other shelf keeps its place, or stands OFFERED to an agent of the purged one. -/
theorem keepsPlace_or {s : State} {x : Shelf} {c : CallSlot} {r : CallRec} (call : s.call c = some r) (owner : r.owner ≠ x) :
    s.keepsPlace x c = true ∨ Withdrawn s x c := by
  by_cases withdrawn : Withdrawn s x c
  · exact .inr withdrawn
  · refine .inl ?_
    have away : (r.state == .offered && r.pendingOverflow && r.boundAgent.any fun a => (s.agent a).home == x) = false := by
      refine Bool.eq_false_of_not_eq_true fun all => withdrawn ?_
      simp only [Bool.and_eq_true, beq_iff_eq, Option.any_eq_true] at all
      obtain ⟨⟨offered, -⟩, a, bound, home⟩ := all
      exact ⟨r, a, call, owner, offered, bound, home⟩
    rw [State.keepsPlace, call, Option.any_some, away, bne_iff_ne.mpr owner]
    rfl

theorem keepsPlace_owner {s : State} {x : Shelf} {c : CallSlot} (keeps : s.keepsPlace x c = true) : c ∉ s.callsOf x := fun member => by
  obtain ⟨r, call, owner⟩ := (mem_callsOf s x c).mp member
  rw [State.keepsPlace, call, Option.any_some, owner, bne_self_eq_false] at keeps
  cases keeps

/-! ### The groups on the way -/

theorem PurgeGroups.of_swaps {s u : State} {x : Shelf} (swaps : SwapsFollow s u)
    (order : ∀ g, (u.group g).queue.filter (s.keepsPlace x) = (s.group g).queue.filter (s.keepsPlace x))
    (members : ∀ g, ∀ c ∈ (u.group g).queue, s.keepsPlace x c = true ∨ Withdrawn s x c) : PurgeGroups s u x where
  clock := swaps.base.clock
  lines := swaps.base.lines
  closed g := by
    have settings := swaps.settings g
    simp only [GroupRec.settings, Prod.mk.injEq] at settings
    exact settings.2.1
  active := swaps.active
  order := order
  members := members

/-- A filter that drops a call does not see where it stands. -/
theorem filter_of_dropped {l m : List CallSlot} {c : CallSlot} (same : l.filter (· != c) = m.filter (· != c)) {p : CallSlot → Bool}
    (drops : p c = false) : l.filter p = m.filter p := by
  have through (l : List CallSlot) : (l.filter (· != c)).filter p = l.filter p := by
    rw [List.filter_filter]
    refine List.filter_congr fun d _ => ?_
    by_cases at_ : d = c
    · rw [at_, drops, Bool.false_and]
    · rw [bne_iff_ne.mpr at_, Bool.and_true]
  rw [← through, same, through]

theorem mem_of_dropped {l m : List CallSlot} {c d : CallSlot} (same : l.filter (· != c) = m.filter (· != c)) (other : d ≠ c) :
    d ∈ l ↔ d ∈ m := by
  have here (l : List CallSlot) : d ∈ l.filter (· != c) ↔ d ∈ l := by
    rw [List.mem_filter, and_iff_left (bne_iff_ne.mpr other)]
  rw [← here, same, here]

namespace ShelfPurged

variable {s v u t : State} {x : Shelf} (h : ShelfPurged s v u t x) (legal : LinksLegal s)
include h legal

/-- An agent of the purged shelf withdraws the call that stands OFFERED to it and is of the other shelf. -/
theorem withdraws_iff_offers {a : AgentSlot} {c : CallSlot} (home : (s.agent a).home = x) :
    v.withdraws a = some c ↔ ∃ r, OffersTo s x a c r := by
  constructor
  · intro withdraws
    obtain ⟨offered, bound, k, -⟩ := withdraws_iff.mp withdraws
    have free (d : CallSlot) (q : CallRec) (call : s.call d = some q) (owner : q.owner = x) (binds : q.bindsTo a) : False := by
      obtain ⟨w, -, o, record⟩ := h.agent_bereft legal.bindings (legal.bindings.boundCall call binds) call owner
      rw [record, bereft_homed home] at offered
      cases offered
    have spared : v.agent a = s.agent a := h.agent_spared free
    rw [spared] at offered bound
    obtain ⟨r, call, mine⟩ := (legal.bindings.both a c).mp bound
    have binds := legal.bindings.bindsTo bound call
    exact ⟨r, call, fun owner => free c r call owner binds, (legal.bindings.offered_iff call binds).mpr offered, mine, home⟩
  · rintro ⟨r, offers⟩
    have bound := legal.bindings.boundCall offers.call offers.bindsTo
    have spared : v.agent a = s.agent a := h.agent_spared fun d q call owner binds => by
      obtain rfl := legal.bindings.only bound d q call binds
      obtain rfl := Option.some.inj (offers.call.symm.trans call)
      exact offers.owner owner
    obtain ⟨k, still, -⟩ := h.call_kept offers.call offers.owner
    refine withdraws_iff.mpr ⟨?_, ?_, k, still⟩
    · rw [spared]
      exact (legal.bindings.offered_iff offers.call offers.bindsTo).mp offers.offered
    · rw [spared]
      exact bound

theorem callsLeft : CallsLeft s v x (s.callsOf x) := by
  rw [h.callsFlow]
  exact purgeCalls_left legal x _ (fun c member => (mem_callsOf s x c).mp member) (callsOf_nodup s x)

/-- The groups once the calls of the shelf are gone. -/
theorem groups_first : PurgeGroups s v x := by
  have left := h.callsLeft legal
  refine .of_swaps h.calls.swaps (fun g => ?_) fun g c member => ?_
  · rw [left.queue, List.filter_filter]
    refine List.filter_congr fun c _ => ?_
    cases keeps : s.keepsPlace x c with
    | false => rfl
    | true => exact decide_eq_true (keepsPlace_owner keeps)
  · rw [left.queue, List.mem_filter, decide_eq_true_eq] at member
    obtain ⟨r, call, -⟩ := (legal.queues.members g c).mp member.1
    exact keepsPlace_or call fun owner => member.2 ((mem_callsOf s x c).mpr ⟨r, call, owner⟩)

end ShelfPurged

/-! ### The sign-outs, one after another -/

theorem withdrawn_congr {k r : CallRec} (same : k.offPlayout = r.offPlayout) (w : State) (a : AgentSlot) :
    ((k.returned a false).overflowed w (if k.pendingOverflow then w.overflowTo k else none)).offPlayout =
      ((r.returned a false).overflowed w (if r.pendingOverflow then w.overflowTo r else none)).offPlayout := by
  have pending : k.pendingOverflow = r.pendingOverflow := (congrArg CallRec.pendingOverflow same :)
  have target : w.overflowTo k = w.overflowTo r := (congrArg w.overflowTo same :)
  rw [pending, target]
  generalize (if r.pendingOverflow then w.overflowTo r else none) = o
  have through := congrArg (fun q : CallRec => ((q.returned a false).overflowed w o).offPlayout) same
  cases o with
  | none => exact through
  | some g => exact through

/-- The agents of the list, all homed on the purged shelf `x`, have been signed out or marked, from `v` to `u`. -/
structure AgentsLeft (s v u : State) (x : Shelf) (l : List AgentSlot) : Prop where
  linked : LinksLegal u
  groups : PurgeGroups s u x
  withdrawn : ∀ a ∈ l, ∀ c r, OffersTo s x a c r → ∃ q w, PurgeGroups s w x ∧ u.call c = some q ∧ q.offPlayout =
    ((r.returned a false).overflowed w (if r.pendingOverflow then w.overflowTo r else none)).offPlayout
  raised : ∃ m, u.callTriggers = v.callTriggers ++ m
  triggered : ∀ c, c ∈ u.callTriggers ↔ c ∈ v.callTriggers ∨ ∃ a ∈ l, ∃ r, OffersTo s x a c r
  conditioned : ∀ g, Conditioned v u g
  manned : (∀ c, ¬(Withdrawn s x c ∧ s.keepsPlace x c = false)) → ∀ g, (v.group g).queue = [] →
    (u.group g).queue = [] ∧ StaysManned v u g

namespace ShelfPurged

variable {s v u t w z : State} {x : Shelf} {l : List AgentSlot} {a : AgentSlot} (h : ShelfPurged s v u t x) (legal : LinksLegal s)
include h legal

/-- An agent without an offer to withdraw. -/
theorem agent_steady (before : AgentsPurged v w l) (left : AgentsLeft s v w x l) (home : (s.agent a).home = x)
    (none : v.withdraws a = none) (linked : LinksLegal z) (steady : SteadyPiece Option.none w z)
    (manned : ∀ g, (w.group g).queue = [] → StaysManned w z g) : AgentsLeft s v z x (l ++ [a]) := by
  have unoffered (c : CallSlot) (r : CallRec) (offers : OffersTo s x a c r) : False := by
    have withdraws := (h.withdraws_iff_offers legal home).mpr ⟨r, offers⟩
    rw [none] at withdraws
    cases withdraws
  refine ⟨linked, .of_swaps ((h.calls.swaps.trans before.swaps).trans steady.swaps) (fun g => ?_) (fun g c member => ?_),
    fun b member c r offers => ?_, ?_, fun c => ?_, fun g => (left.conditioned g).trans (steady.conditioned g), fun kept g empty => ?_⟩
  · rw [steady.queue]
    exact left.groups.order g
  · rw [steady.queue] at member
    exact left.groups.members g c member
  · rcases List.mem_append.mp member with old | last
    · obtain ⟨q, y, groups, back, fields⟩ := left.withdrawn b old c r offers
      have still := steady.calls c nofun
      rw [back, Option.map_some, Option.map_eq_some_iff] at still
      obtain ⟨q', now, same⟩ := still
      exact ⟨q', y, groups, now, same.trans fields⟩
    · obtain rfl := List.mem_singleton.mp last
      exact (unoffered c r offers).elim
  · rw [steady.callTriggers]
    exact left.raised
  · rw [steady.callTriggers, left.triggered]
    refine or_congr_right ⟨fun ⟨b, member, offers⟩ => ⟨b, List.mem_append_left _ member, offers⟩, fun ⟨b, member, r, offers⟩ => ?_⟩
    rcases List.mem_append.mp member with old | last
    · exact ⟨b, old, r, offers⟩
    · obtain rfl := List.mem_singleton.mp last
      exact (unoffered c r offers).elim
  · obtain ⟨still, before⟩ := left.manned kept g empty
    exact ⟨(steady.queue g).trans still, before.trans (manned g still)⟩

/-- An agent whose offer is withdrawn. -/
theorem agent_withdrawn {c : CallSlot} {r k : CallRec} (before : AgentsPurged v w l) (left : AgentsLeft s v w x l)
    (new : a ∉ l) (offers : OffersTo s x a c r) (here : w.call c = some k)
    (same : k.offPlayout = r.offPlayout) (linked : LinksLegal z) (one : AgentPurged w z a (some c)) (back : CallWithdrawn w z a c k) :
    AgentsLeft s v z x (l ++ [a]) := by
  have pending : k.pendingOverflow = r.pendingOverflow := (congrArg CallRec.pendingOverflow same :)
  have alone (b : AgentSlot) (member : b ∈ l) (d : CallSlot) (q : CallRec) (also : OffersTo s x b d q) : d ≠ c := fun e => by
    subst e
    exact new (offers.same_agent also ▸ member)
  have last : a ∈ l ++ [a] := List.mem_append_right _ (List.mem_singleton_self a)
  obtain ⟨m, raised⟩ := left.raised
  refine ⟨linked, .of_swaps ((h.calls.swaps.trans before.swaps).trans one.swaps) (fun g => ?_) (fun g d member => ?_),
    fun b member d q also => ?_, ?_, fun d => ?_, fun g => (left.conditioned g).trans (back.conditioned (fun g member => ?_) g),
    fun kept g empty => ?_⟩
  · rw [← left.groups.order g]
    have drops := offers.keepsPlace
    cases waits : r.pendingOverflow with
    | true =>
      rw [waits] at drops
      exact filter_of_dropped (back.queue g) drops
    | false => rw [back.stays (pending.trans waits)]
  · by_cases this : d = c
    · exact .inr (this ▸ offers.withdrawn)
    · exact left.groups.members g d ((mem_of_dropped (back.queue g) this).mp member)
  · rcases List.mem_append.mp member with old | this
    · obtain ⟨q', y, groups, used, fields⟩ := left.withdrawn b old d q also
      have still := one.calls d fun e => alone b old d q also (Option.some.inj e)
      rw [used, Option.map_some, Option.map_eq_some_iff] at still
      obtain ⟨q'', now, kept⟩ := still
      exact ⟨q'', y, groups, now, kept.trans fields⟩
    · obtain rfl := List.mem_singleton.mp this
      have equal : d = c := by
        have first := legal.bindings.boundCall offers.call offers.bindsTo
        exact legal.bindings.only first d q also.call also.bindsTo
      subst equal
      obtain rfl := Option.some.inj (offers.call.symm.trans also.call)
      obtain ⟨q', now, fields⟩ := back.call
      exact ⟨q', w, left.groups, now, fields.trans (withdrawn_congr same w b)⟩
  · rw [back.callTriggers, raised]
    split
    · exact ⟨m, rfl⟩
    · exact ⟨m ++ [c], List.append_assoc ..⟩
  · have either : d ∈ z.callTriggers ↔ d ∈ w.callTriggers ∨ d = c := by
      rw [back.callTriggers]
      split
      next old => exact ⟨.inl, fun either => either.elim id fun e => e ▸ old⟩
      next => rw [List.mem_append, List.mem_singleton]
    rw [either, left.triggered, or_assoc]
    refine or_congr_right ⟨?_, ?_⟩
    · rintro (⟨b, member, q, also⟩ | rfl)
      · exact ⟨b, List.mem_append_left _ member, q, also⟩
      · exact ⟨a, last, r, offers⟩
    · rintro ⟨b, member, q, also⟩
      rcases List.mem_append.mp member with old | this
      · exact .inl ⟨b, old, q, also⟩
      · obtain rfl := List.mem_singleton.mp this
        have first := legal.bindings.boundCall offers.call offers.bindsTo
        exact .inr (legal.bindings.only first d q also.call also.bindsTo)
  · obtain ⟨q, used, named, -⟩ := (left.linked.queues.members g c).mp member
    obtain rfl := Option.some.inj (here.symm.trans used)
    exact named.symm
  · obtain ⟨still, earlier⟩ := left.manned kept g empty
    have plain : r.pendingOverflow = false := Bool.eq_false_of_not_eq_true fun waits => by
      refine kept c ⟨offers.withdrawn, ?_⟩
      rw [offers.keepsPlace, waits]
      rfl
    exact ⟨(back.stays (pending.trans plain) g).trans still, earlier.trans (back.manned (pending.trans plain) g still)⟩

/-- The sign-outs of a list of agents homed on the shelf. -/
theorem purgeAgents_left (l : List AgentSlot) (inside : ∀ a ∈ l, (s.agent a).home = x) (once : l.Nodup) :
    AgentsLeft s v (l.foldl State.purgeAgent v) x l := by
  induction l using List.reverseRecOn with
  | nil =>
    have linked := (h.callsLeft legal).linked
    exact ⟨linked, h.groups_first legal, nofun, ⟨[], (List.append_nil _).symm⟩, fun c => by simp,
      fun _ => .of_groups rfl rfl fun _ _ => rfl, fun _ g empty => ⟨empty, .of_same rfl rfl⟩⟩
  | append_singleton l a ih =>
    rw [List.nodup_append] at once
    obtain ⟨first, -, apart⟩ := once
    have new : a ∉ l := fun member => apart a member a (List.mem_singleton_self a) rfl
    have left := ih (fun b member => inside b (List.mem_append_left _ member)) first
    have before := purgeAgents_purged v l first
    have home := inside a (List.mem_append_right _ (List.mem_singleton_self a))
    rw [List.foldl_append, List.foldl_cons, List.foldl_nil]
    generalize l.foldl State.purgeAgent v = w at *
    have linked : LinksLegal (w.purgeAgent a) := (linksLegal_iff _).mpr (((linksLegal_iff w).mp left.linked).purgeAgent a)
    have one := purgeAgent_purged w a
    have same := before.withdraws new
    cases withdraws : v.withdraws a with
    | none =>
      rw [same, withdraws] at one
      obtain ⟨steady, manned⟩ := one.still rfl
      exact h.agent_steady legal before left home withdraws linked steady manned
    | some c =>
      obtain ⟨r, offers⟩ := (h.withdraws_iff_offers legal home).mp withdraws
      rw [same, withdraws] at one
      obtain ⟨offered, bound, k, here⟩ := withdraws_iff.mp (same.trans withdraws)
      obtain ⟨k', still, fields⟩ := h.call_kept offers.call offers.owner
      have unmoved : (w.call c).map CallRec.offPlayout = (v.call c).map CallRec.offPlayout := before.calls c fun b member also => by
        obtain ⟨q, theirs⟩ := (h.withdraws_iff_offers legal (inside b (List.mem_append_left _ member))).mp also
        exact new (offers.same_agent theirs ▸ member)
      rw [here, still, Option.map_some, Option.map_some] at unmoved
      exact h.agent_withdrawn legal before left new offers here ((Option.some.inj unmoved).trans fields) linked one
        (withdrawn_purged offered bound here).2

theorem agentsLeft : AgentsLeft s v u x (v.agentsOf x) := by
  rw [h.agentsFlow]
  exact h.purgeAgents_left legal _ (fun a member => (h.mem_agents a).mp member) (agentsOf_nodup v x)

end ShelfPurged

end Sys2Proof.Machine

/-! What the purge of a shelf leaves of the other shelf's calls and of the groups, in a state whose records agree (R34, R43, R46 to R49,
R52, R72, R93, R101, R108). -/

namespace Sys2Proof.Machine

namespace ShelfPurged

variable {s v u t : State} {x : Shelf} (h : ShelfPurged s v u t x)

theorem callsOf_bereaved (s : State) (x : Shelf) : (s.callsOf x).filterMap (s.bereftOf x) = s.bereaved x := by
  rw [callsOf_eq, List.filterMap_filter]
  refine List.filterMap_congr fun c _ => ?_
  cases call : s.call c with
  | none => rfl
  | some r =>
    rw [Option.any_some, State.bereftOf, call, Option.bind_some]
    split
    next => rfl
    next other => exact (if_neg fun owner => other (beq_iff_eq.mpr owner)).symm

include h

theorem conditioned_end (g : Group) : Conditioned u t g := by
  refine .of_groups h.ended.groups h.ended.base.clock fun c _ => ?_
  have entry (o : Option CallRec) : o.map CallRec.entry = (o.map CallRec.offPlayout).map CallRec.entry := by cases o <;> rfl
  rw [entry, h.ended.calls, ← entry]

variable (legal : LinksLegal s)
include legal

theorem linked_end : LinksLegal t := by
  have before := (linksLegal_iff u).mp (h.agentsLeft legal).linked
  rw [linksLegal_iff, h.endFlow]
  exact ((before.clearPort x).congr (.raisePurgeDone _)).arbitrate

theorem groups_end : PurgeGroups s t x := by
  have groups := (h.agentsLeft legal).groups
  refine .of_swaps h.swaps (fun g => ?_) fun g c member => ?_
  · rw [h.group]
    exact groups.order g
  · rw [h.group] at member
    exact groups.members g c member

theorem conditioned (g : Group) : Conditioned s t g :=
  (((h.callsLeft legal).conditioned g).trans ((h.agentsLeft legal).conditioned g)).trans (h.conditioned_end g)

/-- No sign-out takes an offer from a call that is not withdrawn. -/
theorem not_withdrawn {c : CallSlot} (stays : ¬Withdrawn s x c) (a : AgentSlot) (member : a ∈ v.agentsOf x) : v.withdraws a ≠ some c :=
  fun withdraws => by
  obtain ⟨r, offers⟩ := (h.withdraws_iff_offers legal ((h.mem_agents a).mp member)).mp withdraws
  exact stays offers.withdrawn

theorem kept {c : CallSlot} {r : CallRec} (call : s.call c = some r) (owner : r.owner ≠ x) (stays : ¬Withdrawn s x c) :
    ∃ q, t.call c = some q ∧ q.offPlayout = r.offPlayout := by
  obtain ⟨k, still, same⟩ := h.call_kept call owner
  have now := (h.ended.calls c).trans (h.agents.calls c (h.not_withdrawn legal stays))
  rw [still, Option.map_some, Option.map_eq_some_iff] at now
  obtain ⟨q, last, fields⟩ := now
  exact ⟨q, last, fields.trans same⟩

/-- A withdrawn call is back in a queue. -/
theorem withdrawn {a : AgentSlot} {c : CallSlot} {r : CallRec} (offers : OffersTo s x a c r) :
    ∃ q w, PurgeGroups s w x ∧ t.call c = some q ∧ c ∈ (t.group q.group).queue ∧ q.state = .queued ∧ q.offPlayout =
      ((r.returned a false).overflowed w (if r.pendingOverflow then w.overflowTo r else none)).offPlayout := by
  obtain ⟨k, w, groups, back, fields⟩ := (h.agentsLeft legal).withdrawn a ((h.mem_agents a).mpr offers.home) c r offers
  have now := h.ended.calls c
  rw [back, Option.map_some, Option.map_eq_some_iff] at now
  obtain ⟨q, last, same⟩ := now
  have final := same.trans fields
  have queued : q.state = .queued := by
    refine (off_fields final).1.trans ?_
    cases (if r.pendingOverflow then w.overflowTo r else none) <;> rfl
  exact ⟨q, w, groups, last, ((h.linked_end legal).queues.members q.group c).mpr ⟨q, last, rfl, .inl queued⟩, queued, final⟩

theorem heard (still : ∀ g, (t.group g).swapPending = (s.group g).swapPending) (empty : s.waitList = []) {c : CallSlot} {r : CallRec}
    (call : s.call c = some r) (owner : r.owner ≠ x) (stays : ¬Withdrawn s x c) : t.call c = some r := by
  have between (g : Group) := h.calls.swaps.between h.agents.swaps (fun g => by rw [← h.group]; exact still g) g
  have first := h.calls.heard (fun g => (between g).1) c (not_mem_callsOf call owner)
  have second := h.agents.heard (fun g => (between g).2) c (h.not_withdrawn legal stays)
  have third : t.call c = u.call c :=
    congrArg (Vector.get · c) (h.ended.heard (h.agents.waitList (h.calls.waitList empty)))
  rw [third, second, first, call]

theorem callTriggers : (∃ l, t.callTriggers = s.callTriggers ++ l)
    ∧ ∀ c, c ∈ t.callTriggers ↔ c ∈ s.callTriggers ∨ Withdrawn s x c := by
  have left := h.agentsLeft legal
  rw [h.ended.callTriggers, ← h.calls.callTriggers]
  refine ⟨left.raised, fun c => (left.triggered c).trans (or_congr_right ?_)⟩
  rw [withdrawn_iff]
  exact ⟨fun ⟨a, _, r, offers⟩ => ⟨a, r, offers⟩, fun ⟨a, r, offers⟩ => ⟨a, (h.mem_agents a).mpr offers.home, r, offers⟩⟩

theorem agentTriggers : (∃ l, t.agentTriggers = s.agentTriggers ++ l)
    ∧ ∀ a, a ∈ t.agentTriggers ↔ a ∈ s.agentTriggers ∨ (a ∈ s.bereaved x ∧ (t.agent a).state = .ready) := by
  have left := h.callsLeft legal
  rw [h.ended.agentTriggers, h.agents.triggers, ← callsOf_bereaved s x]
  refine ⟨left.raised, fun a => (left.triggered a).trans (or_congr_right (and_congr_right fun member => ?_))⟩
  rw [h.agent_away (bereft_away member)]

theorem offers (g : Group) : (t.group g).offers =
    ((List.finRange 1024).filter fun c =>
      (s.call c).any fun r => r.group == g && r.state == .offered && r.owner != x
        && !r.boundAgent.any fun a => (s.agent a).home == x).length := by
  have lists : ((List.finRange 1024).filter fun c => (t.call c).any fun r => r.group == g && r.state == .offered) =
      (List.finRange 1024).filter fun c =>
        (s.call c).any fun r => r.group == g && r.state == .offered && r.owner != x
          && !r.boundAgent.any fun a => (s.agent a).home == x := by
    refine List.filter_congr fun c _ => ?_
    cases call : s.call c with
    | none => rw [h.purged.unused c call]; rfl
    | some r =>
      by_cases owner : r.owner = x
      · rw [h.purged.freed c r call owner, Option.any_some, owner, bne_self_eq_false, Bool.and_false, Bool.false_and]
        rfl
      by_cases withdrawn : Withdrawn s x c
      · obtain ⟨a, r', offers⟩ := withdrawn_iff.mp withdrawn
        obtain rfl := Option.some.inj (call.symm.trans offers.call)
        obtain ⟨q, -, -, last, -, queued, -⟩ := h.withdrawn legal offers
        have home : ((s.agent a).home == x) = true := beq_iff_eq.mpr offers.home
        rw [last, Option.any_some, Option.any_some, queued, offers.bound, Option.any_some, home, Bool.not_true, Bool.and_false]
        exact Bool.and_false _
      · obtain ⟨q, last, same⟩ := h.kept legal call owner withdrawn
        obtain ⟨state, group, -, -⟩ := off_fields same
        have other : (r.owner != x) = true := bne_iff_ne.mpr owner
        rw [last, Option.any_some, Option.any_some, state, group, other, Bool.and_true]
        by_cases offered : r.state = .offered
        · have free : (r.boundAgent.any fun a => (s.agent a).home == x) = false := Bool.eq_false_of_not_eq_true fun some_ => by
            simp only [Option.any_eq_true, beq_iff_eq] at some_
            obtain ⟨a, bound, home⟩ := some_
            exact withdrawn ⟨r, a, call, owner, offered, bound, home⟩
          rw [free, Bool.not_false, Bool.and_true]
        · rw [beq_false_of_ne offered, Bool.and_false, Bool.false_and]
  rw [(h.linked_end legal).counts.offers, lists]

theorem swapsPerformed (g : Group) : (t.group g).swapPending = ((s.group g).swapPending && (t.group g).offers != 0)
    ∧ (t.group g).active = if (s.group g).swapPending ∧ (t.group g).offers = 0 then (s.group g).staged else (s.group g).active := by
  have quiet := (h.linked_end legal).counts.swap g
  rcases h.swaps.swap g with ⟨same, active⟩ | ⟨waited, done, none, active⟩
  · cases waits : (s.group g).swapPending with
    | false =>
      rw [waits] at same
      exact ⟨same.trans rfl, active.trans (if_neg fun both => Bool.false_ne_true both.1).symm⟩
    | true =>
      rw [waits] at same
      have some_ := quiet same
      exact ⟨by rw [same, bne_iff_ne.mpr some_]; rfl, active.trans (if_neg fun both => some_ both.2).symm⟩
  · refine ⟨by rw [done, none, waited]; rfl, ?_⟩
    rw [if_pos ⟨waited, none⟩]
    exact active

theorem tallied : ∃ m n, Tally s t (portOf (other x)) (s.bereaved x) m n := by
  obtain ⟨m, n, tally⟩ := (h.callsLeft legal).tally
  have grows : PortsGrow v u := by
    rw [h.agentsFlow]
    exact portsGrow_full.foldl (fun w a => portsGrow_full.purgeAgent w a) _ v
  obtain ⟨k, listens, notices⟩ := h.agents.listens (other x)
  obtain ⟨k', listens', notices'⟩ := h.ended.listens
  have clock : t.clock = v.clock := h.ended.base.clock.trans h.agents.swaps.base.clock
  rw [← callsOf_bereaved s x]
  obtain ⟨m, tally⟩ := tally.listens (t := t) (fun a member => h.agent_away (bereft_away member))
    (fun a member => (h.calls.bereft legal member).1) clock
    ⟨k ++ k', fun n member => (List.mem_append.mp member).elim (listens n) (listens' n), by rw [notices', notices, List.append_assoc]⟩
    fun a member => h.ended.owed a ((grows (other x)).2 a member)
  exact ⟨m, n, tally⟩

/-- NO_STAFF is not met by the freeing of OFFERED calls together with their agents. -/
theorem manned {g : Group} (kept : ∀ c, ¬(Withdrawn s x c ∧ s.keepsPlace x c = false))
    (all : ∀ c ∈ (s.group g).queue, ∃ r a, s.call c = some r ∧ r.owner = x ∧ r.state = .offered ∧ r.boundAgent = some a
      ∧ (s.agent a).staffs g = true) : StaysManned s t g := by
  have crew : s.crewed g := fun d member => by
    obtain ⟨r, a, call, -, offered, bound, staffs⟩ := all d member
    exact ⟨r, a, call, offered, bound, staffs⟩
  have first : StaysManned s v g := by
    rw [h.callsFlow]
    exact purgeCalls_manned legal x crew _ (fun c member => (mem_callsOf s x c).mp member) (callsOf_nodup s x)
  have empty : (v.group g).queue = [] := by
    rw [(h.callsLeft legal).queue, List.filter_eq_nil_iff]
    intro c member out
    obtain ⟨r, a, call, owner, -⟩ := all c member
    exact of_decide_eq_true out ((mem_callsOf s x c).mpr ⟨r, call, owner⟩)
  refine (first.trans ((h.agentsLeft legal).manned kept g empty).2).trans (.of_same ?_ ?_) <;> rw [h.group]

theorem purgedOthers : PurgedOthers s t x where
  groups := h.groups_end legal
  withdrawn c r a call owner offered bound home := by
    obtain ⟨q, w, groups, last, member, -, fields⟩ := h.withdrawn legal ⟨call, owner, offered, bound, home⟩
    exact ⟨q, w, groups, last, member, fields⟩
  kept _ _ call owner stays := h.kept legal call owner stays
  hears still empty _ _ call owner stays := h.heard legal still empty call owner stays
  callTriggers := h.callTriggers legal
  agentTriggers := h.agentTriggers legal
  offers := h.offers legal
  swaps := h.swapsPerformed legal
  sweep := by
    rw [Bool.eq_iff_iff, h.swaps.sweep, Bool.or_eq_true, List.any_eq_true]
    simp only [List.mem_finRange, true_and, Bool.and_eq_true, Bool.not_eq_true']
  notices := by
    obtain ⟨m, n, tally⟩ := h.tallied legal
    exact ⟨m, n, tally.notices, tally.states, tally.kinds, tally.room, tally.owed⟩
  conditions g differs := by
    obtain ⟨depth, wait, noStaff⟩ := (h.conditioned legal g).queue differs
    rw [State.depthAgrees] at depth
    rw [State.waitAgrees] at wait
    rw [State.noStaffAgrees] at noStaff
    rw [← depth, ← wait, ← noStaff]
  swapped g was gone := (h.conditioned legal g).swapped was gone
  staffing g differs := (h.conditioned legal g).staffed differs
  flags := h.flags
  offered _ kept before all := h.manned legal kept all before

end ShelfPurged

end Sys2Proof.Machine

/-! The purge as a request (R194): O54. What a purge leaves is read from records, and from notices that taking and answering a request
keep. -/

namespace Sys2Proof.Machine

section
variable {s u v t : State} {x : Shelf}

/-! ### From the work to the request -/

/-- States of the same data differ in their ports alone. -/
theorem SameData.ports (h : SameData s u) : ∃ a b p, u = { s with portA := a, portB := b, portS := p } := ⟨_, _, _, h.rest⟩

theorem SameData.bindings (h : SameData s u) (legal : BindingsLegal s) : BindingsLegal u := by
  obtain ⟨_, _, _, rfl⟩ := h.ports
  exact ⟨legal.both, legal.agents, legal.calls, legal.states, legal.ring⟩

theorem SameData.links (h : SameData s u) (legal : LinksLegal s) : LinksLegal u :=
  (linksLegal_iff u).mpr (((linksLegal_iff s).mp legal).congr
    (SameLinks.plain h.groups h.agents h.calls h.base.seqCounter h.waitList h.channels h.sources h.segments))

theorem Purged.request (h : Purged u v x) (before : SameData s u) (after : SameData v t) : Purged s t x := by
  have base := (before.base.trans h.base).trans after.base
  obtain ⟨notices, owed⟩ := after.queues (portOf x)
  obtain ⟨_, _, _, rfl⟩ := before.ports
  have port := And.intro (notices.trans h.port.1) (owed.trans h.port.2)
  obtain ⟨_, _, _, rfl⟩ := after.ports
  exact ⟨h.freed, h.kept, h.unused, h.signedOut, h.definitions, h.otherAgents, h.averages, port, h.owed, h.done, base⟩

theorem PurgedAgents.request (h : PurgedAgents u v x) (before : SameData s u) (after : SameData v t) : PurgedAgents s t x := by
  obtain ⟨_, _, _, rfl⟩ := before.ports
  obtain ⟨_, _, _, rfl⟩ := after.ports
  exact ⟨h.marked, h.out, h.freed, h.ended⟩

theorem PurgeGroups.request (h : PurgeGroups u v x) (before : SameData s u) (after : SameData v t) : PurgeGroups s t x := by
  obtain ⟨_, _, _, rfl⟩ := before.ports
  obtain ⟨_, _, _, rfl⟩ := after.ports
  exact ⟨h.clock, h.lines, h.closed, h.active, h.order, h.members⟩

theorem SameData.refl (s : State) : SameData s s := ⟨rfl, fun _ => ⟨rfl, rfl⟩⟩

theorem PurgedOthers.request (h : PurgedOthers u v x) (before : SameData s u) (after : SameData v t) : PurgedOthers s t x := by
  have groups := h.groups.request before after
  have port := before.notices (portOf (other x))
  have queue := after.queues (portOf (other x))
  have notices := h.notices
  rw [port, ← queue.1, ← queue.2] at notices
  obtain ⟨_, _, _, rfl⟩ := before.ports
  obtain ⟨_, _, _, rfl⟩ := after.ports
  refine ⟨groups, fun c r a call owner offered bound home => ?_, h.kept, h.hears, h.callTriggers, h.agentTriggers, h.offers, h.swaps,
    h.sweep, notices, h.conditions, h.swapped, h.staffing, h.flags, h.offered⟩
  obtain ⟨q, w, still, rest⟩ := h.withdrawn c r a call owner offered bound home
  exact ⟨q, w, still.request before (.refl w), rest⟩

end

/-! ### The response -/

theorem purgeReply_fields (s : State) (x : Shelf) : (s.purgeReply x).content.length = 4
    ∧ FieldsAt (s.purgeReply x).content
      [(0, 2, ((List.finRange 1024).filter fun c => (s.call c).any fun r => r.owner == x).length),
        (2, 2, ((List.finRange 512).filter fun a =>
          (s.agent a).home == x && (s.agent a).state != .signedOut && ((s.purgeShelf x).agent a).state == .signedOut).length)] := by
  have calls := congrArg List.length (callsOf_eq s x)
  have agents : s.signedOut (s.purgeShelf x) x = ((List.finRange 512).filter fun a =>
      (s.agent a).home == x && (s.agent a).state != .signedOut && ((s.purgeShelf x).agent a).state == .signedOut).length := by
    rw [State.signedOut, agentsOf_eq, List.filter_filter]
    exact congrArg List.length (List.filter_congr fun a _ => by rw [Bool.and_comm, Bool.and_assoc])
  rw [← calls, ← agents]
  have row : (s.purgeReply x).content = pack [(2, (s.callsOf x).length), (2, s.signedOut (s.purgeShelf x) x)] :=
    congrArg (field 2 (s.callsOf x).length ++ ·) (List.append_nil _).symm
  exact ⟨by rw [row, pack_length]; rfl, fieldsAt_only _ row⟩

/-- A request whose work is a purge of shelf `x`. -/
theorem exec_purges {s : State} {k : Kind} {p : Port} {ps : List Byte} {x : Shelf} (h : Takes s k p ps)
    (purges : ∀ u, actOf k p ps u = u.purgeReply x) :
    ∃ t content, exec (k.command p (frame ps)) s = .next t ∧ Answered t p .ok content ∧ content.length = 4
      ∧ FieldsAt content
          [(0, 2, ((List.finRange 1024).filter fun c => (s.call c).any fun r => r.owner == x).length),
            (2, 2, ((List.finRange 512).filter fun a =>
              (s.agent a).home == x && (s.agent a).state != .signedOut && (t.agent a).state == .signedOut).length)]
      ∧ OtherSlots s t p ∧ Purged s t x ∧ (BindingsLegal s → PurgedAgents s t x)
      ∧ (LinksLegal s → PurgedOthers s t x)
      ∧ ((∀ c r, s.call c = some r → r.owner = x → r.state = .offered → r.boundAgent ≠ none) →
        ∀ g, (t.group g).stats.purged =
          let n := ((List.finRange 1024).filter fun c =>
            (s.call c).any fun r => r.owner == x && r.group == g && (r.state == .queued || r.state == .offered)).length
          if n = 0 then (s.group g).stats.purged else min 65535 ((s.group g).stats.purged + n)) := by
  obtain ⟨taken, answered, others⟩ := exec_answers h
  rw [purges] at taken answered others
  have before := taken_data s p (frame ps)
  obtain ⟨length, fields⟩ := purgeReply_fields (s.taken p (frame ps)) x
  have after := answer_data p ((s.taken p (frame ps)).purgeReply x)
  generalize s.taken p (frame ps) = u at *
  obtain ⟨v, w, work⟩ := purgeShelf_purged u x
  have state : (u.purgeReply x).state = u.purgeShelf x := rfl
  rw [state] at after
  generalize State.answer p (u.purgeReply x) = t at *
  generalize u.purgeShelf x = z at *
  simp only [before.call, before.agent, ← after.agent] at fields
  refine ⟨t, _, taken, answered, length, fields, others, work.purged.request before after,
    fun legal => (work.purgedAgents (before.bindings legal)).request before after,
    fun legal => (work.purgedOthers (before.links legal)).request before after, fun bound g => ?_⟩
  have count := work.purgedStats g (by simpa only [before.call] using bound)
  simp only [before.call, before.group, ← after.group] at count
  exact count

/-- Settles O54: a purge is the freeing of the shelf's calls, then the signing out of its agents, then the emptying of its port. -/
theorem purgeEmptiesTheShelf : Obligations.PurgeEmptiesTheShelf := by
  unfold Obligations.PurgeEmptiesTheShelf
  intro s k p ps kind h
  constructor
  · rintro rfl high
    refine exec_refused h ?_
    change actPurgeShelf ps _ = _
    rw [actPurgeShelf, shelfOfByte_out high]
  · intro x fromPort named
    refine exec_purges h fun u => ?_
    obtain rfl | rfl := kind
    · have shelf : shelfOf p = some x := by
        rw [fromPort rfl]
        cases x <;> rfl
      change actPurge p ps u = _
      rw [actPurge, shelf]
    · change actPurgeShelf ps u = _
      rw [actPurgeShelf, named rfl]

end Sys2Proof.Machine
